-- ==== Sys2Proof/Word.lean ====
section
/-! DEFINITION. The byte, the unit of every record, frame and cell of the array (Conventions of 00_scope.md). -/

namespace Sys2Proof

/-- A byte of a frame, a record or the array. -/
abbrev Byte := BitVec 8

end Sys2Proof
end

