-- ==== Sys2Proof/Syntax.lean ====
section
/-! DEFINITION. The commands: one constructor for each row of spec/opcode_table.json. Requests carry the fields of their
frame (R162); an event of the array carries the physical outcome the manual leaves open (log 3). -/

namespace Sys2Proof

/-- One plan entry of a FORMAT request (R162): sector count and low-water mark as sent. -/
structure PlanEntry where
  sectors  : BitVec 16
  lowWater : Byte
deriving DecidableEq, Repr

/-- The commands of the part. `tag` and `level` are the frame's fields (10 section 10.2). `stuck` gives, for each target
byte in order, the bits a program was to clear and did not; a byte it does not reach has none. `residue` lists the bytes,
by array address, that read other than 0xFF in the sectors of the batch when its erase ended or was cut. -/
inductive Instr
  | transactionStart
  | ignoredTransaction (later : Nat)
  | badFrame (frame : List Byte)
  | fetch (clocked : Nat)
  | ident (tag level : Byte)
  | status (tag level : Byte)
  | notice (tag level : Byte) (settings : List (Byte × Byte)) (floor : Byte)
  | clear (tag level conditions : Byte)
  | tune (tag level reserve preempt : Byte)
  | abort (tag level target : Byte)
  | abandon (tag level context : Byte)
  | restart (tag level : Byte)
  | data (tag level context : Byte) (offset : BitVec 24) (bytes : List Byte)
  | write (tag level : Byte) (slot : BitVec 16) (zone cls : Byte) (length : BitVec 24)
  | read (tag level : Byte) (slot : BitVec 16) (offset : BitVec 24) (count : Byte)
  | list (tag level : Byte) (startAfter : BitVec 16) (maximum : Byte)
  | delete (tag level : Byte) (slot : BitVec 16)
  | verify (tag level : Byte) (slot : BitVec 16)
  | compact (tag level zone count : Byte)
  | format (tag level zoneCount : Byte) (entries : List PlanEntry)
  | resetAsserted (stuck : List Byte) (residue : List (Nat × Byte))
  | coldStart (stuck : List Byte) (residue : List (Nat × Byte))
  | maintPinChange (asserted : Bool)
  | debounceExpiry
  | gatheringWindowExpiry
  | readComplete
  | programComplete (stuck : List Byte)
  | markComplete (stuck : List Byte)
  | operationTimeout (stuck : List Byte)
  | suspendComplete
  | erasePhaseEnd (residue : List (Nat × Byte))
  | batchTimeout (residue : List (Nat × Byte))
  | headerWriteComplete (stuck : List Byte)
  | lossOfPower (stuck : List Byte) (residue : List (Nat × Byte))
deriving DecidableEq, Repr

end Sys2Proof
end

