-- ==== Sys2Proof/Decode.lean ====
section
/-! DEFINITION. The commands a word of the table's bits spells. No row of spec/opcode_table.json gives any bits (every
"fields" is empty and no row has "fixed"), so no word spells a command. Request frames are decoded byte by byte in
Machine/Frames.lean (R161, R162). -/

namespace Sys2Proof

/-- No row of the table gives bits: every word is refused. -/
def decodeTableWord (_nbits _w : Nat) : Option Instr := none

end Sys2Proof
end

