-- ==== Sys2Proof/Config.lean ====
section
/-! DEFINITION. What the Imbrel 1640 fixes: its geometry, capacities, limits and times.
The manual leaves no value to an implementation, so there is no free constant here: what it leaves to the
array's physics is an operand of the event that shows it (log 3). -/

namespace Sys2Proof.Config

/-- R1: 512 sectors. -/
abbrev sectorCount : Nat := 512
/-- R1: 4096 bytes in a sector. -/
abbrev sectorSize : Nat := 4096
/-- R1: the array's program buffer. -/
abbrev pageSize : Nat := 256
/-- R1: 512 sectors of 4096 bytes. -/
abbrev arraySize : Nat := 2097152
/-- DESIGN CHOICE (log 4), unsafe: what a byte of the array that nothing has written reads as. -/
abbrev blankByte : Byte := 0xFF
/-- Sector and extent headers fill 32 bytes (R5, R9). -/
abbrev headerSize : Nat := 32
/-- R14: a sector with less room than this is sealed. -/
abbrev sealRoom : Nat := 64
/-- R12: the most data bytes of an extent. -/
abbrev maxExtentData : Nat := 4032
/-- R20: the most extents of a generation. -/
abbrev maxExtents : Nat := 72
/-- R19: slot ids run from 1 to 4095. -/
abbrev maxSlot : Nat := 4095
/-- R19: the greatest slot length. -/
abbrev maxLength : Nat := 262144
/-- R25: directory entries. -/
abbrev directoryCapacity : Nat := 256
/-- R27: the sequence counter's last value, which is never assigned. -/
abbrev sequenceEnd : Nat := 0xFFFFFFFF
/-- R21: the copy number at which an extent is no longer relocated. -/
abbrev maxCopy : Nat := 65535
/-- R5: where the erase count saturates. -/
abbrev maxEraseCount : Nat := 0xFFFFFF
/-- R7, R30, R95, R112, R131: attempts of one mark. -/
abbrev maxAttempts : Nat := 3
/-- R120: sectors of a batch. -/
abbrev batchMax : Nat := 8
/-- R67: suspensions of one batch. -/
abbrev suspendBudget : Nat := 8
/-- R148: entries of the request queue. -/
abbrev queueMax : Nat := 16
/-- R148: ACTIVE entries. -/
abbrev activeMax : Nat := 4
/-- R165: direct places of the reply queue. -/
abbrev directPlaces : Nat := 6
/-- R84: bytes of a staging buffer. -/
abbrev bufferSize : Nat := 256
/-- R122: the gathering window, in microseconds. -/
abbrev windowTime : Nat := 300
/-- R142: the MAINT debounce, in microseconds. -/
abbrev debounceTime : Nat := 5000
/-- R66: the PROGRAM timeout, in microseconds. -/
abbrev programTime : Nat := 4000
/-- R66: the MARK timeout, in microseconds. -/
abbrev markTime : Nat := 1000
/-- R70: the batch timeout, in microseconds of unsuspended time. -/
abbrev batchTime : Nat := 400000
/-- R164: the vendor code of IDENT. -/
abbrev vendorCode : Nat := 0x47
/-- R147: the part code of IDENT. -/
abbrev partCode : Nat := 0x1640
/-- R164: the revision of IDENT. -/
abbrev revision : Nat := 0x01

end Sys2Proof.Config
end

