-- ==== Sys2Proof/Machine/State.lean ====
section
/-! DEFINITION. The state of the part as plain data, block by block, and the state right after a cold start. -/

namespace Sys2Proof.Machine

/-! ### Names -/

/-- Whether the part runs, is held by an asserted RESET, or has no supply (R171, R4). -/
inductive RunState
  | running | inReset | unpowered
deriving DecidableEq, Repr

/-- R170: the store states, in the order of their codes (R164). -/
inductive StoreState
  | scanning | blank | mounted | formatting
deriving DecidableEq, Repr

/-- R137: the protection classes OPEN, GUARDED and FIXED. -/
inductive SlotClass
  | opened | guarded | fixed
deriving DecidableEq, Repr

/-- R154: the status codes. -/
inductive Status
  | ok | badCrc | badLength | unknownKind | queueFull | notReady | badField | noSlot | protected_ | slotBusy | noContext
  | directoryFull | noSpace | sequenceExhausted | noCredit | outOfOrder | aborted | mediaFault | dataCorrupt | fragmented
  | tooLate | notFound | abandoned
deriving DecidableEq, Repr

/-- R156: the notes, in the order of their bits (10 section 10.2). -/
inductive Note
  | suspendedErase | waitedSpace | retried | mediaEvent | shortened | maintOverride | more
deriving DecidableEq, Repr

/-- R167: the conditions, in set order (10 section 10.2). -/
inductive Cond
  | mounted | spaceLow0 | spaceLow1 | spaceLow2 | spaceLow3 | media | overrun | maint
deriving DecidableEq, Repr

/-- R42: the sector states, in the order of STATUS. -/
inductive SectorState
  | free | owned | tail | sealed | stale | erasing | bad
deriving DecidableEq, Repr

/-- R59: the claim kinds, in the kind order of R63. -/
inductive OpKind
  | read | mark | program | erase
deriving DecidableEq, Repr

/-- R62: the engine states, in the order of their codes (R164). -/
inductive EngineState
  | idle | busy | erasing | suspending | suspended | suspendedBusy
deriving DecidableEq, Repr

/-- R83: the context states, in the order of their codes (R164). -/
inductive CtxState
  | idle | receiving | closing | committing | ended
deriving DecidableEq, Repr

/-- R83: the two write contexts. -/
inductive CtxId
  | c0 | c1
deriving DecidableEq, Repr

/-- R84: the two staging buffers of a context. -/
inductive BufId
  | x | y
deriving DecidableEq, Repr

/-- R84: the states of a staging buffer. -/
inductive BufState
  | empty | filled | programming
deriving DecidableEq, Repr

/-- R42: the owners a sector may have. -/
inductive Holder
  | ctx (c : CtxId) | runner
deriving DecidableEq, Repr

/-! ### Link Port -/

/-- R165: the place a reply occupies. -/
inductive Place
  | queued | ending (c : CtxId) | direct
deriving DecidableEq, Repr

/-- R165: a produced reply. `kind` is the request's kind code, without the 0x80 of the frame. -/
structure Reply where
  kind    : Byte
  tag     : Byte
  status  : Status
  notes   : Byte
  payload : List Byte
  place   : Place
deriving DecidableEq, Repr

/-- R157: a direct place held by an ABORT, with the age of the entry whose boundary answers it. -/
structure HeldAbort where
  tag    : Byte
  target : Nat
deriving DecidableEq, Repr

/-- R167: one row of the condition table. -/
structure CondRow where
  set    : Bool
  enable : Bool
  level  : Nat
deriving DecidableEq, Repr

/-- R159: the SPI transaction in progress. A lost one began before RESET was released. -/
inductive Transaction
  | none
  | active (status : Byte) (fixed : Option Reply)
  | lost
deriving DecidableEq, Repr

/-- The Link Port: transaction, MISO bytes of the last transaction, reply queue, held places, condition table, floor. -/
structure Link where
  transaction : Transaction
  miso    : List Byte
  replies : List Reply
  held    : List HeldAbort
  conds   : List CondRow
  floor   : Nat
deriving DecidableEq, Repr

/-! ### Request Queue and Scheduler -/

/-- R147: the fields of a queued request, as received. -/
inductive Request
  | write (slot zone cls length : Nat)
  | read (slot offset count : Nat)
  | list (startAfter maximum : Nat)
  | delete (slot : Nat)
  | verify (slot : Nat)
  | compact (zone count : Nat)
  | format (zoneCount : Nat) (plan : List (Nat × Nat))
deriving DecidableEq, Repr

/-- R148: an entry of the request queue. -/
structure Entry where
  request    : Request
  tag        : Byte
  level      : Nat
  age        : Nat
  active     : Bool
  abortWaits : Bool
deriving DecidableEq, Repr

/-- The Request Queue and Scheduler (R148). -/
structure Rqs where
  queue   : List Entry
  reserve : Nat
  nextAge : Nat
deriving DecidableEq, Repr

/-! ### Slot Directory -/

/-- R26: one element of an extent list; its index is its position. -/
structure Elem where
  sector : Nat
  offset : Nat
  length : Nat
  copy   : Nat
deriving DecidableEq, Repr

/-- R26: a directory entry. -/
structure DirEntry where
  slot          : Nat
  zone          : Nat
  cls           : SlotClass
  length        : Nat
  sequence      : Nat
  extents       : List Elem
  openCtx       : Option CtxId
  deletePending : Bool
  relocating    : Bool
  lingering     : List Nat
deriving DecidableEq, Repr

/-- R29: a record of the retiring list. `superseded` is its cause (false: RECOVERY). `deferred` and `extra`, the sector
and space of a new head copy counted under the record, are R31's. -/
structure Retiring where
  slot       : Nat
  sequence   : Nat
  extents    : List Elem
  head       : Elem
  superseded : Bool
  level      : Nat
  attempts   : Nat
  waiting    : Option CtxId
  deferred   : Bool
  extra      : Option (Nat × Nat)
deriving DecidableEq, Repr

/-- R105: what a serving record serves. -/
inductive ServeKind
  | read | delete | verify
deriving DecidableEq, Repr

/-- R105: a serving record. `readLen`, `readCount` and `shortened` are the figures of R107 for the claim raised; `elem` is the
element of a VERIFY's step or a DELETE's head. `gone`: the entry left while an operation was granted (R118).
`detached`: discarded by RESTART while its DELETE attempt is carried to its decision (R36). -/
structure Serving where
  age       : Nat
  kind      : ServeKind
  tag       : Byte
  level     : Nat
  slot      : Nat
  offset    : Nat
  count     : Nat
  sequence  : Nat
  readLen   : Nat
  readCount : Nat
  shortened : Bool
  attempts  : Nat
  nextIndex : Nat
  checked   : Nat
  elem      : Elem
  notes     : Byte
  gone      : Bool
  detached  : Bool
deriving DecidableEq, Repr

/-- The Slot Directory: directory in ascending slot id, retiring list, serving records, sequence counter. -/
structure Sdr where
  directory : List DirEntry
  retiring  : List Retiring
  serving   : List Serving
  sequence  : Nat
deriving DecidableEq, Repr

/-! ### Sector Map -/

/-- R41: an entry of the sector table. -/
structure Sector where
  state      : SectorState
  zone       : Nat
  eraseCount : Nat
  nextWrite  : Nat
  live       : Nat
  pending    : Nat
  retiring   : Nat
  suspect    : Bool
  owner      : Option Holder
deriving DecidableEq, Repr

/-- R40: a row of the zone table. Its outstanding reservation and its state counts are computed. -/
structure Zone where
  first      : Nat
  count      : Nat
  lowWater   : Nat
  tail       : Option Nat
  spareInUse : Bool
  waiting    : List CtxId
deriving DecidableEq, Repr

/-- The Sector Map. -/
structure Smp where
  sectors : List Sector
  zones   : List Zone
deriving DecidableEq, Repr

/-! ### Program/Erase Engine -/

/-- A READ's run (R59): `length` bytes of `sector` from `offset`. -/
structure Run where
  sector : Nat
  offset : Nat
  length : Nat
deriving DecidableEq, Repr

/-- R59: the target of a claim. `openBatch` is the open batch as it stands at the grant (R124). -/
inductive Target
  | runs (rs : List Run)
  | bytes (sector offset : Nat) (intended : List Byte)
  | openBatch
  | sectors (ss : List Nat)
deriving DecidableEq, Repr

/-- R59, R60: the owner of a claim, and what it raised the claim for. -/
inductive Purpose
  | ctxFirst (c : CtxId)
  | ctxData (c : CtxId)
  | ctxClose (c : CtxId)
  | ctxCommit (c : CtxId)
  | ctxReadBack (c : CtxId)
  | readSlot (age : Nat)
  | verifyStep (age : Nat)
  | deleteMark (age : Nat)
  | deleteReadBack (age : Nat)
  | obsolete (slot sequence : Nat)
  | suspectMark (sector attempt : Nat)
  | runnerRead
  | runnerFirst
  | runnerData
  | runnerClose
  | runnerDiscard
  | reclaimErase
  | formatErase
  | scanRead (sector : Nat)
deriving DecidableEq, Repr

/-- R60: the owners of claims. -/
inductive Owner
  | ctx (c : CtxId)
  | serving (age : Nat)
  | retiring (slot sequence : Nat)
  | suspect (sector : Nat)
  | runner
  | reclaim
  | scan
deriving DecidableEq, Repr

/-- R59: a claim. -/
structure Claim where
  age     : Nat
  purpose : Purpose
  kind    : OpKind
  level   : Nat
  target  : Target
deriving DecidableEq, Repr

/-- R67, R69: one sector of the batch in progress: the header given at the grant, the erase count in it, whether it
carries BAD, and its results. -/
structure BatchSector where
  sector   : Nat
  header   : List Byte
  count    : Nat
  bad      : Bool
  erased   : Bool
  done     : Bool
  headerOk : Bool
deriving DecidableEq, Repr

/-- R62, R67: the batch in progress. `forFormat`: its owner is the Scan Unit. `headers`: in its header-write phase. -/
structure Batch where
  forFormat   : Bool
  zone        : Nat
  sectors     : List BatchSector
  headers     : Bool
  unsuspended : Nat
deriving DecidableEq, Repr

/-- The Program/Erase Engine (R62). `op` is the claim granted and running; `opClock` counts the microseconds since its
grant, or since the start of the header write in progress (R66). `cause` is the age of the claim that started the
suspension being taken (R73). -/
structure Pee where
  state   : EngineState
  claims  : List Claim
  op      : Option Claim
  batch   : Option Batch
  budget  : Nat
  preempt : Nat
  cause   : Option Nat
  nextAge : Nat
  opClock : Nat
deriving DecidableEq, Repr

/-! ### Write Context Unit -/

/-- R84: a staging buffer. `done` counts its bytes already programmed. -/
structure Buffer where
  state  : BufState
  bytes  : List Byte
  offset : Nat
  done   : Nat
deriving DecidableEq, Repr

/-- R83: the extent being filled. `mustClose`: a data program of it failed (R99). -/
structure CurExtent where
  index     : Nat
  sector    : Nat
  offset    : Nat
  data      : Nat
  crc       : BitVec 32
  mustClose : Bool
deriving DecidableEq, Repr

/-- R83: a closed extent of a context; its index is its position. -/
structure Written where
  sector : Nat
  offset : Nat
  length : Nat
deriving DecidableEq, Repr

/-- R93 to R96: how far the commit has come. -/
inductive CommitPhase
  | notReached | waiting | attempting | switched
deriving DecidableEq, Repr

/-- R83, R97, R104: why a context is ending while an operation of it runs. -/
inductive EndCause
  | withStatus (s : Status) | byRestart
deriving DecidableEq, Repr

/-- R83: a write context. -/
structure WriteCtx where
  state         : CtxState
  slot          : Nat
  zone          : Nat
  cls           : SlotClass
  sequence      : Nat
  total         : Nat
  received      : Nat
  programmed    : Nat
  current       : Option CurExtent
  written       : List Written
  owned         : Option Nat
  reservation   : Nat
  failures      : Nat
  maintRequired : Bool
  tag           : Byte
  level         : Nat
  ending        : Option EndCause
  notes         : Byte
  commit        : CommitPhase
  attempts      : Nat
  bufX          : Buffer
  bufY          : Buffer
  fillNext      : BufId
  drainNext     : BufId
deriving DecidableEq, Repr

/-- The Write Context Unit. -/
structure Wcu where
  c0 : WriteCtx
  c1 : WriteCtx
deriving DecidableEq, Repr

/-! ### Reclaim Unit -/

/-- R120: the open batch. `window` is the running gathering window's time, none when it is not running. -/
structure OpenBatch where
  zone    : Nat
  sectors : List Nat
  window  : Option Nat
  raised  : Bool
deriving DecidableEq, Repr

/-- R135: the kinds of a relocation step. -/
inductive StepKind
  | evacuation | compact
deriving DecidableEq, Repr

/-- R129: the operations of a relocation step that use the array. -/
inductive StepPhase
  | reading | firstStage | data | closing | discarding
deriving DecidableEq, Repr

/-- R129: the step record. `job` is the age of the COMPACT's entry it serves. -/
structure Step where
  kind      : StepKind
  job       : Option Nat
  level     : Nat
  slot      : Nat
  sequence  : Nat
  index     : Nat
  elem      : Elem
  zone      : Nat
  phase     : StepPhase
  bytes     : List Byte
  newSector : Nat
  newOffset : Nat
  sent      : Nat
  attempts  : Nat
deriving DecidableEq, Repr

/-- R133: the COMPACT job; `age` is the age of its queue entry. -/
structure Job where
  age      : Nat
  zone     : Nat
  asked    : Nat
  emptied  : Nat
  victim   : Option Nat
  taken    : List Nat
  failures : Nat
  level    : Nat
  notes    : Byte
deriving DecidableEq, Repr

/-- The Reclaim Unit (R120). `stopAtEnd`: RESTART came during the current step (R136). -/
structure Rcu where
  eraseQueue : List Nat
  openBatch  : Option OpenBatch
  evacQueue  : List Nat
  step       : Option Step
  hold       : Option Nat
  job        : Option Job
  lastKind   : Option StepKind
  owned      : Option Nat
  stopAtEnd  : Bool
deriving DecidableEq, Repr

/-! ### Maintenance Line Input and Scan Unit -/

/-- The Maintenance Line Input (R142); true is asserted. -/
structure Mli where
  pin   : Bool
  level : Bool
  timer : Option Nat
deriving DecidableEq, Repr

/-- R172: a candidate record. Class, total and marks are a head's. -/
structure Candidate where
  slot      : Nat
  sequence  : Nat
  index     : Nat
  copy      : Nat
  sector    : Nat
  offset    : Nat
  length    : Nat
  cls       : SlotClass
  total     : Nat
  committed : Bool
  obsolete  : Bool
deriving DecidableEq, Repr

/-- R172: the classification of a sector. -/
inductive ScanClass
  | blankErased | bad | walked | torn
deriving DecidableEq, Repr

/-- R170: a scan record. -/
structure ScanRecord where
  cls        : ScanClass
  format     : Nat
  plan       : List (Nat × Nat)
  eraseCount : Nat
  suspect    : Bool
  nextWrite  : Nat
  walkSealed : Bool
  space      : Nat
deriving DecidableEq, Repr

/-- R177, R178: the FORMAT runner. `age` is the age of its queue entry. -/
structure FormatRun where
  position : Nat
  level    : Nat
  age      : Nat
  notes    : Byte
  stopped  : Bool
deriving DecidableEq, Repr

/-- The Scan Unit (R170). -/
structure Scu where
  store      : StoreState
  format     : Nat
  candidates : List Candidate
  records    : List ScanRecord
  highest    : Nat
  runner     : Option FormatRun
deriving DecidableEq, Repr

/-! ### The whole -/

/-- The nine blocks of the part and its run state. -/
structure Part where
  run  : RunState
  link : Link
  rqs  : Rqs
  sdr  : Sdr
  smp  : Smp
  pee  : Pee
  wcu  : Wcu
  rcu  : Rcu
  mli  : Mli
  scu  : Scu
deriving DecidableEq, Repr

/-- The machine: the flash array as its listed bytes, the part, and the commands waiting, first in, first out. -/
structure State where
  array   : List Host.Cell
  part    : Part
  pending : List Instr
deriving DecidableEq, Repr

/-- Why the machine stops with a fault. -/
inductive Fault
  /-- Raised by READ_COMPLETE, PROGRAM_COMPLETE, MARK_COMPLETE, OPERATION_TIMEOUT and HEADER_WRITE_COMPLETE when the
  operation names a byte outside the 512 sectors of R1. Safe: no owner raises such a claim (log 29). -/
  | outsideArray
deriving DecidableEq, Repr

/-- Why the model has no meaning for a command. -/
inductive Refusal
  /-- Raised by exec's arm of a command that has no meaning yet; there is none. Safe. -/
  | notModelled (mnemonic : String)
deriving DecidableEq, Repr

/-! ### Cold values -/

/-- A staging buffer that holds nothing (R84). -/
def Buffer.cold : Buffer := { state := .empty, bytes := [], offset := 0, done := 0 }

/-- R83: an IDLE context, every other field none, empty or 0 (class: log 34). -/
def WriteCtx.cold : WriteCtx :=
  { state := .idle, slot := 0, zone := 0, cls := .opened, sequence := 0, total := 0, received := 0, programmed := 0,
    current := none, written := [], owned := none, reservation := 0, failures := 0, maintRequired := false, tag := 0,
    level := 0, ending := none, notes := 0, commit := .notReached, attempts := 0, bufX := .cold, bufY := .cold,
    fillNext := .x, drainNext := .x }

/-- R57: an entry of the sector table while it is not meaningful. DESIGN CHOICE (log 15), unsafe. -/
def Sector.cold : Sector :=
  { state := .stale, zone := 0, eraseCount := 0, nextWrite := 4096, live := 0, pending := 0, retiring := 0,
    suspect := false, owner := none }

/-- R167: a clear condition, disabled, at level 0. -/
def CondRow.cold : CondRow := { set := false, enable := false, level := 0 }

/-- R171: the scan's claim for all 4096 bytes of a sector, at level 0. -/
def Claim.scan (age sector : Nat) : Claim :=
  { age := age, purpose := .scanRead sector, kind := .read, level := 0,
    target := .runs [{ sector := sector, offset := 0, length := Config.sectorSize }] }

/-- The part right after a cold start with MAINT released: every block at its cold values and the scan read of sector 0
granted (R39, R57, R81, R83, R136, R145, R148, R165, R167, R171). -/
def Part.cold : Part :=
  { run := .running
    link := { transaction := .none, miso := [], replies := [], held := [], conds := List.replicate 8 .cold, floor := 0 }
    rqs := { queue := [], reserve := 2, nextAge := 0 }
    sdr := { directory := [], retiring := [], serving := [], sequence := 1 }
    smp := { sectors := List.replicate Config.sectorCount .cold, zones := [] }
    pee := { state := .busy, claims := [], op := some (.scan 0 0), batch := none,
             budget := Config.suspendBudget, preempt := 4, cause := none, nextAge := 1, opClock := 0 }
    wcu := { c0 := .cold, c1 := .cold }
    rcu := { eraseQueue := [], openBatch := none, evacQueue := [], step := none, hold := none, job := none,
             lastKind := none, owned := none, stopAtEnd := false }
    mli := { pin := false, level := false, timer := none }
    scu := { store := .scanning, format := 0, candidates := [], records := [], highest := 0, runner := none } }

/-- The machine right after reset: nothing listed in the array (log 4), the part cold, no command waiting. -/
def State.reset : State := { array := [], part := .cold, pending := [] }

end Sys2Proof.Machine
end

