-- ==== Sys2Proof/Machine/Flags.lean ====
section
/-! DEFINITION. The codes and bits that cross the pins: status codes, notes, conditions, state codes, classes
(R154, R156, R164, R167, 10 section 10.2). -/

namespace Sys2Proof.Machine

/-- R154: the byte of a status. -/
def Status.code : Status → Byte
  | .ok => 0x00 | .badCrc => 0x11 | .badLength => 0x12 | .unknownKind => 0x13 | .queueFull => 0x21
  | .notReady => 0x31 | .badField => 0x32 | .noSlot => 0x33 | .protected_ => 0x34 | .slotBusy => 0x35
  | .noContext => 0x36 | .directoryFull => 0x37 | .noSpace => 0x38 | .sequenceExhausted => 0x39
  | .noCredit => 0x3A | .outOfOrder => 0x3B | .aborted => 0x41 | .mediaFault => 0x42 | .dataCorrupt => 0x43
  | .fragmented => 0x44 | .tooLate => 0x45 | .notFound => 0x46 | .abandoned => 0x47

/-- The bit of a note in the notes byte (10 section 10.2). -/
def Note.bit : Note → Byte
  | .suspendedErase => 0x01 | .waitedSpace => 0x02 | .retried => 0x04 | .mediaEvent => 0x08 | .shortened => 0x10
  | .maintOverride => 0x20 | .more => 0x40

/-- R156: a set of notes with one note more. -/
def withNote (n : Note) (notes : Byte) : Byte := notes ||| n.bit

/-- The position of a condition in set order (10 section 10.2). -/
def Cond.index : Cond → Nat
  | .mounted => 0 | .spaceLow0 => 1 | .spaceLow1 => 2 | .spaceLow2 => 3 | .spaceLow3 => 4 | .media => 5
  | .overrun => 6 | .maint => 7

/-- R126: the SPACE_LOW condition of a zone. -/
def spaceLowOf : Nat → Cond
  | 0 => .spaceLow0 | 1 => .spaceLow1 | 2 => .spaceLow2 | _ => .spaceLow3

/-- R167: set a condition, whatever its enable. -/
def setCond (c : Cond) (p : Part) : Part :=
  { p with link := { p.link with conds := p.link.conds.modify c.index (fun r => { r with set := true }) } }

/-- A list of booleans as a byte, the first in bit 0. -/
def packBits (bs : List Bool) : Byte :=
  (bs.zipIdx).foldl (fun a bi => if bi.1 then a ||| (1#8 <<< bi.2) else a) 0

/-- The set flags as a byte (R164). -/
def condSetByte (p : Part) : Byte := packBits (p.link.conds.map (·.set))

/-- The enables as a byte (R164). -/
def condEnableByte (p : Part) : Byte := packBits (p.link.conds.map (·.enable))

/-- R168: some condition is set, is enabled, and has a level above the attention floor. -/
def noticePending (p : Part) : Bool := p.link.conds.any (fun r => r.set && r.enable && decide (p.link.floor < r.level))

/-- R168: ATTN is asserted while a produced reply waits or a notice is pending, and never under RESET or without
supply. -/
def attn (p : Part) : Bool := decide (p.run = .running) && (!p.link.replies.isEmpty || noticePending p)

/-- R159, section 10.6: MISO is high-impedance while no transaction runs and while RESET is asserted. In a lost transaction it stays
so after RESET is released, though CS is still low (DESIGN CHOICE, log 47). -/
def misoHighImpedance (p : Part) : Bool :=
  decide (p.run ≠ .running) || (match p.link.transaction with | .active _ _ => false | _ => true)

/-- R84: a context's credit is the number of its EMPTY buffers. -/
def WriteCtx.credit (k : WriteCtx) : Nat :=
  (if k.bufX.state = .empty then 1 else 0) + (if k.bufY.state = .empty then 1 else 0)

/-- R160: the link status byte as it stands. -/
def statusByte (p : Part) : Byte :=
  (if p.link.replies.isEmpty then 0 else 0x01)
    ||| (if noticePending p then 0x02 else 0)
    ||| (if p.scu.store = .mounted then 0x04 else 0)
    ||| (BitVec.ofNat 8 p.wcu.c0.credit <<< 3)
    ||| (BitVec.ofNat 8 p.wcu.c1.credit <<< 5)
    ||| (if p.mli.level then 0x80 else 0)

/-- R164: the code of a store state. -/
def StoreState.code : StoreState → Nat
  | .scanning => 0 | .blank => 1 | .mounted => 2 | .formatting => 3

/-- R164: the code of a context state. -/
def CtxState.code : CtxState → Nat
  | .idle => 0 | .receiving => 1 | .closing => 2 | .committing => 3 | .ended => 4

/-- R164: the code of an engine state. -/
def EngineState.code : EngineState → Nat
  | .idle => 0 | .busy => 1 | .erasing => 2 | .suspending => 3 | .suspended => 4 | .suspendedBusy => 5

/-- R9: the class byte. -/
def SlotClass.code : SlotClass → Byte
  | .opened => 0x01 | .guarded => 0x02 | .fixed => 0x03

/-- The class a class byte names, if it names one (R12, R152). -/
def classOf : Nat → Option SlotClass
  | 1 => some .opened
  | 2 => some .guarded
  | 3 => some .fixed
  | _ => none

/-- R83: a context is open while it is RECEIVING, CLOSING or COMMITTING. -/
def WriteCtx.isOpen (k : WriteCtx) : Bool :=
  match k.state with
  | .receiving | .closing | .committing => true
  | .idle | .ended => false

/-- The code of a queued request's kind (10 section 10.2). -/
def Request.kind : Request → Byte
  | .write .. => 0x20 | .read .. => 0x21 | .list .. => 0x22 | .delete _ => 0x23 | .verify _ => 0x24
  | .compact .. => 0x25 | .format .. => 0x26

end Sys2Proof.Machine
end

