-- ==== Sys2Proof/Machine/Operands.lean ====
section
/-! DEFINITION. Byte order, fields of a byte string and the two CRCs (Conventions of 00_scope.md; R15, R17). -/

namespace Sys2Proof.Machine

/-- `v` as `n` bytes, most significant first. -/
def be : Nat → Nat → List Byte
  | 0, _ => []
  | n + 1, v => be n (v / 256) ++ [BitVec.ofNat 8 v]

/-- The number that a string of bytes spells, most significant first. -/
def ofBe (bs : List Byte) : Nat := bs.foldl (fun a b => a * 256 + b.toNat) 0

/-- `n` bytes of `bs` from position `at_`. -/
def slice (bs : List Byte) (at_ n : Nat) : List Byte := (bs.drop at_).take n

/-- The `n`-byte field of `bs` at position `at_`. -/
def field (bs : List Byte) (at_ n : Nat) : Nat := ofBe (slice bs at_ n)

/-- The byte of `bs` at position `i`, 0 where `bs` does not reach. -/
def byteAt (bs : List Byte) (i : Nat) : Byte := bs.getD i 0

/-- One bit of the CRC-16 (R15). -/
def crc16Bit (reg : BitVec 16) (bit : Bool) : BitVec 16 :=
  if reg.msb != bit then (reg <<< 1) ^^^ 0x1021#16 else reg <<< 1

/-- One byte of the CRC-16, most significant bit first (R15). -/
def crc16Byte (reg : BitVec 16) (b : Byte) : BitVec 16 :=
  [7, 6, 5, 4, 3, 2, 1, 0].foldl (fun r i => crc16Bit r (b.getLsbD i)) reg

/-- R15: the CRC-16 of a string of bytes. -/
def crc16 (bs : List Byte) : BitVec 16 := bs.foldl crc16Byte 0xFFFF#16

/-- The CRC-16 of `bs` as it is stored, high byte first (R15). -/
def crc16Bytes (bs : List Byte) : List Byte := be 2 (crc16 bs).toNat

/-- One bit of the CRC-32 (R17). -/
def crc32Bit (reg : BitVec 32) (bit : Bool) : BitVec 32 :=
  if reg.getLsbD 0 != bit then (reg >>> 1) ^^^ 0xEDB88320#32 else reg >>> 1

/-- One byte of the CRC-32, least significant bit first (R17). -/
def crc32Byte (reg : BitVec 32) (b : Byte) : BitVec 32 :=
  [0, 1, 2, 3, 4, 5, 6, 7].foldl (fun r i => crc32Bit r (b.getLsbD i)) reg

/-- R17: the starting value of the running CRC-32. -/
def crc32Init : BitVec 32 := 0xFFFFFFFF#32

/-- The running CRC-32 advanced over `bs` (R90). -/
def crc32Run (reg : BitVec 32) (bs : List Byte) : BitVec 32 := bs.foldl crc32Byte reg

/-- R17: the CRC-32 that a running register stands for. -/
def crc32Final (reg : BitVec 32) : BitVec 32 := reg ^^^ 0xFFFFFFFF#32

/-- R17: the CRC-32 of a string of bytes. -/
def crc32 (bs : List Byte) : BitVec 32 := crc32Final (crc32Run crc32Init bs)

/-- R13: `n` rounded up to the next multiple of 4. -/
def roundUp4 (n : Nat) : Nat := n + (4 - n % 4) % 4

/-- R13: the padding of an extent of `n` data bytes. -/
def padding (n : Nat) : Nat := (4 - n % 4) % 4

/-- R13: the space of an extent of `n` data bytes: header, data and padding. -/
def space (n : Nat) : Nat := 32 + n + padding n

end Sys2Proof.Machine
end

