-- ==== Sys2Proof/Machine/Ops.lean ====
section
/-! DEFINITION. The named operations: the bytes of the array, the entries of the tables, the places of the reply
queue. The array keeps ONE canonical form: addresses strictly rising, inside the array, no listed blank byte. -/

namespace Sys2Proof.Machine

/-! ### The array -/

/-- The listed bytes of the array. -/
abbrev Memory := List Host.Cell

/-- R1: the address of a byte of the array, named by its sector and offset. -/
def addr (sector offset : Nat) : Nat := sector * Config.sectorSize + offset

/-- The byte at an address. -/
def Memory.read : Memory → Nat → Byte
  | [], _ => Config.blankByte
  | (b, v) :: m, a => if b = a then v else Memory.read m a

/-- The byte put at an address in a list sorted by address. -/
def Memory.insert : Memory → Nat → Byte → Memory
  | [], a, v => if v = Config.blankByte then [] else [(a, v)]
  | (b, w) :: m, a, v =>
    if b < a then (b, w) :: Memory.insert m a v
    else
      let rest := if b = a then m else (b, w) :: m
      if v = Config.blankByte then rest else (a, v) :: rest

/-- Write a byte. An address outside the array has no byte (R1) and nothing is written there. -/
def Memory.write (m : Memory) (a : Nat) (v : Byte) : Memory :=
  if a < Config.arraySize then m.insert a v else m

/-- The canonical form, below a bound that the first address must reach. -/
def Memory.wfFrom : Nat → Memory → Bool
  | _, [] => true
  | lo, (a, v) :: m => decide (lo ≤ a) && decide (a < Config.arraySize) && decide (v ≠ Config.blankByte) && Memory.wfFrom (a + 1) m

/-- The canonical form of the array: addresses strictly rising and inside the array, no blank byte listed. -/
def Memory.wf (m : Memory) : Bool := Memory.wfFrom 0 m

/-- `n` bytes from address `a` of a sorted list that lists nothing below `a`. -/
def Memory.readFrom : Memory → Nat → Nat → List Byte
  | _, _, 0 => []
  | [], a, n + 1 => Config.blankByte :: Memory.readFrom [] (a + 1) n
  | (b, v) :: m, a, n + 1 =>
    if b = a then v :: Memory.readFrom m (a + 1) n else Config.blankByte :: Memory.readFrom ((b, v) :: m) (a + 1) n

/-- `n` bytes from address `a`. -/
def Memory.readBytes (m : Memory) (a n : Nat) : List Byte := Memory.readFrom (m.dropWhile (fun c => c.1 < a)) a n

/-- R3: erase one sector: every byte reads 0xFF. -/
def Memory.eraseSector (m : Memory) (s : Nat) : Memory :=
  m.filter (fun c => decide (c.1 < addr s 0) || decide (addr (s + 1) 0 ≤ c.1))

/-- Write each listed byte whose address lies in one of the sectors. -/
def Memory.writeResidue (ss : List Nat) : List (Nat × Byte) → Memory → Memory
  | [], m => m
  | (a, v) :: rs, m => Memory.writeResidue ss rs (if ss.contains (a / Config.sectorSize) then m.write a v else m)

/-- R3: erase the sectors, leaving in them the bytes the event says do not read 0xFF. -/
def Memory.eraseSectors (m : Memory) (ss : List Nat) (residue : List (Nat × Byte)) : Memory :=
  Memory.writeResidue ss residue (ss.foldl Memory.eraseSector m)

/-- R2, R65: the byte a program leaves: every bit the intended value holds at 0 is cleared, but for the stuck ones, and
no bit is set. -/
def programmedByte (old intended stuck : Byte) : Byte := old &&& (intended ||| stuck)

/-- Program a run of bytes from address `a` (R2), with the bits that failed to clear. -/
def Memory.programFrom (m : Memory) (a : Nat) : List Byte → List Byte → Memory
  | [], _ => m
  | v :: vs, stuck =>
    Memory.programFrom (m.write a (programmedByte (m.read a) v (stuck.headD 0))) (a + 1) vs stuck.tail

/-- R2: the pre-check of one byte: every bit the intended value holds at 1 is 1 in the array. A byte given as 0xFF always passes,
whatever it held: R2 observes so, against its own bit test and step 1 of R65. To follow the observation is the model's choice
(DESIGN CHOICE, log 56). -/
def preCheckByte (old intended : Byte) : Bool := intended == 0xFF || old &&& intended == intended

/-- R2: the pre-check of an operation: each of its bytes passes. -/
def preCheck (old intended : List Byte) : Bool := (old.zip intended).all (fun oi => preCheckByte oi.1 oi.2)

/-- The number of leading bytes that read back as intended (R65). -/
def leadingEqual : List Byte → List Byte → Nat
  | a :: as, b :: bs => if a = b then leadingEqual as bs + 1 else 0
  | _, _ => 0

/-! ### Conditions and replies -/

/-- R166: the direct places in use, by produced replies or held by ABORTs. -/
def directInUse (p : Part) : Nat := (p.link.replies.filter (fun r => r.place = .direct)).length + p.link.held.length

/-- R149: the queued-class replies waiting in the reply queue, Q. -/
def queuedReplies (p : Part) : Nat := (p.link.replies.filter (fun r => r.place = .queued)).length

/-- The reply joins the tail of the reply queue (R165). -/
def pushReply (r : Reply) (p : Part) : Part := { p with link := { p.link with replies := p.link.replies ++ [r] } }

/-- R166: a direct reply takes a free direct place, or is dropped and OVERRUN is set. -/
def placeDirect (kind tag : Byte) (status : Status) (payload : List Byte) (p : Part) : Part :=
  if directInUse p < Config.directPlaces then
    pushReply { kind := kind, tag := tag, status := status, notes := 0, payload := payload, place := .direct } p
  else setCond .overrun p

/-! ### Tables -/

/-- The sector table's entry of a sector. -/
def Part.sector (p : Part) (i : Nat) : Sector := p.smp.sectors.getD i .cold

/-- Change the sector table's entry of a sector. -/
def modSector (i : Nat) (f : Sector → Sector) (p : Part) : Part :=
  { p with smp := { p.smp with sectors := p.smp.sectors.modify i f } }

/-- Change the zone table's row of a zone. -/
def modZone (z : Nat) (f : Zone → Zone) (p : Part) : Part :=
  { p with smp := { p.smp with zones := p.smp.zones.modify z f } }

/-- A write context. -/
def Part.ctx (p : Part) : CtxId → WriteCtx
  | .c0 => p.wcu.c0
  | .c1 => p.wcu.c1

/-- Change a write context. -/
def modCtx (c : CtxId) (f : WriteCtx → WriteCtx) (p : Part) : Part :=
  match c with
  | .c0 => { p with wcu := { p.wcu with c0 := f p.wcu.c0 } }
  | .c1 => { p with wcu := { p.wcu with c1 := f p.wcu.c1 } }

/-- The number of a context on the link. -/
def CtxId.num : CtxId → Nat
  | .c0 => 0
  | .c1 => 1

/-- The context a number names, if it names one (R86, R103). -/
def ctxOf : Nat → Option CtxId
  | 0 => some .c0
  | 1 => some .c1
  | _ => none

/-- Both contexts. -/
def allCtx : List CtxId := [.c0, .c1]

/-- The directory entry of a slot, if it is present (R19). -/
def Part.entryOf (p : Part) (slot : Nat) : Option DirEntry := p.sdr.directory.find? (fun e => e.slot = slot)

/-- Change the directory entry of a slot. -/
def modEntry (slot : Nat) (f : DirEntry → DirEntry) (p : Part) : Part :=
  { p with sdr := { p.sdr with directory := p.sdr.directory.map (fun e => if e.slot = slot then f e else e) } }

/-- The directory with one entry more, in ascending slot id (R25). -/
def insertEntry (e : DirEntry) : List DirEntry → List DirEntry
  | [] => [e]
  | d :: ds => if d.slot < e.slot then d :: insertEntry e ds else e :: d :: ds

/-- The record of the retiring list of a generation (R29). -/
def Part.retiringOf (p : Part) (slot sequence : Nat) : Option Retiring :=
  p.sdr.retiring.find? (fun r => r.slot = slot && r.sequence = sequence)

/-- Change the record of a generation. -/
def modRetiring (slot sequence : Nat) (f : Retiring → Retiring) (p : Part) : Part :=
  { p with sdr := { p.sdr with
      retiring := p.sdr.retiring.map (fun r => if r.slot = slot && r.sequence = sequence then f r else r) } }

/-- The serving record of a queue entry's age (R105). -/
def Part.servingOf (p : Part) (age : Nat) : Option Serving := p.sdr.serving.find? (fun r => r.age = age)

/-- Change a serving record. -/
def modServing (age : Nat) (f : Serving → Serving) (p : Part) : Part :=
  { p with sdr := { p.sdr with serving := p.sdr.serving.map (fun r => if r.age = age then f r else r) } }

/-- Drop a serving record. -/
def dropServing (age : Nat) (p : Part) : Part :=
  { p with sdr := { p.sdr with serving := p.sdr.serving.filter (fun r => r.age ≠ age) } }

/-- The queue entry of an age. -/
def Part.queueEntry (p : Part) (age : Nat) : Option Entry := p.rqs.queue.find? (fun e => e.age = age)

/-- R148: the count of active entries. -/
def activeCount (p : Part) : Nat := (p.rqs.queue.filter (·.active)).length

/-- The store is MOUNTED. -/
def Part.mounted (p : Part) : Bool := decide (p.scu.store = .mounted)

end Sys2Proof.Machine
end

