-- ==== Sys2Proof/Machine/Engine.lean ====
section
/-! DEFINITION. The Program/Erase Engine's claim set: raising and withdrawing claims, the preempting test, the start of
a suspension, the notes of a served request (R59 to R63, R72, R73, R77, R78). Granting is in Machine/Batch.lean. -/

namespace Sys2Proof.Machine

/-- R60: the owner of a claim. -/
def Purpose.owner : Purpose → Owner
  | .ctxFirst c | .ctxData c | .ctxClose c | .ctxCommit c | .ctxReadBack c => .ctx c
  | .readSlot a | .verifyStep a | .deleteMark a | .deleteReadBack a => .serving a
  | .obsolete s q => .retiring s q
  | .suspectMark s _ => .suspect s
  | .runnerRead | .runnerFirst | .runnerData | .runnerClose | .runnerDiscard => .runner
  | .reclaimErase => .reclaim
  | .formatErase | .scanRead _ => .scan

/-- The owner has a claim waiting in the claim set. -/
def claimWaits (o : Owner) (p : Part) : Bool := p.pee.claims.any (fun c => c.purpose.owner == o)

/-- The owner has a claim granted and running. -/
def claimRuns (o : Owner) (p : Part) : Bool :=
  match p.pee.op with
  | some c => c.purpose.owner == o
  | none => false

/-- R60: the owner has a claim outstanding. -/
def claimOutstanding (o : Owner) (p : Part) : Bool := claimWaits o p || claimRuns o p

/-- A claim of this very purpose waits in the set. -/
def purposeWaits (u : Purpose) (p : Part) : Bool := p.pee.claims.any (fun c => c.purpose == u)

/-- A claim of this very purpose is granted and running. -/
def purposeRuns (u : Purpose) (p : Part) : Bool :=
  match p.pee.op with
  | some c => c.purpose == u
  | none => false

/-- R61: the owner's waiting claim leaves the set without an operation. -/
def withdraw (o : Owner) (p : Part) : Part :=
  { p with pee := { p.pee with claims := p.pee.claims.filter (fun c => !(c.purpose.owner == o)) } }

/-- R72: a claim is preempting when it is a READ, or a MARK or PROGRAM of level p or above. The READ that begins an evacuation step,
at level 0, is a READ like any other (DESIGN CHOICE, log 51). -/
def preempting (preempt : Nat) (c : Claim) : Bool :=
  match c.kind with
  | .read => true
  | .mark | .program => decide (preempt ≤ c.level)
  | .erase => false

/-- R73: a suspension starts: the budget falls by one, the engine enters SUSPENDING, and the claim is its cause. -/
def startSuspension (age : Nat) (p : Part) : Part :=
  { p with pee := { p.pee with state := .suspending, budget := p.pee.budget - 1, cause := some age } }

/-- R59, R73: a claim joins the claim set, with the next age; a preempting one joining while ERASING with budget left
starts a suspension. -/
def raise (u : Purpose) (kind : OpKind) (level : Nat) (target : Target) (p : Part) : Part :=
  let c : Claim := { age := p.pee.nextAge, purpose := u, kind := kind, level := level, target := target }
  let q : Part := { p with pee := { p.pee with claims := p.pee.claims ++ [c], nextAge := p.pee.nextAge + 1 } }
  if p.pee.state = .erasing ∧ 1 ≤ p.pee.budget ∧ preempting p.pee.preempt c = true then startSuspension c.age q else q

/-- The sectors of the batch in progress. -/
def batchSectors (p : Part) : List Nat :=
  match p.pee.batch with
  | some b => b.sectors.map (·.sector)
  | none => []

/-- The sectors a claim's target lies in. -/
def Target.touched : Target → List Nat
  | .runs rs => rs.map (·.sector)
  | .bytes s _ _ => [s]
  | .openBatch => []
  | .sectors ss => ss

/-- R63: the claim's target lies outside the batch in progress. -/
def clearOfBatch (p : Part) (c : Claim) : Bool := c.target.touched.all (fun s => !(batchSectors p).contains s)

/-- R63: the kind order READ, MARK, PROGRAM, ERASE. -/
def OpKind.rank : OpKind → Nat
  | .read => 0 | .mark => 1 | .program => 2 | .erase => 3

/-- R63: `a` goes before `b`: higher level, then kind order, then age. -/
def Claim.before (a b : Claim) : Bool :=
  decide (b.level < a.level) ||
    (decide (a.level = b.level) && (decide (a.kind.rank < b.kind.rank) ||
      (decide (a.kind.rank = b.kind.rank) && decide (a.age < b.age))))

/-- R63: the claim of a list that the engine grants. -/
def bestClaim : List Claim → Option Claim
  | [] => none
  | c :: cs =>
    match bestClaim cs with
    | none => some c
    | some d => if d.before c then some d else some c

/-- R63, R72: the claims the engine may grant in its state. -/
def eligibleClaims (p : Part) : List Claim :=
  match p.pee.state with
  | .idle => p.pee.claims.filter (clearOfBatch p)
  | .suspended => p.pee.claims.filter (fun c => clearOfBatch p c && preempting p.pee.preempt c)
  | _ => []

/-! ### Notes of the served request -/

/-- R156: a note for a write context's WRITE. -/
def noteCtx (c : CtxId) (n : Note) (p : Part) : Part := modCtx c (fun k => { k with notes := withNote n k.notes }) p

/-- R156: a note for the COMPACT a step serves, if its job still stands. -/
def noteStepJob (n : Note) (p : Part) : Part :=
  match p.rcu.step, p.rcu.job with
  | some st, some j =>
    if st.job = some j.age then { p with rcu := { p.rcu with job := some { j with notes := withNote n j.notes } } } else p
  | _, _ => p

/-- R60, R156: a note for the served request of a claim, if there is one. -/
def noteServed (u : Purpose) (n : Note) (p : Part) : Part :=
  match u.owner with
  | .ctx c => noteCtx c n p
  | .serving a => modServing a (fun r => { r with notes := withNote n r.notes }) p
  | .retiring s q =>
    match p.retiringOf s q with
    | some r =>
      match r.waiting with
      | some c => noteCtx c n p
      | none => p
    | none => p
  | .runner => noteStepJob n p
  | .scan =>
    match u, p.scu.runner with
    | .formatErase, some f => { p with scu := { p.scu with runner := some { f with notes := withNote n f.notes } } }
    | _, _ => p
  | .suspect _ | .reclaim => p

/-- R78: the waiting claims that a change of p makes preempting. -/
def newlyPreempting (old new : Nat) (p : Part) : List Claim :=
  p.pee.claims.filter (fun c => preempting new c && !preempting old c)

/-- R78: the engine takes a new preempt level; in ERASING with budget left, the oldest waiting claim that it makes
preempting starts a suspension. -/
def setPreempt (new : Nat) (p : Part) : Part :=
  let q : Part := { p with pee := { p.pee with preempt := new } }
  match newlyPreempting p.pee.preempt new p with
  | c :: _ => if p.pee.state = .erasing ∧ 1 ≤ p.pee.budget then startSuspension c.age q else q
  | [] => q

end Sys2Proof.Machine
end

