-- ==== Sys2Proof/Machine/Records.lean ====
section
/-! DEFINITION. The records on the array: sector headers, extent headers, their forms, and the walk of a sector's
written space (R5, R6, R9, R10, R12, R18). -/

namespace Sys2Proof.Machine

/-! ### The zone plan -/

/-- R40: the plan's bounds: 1 to 4 zones, sector counts of 8 to 512 that sum to 512, low-water marks of 1 to 32. -/
def planValid (plan : List (Nat × Nat)) : Bool :=
  decide (1 ≤ plan.length) && decide (plan.length ≤ 4)
    && plan.all (fun z => decide (8 ≤ z.1) && decide (z.1 ≤ 512) && decide (1 ≤ z.2) && decide (z.2 ≤ 32))
    && decide ((plan.map (·.1)).sum = Config.sectorCount)

/-- R40: the zone that contains a sector: zones follow one another from sector 0. -/
def zoneOfSector : List (Nat × Nat) → Nat → Nat
  | [], _ => 0
  | z :: zs, s => if s < z.1 then 0 else zoneOfSector zs (s - z.1) + 1

/-! ### Sector header -/

/-- One plan entry of the header, 3 bytes; all 0xFF beyond the zone count. -/
def planEntryBytes (plan : List (Nat × Nat)) (i : Nat) : List Byte :=
  match plan[i]? with
  | some z => be 2 z.1 ++ be 1 z.2
  | none => [0xFF, 0xFF, 0xFF]

/-- R5: the 32 bytes of a sector header. -/
def sectorHeaderBytes (format zone eraseCount : Nat) (plan : List (Nat × Nat)) (bad : Bool) : List Byte :=
  let body := [0xB7] ++ be 2 format ++ be 1 zone ++ be 3 eraseCount ++ be 1 plan.length
    ++ planEntryBytes plan 0 ++ planEntryBytes plan 1 ++ planEntryBytes plan 2 ++ planEntryBytes plan 3
  body ++ crc16Bytes body ++ List.replicate 8 0xFF ++ [0xFF, if bad then 0x00 else 0xFF]

/-- R7: a mark byte reads as set when any of its bits is 0. -/
def markSet (b : Byte) : Bool := decide (b ≠ 0xFF)

/-- The plan a header records, its entries up to the zone count. -/
def headerPlan (h : List Byte) : List (Nat × Nat) :=
  (List.range (field h 7 1)).map (fun i => (field h (8 + 3 * i) 2, field h (10 + 3 * i) 1))

/-- R6: the header read from sector `s` is valid. -/
def sectorHeaderValid (s : Nat) (h : List Byte) : Bool :=
  decide (byteAt h 0 = 0xB7)
    && decide (slice h 20 2 = crc16Bytes (h.take 20))
    && decide (field h 1 2 ≠ 0)
    && decide (1 ≤ field h 7 1) && decide (field h 7 1 ≤ 4)
    && planValid (headerPlan h)
    && (List.range 4).all (fun i => decide (i < field h 7 1) || decide (slice h (8 + 3 * i) 3 = [0xFF, 0xFF, 0xFF]))
    && decide (field h 3 1 = zoneOfSector (headerPlan h) s)

/-! ### Extent header -/

/-- R9: the 32 bytes of an extent's first stage. A head gives its class and total length. -/
def firstStageBytes (slot sequence index copy : Nat) (head : Option (SlotClass × Nat)) (committed : Bool) : List Byte :=
  let cls : List Byte := match head with
    | some ct => [ct.1.code] ++ be 3 ct.2
    | none => [0xFF, 0xFF, 0xFF, 0xFF]
  let body := [0x5E] ++ be 2 slot ++ be 4 sequence ++ be 1 index ++ be 2 copy ++ cls
  body ++ crc16Bytes body ++ List.replicate 7 0xFF ++ [if committed then 0x00 else 0xFF] ++ List.replicate 8 0xFF

/-- R10: the 7 bytes of the close stage. -/
def closeBytes (length : Nat) (crc : List Byte) : List Byte := be 3 length ++ crc

/-- Offsets of the close stage and of the mark bytes in an extent header (section 1.2). -/
abbrev closeOffset : Nat := 16
abbrev committedOffset : Nat := 23
abbrev obsoleteOffset : Nat := 24
abbrev discardedOffset : Nat := 25
/-- Offsets of the mark bytes in a sector header. -/
abbrev suspectOffset : Nat := 30
abbrev badOffset : Nat := 31

/-- R12: an extent header's first stage is valid. -/
def firstStageValid (h : List Byte) : Bool :=
  decide (byteAt h 0 = 0x5E)
    && decide (slice h 14 2 = crc16Bytes (h.take 14))
    && decide (1 ≤ field h 1 2) && decide (field h 1 2 ≤ Config.maxSlot)
    && decide (field h 3 4 ≠ 0) && decide (field h 3 4 ≠ Config.sequenceEnd)
    && decide (field h 7 1 < Config.maxExtents)
    && (if field h 7 1 = 0 then (classOf (field h 10 1)).isSome && decide (field h 11 3 ≤ Config.maxLength)
        else decide (slice h 10 4 = [0xFF, 0xFF, 0xFF, 0xFF]))

/-- R12: the five forms an extent header is read in. -/
inductive ExtentForm
  | erased | torn | unclosed | unsound | closed
deriving DecidableEq, Repr

/-- R12: a data length fits at header offset `h`. -/
def lengthFits (h n : Nat) : Bool := decide (n ≤ Config.maxExtentData) && decide (h + 32 + n ≤ Config.sectorSize)

/-- R12: the form of the header at offset `h` of a sector's bytes. -/
def extentForm (bytes : List Byte) (h : Nat) : ExtentForm :=
  let hd := slice bytes h 32
  if hd.all (fun b => decide (b = 0xFF)) then .erased
  else if !firstStageValid hd then .torn
  else
    let n := field hd 16 3
    if n = 0xFFFFFF then .unclosed
    else if !lengthFits h n then .torn
    else if slice hd 19 4 = be 4 (crc32 (slice bytes (h + 32) n)).toNat then .closed
    else .unsound

/-- R172: the candidate that a CLOSED header at offset `h` of sector `s` makes. -/
def candidateOf (s h : Nat) (hd : List Byte) : Candidate :=
  { slot := field hd 1 2, sequence := field hd 3 4, index := field hd 7 1, copy := field hd 8 2, sector := s, offset := h,
    length := field hd 16 3, cls := (classOf (field hd 10 1)).getD .opened, total := field hd 11 3,
    committed := markSet (byteAt hd committedOffset), obsolete := markSet (byteAt hd obsoleteOffset) }

/-- R18: what the walk of a sector finds. -/
structure Walk where
  candidates : List Candidate
  nextWrite  : Nat
  walkSealed : Bool
  space      : Nat
  highest    : Nat
deriving DecidableEq, Repr

/-- R18, R172: the walk of sector `s` from header offset `h`. Each step moves on by 32 bytes or more, so 128 steps reach
the end of any sector. -/
def walkFrom (s : Nat) (bytes : List Byte) : Nat → Nat → Walk → Walk
  | 0, _, w => w
  | fuel + 1, h, w =>
    if Config.sectorSize - h < Config.sealRoom then { w with nextWrite := h, walkSealed := true }
    else
      let hd := slice bytes h 32
      let seen := if firstStageValid hd then { w with highest := max w.highest (field hd 3 4) } else w
      match extentForm bytes h with
      | .erased => { w with nextWrite := h, walkSealed := false }
      | .torn | .unclosed => { seen with nextWrite := Config.sectorSize, walkSealed := true }
      | .unsound =>
        walkFrom s bytes fuel (h + roundUp4 (32 + field hd 16 3)) { seen with space := seen.space + space (field hd 16 3) }
      | .closed =>
        let cs := if markSet (byteAt hd discardedOffset) then seen.candidates else seen.candidates ++ [candidateOf s h hd]
        walkFrom s bytes fuel (h + roundUp4 (32 + field hd 16 3))
          { seen with candidates := cs, space := seen.space + space (field hd 16 3) }

/-- R18: the walk of a sector's written space, from offset 32. -/
def walk (s : Nat) (bytes : List Byte) : Walk :=
  walkFrom s bytes 128 32 { candidates := [], nextWrite := Config.sectorSize, walkSealed := true, space := 0, highest := 0 }

end Sys2Proof.Machine
end

