-- ==== Sys2Proof/Machine/Map.lean ====
section
/-! DEFINITION. The Sector Map and the Reclaim Unit's queues and open batch: room, sealing, the tail rule, becoming
STALE, suspect sectors, takes, reservations, low water (R13, R14, R41 to R58, R121 to R127). -/

namespace Sys2Proof.Machine

/-! ### Sectors and zones -/

/-- R13: a sector's room. -/
def Sector.room (s : Sector) : Nat := Config.sectorSize - s.nextWrite

/-- R46: the sector's three counts are all 0. -/
def Sector.countsZero (s : Sector) : Bool := decide (s.live = 0) && decide (s.pending = 0) && decide (s.retiring = 0)

/-- R40: the plan that the zone table holds. -/
def planOf (p : Part) : List (Nat × Nat) := p.smp.zones.map (fun z => (z.count, z.lowWater))

/-- The row of a zone of the plan. -/
def Part.zone (p : Part) (z : Nat) : Option Zone := p.smp.zones[z]?

/-- R40: the number of a zone's sectors in a state. -/
def countState (z : Nat) (st : SectorState) (p : Part) : Nat :=
  p.smp.sectors.countP (fun s => decide (s.zone = z) && decide (s.state = st))

/-- R52: a zone's available sectors, A: FREE plus STALE plus ERASING. -/
def available (z : Nat) (p : Part) : Nat := countState z .free p + countState z .stale p + countState z .erasing p

/-- R40: a context's part of a zone's outstanding reservation. -/
def reservedBy (z : Nat) (k : WriteCtx) : Nat := if k.isOpen && decide (k.zone = z) then k.reservation else 0

/-- R40, R52: a zone's outstanding reservation, R. -/
def reserved (z : Nat) (p : Part) : Nat := reservedBy z p.wcu.c0 + reservedBy z p.wcu.c1

/-- R43: the zone's FREE sector of lowest number. -/
def lowestFree (z : Nat) (p : Part) : Option Nat :=
  p.smp.sectors.findIdx? (fun s => decide (s.zone = z) && decide (s.state = .free))

/-- R54: the contexts waiting for a sector of a zone, in the order they joined. -/
def waitingIn (z : Nat) (p : Part) : List CtxId :=
  match p.zone z with
  | some r => r.waiting
  | none => []

/-- R54: the highest level among a zone's waiting takers, 0 when there are none. -/
def takersLevel (z : Nat) (p : Part) : Nat := (waitingIn z p).foldl (fun l c => max l (p.ctx c).level) 0

/-- R54: a context waits for a sector. -/
def isWaiting (c : CtxId) (p : Part) : Bool := p.smp.zones.any (fun z => z.waiting.contains c)

/-- A context leaves the waiting takers. -/
def removeTaker (c : CtxId) (p : Part) : Part :=
  { p with smp := { p.smp with
      zones := p.smp.zones.map (fun z => { z with waiting := z.waiting.filter (fun d => !(d == c)) }) } }

/-- R130: the evacuation hold is lifted when it stands for this zone. -/
def liftHold (z : Nat) (p : Part) : Part :=
  if p.rcu.hold = some z then { p with rcu := { p.rcu with hold := none } } else p

/-- R53: a zone's spare IN USE is due back: R is at most A − 1. -/
def spareDue (z : Nat) (p : Part) : Bool :=
  match p.zone z with
  | some r => r.spareInUse && decide (reserved z p + 1 ≤ available z p)
  | none => false

/-- R53, R130: a zone's spare that is due back returns to AVAILABLE, which lifts a hold of the zone. -/
def returnSpare (z : Nat) (p : Part) : Part :=
  if spareDue z p then liftHold z (modZone z (fun r => { r with spareInUse := false }) p) else p

/-! ### Erase queue and open batch -/

/-- R124: the open batch's ERASE claim is raised, at the highest level among its zone's waiting takers; the window ends. -/
def raiseErase (p : Part) : Part :=
  match p.rcu.openBatch with
  | some b =>
    raise .reclaimErase .erase (takersLevel b.zone p) .openBatch
      { p with rcu := { p.rcu with openBatch := some { b with window := none, raised := true } } }
  | none => p

/-- R122: the sectors of a zone at the head of a queue, up to `room` of them, and the queue that remains. -/
def takeOfZone (p : Part) (z : Nat) : Nat → List Nat → List Nat × List Nat
  | _, [] => ([], [])
  | 0, q => ([], q)
  | room + 1, s :: q =>
    if (p.sector s).zone = z then let r := takeOfZone p z room q; (s :: r.1, r.2)
    else let r := takeOfZone p z (room + 1) q; (r.1, s :: r.2)

/-- R122: open a batch when the store is MOUNTED, no batch is open or in progress and the erase queue holds a sector. -/
def openBatch (p : Part) : Part :=
  match p.rcu.eraseQueue with
  | [] => p
  | s :: _ =>
    if p.mounted && p.rcu.openBatch.isNone && p.pee.batch.isNone then
      let z := (p.sector s).zone
      let r := takeOfZone p z Config.batchMax p.rcu.eraseQueue
      let full := decide (r.1.length = Config.batchMax)
      let b : OpenBatch := { zone := z, sectors := r.1, window := if full then none else some 0, raised := false }
      let q : Part := { p with rcu := { p.rcu with eraseQueue := r.2, openBatch := some b } }
      if full then raiseErase q else q
    else p

/-- R121, R123: a sector that became STALE joins the open batch of its zone, or the end of the erase queue. -/
def joinErase (i : Nat) (p : Part) : Part :=
  match p.rcu.openBatch with
  | some b =>
    if b.zone = (p.sector i).zone ∧ b.sectors.length < Config.batchMax then
      let b' : OpenBatch := { b with sectors := b.sectors ++ [i] }
      let q : Part := { p with rcu := { p.rcu with openBatch := some b' } }
      if b'.sectors.length = Config.batchMax ∧ b.raised = false then raiseErase q else q
    else { p with rcu := { p.rcu with eraseQueue := p.rcu.eraseQueue ++ [i] } }
  | none => openBatch { p with rcu := { p.rcu with eraseQueue := p.rcu.eraseQueue ++ [i] } }

/-- R46: a SEALED sector becomes STALE; it leaves the evacuation queue and joins the erase queue, and the zone's spare returns when it
is due (R53), before what the same event does next. While the store is not MOUNTED the Reclaim Unit takes no sectors (R121, R136). -/
def becomeStale (i : Nat) (p : Part) : Part :=
  let q := modSector i (fun s => { s with state := .stale }) p
  let q : Part := { q with rcu := { q.rcu with evacQueue := q.rcu.evacQueue.filter (fun j => j ≠ i) } }
  returnSpare (p.sector i).zone (if q.mounted then joinErase i q else q)

/-- R44, R51: the sector holds a new copy that the runner's step has closed and that is not yet counted as live or found dead. -/
def copyUncounted (i : Nat) (p : Part) : Bool :=
  match p.rcu.step with
  | some st => decide (st.phase = .discarding) && decide (st.newSector = i)
  | none => false

/-- R46, R48, R127: a SEALED sector with all counts 0 becomes STALE, but not while it holds a closed copy of the runner's step that
is not yet counted (DEDUCED, log 9); a suspect one with live or retiring bytes joins the evacuation queue if it is not in it, at a
gain of retiring bytes alone as at one of live bytes (DESIGN CHOICE, log 48). While the store is not MOUNTED the Reclaim Unit takes
no sectors (R136). -/
def judgeSector (i : Nat) (p : Part) : Part :=
  let s := p.sector i
  if s.state = .sealed then
    if s.countsZero && !copyUncounted i p then becomeStale i p
    else if p.mounted && s.suspect && (decide (0 < s.live) || decide (0 < s.retiring)) && !p.rcu.evacQueue.contains i then
      { p with rcu := { p.rcu with evacQueue := p.rcu.evacQueue ++ [i] } }
    else p
  else p

/-- The sector's owner holds it no more. -/
def dropOwner (i : Nat) (p : Part) : Part :=
  let q := match (p.sector i).owner with
    | some (.ctx c) => modCtx c (fun k => { k with owned := none }) p
    | some .runner => { p with rcu := { p.rcu with owned := none } }
    | none => p
  modSector i (fun s => { s with owner := none }) q

/-- R44: a zone's tail becomes none when its sector is sealed. -/
def clearTail (i : Nat) (p : Part) : Part :=
  { p with smp := { p.smp with
      zones := p.smp.zones.map (fun z => if z.tail = some i then { z with tail := none } else z) } }

/-- R44: an OWNED or TAIL sector becomes SEALED, and is judged (R46, R48). -/
def sealSector (i : Nat) (p : Part) : Part :=
  judgeSector i (modSector i (fun s => { s with state := .sealed }) (clearTail i (dropOwner i p)))

/-- R44: a sector sealed by a failure of its owner: nothing after it can be written. -/
def sealFailed (i : Nat) (p : Part) : Part :=
  sealSector i (modSector i (fun s => { s with nextWrite := Config.sectorSize }) p)

/-- R45: the tail rule for a sector that its owner gives up. While the store is not MOUNTED only the runner can give one
up, and its sector becomes STALE with its counts at 0 (R177). -/
def giveUp (i : Nat) (p : Part) : Part :=
  let s := p.sector i
  let q := dropOwner i p
  if !p.mounted then
    modSector i (fun s => { s with state := .stale, live := 0, pending := 0, retiring := 0 }) q
  else if !s.suspect && decide (Config.sealRoom ≤ s.room) then
    match p.zone s.zone with
    | some z =>
      match z.tail with
      | none => modZone s.zone (fun z => { z with tail := some i }) (modSector i (fun s => { s with state := .tail }) q)
      | some t =>
        if (p.sector t).room < s.room then
          modZone s.zone (fun z => { z with tail := some i })
            (modSector i (fun s => { s with state := .tail }) (sealSector t q))
        else sealSector i q
    | none => sealSector i q
  else sealSector i q

/-! ### Suspect sectors -/

/-- R48: the owner of an OWNED sector has an extent open in it: from the raising of the first stage to the close, of a context and
of the runner alike (DEDUCED, log 9). -/
def extentOpen (i : Nat) (p : Part) : Bool :=
  match (p.sector i).owner with
  | some (.ctx c) =>
    (match (p.ctx c).current with
      | some x => decide (x.sector = i)
      | none => false)
      || purposeWaits (.ctxFirst c) p || purposeRuns (.ctxFirst c) p
  | some .runner =>
    match p.rcu.step with
    | some st => decide (st.phase ≠ .reading) && decide (st.phase ≠ .discarding) && decide (st.newSector = i)
    | none => false
  | none => false

/-- R48: the SUSPECT mark claim of a sector, its n-th attempt. -/
def raiseSuspectMark (i attempt : Nat) (p : Part) : Part :=
  raise (.suspectMark i attempt) .mark 0 (.bytes i suspectOffset [0x00]) p

/-- R48: the suspect event: MEDIA is set, and a sector not yet suspect becomes so and has its SUSPECT mark claim raised, a BAD one
too, although R47 has it keep its suspect field (DESIGN CHOICE, log 53). -/
def markSuspect (i : Nat) (p : Part) : Part :=
  let q := setCond .media p
  if (p.sector i).suspect then q else raiseSuspectMark i 1 (modSector i (fun s => { s with suspect := true }) q)

/-- R48: what a suspect sector's state calls for: a TAIL is sealed, an OWNED sector without an open extent is sealed, a SEALED
one is judged. One that is FREE at its suspect event is sealed too, and is STALE at once with nothing in it, so that no suspect sector
is FREE (R42) or written again (DESIGN CHOICE, log 50). -/
def settleSuspect (i : Nat) (st : SectorState) (p : Part) : Part :=
  match st with
  | .tail | .free => sealSector i p
  | .owned => if extentOpen i p then p else sealSector i p
  | .sealed | .stale | .erasing | .bad => judgeSector i p

/-- R48: the Sector Map makes a sector suspect. `by_` is the owner whose failed operation in the sector is the cause;
when it owns the sector, the sector is sealed at once (R44). -/
def makeSuspect (i : Nat) (by_ : Option Holder) (p : Part) : Part :=
  if by_.isSome && (p.sector i).owner == by_ then sealFailed i (markSuspect i p)
  else settleSuspect i (p.sector i).state (markSuspect i p)

/-! ### Byte accounting -/

/-- Add to a sector's live bytes, and judge it. -/
def addLive (i n : Nat) (p : Part) : Part := judgeSector i (modSector i (fun s => { s with live := s.live + n }) p)

/-- Release live bytes of a sector (R51). -/
def subLive (i n : Nat) (p : Part) : Part := judgeSector i (modSector i (fun s => { s with live := s.live - n }) p)

/-- R50: a sector's pending bytes rise. -/
def addPending (i n : Nat) (p : Part) : Part := modSector i (fun s => { s with pending := s.pending + n }) p

/-- R50: release pending bytes of a sector. -/
def subPending (i n : Nat) (p : Part) : Part :=
  judgeSector i (modSector i (fun s => { s with pending := s.pending - n }) p)

/-- R31: a new head copy's space is counted as retiring. In a suspect SEALED sector this gain has it join the evacuation queue
(DESIGN CHOICE, log 48). -/
def addRetiring (i n : Nat) (p : Part) : Part :=
  judgeSector i (modSector i (fun s => { s with retiring := s.retiring + n }) p)

/-- R30: release retiring bytes of a sector. -/
def subRetiring (i n : Nat) (p : Part) : Part :=
  judgeSector i (modSector i (fun s => { s with retiring := s.retiring - n }) p)

/-- R28: bytes of a committed extent move from pending to live. -/
def pendingToLive (i n : Nat) (p : Part) : Part :=
  judgeSector i (modSector i (fun s => { s with pending := s.pending - n, live := s.live + n }) p)

/-- R28: bytes of a superseded extent move from live to retiring. -/
def liveToRetiring (i n : Nat) (p : Part) : Part :=
  judgeSector i (modSector i (fun s => { s with live := s.live - n, retiring := s.retiring + n }) p)

/-- One change for each element of an extent list, in the sector that holds it, by the element's space. The sectors that one
event empties become STALE in the list's order (DESIGN CHOICE, log 41). -/
def forElems (f : Nat → Nat → Part → Part) (es : List Elem) (p : Part) : Part :=
  es.foldl (fun q e => f e.sector (space e.length) q) p

/-! ### Low water -/

/-- R126: the zone holds no sector in the erase queue, the open batch or the batch in progress. -/
def nothingToErase (z : Nat) (p : Part) : Bool :=
  p.rcu.eraseQueue.all (fun i => decide ((p.sector i).zone ≠ z))
    && (match p.rcu.openBatch with
      | some b => decide (b.zone ≠ z)
      | none => true)
    && (match p.pee.batch with
      | some b => b.forFormat || decide (b.zone ≠ z)
      | none => true)

/-- R56, R126: a report of a zone's FREE count; SPACE_LOW is set when the zone is below its mark with nothing to erase. -/
def reportFree (z : Nat) (p : Part) : Part :=
  match p.zone z with
  | some r =>
    if p.mounted && decide (countState z .free p < r.lowWater) && nothingToErase z p then setCond (spaceLowOf z) p else p
  | none => p

/-! ### Takes and reservations -/

/-- R52: the sectors a WRITE of `len` bytes reserves. -/
def reservationFor (len : Nat) : Nat := (len + (Config.maxExtentData - 1)) / Config.maxExtentData + 1

/-- R53: a write context is entitled to a FREE sector of its zone. -/
def ctxEntitled (k : WriteCtx) (p : Part) : Bool :=
  decide (1 ≤ k.reservation) || decide (reserved k.zone p + 2 ≤ available k.zone p)

/-- R43: a context takes its zone's TAIL sector. -/
def takeTail (c : CtxId) (i : Nat) (p : Part) : Part :=
  modCtx c (fun k => { k with owned := some i })
    (modSector i (fun s => { s with state := .owned, owner := some (.ctx c) }) (clearTail i p))

/-- R43, R53: a context takes a FREE sector, against its reservation when it has one. -/
def takeFree (c : CtxId) (i : Nat) (p : Part) : Part :=
  let z := (p.ctx c).zone
  let q := modCtx c (fun k => { k with owned := some i, reservation := k.reservation - 1 })
    (modSector i (fun s => { s with state := .owned, owner := some (.ctx c) }) p)
  reportFree z (if 1 ≤ (p.ctx c).reservation then liftHold z q else q)

/-- R43: how a write context's take is answered. -/
inductive TakeAnswer
  | taken | waits | refused
deriving DecidableEq, Repr

/-- R43, R92: a write context's take of its zone. -/
def takeForCtx (c : CtxId) (p : Part) : TakeAnswer × Part :=
  let k := p.ctx c
  match p.zone k.zone with
  | none => (.refused, p)
  | some z =>
    match z.tail with
    | some t => (.taken, takeTail c t p)
    | none =>
      if ctxEntitled k p then
        match lowestFree k.zone p with
        | some i => (.taken, takeFree c i p)
        | none => (.waits, noteCtx c .waitedSpace (modZone k.zone (fun z => { z with waiting := z.waiting ++ [c] }) p))
      else (.refused, p)

/-- R43, R53: the runner's take of a zone: from FREE sectors only, by the zone's bound or by its spare. -/
def takeForRunner (z : Nat) (p : Part) : Option Nat × Part :=
  match p.zone z, lowestFree z p with
  | some r, some i =>
    let own (q : Part) : Part :=
      reportFree z { (modSector i (fun s => { s with state := .owned, owner := some .runner }) q) with
        rcu := { q.rcu with owned := some i } }
    if reserved z p + 2 ≤ available z p then (some i, own p)
    else if !r.spareInUse then (some i, own (modZone z (fun r => { r with spareInUse := true }) p))
    else (none, p)
  | _, _ => (none, p)

/-- R55: lower a context's reservation by up to `n`; the excess that remains. -/
def cutCtx (c : CtxId) (z n : Nat) (p : Part) : Nat × Part :=
  let has := reservedBy z (p.ctx c)
  (n - has, if has = 0 ∨ n = 0 then p else modCtx c (fun k => { k with reservation := k.reservation - min n has }) p)

/-- R55: the order in which the contexts' reservations are cut: lower level first, then the later WRITE. -/
def cutOrder (p : Part) : List CtxId :=
  let a := p.wcu.c0
  let b := p.wcu.c1
  if a.level < b.level ∨ (a.level = b.level ∧ b.sequence < a.sequence) then [.c0, .c1] else [.c1, .c0]

/-- R55: the excess of a zone's reservation is taken from the zone's open contexts, in order. -/
def cutExcess (z excess : Nat) (p : Part) : Part :=
  ((cutOrder p).foldl (fun (nq : Nat × Part) c => cutCtx c z nq.1 nq.2) (excess, p)).2

/-- R130: a cut that lowered the zone's outstanding reservation from `before` lifts a hold of the zone. -/
def liftIfCut (z before : Nat) (p : Part) : Part := if reserved z p < before then liftHold z p else p

/-- R55: when the bound is still exceeded, the spare is taken to be lost with the failed sector. -/
def loseSpare (z : Nat) (r : Zone) (p : Part) : Part :=
  if !r.spareInUse && decide (available z p < reserved z p + 1) then modZone z (fun r => { r with spareInUse := true }) p else p

/-- R55: after a BAD outcome, the excess of a zone's reservation over its bound is cut, or the spare becomes IN USE. -/
def cutReservations (z : Nat) (p : Part) : Part :=
  match p.zone z with
  | none => p
  | some r =>
    let excess := if r.spareInUse then reserved z p - available z p else reserved z p + 1 - available z p
    if excess = 0 then p else loseSpare z r (liftIfCut z (reserved z p) (cutExcess z excess p))

/-- R53: the first zone whose spare is due back. -/
def spareReturn (p : Part) : Option Nat := (List.range p.smp.zones.length).find? (fun z => spareDue z p)

end Sys2Proof.Machine
end

