-- ==== Sys2Proof/Machine/Contexts.lean ====
section
/-! DEFINITION. The Write Context Unit's work: choosing and raising steps, starting extents, ending a write, the
outcomes of its programs and closes (R84 to R103). Commits are in Machine/Commit.lean. -/

namespace Sys2Proof.Machine

/-! ### Buffers -/

/-- The other buffer of the alternation (R84). -/
def BufId.other : BufId → BufId
  | .x => .y
  | .y => .x

/-- A staging buffer of a context. -/
def WriteCtx.buf (k : WriteCtx) : BufId → Buffer
  | .x => k.bufX
  | .y => k.bufY

/-- Change a staging buffer of a context. -/
def WriteCtx.setBuf (k : WriteCtx) (b : BufId) (f : Buffer → Buffer) : WriteCtx :=
  match b with
  | .x => { k with bufX := f k.bufX }
  | .y => { k with bufY := f k.bufY }

/-- R88: the earlier buffer of the alternation holds bytes not yet programmed. -/
def WriteCtx.bufferReady (k : WriteCtx) : Bool :=
  let b := k.buf k.drainNext
  decide (b.state ≠ .empty) && decide (b.done < b.bytes.length)

/-- R84: at the grant of the first step made for its bytes, the earlier buffer becomes PROGRAMMING. -/
def WriteCtx.startBuffer (k : WriteCtx) : WriteCtx :=
  k.setBuf k.drainNext (fun b => if b.state = .filled then { b with state := .programming } else b)

/-- R88: an extent's capacity in data bytes. -/
def CurExtent.capacity (x : CurExtent) : Nat := Config.sectorSize - x.offset - Config.headerSize

/-- R90: the bytes of the next data PROGRAM. -/
def WriteCtx.nextData (k : WriteCtx) (x : CurExtent) : List Byte :=
  let b := k.buf k.drainNext
  (b.bytes.drop b.done).take (x.capacity - x.data)

/-! ### Ending -/

/-- R97 step 3: release the space of every extent the context wrote, in index order, an unclosed one last (DESIGN CHOICE,
log 41). -/
def releasePending (k : WriteCtx) (p : Part) : Part :=
  let q := k.written.foldl (fun q w => subPending w.sector (space w.length) q) p
  match k.current with
  | some x => subPending x.sector (32 + x.data) q
  | none => q

/-- R97 step 4: the context gives its sector up. When an extent of it stands unclosed there, the rest of the sector is
dead space, as a scan would read it (R18; DEDUCED, log 8). -/
def giveUpCtx (k : WriteCtx) (p : Part) : Part :=
  match k.owned with
  | some i =>
    let unclosed := match k.current with
      | some x => decide (x.sector = i)
      | none => false
    giveUp i (if unclosed then modSector i (fun s => { s with nextWrite := Config.sectorSize }) p else p)
  | none => p

/-- R53, R55, R97 step 5: the context's reservation returns to its zone, and the zone's spare with it when it is due. -/
def returnReservation (c : CtxId) (p : Part) : Part :=
  let k := p.ctx c
  let q := modCtx c (fun k => { k with reservation := 0 }) p
  returnSpare k.zone (if 1 ≤ k.reservation then liftHold k.zone q else q)

/-- R33, R97 step 6: the slot's entry has no open context any more. -/
def clearOpenCtx (c : CtxId) (slot : Nat) (p : Part) : Part :=
  modEntry slot (fun e => if e.openCtx = some c then { e with openCtx := none } else e) p

/-- R98: the payload of an ending reply. -/
def endingPayload (c : CtxId) (k : WriteCtx) : List Byte :=
  be 1 c.num ++ be 2 k.slot ++ be 4 k.sequence ++ be 3 k.programmed

/-- R97: finish ending a context, with a status (R98) or, for RESTART, with no reply (R104). -/
def finishEnd (c : CtxId) (st : Option Status) (p : Part) : Part :=
  let k := p.ctx c
  let p1 := removeTaker c (withdraw (.ctx c) p)
  let p2 := if k.commit = .switched then p1 else releasePending k p1
  let p3 := returnReservation c (giveUpCtx k p2)
  let p4 := clearOpenCtx c k.slot p3
  match st with
  | none => modCtx c (fun _ => .cold) p4
  | some s =>
    pushReply { kind := 0x20, tag := k.tag, status := s, notes := (p4.ctx c).notes, payload := endingPayload c k,
                place := .ending c }
      (modCtx c (fun k => { k with state := .ended, current := none, owned := none, ending := none, bufX := .cold,
                                   bufY := .cold }) p4)

/-- R97: a context ends with a status, at once or at the completion of its granted operation. -/
def endCtx (c : CtxId) (s : Status) (p : Part) : Part :=
  if claimRuns (.ctx c) p then modCtx c (fun k => { k with ending := some (.withStatus s) }) p
  else finishEnd c (some s) p

/-- The ending that a context's ending cause calls for, at the completion of its operation (R97, R104). -/
def finishCause (c : CtxId) (e : EndCause) (p : Part) : Part :=
  match e with
  | .withStatus s => finishEnd c (some s) p
  | .byRestart => finishEnd c none p

/-! ### Commit -/

/-- R38: a SUPERSEDED record of the slot stands in the retiring list. -/
def supersededStands (slot : Nat) (p : Part) : Bool := p.sdr.retiring.any (fun r => decide (r.slot = slot) && r.superseded)

/-- R93: the commit claim: a MARK of one byte on the COMMITTED mark of the context's head. -/
def raiseCommit (c : CtxId) (p : Part) : Part :=
  let k := p.ctx c
  match k.written with
  | w :: _ => raise (.ctxCommit c) .mark k.level (.bytes w.sector (w.offset + committedOffset) [0x00]) p
  | [] => p

/-- R38, R93, R141: a COMMITTING context goes on to its commit claim unless a SUPERSEDED record of its slot stands; the
MAINT check of a guarded write and the raising of the claim are one event. -/
def tryCommit (c : CtxId) (p : Part) : Part :=
  let k := p.ctx c
  if k.state = .committing ∧ k.commit = .waiting ∧ k.ending = none ∧ supersededStands k.slot p = false then
    if k.maintRequired && !p.mli.level then endCtx c .protected_ p
    else raiseCommit c (modCtx c (fun k => { k with commit := .attempting }) p)
  else p

/-! ### Steps -/

/-- R88: the context may choose a step. -/
def mayChoose (c : CtxId) (p : Part) : Bool :=
  let k := p.ctx c
  (decide (k.state = .receiving) || decide (k.state = .closing)) && k.ending.isNone
    && !claimOutstanding (.ctx c) p && !isWaiting c p

/-- R89: with a sector in hand, the context checks the extent index and raises the first stage at the sector's next-write
offset. -/
def raiseFirst (c : CtxId) (i : Nat) (p : Part) : Part :=
  let k := p.ctx c
  if k.written.length = Config.maxExtents then endCtx c .fragmented p
  else
    let head := if k.written.length = 0 then some (k.cls, k.total) else none
    raise (.ctxFirst c) .program k.level
      (.bytes i (p.sector i).nextWrite (firstStageBytes k.slot k.sequence k.written.length 0 head false)) p

/-- R89: the sector that a context starts an extent in: its owned one, with room and not suspect, or what a take answers. -/
def sectorFor (c : CtxId) (p : Part) : TakeAnswer × Part :=
  match (p.ctx c).owned with
  | some i =>
    if Config.sealRoom ≤ (p.sector i).room ∧ (p.sector i).suspect = false then (.taken, p) else takeForCtx c p
  | none => takeForCtx c p

/-- R89: start an extent: with a sector in hand the first stage is raised; without one the context waits, or fails with NO_SPACE. A
context with 72 extents closed that is given no sector neither waits nor fails so: it ends with FRAGMENTED at this event, as R101
fixes it (DESIGN CHOICE, log 46). -/
def startExtent (c : CtxId) (p : Part) : Part :=
  let last := decide ((p.ctx c).written.length = Config.maxExtents)
  match sectorFor c p with
  | (.taken, q) =>
    match (q.ctx c).owned with
    | some i => raiseFirst c i q
    | none => q
  | (.waits, q) => if last then endCtx c .fragmented p else q
  | (.refused, q) => endCtx c (if last then .fragmented else .noSpace) q

/-- R91: the close MARK of the current extent. -/
def raiseClose (c : CtxId) (x : CurExtent) (p : Part) : Part :=
  raise (.ctxClose c) .mark (p.ctx c).level
    (.bytes x.sector (x.offset + closeOffset) (closeBytes x.data (be 4 (crc32Final x.crc).toNat))) p

/-- R90: the data PROGRAM of the earlier buffer's next bytes. -/
def raiseData (c : CtxId) (x : CurExtent) (p : Part) : Part :=
  let k := p.ctx c
  raise (.ctxData c) .program k.level (.bytes x.sector (x.offset + 32 + x.data) (k.nextData x)) p

/-- R88: the next step of a context, from the first line of the table whose condition holds. An extent in which a data
program failed is closed next (R99 step 3; DEDUCED, log 11). With 72 extents closed, data still to program and no bytes for it in
its buffers, the context has no extent to start and ends with FRAGMENTED at that event, without a take (R101; DESIGN CHOICE,
log 46). -/
def chooseStep (c : CtxId) (p : Part) : Part :=
  if !mayChoose c p then p
  else
    let k := p.ctx c
    match k.current with
    | some x =>
      if x.mustClose ∨ x.data = x.capacity ∨ k.programmed = k.total then raiseClose c x p
      else if k.bufferReady then raiseData c x p
      else p
    | none =>
      if k.total = 0 ∧ k.written = [] then startExtent c p
      else if k.bufferReady then startExtent c p
      else if k.programmed = k.total then
        tryCommit c (modCtx c (fun k => { k with state := .committing, commit := .waiting }) p)
      else if k.written.length = Config.maxExtents then endCtx c .fragmented p
      else p

/-! ### Outcomes of programs and closes -/

/-- R13, R91: at a successful close the sector's next-write offset moves past the extent, unless a failure has sealed the
sector. -/
def advanceNextWrite (i offset n : Nat) (p : Part) : Part :=
  if (p.sector i).state = .owned then modSector i (fun s => { s with nextWrite := offset + roundUp4 (32 + n) }) p else p

/-- R44, R48: at a close, the owned sector is sealed when its room is below 64 or it is suspect. -/
def sealIfFull (i : Nat) (p : Part) : Part :=
  if (p.sector i).state = .owned ∧ ((p.sector i).room < Config.sealRoom ∨ (p.sector i).suspect = true) then sealSector i p
  else p

/-- R83, R90: the data program of an ending context completes: the bytes that stand right on the array are counted as
programmed. After a failure they are the verified prefix, which a third failure does not count (R99; DEDUCED, log 40). -/
def endingLanded (c : CtxId) (u : Purpose) (ok : Bool) (n : Nat) (p : Part) : Part :=
  match u with
  | .ctxData _ => if ok ∨ (p.ctx c).failures < 2 then modCtx c (fun k => { k with programmed := k.programmed + n }) p else p
  | _ => p

/-- R97: an operation of an ending context completes, with `n` bytes right on the array: it adds nothing to pending, a failure
is reported to the Sector Map, and the context finishes ending. The pending bytes of an extent that this operation closed are
released here, before those of the extents written earlier (DESIGN CHOICE, log 41). -/
def endingDone (c : CtxId) (e : EndCause) (u : Purpose) (i offset : Nat) (ok : Bool) (n : Nat) (p0 : Part) : Part :=
  let p := endingLanded c u ok n p0
  let p1 :=
    if !ok then makeSuspect i (some (.ctx c)) (noteCtx c .mediaEvent p)
    else match u, (p.ctx c).current with
      | .ctxFirst _, _ => modSector i (fun s => { s with nextWrite := Config.sectorSize }) p
      | .ctxClose _, some x =>
        let q := sealIfFull i (advanceNextWrite i (offset - closeOffset) x.data p)
        modCtx c (fun k => { k with current := none }) (subPending x.sector (32 + x.data) q)
      | _, _ => p
  finishCause c e p1

/-- R89: the first stage of an extent is on the array. -/
def firstDone (c : CtxId) (i offset : Nat) (p : Part) : Part :=
  let x : CurExtent := { index := (p.ctx c).written.length, sector := i, offset := offset, data := 0, crc := crc32Init,
                         mustClose := false }
  chooseStep c (addPending i 32 (modCtx c (fun k => { k with current := some x }) p))

/-- R90, R99: `n` leading bytes of the earlier buffer are right on the array. -/
def dataLanded (c : CtxId) (x : CurExtent) (bytes : List Byte) (p : Part) : Part :=
  let n := bytes.length
  addPending x.sector n (modCtx c (fun k =>
    { (k.setBuf k.drainNext (fun b => { b with done := b.done + n })) with
        current := some { x with data := x.data + n, crc := crc32Run x.crc bytes }
        programmed := k.programmed + n }) p)

/-- R84, R90: a buffer whose last byte is down becomes EMPTY, and the alternation moves on. -/
def freeBuffer (k : WriteCtx) : WriteCtx :=
  let b := k.buf k.drainNext
  if b.done = b.bytes.length then { (k.setBuf k.drainNext (fun _ => .cold)) with drainNext := k.drainNext.other } else k

/-- R90, R93: a data PROGRAM ended SUCCEEDED. -/
def dataDone (c : CtxId) (bytes : List Byte) (p : Part) : Part :=
  match (p.ctx c).current with
  | some x =>
    let q := modCtx c freeBuffer (dataLanded c x bytes p)
    chooseStep c (if (q.ctx c).programmed = (q.ctx c).total then modCtx c (fun k => { k with state := .closing }) q else q)
  | none => p

/-- R91: the close of the current extent ended SUCCEEDED. -/
def closeDone (c : CtxId) (p : Part) : Part :=
  match (p.ctx c).current with
  | some x =>
    let w : Written := { sector := x.sector, offset := x.offset, length := x.data }
    let q := modCtx c (fun k => { k with current := none, written := k.written ++ [w] }) p
    chooseStep c (sealIfFull x.sector (advanceNextWrite x.sector x.offset x.data (addPending x.sector (padding x.data) q)))
  | none => p

/-- R99 step 3: an extent with no data is left unclosed and its 32 pending bytes are released; any other must be closed. -/
def settleExtent (c : CtxId) (p : Part) : Part :=
  match (p.ctx c).current with
  | some x =>
    if x.data = 0 then subPending x.sector 32 (modCtx c (fun k => { k with current := none }) p)
    else modCtx c (fun k => { k with current := some { x with mustClose := true } }) p
  | none => p

/-- R99: a first-stage or data PROGRAM ended FAILED or TIMED_OUT in sector `i`, with `good` verified bytes. -/
def programFailure (c : CtxId) (i : Nat) (good : List Byte) (p : Part) : Part :=
  let p1 := makeSuspect i (some (.ctx c)) (noteCtx c .mediaEvent p)
  if 2 ≤ (p1.ctx c).failures then endCtx c .mediaFault p1
  else
    let p2 := modCtx c (fun k => { k with failures := k.failures + 1 }) p1
    let p3 := match (p2.ctx c).current with
      | some x => settleExtent c (dataLanded c x good p2)
      | none => p2
    chooseStep c (noteCtx c .retried p3)

/-- R99: a close ended FAILED or TIMED_OUT: the sector is suspect and the context fails with MEDIA_FAULT. -/
def closeFailure (c : CtxId) (i : Nat) (p : Part) : Part :=
  endCtx c .mediaFault (makeSuspect i (some (.ctx c)) (noteCtx c .mediaEvent p))

end Sys2Proof.Machine
end

