-- ==== Sys2Proof/Machine/Replies.lean ====
section
/-! DEFINITION. The end of a queued request: its entry leaves, its reply takes the entry's place, the ABORTs that waited on
it are answered (R148, R153, R157). -/

namespace Sys2Proof.Machine

/-- R148: the entry of an age leaves the request queue. -/
def dropEntry (age : Nat) (p : Part) : Part :=
  { p with rqs := { p.rqs with queue := p.rqs.queue.filter (fun e => e.age ≠ age) } }

/-- Change the queue entry of an age. -/
def modQueue (age : Nat) (f : Entry → Entry) (p : Part) : Part :=
  { p with rqs := { p.rqs with queue := p.rqs.queue.map (fun e => if e.age = age then f e else e) } }

/-- R157: the places held for the target's ABORTs are given to their replies. -/
def answerHeld (age : Nat) (st : Status) (p : Part) : Part :=
  (p.link.held.filter (fun h => h.target = age)).foldl
    (fun q h => pushReply { kind := 0x06, tag := h.tag, status := st, notes := 0, payload := [], place := .direct } q)
    { p with link := { p.link with held := p.link.held.filter (fun h => h.target ≠ age) } }

/-- R157: what an ABORT waiting on a request is told, by the status the request ended with. -/
def abortAnswer : Status → Status
  | .aborted => .ok
  | _ => .tooLate

/-- R105, R134, R153, R179: a queued request ends: its entry leaves, its reply takes the place it held, and the ABORTs
waiting on it are answered after it (log 30). A request whose entry RESTART discarded gives no reply. -/
def completeEntry (age : Nat) (st : Status) (notes : Byte) (payload : List Byte) (p : Part) : Part :=
  match p.queueEntry age with
  | some e =>
    answerHeld age (abortAnswer st)
      (pushReply { kind := e.request.kind, tag := e.tag, status := st, notes := notes, payload := payload, place := .queued }
        (dropEntry age p))
  | none => p

/-- R157: an ABORT waits on the entry of an age. -/
def abortWaits (age : Nat) (p : Part) : Bool :=
  match p.queueEntry age with
  | some e => e.abortWaits
  | none => false

end Sys2Proof.Machine
end

