-- ==== Sys2Proof/Machine/Commit.lean ====
section
/-! DEFINITION. READs, VERIFYs and DELETEs in the hands of the Slot Directory, commits, the switch of an entry to a new
generation, and the retiring list (R28 to R32, R36, R95, R96, R105 to R119). -/

namespace Sys2Proof.Machine

/-! ### Serving records -/

/-- R105: a served request completes; its record ends. -/
def completeServing (age : Nat) (st : Status) (notes : Byte) (payload : List Byte) (p : Part) : Part :=
  completeEntry age st notes payload (dropServing age p)

/-- R118: a served request whose slot has gone completes with NO_SLOT and the slot id. A READ's reply then carries no SHORTENED,
since it returns no bytes (DESIGN CHOICE, log 49). -/
def completeNoSlot (r : Serving) (p : Part) : Part := completeServing r.age .noSlot r.notes (be 2 r.slot) p

/-- R118: the slot of a served request has left the directory: at once, or at the completion of its granted operation. A DELETE
with a failed attempt whose next claim waits when a FORMAT activates has not failed finally (DESIGN CHOICE, log 43). -/
def slotGone (age : Nat) (p : Part) : Part :=
  match p.servingOf age with
  | some r =>
    if claimRuns (.serving age) p then modServing age (fun r => { r with gone := true }) p
    else completeNoSlot r (withdraw (.serving age) p)
  | none => p

/-- R107: the runs of the slot's bytes from `o` up to `hi` in an extent list whose first element holds the slot's bytes
from `base`. -/
def readRuns (o hi : Nat) : Nat → List Elem → List Run
  | _, [] => []
  | base, e :: es =>
    let a := max o base
    let b := min hi (base + e.length)
    let rest := readRuns o hi (base + e.length) es
    if a < b then { sector := e.sector, offset := e.offset + 32 + (a - base), length := b - a } :: rest else rest

/-- R109: the payload of a READ. -/
def readPayload (sequence length count : Nat) (bytes : List Byte) : List Byte :=
  be 4 sequence ++ be 3 length ++ be 1 count ++ bytes

/-- R107: a READ is answered at once, or its claim is raised, from the entry as it stands. -/
def raiseRead (age : Nat) (p : Part) : Part :=
  match p.servingOf age with
  | some r =>
    match p.entryOf r.slot with
    | some e =>
      if e.length ≤ r.offset then
        completeServing age .ok (withNote .shortened r.notes) (readPayload e.sequence e.length 0 []) p
      else
        let n := min r.count (e.length - r.offset)
        raise (.readSlot age) .read r.level (.runs (readRuns r.offset (r.offset + n) 0 e.extents))
          (modServing age (fun r => { r with sequence := e.sequence, readLen := e.length, readCount := n,
                                             shortened := decide (n < r.count) }) p)
    | none => completeNoSlot r p
  | none => p

/-- R109: a READ's operation completes. -/
def readDone (age : Nat) (bytes : List Byte) (p : Part) : Part :=
  match p.servingOf age with
  | some r =>
    if r.gone then completeNoSlot r p
    else completeServing age .ok (if r.shortened then withNote .shortened r.notes else r.notes)
      (readPayload r.sequence r.readLen r.readCount bytes) p
  | none => p

/-- R114: a VERIFY's next step: a READ of the whole extent at its next index, as the entry stands. -/
def raiseVerify (age : Nat) (p : Part) : Part :=
  match p.servingOf age with
  | some r =>
    match p.entryOf r.slot with
    | some e =>
      match e.extents[r.nextIndex]? with
      | some x =>
        raise (.verifyStep age) .read r.level (.runs [{ sector := x.sector, offset := x.offset, length := 32 + x.length }])
          (modServing age (fun r => { r with elem := x }) p)
      | none => p
    | none => completeNoSlot r p
  | none => p

/-- R115: the bytes of an extent pass. -/
def verifyPasses (r : Serving) (bytes : List Byte) : Bool :=
  firstStageValid bytes && decide (field bytes 1 2 = r.slot) && decide (field bytes 3 4 = r.sequence)
    && decide (field bytes 7 1 = r.nextIndex) && decide (field bytes 8 2 = r.elem.copy)
    && decide (field bytes 16 3 = r.elem.length)
    && decide (be 4 (crc32 (slice bytes 32 r.elem.length)).toNat = slice bytes 19 4)

/-- R115, R119: the payload of a VERIFY that has checked `checked` extents. -/
def verifyPayload (r : Serving) (checked : Nat) : List Byte := be 2 r.slot ++ be 4 r.sequence ++ be 1 checked

/-- R115, R116, R119: a VERIFY's step completes: a mismatch ends it, a waiting ABORT stops it, the last element ends it. -/
def verifyDone (age : Nat) (bytes : List Byte) (p : Part) : Part :=
  match p.servingOf age with
  | some r =>
    if r.gone then completeNoSlot r p
    else if verifyPasses r bytes then
      if abortWaits age p then completeServing age .aborted r.notes (verifyPayload r (r.checked + 1)) p
      else
        let last := match p.entryOf r.slot with
          | some e => decide (e.extents.length ≤ r.nextIndex + 1)
          | none => true
        if last then completeServing age .ok r.notes (verifyPayload r (r.checked + 1)) p
        else raiseVerify age (modServing age (fun r => { r with nextIndex := r.nextIndex + 1, checked := r.checked + 1 }) p)
    else
      completeServing age .dataCorrupt (withNote .mediaEvent r.notes) (verifyPayload r r.checked ++ be 1 r.nextIndex)
        (makeSuspect r.elem.sector none p)
  | none => p

/-! ### DELETE -/

/-- R111: the MARK of a DELETE's attempt, on the head copy's OBSOLETE byte. -/
def raiseDeleteMark (age : Nat) (p : Part) : Part :=
  match p.servingOf age with
  | some r => raise (.deleteMark age) .mark r.level (.bytes r.elem.sector (r.elem.offset + obsoleteOffset) [0x00]) p
  | none => p

/-- R113: the payload of a DELETE. -/
def deletePayload (r : Serving) : List Byte := be 2 r.slot ++ be 4 r.sequence

/-- R36: the entry's delete pending is cleared. -/
def clearDeletePending (slot : Nat) (p : Part) : Part := modEntry slot (fun e => { e with deletePending := false }) p

/-- R36, R113, R118: a DELETE's mark reads as set: the entry leaves, its bytes are released, the other requests for the slot
meet NO_SLOT, and then the DELETE ends OK: the order of these replies is a DESIGN CHOICE (log 42). That a WAITING WRITE or DELETE of the
slot is activated at this event, where the DELETE itself was detached by RESTART, is one too (log 55). -/
def deleteSucceeded (r : Serving) (p : Part) : Part :=
  match p.entryOf r.slot with
  | some e =>
    let p1 : Part := { p with sdr := { p.sdr with directory := p.sdr.directory.filter (fun d => d.slot ≠ r.slot) } }
    let p2 := forElems subLive e.extents p1
    let others := (p2.sdr.serving.filter (fun o => decide (o.slot = r.slot) && decide (o.age ≠ r.age))).map (·.age)
    completeServing r.age .ok r.notes (deletePayload r) (others.foldl (fun q a => slotGone a q) p2)
  | none => completeNoSlot r p

/-- R112: an attempt of a DELETE's mark completes. -/
def deleteMarkDone (age : Nat) (ok : Bool) (p : Part) : Part :=
  match p.servingOf age with
  | some r =>
    if r.gone then completeNoSlot r p
    else if ok then deleteSucceeded r p
    else
      raise (.deleteReadBack age) .read r.level
        (.runs [{ sector := r.elem.sector, offset := r.elem.offset + obsoleteOffset, length := 1 }])
        (modServing age (fun r => { r with attempts := r.attempts + 1 }) p)
  | none => p

/-- R112: a DELETE's mark has failed finally: its head's sector is made suspect and its reply gains MEDIA_EVENT. -/
def deleteMarkFailed (r : Serving) (p : Part) : Part :=
  makeSuspect r.elem.sector none (modServing r.age (fun r => { r with notes := withNote .mediaEvent r.notes }) p)

/-- R36, R112, R113: the read-back of a failed attempt decides it. -/
def deleteReadBackDone (age : Nat) (b : Byte) (p : Part) : Part :=
  match p.servingOf age with
  | some r =>
    if r.gone then completeNoSlot r p
    else if markSet b then
      let q := deleteMarkFailed r p
      match q.servingOf age with
      | some r' => deleteSucceeded r' q
      | none => q
    else if r.attempts < Config.maxAttempts ∧ r.detached = false then
      raiseDeleteMark age (modServing age (fun r => { r with notes := withNote .retried r.notes }) p)
    else
      completeServing age .mediaFault (withNote .mediaEvent r.notes) (deletePayload r)
        (clearDeletePending r.slot (deleteMarkFailed r p))
  | none => p

/-! ### Claims raised again -/

/-- R108, R117: what a waiting READ or VERIFY claim of the slot becomes when the entry is switched to a new generation; the claims
are raised again in the order of the requests' hand-over (DESIGN CHOICE, log 42). -/
def reissueAtSwitch (slot : Nat) (p : Part) : Part :=
  (p.sdr.serving.filter (fun r => r.slot = slot)).foldl (fun q r =>
    match r.kind with
    | .read => if purposeWaits (.readSlot r.age) q then raiseRead r.age (withdraw (.serving r.age) q) else q
    | .verify =>
      match q.entryOf slot with
      | some e =>
        if purposeWaits (.verifyStep r.age) q then
          raiseVerify r.age (modServing r.age (fun r => { r with sequence := e.sequence, nextIndex := 0, checked := 0 })
            (withdraw (.serving r.age) q))
        else q
      | none => q
    | .delete => q) p

/-- R108, R117: what they become when element `i` of the entry is replaced, in the same order (DESIGN CHOICE, log 42): a VERIFY's
waits on another element untouched. -/
def reissueAtReplacement (slot i : Nat) (p : Part) : Part :=
  (p.sdr.serving.filter (fun r => r.slot = slot)).foldl (fun q r =>
    match r.kind with
    | .read => if purposeWaits (.readSlot r.age) q then raiseRead r.age (withdraw (.serving r.age) q) else q
    | .verify =>
      if purposeWaits (.verifyStep r.age) q && decide (r.nextIndex = i) then
        raiseVerify r.age (withdraw (.serving r.age) q)
      else q
    | .delete => q) p

/-! ### The retiring list -/

/-- R29, R30: the next OBSOLETE attempt of a record is raised, at its level, on the head copy it names. -/
def raiseObsolete (slot sequence : Nat) (p : Part) : Part :=
  match p.retiringOf slot sequence with
  | some r =>
    raise (.obsolete slot sequence) .mark r.level (.bytes r.head.sector (r.head.offset + obsoleteOffset) [0x00])
      (modRetiring slot sequence (fun r => { r with attempts := r.attempts + 1 }) p)
  | none => p

/-- R31: the runner's step under way moves the head of this generation. -/
def headRelocating (slot sequence : Nat) (p : Part) : Bool :=
  match p.rcu.step with
  | some st => decide (st.slot = slot) && decide (st.sequence = sequence) && decide (st.index = 0)
  | none => false

/-- R28, R29, R31: the superseded generation of an entry joins the retiring list; its bytes become retiring and its first
claim is raised, unless it is deferred. -/
def retire (e : DirEntry) (level : Nat) (waiting : Option CtxId) (p : Part) : Part :=
  match e.extents with
  | [] => p
  | h :: _ =>
    let deferred := e.relocating && headRelocating e.slot e.sequence p
    let r : Retiring := { slot := e.slot, sequence := e.sequence, extents := e.extents, head := h, superseded := true,
                          level := level, attempts := 0, waiting := waiting, deferred := deferred, extra := none }
    let q := forElems liveToRetiring e.extents { p with sdr := { p.sdr with retiring := p.sdr.retiring ++ [r] } }
    if deferred then q else raiseObsolete e.slot e.sequence q

/-- R156: a note for the WRITE that a record's end is awaited by. -/
def noteWaiting (r : Retiring) (n : Note) (p : Part) : Part :=
  match r.waiting with
  | some c => noteCtx c n p
  | none => p

/-- R30: a record leaves the list: its retiring bytes are released, an extra head copy's last (DESIGN CHOICE, log 41), and its
waiting context ends with OK. -/
def recordLeaves (r : Retiring) (p : Part) : Part :=
  let p1 : Part := { p with sdr := { p.sdr with
    retiring := p.sdr.retiring.filter (fun x => !(decide (x.slot = r.slot) && decide (x.sequence = r.sequence))) } }
  let p2 := forElems subRetiring r.extents p1
  let p3 := match r.extra with
    | some x => subRetiring x.1 x.2 p2
    | none => p2
  match r.waiting with
  | some c => finishEnd c (some .ok) p3
  | none => p3

/-- R32: a sector joins the lingering heads of a slot's entry. -/
def addLingering (slot sector : Nat) (p : Part) : Part :=
  modEntry slot (fun e => if e.lingering.contains sector then e else { e with lingering := e.lingering ++ [sector] }) p

/-- R30: an OBSOLETE attempt completes. The result of a record that FORMAT dropped is discarded (R39). -/
def obsoleteDone (slot sequence : Nat) (ok : Bool) (p : Part) : Part :=
  match p.retiringOf slot sequence with
  | some r =>
    if ok then recordLeaves r p
    else if r.attempts < Config.maxAttempts then raiseObsolete slot sequence (noteWaiting r .retried p)
    else
      recordLeaves r (addLingering slot r.head.sector (makeSuspect r.head.sector none (noteWaiting r .mediaEvent p)))
  | none => p

/-! ### Commit -/

/-- R28: the extent list of a context's generation. -/
def WriteCtx.elems (k : WriteCtx) : List Elem :=
  k.written.map (fun w => { sector := w.sector, offset := w.offset, length := w.length, copy := 0 })

/-- R28, R33: the entry of a slot's first generation. -/
def WriteCtx.newEntry (k : WriteCtx) (c : CtxId) : DirEntry :=
  { slot := k.slot, zone := k.zone, cls := k.cls, length := k.total, sequence := k.sequence, extents := k.elems,
    openCtx := some c, deletePending := false, relocating := false, lingering := [] }

/-- R28, R95, R96, R104: the generation is committed. The entry switches; bytes move from pending to live; the superseded
generation retires; the slot's waiting claims are raised again. With nothing superseded, or after a RESTART, the context
ends here. -/
def commitSwitch (c : CtxId) (p : Part) : Part :=
  let k := p.ctx c
  let stopped := decide (k.ending = some .byRestart)
  let p1 := modCtx c (fun k => { k with commit := .switched }) p
  match p.entryOf k.slot with
  | none =>
    let p2 := forElems pendingToLive k.elems
      { p1 with sdr := { p1.sdr with directory := insertEntry (k.newEntry c) p1.sdr.directory } }
    finishEnd c (if stopped then none else some .ok) p2
  | some e =>
    let p2 := forElems pendingToLive k.elems
      (modEntry k.slot (fun e => { e with cls := k.cls, length := k.total, sequence := k.sequence, extents := k.elems }) p1)
    let p3 := reissueAtSwitch k.slot (retire e k.level (if stopped then none else some c) p2)
    if stopped then finishEnd c none p3 else p3

/-- R95: a commit attempt ended FAILED or TIMED_OUT: the head's sector is suspect, and the mark byte is read back. -/
def commitFailed (c : CtxId) (p : Part) : Part :=
  match (p.ctx c).written with
  | w :: _ =>
    raise (.ctxReadBack c) .read (p.ctx c).level (.runs [{ sector := w.sector, offset := w.offset + committedOffset, length := 1 }])
      (makeSuspect w.sector (some (.ctx c)) (noteCtx c .mediaEvent (modCtx c (fun k => { k with attempts := k.attempts + 1 }) p)))
  | [] => p

/-- R95, R104: the read-back of a failed commit attempt decides it. -/
def commitReadBack (c : CtxId) (b : Byte) (p : Part) : Part :=
  let k := p.ctx c
  if markSet b then commitSwitch c p
  else match k.ending with
    | some _ => finishEnd c none p
    | none =>
      if k.attempts < Config.maxAttempts then raiseCommit c (noteCtx c .retried p)
      else finishEnd c (some .mediaFault) p

end Sys2Proof.Machine
end

