-- ==== Sys2Proof/Machine/Runner.lean ====
section
/-! DEFINITION. The compaction runner: the choice of a step, the operations of a step, its end, and the COMPACT job
(R35, R127 to R136). -/

namespace Sys2Proof.Machine

/-! ### Movable elements -/

/-- R128, R129: an element that a step may move, with what names it. -/
structure Movable where
  slot     : Nat
  sequence : Nat
  index    : Nat
  elem     : Elem
deriving DecidableEq, Repr

/-- R128: the movable elements of an entry in a sector. -/
def movableOf (i : Nat) (e : DirEntry) : List Movable :=
  if e.deletePending || e.relocating then []
  else (e.extents.zipIdx.filter (fun x => decide (x.1.sector = i) && decide (x.1.copy < Config.maxCopy))).map
    (fun x => { slot := e.slot, sequence := e.sequence, index := x.2, elem := x.1 })

/-- The element of a list with the lowest header offset. -/
def lowestOffset : List Movable → Option Movable
  | [] => none
  | m :: ms =>
    match lowestOffset ms with
    | some n => if n.elem.offset < m.elem.offset then some n else some m
    | none => some m

/-- R128: the movable element of a sector with the lowest header offset. -/
def firstMovable (i : Nat) (p : Part) : Option Movable := lowestOffset (p.sdr.directory.flatMap (movableOf i))

/-- R128, R130: the evacuation step wanted: the first movable element of the evacuation queue, passing over sectors with
pending bytes, unless a hold stands. -/
def evacuationStep (p : Part) : Option Movable :=
  if p.rcu.hold.isSome then none
  else p.rcu.evacQueue.findSome? (fun i => if 0 < (p.sector i).pending then none else firstMovable i p)

/-! ### The COMPACT job -/

/-- Change the COMPACT job. -/
def modJob (f : Job → Job) (p : Part) : Part := { p with rcu := { p.rcu with job := p.rcu.job.map f } }

/-- R134: the COMPACT ends with a status; its reply carries its zone and count emptied. -/
def endJob (st : Status) (p : Part) : Part :=
  match p.rcu.job with
  | some j =>
    completeEntry j.age st j.notes (be 1 j.zone ++ be 1 j.emptied) { p with rcu := { p.rcu with job := none } }
  | none => p

/-- R129: the runner's step under way serves this job. -/
def stepServes (j : Job) (p : Part) : Bool :=
  match p.rcu.step with
  | some st => decide (st.job = some j.age)
  | none => false

/-- R133: a sector that a job may choose as its victim. -/
def victimOk (j : Job) (s : Sector) (i : Nat) : Bool :=
  decide (s.zone = j.zone) && decide (s.state = .sealed) && !s.suspect && decide (0 < s.live) && decide (s.pending = 0)
    && !j.taken.contains i

/-- R133: the victim of a job among sectors numbered from `i`: least live bytes, then lowest number. -/
def victimFrom (j : Job) : Nat → List Sector → Option (Nat × Nat)
  | _, [] => none
  | i, s :: ss =>
    let later := victimFrom j (i + 1) ss
    if victimOk j s i then
      match later with
      | some l => if l.2 < s.live then some l else some (i, s.live)
      | none => some (i, s.live)
    else later

/-- R133: the victim a job chooses next. -/
def nextVictim (j : Job) (p : Part) : Option Nat := (victimFrom j 0 p.smp.sectors).map (·.1)

/-- R133, R134: the job's bookkeeping, one change at a time: a victim emptied is counted, one made suspect or with nothing
movable is set aside, the count reached ends the job, a new victim is chosen, and none to choose ends the job. -/
def jobReact (p : Part) : Option Part :=
  match p.rcu.job with
  | none => none
  | some j =>
    if j.asked ≤ j.emptied then some (endJob .ok p)
    else match j.victim with
      | some v =>
        if (p.sector v).live = 0 then some (modJob (fun j => { j with emptied := j.emptied + 1, victim := none }) p)
        else if (p.sector v).suspect || (p.rcu.step.isNone && (firstMovable v p).isNone) then
          some (modJob (fun j => { j with victim := none }) p)
        else none
      | none =>
        if stepServes j p then none
        else match nextVictim j p with
          | some v => some (modJob (fun j => { j with victim := some v, taken := j.taken ++ [v] }) p)
          | none => some (endJob .ok p)

/-! ### Beginning a step -/

/-- R34, R129: a step begins: the entry is relocating, and the READ of the old copy is raised. An evacuation step's, at level 0, may
suspend an erase as any READ may (R72; DESIGN CHOICE, log 51). -/
def beginStep (kind : StepKind) (job : Option Nat) (level zone : Nat) (m : Movable) (p : Part) : Part :=
  let st : Step := { kind := kind, job := job, level := level, slot := m.slot, sequence := m.sequence, index := m.index,
                     elem := m.elem, zone := zone, phase := .reading, bytes := [], newSector := 0, newOffset := 0,
                     sent := 0, attempts := 0 }
  raise .runnerRead .read level
    (.runs [{ sector := m.elem.sector, offset := m.elem.offset, length := 32 + m.elem.length }])
    (modEntry m.slot (fun e => { e with relocating := true }) { p with rcu := { p.rcu with step := some st } })

/-- R133: the element that the job's next step would move. -/
def compactStep (p : Part) : Option (Job × Movable) :=
  match p.rcu.job with
  | some j =>
    match j.victim with
    | some v => (firstMovable v p).map (fun m => (j, m))
    | none => none
  | none => none

/-- R135: the runner, without a step in a MOUNTED store, chooses one, or gives its sector up. -/
def runnerReact (p : Part) : Option Part :=
  if !p.mounted || p.rcu.step.isSome then none
  else
    let evac (m : Movable) : Part := beginStep .evacuation none 0 (p.sector m.elem.sector).zone m p
    let comp (jm : Job × Movable) : Part := beginStep .compact (some jm.1.age) jm.1.level jm.1.zone jm.2 p
    match evacuationStep p, compactStep p with
    | some m, some jm => some (if p.rcu.lastKind = some .evacuation then comp jm else evac m)
    | some m, none => some (evac m)
    | none, some jm => some (comp jm)
    | none, none =>
      match p.rcu.owned with
      | some i => some (giveUp i p)
      | none => none

/-- R134: with no COMPACT job, no step under way and no evacuation step wanted, the runner gives its sector up. It stands
before activation, so that a job's end gives the sector up before another COMPACT is handed over (log 7). A job that ends in the
middle of its own step leaves the runner its sector: the step under way writes in it, and a COMPACT that has become the job by that
step's end keeps it (DESIGN CHOICE, log 22). -/
def restReact (p : Part) : Option Part :=
  if p.mounted && p.rcu.job.isNone && p.rcu.step.isNone && (evacuationStep p).isNone then
    p.rcu.owned.map (fun i => giveUp i p)
  else none

/-! ### The end of a step -/

/-- R35, R51: a closed step whose generation is still live: its element names the new copy, and its space moves. -/
def replaceElem (st : Step) (p : Part) : Part :=
  match p.entryOf st.slot with
  | some e =>
    if e.sequence = st.sequence then
      let x : Elem := { sector := st.newSector, offset := st.newOffset, length := st.elem.length, copy := st.elem.copy + 1 }
      let n := space st.elem.length
      reissueAtReplacement st.slot st.index
        (subLive st.elem.sector n (addLive st.newSector n
          (modEntry st.slot (fun e => { e with extents := e.extents.set st.index x }) p)))
    else p
  | none => p

/-- R31, R35: the OBSOLETE claim deferred on this step is raised; a closed step's new copy is the one it names. -/
def raiseDeferred (st : Step) (closed : Bool) (p : Part) : Part :=
  match p.retiringOf st.slot st.sequence with
  | some r =>
    if r.deferred then
      let x : Elem := { sector := st.newSector, offset := st.newOffset, length := st.elem.length, copy := st.elem.copy + 1 }
      let n := space st.elem.length
      let q := if closed then
          addRetiring st.newSector n (modRetiring st.slot st.sequence
            (fun r => { r with head := x, extra := some (st.newSector, n) }) p)
        else p
      raiseObsolete st.slot st.sequence (modRetiring st.slot st.sequence (fun r => { r with deferred := false }) q)
    else p
  | none => p

/-- R177: the sector that the runner wrote in becomes STALE with all counts 0, once its step ends in a store that is not
MOUNTED. -/
def dropRunnerSector (i : Nat) (p : Part) : Part :=
  modSector i (fun s => if s.state = .bad then s
    else { s with state := .stale, live := 0, pending := 0, retiring := 0, owner := none }) p

/-- R44, R132, R177: what becomes of the runner's sector at the end of a step. One that the step's close sealed is judged now that
its copy is counted or found dead (R46). -/
def settleRunnerSector (st : Step) (p : Part) : Part :=
  if p.mounted then
    match p.rcu.owned with
    | some i => if (p.sector i).room < Config.sealRoom ∨ (p.sector i).suspect = true then sealSector i p else p
    | none => if st.phase = .reading then p else judgeSector st.newSector p
  else
    let q := match p.rcu.owned with
      | some i => dropRunnerSector i { p with rcu := { p.rcu with owned := none } }
      | none => p
    if st.phase = .reading then q else dropRunnerSector st.newSector q

/-- R136: after a RESTART the runner gives up its sector at the end of its step, and the last step kind is none. -/
def settleRestart (p : Part) : Part :=
  if p.rcu.stopAtEnd then
    let q : Part := { p with rcu := { p.rcu with stopAtEnd := false, lastKind := none } }
    match q.rcu.owned with
    | some i => giveUp i q
    | none => q
  else p

/-- R35, R132: the end of a step, with its new copy closed or not. -/
def endStep (closed : Bool) (p : Part) : Part :=
  match p.rcu.step with
  | some st =>
    let p1 : Part := { p with rcu := { p.rcu with step := none, lastKind := some st.kind } }
    let p2 := modEntry st.slot (fun e => { e with relocating := false }) (if closed then replaceElem st p1 else p1)
    settleRestart (settleRunnerSector st (raiseDeferred st closed p2))
  | none => p

/-- R133, R134, R157: the boundary of a job at its own step's end: its own outcome first, then a waiting ABORT, before another
victim is looked for (DESIGN CHOICE, log 45). A victim made suspect and emptied by the same step counts as emptied (DESIGN
CHOICE, log 44). -/
def jobBoundary (st : Step) (p : Part) : Part :=
  match p.rcu.job with
  | some j =>
    if st.job = some j.age then
      let emptied := match j.victim with
        | some v => decide ((p.sector v).live = 0)
        | none => false
      let q := if emptied then modJob (fun j => { j with emptied := j.emptied + 1, victim := none }) p else p
      match q.rcu.job with
      | some j' =>
        if j'.asked ≤ j'.emptied then endJob .ok q
        else if Config.maxAttempts ≤ j'.failures then endJob .mediaFault q
        else if abortWaits j'.age q then endJob .aborted q
        else q
      | none => q
    else p
  | none => p

/-- The end of a step and, for a COMPACT's, the boundary of its job. -/
def finishStep (closed : Bool) (p : Part) : Part :=
  match p.rcu.step with
  | some st => jobBoundary st (endStep closed p)
  | none => p

/-- R131, R134: a failed step counts against the job it serves. -/
def countFailure (st : Step) (p : Part) : Part :=
  modJob (fun j => if st.job = some j.age then { j with failures := j.failures + 1 } else j) p

/-- R131: a first stage, data program or close of a step failed: the runner's sector is suspect and the step ends. -/
def stepFailed (p : Part) : Part :=
  match p.rcu.step with
  | some st => finishStep false (countFailure st (makeSuspect st.newSector (some .runner) (noteStepJob .mediaEvent p)))
  | none => p

/-- R130: a step's take is answered with none: a COMPACT ends with NO_SPACE, an evacuation step sets the hold. -/
def stepNoSpace (st : Step) (p : Part) : Part :=
  let q := endStep false p
  match st.kind with
  | .compact =>
    match q.rcu.job with
    | some j => if st.job = some j.age then endJob .noSpace q else q
    | none => q
  | .evacuation => { q with rcu := { q.rcu with hold := some st.zone } }

/-! ### The operations of a step -/

/-- R9, R21, R129: the first stage of a new copy: the fields as read, one copy number more, and COMMITTED for a head. -/
def relocatedStage (bytes : List Byte) (copy : Nat) : List Byte :=
  let body := [0x5E] ++ slice bytes 1 7 ++ be 2 (copy + 1) ++ slice bytes 10 4
  body ++ crc16Bytes body ++ List.replicate 7 0xFF ++ [if byteAt bytes 7 = 0 then 0x00 else 0xFF] ++ List.replicate 8 0xFF

/-- Change the step record. -/
def modStep (f : Step → Step) (p : Part) : Part := { p with rcu := { p.rcu with step := p.rcu.step.map f } }

/-- R129 operation 3: with room at offset `h` of sector `i`, the first stage is raised. -/
def raiseRunnerFirst (st : Step) (i h : Nat) (p : Part) : Part :=
  raise .runnerFirst .program st.level (.bytes i h (relocatedStage st.bytes st.elem.copy))
    (modStep (fun s => { s with phase := .firstStage, newSector := i, newOffset := h }) p)

/-- R130: the runner keeps its owned sector: it lies in the step's zone, is not suspect and has room. The step's zone is the number
it took at its choice, and the sector's that of the plan as it stands, also when a FORMAT has replaced the plan in between (DESIGN
CHOICE, log 54). -/
def runnerKeeps (st : Step) (i : Nat) (p : Part) : Bool :=
  let s := p.sector i
  decide (s.zone = st.zone) && !s.suspect && decide (Config.sealRoom ≤ s.room) && decide (32 + st.elem.length ≤ s.room)

/-- R130: the runner takes a sector for the step, in the zone of the step's number under the plan as it stands (DESIGN CHOICE,
log 54). -/
def runnerTakes (st : Step) (p : Part) : Part :=
  match takeForRunner st.zone p with
  | (some i, q) => raiseRunnerFirst st i (q.sector i).nextWrite q
  | (none, q) => stepNoSpace st q

/-- R129, R130: the step's READ completes: its bytes are kept and room is found. -/
def runnerReadDone (bytes : List Byte) (p : Part) : Part :=
  match p.rcu.step with
  | some st0 =>
    let st := { st0 with bytes := bytes }
    let q := modStep (fun s => { s with bytes := bytes }) p
    match q.rcu.owned with
    | some i =>
      if runnerKeeps st i q then raiseRunnerFirst st i (q.sector i).nextWrite q
      else runnerTakes st (giveUp i q)
    | none => runnerTakes st q
  | none => p

/-- R129 operations 4 and 5: the next data program, or the close. -/
def raiseRunnerNext (p : Part) : Part :=
  match p.rcu.step with
  | some st =>
    let n := st.elem.length
    if st.sent < n then
      raise .runnerData .program st.level
        (.bytes st.newSector (st.newOffset + 32 + st.sent) (slice st.bytes (32 + st.sent) (min Config.pageSize (n - st.sent))))
        (modStep (fun s => { s with phase := .data }) p)
    else
      raise .runnerClose .mark st.level (.bytes st.newSector (st.newOffset + closeOffset) (closeBytes n (slice st.bytes 19 4)))
        (modStep (fun s => { s with phase := .closing }) p)
  | none => p

/-- R129 operation 6: the DISCARDED mark of the old copy. -/
def raiseDiscard (p : Part) : Part :=
  match p.rcu.step with
  | some st =>
    raise .runnerDiscard .mark st.level (.bytes st.elem.sector (st.elem.offset + discardedOffset) [0x00])
      (modStep (fun s => { s with phase := .discarding }) p)
  | none => p

/-- R129: a data program of a step ended SUCCEEDED, with `n` bytes down. -/
def runnerDataDone (n : Nat) (p : Part) : Part := raiseRunnerNext (modStep (fun s => { s with sent := s.sent + n }) p)

/-- R42, R48: at the close of the extent open in it, a suspect sector that is still OWNED becomes SEALED. -/
def sealIfSuspect (i : Nat) (p : Part) : Part :=
  if (p.sector i).state = .owned ∧ (p.sector i).suspect = true then sealSector i p else p

/-- R129: the close of a new copy ended SUCCEEDED. The runner's sector is sealed here when another block has made it suspect (R48);
one that is merely full waits for the step's end (R44). -/
def runnerCloseDone (p : Part) : Part :=
  match p.rcu.step with
  | some st =>
    sealIfSuspect st.newSector (raiseDiscard (advanceNextWrite st.newSector st.newOffset st.elem.length p))
  | none => p

/-- R131, R132: an attempt of the DISCARDED mark completes. -/
def runnerDiscardDone (ok : Bool) (p : Part) : Part :=
  match p.rcu.step with
  | some st =>
    if ok then finishStep true p
    else if st.attempts + 1 < Config.maxAttempts then
      raiseDiscard (noteStepJob .retried (modStep (fun s => { s with attempts := s.attempts + 1 }) p))
    else finishStep true (makeSuspect st.elem.sector none (noteStepJob .mediaEvent p))
  | none => p

end Sys2Proof.Machine
end

