-- ==== Sys2Proof/Machine/Batch.lean ====
section
/-! DEFINITION. The waiting takers, erase batches from their grant to their completion, and the granting of claims
(R47, R53 to R55, R63, R67 to R79, R125). -/

namespace Sys2Proof.Machine

/-! ### Waiting takers -/

/-- R54: the waiting taker of highest level, the earlier joiner first. -/
def bestTaker (p : Part) : List CtxId → Option CtxId
  | [] => none
  | c :: cs =>
    match bestTaker p cs with
    | some d => if (p.ctx c).level < (p.ctx d).level then some d else some c
    | none => some c

/-- R54: a waiting taker fails with NO_SPACE. -/
def failTaker (c : CtxId) (p : Part) : Part := endCtx c .noSpace (removeTaker c p)

/-- R54: a zone's waiting takers, the one of highest level, which `first` names, before the others. -/
def takersFrom (first : CtxId) (z : Nat) (p : Part) : List CtxId :=
  first :: allCtx.filter (fun d => decide (d ≠ first) && (waitingIn z p).contains d)

/-- R54: a zone's waiting takers are answered: one of them from its TAIL or from a FREE sector under entitlement, or with NO_SPACE
when it is not entitled; and with its FREE, STALE and ERASING counts all at 0 every one of them with NO_SPACE, whatever the first
one's end makes STALE, in the order in which a sector would be offered to them (DESIGN CHOICE, log 41). -/
def answerTaker (z : Nat) (p : Part) : Option Part :=
  match p.zone z, bestTaker p (waitingIn z p) with
  | some r, some c =>
    match r.tail with
    | some t => some (raiseFirst c t (takeTail c t (removeTaker c p)))
    | none =>
      match lowestFree z p with
      | some i =>
        let q := removeTaker c p
        if ctxEntitled (q.ctx c) q then some (raiseFirst c i (takeFree c i q)) else some (failTaker c p)
      | none => if available z p = 0 then some ((takersFrom c z p).foldl (fun q d => failTaker d q) p) else none
  | _, _ => none

/-- R54: answer a zone's waiting takers while there is one to answer; there are at most two. -/
def answerTakers (z : Nat) (p : Part) : Part :=
  match answerTaker z p with
  | some q => (answerTaker z q).getD q
  | none => p

/-- The first zone with a waiting taker to answer, answered once. -/
def takersReact (p : Part) : Option Part := (List.range p.smp.zones.length).findSome? (fun z => answerTaker z p)

/-! ### The grant of an ERASE -/

/-- A sector number put into a rising list. -/
def insertSorted (s : Nat) : List Nat → List Nat
  | [] => [s]
  | t :: ts => if s ≤ t then s :: t :: ts else t :: insertSorted s ts

/-- Sector numbers in ascending order (R69). -/
def ascending (ss : List Nat) : List Nat := ss.foldr insertSorted []

/-- R67, R124, R178: the header that a batch's owner gives for a sector. -/
def batchSector (p : Part) (i : Nat) : BatchSector :=
  let s := p.sector i
  let n := min (s.eraseCount + 1) Config.maxEraseCount
  { sector := i, header := sectorHeaderBytes p.scu.format s.zone n (planOf p) s.suspect, count := n, bad := s.suspect,
    erased := false, done := false, headerOk := false }

/-- R47, R67: the grant of an ERASE: its sectors are the batch in progress and ERASING, their waiting SUSPECT marks are
withdrawn, the budget is 8 and the clock 0. -/
def grantErase (forFormat : Bool) (zone : Nat) (ss : List Nat) (p : Part) : Part :=
  let b : Batch := { forFormat := forFormat, zone := zone, sectors := (ascending ss).map (batchSector p), headers := false,
                     unsuspended := 0 }
  let q := ss.foldl (fun q i => withdraw (.suspect i) (modSector i (fun s => { s with state := .erasing }) q)) p
  { q with pee := { q.pee with state := .erasing, batch := some b, budget := Config.suspendBudget, cause := none, opClock := 0 } }

/-! ### Granting -/

/-- R79: the waiting ERASE claim of the open batch takes the highest level among its zone's waiting takers. -/
def followTakers (p : Part) : Part :=
  match p.rcu.openBatch with
  | some b =>
    { p with pee := { p.pee with claims := p.pee.claims.map (fun c =>
        if c.purpose = .reclaimErase then { c with level := takersLevel b.zone p } else c) } }
  | none => p

/-- A claim leaves the claim set. -/
def dropClaim (age : Nat) (p : Part) : Part :=
  { p with pee := { p.pee with claims := p.pee.claims.filter (fun c => c.age ≠ age) } }

/-- R84: the grant of a context's first stage or data PROGRAM makes its earlier buffer PROGRAMMING. -/
def startBufferOf (u : Purpose) (p : Part) : Part :=
  match u with
  | .ctxFirst c | .ctxData c => modCtx c WriteCtx.startBuffer p
  | _ => p

/-- R63: the grant of a READ, PROGRAM or MARK in engine state `next`. -/
def grantOp (next : EngineState) (c : Claim) (p : Part) : Part :=
  let q := startBufferOf c.purpose (dropClaim c.age p)
  { q with pee := { q.pee with state := next, op := some c, opClock := 0 } }

/-- R63: the grant of a claim in IDLE. -/
def grantIdle (c : Claim) (p : Part) : Part :=
  match c.target with
  | .openBatch =>
    match p.rcu.openBatch with
    | some b => grantErase false b.zone b.sectors
        { (dropClaim c.age p) with rcu := { p.rcu with openBatch := none } }
    | none => dropClaim c.age p
  | .sectors ss => grantErase true ((ss.head?.map (fun i => (p.sector i).zone)).getD 0) ss (dropClaim c.age p)
  | .runs _ | .bytes _ _ _ => grantOp .busy c p

/-- R63, R74 to R77: the engine looks for a claim to grant: from IDLE by R63; in SUSPENDED a preempting one, which gives its
request SUSPENDED_ERASE, and with none the erase resumes. -/
def grantNow (p : Part) : Part :=
  match p.pee.state with
  | .idle =>
    match bestClaim (eligibleClaims p) with
    | some c => grantIdle c p
    | none => p
  | .suspended =>
    match bestClaim (eligibleClaims p) with
    | some c => noteServed c.purpose .suspendedErase (grantOp .suspendedBusy c p)
    | none => { p with pee := { p.pee with state := .erasing } }
  | .busy | .erasing | .suspending | .suspendedBusy => p

/-! ### The completion of a batch -/

/-- R47, R71: the sector takes its result; while the store is not MOUNTED, a sector of a reclaim batch that is not BAD
becomes STALE (R177). -/
def sectorOutcome (target : SectorState) (b : BatchSector) (s : Sector) : Sector :=
  if b.erased && b.headerOk && !b.bad then
    { s with state := target, nextWrite := 32, suspect := false, eraseCount := b.count, owner := none }
  else
    { s with state := .bad, nextWrite := Config.sectorSize, owner := none,
             eraseCount := if b.erased then b.count else s.eraseCount }

/-- R32: a sector leaves every set of lingering heads. -/
def clearLingering (i : Nat) (p : Part) : Part :=
  { p with sdr := { p.sdr with
      directory := p.sdr.directory.map (fun e => { e with lingering := e.lingering.filter (fun s => s ≠ i) }) } }

/-- R47, R54, R55, R130: one sector's result is applied: FREE, offered to the zone's waiting takers and lifting a hold; or
BAD, with MEDIA set and the zone's reservations cut. -/
def applyOutcome (target : SectorState) (b : BatchSector) (p : Part) : Part :=
  let z := (p.sector b.sector).zone
  let q := modSector b.sector (sectorOutcome target b) (if b.erased && b.headerOk then clearLingering b.sector p else p)
  if b.erased && b.headerOk && !b.bad then
    if target = .free then answerTakers z (liftHold z q) else q
  else cutReservations z (setCond .media q)

/-- R47: the batch leaves the sector BAD. -/
def BatchSector.endsBad (b : BatchSector) : Bool := !(b.erased && b.headerOk && !b.bad)

/-- R60, R156: a FORMAT's reply gains MEDIA_EVENT when its batch makes a sector BAD. -/
def noteFormatBad (b : Batch) (p : Part) : Part :=
  if b.sectors.any (·.endsBad) then noteServed .formatErase .mediaEvent p else p

/-- R178: the FORMAT runner's position moves past the batch's last sector. -/
def movePosition (b : Batch) (p : Part) : Part :=
  let last := b.sectors.foldl (fun m s => max m (s.sector + 1)) 0
  { p with scu := { p.scu with runner := p.scu.runner.map (fun f => { f with position := max f.position last }) } }

/-- R71, R125: a batch completes: its results are applied sector by sector, in ascending sector number (DESIGN CHOICE, log 41),
the engine is IDLE, a FORMAT's position moves on, and a reclaim batch's zone is judged and the next batch opened. -/
def completeBatch (p : Part) : Part :=
  match p.pee.batch with
  | some b =>
    let target : SectorState := if !b.forFormat && !p.mounted then .stale else .free
    let p1 := b.sectors.foldl (fun q s => applyOutcome target s q) p
    let p2 : Part := { p1 with pee := { p1.pee with state := .idle, op := none, batch := none, budget := Config.suspendBudget } }
    if b.forFormat then movePosition b (noteFormatBad b p2) else openBatch (reportFree b.zone p2)
  | none => p

/-! ### The phases of a batch -/

/-- The batch in progress is in its erase phase. -/
def erasePhase (p : Part) : Bool :=
  match p.pee.batch with
  | some b => !b.headers
  | none => false

/-- The batch in its header-write phase, with the sectors for which `good` holds erased. -/
def Batch.toHeaders (good : Nat → Bool) (clock : Nat) (b : Batch) : Batch :=
  { b with headers := true, unsuspended := clock, sectors := b.sectors.map (fun s => { s with erased := good s.sector }) }

/-- R68, R70: the erase phase is over, with the sectors for which `good` holds erased and the batch clock at `clock`; the
header-write phase begins. -/
def enterHeaders (good : Nat → Bool) (clock : Nat) (p : Part) : Part :=
  let b := p.pee.batch.map (Batch.toHeaders good clock)
  { p with pee := { p.pee with state := .busy, op := none, cause := none, opClock := 0, batch := b } }

/-- R69: the sector of the header-write phase whose header or BAD mark is being written. -/
def headerSector (p : Part) : Option BatchSector :=
  match p.pee.batch with
  | some b => if b.headers then b.sectors.find? (fun s => !s.done) else none
  | none => none

/-- R69: what is written for a sector in the header-write phase: its offset and bytes. -/
def headerWrite (b : BatchSector) : Nat × List Byte := if b.erased then (0, b.header) else (badOffset, [0x00])

/-- The batch with the header write or BAD mark of a sector ended. -/
def Batch.headerEnded (i : Nat) (ok : Bool) (b : Batch) : Batch :=
  { b with sectors := b.sectors.map (fun s => if s.sector = i then { s with done := true, headerOk := ok } else s) }

/-- R69: the header write or BAD mark of a sector ended; the next begins, or the batch completes. -/
def headerDone (i : Nat) (ok : Bool) (p : Part) : Part :=
  let q : Part := { p with pee := { p.pee with opClock := 0, batch := p.pee.batch.map (Batch.headerEnded i ok) } }
  match headerSector q with
  | some _ => q
  | none => completeBatch q

end Sys2Proof.Machine
end

