-- ==== Sys2Proof/Machine/Format.lean ====
section
/-! DEFINITION. The Scan Unit: classifying sectors, deciding and resolving the store, FORMAT from its hand-over to its end
(R22 to R24, R57, R170 to R179). -/

namespace Sys2Proof.Machine

/-! ### Zone tables -/

/-- R40: the rows of a plan whose first zone starts at sector `first`, every tail none and every spare AVAILABLE. -/
def zonesFrom : Nat → List (Nat × Nat) → List Zone
  | _, [] => []
  | first, z :: zs =>
    { first := first, count := z.1, lowWater := z.2, tail := none, spareInUse := false, waiting := [] } :: zonesFrom (first + z.1) zs

/-- R57: each zone's spare is AVAILABLE where the zone has a sector in one of the states counted, IN USE where it has none. -/
def installSpares (count : Nat → Part → Nat) (p : Part) : Part :=
  (List.range p.smp.zones.length).foldl (fun q z => modZone z (fun r => { r with spareInUse := decide (count z q = 0) }) q) p

/-- R56: every zone's FREE count is reported. -/
def reportAll (p : Part) : Part := (List.range p.smp.zones.length).foldl (fun q z => reportFree z q) p

/-! ### Scanning a sector -/

/-- R172: the candidate's four numbers are those of one already recorded. -/
def sameCopy (a b : Candidate) : Bool :=
  decide (a.slot = b.slot) && decide (a.sequence = b.sequence) && decide (a.index = b.index) && decide (a.copy = b.copy)

/-- R172: a candidate record is made unless one of its four numbers stands. -/
def addCandidate (cs : List Candidate) (c : Candidate) : List Candidate := if cs.any (sameCopy c) then cs else cs ++ [c]

/-- R172: the scan record of a sector that is not scanned further and whose header is not read. -/
def plainRecord (c : ScanClass) : ScanRecord :=
  { cls := c, format := 0, plan := [], eraseCount := 0, suspect := false, nextWrite := Config.sectorSize, walkSealed := true,
    space := 0 }

/-- R170, R172: the scan record of a sector with a valid header. -/
def headerRecord (c : ScanClass) (h : List Byte) (w : Walk) : ScanRecord :=
  { cls := c, format := field h 1 2, plan := headerPlan h, eraseCount := field h 4 3, suspect := markSet (byteAt h suspectOffset),
    nextWrite := w.nextWrite, walkSealed := w.walkSealed, space := w.space }

/-- R172: a sector's scan record and what its walk found; the walk of a sector not scanned further finds nothing. -/
def classify (s : Nat) (bytes : List Byte) : ScanRecord × Walk :=
  let none_ : Walk := { candidates := [], nextWrite := Config.sectorSize, walkSealed := true, space := 0, highest := 0 }
  let h := bytes.take 32
  if bytes.all (fun b => decide (b = 0xFF)) then (plainRecord .blankErased, none_)
  else if sectorHeaderValid s h then
    if markSet (byteAt h badOffset) then (headerRecord .bad h none_, none_)
    else let w := walk s bytes; (headerRecord .walked h w, w)
  else (plainRecord .torn, none_)

/-! ### Chosen copies, completeness, liveness -/

/-- R22: of two candidates for one index, the one of higher copy number, the first on a tie. -/
def better (a b : Candidate) : Candidate := if a.copy < b.copy then b else a

/-- R22: the chosen copy of an index of a generation. -/
def chosen (cs : List Candidate) (slot sequence index : Nat) : Option Candidate :=
  match cs.filter (fun c => decide (c.slot = slot) && decide (c.sequence = sequence) && decide (c.index = index)) with
  | [] => none
  | c :: ds => some (ds.foldl better c)

/-- R22, R23: the chosen copies of indexes 0, 1, … up to the first that has none. -/
def chosenRun (cs : List Candidate) (slot sequence : Nat) : List Candidate :=
  ((List.range Config.maxExtents).map (chosen cs slot sequence)).takeWhile (·.isSome) |>.filterMap id

/-- R23: the generation whose chosen copies are given is complete: no index beyond them, and the lengths sum to the total. -/
def complete (cs : List Candidate) (run : List Candidate) : Bool :=
  match run with
  | [] => false
  | h :: _ =>
    cs.all (fun c => !(decide (c.slot = h.slot) && decide (c.sequence = h.sequence)) || decide (c.index < run.length))
      && decide ((run.map (·.length)).sum = h.total)

/-- R24: the chosen copies of a live-eligible generation, head first. -/
def eligibleRun (cs : List Candidate) (slot sequence : Nat) : Option (List Candidate) :=
  let run := chosenRun cs slot sequence
  match run with
  | h :: _ => if complete cs run && h.committed && !h.obsolete then some run else none
  | [] => none

/-- A pair put into a rising list without repeats, by slot and then sequence. -/
def insertPair (a : Nat × Nat) : List (Nat × Nat) → List (Nat × Nat)
  | [] => [a]
  | b :: bs =>
    if a = b then b :: bs
    else if a.1 < b.1 ∨ (a.1 = b.1 ∧ a.2 < b.2) then a :: b :: bs
    else b :: insertPair a bs

/-- R174: the live-eligible generations, in ascending slot id and then sequence. -/
def eligibleRuns (cs : List Candidate) : List (List Candidate) :=
  ((cs.filter (fun c => decide (c.index = 0))).foldl (fun l c => insertPair (c.slot, c.sequence) l) []).filterMap
    (fun g => eligibleRun cs g.1 g.2)

/-- The slot of a generation's chosen copies. -/
def runSlot (run : List Candidate) : Nat := (run.head?.map (·.slot)).getD 0

/-- R24: the live generations: of each slot's live-eligible ones, the last, which has the highest sequence. -/
def liveRuns : List (List Candidate) → List (List Candidate)
  | [] => []
  | [r] => [r]
  | r :: s :: rest => if runSlot r = runSlot s then liveRuns (s :: rest) else r :: liveRuns (s :: rest)

/-- R24: the stale generations: every other live-eligible one. -/
def staleRuns : List (List Candidate) → List (List Candidate)
  | [] => []
  | [_] => []
  | r :: s :: rest => if runSlot r = runSlot s then r :: staleRuns (s :: rest) else staleRuns (s :: rest)

/-- The extent element of a chosen copy. -/
def Candidate.elem (c : Candidate) : Elem := { sector := c.sector, offset := c.offset, length := c.length, copy := c.copy }

/-! ### Resolve -/

/-- R174: the directory entry of a live generation. -/
def entryOfRun (plan : List (Nat × Nat)) (run : List Candidate) : Option DirEntry :=
  run.head?.map (fun h =>
    { slot := h.slot, zone := zoneOfSector plan h.sector, cls := h.cls, length := h.total, sequence := h.sequence,
      extents := run.map Candidate.elem, openCtx := none, deletePending := false, relocating := false, lingering := [] })

/-- R174: the RECOVERY record of a stale generation. -/
def recordOfRun (run : List Candidate) : Option Retiring :=
  run.head?.map (fun h =>
    { slot := h.slot, sequence := h.sequence, extents := run.map Candidate.elem, head := h.elem, superseded := false, level := 0,
      attempts := 0, waiting := none, deferred := false, extra := none })

/-- R175: the space of the chosen copies that lie in a sector. -/
def spaceIn (i : Nat) (runs : List (List Candidate)) : Nat :=
  ((runs.flatten.filter (fun c => decide (c.sector = i))).map (fun c => space c.length)).sum

/-- R175: the highest erase count read from a valid header of a zone, BAD ones included; 0 if none. -/
def zoneErase (plan : List (Nat × Nat)) (records : List ScanRecord) (z : Nat) : Nat :=
  (records.zipIdx.filter (fun r => decide (zoneOfSector plan r.2 = z) && (decide (r.1.cls = .walked) || decide (r.1.cls = .bad)))).foldl
    (fun m r => max m r.1.eraseCount) 0

/-- R175: a sector's entry at resolve. A tail candidate is given as TAIL; R176 then keeps one of each zone. -/
def resolvedSector (plan : List (Nat × Nat)) (records : List ScanRecord) (live stale : List (List Candidate)) (i : Nat)
    (r : ScanRecord) : Sector :=
  let z := zoneOfSector plan i
  let l := spaceIn i live
  let t := spaceIn i stale
  let base : Sector := { state := .stale, zone := z, eraseCount := r.eraseCount, nextWrite := r.nextWrite, live := l,
                         pending := 0, retiring := t, suspect := r.suspect, owner := none }
  match r.cls with
  | .bad => { base with state := .bad, nextWrite := Config.sectorSize }
  | .torn | .blankErased => { base with eraseCount := zoneErase plan records z, nextWrite := Config.sectorSize }
  | .walked =>
    let empty := decide (l = 0) && decide (t = 0)
    if r.suspect then { base with state := if empty then .stale else .sealed }
    else if r.nextWrite = 32 then { base with state := .free }
    else if empty then base
    else { base with state := if r.walkSealed then .sealed else .tail }

/-- R176: the tail of a zone: of its tail candidates, the one with the most room, the lowest on a tie. -/
def zoneTail (z : Nat) (sectors : List Sector) : Option Nat :=
  ((sectors.zipIdx.filter (fun s => decide (s.1.zone = z) && decide (s.1.state = .tail))).foldl
    (fun (best : Option (Nat × Nat)) s =>
      match best with
      | some b => if b.2 < s.1.room then some (s.2, s.1.room) else best
      | none => some (s.2, s.1.room)) none).map (·.1)

/-- R176: a tail candidate that is not its zone's tail becomes SEALED. -/
def sealOthers (tails : List (Option Nat)) (sectors : List Sector) : List Sector :=
  sectors.zipIdx.map (fun s =>
    if s.1.state = .tail ∧ (tails.getD s.1.zone none) ≠ some s.2 then { s.1 with state := .sealed } else s.1)

/-- The sectors, in ascending number, for which a test holds. -/
def sectorsWhere (f : Sector → Bool) (sectors : List Sector) : List Nat := (sectors.zipIdx.filter (fun s => f s.1)).map (·.2)

/-- R174 to R176: resolve: directory, RECOVERY records, counter, zone and sector tables and queues are installed, and the
store is MOUNTED. -/
def resolve (format : Nat) (plan : List (Nat × Nat)) (p : Part) : Part :=
  let cs := p.scu.candidates
  let runs := eligibleRuns cs
  let live := liveRuns runs
  let stale := staleRuns runs
  let raw := p.scu.records.zipIdx.map (fun r => resolvedSector plan p.scu.records live stale r.2 r.1)
  let tails := (List.range plan.length).map (fun z => zoneTail z raw)
  let sectors := sealOthers tails raw
  let zones := (zonesFrom 0 plan).zipIdx.map (fun z => { z.1 with tail := tails.getD z.2 none })
  let records := stale.filterMap recordOfRun
  let p1 : Part := { p with
    sdr := { p.sdr with directory := live.filterMap (entryOfRun plan), retiring := records, sequence := p.scu.highest + 1 }
    smp := { sectors := sectors, zones := zones }
    rcu := { p.rcu with eraseQueue := sectorsWhere (fun s => decide (s.state = .stale)) sectors,
                        evacQueue := sectorsWhere (fun s => decide (s.state = .sealed) && s.suspect) sectors }
    scu := { p.scu with store := .mounted, format := format, candidates := [], records := [] } }
  let p2 := setCond .mounted (installSpares available p1)
  openBatch (reportAll (records.foldl (fun q r => raiseObsolete r.slot r.sequence q) p2))

/-- R170, R173: the store is BLANK, with the highest format number of a valid header without the BAD mark. -/
def blankFromScan (p : Part) : Part :=
  let n := p.scu.records.foldl (fun m r => if r.cls = .walked then max m r.format else m) 0
  { p with scu := { p.scu with store := .blank, format := n, candidates := [] } }

/-- R173: the decision after sector 511. -/
def decideStore (p : Part) : Part :=
  match p.scu.records.find? (fun r => r.cls = .walked) with
  | none => blankFromScan p
  | some a =>
    if p.scu.records.all (fun r => decide (r.cls ≠ .walked) || (decide (r.format = a.format) && decide (r.plan = a.plan))) then
      resolve a.format a.plan p
    else blankFromScan p

/-- R171: the scan read of a sector is raised. -/
def raiseScan (s : Nat) (p : Part) : Part :=
  raise (.scanRead s) .read 0 (.runs [{ sector := s, offset := 0, length := Config.sectorSize }]) p

/-- R172, R173: the read of a scanned sector completes. -/
def scanDone (s : Nat) (bytes : List Byte) (p : Part) : Part :=
  let r := classify s bytes
  let q : Part := { p with scu := { p.scu with
    candidates := r.2.candidates.foldl addCandidate p.scu.candidates
    records := p.scu.records ++ [r.1]
    highest := max p.scu.highest r.2.highest } }
  if s + 1 < Config.sectorCount then raiseScan (s + 1) q else decideStore q

/-! ### FORMAT -/

/-- R177: the format number that a FORMAT installs. -/
def nextFormat (n : Nat) : Nat := if n = 65535 ∨ n = 0 then 1 else n + 1

/-- R177: a sector's entry at the activation of a FORMAT of a BLANK store found at a scan (log 35). -/
def formatFromScan (records : List ScanRecord) (plan : List (Nat × Nat)) (i : Nat) (r : ScanRecord) : Sector :=
  let highest := records.foldl (fun m r => if r.cls = .walked ∨ r.cls = .bad then max m r.eraseCount else m) 0
  let read := decide (r.cls = .walked) || decide (r.cls = .bad)
  { state := if r.cls = .bad then .bad else .stale, zone := zoneOfSector plan i,
    eraseCount := if read then r.eraseCount else highest, nextWrite := Config.sectorSize, live := 0, pending := 0, retiring := 0,
    suspect := r.suspect, owner := none }

/-- R177: a sector's entry at the activation of any other FORMAT: STALE and empty, unless it is BAD, or the runner's step or
the batch in progress holds it. A runner without a step holds no sector: it has no step to run and gives it up (R135). -/
def formatFromTable (p : Part) (plan : List (Nat × Nat)) (i : Nat) (s : Sector) : Sector :=
  let t := { s with zone := zoneOfSector plan i }
  if s.state = .bad ∨ (s.owner = some .runner ∧ p.rcu.step.isSome) ∨ (batchSectors p).contains i then t
  else { t with state := .stale, live := 0, pending := 0, retiring := 0, owner := none }

/-- R170, R177: the store is BLANK as a scan found it: no plan has been installed since the cold start, by resolve or by a
FORMAT (log 35). -/
def blankSinceScan (p : Part) : Bool := decide (p.scu.store = .blank) && p.smp.zones.isEmpty

/-- R177: the sector table at the activation of a FORMAT. -/
def formatSectors (p : Part) (plan : List (Nat × Nat)) : List Sector :=
  if blankSinceScan p then p.scu.records.zipIdx.map (fun r => formatFromScan p.scu.records plan r.2 r.1)
  else p.smp.sectors.zipIdx.map (fun s => formatFromTable p plan s.2 s.1)

/-- R39: the waiting claims of retiring records are withdrawn. -/
def withdrawRetiring (p : Part) : Part := p.sdr.retiring.foldl (fun q r => withdraw (.retiring r.slot r.sequence) q) p

/-- R39, R57, R118, R136, R177: what takes effect together at the hand-over of a FORMAT. The served requests meet NO_SLOT in the
order of their hand-over (DESIGN CHOICE, log 42). -/
def formatStart (e : Entry) (plan : List (Nat × Nat)) (notes : Byte) (p : Part) : Part :=
  let p1 := withdraw .reclaim (withdrawRetiring p)
  let p2 : Part := { p1 with
    sdr := { p1.sdr with directory := [], retiring := [], sequence := 1 }
    smp := { sectors := formatSectors p1 plan, zones := zonesFrom 0 plan }
    rcu := { p1.rcu with eraseQueue := [], openBatch := none, evacQueue := [], hold := none, lastKind := none
                         owned := if p1.rcu.step.isSome then p1.rcu.owned else none }
    scu := { p1.scu with store := .formatting, format := nextFormat p1.scu.format, candidates := [],
                         runner := some { position := 0, level := e.level, age := e.age, notes := notes, stopped := false } } }
  (p.sdr.serving.map (·.age)).foldl (fun q a => slotGone a q) (installSpares available p2)

/-- R178: the sectors of the next FORMAT batch: from the runner's position, not BAD, of the zone of the first, up to 8. -/
def formatBatch (position : Nat) (sectors : List Sector) : List Nat :=
  let rest := sectors.zipIdx.filter (fun s => decide (position ≤ s.2) && decide (s.1.state ≠ .bad))
  match rest with
  | [] => []
  | s :: _ => ((rest.filter (fun t => decide (t.1.zone = s.1.zone))).take Config.batchMax).map (·.2)

/-- R179: a FORMAT that is stopped leaves a BLANK store. -/
def formatStop (p : Part) : Part :=
  let q := withdraw .scan p
  { q with scu := { q.scu with store := .blank, runner := none } }

/-- R98, R179: the reply of a FORMAT. -/
def formatReply (f : FormatRun) (st : Status) (p : Part) : Part := completeEntry f.age st f.notes (be 2 p.scu.format) p

/-- R157, R179: an ABORT's boundary ends the FORMAT. -/
def formatAbort (f : FormatRun) (p : Part) : Part := formatReply f .aborted (formatStop p)

/-- R57, R170, R179: the last batch is complete: the store is MOUNTED and the scan records are discarded. -/
def formatMount (f : FormatRun) (p : Part) : Part :=
  let p1 : Part := { p with scu := { p.scu with store := .mounted, records := [], runner := none } }
  let p2 := installSpares (fun z q => countState z .free q) (setCond .mounted p1)
  openBatch (reportAll (formatReply f .ok p2))

/-- R177 to R179: the FORMAT runner, with no batch in progress and no step of the compaction runner: the FORMAT ends, or stops
at its boundary, or raises its next batch. -/
def formatReact (p : Part) : Option Part :=
  match p.scu.runner with
  | none => none
  | some f =>
    if claimOutstanding .scan p || p.pee.batch.isSome || p.rcu.step.isSome then none
    else match formatBatch f.position p.smp.sectors with
      | [] => some (if f.stopped then formatStop p else formatMount f p)
      | ss =>
        if f.stopped then some (formatStop p)
        else if abortWaits f.age p then some (formatAbort f p)
        else some (raise .formatErase .erase f.level (.sectors ss) p)

end Sys2Proof.Machine
end

