-- ==== Sys2Proof/Machine/Requests.lean ====
section
/-! DEFINITION. Queued requests: admission, eligibility, activation, the class check, validation and hand-over (R37, R52, R85,
R105, R110, R111, R114, R133, R138 to R140, R149 to R153). -/

namespace Sys2Proof.Machine

/-! ### Admission -/

/-- R149: a request of this level is admitted. -/
def admits (level : Nat) (p : Part) : Bool :=
  let e := p.rqs.queue.length
  let q := queuedReplies p
  decide (e < Config.queueMax)
    && (if level ≤ 5 then decide (e + q < Config.queueMax - p.rqs.reserve) else decide (e + q < Config.queueMax))

/-- R148, R149: the request joins the end of the queue as a WAITING entry. -/
def admitEntry (r : Request) (tag : Byte) (level : Nat) (p : Part) : Part :=
  { p with rqs := { p.rqs with
      queue := p.rqs.queue ++ [{ request := r, tag := tag, level := level, age := p.rqs.nextAge, active := false, abortWaits := false }]
      nextAge := p.rqs.nextAge + 1 } }

/-! ### Eligibility -/

/-- R151: COMPACT, FORMAT and VERIFY, of which one may be ACTIVE. -/
def Request.long : Request → Bool
  | .compact .. | .format .. | .verify _ => true
  | .write .. | .read .. | .list .. | .delete _ => false

/-- R151: the slot's entry is relocating or has a delete pending. -/
def slotHeld (slot : Nat) (p : Part) : Bool :=
  match p.entryOf slot with
  | some e => e.relocating || e.deletePending
  | none => false

/-- R151: a WAITING entry is not passed over. -/
def eligible (p : Part) (e : Entry) : Bool :=
  !e.active && (match e.request with
    | .compact .. | .format .. | .verify _ => !(p.rqs.queue.any (fun d => d.active && d.request.long))
    | .delete s => !slotHeld s p
    | .write s .. => !slotHeld s p
    | .read .. | .list .. => true)

/-- R150: of a list in age order, the entry of highest level, the oldest at equal level. -/
def bestEntry : List Entry → Option Entry
  | [] => none
  | e :: es =>
    match bestEntry es with
    | some d => if e.level < d.level then some d else some e
    | none => some e

/-! ### The class check -/

/-- R138: the outcomes of the class check. -/
inductive ClassOutcome
  | allowed | byMaint | refused
deriving DecidableEq, Repr

/-- R138: the check of one live class against the MAINT level. -/
def classCheck (maint : Bool) : SlotClass → ClassOutcome
  | .opened => .allowed
  | .guarded => if maint then .byMaint else .refused
  | .fixed => .refused

/-- R138: the check of a WRITE or DELETE of a slot. -/
def slotClassCheck (slot : Nat) (p : Part) : ClassOutcome :=
  match p.entryOf slot with
  | some e => classCheck p.mli.level e.cls
  | none => .allowed

/-- R138: the check of a FORMAT. -/
def formatClassCheck (p : Part) : ClassOutcome :=
  if p.sdr.directory.any (fun e => decide (e.cls ≠ .opened)) then (if p.mli.level then .byMaint else .refused) else .allowed

/-- R140: the notes that validation gives a request that passes. -/
def notesOf : ClassOutcome → Byte
  | .byMaint => Note.maintOverride.bit
  | .allowed | .refused => 0

/-- The class check that a request's kind calls for. -/
def requestClass (r : Request) (p : Part) : ClassOutcome :=
  match r with
  | .write s .. | .delete s => slotClassCheck s p
  | .format .. => formatClassCheck p
  | .read .. | .list .. | .verify _ | .compact .. => .allowed

/-! ### Validation -/

/-- R19: a slot id in range. -/
def slotInRange (s : Nat) : Bool := decide (1 ≤ s) && decide (s ≤ Config.maxSlot)

/-- R33: a write context is open for the slot. -/
def slotOpen (slot : Nat) (p : Part) : Bool := allCtx.any (fun c => (p.ctx c).isOpen && decide ((p.ctx c).slot = slot))

/-- R37: the open contexts that write absent slots. -/
def openAbsent (p : Part) : Nat := (allCtx.filter (fun c => (p.ctx c).isOpen && (p.entryOf (p.ctx c).slot).isNone)).length

/-- R85: the lower-numbered IDLE context. -/
def idleCtx (p : Part) : Option CtxId := allCtx.find? (fun c => decide ((p.ctx c).state = .idle))

/-- R37: no retiring record of the slot stands. -/
def noRecord (slot : Nat) (p : Part) : Bool := !p.sdr.retiring.any (fun r => decide (r.slot = slot))

/-- R37: a DELETE of a present slot may proceed. -/
def deleteFree (slot : Nat) (p : Part) : Bool :=
  match p.entryOf slot with
  | some e => !slotOpen slot p && !e.deletePending && noRecord slot p && decide (e.lingering = [])
  | none => true

/-- R19, R37: a WRITE's slot has no open context, no delete pending. -/
def writeFree (slot : Nat) (p : Part) : Bool :=
  !slotOpen slot p && (match p.entryOf slot with
    | some e => !e.deletePending
    | none => true)

/-- R19: the zone named is the slot's, if it is present. -/
def zoneMatches (slot zone : Nat) (p : Part) : Bool :=
  match p.entryOf slot with
  | some e => decide (e.zone = zone)
  | none => true

/-- R162: the plan a FORMAT names: its entries up to its zone count. -/
def namedPlan (zoneCount : Nat) (plan : List (Nat × Nat)) : List (Nat × Nat) := plan.take zoneCount

/-- R152: the checks of a kind in code order: each with whether it passes, and what it fails with. -/
def checks (r : Request) (p : Part) : List (Bool × Status) :=
  let ready : Bool × Status := (p.mounted, .notReady)
  match r with
  | .write s z k n =>
    [ready,
     (slotInRange s && decide (z < p.smp.zones.length) && (classOf k).isSome && decide (n ≤ Config.maxLength)
        && zoneMatches s z p, .badField),
     (decide (slotClassCheck s p ≠ .refused), .protected_),
     (writeFree s p, .slotBusy),
     ((idleCtx p).isSome, .noContext),
     ((p.entryOf s).isSome || decide (p.sdr.directory.length + openAbsent p < Config.directoryCapacity), .directoryFull),
     (decide (reserved z p + reservationFor n + 1 ≤ available z p), .noSpace),
     (decide (p.sdr.sequence < Config.sequenceEnd), .sequenceExhausted)]
  | .read s o c =>
    [ready, (slotInRange s && decide (1 ≤ c) && decide (c ≤ 240) && decide (o ≤ Config.maxLength), .badField),
     ((p.entryOf s).isSome, .noSlot)]
  | .list a m => [ready, (decide (a ≤ Config.maxSlot) && decide (1 ≤ m) && decide (m ≤ 20), .badField)]
  | .delete s =>
    [ready, (slotInRange s, .badField), ((p.entryOf s).isSome, .noSlot), (decide (slotClassCheck s p ≠ .refused), .protected_),
     (deleteFree s p, .slotBusy)]
  | .verify s => [ready, (slotInRange s, .badField), ((p.entryOf s).isSome, .noSlot)]
  | .compact z n => [ready, (decide (z < p.smp.zones.length) && decide (1 ≤ n) && decide (n ≤ 8), .badField)]
  | .format n plan =>
    [(decide (p.scu.store = .blank) || p.mounted, .notReady),
     (decide (1 ≤ n) && decide (n ≤ 4) && planValid (namedPlan n plan), .badField),
     (decide (formatClassCheck p ≠ .refused), .protected_),
     (allCtx.all (fun c => !(p.ctx c).isOpen), .slotBusy)]

/-- R152: the failing check of lowest code, if any fails. -/
def validate (r : Request) (p : Part) : Option Status := ((checks r p).find? (fun c => !c.1)).map (·.2)

/-! ### Hand-over -/

/-- R85: the context that a WRITE opens, before it takes its sequence. -/
def openedCtx (e : Entry) (s z k n sequence : Nat) (class_ : ClassOutcome) : WriteCtx :=
  { WriteCtx.cold with
    state := if n = 0 then .closing else .receiving
    slot := s, zone := z, cls := (classOf k).getD .opened, sequence := sequence, total := n
    reservation := reservationFor n, maintRequired := decide (class_ = .byMaint), tag := e.tag, level := e.level
    notes := notesOf class_ }

/-- R85, R94: a WRITE opens the lower-numbered IDLE context, takes its sequence and reservation, and its opening reply takes
its entry's place; a write of no bytes starts its head. -/
def openWrite (e : Entry) (s z k n : Nat) (p : Part) : Part :=
  match idleCtx p with
  | none => p
  | some c =>
    let class_ := slotClassCheck s p
    let p1 := modCtx c (fun _ => openedCtx e s z k n p.sdr.sequence class_) p
    let p2 : Part := { p1 with sdr := { p1.sdr with sequence := p1.sdr.sequence + 1 } }
    let p3 := modEntry s (fun d => { d with openCtx := some c }) p2
    chooseStep c (completeEntry e.age .ok (notesOf class_) (be 1 c.num ++ be 1 2) p3)

/-- R110: one entry as a LIST gives it. -/
def listBytes (e : DirEntry) : List Byte := be 2 e.slot ++ be 1 e.zone ++ [e.cls.code] ++ be 3 e.length ++ be 4 e.sequence

/-- R110: a LIST is answered from the directory. -/
def answerList (e : Entry) (startAfter maximum : Nat) (p : Part) : Part :=
  let above := p.sdr.directory.filter (fun d => decide (startAfter < d.slot))
  let given := above.take maximum
  completeEntry e.age .ok (if maximum < above.length then Note.more.bit else 0)
    (be 1 given.length ++ given.flatMap listBytes) p

/-- R105: the serving record of a request at its hand-over. -/
def newServing (e : Entry) (kind : ServeKind) (slot offset count : Nat) (notes : Byte) (p : Part) : Serving :=
  let d := p.entryOf slot
  { age := e.age, kind := kind, tag := e.tag, level := e.level, slot := slot, offset := offset, count := count,
    sequence := (d.map (·.sequence)).getD 0, readLen := 0, readCount := 0, shortened := false, attempts := 0, nextIndex := 0,
    checked := 0, elem := ((d.bind (fun d => d.extents.head?))).getD { sector := 0, offset := 0, length := 0, copy := 0 },
    notes := notes, gone := false, detached := false }

/-- R105: a serving record is made. -/
def addServing (r : Serving) (p : Part) : Part := { p with sdr := { p.sdr with serving := p.sdr.serving ++ [r] } }

/-- R153: a request that passed its validation goes to its owner. -/
def handOver (e : Entry) (p : Part) : Part :=
  match e.request with
  | .write s z k n => openWrite e s z k n p
  | .read s o c => raiseRead e.age (addServing (newServing e .read s o c 0 p) p)
  | .list a m => answerList e a m p
  | .delete s =>
    raiseDeleteMark e.age (modEntry s (fun d => { d with deletePending := true })
      (addServing (newServing e .delete s 0 0 (notesOf (slotClassCheck s p)) p) p))
  | .verify s => raiseVerify e.age (addServing (newServing e .verify s 0 0 0 p) p)
  | .compact z n =>
    { p with rcu := { p.rcu with job := some { age := e.age, zone := z, asked := n, emptied := 0, victim := none, taken := [],
                                               failures := 0, level := e.level, notes := 0 } } }
  | .format n plan => formatStart e (namedPlan n plan) (notesOf (formatClassCheck p)) p

/-- R150, R152, R153: an entry becomes ACTIVE and is validated: refused in its place, or handed over. -/
def activate (e : Entry) (p : Part) : Part :=
  let q := modQueue e.age (fun d => { d with active := true }) p
  match validate e.request p with
  | some st => completeEntry e.age st 0 [] q
  | none => handOver e q

/-- R150: one activation, while fewer than 4 entries are ACTIVE and one is eligible. It is tried at the close of every event, which
agrees with the events that R150 names (DEDUCED, log 20) but for one that R150 does not name: a DELETE that RESTART carried to its
decision removes its slot's entry (R36), and its own queue entry is gone already. A WRITE or DELETE of the slot that was passed over is
activated at that event (DESIGN CHOICE, log 55). -/
def activationReact (p : Part) : Option Part :=
  if activeCount p < Config.activeMax then
    (bestEntry (p.rqs.queue.filter (eligible p))).map (fun e => activate e p)
  else none

end Sys2Proof.Machine
end

