-- ==== Sys2Proof/Machine/Close.lean ====
section
/-! DEFINITION. The close of an event: what the event made possible comes about, in one fixed order (log 7), and then the
engine grants (log 6). -/

namespace Sys2Proof.Machine

/-- R38, R93: a context waiting in COMMITTING whose SUPERSEDED record has left goes on. -/
def commitReact (p : Part) : Option Part :=
  (allCtx.find? (fun c => decide ((p.ctx c).state = .committing) && decide ((p.ctx c).commit = .waiting)
    && (p.ctx c).ending.isNone && !supersededStands (p.ctx c).slot p)).map (fun c => tryCommit c p)

/-- R53: a zone's spare that is due back at the close of an event returns to AVAILABLE, which lifts a hold of the zone (R130). -/
def spareReact (p : Part) : Option Part := (spareReturn p).map (fun z => returnSpare z p)

/-- The first of a list of reactions that has something to do, done once. -/
def firstReact : List (Part → Option Part) → Part → Option Part
  | [], _ => none
  | f :: fs, p =>
    match f p with
    | some q => some q
    | none => firstReact fs p

/-- One reaction, the first that has something to do (log 7). -/
def react (p : Part) : Option Part :=
  firstReact [takersReact, commitReact, spareReact, jobReact, restReact, activationReact, formatReact, runnerReact] p

/-- Reactions until none has anything to do, or the bound on their number is met. -/
def settle : Nat → Part → Part
  | 0, p => p
  | fuel + 1, p =>
    match react p with
    | some q => settle fuel q
    | none => p

/-- More reactions than one event can call for: a COMPACT may set each of the 512 sectors aside, and be handed over 16 times. -/
abbrev settleBound : Nat := 16384

/-- The close of an event. -/
def closeEvent (p : Part) : Part := grantNow (followTakers (settle settleBound p))

end Sys2Proof.Machine
end

