-- ==== Sys2Proof/Machine/Operate.lean ====
section
/-! DEFINITION. An operation of the engine on the array, from its grant to the owner's reaction to its result; what a cut
leaves on the array (R1 to R4, R64 to R66, R68 to R70, R75). -/

namespace Sys2Proof.Machine

/-! ### On the array -/

/-- R1: a run of bytes lies inside one sector of the array. -/
def runInside (sector offset n : Nat) : Bool := decide (sector < Config.sectorCount) && decide (offset + n ≤ Config.sectorSize)

/-- R1: the target of an operation lies inside the array. -/
def targetInside : Target → Bool
  | .runs rs => rs.all (fun r => runInside r.sector r.offset r.length)
  | .bytes s o bs => runInside s o bs.length
  | .openBatch => true
  | .sectors _ => true

/-- R64: the bytes that a READ's runs name, in their order. -/
def readRunsOf (m : Memory) (rs : List Run) : List Byte := rs.flatMap (fun r => m.readBytes (addr r.sector r.offset) r.length)

/-- R2, R65: the array after a program of `bs` at an offset of a sector: unchanged when the pre-check fails. A byte given
as 0xFF passes it and keeps its value (log 56). -/
def programArray (m : Memory) (sector offset : Nat) (bs stuck : List Byte) : Memory :=
  if preCheck (m.readBytes (addr sector offset) bs.length) bs then m.programFrom (addr sector offset) bs stuck else m

/-- R65, R66: the result of a PROGRAM or MARK: whether it SUCCEEDED, and otherwise its verified prefix. -/
structure Result where
  ok   : Bool
  good : List Byte
deriving DecidableEq, Repr

/-- R65: the result of a program that came to its verify: a pre-check failure has a verified prefix of 0. A
byte given as 0xFF over one that is not 0xFF does not read back as given, so step 3 of R65 ends the operation FAILED (log 56). -/
def programResult (m : Memory) (sector offset : Nat) (bs stuck : List Byte) : Result :=
  let back := (programArray m sector offset bs stuck).readBytes (addr sector offset) bs.length
  if preCheck (m.readBytes (addr sector offset) bs.length) bs then
    if back = bs then { ok := true, good := bs } else { ok := false, good := bs.take (leadingEqual back bs) }
  else { ok := false, good := [] }

/-- R66: the result of a program stopped by its timeout: the verified prefix is at most all bytes but one (log 10). -/
def timeoutResult (m : Memory) (sector offset : Nat) (bs stuck : List Byte) : Result :=
  let back := (programArray m sector offset bs stuck).readBytes (addr sector offset) bs.length
  { ok := false, good := bs.take (min (leadingEqual back bs) (bs.length - 1)) }

/-- R68: a sector reads 0xFF in all its bytes: it has no listed byte. -/
def sectorBlank (m : Memory) (s : Nat) : Bool := m.all (fun c => decide (c.1 / Config.sectorSize ≠ s))

/-- R4: what a cut leaves on the array: the running PROGRAM or MARK torn, the header write or BAD mark in progress torn,
the sectors of a batch in its erase phase holding the residue. -/
def tornArray (p : Part) (stuck : List Byte) (residue : List (Nat × Byte)) (m : Memory) : Memory :=
  let m1 := match p.pee.op with
    | some c =>
      match c.target with
      | .bytes s o bs => programArray m s o bs stuck
      | .runs _ | .openBatch | .sectors _ => m
    | none => m
  if erasePhase p then m1.eraseSectors (batchSectors p) residue
  else match headerSector p with
    | some b => programArray m1 b.sector (headerWrite b).1 (headerWrite b).2 stuck
    | none => m1

/-! ### The owner's reaction -/

/-- R75: the engine's state once its operation is over: IDLE, or SUSPENDED when it ran in a suspension. -/
def EngineState.afterOp : EngineState → EngineState
  | .suspendedBusy => .suspended
  | .busy => .idle
  | .idle => .idle
  | .erasing => .erasing
  | .suspending => .suspending
  | .suspended => .suspended

/-- R75: the running operation is over. -/
def endOp (p : Part) : Part := { p with pee := { p.pee with op := none, state := p.pee.state.afterOp } }

/-- R48: an attempt of a SUSPECT mark completes: a failed one is raised again while fewer than 3 have been made. -/
def suspectMarkDone (i attempt : Nat) (ok : Bool) (p : Part) : Part :=
  if ok then p
  else if attempt < Config.maxAttempts then raiseSuspectMark i (attempt + 1) p
  else p

/-- R97: the write context's PROGRAM or close completes while an ending cause is set, or not. -/
def ctxOpDone (c : CtxId) (u : Purpose) (i offset : Nat) (r : Result) (p : Part) : Part :=
  match (p.ctx c).ending with
  | some e => endingDone c e u i offset r.ok r.good.length p
  | none =>
    match u with
    | .ctxFirst _ => if r.ok then firstDone c i offset p else programFailure c i [] p
    | .ctxData _ => if r.ok then dataDone c r.good p else programFailure c i r.good p
    | _ => if r.ok then closeDone c p else closeFailure c i p

/-- R65, R66: the completion of a PROGRAM or MARK reaches the claim's owner. -/
def writeEnded (u : Purpose) (i offset : Nat) (r : Result) (p : Part) : Part :=
  match u with
  | .ctxFirst c | .ctxData c | .ctxClose c => ctxOpDone c u i offset r p
  | .ctxCommit c => if r.ok then commitSwitch c p else commitFailed c p
  | .deleteMark a => deleteMarkDone a r.ok p
  | .obsolete s q => obsoleteDone s q r.ok p
  | .suspectMark s n => suspectMarkDone s n r.ok p
  | .runnerFirst => if r.ok then raiseRunnerNext p else stepFailed p
  | .runnerData => if r.ok then runnerDataDone r.good.length p else stepFailed p
  | .runnerClose => if r.ok then runnerCloseDone p else stepFailed p
  | .runnerDiscard => runnerDiscardDone r.ok p
  | .ctxReadBack _ | .readSlot _ | .verifyStep _ | .deleteReadBack _ | .runnerRead | .reclaimErase | .formatErase
  | .scanRead _ => p

/-- R64: the completion of a READ hands its bytes to the claim's owner. -/
def readEnded (u : Purpose) (bytes : List Byte) (p : Part) : Part :=
  match u with
  | .ctxReadBack c => commitReadBack c (byteAt bytes 0) p
  | .readSlot a => readDone a bytes p
  | .verifyStep a => verifyDone a bytes p
  | .deleteReadBack a => deleteReadBackDone a (byteAt bytes 0) p
  | .runnerRead => runnerReadDone bytes p
  | .scanRead s => scanDone s bytes p
  | .ctxFirst _ | .ctxData _ | .ctxClose _ | .ctxCommit _ | .deleteMark _ | .obsolete _ _ | .suspectMark _ _ | .runnerFirst
  | .runnerData | .runnerClose | .runnerDiscard | .reclaimErase | .formatErase => p

end Sys2Proof.Machine
end

