-- ==== Sys2Proof/Machine/ArrayEvents.lean ====
section
/-! DEFINITION. The meanings of the array's and the engine's events: READ_COMPLETE, PROGRAM_COMPLETE, MARK_COMPLETE,
OPERATION_TIMEOUT, SUSPEND_COMPLETE, ERASE_PHASE_END, BATCH_TIMEOUT, HEADER_WRITE_COMPLETE, GATHERING_WINDOW_EXPIRY.
An event that the part's state does not allow leaves the state unchanged (log 5). -/

namespace Sys2Proof.Machine

/-- How an event of the part ends. -/
abbrev Out := Host.Outcome State Fault Refusal

/-- The operation running in a part that runs. -/
def runningOp (s : State) : Option Claim := if s.part.run = .running then s.part.pee.op else none

/-- R64: READ_COMPLETE. -/
def execReadComplete (s : State) : Out :=
  match runningOp s with
  | some { kind := .read, purpose := u, target := .runs rs, .. } =>
    if targetInside (.runs rs) then
      .next { s with part := closeEvent (readEnded u (readRunsOf s.array rs) (endOp s.part)) }
    else .fault .outsideArray
  | _ => .next s

/-- R65, R66: the running PROGRAM or MARK ends, with the array it leaves and its result. -/
def finishWrite (u : Purpose) (sector offset : Nat) (bs stuck : List Byte) (r : Result) (s : State) : Out :=
  if runInside sector offset bs.length then
    .next { s with array := programArray s.array sector offset bs stuck
                   part := closeEvent (writeEnded u sector offset r (endOp s.part)) }
  else .fault .outsideArray

/-- R65: PROGRAM_COMPLETE. -/
def execProgramComplete (stuck : List Byte) (s : State) : Out :=
  match runningOp s with
  | some { kind := .program, purpose := u, target := .bytes i o bs, .. } =>
    finishWrite u i o bs stuck (programResult s.array i o bs stuck) s
  | _ => .next s

/-- R65: MARK_COMPLETE. -/
def execMarkComplete (stuck : List Byte) (s : State) : Out :=
  match runningOp s with
  | some { kind := .mark, purpose := u, target := .bytes i o bs, .. } =>
    finishWrite u i o bs stuck (programResult s.array i o bs stuck) s
  | _ => .next s

/-- R69: the header write or BAD mark in progress ends; after the batch's last, the event is closed (log 6). -/
def finishHeader (b : BatchSector) (stuck : List Byte) (ok : Bool) (s : State) : Out :=
  let w := headerWrite b
  if runInside b.sector w.1 w.2.length then
    let q := headerDone b.sector ok s.part
    .next { s with array := programArray s.array b.sector w.1 w.2 stuck
                   part := if q.pee.batch.isSome then q else closeEvent q }
  else .fault .outsideArray

/-- The header write in progress in a part that runs. -/
def runningHeader (s : State) : Option BatchSector := if s.part.run = .running then headerSector s.part else none

/-- R69: HEADER_WRITE_COMPLETE. -/
def execHeaderWriteComplete (stuck : List Byte) (s : State) : Out :=
  match runningHeader s with
  | some b => finishHeader b stuck (programResult s.array b.sector (headerWrite b).1 (headerWrite b).2 stuck).ok s
  | none => .next s

/-- R66, R69: OPERATION_TIMEOUT, of a PROGRAM, a MARK or a header write. -/
def execOperationTimeout (stuck : List Byte) (s : State) : Out :=
  match runningHeader s with
  | some b => finishHeader b stuck false s
  | none =>
    match runningOp s with
    | some { kind := .program, purpose := u, target := .bytes i o bs, .. }
    | some { kind := .mark, purpose := u, target := .bytes i o bs, .. } =>
      finishWrite u i o bs stuck (timeoutResult s.array i o bs stuck) s
    | _ => .next s

/-- R77: the claim that caused the suspension, if it still waits. -/
def causeClaim (p : Part) : Option Claim :=
  match p.pee.cause with
  | some a => p.pee.claims.find? (fun c => c.age = a)
  | none => none

/-- R74: SUSPEND_COMPLETE. -/
def execSuspendComplete (s : State) : Out :=
  if s.part.run = .running ∧ s.part.pee.state = .suspending then
    let q := match causeClaim s.part with
      | some c => noteServed c.purpose .suspendedErase s.part
      | none => s.part
    .next { s with part := grantNow { q with pee := { q.pee with state := .suspended, cause := none } } }
  else .next s

/-- R62: the erase phase runs: ERASING, or SUSPENDING. -/
def eraseRuns (s : State) : Bool :=
  decide (s.part.run = .running) && (decide (s.part.pee.state = .erasing) || decide (s.part.pee.state = .suspending))

/-- R67, R70: the unsuspended time of the batch in progress. -/
def batchClock (p : Part) : Nat :=
  match p.pee.batch with
  | some b => b.unsuspended
  | none => 0

/-- R68: ERASE_PHASE_END. -/
def execErasePhaseEnd (residue : List (Nat × Byte)) (s : State) : Out :=
  if eraseRuns s then
    let m := Memory.eraseSectors s.array (batchSectors s.part) residue
    .next { s with array := m, part := enterHeaders (sectorBlank m) (batchClock s.part) s.part }
  else .next s

/-- R70: BATCH_TIMEOUT. -/
def execBatchTimeout (residue : List (Nat × Byte)) (s : State) : Out :=
  if eraseRuns s then
    .next { s with array := Memory.eraseSectors s.array (batchSectors s.part) residue
                   part := enterHeaders (fun _ => false) Config.batchTime s.part }
  else .next s

/-- R124: GATHERING_WINDOW_EXPIRY. -/
def execGatheringWindowExpiry (s : State) : Out :=
  match s.part.run, s.part.rcu.openBatch with
  | .running, some { window := some _, .. } => .next { s with part := closeEvent (raiseErase s.part) }
  | _, _ => .next s

end Sys2Proof.Machine
end

