-- ==== Sys2Proof/Machine/Pins.lean ====
section
/-! DEFINITION. The meanings of the events of the pins and the supply: RESET_ASSERTED, COLD_START, LOSS_OF_POWER,
MAINT_PIN_CHANGE, DEBOUNCE_EXPIRY (R4, R142, R143, R145, R159, R169, R171). -/

namespace Sys2Proof.Machine

/-- R159: a transaction in progress when the part stops is lost. -/
def loseTransaction : Transaction → Transaction
  | .active _ _ => .lost
  | .lost => .lost
  | .none => .none

/-- The part stops running: no transaction is taken, the engine's operation is cut. What it holds is of no account until the
cold start that follows (log 14). -/
def stopPart (r : RunState) (p : Part) : Part :=
  { p with run := r, link := { p.link with transaction := loseTransaction p.link.transaction, miso := [] } }

/-- R4: the array as a part that stops leaves it. A part that does not run has no operation in progress. -/
def stopArray (stuck : List Byte) (residue : List (Nat × Byte)) (s : State) : Memory :=
  if s.part.run = .running then tornArray s.part stuck residue s.array else s.array

/-- R159, R171: RESET_ASSERTED. A part without supply has no RESET to take. -/
def execResetAsserted (stuck : List Byte) (residue : List (Nat × Byte)) (s : State) : Out :=
  if s.part.run = .running then
    .next { s with array := stopArray stuck residue s, part := stopPart .inReset s.part }
  else .next s

/-- R4: LOSS_OF_POWER. -/
def execLossOfPower (stuck : List Byte) (residue : List (Nat × Byte)) (s : State) : Out :=
  .next { s with array := stopArray stuck residue s, part := stopPart .unpowered s.part }

/-- R145, R159, R171: the cold values of every block; the MAINT pin keeps its level and starts the debounce timer when it is
asserted; a transaction that began before the release is ignored whole. -/
def coldPart (p : Part) : Part :=
  { Part.cold with
    link := { Part.cold.link with transaction := loseTransaction p.link.transaction }
    mli := { pin := p.mli.pin, level := false, timer := if p.mli.pin then some 0 else none } }

/-- R171: COLD_START. One that finds the part running cuts its operation as an assertion of RESET does (log 13). -/
def execColdStart (stuck : List Byte) (residue : List (Nat × Byte)) (s : State) : Out :=
  .next { s with array := stopArray stuck residue s, part := coldPart s.part }

/-- R142: the pin changes: the timer starts when the pin differs from the debounced level, and stops when it equals it. -/
def pinChange (asserted : Bool) (m : Mli) : Mli :=
  { m with pin := asserted, timer := if asserted = m.level then none else some 0 }

/-- R142, R145: MAINT_PIN_CHANGE. The pin is not taken while the part does not run; its level is looked at when it starts. -/
def execMaintPinChange (asserted : Bool) (s : State) : Out :=
  if asserted = s.part.mli.pin then .next s
  else if s.part.run = .running then
    .next { s with part := { s.part with mli := pinChange asserted s.part.mli } }
  else .next { s with part := { s.part with mli := { s.part.mli with pin := asserted } } }

/-- R143: DEBOUNCE_EXPIRY. -/
def execDebounceExpiry (s : State) : Out :=
  match s.part.run, s.part.mli.timer with
  | .running, some _ =>
    .next { s with part := setCond .maint { s.part with mli := { s.part.mli with level := s.part.mli.pin, timer := none } } }
  | _, _ => .next s

end Sys2Proof.Machine
end

