-- ==== Sys2Proof/Machine/Frames.lean ====
section
/-! DEFINITION. The frames of the link: the reply frame, the request frame, its checks and its fields (10 section 10.2,
R161, R162). -/

namespace Sys2Proof.Machine

/-! ### Reply frames -/

/-- The bytes a reply's body length counts. -/
def replyBody (r : Reply) : List Byte := [r.kind ||| 0x80, r.tag, r.status.code, r.notes] ++ r.payload

/-- Section 10.2: a reply frame, from its marker to its CRC. -/
def replyFrame (r : Reply) : List Byte :=
  let guarded := be 2 (replyBody r).length ++ replyBody r
  [0xE4] ++ guarded ++ crc16Bytes guarded

/-! ### Request frames -/

/-- R162: whether a kind allows a body length; none for a byte that is none of the sixteen kinds. -/
def bodyLengthAllowed (kind n : Nat) : Option Bool :=
  match kind with
  | 0x01 | 0x02 | 0x08 => some (decide (n = 3))
  | 0x03 => some (decide (n = 20))
  | 0x04 | 0x06 | 0x07 => some (decide (n = 4))
  | 0x05 | 0x23 | 0x24 | 0x25 => some (decide (n = 5))
  | 0x10 => some (decide (8 ≤ n) && decide (n ≤ 263))
  | 0x20 => some (decide (n = 10))
  | 0x21 => some (decide (n = 9))
  | 0x22 => some (decide (n = 6))
  | 0x26 => some (decide (n = 16))
  | _ => none

/-- R161: what the checks of a frame find. -/
inductive FrameCheck
  | ignored
  | refused (s : Status)
  | passed
deriving DecidableEq, Repr

/-- The bytes between a frame's body length field and its CRC. -/
def frameBody (frame : List Byte) : List Byte := slice frame 2 (frame.length - 4)

/-- R161: the checks of a frame, in their order. -/
def checkFrame (frame : List Byte) : FrameCheck :=
  let n := frame.length
  if n < 4 then .ignored
  else if frame.drop (n - 2) ≠ crc16Bytes (frame.take (n - 2)) then .refused .badCrc
  else if field frame 0 2 ≠ n - 4 then .refused .badLength
  else if n = 4 then .refused .unknownKind
  else match bodyLengthAllowed (byteAt (frameBody frame) 0).toNat (n - 4) with
    | some true => .passed
    | some false => .refused .badLength
    | none => .refused .unknownKind

/-- R161: the kind a refusal echoes: 0 where the frame is too short to hold one (log 23). -/
def frameKind (frame : List Byte) : Byte := byteAt (frameBody frame) 0

/-- R161: the tag a refusal echoes: 0 where the frame is too short to hold one (log 23). -/
def frameTag (frame : List Byte) : Byte := byteAt (frameBody frame) 1

/-- The bytes of `bs` in pairs. -/
def pairs : List Byte → List (Byte × Byte)
  | a :: b :: rest => (a, b) :: pairs rest
  | _ => []

/-- R162: the four plan entries of a FORMAT, 3 bytes each. -/
def planEntries : List Byte → List PlanEntry
  | a :: b :: c :: rest => { sectors := BitVec.ofNat 16 (ofBe [a, b]), lowWater := c } :: planEntries rest
  | _ => []

/-- R162: the request whose body is `kind, tag, level` and the payload that follows them. -/
def decodeBody (body : List Byte) : Option Instr :=
  match body with
  | kind :: tag :: level :: pay =>
    match kind.toNat, pay with
    | 0x01, [] => some (.ident tag level)
    | 0x02, [] => some (.status tag level)
    | 0x03, _ =>
      if pay.length = 17 then some (.notice tag level (pairs (pay.take 16)) (byteAt pay 16)) else none
    | 0x04, [c] => some (.clear tag level c)
    | 0x05, [r, q] => some (.tune tag level r q)
    | 0x06, [t] => some (.abort tag level t)
    | 0x07, [c] => some (.abandon tag level c)
    | 0x08, [] => some (.restart tag level)
    | 0x10, c :: o2 :: o1 :: o0 :: d :: ds =>
      if ds.length < 256 then some (.data tag level c (BitVec.ofNat 24 (ofBe [o2, o1, o0])) (d :: ds)) else none
    | 0x20, [s1, s0, z, k, l2, l1, l0] =>
      some (.write tag level (BitVec.ofNat 16 (ofBe [s1, s0])) z k (BitVec.ofNat 24 (ofBe [l2, l1, l0])))
    | 0x21, [s1, s0, o2, o1, o0, c] =>
      some (.read tag level (BitVec.ofNat 16 (ofBe [s1, s0])) (BitVec.ofNat 24 (ofBe [o2, o1, o0])) c)
    | 0x22, [s1, s0, m] => some (.list tag level (BitVec.ofNat 16 (ofBe [s1, s0])) m)
    | 0x23, [s1, s0] => some (.delete tag level (BitVec.ofNat 16 (ofBe [s1, s0])))
    | 0x24, [s1, s0] => some (.verify tag level (BitVec.ofNat 16 (ofBe [s1, s0])))
    | 0x25, [z, c] => some (.compact tag level z c)
    | 0x26, z :: es => if es.length = 12 then some (.format tag level z (planEntries es)) else none
    | _, _ => none
  | _ => none

/-- R161, R162: the request of a frame that passes its checks. -/
def decodeFrame (frame : List Byte) : Option Instr :=
  match checkFrame frame with
  | .passed => decodeBody (frameBody frame)
  | .ignored | .refused _ => none

/-- R159: the command that a transaction's bytes on MOSI stand for: by the command byte a push, whose frame is a request or a
bad frame, a fetch, or a transaction that is ignored. One of no byte at all brings no command. -/
def decodeTransaction : List Byte → Option Instr
  | [] => none
  | command :: rest =>
    if command = 0x61 then some ((decodeFrame rest).getD (.badFrame rest))
    else if command = 0x62 then some (.fetch rest.length)
    else some (.ignoredTransaction rest.length)

/-- A plan entry as a FORMAT sends it (R162). -/
def PlanEntry.bytes (e : PlanEntry) : List Byte := be 2 e.sectors.toNat ++ [e.lowWater]

/-- R162: the body of a request's frame: kind, tag, level, payload. -/
def requestBody : Instr → Option (List Byte)
  | .ident t l => some [0x01, t, l]
  | .status t l => some [0x02, t, l]
  | .notice t l ss f => some ([0x03, t, l] ++ ss.flatMap (fun s => [s.1, s.2]) ++ [f])
  | .clear t l c => some [0x04, t, l, c]
  | .tune t l r q => some [0x05, t, l, r, q]
  | .abort t l x => some [0x06, t, l, x]
  | .abandon t l c => some [0x07, t, l, c]
  | .restart t l => some [0x08, t, l]
  | .data t l c o bs => some ([0x10, t, l, c] ++ be 3 o.toNat ++ bs)
  | .write t l s z k n => some ([0x20, t, l] ++ be 2 s.toNat ++ [z, k] ++ be 3 n.toNat)
  | .read t l s o c => some ([0x21, t, l] ++ be 2 s.toNat ++ be 3 o.toNat ++ [c])
  | .list t l s m => some ([0x22, t, l] ++ be 2 s.toNat ++ [m])
  | .delete t l s => some ([0x23, t, l] ++ be 2 s.toNat)
  | .verify t l s => some ([0x24, t, l] ++ be 2 s.toNat)
  | .compact t l z c => some [0x25, t, l, z, c]
  | .format t l z es => some ([0x26, t, l, z] ++ es.flatMap PlanEntry.bytes)
  | _ => none

/-- Section 10.2: a request's frame: body length, body, CRC. -/
def requestFrame (i : Instr) : Option (List Byte) :=
  match requestBody i with
  | some body =>
    let guarded := be 2 body.length ++ body
    some (guarded ++ crc16Bytes guarded)
  | none => none

end Sys2Proof.Machine
end

