-- ==== Sys2Proof/Machine/Link.lean ====
section
/-! DEFINITION. The meanings of transactions: TRANSACTION_START, IGNORED_TRANSACTION, FETCH, and the push that brings a
request (R98, R146, R159 to R166). -/

namespace Sys2Proof.Machine

/-- R159, R163: what the fall of CS samples: the status byte, and the head of the reply queue. -/
def beginTransaction (p : Part) : Transaction := .active (statusByte p) p.link.replies.head?

/-- R159: TRANSACTION_START. One that falls while the part does not run is ignored whole. -/
def execTransactionStart (s : State) : Out :=
  .next { s with part := { s.part with link := { s.part.link with
    transaction := if s.part.run = .running then beginTransaction s.part else .lost } } }

/-- The transaction that ends now. One whose start was not given as a command started at this event (log 12). -/
def currentTransaction (p : Part) : Transaction :=
  match p.link.transaction with
  | .none => beginTransaction p
  | .active b r => .active b r
  | .lost => .lost

/-- R159: a transaction ends, with the bytes that MISO gave. -/
def endTransaction (bytes : List Byte) (p : Part) : Part :=
  { p with link := { p.link with transaction := .none, miso := bytes } }

/-- R159, R161: a push of `n` bytes ends, and the part takes what it brought. A part that does not run takes nothing, nor
does one take a lost transaction; the rise of CS ends it all the same, so that the next begins anew. -/
def push (n : Nat) (act : Part → Part) (p : Part) : Part :=
  if p.run = .running then
    match currentTransaction p with
    | .active b _ => act (endTransaction (b :: List.replicate n 0x00) p)
    | .none | .lost => endTransaction [] p
  else endTransaction [] p

/-- A request whose frame of `n` bytes passed its checks. -/
def request (n : Nat) (act : Part → Part) (s : State) : Out := .next { s with part := push n act s.part }

/-- R159: IGNORED_TRANSACTION, with `later` bytes clocked after the status byte. -/
def execIgnoredTransaction (later : Nat) (s : State) : Out := .next { s with part := push later id s.part }

/-- R163: the bytes a fetch gives after the status byte. -/
def fetchBytes (r : Option Reply) (n : Nat) : List Byte :=
  match r with
  | some r => (replyFrame r ++ List.replicate n 0x00).take n
  | none => List.replicate n 0x00

/-- R98: the fetch of an ending reply returns its context to IDLE. -/
def releasePlace (pl : Place) (p : Part) : Part :=
  match pl with
  | .ending c => modCtx c (fun _ => .cold) p
  | .queued | .direct => p

/-- R98, R163: a fetched reply leaves the queue and its place is freed. -/
def dropHead (p : Part) : Part :=
  match p.link.replies with
  | [] => p
  | r :: rs => releasePlace r.place { p with link := { p.link with replies := rs } }

/-- R163: a fetch of `n` bytes after the status byte ends; it completes when the whole frame was shifted out. -/
def endFetch (n : Nat) (p : Part) : Part :=
  if p.run = .running then
    match currentTransaction p with
    | .active b r =>
      let q := endTransaction (b :: fetchBytes r n) p
      match r with
      | some r => if (replyFrame r).length ≤ n then dropHead q else q
      | none => q
    | .none | .lost => endTransaction [] p
  else endTransaction [] p

/-- R163: FETCH. -/
def execFetch (clocked : Nat) (s : State) : Out := .next { s with part := endFetch clocked s.part }

end Sys2Proof.Machine
end

