-- ==== Sys2Proof/Machine/Direct.lean ====
section
/-! DEFINITION. The meanings of the direct requests and of DATA: IDENT, STATUS, NOTICE, CLEAR, TUNE, ABORT, ABANDON, RESTART,
DATA (R36, R78, R86, R87, R103 to R105, R119, R134, R136, R146, R147, R157, R158, R162, R164 to R167, R179, R180). -/

namespace Sys2Proof.Machine

/-! ### IDENT and STATUS -/

/-- R147, R164: the payload of IDENT. -/
def identPayload : List Byte :=
  be 1 Config.vendorCode ++ be 2 Config.partCode ++ be 1 Config.revision ++ be 2 Config.sectorCount ++ be 2 Config.sectorSize
    ++ be 2 Config.pageSize ++ be 2 Config.directoryCapacity ++ be 3 Config.maxLength

/-- R147: what IDENT does. -/
def takeIdent (tag : Byte) (p : Part) : Part := placeDirect 0x01 tag .ok identPayload p

/-- The seven state counts of a zone, in the order of STATUS (R164). -/
def zoneStates : List SectorState := [.free, .owned, .tail, .sealed, .stale, .erasing, .bad]

/-- R164: the figures of a zone; all 0 beyond the zone count and while the tables are not meaningful. -/
def zoneFigures (z : Nat) (p : Part) : List Byte :=
  let shown : Option Zone := match p.scu.store with
    | .scanning | .blank => none
    | .mounted | .formatting => p.zone z
  match shown with
  | some r =>
    let room := match r.tail with
      | some t => (p.sector t).room
      | none => 0xFFFF
    zoneStates.flatMap (fun st => be 2 (countState z st p)) ++ be 2 room ++ be 1 r.lowWater ++ be 2 (reserved z p)
  | none => List.replicate 19 0x00

/-- R164: the zone count; 0 while the store is SCANNING or BLANK. -/
def zonesShown (p : Part) : Nat :=
  match p.scu.store with
  | .scanning | .blank => 0
  | .mounted | .formatting => p.smp.zones.length

/-- R164: the figures of a context. -/
def ctxFigures (k : WriteCtx) : List Byte :=
  be 1 k.state.code ++ be 2 k.slot ++ be 3 k.received ++ be 3 k.programmed ++ be 1 k.credit

/-- The ending replies that wait (R165). -/
def endingReplies (p : Part) : Nat :=
  (p.link.replies.filter (fun r => match r.place with
    | .ending _ => true
    | .queued | .direct => false)).length

/-- R164: the figures of STATUS, taken before its own reply takes a place. The places in use count those pledged or held
beside those of produced replies (log 24). -/
def statusPayload (p : Part) : List Byte :=
  be 1 p.scu.store.code ++ be 2 p.scu.format ++ be 4 p.sdr.sequence ++ be 1 (zonesShown p)
    ++ zoneFigures 0 p ++ zoneFigures 1 p ++ zoneFigures 2 p ++ zoneFigures 3 p
    ++ be 1 p.rqs.queue.length ++ be 1 (activeCount p)
    ++ be 1 (p.rqs.queue.length + queuedReplies p) ++ be 1 (endingReplies p) ++ be 1 (directInUse p)
    ++ ctxFigures p.wcu.c0 ++ ctxFigures p.wcu.c1
    ++ be 1 p.pee.state.code ++ be 1 p.pee.budget ++ [if p.mli.level then 0x01 else 0x00]
    ++ [condSetByte p, condEnableByte p] ++ be 1 p.rqs.reserve ++ be 1 p.pee.preempt

/-- R164: what STATUS does. -/
def takeStatus (tag : Byte) (p : Part) : Part := placeDirect 0x02 tag .ok (statusPayload p) p

/-! ### NOTICE, CLEAR, TUNE -/

/-- R162: the values of a NOTICE are in range. -/
def noticeValid (settings : List (Byte × Byte)) (floor : Byte) : Bool :=
  settings.all (fun s => decide (s.1.toNat ≤ 1) && decide (s.2.toNat ≤ 7)) && decide (floor.toNat ≤ 7)

/-- R167: every enable and level is replaced. -/
def setRows : List CondRow → List (Byte × Byte) → List CondRow
  | r :: rs, s :: ss => { r with enable := decide (s.1 = 1), level := s.2.toNat } :: setRows rs ss
  | rs, _ => rs

/-- R162, R167: what NOTICE does. One without its eight settings has a body length its kind does not allow (log 28). -/
def takeNotice (tag : Byte) (settings : List (Byte × Byte)) (floor : Byte) (p : Part) : Part :=
  if settings.length ≠ 8 then placeDirect 0x03 tag .badLength [] p
  else if noticeValid settings floor then
    placeDirect 0x03 tag .ok []
      { p with link := { p.link with conds := setRows p.link.conds settings, floor := floor.toNat } }
  else placeDirect 0x03 tag .badField [] p

/-- R167: the conditions of a set are cleared. -/
def clearConds (conditions : Byte) (rows : List CondRow) : List CondRow :=
  rows.zipIdx.map (fun r => if conditions.getLsbD r.2 then { r.1 with set := false } else r.1)

/-- R166, R167: what CLEAR does: the clear first, then its reply. -/
def takeClear (tag conditions : Byte) (p : Part) : Part :=
  placeDirect 0x04 tag .ok [] { p with link := { p.link with conds := clearConds conditions p.link.conds } }

/-- R78, R158: what TUNE does. -/
def takeTune (tag reserve preempt : Byte) (p : Part) : Part :=
  if reserve.toNat ≤ 7 ∧ 1 ≤ preempt.toNat ∧ preempt.toNat ≤ 7 then
    placeDirect 0x05 tag .ok []
      (setPreempt preempt.toNat { p with rqs := { p.rqs with reserve := reserve.toNat } })
  else placeDirect 0x05 tag .badField [] p

/-! ### ABORT -/

/-- R157: an ABORT takes its direct place for a later answer, or loses it, and waits on its target. -/
def holdAbort (tag : Byte) (age : Nat) (p : Part) : Part :=
  let q := if directInUse p < Config.directPlaces then
      { p with link := { p.link with held := p.link.held ++ [{ tag := tag, target := age }] } }
    else setCond .overrun p
  modQueue age (fun e => { e with abortWaits := true }) q

/-- R119: an ABORT taken while a VERIFY's step waits ends it at once. -/
def abortVerify (age : Nat) (p : Part) : Part :=
  match p.servingOf age with
  | some r =>
    if purposeWaits (.verifyStep age) p then
      completeServing age .aborted r.notes (verifyPayload r r.checked) (withdraw (.serving age) p)
    else p
  | none => p

/-- R134: an ABORT taken while the job's own step waits for its READ, or while it has no step of its own, ends it at once. -/
def abortCompact (p : Part) : Part :=
  match p.rcu.job with
  | some j =>
    if stepServes j p then
      if purposeWaits .runnerRead p then endJob .aborted (endStep false (withdraw .runner p)) else p
    else endJob .aborted p
  | none => p

/-- The batch in progress is a FORMAT's. -/
def formatBatchRuns (p : Part) : Bool :=
  match p.pee.batch with
  | some b => b.forFormat
  | none => false

/-- R179: an ABORT taken while no batch of the FORMAT is granted stops it at once. -/
def abortFormat (p : Part) : Part :=
  match p.scu.runner with
  | some f => if formatBatchRuns p then p else formatAbort f p
  | none => p

/-- R157: an ABORT that finds an ACTIVE entry. -/
def abortActive (tag : Byte) (e : Entry) (p : Part) : Part :=
  match e.request with
  | .verify _ => abortVerify e.age (holdAbort tag e.age p)
  | .compact .. => abortCompact (holdAbort tag e.age p)
  | .format .. => abortFormat (holdAbort tag e.age p)
  | .read .. | .list .. | .delete _ | .write .. => placeDirect 0x06 tag .tooLate [] p

/-- R157: what ABORT does: the oldest entry of the tag decides, or else a reply of that tag that waits. -/
def takeAbort (tag target : Byte) (p : Part) : Part :=
  match p.rqs.queue.find? (fun e => e.tag = target) with
  | some e =>
    closeEvent (if e.active then abortActive tag e p
      else placeDirect 0x06 tag .ok [] (completeEntry e.age .aborted 0 [] p))
  | none =>
    if p.link.replies.any (fun r => decide (r.place = .queued) && decide (r.tag = target) && decide (r.kind ≠ 0x20)) then
      placeDirect 0x06 tag .tooLate [] p
    else placeDirect 0x06 tag .notFound [] p

/-! ### ABANDON -/

/-- R103: an ABANDON may still end this COMMITTING context: no commit attempt is granted, no read-back pending, no switch
made. -/
def commitOpen (c : CtxId) (p : Part) : Bool :=
  match (p.ctx c).commit with
  | .notReached | .waiting => true
  | .attempting => purposeWaits (.ctxCommit c) p
  | .switched => false

/-- R103: what ABANDON does to an open context. -/
def abandonCtx (c : CtxId) (p : Part) : Part :=
  match (p.ctx c).state with
  | .receiving | .closing => endCtx c .abandoned p
  | .committing => if commitOpen c p then finishEnd c (some .abandoned) p else p
  | .idle | .ended => p

/-- R103: what ABANDON does. -/
def takeAbandon (tag context : Byte) (p : Part) : Part :=
  match ctxOf context.toNat with
  | some c =>
    if (p.ctx c).isOpen && (p.ctx c).ending.isNone then closeEvent (abandonCtx c (placeDirect 0x07 tag .ok [] p))
    else placeDirect 0x07 tag .noContext [] p
  | none => placeDirect 0x07 tag .noContext [] p

/-! ### RESTART -/

/-- R36, R82, R105: a serving record under RESTART. A DELETE whose attempt is granted, or whose read-back is raised, is carried
to its decision; a DELETE that had a failed attempt has failed finally. -/
def restartServing (r : Serving) (p : Part) : Part :=
  match r.kind with
  | .delete =>
    if purposeRuns (.deleteMark r.age) p || purposeWaits (.deleteReadBack r.age) p || purposeRuns (.deleteReadBack r.age) p then
      modServing r.age (fun r => { r with detached := true }) p
    else
      let q := clearDeletePending r.slot (withdraw (.serving r.age) p)
      dropServing r.age (if 0 < r.attempts then makeSuspect r.elem.sector none q else q)
  | .read | .verify => dropServing r.age (withdraw (.serving r.age) p)

/-- R104: RESTART ends a write context at the completion of its granted operation: no reply will be given, and both its buffers are EMPTY
from this event on, so that R97 step 2 finds nothing left to empty at the completion (DEDUCED, log 52). -/
def endAtCompletion (c : CtxId) (p : Part) : Part :=
  modCtx c (fun k => { k with ending := some .byRestart, bufX := .cold, bufY := .cold }) p

/-- R104: a write context under RESTART: its end is applied now or at the completion of its granted operation; a commit
attempt granted, or its read-back raised, is carried to its decision. -/
def restartCtx (c : CtxId) (p : Part) : Part :=
  let k := p.ctx c
  match k.state with
  | .idle => p
  | .ended => modCtx c (fun _ => .cold) p
  | .receiving | .closing =>
    if claimRuns (.ctx c) p then endAtCompletion c p else finishEnd c none p
  | .committing =>
    if claimRuns (.ctx c) p || purposeWaits (.ctxReadBack c) p then endAtCompletion c p else finishEnd c none p

/-- R30, R39: every record loses its waiting context. -/
def clearWaiting (p : Part) : Part :=
  { p with sdr := { p.sdr with retiring := p.sdr.retiring.map (fun r => { r with waiting := none }) } }

/-- R134, R136: the Reclaim Unit under RESTART: the COMPACT is discarded and the step under way runs to its end; with no step
the last step kind is none at once. -/
def restartRunner (p : Part) : Part :=
  { p with rcu := { p.rcu with job := none, stopAtEnd := p.rcu.step.isSome,
                               lastKind := if p.rcu.step.isSome then p.rcu.lastKind else none } }

/-- R179: a FORMAT under RESTART: stopped at once, or at its granted batch's completion. -/
def restartFormat (p : Part) : Part :=
  match p.scu.runner with
  | some f =>
    if formatBatchRuns p then { p with scu := { p.scu with runner := some { f with stopped := true } } } else formatStop p
  | none => p

/-- R58, R180: what RESTART does. The ends it brings come in the order serving records, context 0, context 1 (DESIGN CHOICE,
log 41). -/
def takeRestart (tag : Byte) (p : Part) : Part :=
  if p.scu.store = .scanning then placeDirect 0x08 tag .notReady [] p
  else
    let counts := be 1 p.rqs.queue.length ++ be 1 (allCtx.filter (fun c => (p.ctx c).isOpen)).length
    let p1 : Part := { p with rqs := { p.rqs with queue := [] }, link := { p.link with held := [] } }
    let p2 := p1.sdr.serving.foldl (fun q r => restartServing r q) p1
    let p3 := allCtx.foldl (fun q c => restartCtx c q) (clearWaiting p2)
    let p4 := restartFormat (restartRunner p3)
    closeEvent (placeDirect 0x08 tag .ok counts { p4 with link := { p4.link with replies := [] } })

/-! ### DATA -/

/-- R86: the checks of a DATA frame against its context, in their order. -/
def dataCheck (c : CtxId) (offset count : Nat) (p : Part) : Option Status :=
  let k := p.ctx c
  if k.state ≠ .receiving ∨ k.ending ≠ none then some .noContext
  else if offset ≠ k.received ∨ k.total < offset + count ∨ (count < Config.bufferSize ∧ offset + count ≠ k.total) then
    some .outOfOrder
  else if (k.buf k.fillNext).state ≠ .empty then some .noCredit
  else none

/-- R87: the frame's bytes fill the context's next buffer. -/
def fillBuffer (offset : Nat) (bytes : List Byte) (k : WriteCtx) : WriteCtx :=
  { k.setBuf k.fillNext (fun _ => { state := .filled, bytes := bytes, offset := offset, done := 0 }) with
    received := k.received + bytes.length, fillNext := k.fillNext.other }

/-- R86, R87: what DATA does. One of no bytes or of more than 256 has a body length its kind does not allow (log 28). -/
def takeData (tag context : Byte) (offset : BitVec 24) (bytes : List Byte) (p : Part) : Part :=
  if bytes.length = 0 ∨ Config.bufferSize < bytes.length then placeDirect 0x10 tag .badLength [] p
  else match ctxOf context.toNat with
    | none => placeDirect 0x10 tag .noContext [] p
    | some c =>
      match dataCheck c offset.toNat bytes.length p with
      | some st => placeDirect 0x10 tag st [] p
      | none => closeEvent (chooseStep c (modCtx c (fillBuffer offset.toNat bytes) p))

/-! ### The commands -/

/-- IDENT (R147). -/
def execIdent (tag _level : Byte) (s : State) : Out := request 7 (takeIdent tag) s

/-- STATUS (R164). -/
def execStatus (tag _level : Byte) (s : State) : Out := request 7 (takeStatus tag) s

/-- NOTICE (R167). -/
def execNotice (tag _level : Byte) (settings : List (Byte × Byte)) (floor : Byte) (s : State) : Out :=
  request (8 + 2 * settings.length) (takeNotice tag settings floor) s

/-- CLEAR (R167). -/
def execClear (tag _level conditions : Byte) (s : State) : Out := request 8 (takeClear tag conditions) s

/-- TUNE (R158). -/
def execTune (tag _level reserve preempt : Byte) (s : State) : Out := request 9 (takeTune tag reserve preempt) s

/-- ABORT (R157). -/
def execAbort (tag _level target : Byte) (s : State) : Out := request 8 (takeAbort tag target) s

/-- ABANDON (R103). -/
def execAbandon (tag _level context : Byte) (s : State) : Out := request 8 (takeAbandon tag context) s

/-- RESTART (R180). -/
def execRestart (tag _level : Byte) (s : State) : Out := request 7 (takeRestart tag) s

/-- DATA (R86). -/
def execData (tag _level context : Byte) (offset : BitVec 24) (bytes : List Byte) (s : State) : Out :=
  request (11 + bytes.length) (takeData tag context offset bytes) s

end Sys2Proof.Machine
end

