-- ==== Sys2Proof/Machine/Queued.lean ====
section
/-! DEFINITION. The meanings of the queued requests at the end of their push: WRITE, READ, LIST, DELETE, VERIFY, COMPACT,
FORMAT are offered for admission; and of BAD_FRAME (R146, R149, R161, R162). -/

namespace Sys2Proof.Machine

/-- R146, R149: a queued request is refused while SCANNING or for its level, admitted, or refused QUEUE_FULL; activation is
tried at an admission. -/
def offer (r : Request) (tag level : Byte) (p : Part) : Part :=
  if p.scu.store = .scanning then placeDirect r.kind tag .notReady [] p
  else if 7 < level.toNat then placeDirect r.kind tag .badField [] p
  else if admits level.toNat p then closeEvent (admitEntry r tag level.toNat p)
  else placeDirect r.kind tag .queueFull [] p

/-- R162: the plan entries of a FORMAT as numbers. -/
def planNumbers (es : List PlanEntry) : List (Nat × Nat) := es.map (fun e => (e.sectors.toNat, e.lowWater.toNat))

/-- What FORMAT does at the end of its push. One without its four plan entries has a body length its kind does not allow
(log 28). -/
def takeFormat (tag level zoneCount : Byte) (entries : List PlanEntry) (p : Part) : Part :=
  if entries.length ≠ 4 then placeDirect 0x26 tag .badLength [] p
  else offer (.format zoneCount.toNat (planNumbers entries)) tag level p

/-- WRITE (R149). -/
def execWrite (tag level : Byte) (slot : BitVec 16) (zone cls : Byte) (length : BitVec 24) (s : State) : Out :=
  request 14 (offer (.write slot.toNat zone.toNat cls.toNat length.toNat) tag level) s

/-- READ (R149). -/
def execRead (tag level : Byte) (slot : BitVec 16) (offset : BitVec 24) (count : Byte) (s : State) : Out :=
  request 13 (offer (.read slot.toNat offset.toNat count.toNat) tag level) s

/-- LIST (R149). -/
def execList (tag level : Byte) (startAfter : BitVec 16) (maximum : Byte) (s : State) : Out :=
  request 10 (offer (.list startAfter.toNat maximum.toNat) tag level) s

/-- DELETE (R149). -/
def execDelete (tag level : Byte) (slot : BitVec 16) (s : State) : Out := request 9 (offer (.delete slot.toNat) tag level) s

/-- VERIFY (R149). -/
def execVerify (tag level : Byte) (slot : BitVec 16) (s : State) : Out := request 9 (offer (.verify slot.toNat) tag level) s

/-- COMPACT (R149). -/
def execCompact (tag level zone count : Byte) (s : State) : Out :=
  request 9 (offer (.compact zone.toNat count.toNat) tag level) s

/-- FORMAT (R149). -/
def execFormat (tag level zoneCount : Byte) (entries : List PlanEntry) (s : State) : Out :=
  request (8 + 3 * entries.length) (takeFormat tag level zoneCount entries) s

/-- R146: what a request decoded from a frame does. -/
def takeRequest (i : Instr) (p : Part) : Part :=
  match i with
  | .ident t _ => takeIdent t p
  | .status t _ => takeStatus t p
  | .notice t _ ss f => takeNotice t ss f p
  | .clear t _ c => takeClear t c p
  | .tune t _ r q => takeTune t r q p
  | .abort t _ x => takeAbort t x p
  | .abandon t _ c => takeAbandon t c p
  | .restart t _ => takeRestart t p
  | .data t _ c o bs => takeData t c o bs p
  | .write t l s z k n => offer (.write s.toNat z.toNat k.toNat n.toNat) t l p
  | .read t l s o c => offer (.read s.toNat o.toNat c.toNat) t l p
  | .list t l s m => offer (.list s.toNat m.toNat) t l p
  | .delete t l s => offer (.delete s.toNat) t l p
  | .verify t l s => offer (.verify s.toNat) t l p
  | .compact t l z c => offer (.compact z.toNat c.toNat) t l p
  | .format t l z es => takeFormat t l z es p
  | _ => p

/-- R161: what a pushed frame does: nothing when it is too short, a direct refusal when a check fails; a frame that passes is
no bad frame and is decoded as any other. -/
def takeFrame (frame : List Byte) (p : Part) : Part :=
  match checkFrame frame with
  | .ignored => p
  | .refused st => placeDirect (frameKind frame) (frameTag frame) st [] p
  | .passed =>
    match decodeFrame frame with
    | some i => takeRequest i p
    | none => p

/-- R161: BAD_FRAME. -/
def execBadFrame (frame : List Byte) (s : State) : Out := request frame.length (takeFrame frame) s

end Sys2Proof.Machine
end

