-- ==== Sys2Proof/Machine/Dispatch.lean ====
section
/-! DEFINITION. One arm per command, each a direct call of its meaning. -/

namespace Sys2Proof.Machine

/-- The effect of a command on everything but the queue. -/
def exec (i : Instr) (s : State) : Host.Outcome State Fault Refusal :=
  match i with
  -- transactions
  | .transactionStart => Sys2Proof.Machine.execTransactionStart s
  | .ignoredTransaction later => Sys2Proof.Machine.execIgnoredTransaction later s
  | .badFrame frame => Sys2Proof.Machine.execBadFrame frame s
  | .fetch clocked => Sys2Proof.Machine.execFetch clocked s
  -- direct requests and DATA
  | .ident tag level => Sys2Proof.Machine.execIdent tag level s
  | .status tag level => Sys2Proof.Machine.execStatus tag level s
  | .notice tag level settings floor => Sys2Proof.Machine.execNotice tag level settings floor s
  | .clear tag level conditions => Sys2Proof.Machine.execClear tag level conditions s
  | .tune tag level reserve preempt => Sys2Proof.Machine.execTune tag level reserve preempt s
  | .abort tag level target => Sys2Proof.Machine.execAbort tag level target s
  | .abandon tag level context => Sys2Proof.Machine.execAbandon tag level context s
  | .restart tag level => Sys2Proof.Machine.execRestart tag level s
  | .data tag level context offset bytes => Sys2Proof.Machine.execData tag level context offset bytes s
  -- queued requests
  | .write tag level slot zone cls length => Sys2Proof.Machine.execWrite tag level slot zone cls length s
  | .read tag level slot offset count => Sys2Proof.Machine.execRead tag level slot offset count s
  | .list tag level startAfter maximum => Sys2Proof.Machine.execList tag level startAfter maximum s
  | .delete tag level slot => Sys2Proof.Machine.execDelete tag level slot s
  | .verify tag level slot => Sys2Proof.Machine.execVerify tag level slot s
  | .compact tag level zone count => Sys2Proof.Machine.execCompact tag level zone count s
  | .format tag level zoneCount entries => Sys2Proof.Machine.execFormat tag level zoneCount entries s
  -- pins and supply
  | .resetAsserted stuck residue => Sys2Proof.Machine.execResetAsserted stuck residue s
  | .coldStart stuck residue => Sys2Proof.Machine.execColdStart stuck residue s
  | .maintPinChange asserted => Sys2Proof.Machine.execMaintPinChange asserted s
  | .debounceExpiry => Sys2Proof.Machine.execDebounceExpiry s
  -- the array, the engine and the gathering window
  | .gatheringWindowExpiry => Sys2Proof.Machine.execGatheringWindowExpiry s
  | .readComplete => Sys2Proof.Machine.execReadComplete s
  | .programComplete stuck => Sys2Proof.Machine.execProgramComplete stuck s
  | .markComplete stuck => Sys2Proof.Machine.execMarkComplete stuck s
  | .operationTimeout stuck => Sys2Proof.Machine.execOperationTimeout stuck s
  | .suspendComplete => Sys2Proof.Machine.execSuspendComplete s
  | .erasePhaseEnd residue => Sys2Proof.Machine.execErasePhaseEnd residue s
  | .batchTimeout residue => Sys2Proof.Machine.execBatchTimeout residue s
  | .headerWriteComplete stuck => Sys2Proof.Machine.execHeaderWriteComplete stuck s
  | .lossOfPower stuck residue => Sys2Proof.Machine.execLossOfPower stuck residue s

end Sys2Proof.Machine
end

