-- ==== Sys2Proof/Machine/Ticks.lean ====
section
/-! DEFINITION. The passing of one microsecond with no command waiting (log 2): the running times advance, up to the last
microsecond before their limit, and nothing else happens; their expiry is a command. -/

namespace Sys2Proof.Machine

/-- A running time advanced by one, below its limit. -/
def advanceTime (limit t : Nat) : Nat := if t + 1 < limit then t + 1 else t

/-- R142: the debounce timer. -/
def tickMli (m : Mli) : Mli := { m with timer := m.timer.map (advanceTime Config.debounceTime) }

/-- R122: the gathering window. -/
def tickRcu (r : Rcu) : Rcu :=
  { r with openBatch := r.openBatch.map (fun b => { b with window := b.window.map (advanceTime Config.windowTime) }) }

/-- R66: the limit of the running operation's time: a PROGRAM's or header write's, or a MARK's; a READ has none and its time
is not kept. -/
def opLimit (p : Pee) : Nat :=
  match p.op with
  | some c =>
    match c.kind with
    | .program => Config.programTime
    | .mark => Config.markTime
    | .read | .erase => 0
  | none =>
    match p.batch with
    | some b =>
      match b.sectors.find? (fun s => !s.done) with
      | some s => if b.headers then (if s.erased then Config.programTime else Config.markTime) else 0
      | none => 0
    | none => 0

/-- R70: the batch clock counts in ERASING and in SUSPENDING. -/
def batchRuns (s : EngineState) : Bool :=
  match s with
  | .erasing | .suspending => true
  | .idle | .busy | .suspended | .suspendedBusy => false

/-- R66, R70: the operation's time and the batch clock. -/
def tickPee (p : Pee) : Pee :=
  { p with
    opClock := if 0 < opLimit p then advanceTime (opLimit p) p.opClock else p.opClock
    batch := if batchRuns p.state then
        p.batch.map (fun b => { b with unsuspended := advanceTime Config.batchTime b.unsuspended })
      else p.batch }

/-- A part that runs, one microsecond later. -/
def tickPart (p : Part) : Part :=
  if p.run = .running then { p with mli := tickMli p.mli, rcu := tickRcu p.rcu, pee := tickPee p.pee } else p

end Sys2Proof.Machine
end

