-- ==== Sys2Proof/Machine/Step.lean ====
section
/-! DEFINITION. One step: the command at the front of the queue, or one microsecond with none waiting (log 1, log 2). -/

namespace Sys2Proof.Machine

/-- The three outcomes are exec's. On an empty queue the block idles for a microsecond. -/
def step (s : State) : Host.Outcome State Fault Refusal :=
  match s.pending with
  | [] => .next { s with part := tickPart s.part }
  | c :: cs => exec c { s with pending := cs }

/-- The command that a word spells, put at the front of the queue; no word of the table spells one. -/
def State.withFetchWord (s : State) (nbits w : Nat) : State :=
  match decodeTableWord nbits w with
  | some c => { s with pending := c :: s.pending }
  | none => s

end Sys2Proof.Machine
end

