-- ==== Sys2Proof/Safety.lean ====
section
/-! DEFINITION. What a safe run is, and the invariants of the part that claims are stated with. -/

namespace Sys2Proof.Machine

/-- The ages of the entries of the request queue. -/
def Part.ages (p : Part) : List Nat := p.rqs.queue.map (·.age)

/-- R149: E + Q: the queued-class places pledged to entries and held by replies. -/
def Part.places (p : Part) : Nat := p.rqs.queue.length + queuedReplies p

/-- R25: the directory is in ascending slot id, so that no slot has two entries. -/
abbrev Part.ascending (p : Part) : Prop := p.sdr.directory.Pairwise (fun a b => a.slot < b.slot)

/-- What only TUNE, NOTICE, transactions, the pins and the cold start change: the settings of the host and the state of the
pins (R142, R158, R159, R167). -/
structure Settings where
  run         : RunState
  mli         : Mli
  transaction : Transaction
  miso        : List Byte
  floor       : Nat
  enables     : List (Bool × Nat)
  reserve     : Nat
  preempt     : Nat
deriving DecidableEq, Repr

/-- The settings of a part. -/
def Part.settings (p : Part) : Settings :=
  { run := p.run, mli := p.mli, transaction := p.link.transaction, miso := p.link.miso, floor := p.link.floor,
    enables := p.link.conds.map (fun r => (r.enable, r.level)), reserve := p.rqs.reserve, preempt := p.pee.preempt }

/-- R25, R148, R149, R158, R165 to R167: the invariant of the link, the queue and the directory: ages told apart and given out in
order, at most 16 queued-class and 6 direct places in use, at most 4 ACTIVE entries, settings in their ranges, one entry a slot. -/
structure Part.LinkInv (p : Part) : Prop where
  agesNodup : p.ages.Nodup
  agesBelow : ∀ a ∈ p.ages, a < p.rqs.nextAge
  places    : p.places ≤ Config.queueMax
  active    : activeCount p ≤ Config.activeMax
  direct    : directInUse p ≤ Config.directPlaces
  conds     : p.link.conds.length = 8
  levels    : ∀ r ∈ p.link.conds, r.level ≤ 7
  floor     : p.link.floor ≤ 7
  reserve   : p.rqs.reserve ≤ 7
  preempt   : 1 ≤ p.pee.preempt ∧ p.pee.preempt ≤ 7
  directory : p.ascending

/-- A run is safe while no step faults. No command of this part is refused. -/
def Safe (k : Nat) (s : State) : Prop := ∃ t, Host.Core.run Sys2Proof.core k s = .next t

/-! ### The words of the statements -/

/-- R159: the part takes the transaction that ends now: it runs, and the transaction did not begin before it ran. -/
def Part.listens (p : Part) : Prop := p.run = .running ∧ p.link.transaction ≠ .lost

/-- R160: the status byte that the transaction ending now was given at its start. -/
def Part.shownStatus (p : Part) : Byte :=
  match p.link.transaction with
  | .active b _ => b
  | .none | .lost => statusByte p

/-- R159: the part once a push of `n` bytes has ended, before what it brought is acted on. -/
def Part.pushed (n : Nat) (p : Part) : Part :=
  { p with link := { p.link with transaction := .none, miso := p.shownStatus :: List.replicate n 0x00 } }

/-- R166: OVERRUN is set. -/
def overrunSet (p : Part) : Part :=
  { p with link := { p.link with conds := p.link.conds.modify 6 (fun r => { r with set := true }) } }

/-- R166: `q` is `p` once a direct reply is given: at the tail of the queue while fewer than six direct places are in use, and
otherwise dropped with OVERRUN set. -/
def DirectReply (kind tag : Byte) (status : Status) (payload : List Byte) (p q : Part) : Prop :=
  (directInUse p < 6 →
    q = { p with link := { p.link with replies := p.link.replies ++
      [{ kind := kind, tag := tag, status := status, notes := 0, payload := payload, place := .direct }] } }) ∧
  (6 ≤ directInUse p → q = overrunSet p)

/-- The command leads from `s` to a part that is `p` with a direct reply given; the array and the queue stay. -/
def Answers (i : Instr) (s : State) (kind tag : Byte) (status : Status) (payload : List Byte) (p : Part) : Prop :=
  ∃ q, exec i s = .next { s with part := q } ∧ DirectReply kind tag status payload p q

/-- R149: the admission test, with E entries in the queue and Q queued-class replies waiting. -/
def Admitted (level : Nat) (p : Part) : Prop :=
  p.rqs.queue.length < 16 ∧
    ((level ≤ 5 ∧ p.places < 16 - p.rqs.reserve) ∨ (6 ≤ level ∧ p.places < 16))

/-- R146, R149, R150: a command offers a queued request, whose frame has `n` bytes: it is refused NOT_READY while SCANNING,
refused BAD_FIELD for its level, admitted as the youngest WAITING entry with activation tried, or refused QUEUE_FULL. -/
def Offers (i : Instr) (r : Request) (tag level : Byte) (n : Nat) : Prop :=
  ∀ s : State, s.part.listens →
    (s.part.scu.store = .scanning → Answers i s r.kind tag .notReady [] (s.part.pushed n)) ∧
    (s.part.scu.store ≠ .scanning → 8 ≤ level.toNat → Answers i s r.kind tag .badField [] (s.part.pushed n)) ∧
    (s.part.scu.store ≠ .scanning → level.toNat ≤ 7 → Admitted level.toNat s.part →
      exec i s = .next { s with part := closeEvent { s.part.pushed n with rqs := { s.part.rqs with
        queue := s.part.rqs.queue ++ [{ request := r, tag := tag, level := level.toNat, age := s.part.rqs.nextAge,
                                        active := false, abortWaits := false }]
        nextAge := s.part.rqs.nextAge + 1 } } }) ∧
    (s.part.scu.store ≠ .scanning → level.toNat ≤ 7 → ¬ Admitted level.toNat s.part →
      Answers i s r.kind tag .queueFull [] (s.part.pushed n))

/-- R2: the pre-check of a program of `bs` at an offset of a sector: each byte is given as 0xFF, or every bit given at 1 is 1 in the
array. That a byte given as 0xFF passes whatever it held is R2's observation; its bit test and R65 say otherwise (the model's
choice, log 56). -/
def PreCheckPasses (m : Memory) (sector offset : Nat) (bs : List Byte) : Prop :=
  ∀ k < bs.length, bs.getD k 0 = 0xFF ∨ m.read (sector * 4096 + offset + k) &&& bs.getD k 0 = bs.getD k 0

/-- R2, R65: `m'` is `m` after a program of `bs` at an offset of a sector: when the pre-check passes, each byte of the
run holds the AND of its old contents with the byte given, but for the bits `stuck` that failed to clear; otherwise nothing
changes. No byte outside the run changes. -/
def ProgrammedBytes (m m' : Memory) (sector offset : Nat) (bs stuck : List Byte) : Prop :=
  (∀ a, a < sector * 4096 + offset ∨ sector * 4096 + offset + bs.length ≤ a → m'.read a = m.read a) ∧
  (PreCheckPasses m sector offset bs →
    ∀ k < bs.length, m'.read (sector * 4096 + offset + k)
      = m.read (sector * 4096 + offset + k) &&& (bs.getD k 0 ||| stuck.getD k 0)) ∧
  (¬ PreCheckPasses m sector offset bs → m' = m)

/-- R65: `n` is the number of leading bytes of the run that read back as given, at most `bound`. -/
def VerifiedPrefix (m' : Memory) (sector offset : Nat) (bs : List Byte) (bound n : Nat) : Prop :=
  n ≤ bound ∧ (∀ k < n, m'.read (sector * 4096 + offset + k) = bs.getD k 0) ∧
    (n < bound → m'.read (sector * 4096 + offset + n) ≠ bs.getD n 0)

/-- R65: the result of a program of `bs` that left `m'`: FAILED with prefix 0 when the pre-check fails, SUCCEEDED when every
byte reads back as given, and otherwise FAILED with the verified prefix. -/
def ProgramResult (m m' : Memory) (sector offset : Nat) (bs : List Byte) (r : Result) : Prop :=
  (¬ PreCheckPasses m sector offset bs → r.ok = false ∧ r.good = []) ∧
  (PreCheckPasses m sector offset bs →
    ∃ n, VerifiedPrefix m' sector offset bs bs.length n ∧ r.good = bs.take n ∧ (r.ok = true ↔ n = bs.length))

/-- An extent lies inside the array (R1). -/
def Inside (sector offset n : Nat) : Prop := sector < 512 ∧ offset + n ≤ 4096

/-- R1, R4: the commands whose event is an operation of the engine on the array, or the interruption of one. -/
def touchesArray : Instr → Bool
  | .programComplete _ | .markComplete _ | .operationTimeout _ | .erasePhaseEnd _ | .batchTimeout _ | .headerWriteComplete _
  | .resetAsserted .. | .coldStart .. | .lossOfPower .. => true
  | _ => false

/-- R4, R69: the byte at an address lies in work that a cut finds in progress: the target of the running PROGRAM or MARK; in the
erase phase of a batch, one of its sectors; in its header-write phase, the one header or BAD mark being written. -/
def Part.inFlight (p : Part) (a : Nat) : Prop :=
  (∃ c i o bs, p.pee.op = some c ∧ c.target = .bytes i o bs ∧ i * 4096 + o ≤ a ∧ a < i * 4096 + o + bs.length) ∨
  (∃ b, p.pee.batch = some b ∧ b.headers = false ∧ ∃ x ∈ b.sectors, a / 4096 = x.sector) ∨
  (∃ b x, p.pee.batch = some b ∧ b.headers = true ∧ b.sectors.find? (fun y => !y.done) = some x ∧
    ((x.erased = true ∧ x.sector * 4096 ≤ a ∧ a < x.sector * 4096 + x.header.length) ∨
      (x.erased = false ∧ a = x.sector * 4096 + 31)))

/-- The bytes of the space of a list of extents that lie in sector `i` (R13). -/
def spaceOf (i : Nat) (es : List Elem) : Nat := ((es.filter (fun x => x.sector = i)).map (fun x => space x.length)).sum

/-- R50: the pending bytes that a context has in sector `i`: its closed extents' space and what stands of its current one; none
once its generation is committed. -/
def WriteCtx.pendingIn (k : WriteCtx) (i : Nat) : Nat :=
  if k.commit = .switched then 0
  else spaceOf i k.elems +
    (match k.current with
      | some x => if x.sector = i then 32 + x.data else 0
      | none => 0)

/-- R97: in `q` context `c` of `p` has let go of what it held outside its own record: it has no claim waiting and is no waiting taker,
its slot has no open context, and its bytes are released from pending. -/
def LetGo (c : CtxId) (p q : Part) : Prop :=
  claimWaits (.ctx c) q = false ∧ isWaiting c q = false ∧
  (∀ e ∈ q.sdr.directory, e.slot = (p.ctx c).slot → e.openCtx ≠ some c) ∧
  (p.mounted = true → ∀ i, (q.sector i).pending = (p.sector i).pending - (p.ctx c).pendingIn i ∧
    (q.sector i).live = (p.sector i).live)

/-- R97, R98: `q` is `p` once its context `c` has ended with a status: it has let go of what it held, it is ENDED with no sector and no
reservation, and its ending reply, with the figures that `p` holds, is at the tail of the queue. -/
def EndedWith (c : CtxId) (st : Status) (p q : Part) : Prop :=
  (q.ctx c).state = .ended ∧ (q.ctx c).owned = none ∧ (q.ctx c).current = none ∧ (q.ctx c).reservation = 0 ∧
  (q.ctx c).ending = none ∧ (q.ctx c).credit = 2 ∧ LetGo c p q ∧
  (let payload := be 1 c.num ++ be 2 (p.ctx c).slot ++ be 4 (p.ctx c).sequence ++ be 3 (p.ctx c).programmed
   q.link.replies = p.link.replies ++
    [{ kind := 0x20, tag := (p.ctx c).tag, status := st, notes := (p.ctx c).notes, payload := payload, place := .ending c }])

/-- R97, R104: `q` is `p` once its context `c` has been ended by RESTART: it has let go of what it held, it is IDLE with every field at
its cold value, and no reply is given. -/
def EndedSilently (c : CtxId) (p q : Part) : Prop :=
  q.ctx c = WriteCtx.cold ∧ LetGo c p q ∧ q.link.replies = p.link.replies

/-- R97, R104: `q` is `p` once its context `c` has ended as its ending cause says. -/
def EndedBy (c : CtxId) : EndCause → Part → Part → Prop
  | .withStatus st => EndedWith c st
  | .byRestart => EndedSilently c

/-- R105, R148, R157: `p` once the queued request of entry `e` has ended: the entry has left, its reply has its place, and the
ABORTs that waited on it are answered after it (log 30), OK when it ended ABORTED and TOO_LATE otherwise. -/
def endedPart (e : Entry) (st : Status) (notes : Byte) (payload : List Byte) (p : Part) : Part :=
  { p with
    rqs := { p.rqs with queue := p.rqs.queue.filter (fun d => d.age ≠ e.age) }
    link := { p.link with
      replies := p.link.replies ++
        [{ kind := e.request.kind, tag := e.tag, status := st, notes := notes, payload := payload, place := .queued }] ++
        (p.link.held.filter (fun h => h.target = e.age)).map (fun h =>
          { kind := 0x06, tag := h.tag, status := if st = .aborted then .ok else .tooLate, notes := 0, payload := [],
            place := .direct })
      held := p.link.held.filter (fun h => h.target ≠ e.age) } }

/-- `q` is `p` with one claim more, of the next age, at the end of its claim set. -/
def Raised (u : Purpose) (k : OpKind) (level : Nat) (t : Target) (p q : Part) : Prop :=
  q.pee.claims = p.pee.claims ++ [{ age := p.pee.nextAge, purpose := u, kind := k, level := level, target := t }]

/-- `q` holds a claim, of an age that `p` has not given out. -/
def Claimed (u : Purpose) (k : OpKind) (level : Nat) (t : Target) (p q : Part) : Prop :=
  ∃ a, p.pee.nextAge ≤ a ∧ ({ age := a, purpose := u, kind := k, level := level, target := t } : Claim) ∈ q.pee.claims

/-- R54: `l` is the highest level among the waiting takers of zone `z`, 0 with none. -/
def TakersLevel (z l : Nat) (p : Part) : Prop :=
  let waits (c : CtxId) : Prop := ∃ r, p.zone z = some r ∧ c ∈ r.waiting
  (∀ c, waits c → (p.ctx c).level ≤ l) ∧ (l = 0 ∨ ∃ c, waits c ∧ (p.ctx c).level = l)

/-- R105, R118: the served request of record `v` in `p` has ended with NO_SLOT in `q`: its record, its waiting claim and its entry
are gone, and its reply, with the slot id and the notes gathered, is among the replies. -/
def EndedNoSlot (v : Serving) (p q : Part) : Prop :=
  q.servingOf v.age = none ∧ claimWaits (.serving v.age) q = false ∧
    ∀ f, p.queueEntry v.age = some f → q.queueEntry v.age = none ∧
      { kind := f.request.kind, tag := f.tag, status := .noSlot, notes := v.notes, payload := be 2 v.slot, place := .queued }
        ∈ q.link.replies

/-- R130: what lifts the evacuation hold of zone `z`: its FREE count rises, its spare returns to AVAILABLE, or its outstanding
reservation falls. -/
def Relieved (z : Nat) (p q : Part) : Prop :=
  countState z .free p < countState z .free q ∨ reserved z q < reserved z p ∨
    ((p.zone z).map (·.spareInUse) = some true ∧ (q.zone z).map (·.spareInUse) = some false)

/-- R36, R112: a DELETE that RESTART carries to its decision: an attempt of it is granted, or the read-back of a failed one is
raised. -/
def Part.carriesDelete (r : Serving) (p : Part) : Prop :=
  r.kind = .delete ∧ (purposeRuns (.deleteMark r.age) p = true ∨ purposeWaits (.deleteReadBack r.age) p = true ∨
    purposeRuns (.deleteReadBack r.age) p = true)

/-- R152: a list of conditions with the codes they fail with, in the order of the codes: the answer is the code of the first
condition that holds, and none when none does. -/
def FirstFailing : List (Prop × Status) → Option Status → Prop
  | [], o => o = none
  | (c, st) :: rest, o => (c → o = some st) ∧ (¬ c → FirstFailing rest o)

/-- R44, R46: sector `i` is judged empty: its three counts are all 0, and it holds no new copy that the runner's step has closed and
that is not yet counted (DEDUCED, log 9). -/
def Part.emptied (p : Part) (i : Nat) : Prop :=
  (p.sector i).live = 0 ∧ (p.sector i).pending = 0 ∧ (p.sector i).retiring = 0 ∧
    ∀ st, p.rcu.step = some st → st.phase = .discarding → st.newSector ≠ i

/-- R45, R46: the state that sector `i` takes when it is sealed: STALE when it is judged empty, SEALED otherwise. -/
def SealedState (p : Part) (i : Nat) (st : SectorState) : Prop := (p.emptied i → st = .stale) ∧ (¬ p.emptied i → st = .sealed)

/-- R43: sector `i` is the FREE sector of lowest number of zone `z`. -/
def LowestFree (z i : Nat) (p : Part) : Prop :=
  i < p.smp.sectors.length ∧ (p.sector i).zone = z ∧ (p.sector i).state = .free ∧
    ∀ j < i, ¬ ((p.sector j).zone = z ∧ (p.sector j).state = .free)

/-- R43: zone `z` has no FREE sector. -/
def NoneFree (z : Nat) (p : Part) : Prop :=
  ∀ j < p.smp.sectors.length, ¬ ((p.sector j).zone = z ∧ (p.sector j).state = .free)

/-- R88: context `c` is one that chooses a step: RECEIVING or CLOSING, with no claim outstanding, no wait and no ending cause. -/
def Part.chooses (c : CtxId) (p : Part) : Prop :=
  ((p.ctx c).state = .receiving ∨ (p.ctx c).state = .closing) ∧ (p.ctx c).ending = none ∧
    claimOutstanding (.ctx c) p = false ∧ isWaiting c p = false

/-- R88: the earlier of the two buffers holds bytes not yet programmed. -/
def WriteCtx.hasBytes (k : WriteCtx) : Prop :=
  (k.buf k.drainNext).state ≠ .empty ∧ (k.buf k.drainNext).done < (k.buf k.drainNext).bytes.length

/-- R89: the claim for a context's next first stage is raised, at the next-write offset of sector `i`. -/
def RaisedFirst (c : CtxId) (i : Nat) (p q : Part) : Prop :=
  let k := p.ctx c
  Raised (.ctxFirst c) .program k.level
    (.bytes i (p.sector i).nextWrite (firstStageBytes k.slot k.sequence k.written.length 0
      (if k.written.length = 0 then some (k.cls, k.total) else none) false)) p q

/-- R95, R99: `p` once a failed operation of context `c` in sector `i` is noted and has made the sector suspect. -/
def failedIn (c : CtxId) (i : Nat) (p : Part) : Part := makeSuspect i (some (.ctx c)) (noteCtx c .mediaEvent p)

/-- R22 to R24: the chosen copies, head first, make a live-eligible generation: index by index up to the last that a candidate of
the generation has, their lengths summing to the head's total, the head COMMITTED and not OBSOLETE. -/
def LiveEligible (cs : List Candidate) (slot sequence : Nat) (run : List Candidate) : Prop :=
  run.length ≤ 72 ∧ (∀ i < run.length, chosen cs slot sequence i = run[i]?) ∧
    (∀ c ∈ cs, c.slot = slot → c.sequence = sequence → c.index < run.length) ∧
    ∃ h, run.head? = some h ∧ (run.map (·.length)).sum = h.total ∧ h.committed = true ∧ h.obsolete = false

/-- R60, R156: the notes gathered for the served request of a claim, where it has one: of its context's WRITE, of its serving record,
of the WRITE that a retiring record's end is awaited by, or of the COMPACT that the runner's step serves. -/
def servedNotes (u : Purpose) (p : Part) : Option Byte :=
  match u.owner with
  | .ctx c => some (p.ctx c).notes
  | .serving a => (p.servingOf a).map (·.notes)
  | .retiring s q => (p.retiringOf s q).bind (fun r => r.waiting.map (fun c => (p.ctx c).notes))
  | .runner => p.rcu.step.bind (fun st => p.rcu.job.bind (fun j => if st.job = some j.age then some j.notes else none))
  | .suspect _ | .reclaim | .scan => none

/-- R72: a claim of a kind and level is preempting at preempt level `l`. -/
def Preempts (l : Nat) (kind : OpKind) (level : Nat) : Prop :=
  kind = .read ∨ ((kind = .mark ∨ kind = .program) ∧ l ≤ level)

end Sys2Proof.Machine
end

