-- ==== Sys2Proof/WellFormed.lean ====
section
/-! DEFINITION. The commands that the outside world can send: frames that their kind allows (R162), and outcomes of the array
that lie in it (R1, R66). Operand widths are the constructors' own. exec refuses none of the others: see log 3, log 28. -/

namespace Sys2Proof

/-- R161: a frame that the Link Port does not decode. -/
def frameBad (frame : List Byte) : Bool :=
  match Machine.checkFrame frame with
  | .passed => false
  | .ignored | .refused _ => true

/-- A torn or failed program names at most the bytes of one program. -/
def stuckOk (stuck : List Byte) : Bool := decide (stuck.length ≤ Config.pageSize)

/-- What an erase left lies in the array and reads other than 0xFF. -/
def residueOk (residue : List (Nat × Byte)) : Bool :=
  residue.all (fun c => decide (c.1 < Config.arraySize) && decide (c.2 ≠ 0xFF))

/-- The checks of a command's operands. -/
def Instr.wellFormed : Instr → Bool
  | .badFrame frame => frameBad frame
  | .notice _ _ settings _ => decide (settings.length = 8)
  | .data _ _ _ _ bytes => decide (1 ≤ bytes.length) && decide (bytes.length ≤ Config.bufferSize)
  | .format _ _ _ entries => decide (entries.length = 4)
  | .programComplete stuck | .markComplete stuck | .operationTimeout stuck | .headerWriteComplete stuck => stuckOk stuck
  | .resetAsserted stuck residue | .coldStart stuck residue | .lossOfPower stuck residue => stuckOk stuck && residueOk residue
  | .erasePhaseEnd residue | .batchTimeout residue => residueOk residue
  | .transactionStart | .ignoredTransaction _ | .fetch _ | .ident .. | .status .. | .clear .. | .tune .. | .abort ..
  | .abandon .. | .restart .. | .write .. | .read .. | .list .. | .delete .. | .verify .. | .compact .. | .maintPinChange _
  | .debounceExpiry | .gatheringWindowExpiry | .readComplete | .suspendComplete => true

end Sys2Proof
end

