-- ==== Sys2Proof/Certificates/Slice0/Obligations.lean ====
section
/-! DEFINITION. The statements for the provers. Words of their own are in Sys2Proof/Safety.lean. -/

open Sys2Proof Sys2Proof.Machine

/-! ### Steps, invariants, frames of the array -/

/-- A step of a machine with a command at the front of its queue is exec of that command with the queue's rest. The queue and its
order are the model's choice (log 1). -/
def Obligations.StepRunsFrontCommand : Prop :=
  ∀ (c : Instr) (cs : List Instr) (s : State), s.pending = c :: cs → step s = exec c { s with pending := cs }

/-- With no command waiting a step is one microsecond (the model's choice, log 2): in a part that runs, the debounce timer, the
gathering window and the batch clock advance where they run, up to the last microsecond before their limit, the operation's time
may advance by one, and nothing else changes; in one that does not run, nothing does. Every command has a next state that keeps the
queue, but where the operation or the header write that it ends lies outside the array: that is the model's one fault (log 29). -/
def Obligations.EveryStepRuns : Prop :=
  (∀ s : State, s.pending = [] →
    let more (limit n : Nat) : Nat := if n + 1 < limit then n + 1 else n
    (s.part.run ≠ .running → step s = .next s) ∧
    (s.part.run = .running → ∃ t, step s = .next t ∧ t.array = s.array ∧ t.pending = [] ∧
      (t.part.pee.opClock = s.part.pee.opClock ∨ t.part.pee.opClock = s.part.pee.opClock + 1) ∧
      t.part = { s.part with
        mli := { s.part.mli with timer := s.part.mli.timer.map (more 5000) }
        rcu := { s.part.rcu with
          openBatch := s.part.rcu.openBatch.map (fun b => { b with window := b.window.map (more 300) }) }
        pee := { s.part.pee with
          opClock := t.part.pee.opClock
          batch := if s.part.pee.state = .erasing ∨ s.part.pee.state = .suspending then
              s.part.pee.batch.map (fun b => { b with unsuspended := more 400000 b.unsuspended })
            else s.part.pee.batch } })) ∧
  (∀ (i : Instr) (s : State), (∃ t, exec i s = .next t ∧ t.pending = s.pending) ∨
    (exec i s = .fault .outsideArray ∧ s.part.run = .running ∧
      ((i = .readComplete ∧ ∃ c rs, s.part.pee.op = some c ∧ c.kind = .read ∧ c.target = .runs rs ∧
          ∃ r ∈ rs, ¬ Inside r.sector r.offset r.length) ∨
        (∃ stuck c n o bs, (i = .programComplete stuck ∨ i = .markComplete stuck ∨ i = .operationTimeout stuck) ∧
          s.part.pee.op = some c ∧ c.target = .bytes n o bs ∧ ¬ Inside n o bs.length) ∨
        (∃ stuck b x, (i = .headerWriteComplete stuck ∨ i = .operationTimeout stuck) ∧
          s.part.pee.batch = some b ∧ b.headers = true ∧ b.sectors.find? (fun y => !y.done) = some x ∧
          ((x.erased = true ∧ ¬ Inside x.sector 0 x.header.length) ∨ (x.erased = false ∧ ¬ Inside x.sector 31 1))))))

/-- What the Slot Directory makes of the completion of an operation of a served request and of a retiring record. A READ is answered
with the bytes read. A VERIFY's step passes, and goes on, ends, or ends ABORTED, or fails with DATA_CORRUPT. A DELETE's attempt
succeeds, is read back, is made again or fails finally; that of a DELETE which RESTART detached decides in the same way, with no
reply and no further attempt. An OBSOLETE attempt ends its record, is made again or fails finally (a DELETE's attempts are counted
at the failure and a record's at the raising: DEDUCED, log 25). A request whose slot has gone ends with NO_SLOT. Requests end with
one reply in their entry's place, their waiting ABORTs answered after it (the model's choice, log 30); at a DELETE's success the
NO_SLOT replies of the others come before its own OK (the model's choice, log 42), and the NO_SLOT reply of a READ carries no
SHORTENED (the model's choice, log 49). -/
def Obligations.ServedWorkEnds : Prop :=
  (∀ (p : Part) (r : Serving) (e : Entry), p.servingOf r.age = some r → p.queueEntry r.age = some e →
    let rest (q : Part) : Part := { q with sdr := { q.sdr with serving := q.sdr.serving.filter (fun x => x.age ≠ r.age) } }
    let noted (n : Byte) (q : Part) : Prop := q.servingOf r.age = some { r with notes := r.notes ||| n }
    (r.gone = true → ∀ i o ok bs,
      let gone := endedPart e .noSlot r.notes (be 2 r.slot) (rest p)
      readEnded (.readSlot r.age) bs p = gone ∧ readEnded (.verifyStep r.age) bs p = gone ∧
        readEnded (.deleteReadBack r.age) bs p = gone ∧ writeEnded (.deleteMark r.age) i o ok p = gone) ∧
    (r.gone = false → ∀ bs,
      readEnded (.readSlot r.age) bs p = endedPart e .ok (if r.shortened then r.notes ||| 0x10 else r.notes)
        (be 4 r.sequence ++ be 3 r.readLen ++ be 1 r.readCount ++ bs) (rest p)) ∧
    (r.gone = false → ∀ bs d, p.entryOf r.slot = some d →
      let passes : Prop := firstStageValid bs = true ∧ field bs 1 2 = r.slot ∧ field bs 3 4 = r.sequence ∧
        field bs 7 1 = r.nextIndex ∧ field bs 8 2 = r.elem.copy ∧ field bs 16 3 = r.elem.length ∧
        slice bs 19 4 = be 4 (crc32 (slice bs 32 r.elem.length)).toNat
      let found (n : Nat) := be 2 r.slot ++ be 4 r.sequence ++ be 1 n
      let q := readEnded (.verifyStep r.age) bs p
      (passes → e.abortWaits = true → q = endedPart e .aborted r.notes (found (r.checked + 1)) (rest p)) ∧
      (passes → e.abortWaits = false → d.extents.length ≤ r.nextIndex + 1 →
        q = endedPart e .ok r.notes (found (r.checked + 1)) (rest p)) ∧
      (passes → e.abortWaits = false → ∀ x, d.extents[r.nextIndex + 1]? = some x →
        Raised (.verifyStep r.age) .read r.level (.runs [{ sector := x.sector, offset := x.offset, length := 32 + x.length }]) p q ∧
        q.servingOf r.age = some { r with nextIndex := r.nextIndex + 1, checked := r.checked + 1, elem := x }) ∧
      (¬ passes → q = endedPart e .dataCorrupt (r.notes ||| 0x08) (found r.checked ++ be 1 r.nextIndex)
        (rest (makeSuspect r.elem.sector none p)))) ∧
    (r.gone = false → ∀ d, p.entryOf r.slot = some d →
      let byte : Target := .bytes r.elem.sector (r.elem.offset + 24) [0x00]
      let payload := be 2 r.slot ++ be 4 r.sequence
      let succeeds (notes : Byte) (q : Part) : Prop :=
        q.sdr.directory = p.sdr.directory.filter (fun x => x.slot ≠ r.slot) ∧ q.servingOf r.age = none ∧ q.queueEntry r.age = none ∧
        (∀ n, (q.sector n).live = (p.sector n).live - spaceOf n d.extents ∧ (q.sector n).pending = (p.sector n).pending ∧
          (q.sector n).retiring = (p.sector n).retiring) ∧
        ∃ earlier, q.link.replies = earlier ++
            [{ kind := e.request.kind, tag := e.tag, status := .ok, notes := notes, payload := payload, place := .queued }] ++
            (p.link.held.filter (fun h => h.target = e.age)).map (fun h =>
              { kind := 0x06, tag := h.tag, status := .tooLate, notes := 0, payload := [], place := .direct }) ∧
          p.link.replies <+: earlier ∧
          (∀ x f, p.servingOf x.age = some x → x.slot = r.slot → x.age ≠ r.age → p.queueEntry x.age = some f →
            (∀ c, p.pee.op = some c → c.purpose.owner ≠ .serving x.age) →
            { kind := f.request.kind, tag := f.tag, status := .noSlot, notes := x.notes, payload := be 2 r.slot, place := .queued }
              ∈ earlier)
      (∀ i o bs, succeeds r.notes (writeEnded (.deleteMark r.age) i o { ok := true, good := bs } p)) ∧
      (∀ i o bs, let q := writeEnded (.deleteMark r.age) i o { ok := false, good := bs } p
        Raised (.deleteReadBack r.age) .read r.level
          (.runs [{ sector := r.elem.sector, offset := r.elem.offset + 24, length := 1 }]) p q ∧
        q.servingOf r.age = some { r with attempts := r.attempts + 1 } ∧ q.sdr.directory = p.sdr.directory ∧ q.link = p.link) ∧
      (∀ b : Byte, b ≠ 0xFF → let q := readEnded (.deleteReadBack r.age) [b] p
        succeeds (r.notes ||| 0x08) q ∧ (r.elem.sector < p.smp.sectors.length → (q.sector r.elem.sector).suspect = true)) ∧
      (r.attempts < 3 → r.detached = false → let q := readEnded (.deleteReadBack r.age) [0xFF] p
        Raised (.deleteMark r.age) .mark r.level byte p q ∧ noted 0x04 q ∧ q.sdr.directory = p.sdr.directory) ∧
      (3 ≤ r.attempts ∨ r.detached = true → let q := readEnded (.deleteReadBack r.age) [0xFF] p
        q.link.replies = (endedPart e .mediaFault (r.notes ||| 0x08) payload p).link.replies ∧ q.servingOf r.age = none ∧
        q.queueEntry r.age = none ∧ q.sdr.directory = p.sdr.directory.map (fun x =>
          if x.slot = r.slot then { x with deletePending := false } else x) ∧
        (r.elem.sector < p.smp.sectors.length → (q.sector r.elem.sector).suspect = true)))) ∧
  (∀ (p : Part) (r : Serving) (i o : Nat) (bs : List Byte), p.servingOf r.age = some r → p.queueEntry r.age = none →
    r.detached = true →
    let marked (ok : Bool) : Part := writeEnded (.deleteMark r.age) i o { ok := ok, good := bs } p
    let readBack (b : Byte) : Part := readEnded (.deleteReadBack r.age) [b] p
    let dropped (q : Part) : Part := { q with sdr := { q.sdr with serving := q.sdr.serving.filter (fun x => x.age ≠ r.age) } }
    let ofOther (y : Reply) : Prop :=
      (y.status = .noSlot ∧ y.place = .queued ∧ ∃ x ∈ p.sdr.serving, x.slot = r.slot ∧ x.age ≠ r.age ∧
        ∃ f, p.queueEntry x.age = some f ∧ y.kind = f.request.kind ∧ y.tag = f.tag) ∨
      (y.kind = 0x06 ∧ y.place = .direct ∧ ∃ h ∈ p.link.held, h.target ≠ r.age ∧ y.tag = h.tag)
    (r.gone = true → (∀ ok, marked ok = dropped p) ∧ ∀ b, readBack b = dropped p) ∧
    (r.gone = false → ∀ d, p.entryOf r.slot = some d →
      let removed (q : Part) : Prop :=
        q.sdr.directory = p.sdr.directory.filter (fun x => x.slot ≠ r.slot) ∧ q.servingOf r.age = none ∧
        (∀ n, (q.sector n).live = (p.sector n).live - spaceOf n d.extents ∧ (q.sector n).pending = (p.sector n).pending ∧
          (q.sector n).retiring = (p.sector n).retiring) ∧
        ∃ l, q.link.replies = p.link.replies ++ l ∧ ∀ y ∈ l, ofOther y
      let suspects (q : Part) : Prop := r.elem.sector < p.smp.sectors.length → (q.sector r.elem.sector).suspect = true
      removed (marked true) ∧
      (let q := marked false
       Raised (.deleteReadBack r.age) .read r.level
         (.runs [{ sector := r.elem.sector, offset := r.elem.offset + 24, length := 1 }]) p q ∧
       q.servingOf r.age = some { r with attempts := r.attempts + 1 } ∧ q.sdr.directory = p.sdr.directory ∧ q.link = p.link) ∧
      (∀ b : Byte, b ≠ 0xFF → removed (readBack b) ∧ suspects (readBack b)) ∧
      (let q := readBack 0xFF
       q.link.replies = p.link.replies ∧ q.servingOf r.age = none ∧ suspects q ∧
       (∀ x ∈ q.pee.claims, x.purpose = .deleteMark r.age → x ∈ p.pee.claims) ∧
       q.sdr.directory = p.sdr.directory.map (fun x => if x.slot = r.slot then { x with deletePending := false } else x)))) ∧
  (∀ (p : Part) (r : Retiring) (i o : Nat) (bs : List Byte), p.retiringOf r.slot r.sequence = some r → p.mounted = true →
    let extra (n : Nat) : Nat := match r.extra with
      | some x => if x.1 = n then x.2 else 0
      | none => 0
    let leaves (base q : Part) : Prop := q.retiringOf r.slot r.sequence = none ∧
      (∀ n, (q.sector n).retiring = (p.sector n).retiring - spaceOf n r.extents - extra n) ∧
      (∀ c, r.waiting = some c → (p.ctx c).commit = .switched → EndedWith c .ok base q) ∧
      (r.waiting = none → q.link.replies = p.link.replies)
    leaves p (writeEnded (.obsolete r.slot r.sequence) i o { ok := true, good := bs } p) ∧
    (let q := writeEnded (.obsolete r.slot r.sequence) i o { ok := false, good := bs } p
     (r.attempts < 3 →
        Raised (.obsolete r.slot r.sequence) .mark r.level (.bytes r.head.sector (r.head.offset + 24) [0x00]) p q ∧
        q.retiringOf r.slot r.sequence = some { r with attempts := r.attempts + 1 } ∧
        ∀ c, r.waiting = some c → (q.ctx c).notes = (p.ctx c).notes ||| 0x04) ∧
      (3 ≤ r.attempts →
        leaves (makeSuspect r.head.sector none (match r.waiting with
          | some c => noteCtx c .mediaEvent p
          | none => p)) q ∧
        (r.head.sector < p.smp.sectors.length → (q.sector r.head.sector).suspect = true) ∧
        ∀ d, q.entryOf r.slot = some d → r.head.sector ∈ d.lingering)))

/-- The steps of a write context and the runner ('choice': the model's own). A context takes the first line of its table (the extent
of a failed data program is closed next: DEDUCED, log 11); with 72 extents closed it ends FRAGMENTED, after a take that gives a
sector (choice, log 46); a step's success, its failures (MEDIA_EVENT of a failed close and under an ending cause: DEDUCED, log 26),
its end, well or FAILED, under an ending cause (bytes counted: DEDUCED, log 40), IDLE and silent after a RESTART, a commit attempt's
failure and read-back follow the rules. The runner alternates the kinds of step, and rests; its operations follow in order, the
first stage copied with its CRC anew (DEDUCED, log 37); its zone's number is read in the current plan (choice, log 54); without room
it sets the hold, in every store state (DEDUCED, log 27), or ends its COMPACT; a suspect sector is sealed at the close (DEDUCED, log
9); a closed step moves the element and its bytes. Commit and discard attempts are counted at the failure (DEDUCED, log 25). At a
COMPACT's boundary its own OK or MEDIA_FAULT comes before a waiting ABORT (DEDUCED, log 17), that before the victim's search
(choice, log 45); the ABORTs are answered after it (choice, log 30); a victim made suspect and emptied by one step counts (choice,
log 44). A COMPACT counts a victim with no live bytes, sets aside one suspect or with nothing movable, chooses the next by least
live bytes, then number, and ends OK at its count, even in a step (choice, log 22), or with no victim. COMMITTING goes on once no
SUPERSEDED record of the slot stands. A failed discard gives the COMPACT RETRIED, the third MEDIA_EVENT, the old copy's sector
suspect (a BAD one too: choice, log 53), and the step ends as closed, one of a dead generation moving nothing. At a step's end the
runner's sector is sealed with room below 64 or suspect, STALE and empty out of MOUNTED. A zone's hold lifts when its FREE count
rises, its spare returns or its reservation falls. -/
def Obligations.WritersStep : Prop :=
  (∀ (p : Part) (c : CtxId),
    let k := p.ctx c
    let q := chooseStep c p
    let b := k.buf k.drainNext
    let start : Prop := (k.total = 0 ∧ k.written = []) ∨ k.hasBytes
    (¬ p.chooses c → q = p) ∧
    (p.chooses c → ∀ x, k.current = some x →
      let close : Prop := x.mustClose = true ∨ x.data = 4096 - x.offset - 32 ∨ k.programmed = k.total
      (close → Raised (.ctxClose c) .mark k.level
        (.bytes x.sector (x.offset + 16) (be 3 x.data ++ be 4 (x.crc ^^^ 0xFFFFFFFF#32).toNat)) p q) ∧
      (¬ close → k.hasBytes → Raised (.ctxData c) .program k.level
        (.bytes x.sector (x.offset + 32 + x.data) ((b.bytes.drop b.done).take (4096 - x.offset - 32 - x.data))) p q) ∧
      (¬ close → ¬ k.hasBytes → q = p)) ∧
    (p.chooses c → k.current = none → k.commit = .notReached →
      (start → k.written.length = 72 →
        (∀ i, k.owned = some i → 64 ≤ (p.sector i).room → (p.sector i).suspect = false → EndedWith c .fragmented p q) ∧
        ((∀ i, k.owned = some i → (p.sector i).room < 64 ∨ (p.sector i).suspect = true) →
          (∀ r, takeForCtx c p = (.taken, r) → EndedWith c .fragmented r q) ∧
          (∀ a r, takeForCtx c p = (a, r) → a ≠ .taken → EndedWith c .fragmented p q))) ∧
      (¬ start → k.written.length = 72 → k.programmed ≠ k.total → EndedWith c .fragmented p q) ∧
      (k.written.length < 72 → start →
        (∀ i, k.owned = some i → 64 ≤ (p.sector i).room → (p.sector i).suspect = false → RaisedFirst c i p q) ∧
        ((∀ i, k.owned = some i → (p.sector i).room < 64 ∨ (p.sector i).suspect = true) →
          (∀ r i, takeForCtx c p = (.taken, r) → (r.ctx c).owned = some i → RaisedFirst c i r q) ∧
          (∀ r, takeForCtx c p = (.waits, r) → q = r) ∧
          (∀ r, takeForCtx c p = (.refused, r) → EndedWith c .noSpace p q))) ∧
      (¬ start → k.programmed ≠ k.total → k.written.length ≠ 72 → q = p) ∧
      (¬ start → k.programmed = k.total →
        let stands : Prop := ∃ r ∈ p.sdr.retiring, r.slot = k.slot ∧ r.superseded = true
        (stands → q = modCtx c (fun k => { k with state := .committing, commit := .waiting }) p) ∧
        (¬ stands → k.maintRequired = true → p.mli.level = false → EndedWith c .protected_ p q) ∧
        (¬ stands → (k.maintRequired = false ∨ p.mli.level = true) → ∀ w ws, k.written = w :: ws →
          Raised (.ctxCommit c) .mark k.level (.bytes w.sector (w.offset + 23) [0x00]) p q ∧
          q.ctx c = { k with state := .committing, commit := .attempting })))) ∧
  (∀ (p : Part) (c : CtxId) (i o : Nat) (bs : List Byte), p.pee.op = none →
    let k := p.ctx c
    let b := k.buf k.drainNext
    let good : Result := { ok := true, good := bs }
    let bad : Result := { ok := false, good := bs }
    (k.ending = none → ∃ q, writeEnded (.ctxFirst c) i o good p = chooseStep c q ∧
      (let x : CurExtent := { index := k.written.length, sector := i, offset := o, data := 0, crc := 0xFFFFFFFF#32, mustClose := false }
       q.ctx c = { k with current := some x }) ∧
      (i < p.smp.sectors.length → q.sector i = { p.sector i with pending := (p.sector i).pending + 32 })) ∧
    (k.ending = none → ∀ x, k.current = some x → ∃ q, writeEnded (.ctxData c) i o good p = chooseStep c q ∧
      (q.ctx c).current = some { x with data := x.data + bs.length, crc := crc32Run x.crc bs } ∧
      (q.ctx c).programmed = k.programmed + bs.length ∧
      (q.ctx c).state = (if k.programmed + bs.length = k.total then .closing else k.state) ∧
      (b.done + bs.length = b.bytes.length →
        (q.ctx c).buf k.drainNext = Buffer.cold ∧ (q.ctx c).drainNext = k.drainNext.other) ∧
      (b.done + bs.length ≠ b.bytes.length →
        (q.ctx c).buf k.drainNext = { b with done := b.done + bs.length } ∧ (q.ctx c).drainNext = k.drainNext) ∧
      (x.sector < p.smp.sectors.length →
        q.sector x.sector = { p.sector x.sector with pending := (p.sector x.sector).pending + bs.length })) ∧
    (k.ending = none → ∀ x, k.current = some x → ∃ q, writeEnded (.ctxClose c) i o good p = chooseStep c q ∧
      (q.ctx c).current = none ∧
      (q.ctx c).written = k.written ++ [{ sector := x.sector, offset := x.offset, length := x.data }] ∧
      (x.sector < p.smp.sectors.length →
        let s := p.sector x.sector
        let next := x.offset + roundUp4 (32 + x.data)
        let t := q.sector x.sector
        t.pending = s.pending + padding x.data ∧
        (s.state ≠ .owned → t.nextWrite = s.nextWrite ∧ t.state = s.state) ∧
        (s.state = .owned → t.nextWrite = next ∧
          (64 ≤ 4096 - next → s.suspect = false → t.state = .owned ∧ t.owner = s.owner) ∧
          (4096 - next < 64 ∨ s.suspect = true → SealedState q x.sector t.state ∧ t.owner = none)))) ∧
    (k.ending = none → 2 ≤ k.failures →
      (∀ u, u = .ctxFirst c ∨ u = .ctxData c → EndedWith c .mediaFault (failedIn c i p) (writeEnded u i o bad p))) ∧
    (k.ending = none → EndedWith c .mediaFault (failedIn c i p) (writeEnded (.ctxClose c) i o bad p)) ∧
    (k.ending = none → k.failures < 2 → ∀ u, (u = .ctxFirst c ∧ k.current = none) ∨ (u = .ctxData c ∧ k.current ≠ none) →
      ∃ q, writeEnded u i o bad p = chooseStep c q ∧ (q.ctx c).failures = k.failures + 1 ∧
        (q.ctx c).notes = k.notes ||| 0x08 ||| 0x04 ∧
        (i < p.smp.sectors.length → (q.sector i).suspect = true ∧
          ((p.sector i).owner = some (.ctx c) → (q.sector i).nextWrite = 4096 ∧ (q.sector i).owner = none)) ∧
        (k.current = none → (q.ctx c).current = none ∧ (q.ctx c).programmed = k.programmed) ∧
        (∀ x, k.current = some x → (q.ctx c).programmed = k.programmed + bs.length ∧
          (x.data + bs.length = 0 → (q.ctx c).current = none ∧
            (q.sector x.sector).pending = (p.sector x.sector).pending - 32) ∧
          (0 < x.data + bs.length →
            (q.ctx c).current = some { x with data := x.data + bs.length, crc := crc32Run x.crc bs, mustClose := true } ∧
            (x.sector < p.smp.sectors.length →
              (q.sector x.sector).pending = (p.sector x.sector).pending + bs.length)))) ∧
    (∀ e, k.ending = some e →
      let landed := modCtx c (fun k => { k with programmed := k.programmed + bs.length }) p
      let fails (u : Purpose) (base : Part) : Prop := let q := writeEnded u i o bad p
        EndedBy c e (failedIn c i base) q ∧ (i < p.smp.sectors.length → (q.sector i).suspect = true)
      EndedBy c e p (writeEnded (.ctxFirst c) i o good p) ∧
      (k.commit = .notReached → EndedBy c e p (writeEnded (.ctxClose c) i o good p)) ∧
      EndedBy c e landed (writeEnded (.ctxData c) i o good p) ∧
      fails (.ctxFirst c) p ∧ fails (.ctxClose c) p ∧ fails (.ctxData c) (if k.failures < 2 then landed else p)) ∧
    (k.ending = some .byRestart → EndedSilently c p (readEnded (.ctxReadBack c) [0xFF] p)) ∧
    (∀ w ws, k.written = w :: ws →
      Raised (.ctxReadBack c) .read k.level (.runs [{ sector := w.sector, offset := w.offset + 23, length := 1 }])
        (failedIn c w.sector p) (writeEnded (.ctxCommit c) i o bad p) ∧
      ((writeEnded (.ctxCommit c) i o bad p).ctx c).attempts = k.attempts + 1 ∧
      (k.ending = none → k.attempts < 3 → Raised (.ctxCommit c) .mark k.level (.bytes w.sector (w.offset + 23) [0x00]) p
        (readEnded (.ctxReadBack c) [0xFF] p))) ∧
    (k.ending = none → 3 ≤ k.attempts → EndedWith c .mediaFault p (readEnded (.ctxReadBack c) [0xFF] p)) ∧
    (∀ v : Byte, v ≠ 0xFF → readEnded (.ctxReadBack c) [v] p = commitSwitch c p)) ∧
  (∀ p : Part, p.mounted = true → p.rcu.step = none →
    let wants (m : Movable) : Prop := evacuationStep p = some m
    let begins (kind : StepKind) (job : Option Nat) (level : Nat) (m : Movable) (q : Part) : Prop :=
      Raised .runnerRead .read level (.runs [{ sector := m.elem.sector, offset := m.elem.offset, length := 32 + m.elem.length }]) p q ∧
      (∀ d ∈ q.sdr.directory, d.slot = m.slot → d.relocating = true) ∧
      ∃ st, q.rcu.step = some st ∧ st.kind = kind ∧ st.job = job ∧ st.level = level ∧ st.slot = m.slot ∧
        st.sequence = m.sequence ∧ st.index = m.index ∧ st.elem = m.elem ∧ st.phase = .reading ∧ st.attempts = 0
    (∀ m, wants m → ∃ i ∈ p.rcu.evacQueue, p.rcu.hold = none ∧ (p.sector i).pending = 0 ∧ firstMovable i p = some m) ∧
    (∀ i m, firstMovable i p = some m → m.elem.sector = i ∧ m.elem.copy < 65535 ∧ ∃ d ∈ p.sdr.directory, d.slot = m.slot ∧
      d.sequence = m.sequence ∧ d.deletePending = false ∧ d.relocating = false ∧ d.extents[m.index]? = some m.elem) ∧
    (∀ i m, firstMovable i p = some m → ∀ d ∈ p.sdr.directory, d.deletePending = false → d.relocating = false →
      ∀ x ∈ d.extents, x.sector = i → x.copy < 65535 → m.elem.offset ≤ x.offset) ∧
    (∀ m j v n, wants m → p.rcu.job = some j → j.victim = some v → firstMovable v p = some n →
      ∃ q, runnerReact p = some q ∧ (p.rcu.lastKind = some .evacuation → begins .compact (some j.age) j.level n q) ∧
        (p.rcu.lastKind ≠ some .evacuation → begins .evacuation none 0 m q)) ∧
    (∀ m, wants m → p.rcu.job = none → ∃ q, runnerReact p = some q ∧ begins .evacuation none 0 m q) ∧
    (∀ j v n, evacuationStep p = none → p.rcu.job = some j → j.victim = some v → firstMovable v p = some n →
      ∃ q, runnerReact p = some q ∧ begins .compact (some j.age) j.level n q) ∧
    (∀ i, evacuationStep p = none → p.rcu.job = none → p.rcu.owned = some i →
      runnerReact p = some (giveUp i p) ∧ restReact p = some (giveUp i p)) ∧
    (∀ j v, nextVictim j p = some v → let s := p.sector v
      v < p.smp.sectors.length ∧ s.zone = j.zone ∧ s.state = .sealed ∧ s.suspect = false ∧ 0 < s.live ∧ s.pending = 0 ∧
        v ∉ j.taken ∧ ∀ u, victimOk j (p.sector u) u = true → u < p.smp.sectors.length →
          s.live < (p.sector u).live ∨ (s.live = (p.sector u).live ∧ v ≤ u))) ∧
  (∀ (p : Part) (j : Job), p.rcu.job = some j →
    let fits (u : Nat) : Prop := let s := p.sector u
      u < p.smp.sectors.length ∧ s.zone = j.zone ∧ s.state = .sealed ∧ s.suspect = false ∧ 0 < s.live ∧ s.pending = 0 ∧ u ∉ j.taken
    let becomes (k : Job) : Prop := jobReact p = some { p with rcu := { p.rcu with job := some k } }
    let endsOk : Prop := ∀ e, p.queueEntry j.age = some e → jobReact p = some
      (endedPart e .ok j.notes (be 1 j.zone ++ be 1 j.emptied) { p with rcu := { p.rcu with job := none } })
    let serves : Prop := ∃ st, p.rcu.step = some st ∧ st.job = some j.age
    (nextVictim j p = none ↔ ∀ u, ¬ fits u) ∧
    (j.asked ≤ j.emptied → endsOk) ∧
    (j.emptied < j.asked → ∀ v, j.victim = some v →
      let stuck : Prop := (p.sector v).suspect = true ∨ (p.rcu.step = none ∧ firstMovable v p = none)
      ((p.sector v).live = 0 → becomes { j with emptied := j.emptied + 1, victim := none }) ∧
      (0 < (p.sector v).live → stuck → becomes { j with victim := none }) ∧
      (0 < (p.sector v).live → ¬ stuck → jobReact p = none)) ∧
    (j.emptied < j.asked → j.victim = none →
      (serves → jobReact p = none) ∧
      (¬ serves → (∀ v, nextVictim j p = some v → becomes { j with victim := some v, taken := j.taken ++ [v] }) ∧
        (nextVictim j p = none → endsOk)))) ∧
  (∀ (p : Part) (st : Step) (j : Job) (i o : Nat) (bs : List Byte), p.rcu.job = some j →
    (p.rcu.step = some st →
      writeEnded .runnerDiscard i o { ok := true, good := bs } p = jobBoundary st (endStep true p) ∧
      (endStep true p).rcu.step = none ∧ (endStep true p).rcu.job = some j) ∧
    (st.job ≠ some j.age → jobBoundary st p = p) ∧
    (st.job = some j.age → ∀ e, p.queueEntry j.age = some e →
      let emptied : Prop := ∃ v, j.victim = some v ∧ (p.sector v).live = 0
      let boundary (n : Nat) (victim : Option Nat) : Prop :=
        let ends (status : Status) : Prop := jobBoundary st p =
          endedPart e status j.notes (be 1 j.zone ++ be 1 n) { p with rcu := { p.rcu with job := none } }
        (j.asked ≤ n → ends .ok) ∧
        (n < j.asked → 3 ≤ j.failures → ends .mediaFault) ∧
        (n < j.asked → j.failures < 3 → e.abortWaits = true → ends .aborted) ∧
        (n < j.asked → j.failures < 3 → e.abortWaits = false →
          jobBoundary st p = { p with rcu := { p.rcu with job := some { j with emptied := n, victim := victim } } })
      (emptied → boundary (j.emptied + 1) none) ∧ (¬ emptied → boundary j.emptied j.victim))) ∧
  (∀ (p : Part),
    let ready (c : CtxId) : Prop := (p.ctx c).state = .committing ∧ (p.ctx c).commit = .waiting ∧ (p.ctx c).ending = none ∧
      ¬ ∃ r ∈ p.sdr.retiring, r.slot = (p.ctx c).slot ∧ r.superseded = true
    (commitReact p = none ↔ ∀ c, ¬ ready c) ∧
    (∀ c, ready c → (∀ d, ready d → d = c) → let k := p.ctx c
      ∃ q, commitReact p = some q ∧
        (k.maintRequired = true → p.mli.level = false → claimRuns (.ctx c) p = false → EndedWith c .protected_ p q) ∧
        (k.maintRequired = false ∨ p.mli.level = true → ∀ w ws, k.written = w :: ws →
          Raised (.ctxCommit c) .mark k.level (.bytes w.sector (w.offset + 23) [0x00]) p q ∧
          q.ctx c = { k with commit := .attempting }))) ∧
  (∀ (p : Part) (st : Step) (bs : List Byte) (i o : Nat), p.rcu.step = some st →
    let n := st.elem.length
    let copied := [0x5E] ++ slice bs 1 7 ++ be 2 (st.elem.copy + 1) ++ slice bs 10 4
    let stage := copied ++ crc16Bytes copied ++ List.replicate 7 0xFF ++ [if byteAt bs 7 = 0 then 0x00 else 0xFF]
      ++ List.replicate 8 0xFF
    let begun (i : Nat) (r q : Part) : Prop :=
      Raised .runnerFirst .program st.level (.bytes i (r.sector i).nextWrite stage) r q ∧
      q.rcu.step = some { st with bytes := bs, phase := .firstStage, newSector := i, newOffset := (r.sector i).nextWrite }
    let keeps (i : Nat) : Prop := (p.sector i).zone = st.zone ∧ (p.sector i).suspect = false ∧ 64 ≤ (p.sector i).room ∧
      32 + n ≤ (p.sector i).room
    (∀ i, p.rcu.owned = some i → keeps i → begun i p (readEnded .runnerRead bs p)) ∧
    (let given : Part := match p.rcu.owned with
       | some i => giveUp i p
       | none => p
     let ended := readEnded .runnerRead bs p
     (∀ i, p.rcu.owned = some i → ¬ keeps i) →
       (∀ j r, takeForRunner st.zone given = (some j, r) → begun j r ended) ∧
       (∀ r, takeForRunner st.zone given = (none, r) → st.kind = .evacuation →
         ended.rcu.hold = some st.zone ∧ ended.rcu.step = none) ∧
       (∀ r j e, takeForRunner st.zone given = (none, r) → st.kind = .compact → p.rcu.job = some j → st.job = some j.age →
         p.queueEntry j.age = some e → ended.rcu.job = none ∧ ended.rcu.step = none ∧
         ended.link.replies = (endedPart e .noSpace j.notes (be 1 j.zone ++ be 1 j.emptied) p).link.replies)) ∧
    (let next (m : Nat) (q : Part) : Prop :=
       (m < n → Raised .runnerData .program st.level (.bytes st.newSector (st.newOffset + 32 + m)
         (slice st.bytes (32 + m) (min 256 (n - m)))) p q) ∧
       (n ≤ m → Raised .runnerClose .mark st.level (.bytes st.newSector (st.newOffset + 16) (be 3 n ++ slice st.bytes 19 4)) p q)
     (st.sent = 0 → next 0 (writeEnded .runnerFirst i o { ok := true, good := bs } p)) ∧
     next (st.sent + bs.length) (writeEnded .runnerData i o { ok := true, good := bs } p)) ∧
    (let q := writeEnded .runnerClose i o { ok := true, good := bs } p
     Raised .runnerDiscard .mark st.level (.bytes st.elem.sector (st.elem.offset + 25) [0x00]) p q ∧
     (st.newSector < p.smp.sectors.length → (p.sector st.newSector).state = .owned →
       let t := q.sector st.newSector
       t.nextWrite = st.newOffset + roundUp4 (32 + n) ∧
       ((p.sector st.newSector).suspect = false → t.state = .owned ∧ t.owner = (p.sector st.newSector).owner) ∧
       ((p.sector st.newSector).suspect = true → t.state = .sealed ∧ t.owner = none))) ∧
    (∀ u, u = .runnerFirst ∨ u = .runnerData ∨ u = .runnerClose → let q := writeEnded u i o { ok := false, good := bs } p
      q.rcu.step = none ∧ (st.newSector < p.smp.sectors.length → (q.sector st.newSector).suspect = true) ∧
      q.sdr.directory = p.sdr.directory.map (fun d => if d.slot = st.slot then { d with relocating := false } else d) ∧
      (∀ j e, p.rcu.job = some j → st.job = some j.age → p.queueEntry j.age = some e → p.mounted = true → j.emptied < j.asked →
        (∀ v, j.victim = some v → 0 < (p.sector v).live) →
        let ends (status : Status) : Prop := q.rcu.job = none ∧
          q.link.replies = (endedPart e status (j.notes ||| 0x08) (be 1 j.zone ++ be 1 j.emptied) p).link.replies
        (2 ≤ j.failures → ends .mediaFault) ∧
        (j.failures < 2 → e.abortWaits = true → ends .aborted) ∧
        (j.failures < 2 → e.abortWaits = false →
          q.rcu.job = some { j with failures := j.failures + 1, notes := j.notes ||| 0x08 }))) ∧
    (st.attempts + 1 < 3 → let q := writeEnded .runnerDiscard i o { ok := false, good := bs } p
      Raised .runnerDiscard .mark st.level (.bytes st.elem.sector (st.elem.offset + 25) [0x00]) p q ∧
      q.rcu.step = some { st with phase := .discarding, attempts := st.attempts + 1 } ∧ q.sdr = p.sdr ∧ q.smp = p.smp ∧
      ∀ j, p.rcu.job = some j → q.rcu.job = some (if st.job = some j.age then { j with notes := j.notes ||| 0x04 } else j)) ∧
    (2 ≤ st.attempts → let q := writeEnded .runnerDiscard i o { ok := false, good := bs } p
      let ends (j : Option Job) : Prop := let m := makeSuspect st.elem.sector none { p with rcu := { p.rcu with job := j } }
        q = jobBoundary st (endStep true m) ∧ (endStep true m).rcu.job = j
      (st.elem.sector < p.smp.sectors.length → (q.sector st.elem.sector).suspect = true) ∧
      (p.rcu.job = none → ends none) ∧
      ∀ j, p.rcu.job = some j → ends (some (if st.job = some j.age then { j with notes := j.notes ||| 0x08 } else j))) ∧
    (∀ ok, ok = true ∨ 2 ≤ st.attempts → (∀ d, p.entryOf st.slot = some d → d.sequence ≠ st.sequence) →
      let q := writeEnded .runnerDiscard i o { ok := ok, good := bs } p
      q.rcu.step = none ∧ q.rcu.lastKind = (if p.rcu.stopAtEnd = true then none else some st.kind) ∧
      q.sdr.directory = p.sdr.directory.map (fun d => if d.slot = st.slot then { d with relocating := false } else d) ∧
      (p.mounted = true → ∀ j, (q.sector j).live = (p.sector j).live ∧ (q.sector j).pending = (p.sector j).pending ∧
        ((∀ r, p.retiringOf st.slot st.sequence = some r → r.deferred = false) → (q.sector j).retiring = (p.sector j).retiring))) ∧
    (∀ closed j, p.rcu.owned = some j → j < p.smp.sectors.length → let q := endStep closed p
      (p.mounted = true → (p.sector j).room < 64 ∨ (p.sector j).suspect = true →
        SealedState q j (q.sector j).state ∧ (q.sector j).owner = none) ∧
      (p.mounted = false → (p.sector j).state ≠ .bad → q.rcu.owned = none ∧ (q.sector j).owner = none ∧
        (q.sector j).state = .stale ∧ (q.sector j).countsZero = true)) ∧
    (∀ ok, ok = true ∨ 2 ≤ st.attempts → ∀ d, p.entryOf st.slot = some d → d.sequence = st.sequence →
      let q := writeEnded .runnerDiscard i o { ok := ok, good := bs } p
      q.rcu.step = none ∧ q.rcu.lastKind = (if p.rcu.stopAtEnd = true then none else some st.kind) ∧
      (let x : Elem := { sector := st.newSector, offset := st.newOffset, length := n, copy := st.elem.copy + 1 }
       q.entryOf st.slot = some { d with relocating := false, extents := d.extents.set st.index x }) ∧
      (p.mounted = true → st.newSector ≠ st.elem.sector → st.newSector < p.smp.sectors.length →
        (q.sector st.newSector).live = (p.sector st.newSector).live + space n ∧
        (q.sector st.elem.sector).live = (p.sector st.elem.sector).live - space n))) ∧
  (∀ (p : Part) (z : Nat), p.rcu.hold = some z →
    let lifts (q : Part) : Prop := Relieved z p q → q.rcu.hold = none
    let stands (q : Part) : Prop := ¬ Relieved z p q → q.rcu.hold = some z
    (∀ i o, lifts (judgeSector i p) ∧ stands (judgeSector i p) ∧ lifts (giveUp i p) ∧ stands (giveUp i p) ∧
      lifts (makeSuspect i o p) ∧ stands (makeSuspect i o p)) ∧
    (∀ n, lifts (cutReservations n p) ∧ stands (cutReservations n p)) ∧
    (∀ q, spareReact p = some q → lifts q ∧ stands q) ∧ (∀ q, takersReact p = some q → lifts q) ∧
    (∀ c st, lifts (endCtx c st p) ∧ lifts (finishEnd c none p) ∧ lifts (takeForCtx c p).2) ∧ lifts (completeBatch p))

/-- No step leaves the array's canonical form. -/
def Obligations.StepKeepsArrayCanonical : Prop :=
  ∀ s t : State, Memory.wf s.array = true → step s = .next t → Memory.wf t.array = true

/-- No step leaves the invariant of the link, the request queue and the directory: at most 16 queued-class and 6 direct places in use,
at most 4 ACTIVE entries, ages told apart, eight conditions, every setting in its range, the directory in ascending slot id. -/
def Obligations.StepKeepsLinkInv : Prop :=
  ∀ s t : State, s.part.LinkInv → step s = .next t → t.part.LinkInv

/-- Only the engine's operations on the array and the interruptions of one change the array. -/
def Obligations.OnlyWorkChangesArray : Prop :=
  ∀ (i : Instr) (s t : State), touchesArray i = false → exec i s = .next t → t.array = s.array

/-! ### Records and CRCs -/

/-- The CRC-16: its start, the shift of each bit, the order of bits, the bytes it is stored as, its check value, and what it
covers in a sector header, an extent header, a reply frame and a request frame. -/
def Obligations.CrcSixteenRule : Prop :=
  crc16 [] = 0xFFFF#16 ∧
  (∀ (reg : BitVec 16) (bit : Bool),
    crc16Bit reg bit = if reg.getMsbD 0 = bit then reg <<< 1 else (reg <<< 1) ^^^ 0x1021#16) ∧
  (∀ (bs : List Byte) (b : Byte), crc16 (bs ++ [b]) =
    crc16Bit (crc16Bit (crc16Bit (crc16Bit (crc16Bit (crc16Bit (crc16Bit (crc16Bit (crc16 bs)
      (b.getLsbD 7)) (b.getLsbD 6)) (b.getLsbD 5)) (b.getLsbD 4)) (b.getLsbD 3)) (b.getLsbD 2)) (b.getLsbD 1)) (b.getLsbD 0)) ∧
  (∀ bs : List Byte, crc16Bytes bs = [BitVec.ofNat 8 ((crc16 bs).toNat / 256), BitVec.ofNat 8 (crc16 bs).toNat]) ∧
  crc16 [0x31, 0x32, 0x33, 0x34, 0x35, 0x36, 0x37, 0x38, 0x39] = 0x29B1#16 ∧
  (∀ f z n plan bad, let h := sectorHeaderBytes f z n plan bad; (h.drop 20).take 2 = crc16Bytes (h.take 20)) ∧
  (∀ slot q i c hd co, let h := firstStageBytes slot q i c hd co; (h.drop 14).take 2 = crc16Bytes (h.take 14)) ∧
  (∀ r : Reply, let f := replyFrame r; f.drop (f.length - 2) = crc16Bytes ((f.take (f.length - 2)).drop 1)) ∧
  (∀ i f, requestFrame i = some f → f.drop (f.length - 2) = crc16Bytes (f.take (f.length - 2)))

/-- The CRC-32: its start, the shift of each bit, the order of bits, its end, its check values, and that a VERIFY judges an
extent by the CRC of exactly its data bytes, stored most significant first. -/
def Obligations.CrcThirtyTwoRule : Prop :=
  crc32 [] = 0#32 ∧ crc32Init = 0xFFFFFFFF#32 ∧
  (∀ (reg : BitVec 32) (bit : Bool),
    crc32Bit reg bit = if reg.getLsbD 0 = bit then reg >>> 1 else (reg >>> 1) ^^^ 0xEDB88320#32) ∧
  (∀ (reg : BitVec 32) (bs : List Byte) (b : Byte), crc32Run reg (bs ++ [b]) =
    crc32Bit (crc32Bit (crc32Bit (crc32Bit (crc32Bit (crc32Bit (crc32Bit (crc32Bit (crc32Run reg bs)
      (b.getLsbD 0)) (b.getLsbD 1)) (b.getLsbD 2)) (b.getLsbD 3)) (b.getLsbD 4)) (b.getLsbD 5)) (b.getLsbD 6)) (b.getLsbD 7)) ∧
  (∀ bs : List Byte, crc32 bs = crc32Run crc32Init bs ^^^ 0xFFFFFFFF#32) ∧
  crc32 [0x31, 0x32, 0x33, 0x34, 0x35, 0x36, 0x37, 0x38, 0x39] = 0xCBF43926#32 ∧
  (∀ (r : Serving) (bytes : List Byte), verifyPasses r bytes = true →
    (bytes.drop 19).take 4 = be 4 (crc32 ((bytes.drop 32).take r.elem.length)).toNat)

/-- A sector header written with fields in range reads back as a valid header of that sector with those fields, and its mark
bytes as given. A header read from a sector is valid exactly when it meets every condition of R6: the magic byte, the CRC, the format
number, the zone count, the bounds and the sum of the plan's entries, the entries beyond the zone count, and the zone field. -/
def Obligations.SectorHeadersReadBack : Prop :=
  (∀ (s f n : Nat) (plan : List (Nat × Nat)) (bad : Bool),
    planValid plan = true → 1 ≤ f → f ≤ 65535 → n ≤ 0xFFFFFF → s < 512 →
    let h := sectorHeaderBytes f (zoneOfSector plan s) n plan bad
    h.length = 32 ∧ sectorHeaderValid s h = true ∧ field h 1 2 = f ∧ field h 4 3 = n ∧ headerPlan h = plan ∧
      markSet (byteAt h 30) = false ∧ markSet (byteAt h 31) = bad) ∧
  (∀ (s : Nat) (h : List Byte), s < 512 →
    let zones := field h 7 1
    let count (i : Nat) : Nat := field h (8 + 3 * i) 2
    let lowWater (i : Nat) : Nat := field h (10 + 3 * i) 1
    let firstSector (z : Nat) : Nat := ((List.range z).map count).sum
    let zone := field h 3 1
    (sectorHeaderValid s h = true ↔
      byteAt h 0 = 0xB7 ∧ slice h 20 2 = crc16Bytes (slice h 0 20) ∧ field h 1 2 ≠ 0 ∧ 1 ≤ zones ∧ zones ≤ 4 ∧
      (∀ i < zones, 8 ≤ count i ∧ count i ≤ 512 ∧ 1 ≤ lowWater i ∧ lowWater i ≤ 32) ∧ firstSector zones = 512 ∧
      (∀ i < 4, zones ≤ i → slice h (8 + 3 * i) 3 = [0xFF, 0xFF, 0xFF]) ∧
      zone < zones ∧ firstSector zone ≤ s ∧ s < firstSector (zone + 1)))

/-- What is written on the array is read back. An extent's first stage written with fields in range reads back valid with those
fields, no mark set but COMMITTED where it was given, and its close stage, all 7 bytes, still erased; 32 bytes read back are a valid
first stage exactly when they meet every condition of R12: magic byte, CRC, slot id, sequence, index, and class and total length for
their index. The scan classifies a sector, an extent header is read in one of five forms and the walk goes on by them, and
generations are judged by their chosen copies. That a TORN header with a valid first stage counts for the highest sequence is
DEDUCED (log 31). At the end of a sector's scan read its record is made, its candidates and its highest sequence are merged, and the
next sector's read is raised, or after sector 511 the store is decided. Resolve installs directory, RECOVERY records in order of
slot and sequence, each with its first OBSOLETE claim raised, sectors, queues and zones from what the scan found, sets the MOUNTED
condition, and opens a batch; without a valid header or with two that disagree the store is BLANK, its format number is the highest
read, 0 with none, and no condition is set. -/
def Obligations.ArrayIsReadBack : Prop :=
  (∀ (slot q i c : Nat) (cls : SlotClass) (total : Nat) (co : Bool),
    1 ≤ slot → slot ≤ 4095 → 1 ≤ q → q ≤ 0xFFFFFFFE → i ≤ 71 → c ≤ 65535 → total ≤ 262144 →
    let h := firstStageBytes slot q i c (if i = 0 then some (cls, total) else none) co
    h.length = 32 ∧ firstStageValid h = true ∧ field h 1 2 = slot ∧ field h 3 4 = q ∧ field h 7 1 = i ∧ field h 8 2 = c ∧
      (i = 0 → byteAt h 10 = cls.code ∧ field h 11 3 = total) ∧ slice h 16 7 = List.replicate 7 0xFF ∧
      markSet (byteAt h 23) = co ∧ markSet (byteAt h 24) = false ∧ markSet (byteAt h 25) = false) ∧
  (∀ h : List Byte, firstStageValid h = true ↔
    byteAt h 0 = 0x5E ∧ slice h 14 2 = crc16Bytes (slice h 0 14) ∧ 1 ≤ field h 1 2 ∧ field h 1 2 ≤ 4095 ∧
    field h 3 4 ≠ 0 ∧ field h 3 4 ≠ 0xFFFFFFFF ∧ field h 7 1 ≤ 71 ∧
    (field h 7 1 = 0 → (byteAt h 10 = 0x01 ∨ byteAt h 10 = 0x02 ∨ byteAt h 10 = 0x03) ∧ field h 11 3 ≤ 262144) ∧
    (field h 7 1 ≠ 0 → byteAt h 10 = 0xFF ∧ field h 11 3 = 0xFFFFFF)) ∧
  (∀ (s : Nat) (bytes : List Byte),
    let r := (classify s bytes).1
    let blank : Prop := ∀ b ∈ bytes, b = 0xFF
    let valid : Prop := sectorHeaderValid s (bytes.take 32) = true
    let w := walk s bytes
    let finds (cs : List Candidate) (h : Nat) : Prop := (classify s bytes).2.candidates = cs ∧ (classify s bytes).2.highest = h
    w = walkFrom s bytes 128 32 { candidates := [], nextWrite := 4096, walkSealed := true, space := 0, highest := 0 } ∧
    (blank → r.cls = .blankErased ∧ finds [] 0) ∧ (¬ blank → ¬ valid → r.cls = .torn ∧ finds [] 0) ∧
    (¬ blank → valid → r.format = field bytes 1 2 ∧ r.plan = headerPlan (bytes.take 32) ∧ r.eraseCount = field bytes 4 3 ∧
      (r.suspect = true ↔ byteAt bytes 30 ≠ 0xFF) ∧
      (byteAt bytes 31 ≠ 0xFF → r.cls = .bad ∧ finds [] 0) ∧
      (byteAt bytes 31 = 0xFF → r.cls = .walked ∧ r.nextWrite = w.nextWrite ∧ r.walkSealed = w.walkSealed ∧
        (classify s bytes).2 = w))) ∧
  (∀ (s n h : Nat) (bytes : List Byte) (w : Walk),
    let hd := slice bytes h 32
    let len := field hd 16 3
    let first : Prop := firstStageValid hd = true
    let fits : Prop := len ≤ 4032 ∧ h + 32 + len ≤ 4096
    let erased : Prop := ∀ b ∈ hd, b = 0xFF
    let sound : Prop := slice hd 19 4 = be 4 (crc32 (slice bytes (h + 32) len)).toNat
    let q := walkFrom s bytes (n + 1) h w
    (4096 - h < 64 → q = { w with nextWrite := h, walkSealed := true }) ∧
    (64 ≤ 4096 - h → erased → q = { w with nextWrite := h, walkSealed := false }) ∧
    (64 ≤ 4096 - h → ¬ erased → ¬ first → q = { w with nextWrite := 4096, walkSealed := true }) ∧
    (64 ≤ 4096 - h → ¬ erased → first →
      let seen : Walk := { w with highest := max w.highest (field hd 3 4) }
      let goOn := walkFrom s bytes n (h + roundUp4 (32 + len))
      (len = 0xFFFFFF ∨ ¬ fits → q = { seen with nextWrite := 4096, walkSealed := true }) ∧
      (len ≠ 0xFFFFFF → fits → ¬ sound ∨ byteAt hd 25 ≠ 0xFF → q = goOn { seen with space := w.space + space len }) ∧
      (len ≠ 0xFFFFFF → fits → sound → byteAt hd 25 = 0xFF → ∃ c : Candidate,
        q = goOn { seen with space := w.space + space len, candidates := w.candidates ++ [c] } ∧
        c.slot = field hd 1 2 ∧ c.sequence = field hd 3 4 ∧ c.index = field hd 7 1 ∧ c.copy = field hd 8 2 ∧ c.sector = s ∧
        c.offset = h ∧ c.length = len ∧ (c.index = 0 → c.cls.code = byteAt hd 10 ∧ c.total = field hd 11 3) ∧
        (c.committed = true ↔ byteAt hd 23 ≠ 0xFF) ∧ (c.obsolete = true ↔ byteAt hd 24 ≠ 0xFF)))) ∧
  (∀ (cs : List Candidate) (slot q i : Nat),
    let same (c : Candidate) : Prop := c.slot = slot ∧ c.sequence = q ∧ c.index = i
    (chosen cs slot q i = none ↔ ∀ c ∈ cs, ¬ same c) ∧
    (∀ c, chosen cs slot q i = some c → c ∈ cs ∧ same c ∧ ∀ d ∈ cs, same d → d.copy ≤ c.copy) ∧
    (∀ run, eligibleRun cs slot q = some run ↔ LiveEligible cs slot q run)) ∧
  (∀ (cs : List Candidate) (c : Candidate),
    let known : Prop := ∃ d ∈ cs, d.slot = c.slot ∧ d.sequence = c.sequence ∧ d.index = c.index ∧ d.copy = c.copy
    (known → addCandidate cs c = cs) ∧ (¬ known → addCandidate cs c = cs ++ [c])) ∧
  (∀ (p : Part) (s : Nat) (bytes : List Byte),
    let found := classify s bytes
    let recorded : Part := { p with scu := { p.scu with
      records := p.scu.records ++ [found.1]
      candidates := found.2.candidates.foldl addCandidate p.scu.candidates
      highest := max p.scu.highest found.2.highest } }
    let q := readEnded (.scanRead s) bytes p
    (s < 511 → q = { recorded with pee := q.pee } ∧
      Raised (.scanRead (s + 1)) .read 0 (.runs [{ sector := s + 1, offset := 0, length := 4096 }]) p q) ∧
    (511 ≤ s → q = decideStore recorded)) ∧
  (∀ (format : Nat) (plan : List (Nat × Nat)) (p : Part),
    let q := resolve format plan p
    let cs := p.scu.candidates
    let dir := q.sdr.directory
    q.scu.store = .mounted ∧ q.scu.format = format ∧ q.scu.candidates = [] ∧ planOf q = plan ∧
    (∀ r, p.link.conds[0]? = some r → q.link.conds[0]? = some { r with set := true }) ∧
    q.sdr.sequence = p.scu.highest + 1 ∧ dir.Pairwise (fun a b => a.slot < b.slot) ∧
    (∀ d ∈ dir, ∃ run h, LiveEligible cs d.slot d.sequence run ∧ run.head? = some h ∧
      d = { slot := h.slot, zone := zoneOfSector plan h.sector, cls := h.cls, length := h.total, sequence := h.sequence,
            extents := run.map (fun c => { sector := c.sector, offset := c.offset, length := c.length, copy := c.copy }),
            openCtx := none, deletePending := false, relocating := false, lingering := [] }) ∧
    (∀ slot n run, LiveEligible cs slot n run → ∃ d ∈ dir, d.slot = slot ∧ n ≤ d.sequence ∧
      (n < d.sequence → ∃ r ∈ q.sdr.retiring, r.slot = slot ∧ r.sequence = n ∧ r.superseded = false ∧ r.level = 0 ∧
        r.waiting = none ∧ r.extents = run.map (fun c => { sector := c.sector, offset := c.offset, length := c.length, copy := c.copy }) ∧
        r.extents.head? = some r.head ∧ r.attempts = 1 ∧ r.deferred = false ∧ r.extra = none ∧
        Claimed (.obsolete slot n) .mark 0 (.bytes r.head.sector (r.head.offset + 24) [0x00]) p q)) ∧
    (∀ r ∈ q.sdr.retiring, (∃ run, LiveEligible cs r.slot r.sequence run) ∧ ∃ d ∈ dir, d.slot = r.slot ∧ r.sequence < d.sequence) ∧
    q.sdr.retiring.Pairwise (fun a b => a.slot < b.slot ∨ (a.slot = b.slot ∧ a.sequence < b.sequence)) ∧
    (∃ m, q = openBatch m ∧ m.mounted = true ∧ m.rcu.openBatch = p.rcu.openBatch ∧ m.pee.batch = p.pee.batch ∧
      m.rcu.eraseQueue = (List.range p.scu.records.length).filter (fun i => (q.sector i).state = .stale)) ∧
    q.rcu.evacQueue = (List.range p.scu.records.length).filter (fun i => (q.sector i).state = .sealed ∧ (q.sector i).suspect = true) ∧
    (∀ i r, p.scu.records[i]? = some r →
      let s := q.sector i
      let empty : Prop := s.live = 0 ∧ s.retiring = 0
      let z := zoneOfSector plan i
      s.zone = z ∧ s.owner = none ∧ s.pending = 0 ∧ s.suspect = r.suspect ∧
      s.live = spaceOf i (dir.flatMap (·.extents)) ∧ s.retiring = spaceOf i (q.sdr.retiring.flatMap (·.extents)) ∧
      (r.cls = .bad → s.state = .bad ∧ s.nextWrite = 4096 ∧ s.eraseCount = r.eraseCount) ∧
      (r.cls = .torn ∨ r.cls = .blankErased → s.state = .stale ∧ s.nextWrite = 4096 ∧
        (∀ j t, p.scu.records[j]? = some t → t.cls = .walked ∨ t.cls = .bad → zoneOfSector plan j = z →
          t.eraseCount ≤ s.eraseCount) ∧
        (s.eraseCount = 0 ∨ ∃ j t, p.scu.records[j]? = some t ∧ (t.cls = .walked ∨ t.cls = .bad) ∧ zoneOfSector plan j = z ∧
          t.eraseCount = s.eraseCount)) ∧
      (r.cls = .walked → s.eraseCount = r.eraseCount ∧ s.nextWrite = r.nextWrite ∧
        (r.suspect = true → empty → s.state = .stale) ∧ (r.suspect = true → ¬ empty → s.state = .sealed) ∧
        (r.suspect = false → r.nextWrite = 32 → s.state = .free) ∧
        (r.suspect = false → r.nextWrite ≠ 32 → empty → s.state = .stale) ∧
        (r.suspect = false → r.nextWrite ≠ 32 → ¬ empty → r.walkSealed = true → s.state = .sealed) ∧
        (r.suspect = false → r.nextWrite ≠ 32 → ¬ empty → r.walkSealed = false → z < plan.length →
          ∃ t, (q.zone z).bind (·.tail) = some t ∧ s.room ≤ (q.sector t).room ∧ (s.room = (q.sector t).room → t ≤ i) ∧
            s.state = (if t = i then .tail else .sealed))) ∧
      (s.state = .stale → i ∈ q.rcu.eraseQueue ∨ ∃ b, q.rcu.openBatch = some b ∧ i ∈ b.sectors)) ∧
    (∀ z r, q.zone z = some r → r.waiting = [] ∧ (r.spareInUse = true ↔ available z q = 0))) ∧
  (∀ p : Part,
    let read (r : ScanRecord) : Prop := r ∈ p.scu.records ∧ r.cls = .walked
    ((∀ r, ¬ read r) ∨ (∃ r t, read r ∧ read t ∧ (r.format ≠ t.format ∨ r.plan ≠ t.plan)) →
      (decideStore p).scu.store = .blank ∧ (decideStore p).sdr = p.sdr ∧ (decideStore p).scu.candidates = [] ∧
      (decideStore p).scu.records = p.scu.records ∧ (decideStore p).link = p.link ∧
      (∀ r, read r → r.format ≤ (decideStore p).scu.format) ∧
      ((decideStore p).scu.format = 0 ∨ ∃ r, read r ∧ r.format = (decideStore p).scu.format)) ∧
    (∀ r, read r → (∀ t, read t → t.format = r.format ∧ t.plan = r.plan) → decideStore p = resolve r.format r.plan p))

/-- Programming only clears bits: the AND of old and intended bytes where the pre-check passes, nothing at all where it fails; no
program sets a bit; a byte given as 0xFF is unchanged and a byte given as 0x00 always passes. A program may span bytes it does not
mean to change: with some bytes given as 0xFF and the rest as 0x00, the first keep their value and the rest read 0x00, whatever
the array held; it SUCCEEDS when the first read 0xFF and ends FAILED otherwise. That a byte given as 0xFF passes the pre-check over
any byte, and that the verify is then R65's, is the model's choice between R2's observation and its bit test (log 56). -/
def Obligations.ProgramsOnlyClearBits : Prop :=
  ∀ (m : Memory) (i o : Nat) (bs : List Byte), Memory.wf m = true → Inside i o bs.length →
    ProgrammedBytes m (programArray m i o bs []) i o bs [] ∧
    ProgramResult m (programArray m i o bs []) i o bs (programResult m i o bs []) ∧
    (∀ (stuck : List Byte) (a : Nat),
      (programArray m i o bs stuck).read a &&& m.read a = (programArray m i o bs stuck).read a) ∧
    (∀ k < bs.length, bs.getD k 0 = 0xFF → (programArray m i o bs []).read (i * 4096 + o + k) = m.read (i * 4096 + o + k)) ∧
    ((∀ k < bs.length, bs.getD k 0 = 0x00) → (programResult m i o bs []).ok = true) ∧
    ((∀ k < bs.length, bs.getD k 0 = 0xFF ∨ bs.getD k 0 = 0x00) →
      (∀ k < bs.length, (programArray m i o bs []).read (i * 4096 + o + k)
        = if bs.getD k 0 = 0xFF then m.read (i * 4096 + o + k) else 0x00) ∧
      ((programResult m i o bs []).ok = true ↔ ∀ k < bs.length, bs.getD k 0 = 0xFF → m.read (i * 4096 + o + k) = 0xFF))

/-! ### The link -/

/-- The frame of every well-formed request passes its checks and is decoded to that request, every operand at its value. -/
def Obligations.RequestFramesDecode : Prop :=
  ∀ (i : Instr) (f : List Byte), i.wellFormed = true → requestFrame i = some f →
    checkFrame f = .passed ∧ decodeFrame f = some i

/-- The frame of a reply, byte by byte, and the byte of each status, whose high four bits are its class. The kind byte is the kind
OR 0x80: the spec's kind with 0x80 added, and the model's choice for an echoed kind of 0x80 or above (log 36). -/
def Obligations.ReplyFrameLayout : Prop :=
  (∀ r : Reply, replyFrame r =
    [0xE4] ++ be 2 (4 + r.payload.length) ++ [r.kind ||| 0x80, r.tag, r.status.code, r.notes] ++ r.payload
      ++ crc16Bytes (be 2 (4 + r.payload.length) ++ [r.kind ||| 0x80, r.tag, r.status.code, r.notes] ++ r.payload)) ∧
  Status.ok.code = 0x00 ∧
  Status.badCrc.code = 0x11 ∧ Status.badLength.code = 0x12 ∧ Status.unknownKind.code = 0x13 ∧
  Status.queueFull.code = 0x21 ∧
  Status.notReady.code = 0x31 ∧ Status.badField.code = 0x32 ∧ Status.noSlot.code = 0x33 ∧ Status.protected_.code = 0x34 ∧
  Status.slotBusy.code = 0x35 ∧ Status.noContext.code = 0x36 ∧ Status.directoryFull.code = 0x37 ∧ Status.noSpace.code = 0x38 ∧
  Status.sequenceExhausted.code = 0x39 ∧ Status.noCredit.code = 0x3A ∧ Status.outOfOrder.code = 0x3B ∧
  Status.aborted.code = 0x41 ∧ Status.mediaFault.code = 0x42 ∧ Status.dataCorrupt.code = 0x43 ∧ Status.fragmented.code = 0x44 ∧
  Status.tooLate.code = 0x45 ∧ Status.notFound.code = 0x46 ∧ Status.abandoned.code = 0x47

/-- The fall of CS samples the status byte and fixes the head reply. While the part does not run the transaction is lost. -/
def Obligations.TransactionStartSamplesStatus : Prop :=
  ∀ s : State,
    (s.part.run = .running → ∃ b : Byte,
      exec .transactionStart s = .next { s with part := { s.part with link := { s.part.link with
        transaction := .active b s.part.link.replies.head? } } } ∧
      (b.getLsbD 0 = true ↔ s.part.link.replies ≠ []) ∧
      (b.getLsbD 1 = true ↔ ∃ r ∈ s.part.link.conds, r.set = true ∧ r.enable = true ∧ s.part.link.floor < r.level) ∧
      (b.getLsbD 2 = true ↔ s.part.scu.store = .mounted) ∧
      b.toNat / 8 % 4 = s.part.wcu.c0.credit ∧ b.toNat / 32 % 4 = s.part.wcu.c1.credit ∧
      (b.getLsbD 7 = true ↔ s.part.mli.level = true)) ∧
    (s.part.run ≠ .running →
      exec .transactionStart s = .next { s with part := { s.part with link := { s.part.link with transaction := .lost } } })

/-- A transaction of another command byte takes nothing: only the transaction and the bytes of MISO change. -/
def Obligations.IgnoredTransactionTakesNothing : Prop :=
  ∀ (n : Nat) (s : State), s.part.listens → exec (.ignoredTransaction n) s = .next { s with part := s.part.pushed n }

/-- A bad frame: nothing below 4 bytes; else the first failing check of CRC, length (its own field, and the body length of its
kind) and kind is answered, with the bytes in the kind and tag positions. For a frame of 4 or 5 bytes, whose body holds no kind
or no tag, the 0 echoed and the UNKNOWN_KIND for a right frame of 4 bytes are the model's choice (log 23). -/
def Obligations.BadFramesAreRefused : Prop :=
  ∀ (f : List Byte) (s : State), s.part.listens →
    let n := f.length
    let kind : Byte := if 5 ≤ n then byteAt f 2 else 0
    let tag : Byte := if 6 ≤ n then byteAt f 3 else 0
    let crcOk : Prop := f.drop (n - 2) = crc16Bytes (f.take (n - 2))
    let lengthOk : Prop := field f 0 2 = n - 4
    (n < 4 → exec (.badFrame f) s = .next { s with part := s.part.pushed n }) ∧
    (4 ≤ n → ¬ crcOk → Answers (.badFrame f) s kind tag .badCrc [] (s.part.pushed n)) ∧
    (4 ≤ n → crcOk → ¬ lengthOk → Answers (.badFrame f) s kind tag .badLength [] (s.part.pushed n)) ∧
    (5 ≤ n → crcOk → lengthOk → bodyLengthAllowed kind.toNat (n - 4) = some false →
      Answers (.badFrame f) s kind tag .badLength [] (s.part.pushed n)) ∧
    (4 ≤ n → crcOk → lengthOk → (n = 4 ∨ bodyLengthAllowed kind.toNat (n - 4) = none) →
      Answers (.badFrame f) s kind tag .unknownKind [] (s.part.pushed n)) ∧
    (∀ m, ∀ k ∈ [0x01, 0x02, 0x08], bodyLengthAllowed k m = some (decide (m = 3))) ∧
    (∀ m, ∀ k ∈ [0x04, 0x06, 0x07], bodyLengthAllowed k m = some (decide (m = 4))) ∧
    (∀ m, ∀ k ∈ [0x05, 0x23, 0x24, 0x25], bodyLengthAllowed k m = some (decide (m = 5))) ∧
    (∀ m, ∀ x ∈ [(0x22, 6), (0x21, 9), (0x20, 10), (0x26, 16), (0x03, 20)], bodyLengthAllowed x.1 m = some (decide (m = x.2))) ∧
    (∀ m, bodyLengthAllowed 0x10 m = some (decide (8 ≤ m ∧ m ≤ 263))) ∧
    (∀ k m, bodyLengthAllowed k m = none ↔
      k ∉ [0x01, 0x02, 0x03, 0x04, 0x05, 0x06, 0x07, 0x08, 0x10, 0x20, 0x21, 0x22, 0x23, 0x24, 0x25, 0x26])

/-- A fetch gives the reply fixed at the fall of CS, whatever the queue holds at its end, and zeros when none was fixed: a reply
produced in between is not shown and none leaves. The reply leaves, and its place is freed, only when its whole frame was shifted out;
the fetch of an ending reply returns its context to IDLE with all fields cold. A fetch with no TRANSACTION_START before it is one whose
CS fell at that event (the model's choice, log 12). -/
def Obligations.FetchTakesTheHead : Prop :=
  ∀ (n : Nat) (s : State) (b : Byte), s.part.run = .running →
    let shows (bytes : List Byte) : Prop := exec (.fetch n) s = .next { s with part := { s.part with link := { s.part.link with
      transaction := .none, miso := b :: bytes } } }
    (s.part.link.transaction = .active b none → shows (List.replicate n 0x00)) ∧
    (∀ r, s.part.link.transaction = .active b (some r) →
      (n < (replyFrame r).length → shows ((replyFrame r).take n)) ∧
      ((replyFrame r).length ≤ n → ∃ t, exec (.fetch n) s = .next t ∧ t.part.link.transaction = .none ∧
        t.part.link.miso = b :: (replyFrame r ++ List.replicate (n - (replyFrame r).length) 0x00) ∧
        (∀ rs, s.part.link.replies = r :: rs → t.array = s.array ∧ t.pending = s.pending ∧
          t.part.link = { s.part.link with transaction := .none, replies := rs, miso := t.part.link.miso } ∧
          (∀ c, t.part.ctx c = if r.place = .ending c then WriteCtx.cold else s.part.ctx c) ∧
          t.part = { s.part with link := t.part.link, wcu := t.part.wcu }))) ∧
    (s.part.link.transaction = .none →
      ∃ u, exec .transactionStart s = .next u ∧ u.part.link.transaction = .active (statusByte s.part) s.part.link.replies.head? ∧
        exec (.fetch n) s = exec (.fetch n) u)

/-- ATTN: a produced reply or a set, enabled condition above the floor, and never under RESET; with every enable off only a
reply asserts it, and with a floor of 7 no condition does. -/
def Obligations.AttnFollowsRepliesAndConditions : Prop :=
  ∀ p : Part,
    (attn p = true ↔ p.run = .running ∧
      (p.link.replies ≠ [] ∨ ∃ r ∈ p.link.conds, r.set = true ∧ r.enable = true ∧ p.link.floor < r.level)) ∧
    ((∀ r ∈ p.link.conds, r.enable = false) → attn p = true → p.link.replies ≠ []) ∧
    ((∀ r ∈ p.link.conds, r.level ≤ 7) → p.link.floor = 7 → attn p = true → p.link.replies ≠ [])

/-! ### Direct requests and DATA -/

/-- IDENT replies with the part's eight figures. STATUS replies with 116 bytes, the figures of each block at their places: for each
zone its state counts, the room of its tail, its low-water mark and its reservation, and zeros beyond the zone count. The places in
use count those pledged and held (the model's choice, log 24). Nothing else changes, and with no direct place free only OVERRUN. -/
def Obligations.IdentAndStatusReport : Prop :=
  ∀ (tag level : Byte) (s : State), s.part.listens →
    Answers (.ident tag level) s 0x01 tag .ok
      [0x47, 0x16, 0x40, 0x01, 0x02, 0x00, 0x10, 0x00, 0x01, 0x00, 0x01, 0x00, 0x04, 0x00, 0x00] (s.part.pushed 7) ∧
    ∃ pl, Answers (.status tag level) s 0x02 tag .ok pl (s.part.pushed 7) ∧ pl.length = 116 ∧
      slice pl 0 1 = [match s.part.scu.store with | .scanning => 0x00 | .blank => 0x01 | .mounted => 0x02 | .formatting => 0x03] ∧
      slice pl 1 2 = be 2 s.part.scu.format ∧ slice pl 3 4 = be 4 s.part.sdr.sequence ∧
      (let code (k : WriteCtx) : Byte :=
         match k.state with | .idle => 0x00 | .receiving => 0x01 | .closing => 0x02 | .committing => 0x03 | .ended => 0x04
       slice pl 89 1 = [code s.part.wcu.c0] ∧ slice pl 99 1 = [code s.part.wcu.c1]) ∧
      slice pl 84 2 = be 1 s.part.rqs.queue.length ++ be 1 (activeCount s.part) ∧
      slice pl 86 1 = be 1 s.part.places ∧
      slice pl 87 1 = be 1 (s.part.link.replies.filter (fun r => r.place = .ending .c0 ∨ r.place = .ending .c1)).length ∧
      slice pl 88 1 = be 1 (directInUse s.part) ∧
      slice pl 90 9 = be 2 s.part.wcu.c0.slot ++ be 3 s.part.wcu.c0.received
        ++ be 3 s.part.wcu.c0.programmed ++ be 1 s.part.wcu.c0.credit ∧
      slice pl 100 9 = be 2 s.part.wcu.c1.slot ++ be 3 s.part.wcu.c1.received
        ++ be 3 s.part.wcu.c1.programmed ++ be 1 s.part.wcu.c1.credit ∧
      slice pl 109 1 = [match s.part.pee.state with
        | .idle => 0x00 | .busy => 0x01 | .erasing => 0x02 | .suspending => 0x03 | .suspended => 0x04 | .suspendedBusy => 0x05] ∧
      slice pl 110 2 = be 1 s.part.pee.budget ++ [if s.part.mli.level then 0x01 else 0x00] ∧
      slice pl 114 2 = be 1 s.part.rqs.reserve ++ be 1 s.part.pee.preempt ∧
      (∀ k < 8, ((byteAt pl 112).getLsbD k = true ↔ ∃ r, s.part.link.conds[k]? = some r ∧ r.set = true) ∧
        ((byteAt pl 113).getLsbD k = true ↔ ∃ r, s.part.link.conds[k]? = some r ∧ r.enable = true)) ∧
      (s.part.scu.store = .scanning ∨ s.part.scu.store = .blank → slice pl 7 77 = List.replicate 77 0x00) ∧
      (s.part.scu.store = .mounted ∨ s.part.scu.store = .formatting → s.part.smp.zones.length ≤ 4 →
        slice pl 7 1 = be 1 s.part.smp.zones.length ∧
        (∀ z, s.part.smp.zones.length ≤ z → z < 4 → slice pl (8 + 19 * z) 19 = List.replicate 19 0x00) ∧
        ∀ z r, s.part.smp.zones[z]? = some r → z < 4 →
          (r.tail = none → slice pl (8 + 19 * z + 14) 2 = [0xFF, 0xFF]) ∧
          (∀ t, r.tail = some t → slice pl (8 + 19 * z + 14) 2 = be 2 (s.part.sector t).room) ∧
          slice pl (8 + 19 * z + 16) 3 = be 1 r.lowWater ++ be 2 (reserved z s.part) ∧
          slice pl (8 + 19 * z) 14 = be 2 (countState z .free s.part) ++ be 2 (countState z .owned s.part)
            ++ be 2 (countState z .tail s.part) ++ be 2 (countState z .sealed s.part) ++ be 2 (countState z .stale s.part)
            ++ be 2 (countState z .erasing s.part) ++ be 2 (countState z .bad s.part))

/-- NOTICE replaces every enable, every level and the floor together, or nothing when a value is out of range. -/
def Obligations.NoticeReplacesSettings : Prop :=
  ∀ (tag level floor : Byte) (settings : List (Byte × Byte)) (s : State), s.part.listens → settings.length = 8 →
    s.part.link.conds.length = 8 →
    let valid : Prop := (∀ x ∈ settings, (x.1 = 0 ∨ x.1 = 1) ∧ x.2.toNat ≤ 7) ∧ floor.toNat ≤ 7
    let p := s.part.pushed 24
    (valid → Answers (.notice tag level settings floor) s 0x03 tag .ok []
      { p with link := { p.link with
          conds := List.zipWith (fun r (x : Byte × Byte) => { set := r.set, enable := decide (x.1 = 0x01#8), level := x.2.toNat }) p.link.conds settings
          floor := floor.toNat } }) ∧
    (¬ valid → Answers (.notice tag level settings floor) s 0x03 tag .badField [] p)

/-- CLEAR clears the conditions of its set first and is answered after; when its own reply is dropped OVERRUN is set again. -/
def Obligations.ClearClearsItsSet : Prop :=
  ∀ (tag level conditions : Byte) (s : State), s.part.listens →
    let p := s.part.pushed 8
    Answers (.clear tag level conditions) s 0x04 tag .ok []
      { p with link := { p.link with
          conds := p.link.conds.mapIdx (fun k r => if conditions.getLsbD k then { r with set := false } else r) } }

/-- TUNE sets r and p together, or neither. Its p may start a suspension: in ERASING with budget left, for the oldest waiting
claim that it makes preempting. -/
def Obligations.TuneSetsBoth : Prop :=
  ∀ (tag level r l : Byte) (s : State), s.part.listens →
    let p := s.part.pushed 9
    let newly : Claim → Bool := fun c => preempting l.toNat c && !preempting p.pee.preempt c
    let set : Part := { p with rqs := { p.rqs with reserve := r.toNat }, pee := { p.pee with preempt := l.toNat } }
    (r.toNat ≤ 7 → 1 ≤ l.toNat → l.toNat ≤ 7 →
      (∀ c, p.pee.claims.find? newly = some c → p.pee.state = .erasing → 1 ≤ p.pee.budget →
        Answers (.tune tag level r l) s 0x05 tag .ok []
          { set with pee := { set.pee with state := .suspending, budget := p.pee.budget - 1, cause := some c.age } }) ∧
      (p.pee.claims.find? newly = none ∨ p.pee.state ≠ .erasing ∨ p.pee.budget = 0 →
        Answers (.tune tag level r l) s 0x05 tag .ok [] set)) ∧
    (8 ≤ r.toNat ∨ l.toNat = 0 ∨ 8 ≤ l.toNat → Answers (.tune tag level r l) s 0x05 tag .badField [] p)

/-- ABORT of a WAITING entry: the entry leaves, its ABORTED reply takes its place, and the ABORT's OK follows it. -/
def Obligations.AbortRemovesWaiting : Prop :=
  ∀ (tag level target : Byte) (s : State) (e : Entry), s.part.listens → s.part.ages.Nodup →
    (∀ h ∈ s.part.link.held, h.target ≠ e.age) →
    s.part.rqs.queue.find? (fun e => e.tag = target) = some e → e.active = false →
    ∃ q, exec (.abort tag level target) s = .next { s with part := closeEvent q } ∧
      DirectReply 0x06 tag .ok []
        { s.part.pushed 8 with
          rqs := { s.part.rqs with queue := s.part.rqs.queue.filter (fun d => d.age ≠ e.age) }
          link := { (s.part.pushed 8).link with replies := s.part.link.replies ++
            [{ kind := e.request.kind, tag := e.tag, status := .aborted, notes := 0, payload := [], place := .queued }] } } q

/-- ABORT is answered at once: TOO_LATE for an ACTIVE READ, LIST or DELETE, and for a waiting queued-class reply of the tag that
is no WRITE's; NOT_FOUND when there is neither. -/
def Obligations.AbortAnswersAtOnce : Prop :=
  ∀ (tag level target : Byte) (s : State), s.part.listens →
    let p := s.part.pushed 8
    let found : Prop := ∃ r ∈ s.part.link.replies, r.place = .queued ∧ r.tag = target ∧ r.kind ≠ 0x20
    (∀ e, s.part.rqs.queue.find? (fun e => e.tag = target) = some e → e.active = true →
      ((∃ a b c, e.request = .read a b c) ∨ (∃ a b, e.request = .list a b) ∨ ∃ a, e.request = .delete a) →
      ∃ q, exec (.abort tag level target) s = .next { s with part := closeEvent q } ∧ DirectReply 0x06 tag .tooLate [] p q) ∧
    (s.part.rqs.queue.find? (fun e => e.tag = target) = none → found → Answers (.abort tag level target) s 0x06 tag .tooLate [] p) ∧
    (s.part.rqs.queue.find? (fun e => e.tag = target) = none → ¬ found →
      Answers (.abort tag level target) s 0x06 tag .notFound [] p)

/-- ABORT of an ACTIVE VERIFY, COMPACT or FORMAT is recorded on the entry and holds its direct place, or sets OVERRUN when none is
free. In the midst of a step the step goes on. It ends its target at once, with ABORTED and the figures gathered, when a VERIFY's step
waits, when a COMPACT's own step waits for its READ or it has no step of its own, and when no batch of a FORMAT is granted; the
ABORTs held are then answered OK, after it (the model's choice, log 30). -/
def Obligations.AbortOfLongRequests : Prop :=
  ∀ (tag level target : Byte) (s : State) (e : Entry), s.part.listens →
    s.part.rqs.queue.find? (fun e => e.tag = target) = some e → e.active = true →
    let p := s.part.pushed 8
    let recorded : Rqs := { p.rqs with queue := p.rqs.queue.map (fun d => if d.age = e.age then { d with abortWaits := true } else d) }
    let holding : Part :=
      { p with rqs := recorded, link := { p.link with held := p.link.held ++ [{ tag := tag, target := e.age }] } }
    let taken : Part := if directInUse p < 6 then holding else { overrunSet p with rqs := recorded }
    let goesOn (q : Part) : Prop := exec (.abort tag level target) s = .next { s with part := closeEvent q }
    let without (o : Owner) (q : Part) : Part :=
      { q with pee := { q.pee with claims := q.pee.claims.filter (fun c => c.purpose.owner ≠ o) } }
    (((∃ a, e.request = .verify a) ∧ purposeWaits (.verifyStep e.age) s.part = false) ∨
      ((∃ a b, e.request = .compact a b) ∧ purposeWaits .runnerRead s.part = false ∧
        ∃ j st, s.part.rcu.job = some j ∧ s.part.rcu.step = some st ∧ st.job = some j.age) ∨
      ((∃ a b, e.request = .format a b) ∧ ∃ b, s.part.pee.batch = some b ∧ b.forFormat = true) → goesOn taken) ∧
    (s.part.ages.Nodup →
      (∀ a r, e.request = .verify a → s.part.servingOf e.age = some r → purposeWaits (.verifyStep e.age) s.part = true →
        goesOn (endedPart e .aborted r.notes (be 2 r.slot ++ be 4 r.sequence ++ be 1 r.checked)
          (without (.serving e.age)
            { taken with sdr := { taken.sdr with serving := taken.sdr.serving.filter (fun x => x.age ≠ e.age) } }))) ∧
      (∀ a b j, e.request = .compact a b → s.part.rcu.job = some j → j.age = e.age →
        let ended (base : Part) : Part := endedPart e .aborted j.notes (be 1 j.zone ++ be 1 j.emptied) base
        ((∀ st, s.part.rcu.step = some st → st.job ≠ some j.age) →
          goesOn (ended { taken with rcu := { taken.rcu with job := none } })) ∧
        (∀ st, s.part.rcu.step = some st → st.job = some j.age → purposeWaits .runnerRead s.part = true →
          ∃ q, goesOn q ∧ q.rcu.job = none ∧ q.rcu.step = none ∧ claimWaits .runner q = false ∧ q.rqs = (ended taken).rqs ∧
            q.link = (ended taken).link ∧
            q.sdr.directory = p.sdr.directory.map (fun d => if d.slot = st.slot then { d with relocating := false } else d))) ∧
      (∀ a b f, e.request = .format a b → s.part.scu.runner = some f → f.age = e.age →
        (∀ b, s.part.pee.batch = some b → b.forFormat = false) →
        goesOn (endedPart e .aborted f.notes (be 2 s.part.scu.format)
          (without .scan { taken with scu := { taken.scu with store := .blank, runner := none } }))))

/-- ABANDON, case by case: NO_CONTEXT for no open context or one that is ending. For a RECEIVING or CLOSING context with no
operation granted, and for a COMMITTING one whose commit claim is not raised or not granted, OK and its end at once: ENDED, with an
ABANDONED reply. With an operation granted, OK and ABANDONED as its ending cause. For a commit that is granted, decided or past, OK
and no more. -/
def Obligations.AbandonCases : Prop :=
  ∀ (tag level : Byte) (s : State), s.part.listens →
    (∀ n : Byte, 2 ≤ n.toNat → Answers (.abandon tag level n) s 0x07 tag .noContext [] (s.part.pushed 8)) ∧
    ∀ c : CtxId,
      let n : Byte := BitVec.ofNat 8 c.num
      let k := s.part.ctx c
      let answered (q : Part) : Prop := DirectReply 0x07 tag .ok [] (s.part.pushed 8) q
      let endsNow : Prop := ∃ q r, exec (.abandon tag level n) s = .next { s with part := closeEvent r } ∧ answered q ∧
        EndedWith c .abandoned q r
      ((k.state = .idle ∨ k.state = .ended ∨ k.ending ≠ none) →
        Answers (.abandon tag level n) s 0x07 tag .noContext [] (s.part.pushed 8)) ∧
      ((k.state = .receiving ∨ k.state = .closing) → k.ending = none → claimRuns (.ctx c) s.part = false → endsNow) ∧
      ((k.state = .receiving ∨ k.state = .closing) → k.ending = none → claimRuns (.ctx c) s.part = true →
        ∃ q, exec (.abandon tag level n) s = .next { s with
            part := closeEvent (modCtx c (fun k => { k with ending := some (.withStatus .abandoned) }) q) } ∧ answered q) ∧
      (k.state = .committing → k.ending = none →
        (k.commit = .notReached ∨ k.commit = .waiting ∨ (k.commit = .attempting ∧ purposeWaits (.ctxCommit c) s.part = true)) →
        endsNow) ∧
      (k.state = .committing → k.ending = none →
        (k.commit = .switched ∨ (k.commit = .attempting ∧ purposeWaits (.ctxCommit c) s.part = false)) →
        ∃ q, exec (.abandon tag level n) s = .next { s with part := closeEvent q } ∧ answered q)

/-- RESTART: refused NOT_READY while SCANNING. Otherwise the queue, the replies, the held places and the COMPACT are discarded, no
context stays open but one carried by its granted operation or by the read-back of its commit, which keeps its record but for its
buffers, EMPTY from then on (DEDUCED, log 52), and its own reply, with the two counts, is the one reply; a context that ends gives
up its pending bytes, its reservation and its sector; one that is ending counts as open (DEDUCED, log 19). The directory, the
retiring list, the sequence counter, each sector's zone, erase count, live and retiring bytes and standing as suspect, the queues
and the open batch, the running operation and step, the conditions, the settings and the scan's records stay; a FORMAT stops, at
once or at its batch's completion. Of the waiting claims, those of retiring records, SUSPECT marks, the open batch and the runner
stay with their ages, and so do the read-back of a commit and the claim of a DELETE carried to its decision; those of the contexts
that end, of the other served requests and of a stopped FORMAT are withdrawn, and only the open batch's and first SUSPECT marks are
new. A DELETE not carried leaves its entry without delete pending, and after a failed attempt its head's sector suspect. -/
def Obligations.RestartDiscardsWork : Prop :=
  ∀ (tag level : Byte) (s : State), s.part.listens →
    let p := s.part
    (p.scu.store = .scanning → Answers (.restart tag level) s 0x08 tag .notReady [] (p.pushed 7)) ∧
    (p.scu.store ≠ .scanning → ∃ q, exec (.restart tag level) s = .next { s with part := closeEvent q } ∧
      q.rqs = { p.rqs with queue := [] } ∧ q.link.held = [] ∧ q.rcu.job = none ∧
      (let counts := be 1 p.rqs.queue.length
          ++ be 1 ((if p.wcu.c0.isOpen then 1 else 0) + (if p.wcu.c1.isOpen then 1 else 0))
       q.link.replies = [{ kind := 0x08, tag := tag, status := .ok, notes := 0, payload := counts, place := .direct }]) ∧
      (∀ c, (q.ctx c).state = .idle ∨ (q.ctx c).ending = some .byRestart) ∧
      (let carried (c : CtxId) : Prop := claimRuns (.ctx c) p = true ∨
         ((p.ctx c).state = .committing ∧ purposeWaits (.ctxReadBack c) p = true)
       let gone (c : CtxId) (i : Nat) (n : Nat) : Prop :=
         ((p.ctx c).isOpen = true → ¬ carried c → n = (p.ctx c).pendingIn i) ∧ ((p.ctx c).isOpen = false ∨ carried c → n = 0)
       (∀ c, (p.ctx c).state ≠ .idle → ((p.ctx c).isOpen = true → ¬ carried c) → q.ctx c = WriteCtx.cold) ∧
       (∀ c, (p.ctx c).isOpen = true → carried c →
         q.ctx c = { p.ctx c with ending := some .byRestart, bufX := .cold, bufY := .cold, owned := (q.ctx c).owned } ∧
         (q.ctx c).credit = 2) ∧
       (∀ c i, (p.ctx c).isOpen = true → ¬ carried c → (p.ctx c).owned = some i →
         (∀ j, (p.sector j).owner = some (.ctx c) → j = i) → (q.sector i).owner = none) ∧
       (p.mounted = true → ∀ i, ∃ n m, gone .c0 i n ∧ gone .c1 i m ∧ (q.sector i).pending = (p.sector i).pending - n - m)) ∧
      (∀ r ∈ q.sdr.serving, r.detached = true) ∧
      ((p.sdr.serving.map (·.age)).Nodup → ∀ r ∈ p.sdr.serving,
        (p.carriesDelete r → q.servingOf r.age = some { r with detached := true }) ∧
        (¬ p.carriesDelete r → q.servingOf r.age = none ∧
          (r.kind = .delete → (∀ d, q.entryOf r.slot = some d → d.deletePending = false) ∧
            (0 < r.attempts → r.elem.sector < p.smp.sectors.length → (q.sector r.elem.sector).suspect = true)))) ∧
      (let carried (c : CtxId) : Prop := claimRuns (.ctx c) p = true ∨
         ((p.ctx c).state = .committing ∧ purposeWaits (.ctxReadBack c) p = true)
       ∃ kept new, q.pee.claims = kept ++ new ∧ kept.Sublist p.pee.claims ∧
         (∀ d ∈ new, p.pee.nextAge ≤ d.age ∧ (d.purpose = .reclaimErase ∨ ∃ i, d.purpose = .suspectMark i 1)) ∧
         ∀ d ∈ p.pee.claims, let o := d.purpose.owner
           (∀ m n i, o = .retiring m n ∨ o = .suspect i ∨ o = .reclaim ∨ o = .runner → d ∈ kept) ∧
           (∀ c, o = .ctx c → (p.ctx c).isOpen = true → (d ∈ kept ↔ carried c)) ∧
           ((p.sdr.serving.map (·.age)).Nodup → ∀ r ∈ p.sdr.serving, o = .serving r.age → (d ∈ kept ↔ p.carriesDelete r)) ∧
           (o = .scan → (d ∈ kept ↔ p.scu.runner = none ∨ ∃ b, p.pee.batch = some b ∧ b.forFormat = true))) ∧
      (1 ≤ p.pee.preempt → q.pee.state = p.pee.state ∧ q.pee.budget = p.pee.budget ∧ q.pee.cause = p.pee.cause) ∧
      q.settings = (p.pushed 7).settings ∧
      (∀ (n : Nat) (r : CondRow), p.link.conds[n]? = some r → r.set = true → ∃ t, q.link.conds[n]? = some t ∧ t.set = true) ∧
      (let kept (d : DirEntry) : DirEntry := { d with openCtx := none, deletePending := false }
       q.sdr.directory.map kept = p.sdr.directory.map kept) ∧
      q.sdr.retiring = p.sdr.retiring.map (fun r => { r with waiting := none }) ∧ q.sdr.sequence = p.sdr.sequence ∧
      planOf q = planOf p ∧ q.smp.sectors.length = p.smp.sectors.length ∧
      (∀ i, (q.sector i).zone = (p.sector i).zone ∧ (q.sector i).eraseCount = (p.sector i).eraseCount ∧
        ((p.sector i).suspect = true → (q.sector i).suspect = true) ∧
        (p.mounted = true ∨ (∀ c, (p.ctx c).owned = none) →
          (q.sector i).live = (p.sector i).live ∧ (q.sector i).retiring = (p.sector i).retiring)) ∧
      (∀ i ∈ p.rcu.eraseQueue, i ∈ q.rcu.eraseQueue ∨ ∃ b, q.rcu.openBatch = some b ∧ i ∈ b.sectors) ∧
      (∀ b, p.rcu.openBatch = some b → ∃ t, q.rcu.openBatch = some t ∧ t.zone = b.zone ∧ b.sectors <+: t.sectors ∧
        (t.raised = b.raised → t.window = b.window)) ∧
      (∀ i ∈ p.rcu.evacQueue, i ∈ q.rcu.evacQueue ∨
        ((q.sector i).live = 0 ∧ (q.sector i).pending = 0 ∧ (q.sector i).retiring = 0)) ∧
      q.pee.op = p.pee.op ∧ q.pee.batch = p.pee.batch ∧ q.rcu.step = p.rcu.step ∧
      (q.rcu.hold = p.rcu.hold ∨ q.rcu.hold = none) ∧
      (p.scu.runner = none → q.scu = p.scu) ∧
      (∀ f, p.scu.runner = some f →
        ((∃ b, p.pee.batch = some b ∧ b.forFormat = true) →
          q.scu = { p.scu with runner := some { f with stopped := true } }) ∧
        ((∀ b, p.pee.batch = some b → b.forFormat = false) → q.scu = { p.scu with store := .blank, runner := none })))

/-- DATA is checked in its order: NO_CONTEXT, OUT_OF_ORDER, NO_CREDIT. A refused frame changes nothing but its answer. -/
def Obligations.DataIsChecked : Prop :=
  ∀ (tag level n : Byte) (o : BitVec 24) (bs : List Byte) (s : State), s.part.listens → 1 ≤ bs.length → bs.length ≤ 256 →
    let p := s.part.pushed (11 + bs.length)
    (2 ≤ n.toNat → Answers (.data tag level n o bs) s 0x10 tag .noContext [] p) ∧
    ∀ c : CtxId, n.toNat = c.num →
      let k := s.part.ctx c
      let there : Prop := k.state = .receiving ∧ k.ending = none
      let inOrder : Prop := o.toNat = k.received ∧ o.toNat + bs.length ≤ k.total ∧
        (bs.length = 256 ∨ o.toNat + bs.length = k.total)
      (¬ there → Answers (.data tag level n o bs) s 0x10 tag .noContext [] p) ∧
      (there → ¬ inOrder → Answers (.data tag level n o bs) s 0x10 tag .outOfOrder [] p) ∧
      (there → inOrder → (k.buf k.fillNext).state ≠ .empty → Answers (.data tag level n o bs) s 0x10 tag .noCredit [] p)

/-- DATA that passes fills the context's next buffer, and the context's next step is chosen; no reply is produced. -/
def Obligations.DataFillsBuffer : Prop :=
  ∀ (tag level n : Byte) (o : BitVec 24) (bs : List Byte) (s : State) (c : CtxId), s.part.listens →
    1 ≤ bs.length → bs.length ≤ 256 → n.toNat = c.num →
    (s.part.ctx c).state = .receiving → (s.part.ctx c).ending = none →
    o.toNat = (s.part.ctx c).received → o.toNat + bs.length ≤ (s.part.ctx c).total →
    (bs.length = 256 ∨ o.toNat + bs.length = (s.part.ctx c).total) →
    ((s.part.ctx c).buf (s.part.ctx c).fillNext).state = .empty →
    ∃ q : Part, exec (.data tag level n o bs) s = .next { s with part := closeEvent (chooseStep c q) } ∧
      q = { s.part.pushed (11 + bs.length) with wcu := q.wcu } ∧
      (∀ d, d ≠ c → q.ctx d = s.part.ctx d) ∧
      let k := s.part.ctx c
      (q.ctx c).received = k.received + bs.length ∧ (q.ctx c).fillNext = k.fillNext.other ∧
      (q.ctx c).buf k.fillNext = { state := .filled, bytes := bs, offset := o.toNat, done := 0 } ∧
      (q.ctx c).buf k.fillNext.other = k.buf k.fillNext.other ∧ (q.ctx c).credit + 1 = k.credit ∧
      (q.ctx c).state = .receiving ∧ (q.ctx c).programmed = k.programmed ∧ (q.ctx c).drainNext = k.drainNext

/-! ### Queued requests -/

/-- Each of the seven queued requests is offered for admission with its fields. -/
def Obligations.QueuedRequestsAreOffered : Prop :=
  ∀ (tag level z k c : Byte) (slot : BitVec 16) (n : BitVec 24) (es : List PlanEntry), es.length = 4 →
    Offers (.write tag level slot z k n) (.write slot.toNat z.toNat k.toNat n.toNat) tag level 14 ∧
    Offers (.read tag level slot n c) (.read slot.toNat n.toNat c.toNat) tag level 13 ∧
    Offers (.list tag level slot c) (.list slot.toNat c.toNat) tag level 10 ∧
    Offers (.delete tag level slot) (.delete slot.toNat) tag level 9 ∧
    Offers (.verify tag level slot) (.verify slot.toNat) tag level 9 ∧
    Offers (.compact tag level z c) (.compact z.toNat c.toNat) tag level 9 ∧
    Offers (.format tag level z es) (.format z.toNat (es.map (fun e => (e.sectors.toNat, e.lowWater.toNat)))) tag level 20

/-- Activation passes over a COMPACT, FORMAT or VERIFY while one of them is ACTIVE, and a DELETE or WRITE of a slot whose entry is
relocating or has a delete pending; nothing else. What it does not pass over, validation judges: a WRITE of a slot being
created is refused SLOT_BUSY, a DELETE of an absent slot NO_SLOT, and any request while FORMATTING NOT_READY. -/
def Obligations.EligibilityTable : Prop :=
  ∀ (p : Part) (e : Entry), e.active = false →
    let longActive : Prop := ∃ d ∈ p.rqs.queue, d.active = true ∧ d.request.long = true
    let held (slot : Nat) : Prop := ∃ d, p.entryOf slot = some d ∧ (d.relocating = true ∨ d.deletePending = true)
    (∀ z n, e.request = .compact z n → (eligible p e = true ↔ ¬ longActive)) ∧
    (∀ n pl, e.request = .format n pl → (eligible p e = true ↔ ¬ longActive)) ∧
    (∀ s, e.request = .verify s → (eligible p e = true ↔ ¬ longActive)) ∧
    (∀ s, e.request = .delete s → (eligible p e = true ↔ ¬ held s)) ∧
    (∀ s z k n, e.request = .write s z k n → (eligible p e = true ↔ ¬ held s)) ∧
    (∀ s o n, e.request = .read s o n → eligible p e = true) ∧
    (∀ a m, e.request = .list a m → eligible p e = true) ∧
    (∀ r : Request, r.long = true ↔ (∃ z n, r = .compact z n) ∨ (∃ n pl, r = .format n pl) ∨ ∃ s, r = .verify s) ∧
    (∀ s z k n, p.entryOf s = none →
      (e.request = .delete s → eligible p e = true) ∧ (e.request = .write s z k n → eligible p e = true)) ∧
    ((∃ d ∈ p.rqs.queue, d.active = true ∧ ∃ n pl, d.request = .format n pl) →
      (∃ z n, e.request = .compact z n) ∨ (∃ s, e.request = .verify s) → eligible p e = false) ∧
    (∀ s z k n, p.entryOf s = none → (∃ c, (p.ctx c).isOpen = true ∧ (p.ctx c).slot = s) →
      (∀ x ∈ checks (.write s z k n) p, x.2.code.toNat < 0x35 → x.1 = true) → validate (.write s z k n) p = some .slotBusy) ∧
    (∀ s, p.entryOf s = none → p.mounted = true → 1 ≤ s → s ≤ 4095 → validate (.delete s) p = some .noSlot) ∧
    (∀ r, p.scu.store = .formatting → validate r p = some .notReady)

/-- Activation chooses the eligible entry of highest level, the oldest at equal level, in a queue in age order, and stops at four
ACTIVE entries. The entry is validated at once. One that fails leaves the queue, and its reply, of its kind and tag, with the status
reported, no notes and no payload, is in its queued place (an ABORT that waits on it, which a WAITING entry has none of, is answered
after it: the model's choice, log 30). One that passes becomes ACTIVE and is handed to its owner. -/
def Obligations.ActivationOrder : Prop :=
  (∀ p : Part, (p.ages).Pairwise (· < ·) →
    (4 ≤ activeCount p → activationReact p = none) ∧
    ((∀ e ∈ p.rqs.queue, eligible p e = false) → activationReact p = none) ∧
    (activeCount p < 4 → (∃ e ∈ p.rqs.queue, eligible p e = true) →
      ∃ e ∈ p.rqs.queue, eligible p e = true ∧ activationReact p = some (activate e p) ∧
        ∀ d ∈ p.rqs.queue, eligible p d = true → d.level < e.level ∨ (d.level = e.level ∧ e.age ≤ d.age))) ∧
  (∀ (p : Part) (e : Entry),
    (∀ st, validate e.request p = some st → p.queueEntry e.age = some e → activate e p = endedPart e st 0 [] p) ∧
    (∀ st, validate e.request p = some st → p.queueEntry e.age = some e → (∀ h ∈ p.link.held, h.target ≠ e.age) →
      activate e p = { p with
        rqs := { p.rqs with queue := p.rqs.queue.filter (fun d => d.age ≠ e.age) }
        link := { p.link with replies := p.link.replies ++
          [{ kind := e.request.kind, tag := e.tag, status := st, notes := 0, payload := [], place := .queued }] } }) ∧
    (validate e.request p = none → activate e p = handOver e { p with rqs := { p.rqs with
      queue := p.rqs.queue.map (fun d => if d.age = e.age then { d with active := true } else d) } }))

/-- Validation answers with the lowest code of the checks that fail, and the checks of each kind, with their codes, are those of
the table. The named figures are those of R52 (available and reserved sectors), R138 (the class checks) and R37 (open contexts that
write absent slots). -/
def Obligations.LowestFailingCode : Prop :=
  (∀ (r : Request) (p : Part),
    (validate r p = none ↔ ∀ c ∈ checks r p, c.1 = true) ∧
    (∀ st, validate r p = some st →
      (false, st) ∈ checks r p ∧ ∀ c ∈ checks r p, c.1 = false → st.code.toNat ≤ c.2.code.toNat)) ∧
  (∀ p : Part,
    let notMounted : Prop × Status := (p.mounted = false, .notReady)
    let outside (s : Nat) : Prop := s < 1 ∨ 4095 < s
    let opened (s : Nat) : Prop := ∃ c, (p.ctx c).isOpen = true ∧ (p.ctx c).slot = s
    (∀ s z k n, FirstFailing [notMounted,
      (outside s ∨ p.smp.zones.length ≤ z ∨ k < 1 ∨ 3 < k ∨ 262144 < n ∨ (∃ d, p.entryOf s = some d ∧ d.zone ≠ z), .badField),
      (slotClassCheck s p = .refused, .protected_),
      (opened s ∨ (∃ d, p.entryOf s = some d ∧ d.deletePending = true), .slotBusy),
      (∀ c, (p.ctx c).state ≠ .idle, .noContext),
      (p.entryOf s = none ∧ 256 ≤ p.sdr.directory.length + openAbsent p, .directoryFull),
      (available z p < reserved z p + ((n + 4031) / 4032 + 1) + 1, .noSpace),
      (0xFFFFFFFF ≤ p.sdr.sequence, .sequenceExhausted)] (validate (.write s z k n) p)) ∧
    (∀ s o c, FirstFailing [notMounted, (outside s ∨ c < 1 ∨ 240 < c ∨ 262144 < o, .badField), (p.entryOf s = none, .noSlot)]
      (validate (.read s o c) p)) ∧
    (∀ a m, FirstFailing [notMounted, (4095 < a ∨ m < 1 ∨ 20 < m, .badField)] (validate (.list a m) p)) ∧
    (∀ s, FirstFailing [notMounted, (outside s, .badField), (p.entryOf s = none, .noSlot),
      (slotClassCheck s p = .refused, .protected_),
      (∃ d, p.entryOf s = some d ∧ (opened s ∨ d.deletePending = true ∨ (∃ r ∈ p.sdr.retiring, r.slot = s) ∨ d.lingering ≠ []),
        .slotBusy)] (validate (.delete s) p)) ∧
    (∀ s, FirstFailing [notMounted, (outside s, .badField), (p.entryOf s = none, .noSlot)] (validate (.verify s) p)) ∧
    (∀ z n, FirstFailing [notMounted, (p.smp.zones.length ≤ z ∨ n < 1 ∨ 8 < n, .badField)] (validate (.compact z n) p)) ∧
    (∀ n plan, FirstFailing [(p.scu.store = .scanning ∨ p.scu.store = .formatting, .notReady),
      (n < 1 ∨ 4 < n ∨ ¬ (1 ≤ (plan.take n).length ∧ (plan.take n).length ≤ 4 ∧
        (∀ e ∈ plan.take n, 8 ≤ e.1 ∧ e.1 ≤ 512 ∧ 1 ≤ e.2 ∧ e.2 ≤ 32) ∧ ((plan.take n).map (·.1)).sum = 512), .badField),
      (formatClassCheck p = .refused, .protected_),
      (∃ c, (p.ctx c).isOpen = true, .slotBusy)] (validate (.format n plan) p)))

/-- The class check, row by row; a request whose class check is refused is refused PROTECTED, or by a check of a lower code. -/
def Obligations.ClassCheckTable : Prop :=
  ∀ (p : Part) (slot : Nat),
    (p.entryOf slot = none → slotClassCheck slot p = .allowed) ∧
    (∀ e, p.entryOf slot = some e →
      (e.cls = .opened → slotClassCheck slot p = .allowed) ∧
      (e.cls = .guarded → p.mli.level = false → slotClassCheck slot p = .refused) ∧
      (e.cls = .guarded → p.mli.level = true → slotClassCheck slot p = .byMaint) ∧
      (e.cls = .fixed → slotClassCheck slot p = .refused)) ∧
    ((∀ e ∈ p.sdr.directory, e.cls = .opened) → formatClassCheck p = .allowed) ∧
    ((∃ e ∈ p.sdr.directory, e.cls ≠ .opened) → p.mli.level = false → formatClassCheck p = .refused) ∧
    ((∃ e ∈ p.sdr.directory, e.cls ≠ .opened) → p.mli.level = true → formatClassCheck p = .byMaint) ∧
    (∀ z k n, requestClass (.write slot z k n) p = slotClassCheck slot p) ∧
    requestClass (.delete slot) p = slotClassCheck slot p ∧
    (∀ n pl, requestClass (.format n pl) p = formatClassCheck p) ∧
    (∀ r, requestClass r p = .refused → ∃ st, validate r p = some st ∧ st.code.toNat ≤ 0x34) ∧
    (∀ r, requestClass r p = .refused → (∀ c ∈ checks r p, c.2.code.toNat < 0x34 → c.1 = true) →
      validate r p = some .protected_)

/-- A WRITE handed over opens the lower-numbered IDLE context with the next sequence, its class and its reservation, RECEIVING, or
CLOSING for no bytes; its opening reply takes its entry's place, and the slot's entry names the context. A write of no bytes then
chooses its first step, which starts its head; one of one byte or more has none to choose. -/
def Obligations.WriteOpensContext : Prop :=
  ∀ (p : Part) (e : Entry) (s z k n : Nat) (c : CtxId), e.request = .write s z k n → idleCtx p = some c →
    p.queueEntry e.age = some e → (∀ h ∈ p.link.held, h.target ≠ e.age) →
    ((p.ctx .c0).state = .idle → c = .c0) ∧
    ∃ q, handOver e p = chooseStep c q ∧ (1 ≤ n → handOver e p = q) ∧
    (n = 0 → claimOutstanding (.ctx c) p = false → isWaiting c p = false → q.chooses c ∧ (q.ctx c).current = none) ∧
    (q.ctx c).state = (if n = 0 then .closing else .receiving) ∧
    (q.ctx c).slot = s ∧ (q.ctx c).zone = z ∧ (q.ctx c).total = n ∧
    (∀ l : SlotClass, l.code.toNat = k → (q.ctx c).cls = l) ∧
    (q.ctx c).sequence = p.sdr.sequence ∧ q.sdr.sequence = p.sdr.sequence + 1 ∧
    (q.ctx c).reservation = (n + 4031) / 4032 + 1 ∧ (q.ctx c).received = 0 ∧ (q.ctx c).programmed = 0 ∧ (q.ctx c).credit = 2 ∧
    (q.ctx c).tag = e.tag ∧ (q.ctx c).level = e.level ∧ (q.ctx c).owned = none ∧ (q.ctx c).written = [] ∧
    ((q.ctx c).maintRequired = true ↔ slotClassCheck s p = .byMaint) ∧
    (∀ d, p.entryOf s = some d → q.entryOf s = some { d with openCtx := some c }) ∧
    (∀ t, t ≠ s → q.entryOf t = p.entryOf t) ∧
    q.rqs.queue = p.rqs.queue.filter (fun d => d.age ≠ e.age) ∧
    (let given := be 1 c.num ++ be 1 2
     q.link.replies = p.link.replies ++
      [{ kind := 0x20, tag := e.tag, status := .ok, notes := notesOf (slotClassCheck s p), payload := given, place := .queued }]) ∧
    (∀ d, d ≠ c → q.ctx d = p.ctx d) ∧ q.pee = p.pee ∧ q.smp = p.smp

/-- The runs of a READ name, in order, exactly the wanted bytes of the slot: what they read from the array is that piece of the
extents' data. -/
def Obligations.ReadRunsGiveTheSlotBytes : Prop :=
  ∀ (m : Memory) (es : List Elem) (o hi : Nat), Memory.wf m = true → o ≤ hi → hi ≤ (es.map (·.length)).sum →
    readRunsOf m (readRuns o hi 0 es)
      = ((es.flatMap (fun e => m.readBytes (e.sector * 4096 + e.offset + 32) e.length)).take hi).drop o ∧
    ((readRuns o hi 0 es).map (·.length)).sum = hi - o ∧ (readRuns o hi 0 es).length ≤ es.length

/-- A LIST is answered from the directory: the entries above its slot id in directory order, up to its count, with MORE when one
is left. -/
def Obligations.ListIsAnswered : Prop :=
  ∀ (p : Part) (e : Entry) (a m : Nat), p.queueEntry e.age = some e → e.request = .list a m →
    (∀ h ∈ p.link.held, h.target ≠ e.age) →
    let above := p.sdr.directory.filter (fun d => a < d.slot)
    let notes : Byte := if m < above.length then 0x40 else 0
    let given := be 1 (above.take m).length ++ (above.take m).flatMap (fun d =>
      be 2 d.slot ++ be 1 d.zone ++ [d.cls.code] ++ be 3 d.length ++ be 4 d.sequence)
    handOver e p = { p with
      rqs := { p.rqs with queue := p.rqs.queue.filter (fun d => d.age ≠ e.age) }
      link := { p.link with replies := p.link.replies ++
        [{ kind := 0x22, tag := e.tag, status := .ok, notes := notes, payload := given, place := .queued }] } }

/-- A FORMAT handed over: the store is FORMATTING under its next number, the directory and the retiring list are empty and the
counter 1, the queues and the open batch are emptied, the new plan is the zone table, and every sector that is not BAD and not
held is STALE with all counts 0. The waiting claims of the retiring records and of the open batch are withdrawn, and the end of
an attempt already granted is discarded. A served request whose claim is not granted ends with NO_SLOT at that event (the order
of these replies is the model's choice, log 42); one whose claim is granted keeps its record, marked so that it ends with
NO_SLOT at the completion (ServedWorkEnds). That a DELETE ended so after a failed attempt makes no sector suspect and its reply
gains no MEDIA_EVENT (log 43), and that a READ's reply carries no SHORTENED (log 49), is the model's choice. From a BLANK store
found at a scan, the sectors take erase count, suspect field and BAD from the scan's records; from any other store they keep the
table's. That a runner without a step holds no sector, and that the two kinds of BLANK are told apart by whether a zone table
stands, are DEDUCED (log 35). Then, with no batch and no step under way, the runner takes its next batch: from its position the
lowest sectors that are not BAD, of one zone, up to 8. With none left the FORMAT ends OK in a MOUNTED store; with an ABORT
waiting it ends ABORTED, and after a RESTART without a reply, in a BLANK one (a FORMAT whose last batch is complete ends OK
under an ABORT: DEDUCED, log 17; BLANK under a RESTART: DEDUCED, log 18). The replies of the ABORTs that wait on the FORMAT
follow its own (the model's choice, log 30). -/
def Obligations.FormatRuns : Prop :=
  (∀ (p : Part) (e : Entry) (n : Nat) (plan : List (Nat × Nat)), e.request = .format n plan →
    let q := handOver e p
    let scanned : Prop := p.scu.store = .blank ∧ p.smp.zones = []
    q.scu.store = .formatting ∧
    q.scu.format = (if p.scu.format = 65535 ∨ p.scu.format = 0 then 1 else p.scu.format + 1) ∧
    q.sdr.directory = [] ∧ q.sdr.retiring = [] ∧ q.sdr.sequence = 1 ∧
    q.rcu.eraseQueue = [] ∧ q.rcu.openBatch = none ∧ q.rcu.evacQueue = [] ∧ q.rcu.hold = none ∧
    planOf q = plan.take n ∧ (∀ z ∈ q.smp.zones, z.tail = none ∧ z.waiting = []) ∧
    q.scu.runner = some { position := 0, level := e.level, age := e.age, notes := notesOf (formatClassCheck p), stopped := false } ∧
    (p.rcu.step = none → q.rcu.owned = none) ∧
    (∀ r ∈ p.sdr.retiring, claimWaits (.retiring r.slot r.sequence) q = false) ∧ claimWaits .reclaim q = false ∧
    (∀ s m i o res, writeEnded (.obsolete s m) i o res q = q) ∧
    p.link.replies <+: q.link.replies ∧
    ((p.sdr.serving.map (·.age)).Nodup → ∀ v ∈ p.sdr.serving,
      (claimRuns (.serving v.age) p = true →
        q.servingOf v.age = some { v with gone := true } ∧ q.queueEntry v.age = p.queueEntry v.age) ∧
      (claimRuns (.serving v.age) p = false → EndedNoSlot v p q)) ∧
    (¬ scanned → ∀ i s, p.smp.sectors[i]? = some s →
      (s.state = .bad → (q.sector i).state = .bad) ∧
      (s.state ≠ .bad → (s.owner ≠ some .runner ∨ p.rcu.step = none) → i ∉ batchSectors p →
        (q.sector i).state = .stale ∧ (q.sector i).live = 0 ∧ (q.sector i).pending = 0 ∧ (q.sector i).retiring = 0 ∧
        (q.sector i).eraseCount = s.eraseCount ∧ (q.sector i).suspect = s.suspect)) ∧
    (scanned → ∀ i r, p.scu.records[i]? = some r →
      let t := q.sector i
      let headed (r : ScanRecord) : Prop := r.cls = .walked ∨ r.cls = .bad
      t.live = 0 ∧ t.pending = 0 ∧ t.retiring = 0 ∧ t.owner = none ∧ t.suspect = r.suspect ∧
      t.zone = zoneOfSector (plan.take n) i ∧
      (r.cls = .bad → t.state = .bad) ∧ (r.cls ≠ .bad → t.state = .stale) ∧
      (headed r → t.eraseCount = r.eraseCount) ∧
      (¬ headed r → (∀ x ∈ p.scu.records, headed x → x.eraseCount ≤ t.eraseCount) ∧
        (t.eraseCount = 0 ∨ ∃ x ∈ p.scu.records, headed x ∧ x.eraseCount = t.eraseCount)))) ∧
  (∀ (p : Part) (f : FormatRun), p.scu.runner = some f →
    let rests : Prop := claimOutstanding .scan p = false ∧ p.pee.batch = none ∧ p.rcu.step = none
    let left (i : Nat) : Prop := i < p.smp.sectors.length ∧ f.position ≤ i ∧ (p.sector i).state ≠ .bad
    let stops (q : Part) : Prop := q.scu = { p.scu with store := .blank, runner := none } ∧ claimWaits .scan q = false ∧
      q.smp = p.smp ∧ q.sdr = p.sdr
    (¬ rests → formatReact p = none) ∧
    (rests → f.stopped = true → ∃ q, formatReact p = some q ∧ stops q ∧ q.link = p.link ∧ q.rqs = p.rqs) ∧
    (rests → f.stopped = false → (∀ i, ¬ left i) → ∀ e, p.queueEntry f.age = some e → ∃ q, formatReact p = some q ∧
      q.scu = { p.scu with store := .mounted, records := [], runner := none } ∧ q.smp.sectors = p.smp.sectors ∧
      q.rqs = (endedPart e .ok f.notes (be 2 p.scu.format) p).rqs ∧
      q.link.replies = (endedPart e .ok f.notes (be 2 p.scu.format) p).link.replies ∧
      (∀ r, p.link.conds[0]? = some r → ∃ t, q.link.conds[0]? = some t ∧ t.set = true) ∧
      (∀ z r, q.zone z = some r → (r.spareInUse = true ↔ countState z .free q = 0))) ∧
    (rests → f.stopped = false → (∃ i, left i) →
      (∀ e, p.queueEntry f.age = some e → e.abortWaits = true → ∃ q, formatReact p = some q ∧ stops q ∧
        q.rqs = (endedPart e .aborted f.notes (be 2 p.scu.format) p).rqs ∧
        q.link = (endedPart e .aborted f.notes (be 2 p.scu.format) p).link) ∧
      ((∀ e, p.queueEntry f.age = some e → e.abortWaits = false) → ∃ q first ss, formatReact p = some q ∧
        Raised .formatErase .erase f.level (.sectors (first :: ss)) p q ∧
        left first ∧ (∀ i, left i → first ≤ i) ∧ (first :: ss).Pairwise (· < ·) ∧ (first :: ss).length ≤ 8 ∧
        (∀ i ∈ ss, left i ∧ (p.sector i).zone = (p.sector first).zone) ∧
        (∀ i, left i → (p.sector i).zone = (p.sector first).zone → i ∉ first :: ss →
          (first :: ss).length = 8 ∧ ∀ j ∈ first :: ss, j < i))))

/-- The switch of a committed generation: the slot's entry is created, or its class, length, sequence and extent list are replaced
whole and its other fields kept; the other slots keep their entries, and a directory in ascending slot id stays so. Without a
generation before it the context ends with OK at the switch; with one it stays COMMITTING, its commit made, and no reply of it is
given; after a RESTART it is IDLE and no reply of it is given. The generation superseded is the last record of the retiring list, at
the WRITE's level, awaited by the context, or by none after a RESTART. Its first OBSOLETE claim is raised on its head, or, while a
relocation step of that head runs, deferred: it is raised at that step's end, on the new copy, whose space is then retiring bytes,
where the step closed it, and on the head itself where it did not. -/
def Obligations.CommitSwitchesEntry : Prop :=
  (∀ (p : Part) (c : CtxId),
    let k := p.ctx c
    let q := commitSwitch c p
    let elems := k.written.map (fun w => ({ sector := w.sector, offset := w.offset, length := w.length, copy := 0 } : Elem))
    (p.ascending → q.ascending) ∧
    (∀ t, t ≠ k.slot → q.entryOf t = p.entryOf t) ∧
    (let made (m : Part) : Prop := m.ctx c = { k with commit := .switched }
     let silent : Prop := ∀ r ∈ q.link.replies, r.place = .ending c → r ∈ p.link.replies
     (k.ending ≠ some .byRestart → p.entryOf k.slot = none → ∃ m, made m ∧ m.link.replies = p.link.replies ∧ EndedWith c .ok m q) ∧
     (k.ending ≠ some .byRestart → ∀ e, p.entryOf k.slot = some e → e.extents ≠ [] → made q ∧ silent) ∧
     (k.ending = some .byRestart → silent ∧ ∃ m, made m ∧ EndedSilently c m q)) ∧
    (p.entryOf k.slot = none → ∃ d, q.entryOf k.slot = some d ∧ d.zone = k.zone ∧ d.cls = k.cls ∧
      d.length = k.total ∧ d.sequence = k.sequence ∧ d.extents = elems ∧ d.deletePending = false ∧ d.relocating = false ∧
      d.lingering = [] ∧ d.openCtx = none ∧ q.sdr.retiring = p.sdr.retiring) ∧
    (∀ e, p.entryOf k.slot = some e → ∃ d, q.entryOf k.slot = some d ∧ d.zone = e.zone ∧ d.cls = k.cls ∧
      d.length = k.total ∧ d.sequence = k.sequence ∧ d.extents = elems ∧ d.deletePending = e.deletePending ∧
      d.relocating = e.relocating ∧ d.lingering = e.lingering ∧
      (k.ending ≠ some .byRestart → d.openCtx = e.openCtx) ∧
      (e.extents ≠ [] → ∃ r ∈ q.sdr.retiring, r.slot = k.slot ∧ r.sequence = e.sequence ∧ r.extents = e.extents ∧ r.superseded = true) ∧
      ∀ h es, e.extents = h :: es → p.retiringOf k.slot e.sequence = none →
        let moves : Prop := e.relocating = true ∧
          ∃ st, p.rcu.step = some st ∧ st.slot = k.slot ∧ st.sequence = e.sequence ∧ st.index = 0
        let record (attempts : Nat) (deferred : Bool) : Retiring :=
          { slot := k.slot, sequence := e.sequence, extents := e.extents, head := h, superseded := true, level := k.level,
            attempts := attempts, waiting := if k.ending = some .byRestart then none else some c, deferred := deferred, extra := none }
        (¬ moves → q.sdr.retiring = p.sdr.retiring ++ [record 1 false] ∧
          Claimed (.obsolete k.slot e.sequence) .mark k.level (.bytes h.sector (h.offset + 24) [0x00]) p q) ∧
        (moves → q.sdr.retiring = p.sdr.retiring ++ [record 0 true] ∧
          ∀ d ∈ q.pee.claims, d.purpose = .obsolete k.slot e.sequence → d ∈ p.pee.claims))) ∧
  (∀ (p : Part) (st : Step) (r : Retiring) (i o : Nat) (bs : List Byte),
    p.rcu.step = some st → p.retiringOf st.slot st.sequence = some r → r.deferred = true →
    let n := st.elem.length
    let copy : Elem := { sector := st.newSector, offset := st.newOffset, length := n, copy := st.elem.copy + 1 }
    let marks (h : Elem) (q : Part) : Prop :=
      Claimed (.obsolete st.slot st.sequence) .mark r.level (.bytes h.sector (h.offset + 24) [0x00]) p q
    (∀ ok, ok = true ∨ 2 ≤ st.attempts → let q := writeEnded .runnerDiscard i o { ok := ok, good := bs } p
      marks copy q ∧
      q.retiringOf st.slot st.sequence =
        some { r with head := copy, extra := some (st.newSector, space n), deferred := false, attempts := r.attempts + 1 } ∧
      (p.mounted = true → ∀ j < p.smp.sectors.length,
        (q.sector j).retiring = (p.sector j).retiring + (if j = st.newSector then space n else 0))) ∧
    (∀ u q, (u = .runnerFirst ∨ u = .runnerData ∨ u = .runnerClose) ∧ q = writeEnded u i o { ok := false, good := bs } p ∨
        q = endStep false p →
      marks r.head q ∧ q.retiringOf st.slot st.sequence = some { r with deferred := false, attempts := r.attempts + 1 }))

/-! ### The pins and the supply -/

/-- A cold start gives every block its cold values, whatever the part held, and its scan reads sector 0; the pin keeps its level.
The class of an IDLE context is OPEN, the model's choice (log 34). The machine after reset meets the invariants: its part is that of
a cold start with the MAINT pin released (DEDUCED, log 16), its array is blank (the model's choice, log 4), no command waits. -/
def Obligations.ColdStartValues : Prop :=
  (∀ (stuck : List Byte) (residue : List (Nat × Byte)) (s : State),
    ∃ t, exec (.coldStart stuck residue) s = .next t ∧ t.pending = s.pending ∧
      let p := t.part
      p.run = .running ∧ p.link.replies = [] ∧ p.link.held = [] ∧ p.link.floor = 0 ∧
      p.link.conds = List.replicate 8 { set := false, enable := false, level := 0 } ∧
      p.rqs.queue = [] ∧ p.rqs.reserve = 2 ∧
      p.sdr.directory = [] ∧ p.sdr.retiring = [] ∧ p.sdr.serving = [] ∧ p.sdr.sequence = 1 ∧
      (∀ c, let none_ : Buffer := { state := .empty, bytes := [], offset := 0, done := 0 }
        p.ctx c =
          { state := .idle, slot := 0, zone := 0, cls := .opened, sequence := 0, total := 0, received := 0, programmed := 0,
            current := none, written := [], owned := none, reservation := 0, failures := 0, maintRequired := false, tag := 0,
            level := 0, ending := none, notes := 0, commit := .notReached, attempts := 0, bufX := none_, bufY := none_,
            fillNext := .x, drainNext := .x }) ∧
      p.rcu = { eraseQueue := [], openBatch := none, evacQueue := [], step := none, hold := none, job := none, lastKind := none,
                owned := none, stopAtEnd := false } ∧
      p.pee.preempt = 4 ∧ p.pee.budget = 8 ∧ p.pee.batch = none ∧ p.pee.claims = [] ∧ p.pee.state = .busy ∧
      (∃ a, p.pee.op = some { age := a, purpose := .scanRead 0, kind := .read, level := 0,
                              target := .runs [{ sector := 0, offset := 0, length := 4096 }] }) ∧
      p.scu = { store := .scanning, format := 0, candidates := [], records := [], highest := 0, runner := none } ∧
      p.mli = { pin := s.part.mli.pin, level := false, timer := if s.part.mli.pin then some 0 else none } ∧
      (s.part.mli.pin = false → s.part.link.transaction = .none → p = State.reset.part)) ∧
  Memory.wf State.reset.array = true ∧ State.reset.part.LinkInv ∧ State.reset.pending = [] ∧
  State.reset.part.run = .running ∧ State.reset.part.mli = { pin := false, level := false, timer := none } ∧
  (∀ a, Memory.read State.reset.array a = 0xFF)

/-- A cold start, an assertion of RESET or a loss of power changes no byte outside the work in progress (of a batch, the sectors of
its erase phase, or the one header or BAD mark being written); the target of a running PROGRAM or MARK with no batch in progress is
torn where its pre-check passes (log 56): bits to clear are cleared but for the ones that stayed, no other changes. Otherwise it is
unchanged. -/
def Obligations.CutTouchesOnlyWorkInFlight : Prop :=
  ∀ (stuck : List Byte) (residue : List (Nat × Byte)) (i : Instr) (s t : State),
    (i = .coldStart stuck residue ∨ i = .resetAsserted stuck residue ∨ i = .lossOfPower stuck residue) →
    s.part.run = .running → Memory.wf s.array = true → exec i s = .next t →
    (∀ a, ¬ s.part.inFlight a → Memory.read t.array a = Memory.read s.array a) ∧
    (s.part.pee.batch = none → ∀ c n o bs, s.part.pee.op = some c → c.target = .bytes n o bs → Inside n o bs.length →
      ProgrammedBytes s.array t.array n o bs stuck) ∧
    (s.part.pee.batch = none → (∀ c n o bs, s.part.pee.op = some c → c.target ≠ .bytes n o bs) → t.array = s.array)

/-- An assertion of RESET and a loss of power stop a running part: it takes no transaction, ATTN is deasserted, a transaction in
progress is lost. That every block but the link keeps its state until the cold start is the model's choice (log 14). -/
def Obligations.PartStopsAtResetAndLossOfPower : Prop :=
  ∀ (stuck : List Byte) (residue : List (Nat × Byte)) (s : State), s.part.run = .running →
    ∃ t u, exec (.resetAsserted stuck residue) s = .next t ∧ exec (.lossOfPower stuck residue) s = .next u ∧
      t.part.run = .inReset ∧ u.part.run = .unpowered ∧ t.pending = s.pending ∧ u.pending = s.pending ∧
      attn t.part = false ∧ attn u.part = false ∧ misoHighImpedance t.part = true ∧
      ¬ t.part.listens ∧ ¬ u.part.listens ∧ u.array = t.array ∧
      (∀ b r, s.part.link.transaction = .active b r → t.part.link.transaction = .lost ∧ u.part.link.transaction = .lost) ∧
      t.part = { s.part with run := .inReset, link := t.part.link } ∧ u.part = { s.part with run := .unpowered, link := u.part.link }

/-- The pin and the debounce timer: a change that leaves the pin differing from the level starts the timer from the beginning, one
that returns it to the level stops it; the level does not change. -/
def Obligations.MaintPinDrivesTimer : Prop :=
  ∀ (b : Bool) (s : State), s.part.run = .running → b ≠ s.part.mli.pin →
    (b ≠ s.part.mli.level → exec (.maintPinChange b) s = .next { s with part := { s.part with
      mli := { pin := b, level := s.part.mli.level, timer := some 0 } } }) ∧
    (b = s.part.mli.level → exec (.maintPinChange b) s = .next { s with part := { s.part with
      mli := { pin := b, level := s.part.mli.level, timer := none } } })

/-- The expiry of the debounce timer: the level takes the pin's value, the timer stops, and MAINT is set whatever its enable. -/
def Obligations.DebounceExpirySettlesLevel : Prop :=
  ∀ (n : Nat) (s : State), s.part.run = .running → s.part.mli.timer = some n →
    exec .debounceExpiry s = .next { s with part := { s.part with
      mli := { pin := s.part.mli.pin, level := s.part.mli.pin, timer := none }
      link := { s.part.link with conds := s.part.link.conds.modify 7 (fun r => { r with set := true }) } } }

/-! ### The engine and the array -/

/-- The close of an event, and the grant rule. After an event's own effect the blocks react, one reaction at a time, each the first
that has something to do of: the waiting takers, a commit that waited, the spare's return, the COMPACT job, the runner giving its
sector up, activation, the FORMAT runner, the compaction runner (this order is the model's choice, log 7; activation at every
event's close is DEDUCED, log 20, but the model's choice where a DELETE detached by RESTART removes its slot's entry, log 55), until
none has, or their bound is met (the bound is the model's, log 7); then the ERASE claim follows its takers, and the engine grants,
once (DEDUCED, log 6). It grants a claim of the list than which no other goes before, by level, then READ, MARK, PROGRAM, ERASE,
then age; in IDLE the claim granted leaves the set and its operation begins, and with none to grant, or an engine that is neither
IDLE nor SUSPENDED, nothing changes. -/
def Obligations.GrantOrder : Prop :=
  (∀ p : Part, closeEvent p = grantNow (followTakers (settle settleBound p)) ∧
    react p = [takersReact, commitReact, spareReact, jobReact, restReact, activationReact, formatReact, runnerReact].findSome?
      (fun f => f p)) ∧
  (∀ (n : Nat) (p : Part), ∃ k ≤ n, ∃ f : Nat → Part, f 0 = p ∧ (∀ i < k, react (f i) = some (f (i + 1))) ∧
    settle n p = f k ∧ (k < n → react (f k) = none)) ∧
  (∀ (l : List Claim), (bestClaim l = none ↔ l = []) ∧ ∀ c, bestClaim l = some c → c ∈ l ∧ ∀ d ∈ l, d.age ≠ c.age →
    d.level < c.level ∨ (d.level = c.level ∧
      (c.kind.rank < d.kind.rank ∨ (c.kind.rank = d.kind.rank ∧ c.age < d.age)))) ∧
  (OpKind.rank .read < OpKind.rank .mark ∧ OpKind.rank .mark < OpKind.rank .program ∧ OpKind.rank .program < OpKind.rank .erase) ∧
  (∀ (p : Part) (c : Claim), p.pee.state = .idle → bestClaim (p.pee.claims.filter (clearOfBatch p)) = some c →
    ((∃ rs, c.target = .runs rs) ∨ ∃ i o bs, c.target = .bytes i o bs) →
    (grantNow p).pee.state = .busy ∧ (grantNow p).pee.op = some c ∧
      (grantNow p).pee.claims = p.pee.claims.filter (fun d => d.age ≠ c.age)) ∧
  (∀ p : Part, (p.pee.state = .idle ∧ p.pee.claims.filter (clearOfBatch p) = []) ∨
      (p.pee.state ≠ .idle ∧ p.pee.state ≠ .suspended) → grantNow p = p)

/-- The grant of an ERASE, of the open batch or of a FORMAT's batch. Its sectors, in ascending number, are the batch in progress and
ERASING, each with its header, of the store's format number and plan (a FORMAT's are the new ones), BAD for a suspect sector, and its
erase count one higher, saturating; the budget is 8, the batch's time 0. The claim leaves the claim set, and so does a SUSPECT mark's
claim that waits for one of its sectors; the open batch is open no more; nothing else changes. -/
def Obligations.EraseGrant : Prop :=
  ∀ (p : Part) (c : Claim), p.pee.state = .idle → bestClaim (p.pee.claims.filter (clearOfBatch p)) = some c →
    let q := grantNow p
    let grants (ss : List Nat) (forFormat : Bool) (zone : Nat) : Prop :=
      q.pee.state = .erasing ∧ q.pee.budget = 8 ∧ q.pee.cause = none ∧ q.pee.opClock = 0 ∧ q.pee.op = p.pee.op ∧
      q.pee.preempt = p.pee.preempt ∧
      (∀ d, d ∈ q.pee.claims ↔ d ∈ p.pee.claims ∧ d.age ≠ c.age ∧ ∀ i ∈ ss, d.purpose.owner ≠ .suspect i) ∧
      q = { p with pee := q.pee, smp := q.smp, rcu := q.rcu } ∧ q.smp.zones = p.smp.zones ∧
      (∀ i < p.smp.sectors.length, q.sector i = if i ∈ ss then { p.sector i with state := .erasing } else p.sector i) ∧
      ∃ a, q.pee.batch = some a ∧ a.headers = false ∧ a.unsuspended = 0 ∧ a.forFormat = forFormat ∧ a.zone = zone ∧
        (a.sectors.map (·.sector)).Perm ss ∧ (a.sectors.map (·.sector)).Pairwise (· ≤ ·) ∧
        ∀ x ∈ a.sectors, x.erased = false ∧ x.done = false ∧ x.bad = (p.sector x.sector).suspect ∧
          x.count = min ((p.sector x.sector).eraseCount + 1) 0xFFFFFF ∧
          x.header = sectorHeaderBytes p.scu.format (p.sector x.sector).zone x.count (planOf p) (p.sector x.sector).suspect
    (∀ b, c.target = .openBatch → p.rcu.openBatch = some b →
      grants b.sectors false b.zone ∧ q.rcu = { p.rcu with openBatch := none }) ∧
    (∀ first ss, c.target = .sectors (first :: ss) → grants (first :: ss) true (p.sector first).zone ∧ q.rcu = p.rcu)

/-- A claim joins the set with the next age. A preempting one that joins in ERASING with budget left starts a suspension: the
budget falls by one, the engine is SUSPENDING and the claim is its cause. Any other starts none. A READ of any level is preempting,
that of an evacuation step too (the model's choice, log 51). -/
def Obligations.SuspensionStarts : Prop :=
  ∀ (p : Part) (u : Purpose) (k : OpKind) (l : Nat) (t : Target),
    let q := raise u k l t p
    q = { p with pee := q.pee } ∧
    q.pee.claims = p.pee.claims ++ [{ age := p.pee.nextAge, purpose := u, kind := k, level := l, target := t }] ∧
    q.pee.nextAge = p.pee.nextAge + 1 ∧ q.pee.op = p.pee.op ∧ q.pee.batch = p.pee.batch ∧ q.pee.preempt = p.pee.preempt ∧
    (p.pee.state = .erasing → 1 ≤ p.pee.budget → Preempts p.pee.preempt k l →
      q.pee.state = .suspending ∧ q.pee.budget = p.pee.budget - 1 ∧ q.pee.cause = some p.pee.nextAge) ∧
    (p.pee.state ≠ .erasing ∨ p.pee.budget = 0 ∨ ¬ Preempts p.pee.preempt k l →
      q.pee.state = p.pee.state ∧ q.pee.budget = p.pee.budget ∧ q.pee.cause = p.pee.cause)

/-- The completion of a READ hands its owner the bytes its runs name, in order, and leaves the array unchanged. The
engine is IDLE again, or SUSPENDED when the operation ran in a suspension. -/
def Obligations.ReadCompleteHandsBytes : Prop :=
  ∀ (s : State) (c : Claim) (rs : List Run), s.part.run = .running → Memory.wf s.array = true →
    let after : EngineState := match s.part.pee.state with | .suspendedBusy => .suspended | .busy => .idle | x => x
    s.part.pee.op = some c → c.kind = .read → c.target = .runs rs → (∀ r ∈ rs, Inside r.sector r.offset r.length) →
    exec .readComplete s = .next { s with part := closeEvent (readEnded c.purpose
      (rs.flatMap (fun r => (List.range r.length).map (fun k => Memory.read s.array (r.sector * 4096 + r.offset + k))))
      { s.part with pee := { s.part.pee with op := none, state := after } }) }

/-- The completion of a PROGRAM or MARK: its target holds what it left, no other byte changes, and its owner is given the
result. That a byte given as 0xFF passes the pre-check over any byte is the model's choice (log 56). -/
def Obligations.ProgramsAndMarksComplete : Prop :=
  ∀ (s : State) (c : Claim) (i o : Nat) (bs stuck : List Byte), s.part.run = .running → Memory.wf s.array = true →
    s.part.pee.op = some c → c.target = .bytes i o bs → Inside i o bs.length →
    let after : EngineState := match s.part.pee.state with | .suspendedBusy => .suspended | .busy => .idle | x => x
    let done (x : Instr) : Prop := ∃ m r, exec x s = .next { s with
        array := m
        part := closeEvent (writeEnded c.purpose i o r
          { s.part with pee := { s.part.pee with op := none, state := after } }) } ∧
      ProgrammedBytes s.array m i o bs stuck ∧ ProgramResult s.array m i o bs r
    (c.kind = .program → done (.programComplete stuck)) ∧ (c.kind = .mark → done (.markComplete stuck))

/-- A timeout of a PROGRAM or MARK: its target holds what it left, no other byte changes, and its owner is given a failure with the
verified prefix, at most all bytes but one (log 10). That a byte given as 0xFF passes the pre-check over any byte is the model's
choice (log 56). -/
def Obligations.TimeoutsEndOperations : Prop :=
  ∀ (s : State) (c : Claim) (i o : Nat) (bs stuck : List Byte), s.part.run = .running → Memory.wf s.array = true →
    (∀ b, s.part.pee.batch = some b → b.headers = false) →
    s.part.pee.op = some c → (c.kind = .program ∨ c.kind = .mark) → c.target = .bytes i o bs → Inside i o bs.length →
    let after : EngineState := match s.part.pee.state with | .suspendedBusy => .suspended | .busy => .idle | x => x
    ∃ m n, exec (.operationTimeout stuck) s = .next { s with
        array := m
        part := closeEvent (writeEnded c.purpose i o { ok := false, good := bs.take n }
          { s.part with pee := { s.part.pee with op := none, state := after } }) } ∧
      ProgrammedBytes s.array m i o bs stuck ∧ VerifiedPrefix m i o bs (bs.length - 1) n

/-- The header-write phase: the first sector not done has its header written, or its BAD mark where its erase failed; it is done
with the write's result, or failed by a timeout; no other byte changes. With its last sector done the batch completes. That a byte
given as 0xFF passes the pre-check over any byte is the model's choice (log 56). -/
def Obligations.HeaderWritesComplete : Prop :=
  ∀ (s : State) (b : Batch) (x : BatchSector) (stuck : List Byte), s.part.run = .running → Memory.wf s.array = true →
    s.part.pee.batch = some b → b.headers = true → b.sectors.find? (fun y => !y.done) = some x →
    let o : Nat := if x.erased then 0 else 31
    let bs : List Byte := if x.erased then x.header else [0x00]
    let after (ok : Bool) : List BatchSector :=
      b.sectors.map (fun y => if y.sector = x.sector then { y with done := true, headerOk := ok } else y)
    let q (ok : Bool) : Part := { s.part with pee := { s.part.pee with opClock := 0, batch := some { b with sectors := after ok } } }
    Inside x.sector o bs.length →
    ∃ m r, ProgrammedBytes s.array m x.sector o bs stuck ∧ ProgramResult s.array m x.sector o bs r ∧
      ((∃ y ∈ after true, y.done = false) →
        exec (.headerWriteComplete stuck) s = .next { s with array := m, part := q r.ok } ∧
        exec (.operationTimeout stuck) s = .next { s with array := m, part := q false }) ∧
      ((∀ y ∈ after true, y.done = true) →
        exec (.headerWriteComplete stuck) s = .next { s with array := m, part := closeEvent (completeBatch (q r.ok)) } ∧
        exec (.operationTimeout stuck) s = .next { s with array := m, part := closeEvent (completeBatch (q false)) })

/-- The completion of a batch. A sector becomes FREE at next-write 32, or BAD at 4096, with the erase count of the table; a good
sector of a reclaim batch that a FORMAT overtook becomes STALE (DEDUCED, log 27). MEDIA is set when one is BAD, the lingering heads
lose the sectors written, the engine is IDLE with no batch; a FORMAT's position moves on and its reply gains MEDIA_EVENT for a BAD
sector (DEDUCED, log 26); a reclaim batch's zone is judged for SPACE_LOW and the next batch opens. A zone's waiting takers are
answered from its TAIL, a FREE sector under entitlement, or with NO_SPACE, the highest level first; with the zone's FREE, STALE and
ERASING counts all at 0 every one of them fails with NO_SPACE at once (the order of their ends is the model's choice, log 41). -/
def Obligations.BatchCompletes : Prop :=
  (∀ (target : SectorState) (x : BatchSector) (s : Sector),
    let t := sectorOutcome target x s
    (x.erased = true → x.headerOk = true → x.bad = false →
      t = { s with state := target, nextWrite := 32, suspect := false, eraseCount := x.count, owner := none }) ∧
    (x.erased = true → (x.headerOk = false ∨ x.bad = true) →
      t = { s with state := .bad, nextWrite := 4096, eraseCount := x.count, owner := none }) ∧
    (x.erased = false → t = { s with state := .bad, nextWrite := 4096, owner := none })) ∧
  (∀ (p : Part) (b : Batch), p.pee.batch = some b → p.link.conds.length = 8 →
    let q := completeBatch p
    let good (x : BatchSector) : Prop := x.erased = true ∧ x.headerOk = true ∧ x.bad = false
    let target : SectorState := if b.forFormat = false ∧ p.mounted = false then .stale else .free
    q.pee.state = .idle ∧ q.pee.op = none ∧ q.pee.batch = none ∧ q.pee.budget = 8 ∧
    ((∃ x ∈ b.sectors, ¬ good x) → ∃ r, q.link.conds[5]? = some r ∧ r.set = true) ∧
    (∀ d ∈ q.sdr.directory, ∀ x ∈ b.sectors, x.erased = true → x.headerOk = true → x.sector ∉ d.lingering) ∧
    ((b.sectors.map (·.sector)).Nodup → (∀ x ∈ b.sectors, x.sector < p.smp.sectors.length) → ∀ x ∈ b.sectors,
      (¬ good x → (p.sector x.sector).state = .erasing → (p.sector x.sector).countsZero = true →
        (∀ c, (p.ctx c).owned ≠ some x.sector) → (∀ z ∈ p.smp.zones, z.tail ≠ some x.sector) →
        q.sector x.sector = sectorOutcome target x (p.sector x.sector)) ∧
      ((∀ z ∈ p.smp.zones, z.waiting = []) → q.sector x.sector = sectorOutcome target x (p.sector x.sector))) ∧
    (b.forFormat = true → ∀ f, p.scu.runner = some f → ∃ g, q.scu.runner = some g ∧ g.level = f.level ∧ g.age = f.age ∧
      g.stopped = f.stopped ∧ f.position ≤ g.position ∧ (∀ x ∈ b.sectors, x.sector < g.position) ∧
      (g.position = f.position ∨ ∃ x ∈ b.sectors, g.position = x.sector + 1) ∧
      ((∃ x ∈ b.sectors, ¬ good x) → g.notes = f.notes ||| 0x08) ∧ ((∀ x ∈ b.sectors, good x) → g.notes = f.notes)) ∧
    (b.forFormat = false → q.mounted = true →
      (q.rcu.eraseQueue ≠ [] → q.rcu.openBatch ≠ none) ∧
      (∀ r, q.zone b.zone = some r → b.zone < 4 → countState b.zone .free q < r.lowWater →
        (∀ i ∈ q.rcu.eraseQueue, (q.sector i).zone ≠ b.zone) → (∀ o, q.rcu.openBatch = some o → o.zone ≠ b.zone) →
        ∃ t, q.link.conds[b.zone + 1]? = some t ∧ t.set = true))) ∧
  (∀ (p : Part) (z : Nat) (r : Zone), p.zone z = some r →
    (r.waiting = [] → answerTaker z p = none) ∧
    (r.waiting ≠ [] → ∃ c earlier later, r.waiting = earlier ++ c :: later ∧
      (∀ d ∈ earlier, (p.ctx d).level < (p.ctx c).level) ∧ (∀ d ∈ later, (p.ctx d).level ≤ (p.ctx c).level) ∧
      let k := p.ctx c
      let entitled : Prop := 1 ≤ k.reservation ∨ reserved k.zone p + 2 ≤ available k.zone p
      let takes (i units : Nat) : Prop := ∃ q, answerTaker z p = some q ∧ RaisedFirst c i p q ∧
        q.sector i = { p.sector i with state := .owned, owner := some (.ctx c) } ∧
        q.ctx c = { k with owned := some i, reservation := k.reservation - units } ∧ isWaiting c q = false
      (∀ t, r.tail = some t → k.written.length < 72 → t < p.smp.sectors.length → takes t 0) ∧
      (r.tail = none → ∀ i, LowestFree z i p →
        (entitled → k.written.length < 72 → takes i 1) ∧
        (¬ entitled → claimRuns (.ctx c) p = false → ∃ q, answerTaker z p = some q ∧ EndedWith c .noSpace p q)) ∧
      (r.tail = none → NoneFree z p →
        (available z p = 0 → claimRuns (.ctx c) p = false → ∃ m, EndedWith c .noSpace p m ∧
          ((∀ d ∈ r.waiting, d = c) → answerTaker z p = some m) ∧
          (∀ d ∈ r.waiting, d ≠ c → claimRuns (.ctx d) p = false →
            ∃ q, answerTaker z p = some q ∧ EndedWith d .noSpace m q ∧ q.ctx c = m.ctx c)) ∧
        (available z p ≠ 0 → answerTaker z p = none)))) ∧
  (∀ p : Part, (takersReact p = none ↔ ∀ z < p.smp.zones.length, answerTaker z p = none) ∧
    ∀ q, takersReact p = some q → ∃ z < p.smp.zones.length, answerTaker z p = some q ∧ ∀ y < z, answerTaker y p = none)

/-- The end of the erase phase, and the batch's timeout: the engine is BUSY in the header-write phase; a sector has erased when it
reads 0xFF throughout, and after a timeout none has; no byte outside the batch changes, and no other block. -/
def Obligations.ErasePhaseEnds : Prop :=
  ∀ (s : State) (b : Batch) (residue : List (Nat × Byte)), s.part.run = .running → Memory.wf s.array = true →
    (s.part.pee.state = .erasing ∨ s.part.pee.state = .suspending) → s.part.pee.batch = some b →
    ∃ t u : State, exec (.erasePhaseEnd residue) s = .next t ∧ exec (.batchTimeout residue) s = .next u ∧
      (∀ v, v = t ∨ v = u → v.pending = s.pending ∧ v.part = { s.part with pee := v.part.pee } ∧ v.part.pee.state = .busy ∧
        v.part.pee.claims = s.part.pee.claims ∧ v.part.pee.budget = s.part.pee.budget ∧
        (∀ a, a / 4096 ∉ b.sectors.map (·.sector) → Memory.read v.array a = Memory.read s.array a) ∧
        ∃ b', v.part.pee.batch = some b' ∧ b'.headers = true ∧ b'.zone = b.zone ∧ b'.forFormat = b.forFormat ∧
          b'.sectors.map (fun x => { x with erased := false }) = b.sectors.map (fun x => { x with erased := false })) ∧
      (∀ b', t.part.pee.batch = some b' → b'.unsuspended = b.unsuspended ∧
        ∀ x ∈ b'.sectors, x.erased = true ↔ ∀ k < 4096, Memory.read t.array (x.sector * 4096 + k) = 0xFF) ∧
      (∀ b', u.part.pee.batch = some b' → ∀ x ∈ b'.sectors, x.erased = false) ∧
      (residue = [] → ∀ a, a / 4096 ∈ b.sectors.map (·.sector) → Memory.read t.array a = 0xFF)

/-- The completion of a suspension, and the engine's look in SUSPENDED after an operation: with a preempting claim left, the best of
them is granted, its request gains SUSPENDED_ERASE and the engine is SUSPENDED_BUSY; with none, the erase resumes. At the completion
the request of the claim that caused the suspension gains the note too. The unit of budget stays spent and the batch is unchanged. -/
def Obligations.SuspensionTakesHold : Prop :=
  (∀ s : State, s.part.run = .running → s.part.pee.state = .suspending →
    let left := s.part.pee.claims.filter (fun c => clearOfBatch s.part c && preempting s.part.pee.preempt c)
    ∃ t, exec .suspendComplete s = .next t ∧ t.array = s.array ∧ t.pending = s.pending ∧
      t.part.pee.budget = s.part.pee.budget ∧ t.part.pee.batch = s.part.pee.batch ∧ t.part.pee.preempt = s.part.pee.preempt ∧
      t.part.pee.cause = none ∧
      (∀ a c, s.part.pee.cause = some a → s.part.pee.claims.find? (fun c => c.age = a) = some c →
        servedNotes c.purpose t.part = (servedNotes c.purpose s.part).map (fun n => n ||| 0x01)) ∧
      (left ≠ [] → ∃ c, bestClaim left = some c ∧ t.part.pee.state = .suspendedBusy ∧ t.part.pee.op = some c ∧
        t.part.pee.claims = s.part.pee.claims.filter (fun d => d.age ≠ c.age) ∧
        servedNotes c.purpose t.part = (servedNotes c.purpose s.part).map (fun n => n ||| 0x01)) ∧
      (left = [] → t.part.pee.state = .erasing ∧ t.part.pee.claims = s.part.pee.claims)) ∧
  (∀ p : Part, p.pee.state = .suspended →
    let left := p.pee.claims.filter (fun c => clearOfBatch p c && preempting p.pee.preempt c)
    let q := grantNow p
    q.pee.budget = p.pee.budget ∧ q.pee.batch = p.pee.batch ∧ q.pee.preempt = p.pee.preempt ∧
    (left ≠ [] → ∃ c, bestClaim left = some c ∧ q.pee.state = .suspendedBusy ∧ q.pee.op = some c ∧
      q.pee.claims = p.pee.claims.filter (fun d => d.age ≠ c.age) ∧
      servedNotes c.purpose q = (servedNotes c.purpose p).map (fun n => n ||| 0x01)) ∧
    (left = [] → q = { p with pee := { p.pee with state := .erasing } }))

/-- The erase queue and the open batch. In a MOUNTED store with no batch open or in progress the oldest sector of the queue opens one
and gives its zone, the queue's sectors of that zone join in queue order up to 8, and the others keep their places; the gathering
window starts, or with 8 the ERASE claim is raised at the opening and there is no window. A sector that becomes STALE joins the open
batch of its zone while that holds fewer than 8, which at 8 raises the claim if it is not raised yet and cancels the window; any other
joins the end of the queue, and a batch opens if it may, as it does at the completion of a reclaim batch. The expiry of the window
raises the claim too. Its level is the highest among its zone's waiting takers, 0 with none; while the claim waits, it takes that
level anew at the close of each event, before the grant, and keeps its age. That the close brings the reactions about in its order and
up to its bound first is the model's choice (log 7), and that it then grants once is DEDUCED (log 6). -/
def Obligations.OpenBatchRules : Prop :=
  (∀ p : Part,
    let q := openBatch p
    let zoneOf (i : Nat) : Nat := (p.sector i).zone
    (p.mounted = false ∨ p.rcu.openBatch ≠ none ∨ p.pee.batch ≠ none ∨ p.rcu.eraseQueue = [] → q = p) ∧
    (p.mounted = true → p.rcu.openBatch = none → p.pee.batch = none → ∀ i later, p.rcu.eraseQueue = i :: later →
      let mates := p.rcu.eraseQueue.filter (fun j => zoneOf j = zoneOf i)
      let opens (window : Option Nat) (raised : Bool) : Prop := q = { p with
        pee := q.pee
        rcu := { p.rcu with
          eraseQueue := q.rcu.eraseQueue
          openBatch := some { zone := zoneOf i, sectors := mates.take 8, window := window, raised := raised } } }
      q.rcu.eraseQueue.Sublist p.rcu.eraseQueue ∧
      q.rcu.eraseQueue.filter (fun j => zoneOf j = zoneOf i) = mates.drop 8 ∧
      q.rcu.eraseQueue.filter (fun j => zoneOf j ≠ zoneOf i) = p.rcu.eraseQueue.filter (fun j => zoneOf j ≠ zoneOf i) ∧
      (mates.length < 8 → opens (some 0) false ∧ q.pee = p.pee) ∧
      (8 ≤ mates.length → opens none true ∧ ∃ l, TakersLevel (zoneOf i) l p ∧ Raised .reclaimErase .erase l .openBatch p q))) ∧
  (∀ (p : Part) (i : Nat),
    let q := joinErase i p
    let queued : Part := { p with rcu := { p.rcu with eraseQueue := p.rcu.eraseQueue ++ [i] } }
    (p.rcu.openBatch = none → q = openBatch queued) ∧
    (∀ b, p.rcu.openBatch = some b →
      let joins : Prop := b.zone = (p.sector i).zone ∧ b.sectors.length < 8
      let grown : OpenBatch := { b with sectors := b.sectors ++ [i] }
      (¬ joins → q = queued) ∧
      (joins → b.sectors.length < 7 ∨ b.raised = true → q = { p with rcu := { p.rcu with openBatch := some grown } }) ∧
      (joins → b.sectors.length = 7 → b.raised = false → ∃ l, TakersLevel b.zone l p ∧ q = raise .reclaimErase .erase l .openBatch
        { p with rcu := { p.rcu with openBatch := some { grown with window := none, raised := true } } })) ∧
    (i < p.smp.sectors.length → (p.sector i).state = .sealed →
      let judged := judgeSector i p
      let takes (r : Part) : Prop :=
        judged.rcu.eraseQueue = r.rcu.eraseQueue ∧ judged.rcu.openBatch = r.rcu.openBatch ∧ judged.pee = r.pee
      (p.mounted = true → p.emptied i → takes q) ∧ (p.mounted = false → takes p))) ∧
  (∀ (p : Part) (b : Batch), p.pee.batch = some b → b.forFormat = false →
    ∃ m, completeBatch p = openBatch m ∧ m.pee.batch = none) ∧
  (∀ (s : State) (b : OpenBatch) (w : Nat), s.part.run = .running → s.part.rcu.openBatch = some b → b.window = some w →
    ∃ l, TakersLevel b.zone l s.part ∧
      exec .gatheringWindowExpiry s = .next { s with part := closeEvent (raise .reclaimErase .erase l .openBatch
        { s.part with rcu := { s.part.rcu with openBatch := some { b with window := none, raised := true } } }) }) ∧
  (∀ p : Part, closeEvent p = grantNow (followTakers (settle settleBound p)) ∧
    (p.rcu.openBatch = none → followTakers p = p) ∧
    (∀ b, p.rcu.openBatch = some b → ∃ l, TakersLevel b.zone l p ∧ followTakers p =
      { p with pee := { p.pee with claims := p.pee.claims.map (fun c =>
        if c.purpose = .reclaimErase then { c with level := l } else c) } }))

/-- The engine's and the array's events change no setting of the host, no pin and no transaction, free or take no direct place,
only add replies at the tail, and give out no age. -/
def Obligations.EngineEventsKeepSettings : Prop :=
  ∀ (i : Instr) (s t : State) (stuck : List Byte) (residue : List (Nat × Byte)),
    (i = .readComplete ∨ i = .programComplete stuck ∨ i = .markComplete stuck ∨ i = .operationTimeout stuck ∨
      i = .suspendComplete ∨ i = .erasePhaseEnd residue ∨ i = .batchTimeout residue ∨ i = .headerWriteComplete stuck ∨
      i = .gatheringWindowExpiry) →
    exec i s = .next t →
    t.pending = s.pending ∧ t.part.settings = s.part.settings ∧ directInUse t.part = directInUse s.part ∧
      s.part.link.replies <+: t.part.link.replies ∧
      (s.part.ages.Nodup → t.part.places = s.part.places ∧ t.part.rqs.nextAge = s.part.rqs.nextAge)

/-- The Sector Map. A sector given up in a MOUNTED store goes by the tail rule, and one that is sealed is STALE exactly when its
three counts are 0 and it holds no closed copy that the runner's step has yet to have counted (DEDUCED, log 9). A context's take
and the runner's are answered from tail, FREE sectors, entitlement and spare; a reservation above its bound is cut from the lower
level first, and the spare is lost or comes back by the bound. A commit and a sector's becoming suspect or STALE do what the rules
say to the counts and the queues; a suspect SEALED sector that gains retiring bytes alone joins the evacuation queue too (the model's
choice, log 48). A SUSPECT mark attempt that fails is raised again at level 0 while fewer than 3 have been made, and its end changes
nothing else. A sector that is FREE when it becomes suspect is sealed (the model's choice, log 50), and one that
is BAD becomes suspect as another does, with its SUSPECT mark claim (the model's choice, log 53). A sector's becoming STALE and a
reservation's return bring back the zone's spare where it is due. -/
def Obligations.SectorMapRules : Prop :=
  (∀ (p : Part) (i : Nat) (z : Zone), p.mounted = true → i < p.smp.sectors.length → p.zone (p.sector i).zone = some z →
    let s := p.sector i
    let fit : Prop := s.suspect = false ∧ 64 ≤ s.room
    let q := giveUp i p
    (q.sector i).owner = none ∧
    (fit → z.tail = none → (q.sector i).state = .tail ∧ (q.zone s.zone).bind (·.tail) = some i) ∧
    (∀ t, fit → z.tail = some t → t ≠ i → (p.sector t).room < s.room →
      (q.sector i).state = .tail ∧ (q.zone s.zone).bind (·.tail) = some i ∧
      (t < p.smp.sectors.length → SealedState p t (q.sector t).state)) ∧
    (¬ fit ∨ (∃ t, z.tail = some t ∧ s.room ≤ (p.sector t).room) → SealedState p i (q.sector i).state)) ∧
  (∀ (p : Part) (c : CtxId) (z : Zone),
    let k := p.ctx c
    let entitled : Prop := 1 ≤ k.reservation ∨ reserved k.zone p + 2 ≤ available k.zone p
    let q := (takeForCtx c p).2
    let owns (i : Nat) : Prop := (takeForCtx c p).1 = .taken ∧
      q.sector i = { p.sector i with state := .owned, owner := some (.ctx c) } ∧ ∀ j, j ≠ i → q.sector j = p.sector j
    p.zone k.zone = some z →
    (∀ t, z.tail = some t → t < p.smp.sectors.length →
      owns t ∧ q.ctx c = { k with owned := some t } ∧ (q.zone k.zone).bind (·.tail) = none) ∧
    (z.tail = none → entitled → ∀ i, LowestFree k.zone i p →
      owns i ∧ q.ctx c = { k with owned := some i, reservation := k.reservation - 1 }) ∧
    (z.tail = none → entitled → NoneFree k.zone p →
      (takeForCtx c p).1 = .waits ∧ q.smp.sectors = p.smp.sectors ∧ q.ctx c = { k with notes := k.notes ||| 0x02 } ∧
      q.zone k.zone = some { z with waiting := z.waiting ++ [c] }) ∧
    (z.tail = none → ¬ entitled → takeForCtx c p = (.refused, p))) ∧
  (∀ (p : Part) (n : Nat) (z : Zone), p.zone n = some z →
    let bound : Prop := reserved n p + 2 ≤ available n p
    let q := (takeForRunner n p).2
    (∀ i, LowestFree n i p → bound ∨ z.spareInUse = false →
      (takeForRunner n p).1 = some i ∧ q.rcu.owned = some i ∧
      q.sector i = { p.sector i with state := .owned, owner := some .runner } ∧
      (bound → q.zone n = some z) ∧ (¬ bound → q.zone n = some { z with spareInUse := true })) ∧
    (NoneFree n p ∨ (¬ bound ∧ z.spareInUse = true) → takeForRunner n p = (none, p))) ∧
  (∀ (p : Part) (n : Nat) (z : Zone) (l h : CtxId), p.zone n = some z →
    let q := cutReservations n p
    let excess : Nat := if z.spareInUse then reserved n p - available n p else reserved n p + 1 - available n p
    (excess = 0 → q = p) ∧
    (l ≠ h → (p.ctx l).level < (p.ctx h).level ∨ ((p.ctx l).level = (p.ctx h).level ∧ (p.ctx h).sequence < (p.ctx l).sequence) →
      reservedBy n (q.ctx l) = reservedBy n (p.ctx l) - excess ∧
      reservedBy n (q.ctx h) = reservedBy n (p.ctx h) - (excess - reservedBy n (p.ctx l))) ∧
    (0 < excess → z.spareInUse = false → q.zone n = some { z with spareInUse := decide (available n q < reserved n q + 1) })) ∧
  (∀ p : Part,
    let back (n : Nat) (z : Zone) : Prop := p.zone n = some z ∧ z.spareInUse = true ∧ reserved n p + 1 ≤ available n p
    (spareReact p = none ↔ ∀ n z, ¬ back n z) ∧
    (∀ q, spareReact p = some q → ∃ n z, back n z ∧ q.zone n = some { z with spareInUse := false })) ∧
  (∀ (p : Part) (c : CtxId), p.mounted = true →
    let k := p.ctx c
    let q := commitSwitch c p
    let old : List Elem := match p.entryOf k.slot with
      | some d => d.extents
      | none => []
    ∀ i < p.smp.sectors.length,
      (q.sector i).live = (p.sector i).live + spaceOf i k.elems - spaceOf i old ∧
      (q.sector i).pending = (p.sector i).pending - spaceOf i k.elems ∧
      (q.sector i).retiring = (p.sector i).retiring + spaceOf i old) ∧
  (∀ (p : Part) (i : Nat), i < p.smp.sectors.length → (p.sector i).state = .sealed → p.mounted = true →
    let q := judgeSector i p
    SealedState p i (q.sector i).state ∧
    (p.emptied i → i ∉ q.rcu.evacQueue ∧
      (i ∈ q.rcu.eraseQueue ∨ ∃ b, q.rcu.openBatch = some b ∧ i ∈ b.sectors) ∧
      ∀ z, p.zone (p.sector i).zone = some z → let n := (p.sector i).zone
        q.zone n = some { z with spareInUse := z.spareInUse && decide (available n q < reserved n q + 1) }) ∧
    ((p.sector i).suspect = true → 0 < (p.sector i).live ∨ 0 < (p.sector i).retiring → i ∈ q.rcu.evacQueue)) ∧
  (∀ (p : Part) (i : Nat) (o : Option Holder), i < p.smp.sectors.length → p.link.conds.length = 8 →
    let s := p.sector i
    let q := makeSuspect i o p
    let t := q.sector i
    t.suspect = true ∧ (∃ r, q.link.conds[5]? = some r ∧ r.set = true) ∧
    t.live = s.live ∧ t.pending = s.pending ∧ t.retiring = s.retiring ∧
    (s.suspect = false → { age := p.pee.nextAge, purpose := .suspectMark i 1, kind := .mark, level := 0,
                           target := .bytes i 30 [0x00] } ∈ q.pee.claims) ∧
    (o ≠ none → s.owner = o → t.nextWrite = 4096 ∧ t.owner = none ∧ SealedState p i t.state) ∧
    (o = none → s.state = .tail → SealedState p i t.state ∧ ∀ z ∈ q.smp.zones, z.tail ≠ some i) ∧
    (o = none → s.state = .free → SealedState p i t.state) ∧
    (o = none → s.state = .owned → extentOpen i p = false → SealedState p i t.state) ∧
    (o = none → s.state = .owned → extentOpen i p = true → t.state = .owned) ∧
    (s.owner = some .runner → (extentOpen i p = true ↔ ∃ st, p.rcu.step = some st ∧ st.newSector = i ∧
      (st.phase = .firstStage ∨ st.phase = .data ∨ st.phase = .closing)))) ∧
  (∀ (p : Part) (i n j o : Nat) (r : Result),
    let q := writeEnded (.suspectMark i n) j o r p
    (r.ok = false → n < 3 → q = raise (.suspectMark i (n + 1)) .mark 0 (.bytes i 30 [0x00]) p) ∧
    (r.ok = true ∨ 3 ≤ n → q = p)) ∧
  (∀ (p : Part) (c : CtxId) (st : Status), claimRuns (.ctx c) p = false →
    let n := (p.ctx c).zone
    let q := endCtx c st p
    ∀ z, q.zone n = some z → z.spareInUse = true → available n q < reserved n q + 1)

/-- A request of a transaction that is lost, or of a part that does not run, takes nothing; nor does an event that finds nothing
of its kind in progress (the model's choices, logs 5 and 12). -/
def Obligations.NothingToTakeChangesNothing : Prop :=
  ∀ (s : State) (tag level a b c : Byte) (n : Nat) (f : List Byte) (ss : List (Byte × Byte)) (w : BitVec 16) (x : BitVec 24)
    (es : List PlanEntry) (residue : List (Nat × Byte)),
    (¬ s.part.listens → ∀ i, i ∈ [Instr.ignoredTransaction n, .badFrame f, .fetch n, .ident tag level, .status tag level,
        .notice tag level ss a, .clear tag level a, .tune tag level a b, .abort tag level a, .abandon tag level a,
        .restart tag level, .data tag level a x f, .write tag level w a b x, .read tag level w x a, .list tag level w a,
        .delete tag level w, .verify tag level w, .compact tag level a c, .format tag level a es] →
      ∃ t, exec i s = .next t ∧ t.array = s.array ∧ t.pending = s.pending ∧
        t.part = { s.part with link := { s.part.link with transaction := t.part.link.transaction, miso := t.part.link.miso } }) ∧
    (s.part.pee.op = none → exec .readComplete s = .next s ∧ exec (.programComplete f) s = .next s ∧
      exec (.markComplete f) s = .next s) ∧
    (s.part.pee.batch = none → exec (.headerWriteComplete f) s = .next s) ∧
    (s.part.pee.op = none → s.part.pee.batch = none → exec (.operationTimeout f) s = .next s) ∧
    (s.part.pee.state = .idle → exec .suspendComplete s = .next s ∧ exec (.erasePhaseEnd residue) s = .next s ∧
      exec (.batchTimeout residue) s = .next s) ∧
    (s.part.rcu.openBatch = none → exec .gatheringWindowExpiry s = .next s) ∧
    (s.part.mli.timer = none → exec .debounceExpiry s = .next s) ∧
    exec (.maintPinChange s.part.mli.pin) s = .next s

/-- What a validated READ, DELETE, VERIFY or COMPACT starts at its hand-over: the claim raised for it, or its job; a READ at or
past the slot's end is answered at once (an ABORT that waits on it is answered after it: the model's choice, log 30). When the
slot's entry is switched to a new generation or an element of it is replaced, a READ or VERIFY whose claim waits is raised again
from the entry as it stands; a VERIFY goes back to the first element at a switch, and keeps a claim on another element than the
one replaced. -/
def Obligations.HandOversStartWork : Prop :=
  (∀ (p : Part) (e : Entry) (s : Nat) (d : DirEntry) (h : Elem) (es : List Elem),
    p.entryOf s = some d → d.extents = h :: es → (∀ r ∈ p.sdr.serving, r.age ≠ e.age) →
    let q := handOver e p
    let raised (u : Purpose) (k : OpKind) (t : Target) (holds : Serving → Prop) : Prop :=
      q.pee.claims = p.pee.claims ++ [{ age := p.pee.nextAge, purpose := u, kind := k, level := e.level, target := t }] ∧
        ∃ r ∈ q.sdr.serving, r.age = e.age ∧ r.slot = s ∧ r.sequence = d.sequence ∧ holds r
    (∀ o c, e.request = .read s o c → o < d.length →
      raised (.readSlot e.age) .read (.runs (readRuns o (o + min c (d.length - o)) 0 d.extents)) (fun r =>
        r.readLen = d.length ∧ r.readCount = min c (d.length - o) ∧ (r.shortened = true ↔ d.length - o < c))) ∧
    (∀ o c, e.request = .read s o c → d.length ≤ o → p.queueEntry e.age = some e →
      q = endedPart e .ok 0x10 (be 4 d.sequence ++ be 3 d.length ++ be 1 0) p) ∧
    (e.request = .delete s →
      raised (.deleteMark e.age) .mark (.bytes h.sector (h.offset + 24) [0x00]) (fun r => r.attempts = 0 ∧ r.elem = h) ∧
        q.entryOf s = some { d with deletePending := true }) ∧
    (e.request = .verify s →
      raised (.verifyStep e.age) .read (.runs [{ sector := h.sector, offset := h.offset, length := 32 + h.length }]) (fun r =>
        r.nextIndex = 0 ∧ r.checked = 0 ∧ r.elem = h))) ∧
  (∀ (p : Part) (e : Entry) (z n : Nat), e.request = .compact z n → handOver e p = { p with rcu := { p.rcu with
    job := some { age := e.age, zone := z, asked := n, emptied := 0, victim := none, taken := [], failures := 0,
                  level := e.level, notes := 0 } } }) ∧
  (∀ (p : Part) (slot i : Nat) (d : DirEntry) (r : Serving), p.entryOf slot = some d → (p.sdr.serving.map (·.age)).Nodup →
    r ∈ p.sdr.serving → r.slot = slot →
    let claimsOf (q : Part) : List Claim := q.pee.claims.filter (fun c => c.purpose.owner = .serving r.age)
    let again (u : Purpose) (runs : List Run) (q : Part) : Prop := ∃ a, p.pee.nextAge ≤ a ∧
      claimsOf q = [{ age := a, purpose := u, kind := .read, level := r.level, target := .runs runs }]
    let same (q : Part) : Prop := claimsOf q = claimsOf p ∧ q.servingOf r.age = some r
    (r.kind = .read → purposeWaits (.readSlot r.age) p = true → ∀ q, q = reissueAtSwitch slot p ∨ q = reissueAtReplacement slot i p →
      (r.offset < d.length →
        let n := min r.count (d.length - r.offset)
        again (.readSlot r.age) (readRuns r.offset (r.offset + n) 0 d.extents) q ∧
        q.servingOf r.age = some { r with sequence := d.sequence, readLen := d.length, readCount := n, shortened := decide (n < r.count) }) ∧
      (d.length ≤ r.offset → ∀ e, p.queueEntry r.age = some e → q.servingOf r.age = none ∧ q.queueEntry r.age = none ∧
        { kind := e.request.kind, tag := e.tag, status := .ok, notes := r.notes ||| 0x10,
          payload := be 4 d.sequence ++ be 3 d.length ++ be 1 0, place := .queued } ∈ q.link.replies)) ∧
    (r.kind = .verify → purposeWaits (.verifyStep r.age) p = true →
      (∀ x, d.extents[0]? = some x → let q := reissueAtSwitch slot p
        again (.verifyStep r.age) [{ sector := x.sector, offset := x.offset, length := 32 + x.length }] q ∧
        q.servingOf r.age = some { r with sequence := d.sequence, nextIndex := 0, checked := 0, elem := x }) ∧
      (r.nextIndex ≠ i → same (reissueAtReplacement slot i p)) ∧
      (r.nextIndex = i → ∀ x, d.extents[i]? = some x → let q := reissueAtReplacement slot i p
        again (.verifyStep r.age) [{ sector := x.sector, offset := x.offset, length := 32 + x.length }] q ∧
        q.servingOf r.age = some { r with elem := x })) ∧
    (r.kind = .delete ∨ (purposeWaits (.readSlot r.age) p = false ∧ purposeWaits (.verifyStep r.age) p = false) →
      same (reissueAtSwitch slot p) ∧ same (reissueAtReplacement slot i p)))
end

