-- ==== Sys2Proof/Laws/State.lean ====
section
/-! SUPPORT. The record updates: what each named update leaves unchanged, field by field, and what it writes. -/

namespace Sys2Proof.Machine

variable (p : Part)

/-! ### setCond -/

@[simp] theorem setCond_run (c : Cond) : (setCond c p).run = p.run := rfl
@[simp] theorem setCond_rqs (c : Cond) : (setCond c p).rqs = p.rqs := rfl
@[simp] theorem setCond_sdr (c : Cond) : (setCond c p).sdr = p.sdr := rfl
@[simp] theorem setCond_smp (c : Cond) : (setCond c p).smp = p.smp := rfl
@[simp] theorem setCond_pee (c : Cond) : (setCond c p).pee = p.pee := rfl
@[simp] theorem setCond_wcu (c : Cond) : (setCond c p).wcu = p.wcu := rfl
@[simp] theorem setCond_rcu (c : Cond) : (setCond c p).rcu = p.rcu := rfl
@[simp] theorem setCond_mli (c : Cond) : (setCond c p).mli = p.mli := rfl
@[simp] theorem setCond_scu (c : Cond) : (setCond c p).scu = p.scu := rfl

/-! ### pushReply -/

@[simp] theorem pushReply_run (r : Reply) : (pushReply r p).run = p.run := rfl
@[simp] theorem pushReply_rqs (r : Reply) : (pushReply r p).rqs = p.rqs := rfl
@[simp] theorem pushReply_sdr (r : Reply) : (pushReply r p).sdr = p.sdr := rfl
@[simp] theorem pushReply_smp (r : Reply) : (pushReply r p).smp = p.smp := rfl
@[simp] theorem pushReply_pee (r : Reply) : (pushReply r p).pee = p.pee := rfl
@[simp] theorem pushReply_wcu (r : Reply) : (pushReply r p).wcu = p.wcu := rfl
@[simp] theorem pushReply_rcu (r : Reply) : (pushReply r p).rcu = p.rcu := rfl
@[simp] theorem pushReply_mli (r : Reply) : (pushReply r p).mli = p.mli := rfl
@[simp] theorem pushReply_scu (r : Reply) : (pushReply r p).scu = p.scu := rfl

/-! ### modSector -/

@[simp] theorem modSector_run (i : Nat) (f : Sector → Sector) : (modSector i f p).run = p.run := rfl
@[simp] theorem modSector_link (i : Nat) (f : Sector → Sector) : (modSector i f p).link = p.link := rfl
@[simp] theorem modSector_rqs (i : Nat) (f : Sector → Sector) : (modSector i f p).rqs = p.rqs := rfl
@[simp] theorem modSector_sdr (i : Nat) (f : Sector → Sector) : (modSector i f p).sdr = p.sdr := rfl
@[simp] theorem modSector_pee (i : Nat) (f : Sector → Sector) : (modSector i f p).pee = p.pee := rfl
@[simp] theorem modSector_wcu (i : Nat) (f : Sector → Sector) : (modSector i f p).wcu = p.wcu := rfl
@[simp] theorem modSector_rcu (i : Nat) (f : Sector → Sector) : (modSector i f p).rcu = p.rcu := rfl
@[simp] theorem modSector_mli (i : Nat) (f : Sector → Sector) : (modSector i f p).mli = p.mli := rfl
@[simp] theorem modSector_scu (i : Nat) (f : Sector → Sector) : (modSector i f p).scu = p.scu := rfl

/-! ### modZone -/

@[simp] theorem modZone_run (z : Nat) (f : Zone → Zone) : (modZone z f p).run = p.run := rfl
@[simp] theorem modZone_link (z : Nat) (f : Zone → Zone) : (modZone z f p).link = p.link := rfl
@[simp] theorem modZone_rqs (z : Nat) (f : Zone → Zone) : (modZone z f p).rqs = p.rqs := rfl
@[simp] theorem modZone_sdr (z : Nat) (f : Zone → Zone) : (modZone z f p).sdr = p.sdr := rfl
@[simp] theorem modZone_pee (z : Nat) (f : Zone → Zone) : (modZone z f p).pee = p.pee := rfl
@[simp] theorem modZone_wcu (z : Nat) (f : Zone → Zone) : (modZone z f p).wcu = p.wcu := rfl
@[simp] theorem modZone_rcu (z : Nat) (f : Zone → Zone) : (modZone z f p).rcu = p.rcu := rfl
@[simp] theorem modZone_mli (z : Nat) (f : Zone → Zone) : (modZone z f p).mli = p.mli := rfl
@[simp] theorem modZone_scu (z : Nat) (f : Zone → Zone) : (modZone z f p).scu = p.scu := rfl

/-! ### modCtx -/

@[simp] theorem modCtx_run (c : CtxId) (f : WriteCtx → WriteCtx) : (modCtx c f p).run = p.run := by cases c <;> rfl
@[simp] theorem modCtx_link (c : CtxId) (f : WriteCtx → WriteCtx) : (modCtx c f p).link = p.link := by cases c <;> rfl
@[simp] theorem modCtx_rqs (c : CtxId) (f : WriteCtx → WriteCtx) : (modCtx c f p).rqs = p.rqs := by cases c <;> rfl
@[simp] theorem modCtx_sdr (c : CtxId) (f : WriteCtx → WriteCtx) : (modCtx c f p).sdr = p.sdr := by cases c <;> rfl
@[simp] theorem modCtx_smp (c : CtxId) (f : WriteCtx → WriteCtx) : (modCtx c f p).smp = p.smp := by cases c <;> rfl
@[simp] theorem modCtx_pee (c : CtxId) (f : WriteCtx → WriteCtx) : (modCtx c f p).pee = p.pee := by cases c <;> rfl
@[simp] theorem modCtx_rcu (c : CtxId) (f : WriteCtx → WriteCtx) : (modCtx c f p).rcu = p.rcu := by cases c <;> rfl
@[simp] theorem modCtx_mli (c : CtxId) (f : WriteCtx → WriteCtx) : (modCtx c f p).mli = p.mli := by cases c <;> rfl
@[simp] theorem modCtx_scu (c : CtxId) (f : WriteCtx → WriteCtx) : (modCtx c f p).scu = p.scu := by cases c <;> rfl

/-! ### modEntry -/

@[simp] theorem modEntry_run (s : Nat) (f : DirEntry → DirEntry) : (modEntry s f p).run = p.run := rfl
@[simp] theorem modEntry_link (s : Nat) (f : DirEntry → DirEntry) : (modEntry s f p).link = p.link := rfl
@[simp] theorem modEntry_rqs (s : Nat) (f : DirEntry → DirEntry) : (modEntry s f p).rqs = p.rqs := rfl
@[simp] theorem modEntry_smp (s : Nat) (f : DirEntry → DirEntry) : (modEntry s f p).smp = p.smp := rfl
@[simp] theorem modEntry_pee (s : Nat) (f : DirEntry → DirEntry) : (modEntry s f p).pee = p.pee := rfl
@[simp] theorem modEntry_wcu (s : Nat) (f : DirEntry → DirEntry) : (modEntry s f p).wcu = p.wcu := rfl
@[simp] theorem modEntry_rcu (s : Nat) (f : DirEntry → DirEntry) : (modEntry s f p).rcu = p.rcu := rfl
@[simp] theorem modEntry_mli (s : Nat) (f : DirEntry → DirEntry) : (modEntry s f p).mli = p.mli := rfl
@[simp] theorem modEntry_scu (s : Nat) (f : DirEntry → DirEntry) : (modEntry s f p).scu = p.scu := rfl

/-! ### modRetiring -/

@[simp] theorem modRetiring_run (s q : Nat) (f : Retiring → Retiring) : (modRetiring s q f p).run = p.run := rfl
@[simp] theorem modRetiring_link (s q : Nat) (f : Retiring → Retiring) : (modRetiring s q f p).link = p.link := rfl
@[simp] theorem modRetiring_rqs (s q : Nat) (f : Retiring → Retiring) : (modRetiring s q f p).rqs = p.rqs := rfl
@[simp] theorem modRetiring_smp (s q : Nat) (f : Retiring → Retiring) : (modRetiring s q f p).smp = p.smp := rfl
@[simp] theorem modRetiring_pee (s q : Nat) (f : Retiring → Retiring) : (modRetiring s q f p).pee = p.pee := rfl
@[simp] theorem modRetiring_wcu (s q : Nat) (f : Retiring → Retiring) : (modRetiring s q f p).wcu = p.wcu := rfl
@[simp] theorem modRetiring_rcu (s q : Nat) (f : Retiring → Retiring) : (modRetiring s q f p).rcu = p.rcu := rfl
@[simp] theorem modRetiring_mli (s q : Nat) (f : Retiring → Retiring) : (modRetiring s q f p).mli = p.mli := rfl
@[simp] theorem modRetiring_scu (s q : Nat) (f : Retiring → Retiring) : (modRetiring s q f p).scu = p.scu := rfl

/-! ### modServing -/

@[simp] theorem modServing_run (a : Nat) (f : Serving → Serving) : (modServing a f p).run = p.run := rfl
@[simp] theorem modServing_link (a : Nat) (f : Serving → Serving) : (modServing a f p).link = p.link := rfl
@[simp] theorem modServing_rqs (a : Nat) (f : Serving → Serving) : (modServing a f p).rqs = p.rqs := rfl
@[simp] theorem modServing_smp (a : Nat) (f : Serving → Serving) : (modServing a f p).smp = p.smp := rfl
@[simp] theorem modServing_pee (a : Nat) (f : Serving → Serving) : (modServing a f p).pee = p.pee := rfl
@[simp] theorem modServing_wcu (a : Nat) (f : Serving → Serving) : (modServing a f p).wcu = p.wcu := rfl
@[simp] theorem modServing_rcu (a : Nat) (f : Serving → Serving) : (modServing a f p).rcu = p.rcu := rfl
@[simp] theorem modServing_mli (a : Nat) (f : Serving → Serving) : (modServing a f p).mli = p.mli := rfl
@[simp] theorem modServing_scu (a : Nat) (f : Serving → Serving) : (modServing a f p).scu = p.scu := rfl

/-! ### dropServing -/

@[simp] theorem dropServing_run (a : Nat) : (dropServing a p).run = p.run := rfl
@[simp] theorem dropServing_link (a : Nat) : (dropServing a p).link = p.link := rfl
@[simp] theorem dropServing_rqs (a : Nat) : (dropServing a p).rqs = p.rqs := rfl
@[simp] theorem dropServing_smp (a : Nat) : (dropServing a p).smp = p.smp := rfl
@[simp] theorem dropServing_pee (a : Nat) : (dropServing a p).pee = p.pee := rfl
@[simp] theorem dropServing_wcu (a : Nat) : (dropServing a p).wcu = p.wcu := rfl
@[simp] theorem dropServing_rcu (a : Nat) : (dropServing a p).rcu = p.rcu := rfl
@[simp] theorem dropServing_mli (a : Nat) : (dropServing a p).mli = p.mli := rfl
@[simp] theorem dropServing_scu (a : Nat) : (dropServing a p).scu = p.scu := rfl

/-! ### dropEntry -/

@[simp] theorem dropEntry_run (a : Nat) : (dropEntry a p).run = p.run := rfl
@[simp] theorem dropEntry_link (a : Nat) : (dropEntry a p).link = p.link := rfl
@[simp] theorem dropEntry_sdr (a : Nat) : (dropEntry a p).sdr = p.sdr := rfl
@[simp] theorem dropEntry_smp (a : Nat) : (dropEntry a p).smp = p.smp := rfl
@[simp] theorem dropEntry_pee (a : Nat) : (dropEntry a p).pee = p.pee := rfl
@[simp] theorem dropEntry_wcu (a : Nat) : (dropEntry a p).wcu = p.wcu := rfl
@[simp] theorem dropEntry_rcu (a : Nat) : (dropEntry a p).rcu = p.rcu := rfl
@[simp] theorem dropEntry_mli (a : Nat) : (dropEntry a p).mli = p.mli := rfl
@[simp] theorem dropEntry_scu (a : Nat) : (dropEntry a p).scu = p.scu := rfl

/-! ### modQueue -/

@[simp] theorem modQueue_run (a : Nat) (f : Entry → Entry) : (modQueue a f p).run = p.run := rfl
@[simp] theorem modQueue_link (a : Nat) (f : Entry → Entry) : (modQueue a f p).link = p.link := rfl
@[simp] theorem modQueue_sdr (a : Nat) (f : Entry → Entry) : (modQueue a f p).sdr = p.sdr := rfl
@[simp] theorem modQueue_smp (a : Nat) (f : Entry → Entry) : (modQueue a f p).smp = p.smp := rfl
@[simp] theorem modQueue_pee (a : Nat) (f : Entry → Entry) : (modQueue a f p).pee = p.pee := rfl
@[simp] theorem modQueue_wcu (a : Nat) (f : Entry → Entry) : (modQueue a f p).wcu = p.wcu := rfl
@[simp] theorem modQueue_rcu (a : Nat) (f : Entry → Entry) : (modQueue a f p).rcu = p.rcu := rfl
@[simp] theorem modQueue_mli (a : Nat) (f : Entry → Entry) : (modQueue a f p).mli = p.mli := rfl
@[simp] theorem modQueue_scu (a : Nat) (f : Entry → Entry) : (modQueue a f p).scu = p.scu := rfl

/-! ### withdraw -/

@[simp] theorem withdraw_run (o : Owner) : (withdraw o p).run = p.run := rfl
@[simp] theorem withdraw_link (o : Owner) : (withdraw o p).link = p.link := rfl
@[simp] theorem withdraw_rqs (o : Owner) : (withdraw o p).rqs = p.rqs := rfl
@[simp] theorem withdraw_sdr (o : Owner) : (withdraw o p).sdr = p.sdr := rfl
@[simp] theorem withdraw_smp (o : Owner) : (withdraw o p).smp = p.smp := rfl
@[simp] theorem withdraw_wcu (o : Owner) : (withdraw o p).wcu = p.wcu := rfl
@[simp] theorem withdraw_rcu (o : Owner) : (withdraw o p).rcu = p.rcu := rfl
@[simp] theorem withdraw_mli (o : Owner) : (withdraw o p).mli = p.mli := rfl
@[simp] theorem withdraw_scu (o : Owner) : (withdraw o p).scu = p.scu := rfl

/-! ### endOp -/

@[simp] theorem endOp_run : (endOp p).run = p.run := rfl
@[simp] theorem endOp_link : (endOp p).link = p.link := rfl
@[simp] theorem endOp_rqs : (endOp p).rqs = p.rqs := rfl
@[simp] theorem endOp_sdr : (endOp p).sdr = p.sdr := rfl
@[simp] theorem endOp_smp : (endOp p).smp = p.smp := rfl
@[simp] theorem endOp_wcu : (endOp p).wcu = p.wcu := rfl
@[simp] theorem endOp_rcu : (endOp p).rcu = p.rcu := rfl
@[simp] theorem endOp_mli : (endOp p).mli = p.mli := rfl
@[simp] theorem endOp_scu : (endOp p).scu = p.scu := rfl

/-! ### endTransaction -/

@[simp] theorem endTransaction_run (bs : List Byte) : (endTransaction bs p).run = p.run := rfl
@[simp] theorem endTransaction_rqs (bs : List Byte) : (endTransaction bs p).rqs = p.rqs := rfl
@[simp] theorem endTransaction_sdr (bs : List Byte) : (endTransaction bs p).sdr = p.sdr := rfl
@[simp] theorem endTransaction_smp (bs : List Byte) : (endTransaction bs p).smp = p.smp := rfl
@[simp] theorem endTransaction_pee (bs : List Byte) : (endTransaction bs p).pee = p.pee := rfl
@[simp] theorem endTransaction_wcu (bs : List Byte) : (endTransaction bs p).wcu = p.wcu := rfl
@[simp] theorem endTransaction_rcu (bs : List Byte) : (endTransaction bs p).rcu = p.rcu := rfl
@[simp] theorem endTransaction_mli (bs : List Byte) : (endTransaction bs p).mli = p.mli := rfl
@[simp] theorem endTransaction_scu (bs : List Byte) : (endTransaction bs p).scu = p.scu := rfl

/-! ### removeTaker -/

@[simp] theorem removeTaker_run (c : CtxId) : (removeTaker c p).run = p.run := rfl
@[simp] theorem removeTaker_link (c : CtxId) : (removeTaker c p).link = p.link := rfl
@[simp] theorem removeTaker_rqs (c : CtxId) : (removeTaker c p).rqs = p.rqs := rfl
@[simp] theorem removeTaker_sdr (c : CtxId) : (removeTaker c p).sdr = p.sdr := rfl
@[simp] theorem removeTaker_pee (c : CtxId) : (removeTaker c p).pee = p.pee := rfl
@[simp] theorem removeTaker_wcu (c : CtxId) : (removeTaker c p).wcu = p.wcu := rfl
@[simp] theorem removeTaker_rcu (c : CtxId) : (removeTaker c p).rcu = p.rcu := rfl
@[simp] theorem removeTaker_mli (c : CtxId) : (removeTaker c p).mli = p.mli := rfl
@[simp] theorem removeTaker_scu (c : CtxId) : (removeTaker c p).scu = p.scu := rfl

/-! ### clearTail -/

@[simp] theorem clearTail_run (i : Nat) : (clearTail i p).run = p.run := rfl
@[simp] theorem clearTail_link (i : Nat) : (clearTail i p).link = p.link := rfl
@[simp] theorem clearTail_rqs (i : Nat) : (clearTail i p).rqs = p.rqs := rfl
@[simp] theorem clearTail_sdr (i : Nat) : (clearTail i p).sdr = p.sdr := rfl
@[simp] theorem clearTail_pee (i : Nat) : (clearTail i p).pee = p.pee := rfl
@[simp] theorem clearTail_wcu (i : Nat) : (clearTail i p).wcu = p.wcu := rfl
@[simp] theorem clearTail_rcu (i : Nat) : (clearTail i p).rcu = p.rcu := rfl
@[simp] theorem clearTail_mli (i : Nat) : (clearTail i p).mli = p.mli := rfl
@[simp] theorem clearTail_scu (i : Nat) : (clearTail i p).scu = p.scu := rfl

/-! ### modJob -/

@[simp] theorem modJob_run (f : Job → Job) : (modJob f p).run = p.run := rfl
@[simp] theorem modJob_link (f : Job → Job) : (modJob f p).link = p.link := rfl
@[simp] theorem modJob_rqs (f : Job → Job) : (modJob f p).rqs = p.rqs := rfl
@[simp] theorem modJob_sdr (f : Job → Job) : (modJob f p).sdr = p.sdr := rfl
@[simp] theorem modJob_smp (f : Job → Job) : (modJob f p).smp = p.smp := rfl
@[simp] theorem modJob_pee (f : Job → Job) : (modJob f p).pee = p.pee := rfl
@[simp] theorem modJob_wcu (f : Job → Job) : (modJob f p).wcu = p.wcu := rfl
@[simp] theorem modJob_mli (f : Job → Job) : (modJob f p).mli = p.mli := rfl
@[simp] theorem modJob_scu (f : Job → Job) : (modJob f p).scu = p.scu := rfl

/-! ### modStep -/

@[simp] theorem modStep_run (f : Step → Step) : (modStep f p).run = p.run := rfl
@[simp] theorem modStep_link (f : Step → Step) : (modStep f p).link = p.link := rfl
@[simp] theorem modStep_rqs (f : Step → Step) : (modStep f p).rqs = p.rqs := rfl
@[simp] theorem modStep_sdr (f : Step → Step) : (modStep f p).sdr = p.sdr := rfl
@[simp] theorem modStep_smp (f : Step → Step) : (modStep f p).smp = p.smp := rfl
@[simp] theorem modStep_pee (f : Step → Step) : (modStep f p).pee = p.pee := rfl
@[simp] theorem modStep_wcu (f : Step → Step) : (modStep f p).wcu = p.wcu := rfl
@[simp] theorem modStep_mli (f : Step → Step) : (modStep f p).mli = p.mli := rfl
@[simp] theorem modStep_scu (f : Step → Step) : (modStep f p).scu = p.scu := rfl

/-! ### startSuspension -/

@[simp] theorem startSuspension_run (a : Nat) : (startSuspension a p).run = p.run := rfl
@[simp] theorem startSuspension_link (a : Nat) : (startSuspension a p).link = p.link := rfl
@[simp] theorem startSuspension_rqs (a : Nat) : (startSuspension a p).rqs = p.rqs := rfl
@[simp] theorem startSuspension_sdr (a : Nat) : (startSuspension a p).sdr = p.sdr := rfl
@[simp] theorem startSuspension_smp (a : Nat) : (startSuspension a p).smp = p.smp := rfl
@[simp] theorem startSuspension_wcu (a : Nat) : (startSuspension a p).wcu = p.wcu := rfl
@[simp] theorem startSuspension_rcu (a : Nat) : (startSuspension a p).rcu = p.rcu := rfl
@[simp] theorem startSuspension_mli (a : Nat) : (startSuspension a p).mli = p.mli := rfl
@[simp] theorem startSuspension_scu (a : Nat) : (startSuspension a p).scu = p.scu := rfl

/-! ### What they write -/

@[simp] theorem setCond_replies (c : Cond) : (setCond c p).link.replies = p.link.replies := rfl
@[simp] theorem setCond_held (c : Cond) : (setCond c p).link.held = p.link.held := rfl
@[simp] theorem setCond_transaction (c : Cond) : (setCond c p).link.transaction = p.link.transaction := rfl
@[simp] theorem setCond_miso (c : Cond) : (setCond c p).link.miso = p.link.miso := rfl
@[simp] theorem setCond_floor (c : Cond) : (setCond c p).link.floor = p.link.floor := rfl
@[simp] theorem pushReply_replies (r : Reply) : (pushReply r p).link.replies = p.link.replies ++ [r] := rfl
@[simp] theorem pushReply_held (r : Reply) : (pushReply r p).link.held = p.link.held := rfl
@[simp] theorem pushReply_conds (r : Reply) : (pushReply r p).link.conds = p.link.conds := rfl
@[simp] theorem pushReply_transaction (r : Reply) : (pushReply r p).link.transaction = p.link.transaction := rfl
@[simp] theorem pushReply_miso (r : Reply) : (pushReply r p).link.miso = p.link.miso := rfl
@[simp] theorem pushReply_floor (r : Reply) : (pushReply r p).link.floor = p.link.floor := rfl
@[simp] theorem modSector_zones (i : Nat) (f : Sector → Sector) : (modSector i f p).smp.zones = p.smp.zones := rfl
@[simp] theorem modZone_sectors (z : Nat) (f : Zone → Zone) : (modZone z f p).smp.sectors = p.smp.sectors := rfl
@[simp] theorem modEntry_retiring (s : Nat) (f : DirEntry → DirEntry) : (modEntry s f p).sdr.retiring = p.sdr.retiring := rfl
@[simp] theorem modEntry_serving (s : Nat) (f : DirEntry → DirEntry) : (modEntry s f p).sdr.serving = p.sdr.serving := rfl
@[simp] theorem modEntry_sequence (s : Nat) (f : DirEntry → DirEntry) : (modEntry s f p).sdr.sequence = p.sdr.sequence := rfl
@[simp] theorem dropServing_directory (a : Nat) : (dropServing a p).sdr.directory = p.sdr.directory := rfl
@[simp] theorem modQueue_reserve (a : Nat) (f : Entry → Entry) : (modQueue a f p).rqs.reserve = p.rqs.reserve := rfl
@[simp] theorem modQueue_nextAge (a : Nat) (f : Entry → Entry) : (modQueue a f p).rqs.nextAge = p.rqs.nextAge := rfl
@[simp] theorem dropEntry_reserve (a : Nat) : (dropEntry a p).rqs.reserve = p.rqs.reserve := rfl
@[simp] theorem dropEntry_nextAge (a : Nat) : (dropEntry a p).rqs.nextAge = p.rqs.nextAge := rfl
@[simp] theorem withdraw_preempt (o : Owner) : (withdraw o p).pee.preempt = p.pee.preempt := rfl
@[simp] theorem withdraw_state (o : Owner) : (withdraw o p).pee.state = p.pee.state := rfl
@[simp] theorem withdraw_op (o : Owner) : (withdraw o p).pee.op = p.pee.op := rfl
@[simp] theorem endOp_preempt : (endOp p).pee.preempt = p.pee.preempt := rfl
@[simp] theorem endOp_claims : (endOp p).pee.claims = p.pee.claims := rfl
@[simp] theorem endOp_op : (endOp p).pee.op = none := rfl
@[simp] theorem endTransaction_replies (bs : List Byte) : (endTransaction bs p).link.replies = p.link.replies := rfl
@[simp] theorem endTransaction_held (bs : List Byte) : (endTransaction bs p).link.held = p.link.held := rfl
@[simp] theorem endTransaction_conds (bs : List Byte) : (endTransaction bs p).link.conds = p.link.conds := rfl
@[simp] theorem endTransaction_floor (bs : List Byte) : (endTransaction bs p).link.floor = p.link.floor := rfl
@[simp] theorem endTransaction_miso (bs : List Byte) : (endTransaction bs p).link.miso = bs := rfl
@[simp] theorem endTransaction_transaction (bs : List Byte) : (endTransaction bs p).link.transaction = .none := rfl
@[simp] theorem startSuspension_preempt (a : Nat) : (startSuspension a p).pee.preempt = p.pee.preempt := rfl

/-- A context reads as the change of it says. -/
@[simp] theorem modCtx_ctx (c : CtxId) (f : WriteCtx → WriteCtx) : (modCtx c f p).ctx c = f (p.ctx c) := by cases c <;> rfl

end Sys2Proof.Machine
end

