-- ==== Sys2Proof/Laws/Map.lean ====
section
/-! SUPPORT. What the Sector Map's operations that seal, give up, judge or make suspect leave as it is (`MapStep`): the queue, the
directory, the replies, the running operation and the batch, the contexts but for their sectors, the three counts, the plan and
the runner's step. One lemma for each operation, in the form "if `q` follows `p`, so does the operation on `q`". -/

namespace Sys2Proof.Machine

/-! ### Sectors -/

theorem sector_modSector (i j : Nat) (f : Sector → Sector) (p : Part) :
    (modSector i f p).sector j = if i = j ∧ j < p.smp.sectors.length then f (p.sector j) else p.sector j := by
  unfold Part.sector modSector
  simp only [List.getD_eq_getElem?_getD, List.getElem?_modify]
  by_cases hj : j < p.smp.sectors.length
  · by_cases hij : i = j
    · subst hij; simp [hj]
    · simp [hij, hj]
  · simp [hj]

theorem sector_modSector_other {i j : Nat} (h : i ≠ j) (f : Sector → Sector) (p : Part) :
    (modSector i f p).sector j = p.sector j := by
  rw [sector_modSector, if_neg (fun x => h x.1)]

theorem sector_modSector_self {i : Nat} {p : Part} (h : i < p.smp.sectors.length) (f : Sector → Sector) :
    (modSector i f p).sector i = f (p.sector i) := by
  rw [sector_modSector, if_pos ⟨rfl, h⟩]

@[simp] theorem modSector_length (i : Nat) (f : Sector → Sector) (p : Part) :
    (modSector i f p).smp.sectors.length = p.smp.sectors.length := List.length_modify ..

@[simp] theorem modCtx_sector (c : CtxId) (f : WriteCtx → WriteCtx) (p : Part) (i : Nat) : (modCtx c f p).sector i = p.sector i := by
  cases c <;> rfl

theorem modCtx_ctx_other {c d : CtxId} (h : d ≠ c) (f : WriteCtx → WriteCtx) (p : Part) : (modCtx c f p).ctx d = p.ctx d := by
  cases c <;> cases d <;> first | rfl | exact absurd rfl h

/-! ### Zones -/

/-- What the operations of the Sector Map leave of a zone: all but its tail and its spare. -/
def Zone.fixed (z : Zone) : Zone := { z with tail := none, spareInUse := false }

/-- A change of one zone's row shows in no figure of the zones that it leaves as it is. -/
theorem modZone_map {α : Type} (g : Zone → α) (z : Nat) (f : Zone → Zone) (hf : ∀ r, g (f r) = g r) (p : Part) :
    (modZone z f p).smp.zones.map g = p.smp.zones.map g := by
  apply List.ext_getElem?
  intro n
  simp only [modZone, List.getElem?_map, List.getElem?_modify]
  cases p.smp.zones[n]? with
  | none => rfl
  | some r => simp only [Option.map_some]; split <;> simp [hf]

/-- R53, R130: the spare's return changes a zone's spare and may lift a hold; it leaves everything else. -/
theorem returnSpare_eq (z : Nat) (p : Part) : ∃ zs h, returnSpare z p =
    { p with smp := { p.smp with zones := zs }, rcu := { p.rcu with hold := h } } ∧ (h = p.rcu.hold ∨ h = none) ∧
    zs.map (fun r => { r with spareInUse := false }) = p.smp.zones.map (fun r => { r with spareInUse := false }) := by
  unfold returnSpare
  split
  · have hz := modZone_map (fun r : Zone => { r with spareInUse := false }) z (fun r => { r with spareInUse := false }) (fun _ => rfl) p
    unfold liftHold
    split
    · exact ⟨_, _, rfl, .inr rfl, hz⟩
    · exact ⟨_, _, rfl, .inl rfl, hz⟩
  · exact ⟨_, _, rfl, .inl rfl, rfl⟩

@[simp] theorem returnSpare_sectors (z : Nat) (p : Part) : (returnSpare z p).smp.sectors = p.smp.sectors := by
  obtain ⟨_, _, h, _⟩ := returnSpare_eq z p; rw [h]

/-! ### The relation -/

/-- `q` may follow `p` by operations that seal, give up, judge or make suspect. -/
structure MapStep (p q : Part) : Prop where
  run     : q.run = p.run
  rqs     : q.rqs = p.rqs
  sdr     : q.sdr = p.sdr
  mli     : q.mli = p.mli
  scu     : q.scu = p.scu
  link    : q.link = { p.link with conds := q.link.conds }
  conds   : ∀ (n : Nat) (r : CondRow), p.link.conds[n]? = some r → ∃ t, q.link.conds[n]? = some t ∧ (r.set = true → t.set = true) ∧
              t.enable = r.enable ∧ t.level = r.level
  condLen : q.link.conds.length = p.link.conds.length
  op      : q.pee.op = p.pee.op
  batch   : q.pee.batch = p.pee.batch
  preempt : q.pee.preempt = p.pee.preempt
  claims  : ∃ l, q.pee.claims = p.pee.claims ++ l ∧ ∀ c ∈ l, c.purpose.owner = .reclaim ∨ ∃ i, c.purpose.owner = .suspect i
  ctx     : ∀ c, q.ctx c = { p.ctx c with owned := (q.ctx c).owned }
  length  : q.smp.sectors.length = p.smp.sectors.length
  counts  : ∀ j, (q.sector j).zone = (p.sector j).zone ∧ (q.sector j).eraseCount = (p.sector j).eraseCount ∧
              (q.sector j).live = (p.sector j).live ∧ (q.sector j).pending = (p.sector j).pending ∧
              (q.sector j).retiring = (p.sector j).retiring
  suspect : ∀ j, (p.sector j).suspect = true → (q.sector j).suspect = true
  zones   : q.smp.zones.map Zone.fixed = p.smp.zones.map Zone.fixed
  step    : q.rcu.step = p.rcu.step
  job     : q.rcu.job = p.rcu.job
  kind    : q.rcu.lastKind = p.rcu.lastKind
  stop    : q.rcu.stopAtEnd = p.rcu.stopAtEnd
  hold    : q.rcu.hold = p.rcu.hold ∨ q.rcu.hold = none
  erase   : ∀ i, i ∈ p.rcu.eraseQueue ∨ (∃ b, p.rcu.openBatch = some b ∧ i ∈ b.sectors) →
              i ∈ q.rcu.eraseQueue ∨ ∃ b, q.rcu.openBatch = some b ∧ i ∈ b.sectors
  opened  : ∀ b, p.rcu.openBatch = some b → ∃ t, q.rcu.openBatch = some t ∧ t.zone = b.zone ∧ b.sectors <+: t.sectors ∧
              (b.raised = true → t.raised = true) ∧ (t.raised = b.raised → t.window = b.window)
  evac    : ∀ i ∈ p.rcu.evacQueue, i ∈ q.rcu.evacQueue ∨ (q.sector i).countsZero = true

theorem countsZero_of_counts {s t : Sector} (h : t.live = s.live ∧ t.pending = s.pending ∧ t.retiring = s.retiring) :
    t.countsZero = s.countsZero := by simp only [Sector.countsZero, h]

variable {p q : Part}

theorem MapStep.refl (p : Part) : MapStep p p where
  run := rfl
  rqs := rfl
  sdr := rfl
  mli := rfl
  scu := rfl
  link := rfl
  conds := fun _ r h => ⟨r, h, id, rfl, rfl⟩
  condLen := rfl
  op := rfl
  batch := rfl
  preempt := rfl
  claims := ⟨[], by simp⟩
  ctx := fun _ => rfl
  length := rfl
  counts := fun _ => ⟨rfl, rfl, rfl, rfl, rfl⟩
  suspect := fun _ => id
  zones := rfl
  step := rfl
  job := rfl
  kind := rfl
  stop := rfl
  hold := .inl rfl
  erase := fun _ => id
  opened := fun b h => ⟨b, h, rfl, List.prefix_refl _, id, fun _ => rfl⟩
  evac := fun _ => .inl

theorem MapStep.trans {r : Part} (h : MapStep p q) (g : MapStep q r) : MapStep p r where
  run := g.run.trans h.run
  rqs := g.rqs.trans h.rqs
  sdr := g.sdr.trans h.sdr
  mli := g.mli.trans h.mli
  scu := g.scu.trans h.scu
  link := by rw [g.link, h.link]
  conds := fun n x hx => by
    obtain ⟨t, a, b, c, d⟩ := h.conds n x hx
    obtain ⟨u, a', b', c', d'⟩ := g.conds n t a
    exact ⟨u, a', fun y => b' (b y), c'.trans c, d'.trans d⟩
  condLen := g.condLen.trans h.condLen
  op := g.op.trans h.op
  batch := g.batch.trans h.batch
  preempt := g.preempt.trans h.preempt
  claims := by
    obtain ⟨l, a, b⟩ := h.claims
    obtain ⟨m, c, d⟩ := g.claims
    refine ⟨l ++ m, by rw [c, a, List.append_assoc], fun x hx => ?_⟩
    rcases List.mem_append.1 hx with hx | hx
    · exact b x hx
    · exact d x hx
  ctx := fun c => by rw [g.ctx c, h.ctx c]
  length := g.length.trans h.length
  counts := fun j => by
    obtain ⟨a, b, c, d, e⟩ := h.counts j
    obtain ⟨a', b', c', d', e'⟩ := g.counts j
    exact ⟨a'.trans a, b'.trans b, c'.trans c, d'.trans d, e'.trans e⟩
  suspect := fun j x => g.suspect j (h.suspect j x)
  zones := g.zones.trans h.zones
  step := g.step.trans h.step
  job := g.job.trans h.job
  kind := g.kind.trans h.kind
  stop := g.stop.trans h.stop
  hold := g.hold.elim (fun a => h.hold.imp a.trans a.trans) .inr
  erase := fun i x => g.erase i (h.erase i x)
  opened := fun b hb => by
    obtain ⟨t, a, c, d, e, f⟩ := h.opened b hb
    obtain ⟨u, a', c', d', e', f'⟩ := g.opened t a
    refine ⟨u, a', c'.trans c, d.trans d', fun x => e' (e x), fun x => ?_⟩
    have : t.raised = b.raised := by
      cases hb : b.raised with
      | true => exact e hb
      | false =>
        cases ht : t.raised with
        | false => rfl
        | true => rw [e' ht] at x; rw [← x] at hb; exact absurd hb (by decide)
    rw [f' (x.trans this.symm), f this]
  evac := fun i x => by
    rcases h.evac i x with y | y
    · exact g.evac i y
    · refine .inr ?_
      obtain ⟨_, _, c, d, e⟩ := g.counts i
      rw [countsZero_of_counts ⟨c, d, e⟩, y]

/-! ### Plain changes -/

/-- A change of sectors that keeps what the relation keeps of a sector. -/
theorem modSector_mapStep (h : MapStep p q) (i : Nat) (f : Sector → Sector)
    (hf : ∀ s, (f s).zone = s.zone ∧ (f s).eraseCount = s.eraseCount ∧ (f s).live = s.live ∧ (f s).pending = s.pending ∧
      (f s).retiring = s.retiring ∧ (s.suspect = true → (f s).suspect = true)) : MapStep p (modSector i f q) := by
  refine h.trans { MapStep.refl q with
    length := modSector_length .., counts := fun j => ?_, suspect := fun j => ?_, evac := fun _ x => .inl x }
  · rw [sector_modSector]; split
    · exact ⟨(hf _).1, (hf _).2.1, (hf _).2.2.1, (hf _).2.2.2.1, (hf _).2.2.2.2.1⟩
    · exact ⟨rfl, rfl, rfl, rfl, rfl⟩
  · rw [sector_modSector]; split
    · exact (hf _).2.2.2.2.2
    · exact id

theorem setCond_mapStep (h : MapStep p q) (c : Cond) : MapStep p (setCond c q) := by
  refine h.trans { MapStep.refl q with link := rfl, conds := fun n r hr => ?_, condLen := List.length_modify .. }
  have : (setCond c q).link.conds[n]? = if c.index = n then some { r with set := true } else some r := by
    simp only [setCond, List.getElem?_modify, hr]
    split <;> rfl
  rw [this]
  split
  · exact ⟨_, rfl, fun _ => rfl, rfl, rfl⟩
  · exact ⟨_, rfl, id, rfl, rfl⟩

/-- A change of zones' tails and spares. -/
theorem zones_mapStep (h : MapStep p q) (zs : List Zone) (hz : zs.map Zone.fixed = q.smp.zones.map Zone.fixed) :
    MapStep p { q with smp := { q.smp with zones := zs } } :=
  h.trans { MapStep.refl q with zones := hz }

theorem modZone_tail_mapStep (h : MapStep p q) (z : Nat) (t : Option Nat) :
    MapStep p (modZone z (fun r => { r with tail := t }) q) :=
  zones_mapStep h _ (modZone_map Zone.fixed z (fun r => { r with tail := t }) (fun _ => rfl) q)

theorem returnSpare_mapStep (h : MapStep p q) (z : Nat) : MapStep p (returnSpare z q) := by
  obtain ⟨zs, o, e, ho, hz⟩ := returnSpare_eq z q
  rw [e]
  refine h.trans { MapStep.refl q with hold := ho, zones := ?_ }
  have g := congrArg (List.map Zone.fixed) hz
  rw [List.map_map, List.map_map] at g
  exact g

theorem clearTail_mapStep (h : MapStep p q) (i : Nat) : MapStep p (clearTail i q) := by
  refine zones_mapStep h _ ?_
  simp only [List.map_map]
  congr 1
  funext z
  simp only [Function.comp]
  split <;> rfl

theorem raise_mapStep (h : MapStep p q) (u : Purpose) (k : OpKind) (l : Nat) (t : Target)
    (hu : u.owner = .reclaim ∨ ∃ i, u.owner = .suspect i) : MapStep p (raise u k l t q) := by
  refine h.trans ?_
  unfold raise startSuspension
  dsimp only
  split
  all_goals exact { MapStep.refl q with claims := ⟨[_], rfl, by simpa using hu⟩ }

theorem modCtx_owned_mapStep (h : MapStep p q) (c : CtxId) (o : Option Nat) :
    MapStep p (modCtx c (fun k => { k with owned := o }) q) := by
  refine h.trans ?_
  cases c
  all_goals exact { MapStep.refl q with ctx := fun d => by cases d <;> rfl }

/-! ### The erase queue and the open batch -/

theorem raiseErase_mapStep (h : MapStep p q) (hr : ∀ b, q.rcu.openBatch = some b → b.raised = false) : MapStep p (raiseErase q) := by
  unfold raiseErase
  cases hb : q.rcu.openBatch with
  | none => exact h
  | some b =>
    refine raise_mapStep (q := { q with rcu := { q.rcu with openBatch := some { b with window := none, raised := true } } }) ?_ _ _ _ _
      (.inl rfl)
    refine h.trans { MapStep.refl q with
      erase := fun i x => ?_
      opened := fun c hc => ?_ }
    · rcases x with x | ⟨c, hc, x⟩
      · exact .inl x
      · rw [hb] at hc; cases hc; exact .inr ⟨_, rfl, x⟩
    · rw [hb] at hc; cases hc
      refine ⟨_, rfl, rfl, List.prefix_refl _, fun _ => rfl, fun x => ?_⟩
      rw [hr b hb] at x; cases x

theorem takeOfZone_mem (p : Part) (z : Nat) : ∀ (l : List Nat) (n i : Nat), i ∈ l → i ∈ (takeOfZone p z n l).1 ∨ i ∈ (takeOfZone p z n l).2 := by
  intro l
  induction l with
  | nil => intro n i h; cases h
  | cons s l ih =>
    intro n i h
    cases n with
    | zero => exact .inr h
    | succ n =>
      unfold takeOfZone
      split
      · rcases List.mem_cons.1 h with h | h
        · subst h; exact .inl (List.mem_cons_self ..)
        · rcases ih n i h with a | a
          · exact .inl (List.mem_cons_of_mem _ a)
          · exact .inr a
      · rcases List.mem_cons.1 h with h | h
        · subst h; exact .inr (List.mem_cons_self ..)
        · rcases ih (n + 1) i h with a | a
          · exact .inl a
          · exact .inr (List.mem_cons_of_mem _ a)

theorem openBatch_mapStep (h : MapStep p q) : MapStep p (openBatch q) := by
  unfold openBatch
  split
  · exact h
  · rename_i s l hq
    split
    · rename_i hc
      simp only [Bool.and_eq_true, Option.isNone_iff_eq_none] at hc
      have key : ∀ w : Option Nat, MapStep p { q with rcu := { q.rcu with
          eraseQueue := (takeOfZone q (q.sector s).zone Config.batchMax q.rcu.eraseQueue).2
          openBatch := some { zone := (q.sector s).zone, sectors := (takeOfZone q (q.sector s).zone Config.batchMax q.rcu.eraseQueue).1,
                              window := w, raised := false } } } := by
        intro w
        refine h.trans { MapStep.refl q with
          erase := fun i x => ?_
          opened := fun c hc' => ?_ }
        · rcases x with x | ⟨c, hc', x⟩
          · rcases takeOfZone_mem q (q.sector s).zone _ Config.batchMax i x with a | a
            · exact .inr ⟨_, rfl, a⟩
            · exact .inl a
          · rw [hc.1.2] at hc'; cases hc'
        · rw [hc.1.2] at hc'; cases hc'
      dsimp only
      split
      · exact raiseErase_mapStep (key _) (by intro b hb; cases hb; rfl)
      · exact key _
    · exact h

theorem joinErase_mapStep (h : MapStep p q) (i : Nat) : MapStep p (joinErase i q) := by
  have queued : MapStep p { q with rcu := { q.rcu with eraseQueue := q.rcu.eraseQueue ++ [i] } } :=
    h.trans { MapStep.refl q with
      erase := fun j x => by
        rcases x with x | x
        · exact .inl (List.mem_append_left _ x)
        · exact .inr x }
  unfold joinErase
  cases hb : q.rcu.openBatch with
  | none => exact openBatch_mapStep queued
  | some b =>
    dsimp only
    split
    · have joined : MapStep p { q with rcu := { q.rcu with openBatch := some { b with sectors := b.sectors ++ [i] } } } := by
        refine h.trans { MapStep.refl q with
          erase := fun j x => ?_
          opened := fun c hc => ?_ }
        · rcases x with x | ⟨c, hc, x⟩
          · exact .inl x
          · rw [hb] at hc; cases hc; exact .inr ⟨_, rfl, List.mem_append_left _ x⟩
        · rw [hb] at hc; cases hc
          exact ⟨_, rfl, rfl, List.prefix_append .., id, fun _ => rfl⟩
      split
      · rename_i hr
        exact raiseErase_mapStep joined (by intro c hc; cases hc; exact hr.2)
      · exact joined
    · exact queued

/-- Where a sector that joins stands. -/
theorem joinErase_holds (i : Nat) (p : Part) :
    i ∈ (joinErase i p).rcu.eraseQueue ∨ ∃ b, (joinErase i p).rcu.openBatch = some b ∧ i ∈ b.sectors := by
  unfold joinErase
  cases hb : p.rcu.openBatch with
  | none => exact (openBatch_mapStep (MapStep.refl _)).erase i (.inl (by simp))
  | some b =>
    dsimp only
    split
    · split
      · rename_i hr
        refine (raiseErase_mapStep (MapStep.refl _) ?_).erase i (.inr ⟨_, rfl, by simp⟩)
        intro c hc; cases hc; exact hr.2
      · exact .inr ⟨_, rfl, by simp⟩
    · exact .inl (by simp)

/-! ### Sealing and judging -/

/-- R46: a sector whose counts are 0 becomes STALE. -/
theorem becomeStale_mapStep (h : MapStep p q) (i : Nat) (hz : (q.sector i).countsZero = true) : MapStep p (becomeStale i q) := by
  unfold becomeStale
  have stale := modSector_mapStep h i (fun s => { s with state := .stale }) (fun _ => ⟨rfl, rfl, rfl, rfl, rfl, id⟩)
  have left : MapStep p { modSector i (fun s => { s with state := .stale }) q with
      rcu := { q.rcu with evacQueue := q.rcu.evacQueue.filter (fun j => j ≠ i) } } := by
    refine stale.trans { MapStep.refl _ with evac := fun j x => ?_ }
    by_cases hj : j = i
    · subst hj
      refine .inr ?_
      have := (modSector_mapStep (MapStep.refl q) j (fun s => { s with state := .stale }) (fun _ => ⟨rfl, rfl, rfl, rfl, rfl, id⟩)).counts j
      exact (countsZero_of_counts ⟨this.2.2.1, this.2.2.2.1, this.2.2.2.2⟩).trans hz
    · exact .inl (List.mem_filter.2 ⟨x, by simpa using hj⟩)
  dsimp only
  refine returnSpare_mapStep ?_ _
  split
  · exact joinErase_mapStep left i
  · exact left

theorem judgeSector_mapStep (h : MapStep p q) (i : Nat) : MapStep p (judgeSector i q) := by
  unfold judgeSector
  dsimp only
  split
  · split
    · rename_i hz; exact becomeStale_mapStep h i (Bool.and_eq_true_iff.1 hz).1
    · split
      · exact h.trans { MapStep.refl q with evac := fun j x => .inl (List.mem_append_left _ x) }
      · exact h
  · exact h

theorem dropOwner_mapStep (h : MapStep p q) (i : Nat) : MapStep p (dropOwner i q) := by
  unfold dropOwner
  refine modSector_mapStep ?_ i _ (fun _ => ⟨rfl, rfl, rfl, rfl, rfl, id⟩)
  split
  · exact modCtx_owned_mapStep h _ _
  · exact h.trans { MapStep.refl q with step := rfl }
  · exact h

theorem sealSector_mapStep (h : MapStep p q) (i : Nat) : MapStep p (sealSector i q) :=
  judgeSector_mapStep (modSector_mapStep (clearTail_mapStep (dropOwner_mapStep h i) i) i (fun s => { s with state := .sealed })
    (fun _ => ⟨rfl, rfl, rfl, rfl, rfl, id⟩)) i

theorem sealFailed_mapStep (h : MapStep p q) (i : Nat) : MapStep p (sealFailed i q) :=
  sealSector_mapStep (modSector_mapStep h i (fun s => { s with nextWrite := Config.sectorSize }) (fun _ => ⟨rfl, rfl, rfl, rfl, rfl, id⟩)) i

/-- R45: what giving a sector up in a MOUNTED store leaves as it is. -/
theorem giveUp_mapStep (h : MapStep p q) (i : Nat) (hm : q.mounted = true) : MapStep p (giveUp i q) := by
  unfold giveUp
  have dropped := dropOwner_mapStep h i
  have tailed : ∀ r, MapStep p r → MapStep p (modSector i (fun s => { s with state := .tail }) r) :=
    fun r hr => modSector_mapStep hr i _ (fun _ => ⟨rfl, rfl, rfl, rfl, rfl, id⟩)
  simp only [hm, Bool.not_true, Bool.false_eq_true, if_false]
  split
  · split
    · split
      · exact modZone_tail_mapStep (tailed _ dropped) _ _
      · split
        · exact modZone_tail_mapStep (tailed _ (sealSector_mapStep dropped _)) _ _
        · exact sealSector_mapStep dropped i
    · exact sealSector_mapStep dropped i
  · exact sealSector_mapStep dropped i

/-! ### Suspect sectors -/

theorem markSuspect_mapStep (h : MapStep p q) (i : Nat) : MapStep p (markSuspect i q) := by
  unfold markSuspect
  dsimp only
  have s := setCond_mapStep h .media
  split
  · exact s
  · exact raise_mapStep (u := .suspectMark i 1) (modSector_mapStep s i (fun s => { s with suspect := true })
      (fun _ => ⟨rfl, rfl, rfl, rfl, rfl, fun _ => rfl⟩)) _ _ _ (.inr ⟨i, rfl⟩)

theorem settleSuspect_mapStep (h : MapStep p q) (i : Nat) (st : SectorState) : MapStep p (settleSuspect i st q) := by
  unfold settleSuspect
  repeat' split
  all_goals first
    | with_reducible exact h
    | with_reducible exact sealSector_mapStep h i
    | with_reducible exact judgeSector_mapStep h i

theorem makeSuspect_mapStep (h : MapStep p q) (i : Nat) (b : Option Holder) : MapStep p (makeSuspect i b q) := by
  unfold makeSuspect
  split
  · exact sealFailed_mapStep (markSuspect_mapStep h i) i
  · exact settleSuspect_mapStep (markSuspect_mapStep h i) i _

end Sys2Proof.Machine
end

