-- ==== Sys2Proof/Laws/Counts.lean ====
section
/-! SUPPORT. The three counts of a sector under the operations that change them: such an operation is a change of the counts
(`recount`) followed by operations that keep them (`MapStep`). The end of a write context in these words. -/

namespace Sys2Proof.Machine

/-- A change of the three counts of a sector, each by its own function. -/
def Sector.chg (a b c : Nat → Nat) (s : Sector) : Sector :=
  { s with live := a s.live, pending := b s.pending, retiring := c s.retiring }

/-- The part with the counts of every sector changed, by functions that are given its number. -/
def recount (a b c : Nat → Nat → Nat) (p : Part) : Part :=
  { p with smp := { p.smp with sectors := p.smp.sectors.mapIdx (fun j s => s.chg (a j) (b j) (c j)) } }

/-- A function given at one number, and left as it is at the others. -/
def thenAt (i : Nat) (a : Nat → Nat) (f : Nat → Nat → Nat) : Nat → Nat → Nat := fun j n => if j = i then a (f j n) else f j n

/-- The counts left as they are. -/
abbrev same : Nat → Nat → Nat := fun _ n => n

theorem recount_sector (a b c : Nat → Nat → Nat) (p : Part) (j : Nat) :
    (recount a b c p).sector j = if j < p.smp.sectors.length then (p.sector j).chg (a j) (b j) (c j) else p.sector j := by
  unfold Part.sector recount
  simp only [List.getD_eq_getElem?_getD, List.getElem?_mapIdx]
  by_cases hj : j < p.smp.sectors.length <;> simp [hj]

variable {p q : Part} {a b c : Nat → Nat → Nat}

theorem recount_same (p : Part) : recount same same same p = p := by
  unfold recount
  have : p.smp.sectors.mapIdx (fun j s => s.chg (same j) (same j) (same j)) = p.smp.sectors := by
    apply List.ext_getElem?; intro n; simp [Sector.chg]
  rw [this]

theorem MapStep.recounted (h : MapStep p q) : MapStep (recount same same same p) q := by rw [recount_same]; exact h

theorem MapStep.plain (h : MapStep (recount same same same p) q) : MapStep p q := by rw [recount_same] at h; exact h

/-- A change of counts keeps the relation with the change added to the start. A sector that has left the evacuation queue stays
without counts, unless the queue is not spoken of. -/
theorem modSector_counts (h : MapStep (recount a b c p) q) (i : Nat) (x y z : Nat → Nat)
    (he : p.rcu.evacQueue = [] ∨ (x 0 = 0 ∧ y 0 = 0 ∧ z 0 = 0)) :
    MapStep (recount (thenAt i x a) (thenAt i y b) (thenAt i z c) p) (modSector i (Sector.chg x y z) q) := by
  have len : q.smp.sectors.length = p.smp.sectors.length := by
    rw [h.length]; unfold recount; exact List.length_mapIdx
  have start : ∀ j, (recount (thenAt i x a) (thenAt i y b) (thenAt i z c) p).sector j
      = if j = i ∧ j < p.smp.sectors.length then ((recount a b c p).sector j).chg x y z else (recount a b c p).sector j := by
    intro j
    rw [recount_sector, recount_sector]
    by_cases hj : j < p.smp.sectors.length
    · by_cases hi : j = i
      · simp [hi, thenAt, Sector.chg]
        subst hi; simp [hj]
      · have : ∀ (f : Nat → Nat → Nat) (x : Nat → Nat), thenAt i x f j = f j := fun f x => by funext m; exact if_neg hi
        simp only [hj, hi, this, false_and, if_true, if_false]
    · simp [hj]
  have fin : ∀ j, (modSector i (Sector.chg x y z) q).sector j
      = if j = i ∧ j < p.smp.sectors.length then (q.sector j).chg x y z else q.sector j := by
    intro j
    rw [sector_modSector, len]
    by_cases hi : i = j <;> simp [hi, eq_comm]
  exact { h with
    length := by
      rw [modSector_length, len]; unfold recount; exact List.length_mapIdx.symm
    counts := fun j => by
      rw [start, fin]
      obtain ⟨u, e, l, n, r⟩ := h.counts j
      split
      · exact ⟨u, e, congrArg x l, congrArg y n, congrArg z r⟩
      · exact ⟨u, e, l, n, r⟩
    suspect := fun j => by
      rw [start, fin]
      split
      · exact h.suspect j
      · exact h.suspect j
    evac := fun j v => by
      rcases he with he | he
      · have : j ∈ p.rcu.evacQueue := v
        rw [he] at this; cases this
      · rcases h.evac j v with w | w
        · exact .inl w
        · refine .inr ?_
          rw [fin]
          split
          · simp only [Sector.countsZero, Bool.and_eq_true, decide_eq_true_eq] at w ⊢
            simp only [Sector.chg, w, he, and_self]
          · exact w }

/-! ### One change -/

theorem subPending_counts (h : MapStep (recount a b c p) q) (i n : Nat) :
    MapStep (recount a (thenAt i (· - n) b) c p) (subPending i n q) := by
  have := judgeSector_mapStep (modSector_counts h i id (· - n) id (.inr ⟨rfl, Nat.zero_sub n, rfl⟩)) i
  have e : ∀ f, thenAt i id f = f := fun f => by funext j m; unfold thenAt; split <;> rfl
  rw [e, e] at this
  exact this

theorem subLive_counts (h : MapStep (recount a b c p) q) (i n : Nat) :
    MapStep (recount (thenAt i (· - n) a) b c p) (subLive i n q) := by
  have := judgeSector_mapStep (modSector_counts h i (· - n) id id (.inr ⟨Nat.zero_sub n, rfl, rfl⟩)) i
  have e : ∀ f, thenAt i id f = f := fun f => by funext j m; unfold thenAt; split <;> rfl
  rw [e, e] at this
  exact this

theorem subRetiring_counts (h : MapStep (recount a b c p) q) (i n : Nat) :
    MapStep (recount a b (thenAt i (· - n) c) p) (subRetiring i n q) := by
  have := judgeSector_mapStep (modSector_counts h i id id (· - n) (.inr ⟨rfl, rfl, Nat.zero_sub n⟩)) i
  have e : ∀ f, thenAt i id f = f := fun f => by funext j m; unfold thenAt; split <;> rfl
  rw [e, e] at this
  exact this

theorem pendingToLive_counts (he : p.rcu.evacQueue = []) (h : MapStep (recount a b c p) q) (i n : Nat) :
    MapStep (recount (thenAt i (· + n) a) (thenAt i (· - n) b) c p) (pendingToLive i n q) := by
  have := judgeSector_mapStep (modSector_counts h i (· + n) (· - n) id (.inl he)) i
  have e : ∀ f, thenAt i id f = f := fun f => by funext j m; unfold thenAt; split <;> rfl
  rw [e] at this
  exact this

theorem liveToRetiring_counts (he : p.rcu.evacQueue = []) (h : MapStep (recount a b c p) q) (i n : Nat) :
    MapStep (recount (thenAt i (· - n) a) b (thenAt i (· + n) c) p) (liveToRetiring i n q) := by
  have := judgeSector_mapStep (modSector_counts h i (· - n) id (· + n) (.inl he)) i
  have e : ∀ f, thenAt i id f = f := fun f => by funext j m; unfold thenAt; split <;> rfl
  rw [e] at this
  exact this

theorem addLive_counts (he : p.rcu.evacQueue = []) (h : MapStep (recount a b c p) q) (i n : Nat) :
    MapStep (recount (thenAt i (· + n) a) b c p) (addLive i n q) := by
  have := judgeSector_mapStep (modSector_counts h i (· + n) id id (.inl he)) i
  have e : ∀ f, thenAt i id f = f := fun f => by funext j m; unfold thenAt; split <;> rfl
  rw [e, e] at this
  exact this

/-! ### One change for each element -/

theorem thenAt_sub (i n : Nat) (f : Nat → Nat → Nat) (d : Nat → Nat) :
    thenAt i (· - n) (fun j m => f j m - d j) = fun j m => f j m - (d j + if j = i then n else 0) := by
  funext j m; unfold thenAt; split <;> simp_all [Nat.sub_sub]

theorem thenAt_add (i n : Nat) (f : Nat → Nat → Nat) (d : Nat → Nat) :
    thenAt i (· + n) (fun j m => f j m + d j) = fun j m => f j m + (d j + if j = i then n else 0) := by
  funext j m; unfold thenAt; split <;> simp_all [Nat.add_assoc]

theorem spaceOf_cons (j : Nat) (e : Elem) (es : List Elem) :
    spaceOf j (e :: es) = (if j = e.sector then space e.length else 0) + spaceOf j es := by
  unfold spaceOf
  by_cases h : e.sector = j
  · simp [h]
  · rw [List.filter_cons_of_neg (by simpa using h), if_neg (fun x => h x.symm), Nat.zero_add]

theorem forElems_subLive (es : List Elem) : ∀ (d : Nat → Nat) (q : Part), MapStep (recount (fun j m => a j m - d j) b c p) q →
    MapStep (recount (fun j m => a j m - (d j + spaceOf j es)) b c p) (forElems subLive es q) := by
  induction es with
  | nil => intro d q h; simpa [spaceOf, forElems] using h
  | cons e es ih =>
    intro d q h
    have := ih _ _ (by have := subLive_counts h e.sector (space e.length); rw [thenAt_sub] at this; exact this)
    simp only [spaceOf_cons, Nat.add_assoc] at this ⊢
    exact this

theorem forElems_subRetiring (es : List Elem) : ∀ (d : Nat → Nat) (q : Part), MapStep (recount a b (fun j m => c j m - d j) p) q →
    MapStep (recount a b (fun j m => c j m - (d j + spaceOf j es)) p) (forElems subRetiring es q) := by
  induction es with
  | nil => intro d q h; simpa [spaceOf, forElems] using h
  | cons e es ih =>
    intro d q h
    have := ih _ _ (by have := subRetiring_counts h e.sector (space e.length); rw [thenAt_sub] at this; exact this)
    simp only [spaceOf_cons, Nat.add_assoc] at this ⊢
    exact this

theorem forElems_pendingToLive (he : p.rcu.evacQueue = []) (es : List Elem) : ∀ (d : Nat → Nat) (q : Part),
    MapStep (recount (fun j m => a j m + d j) (fun j m => b j m - d j) c p) q →
    MapStep (recount (fun j m => a j m + (d j + spaceOf j es)) (fun j m => b j m - (d j + spaceOf j es)) c p)
      (forElems pendingToLive es q) := by
  induction es with
  | nil => intro d q h; simpa [spaceOf, forElems] using h
  | cons e es ih =>
    intro d q h
    have := ih _ _ (by
      have := pendingToLive_counts he h e.sector (space e.length)
      rw [thenAt_sub, thenAt_add] at this; exact this)
    simp only [spaceOf_cons, Nat.add_assoc] at this ⊢
    exact this

theorem forElems_liveToRetiring (he : p.rcu.evacQueue = []) (es : List Elem) : ∀ (d : Nat → Nat) (q : Part),
    MapStep (recount (fun j m => a j m - d j) b (fun j m => c j m + d j) p) q →
    MapStep (recount (fun j m => a j m - (d j + spaceOf j es)) b (fun j m => c j m + (d j + spaceOf j es)) p)
      (forElems liveToRetiring es q) := by
  induction es with
  | nil => intro d q h; simpa [spaceOf, forElems] using h
  | cons e es ih =>
    intro d q h
    have := ih _ _ (by
      have := liveToRetiring_counts he h e.sector (space e.length)
      rw [thenAt_sub, thenAt_add] at this; exact this)
    simp only [spaceOf_cons, Nat.add_assoc] at this ⊢
    exact this

/-! ### The end of a context -/

theorem releaseWritten_counts (ws : List Written) : ∀ (d : Nat → Nat) (q : Part), MapStep (recount a (fun j m => b j m - d j) c p) q →
    MapStep (recount a (fun j m => b j m - (d j + spaceOf j (ws.map (fun w =>
      ({ sector := w.sector, offset := w.offset, length := w.length, copy := 0 } : Elem))))) c p)
      (ws.foldl (fun q w => subPending w.sector (space w.length) q) q) := by
  induction ws with
  | nil => intro d q h; simpa [spaceOf] using h
  | cons w ws ih =>
    intro d q h
    have := ih _ _ (by have := subPending_counts h w.sector (space w.length); rw [thenAt_sub] at this; exact this)
    simp only [List.map_cons, spaceOf_cons, Nat.add_assoc] at this ⊢
    exact this

/-- R97 step 3: what is released of a sector's pending bytes. -/
theorem releasePending_counts (k : WriteCtx) (hk : k.commit ≠ .switched) (h : MapStep p q) :
    MapStep (recount same (fun j m => m - k.pendingIn j) same p) (releasePending k q) := by
  have start : MapStep (recount same (fun j m => m - (fun _ => 0) j) same p) q := h.recounted
  have w := releaseWritten_counts k.written _ _ start
  unfold releasePending
  cases hx : k.current with
  | none =>
    simpa [WriteCtx.pendingIn, hk, hx, WriteCtx.elems] using w
  | some x =>
    have := subPending_counts w x.sector (32 + x.data)
    rw [thenAt_sub] at this
    simpa [WriteCtx.pendingIn, hk, hx, WriteCtx.elems, eq_comm] using this

/-- R45: giving a sector up; while the store is not MOUNTED its counts become 0. -/
theorem giveUp_counts (h : MapStep (recount a b c p) q) (i : Nat) :
    ∃ x y z : Nat → Nat → Nat, MapStep (recount x y z p) (giveUp i q) ∧ (q.mounted = true → x = a ∧ y = b ∧ z = c) := by
  by_cases hm : q.mounted = true
  · exact ⟨a, b, c, giveUp_mapStep h i hm, fun _ => ⟨rfl, rfl, rfl⟩⟩
  · refine ⟨thenAt i (fun _ => 0) a, thenAt i (fun _ => 0) b, thenAt i (fun _ => 0) c, ?_, fun x => absurd x hm⟩
    unfold giveUp
    simp only [hm, Bool.not_false, if_true]
    have := modSector_counts (dropOwner_mapStep h i) i (fun _ => 0) (fun _ => 0) (fun _ => 0) (.inr ⟨rfl, rfl, rfl⟩)
    have key := modSector_mapStep this i (fun s => { s with state := .stale }) (fun _ => ⟨rfl, rfl, rfl, rfl, rfl, id⟩)
    have e : modSector i (fun s => { s with state := .stale }) (modSector i (Sector.chg (fun _ => 0) (fun _ => 0) (fun _ => 0)) (dropOwner i q))
        = modSector i (fun s => { s with state := .stale, live := 0, pending := 0, retiring := 0 }) (dropOwner i q) := by
      unfold modSector
      simp only [List.modify_modify_eq]
      rfl
    rw [e] at key
    exact key

/-- R97 steps 3 and 4: what the release of a context's bytes and the giving up of its sector leave as they are. -/
theorem releaseAndGiveUp_counts (k : WriteCtx) (p : Part) :
    let q := giveUpCtx k (if k.commit = .switched then p else releasePending k p)
    ∃ x y z : Nat → Nat → Nat, MapStep (recount x y z p) q ∧
      (p.mounted = true → x = same ∧ y = (fun j m => m - k.pendingIn j) ∧ z = same) := by
  have released : MapStep (recount same (fun j m => m - k.pendingIn j) same p)
      (if k.commit = .switched then p else releasePending k p) := by
    split
    · rename_i hk
      have : (fun (j m : Nat) => m - k.pendingIn j) = same := by funext j m; simp [WriteCtx.pendingIn, hk]
      rw [this, recount_same]; exact MapStep.refl p
    · rename_i hk; exact releasePending_counts k hk (MapStep.refl p)
  dsimp only
  unfold giveUpCtx
  cases ho : k.owned with
  | none => exact ⟨_, _, _, released, fun _ => ⟨rfl, rfl, rfl⟩⟩
  | some i =>
    have stepped : ∀ u : Bool, MapStep (recount same (fun j m => m - k.pendingIn j) same p)
        (if u = true
          then modSector i (fun s => { s with nextWrite := Config.sectorSize }) (if k.commit = .switched then p else releasePending k p)
          else if k.commit = .switched then p else releasePending k p) := by
      intro u
      split
      · exact modSector_mapStep released i (fun s => { s with nextWrite := Config.sectorSize }) (fun _ => ⟨rfl, rfl, rfl, rfl, rfl, id⟩)
      · exact released
    obtain ⟨x, y, z, h, g⟩ := giveUp_counts (stepped (match k.current with
      | some x => decide (x.sector = i)
      | none => false)) i
    refine ⟨x, y, z, h, fun m => g ?_⟩
    unfold Part.mounted at m ⊢
    rw [(stepped _).scu]; exact m

end Sys2Proof.Machine
end

