-- ==== Sys2Proof/Laws/Ending.lean ====
section
/-! SUPPORT. The end of a write context (R97, R98), said once for all that end one. -/

namespace Sys2Proof.Machine

theorem recount_ctx (a b c : Nat → Nat → Nat) (p : Part) (d : CtxId) : (recount a b c p).ctx d = p.ctx d := by cases d <;> rfl

@[simp] theorem liftHold_ctx (z : Nat) (p : Part) (d : CtxId) : (liftHold z p).ctx d = p.ctx d := by
  unfold liftHold; split <;> cases d <;> rfl
@[simp] theorem liftHold_smp (z : Nat) (p : Part) : (liftHold z p).smp = p.smp := by unfold liftHold; split <;> rfl
@[simp] theorem liftHold_sdr (z : Nat) (p : Part) : (liftHold z p).sdr = p.sdr := by unfold liftHold; split <;> rfl
@[simp] theorem liftHold_pee (z : Nat) (p : Part) : (liftHold z p).pee = p.pee := by unfold liftHold; split <;> rfl
@[simp] theorem liftHold_link (z : Nat) (p : Part) : (liftHold z p).link = p.link := by unfold liftHold; split <;> rfl
@[simp] theorem liftHold_scu (z : Nat) (p : Part) : (liftHold z p).scu = p.scu := by unfold liftHold; split <;> rfl

/-- R53, R55: the reservation returns, and nothing else changes but the spare that it brings back and a hold that it lifts. -/
theorem returnReservation_eq (c : CtxId) (p : Part) : ∃ zs h, returnReservation c p =
    { modCtx c (fun k => { k with reservation := 0 }) p with smp := { p.smp with zones := zs }, rcu := { p.rcu with hold := h } } ∧
    (h = p.rcu.hold ∨ h = none) ∧ zs.map Zone.fixed = p.smp.zones.map Zone.fixed := by
  generalize hf : (fun k : WriteCtx => ({ k with reservation := 0 } : WriteCtx)) = f
  have lifted : ∃ h, (if 1 ≤ (p.ctx c).reservation then liftHold (p.ctx c).zone (modCtx c f p) else modCtx c f p) =
      { modCtx c f p with rcu := { p.rcu with hold := h } } ∧ (h = p.rcu.hold ∨ h = none) := by
    unfold liftHold
    rw [modCtx_rcu]
    split
    · split
      · exact ⟨none, rfl, .inr rfl⟩
      · exact ⟨_, by cases c <;> rfl, .inl rfl⟩
    · exact ⟨_, by cases c <;> rfl, .inl rfl⟩
  obtain ⟨h, e, o⟩ := lifted
  obtain ⟨zs, g, r, w, hz⟩ := returnSpare_eq (p.ctx c).zone { modCtx c f p with rcu := { p.rcu with hold := h } }
  have fixed := congrArg (List.map Zone.fixed) hz
  rw [List.map_map, List.map_map, modCtx_smp] at fixed
  refine ⟨zs, g, ?_, w.elim (fun x => o.imp x.trans x.trans) .inr, fixed⟩
  unfold returnReservation
  dsimp only
  rw [hf, e, r]
  cases c <;> rfl

/-- The part at which a context that ends has released its bytes, its sector, its reservation and its slot. -/
def released (c : CtxId) (p : Part) : Part :=
  let k := p.ctx c
  let p1 := removeTaker c (withdraw (.ctx c) p)
  clearOpenCtx c k.slot (returnReservation c (giveUpCtx k (if k.commit = .switched then p1 else releasePending k p1)))

theorem finishEnd_released (c : CtxId) (st : Option Status) (p : Part) : finishEnd c st p =
    match st with
    | none => modCtx c (fun _ => .cold) (released c p)
    | some s => pushReply { kind := 0x20, tag := (p.ctx c).tag, status := s, notes := ((released c p).ctx c).notes,
                            payload := endingPayload c (p.ctx c), place := .ending c }
        (modCtx c (fun k => { k with state := .ended, current := none, owned := none, ending := none, bufX := .cold,
                                     bufY := .cold }) (released c p)) := rfl

/-- What the release leaves as it is. -/
structure Released (c : CtxId) (p q : Part) : Prop where
  run     : q.run = p.run
  rqs     : q.rqs = p.rqs
  mli     : q.mli = p.mli
  scu     : q.scu = p.scu
  link    : q.link = { p.link with conds := q.link.conds }
  dir     : q.sdr.directory = p.sdr.directory.map (fun e =>
              if e.slot = (p.ctx c).slot then (if e.openCtx = some c then { e with openCtx := none } else e) else e)
  retire  : q.sdr.retiring = p.sdr.retiring
  serve   : q.sdr.serving = p.sdr.serving
  seq     : q.sdr.sequence = p.sdr.sequence
  op      : q.pee.op = p.pee.op
  batch   : q.pee.batch = p.pee.batch
  claims  : ∃ l, q.pee.claims = p.pee.claims.filter (fun d => !(d.purpose.owner == .ctx c)) ++ l ∧
              ∀ d ∈ l, d.purpose.owner = .reclaim ∨ ∃ i, d.purpose.owner = .suspect i
  self    : q.ctx c = { p.ctx c with owned := (q.ctx c).owned, reservation := 0 }
  other   : ∀ d, d ≠ c → q.ctx d = { p.ctx d with owned := (q.ctx d).owned }
  waits   : isWaiting c q = false
  conds   : ∀ (n : Nat) (r : CondRow), p.link.conds[n]? = some r → ∃ t, q.link.conds[n]? = some t ∧ (r.set = true → t.set = true) ∧
              t.enable = r.enable ∧ t.level = r.level
  condLen : q.link.conds.length = p.link.conds.length
  preempt : q.pee.preempt = p.pee.preempt
  plan    : q.smp.zones.map (fun z => (z.count, z.lowWater)) = p.smp.zones.map (fun z => (z.count, z.lowWater))
  step    : q.rcu.step = p.rcu.step
  job     : q.rcu.job = p.rcu.job
  kind    : q.rcu.lastKind = p.rcu.lastKind
  stop    : q.rcu.stopAtEnd = p.rcu.stopAtEnd
  hold    : q.rcu.hold = p.rcu.hold ∨ q.rcu.hold = none
  erase   : ∀ i, i ∈ p.rcu.eraseQueue ∨ (∃ b, p.rcu.openBatch = some b ∧ i ∈ b.sectors) →
              i ∈ q.rcu.eraseQueue ∨ ∃ b, q.rcu.openBatch = some b ∧ i ∈ b.sectors
  opened  : ∀ b, p.rcu.openBatch = some b → ∃ t, q.rcu.openBatch = some t ∧ t.zone = b.zone ∧ b.sectors <+: t.sectors ∧
              (b.raised = true → t.raised = true) ∧ (t.raised = b.raised → t.window = b.window)
  evac    : ∀ i ∈ p.rcu.evacQueue, i ∈ q.rcu.evacQueue ∨ (q.sector i).countsZero = true
  length  : q.smp.sectors.length = p.smp.sectors.length
  stays   : ∀ i, (q.sector i).zone = (p.sector i).zone ∧ (q.sector i).eraseCount = (p.sector i).eraseCount ∧
              ((p.sector i).suspect = true → (q.sector i).suspect = true)
  counts  : p.mounted = true → ∀ i, (q.sector i).live = (p.sector i).live ∧ (q.sector i).retiring = (p.sector i).retiring ∧
              (q.sector i).pending = (p.sector i).pending - (p.ctx c).pendingIn i

theorem isWaiting_fixed {zs ws : List Zone} (c : CtxId) (h : zs.map Zone.fixed = ws.map Zone.fixed) :
    zs.any (fun z => z.waiting.contains c) = ws.any (fun z => z.waiting.contains c) := by
  have e : ∀ l : List Zone, l.any (fun z => z.waiting.contains c) = (l.map Zone.fixed).any (fun z => z.waiting.contains c) := by
    intro l; rw [List.any_map]; rfl
  rw [e, h, ← e]

theorem released_spec (c : CtxId) (p : Part) : Released c p (released c p) := by
  obtain ⟨x, y, z, h, g⟩ := releaseAndGiveUp_counts (p.ctx c) (removeTaker c (withdraw (.ctx c) p))
  have e : released c p = clearOpenCtx c (p.ctx c).slot (returnReservation c (giveUpCtx (p.ctx c)
      (if (p.ctx c).commit = .switched then removeTaker c (withdraw (.ctx c) p)
        else releasePending (p.ctx c) (removeTaker c (withdraw (.ctx c) p))))) := rfl
  revert h g
  generalize giveUpCtx (p.ctx c) (if (p.ctx c).commit = .switched then removeTaker c (withdraw (.ctx c) p)
        else releasePending (p.ctx c) (removeTaker c (withdraw (.ctx c) p))) = v at e
  intro h g
  obtain ⟨zs, hold, r, ho, hz⟩ := returnReservation_eq c v
  have r1 : (returnReservation c v).smp.sectors = v.smp.sectors := by rw [r]
  have rz : (returnReservation c v).smp.zones.map Zone.fixed = v.smp.zones.map Zone.fixed := by rw [r]; exact hz
  have r2 : (returnReservation c v).sdr = v.sdr := by rw [r]; exact modCtx_sdr ..
  have r3 : (returnReservation c v).pee = v.pee := by rw [r]; exact modCtx_pee ..
  have r4 : (returnReservation c v).link = v.link := by rw [r]; exact modCtx_link ..
  have r5 : (returnReservation c v).scu = v.scu := by rw [r]; exact modCtx_scu ..
  have r6 : (returnReservation c v).ctx c = { v.ctx c with reservation := 0 } := by rw [r]; cases c <;> rfl
  have r7 : ∀ d, d ≠ c → (returnReservation c v).ctx d = v.ctx d := by
    intro d hd; rw [r]; exact Eq.trans (by cases c <;> cases d <;> rfl) (modCtx_ctx_other hd (fun k => { k with reservation := 0 }) v)
  have sec : ∀ i, (released c p).sector i = v.sector i := by
    intro i; rw [e]; unfold Part.sector clearOpenCtx modEntry; rw [r1]
  have ctxs : ∀ d, (released c p).ctx d = (returnReservation c v).ctx d := by intro d; rw [e]; cases d <;> rfl
  have start : ∀ d, (recount x y z (removeTaker c (withdraw (.ctx c) p))).ctx d = p.ctx d := fun d => by rw [recount_ctx]; rfl
  have run : (returnReservation c v).run = v.run ∧ (returnReservation c v).rqs = v.rqs ∧ (returnReservation c v).mli = v.mli := by
    rw [r]; exact ⟨modCtx_run .., modCtx_rqs .., modCtx_mli ..⟩
  have rcu : (returnReservation c v).rcu = { v.rcu with hold := hold } := by rw [r]
  exact
    { run := by rw [e]; exact run.1.trans h.run
      rqs := by rw [e]; exact run.2.1.trans h.rqs
      mli := by rw [e]; exact run.2.2.trans h.mli
      scu := by rw [e]; exact r5.trans h.scu
      link := by rw [e]; unfold clearOpenCtx modEntry; dsimp only; rw [r4]; exact h.link
      dir := by rw [e]; unfold clearOpenCtx modEntry; dsimp only; rw [r2, h.sdr]; rfl
      retire := by rw [e]; unfold clearOpenCtx modEntry; dsimp only; rw [r2, h.sdr]; rfl
      serve := by rw [e]; unfold clearOpenCtx modEntry; dsimp only; rw [r2, h.sdr]; rfl
      seq := by rw [e]; unfold clearOpenCtx modEntry; dsimp only; rw [r2, h.sdr]; rfl
      op := by rw [e]; exact (congrArg Pee.op r3).trans h.op
      batch := by rw [e]; exact (congrArg Pee.batch r3).trans h.batch
      claims := by
        rw [e]
        obtain ⟨l, a, b⟩ := h.claims
        exact ⟨l, (congrArg Pee.claims r3).trans a, b⟩
      self := by rw [ctxs, r6, h.ctx c, start]
      other := fun d hd => by rw [ctxs, r7 d hd, h.ctx d, start]
      waits := by
        rw [e]; unfold isWaiting clearOpenCtx modEntry; dsimp only; rw [isWaiting_fixed c (rz.trans h.zones)]
        unfold recount removeTaker
        simp
      conds := fun n r hr => by
        rw [e]; show ∃ t, (returnReservation c v).link.conds[n]? = some t ∧ _
        rw [r4]; exact h.conds n r hr
      condLen := by rw [e]; exact (congrArg (fun l : Link => l.conds.length) r4).trans h.condLen
      preempt := by rw [e]; exact (congrArg Pee.preempt r3).trans h.preempt
      plan := by
        rw [e]; show (returnReservation c v).smp.zones.map _ = _
        have g := congrArg (List.map fun z : Zone => (z.count, z.lowWater)) (rz.trans h.zones)
        rw [List.map_map, List.map_map] at g
        have u : (recount x y z (removeTaker c (withdraw (.ctx c) p))).smp.zones.map (fun z => (z.count, z.lowWater))
            = p.smp.zones.map (fun z => (z.count, z.lowWater)) := by
          unfold recount removeTaker; dsimp only; rw [List.map_map]; rfl
        rw [← u]; exact g
      step := by rw [e]; exact (congrArg Rcu.step rcu).trans h.step
      job := by rw [e]; exact (congrArg Rcu.job rcu).trans h.job
      kind := by rw [e]; exact (congrArg Rcu.lastKind rcu).trans h.kind
      stop := by rw [e]; exact (congrArg Rcu.stopAtEnd rcu).trans h.stop
      hold := by
        have g : (released c p).rcu.hold = hold := by rw [e]; exact congrArg Rcu.hold rcu
        rw [g]
        exact ho.elim (fun a => h.hold.imp a.trans a.trans) .inr
      erase := fun i hi => by
        rw [e]
        show i ∈ (returnReservation c v).rcu.eraseQueue ∨ ∃ b, (returnReservation c v).rcu.openBatch = some b ∧ i ∈ b.sectors
        rw [rcu]; exact h.erase i hi
      opened := fun b hb => by
        rw [e]
        show ∃ t, (returnReservation c v).rcu.openBatch = some t ∧ _
        rw [rcu]; exact h.opened b hb
      evac := fun i hi => by
        rw [sec, e]
        show i ∈ (returnReservation c v).rcu.evacQueue ∨ _
        rw [rcu]; exact h.evac i hi
      length := by
        rw [e]; unfold clearOpenCtx modEntry; dsimp only; rw [r1, h.length]; unfold recount; exact List.length_mapIdx
      stays := fun i => by
        rw [sec]
        obtain ⟨a, b, _⟩ := h.counts i
        have := recount_sector x y z (removeTaker c (withdraw (.ctx c) p)) i
        have s := h.suspect i
        rw [this] at a b s
        split at a
        · rename_i hi; rw [if_pos hi] at b s; exact ⟨a, b, s⟩
        · rename_i hi; rw [if_neg hi] at b s; exact ⟨a, b, s⟩
      counts := fun m i => by
        obtain ⟨gx, gy, gz⟩ := g m
        rw [sec]
        obtain ⟨_, _, a, b, d⟩ := h.counts i
        rw [a, b, d, recount_sector, gx, gy, gz]
        split
        · exact ⟨rfl, rfl, rfl⟩
        · rename_i hi
          have : (removeTaker c (withdraw (.ctx c) p)).sector i = p.sector i := rfl
          rw [this]
          have o : p.sector i = Sector.cold := by
            have hn : p.smp.sectors.length ≤ i := Nat.le_of_not_lt hi
            unfold Part.sector; rw [List.getD_eq_getElem?_getD, List.getElem?_eq_none hn]; rfl
          rw [o]
          exact ⟨rfl, rfl, by simp [Sector.cold]⟩ }

@[simp] theorem pushReply_ctx (r : Reply) (p : Part) (c : CtxId) : (pushReply r p).ctx c = p.ctx c := by cases c <;> rfl

/-- What the release leaves is what R97 says a context lets go of, whatever becomes of its own record and of the reply queue. -/
theorem letGo_of_released {c : CtxId} {p q : Part} (smp : q.smp = (released c p).smp) (sdr : q.sdr = (released c p).sdr)
    (pee : q.pee = (released c p).pee) : LetGo c p q := by
  have h := released_spec c p
  refine ⟨?_, ?_, ?_, ?_⟩
  · obtain ⟨l, a, b⟩ := h.claims
    unfold claimWaits
    rw [pee, a, List.any_append, Bool.or_eq_false_iff]
    constructor
    · simp
    · rw [List.any_eq_false]
      intro d hd
      rcases b d hd with w | ⟨i, w⟩ <;> simp [w]
  · rw [← h.waits]; unfold isWaiting; rw [smp]
  · intro d hd hs
    rw [sdr, h.dir, List.mem_map] at hd
    obtain ⟨x, _, rfl⟩ := hd
    split
    · split
      · simp
      · assumption
    · rename_i hn
      rw [if_neg hn] at hs
      exact absurd hs hn
  · intro m i
    have : q.sector i = (released c p).sector i := by unfold Part.sector; rw [smp]
    rw [this]
    exact ⟨(h.counts m i).2.2, (h.counts m i).1⟩

/-- A context that ends with a status ends as R97 and R98 say. -/
theorem finishEnd_ended (c : CtxId) (st : Status) (p : Part) : EndedWith c st p (finishEnd c (some st) p) := by
  have h := released_spec c p
  rw [finishEnd_released]
  dsimp only
  generalize hr : ({ kind := 0x20, tag := (p.ctx c).tag, status := st, notes := ((released c p).ctx c).notes,
                     payload := endingPayload c (p.ctx c), place := .ending c } : Reply) = r
  generalize hf : (fun k : WriteCtx => ({ k with state := .ended, current := none, owned := none, ending := none, bufX := .cold,
                                                 bufY := .cold } : WriteCtx)) = f
  have self : (pushReply r (modCtx c f (released c p))).ctx c = f ((released c p).ctx c) := by rw [pushReply_ctx, modCtx_ctx]
  unfold EndedWith
  rw [self, ← hf]
  refine ⟨rfl, rfl, rfl, ?_, rfl, rfl, letGo_of_released (modCtx_smp ..) (modCtx_sdr ..) (modCtx_pee ..), ?_⟩
  · show ((released c p).ctx c).reservation = 0
    rw [h.self]
  · have l : (released c p).link.replies = p.link.replies := by rw [h.link]
    unfold pushReply
    dsimp only
    rw [modCtx_link, l, ← hr, h.self]
    rfl

/-- A context that RESTART ends is IDLE, and gives no reply (R104). -/
theorem finishEnd_silently (c : CtxId) (p : Part) : EndedSilently c p (finishEnd c none p) := by
  rw [finishEnd_released]
  refine ⟨modCtx_ctx .., letGo_of_released (modCtx_smp ..) (modCtx_sdr ..) (modCtx_pee ..), ?_⟩
  dsimp only
  rw [modCtx_link, (released_spec c p).link]

/-- An ending context ends as its ending cause says. -/
theorem finishCause_ended (c : CtxId) (e : EndCause) (p : Part) : EndedBy c e p (finishCause c e p) := by
  cases e with
  | withStatus st => exact finishEnd_ended c st p
  | byRestart => exact finishEnd_silently c p

/-- R97: a context with no operation granted ends at once. -/
theorem endCtx_ended {c : CtxId} {st : Status} {p : Part} (h : claimRuns (.ctx c) p = false) : EndedWith c st p (endCtx c st p) := by
  unfold endCtx; simp [h, finishEnd_ended]

/-! ### RESTART -/

/-- R104: what RESTART leaves of a context that ends at its operation's completion: everything but its buffers, which are EMPTY. -/
@[simp] theorem endAtCompletion_ctx (c : CtxId) (p : Part) :
    (endAtCompletion c p).ctx c = { p.ctx c with ending := some .byRestart, bufX := .cold, bufY := .cold } := modCtx_ctx ..

/-- R84, R104: its credit is 2 from then on. -/
theorem endAtCompletion_credit (c : CtxId) (p : Part) : ((endAtCompletion c p).ctx c).credit = 2 := by rw [endAtCompletion_ctx]; rfl

/-! ### Choosing a step -/

/-- R88: the test for choosing a step. -/
theorem chooses_iff (c : CtxId) (p : Part) : p.chooses c ↔ mayChoose c p = true := by
  unfold Part.chooses mayChoose
  simp [Option.isNone_iff_eq_none, and_assoc]

/-- R88: the test for bytes to program. -/
theorem hasBytes_iff (k : WriteCtx) : k.hasBytes ↔ k.bufferReady = true := by
  unfold WriteCtx.hasBytes WriteCtx.bufferReady; simp

/-- R59: what raising a claim adds to the claim set. -/
theorem raise_raised (u : Purpose) (k : OpKind) (l : Nat) (t : Target) (p : Part) : Raised u k l t p (raise u k l t p) := by
  unfold Raised raise; dsimp only; split <;> rfl

theorem raise_ctx (u : Purpose) (k : OpKind) (l : Nat) (t : Target) (p : Part) (c : CtxId) : (raise u k l t p).ctx c = p.ctx c := by
  unfold raise; dsimp only; split <;> cases c <;> rfl

@[simp] theorem setCond_ctx (x : Cond) (p : Part) (d : CtxId) : (setCond x p).ctx d = p.ctx d := by cases d <;> rfl

end Sys2Proof.Machine
end

