-- ==== Sys2Proof/Laws/Frames.lean ====
section
/-! SUPPORT. Numbers and their bytes, lists and their bytes, and the pieces of a frame (Machine/Operands.lean, Machine/Frames.lean). -/

namespace Sys2Proof.Machine

theorem be_length (n v : Nat) : (be n v).length = n := by
  induction n generalizing v with
  | zero => rfl
  | succ n ih => simp [be, ih]

theorem ofBe_append (a b : List Byte) : ofBe (a ++ b) = b.foldl (fun x y => x * 256 + y.toNat) (ofBe a) := by
  simp [ofBe]

/-- A number that fits in `n` bytes is read back from them. -/
theorem ofBe_be (n v : Nat) (h : v < 256 ^ n) : ofBe (be n v) = v := by
  induction n generalizing v with
  | zero => simp_all [ofBe, be]
  | succ n ih =>
    have hv : v / 256 < 256 ^ n := Nat.div_lt_of_lt_mul (by rw [Nat.pow_succ] at h; omega)
    rw [be, ofBe_append, ih _ hv]
    simp only [List.foldl_cons, List.foldl_nil, BitVec.toNat_ofNat]
    omega

theorem ofBe16 (s : BitVec 16) : BitVec.ofNat 16 (ofBe (be 2 s.toNat)) = s := by
  rw [ofBe_be 2 _ (by have := s.isLt; omega), BitVec.ofNat_toNat, BitVec.setWidth_eq]

theorem ofBe24 (s : BitVec 24) : BitVec.ofNat 24 (ofBe (be 3 s.toNat)) = s := by
  rw [ofBe_be 3 _ (by have := s.isLt; omega), BitVec.ofNat_toNat, BitVec.setWidth_eq]

theorem be2 (v : Nat) : be 2 v = [BitVec.ofNat 8 (v / 256), BitVec.ofNat 8 v] := rfl
theorem be3 (v : Nat) : be 3 v = [BitVec.ofNat 8 (v / 256 / 256), BitVec.ofNat 8 (v / 256), BitVec.ofNat 8 v] := rfl

theorem ofBe16' (s : BitVec 16) : BitVec.ofNat 16 (ofBe [BitVec.ofNat 8 (s.toNat / 256), BitVec.ofNat 8 s.toNat]) = s := ofBe16 s
theorem ofBe24' (s : BitVec 24) :
    BitVec.ofNat 24 (ofBe [BitVec.ofNat 8 (s.toNat / 256 / 256), BitVec.ofNat 8 (s.toNat / 256), BitVec.ofNat 8 s.toNat]) = s := ofBe24 s

theorem pairs_flat (ss : List (Byte × Byte)) : pairs (ss.flatMap (fun s => [s.1, s.2])) = ss := by
  induction ss with
  | nil => rfl
  | cons s ss ih => simp [pairs, ih]

theorem pairs_length (ss : List (Byte × Byte)) : (ss.flatMap (fun s => [s.1, s.2])).length = 2 * ss.length := by
  induction ss with
  | nil => rfl
  | cons s ss ih => simp only [List.flatMap_cons, List.length_append, ih, List.length_cons, List.length_nil]; omega

theorem planEntries_flat (es : List PlanEntry) : planEntries (es.flatMap PlanEntry.bytes) = es := by
  induction es with
  | nil => rfl
  | cons e es ih =>
    rw [List.flatMap_cons, PlanEntry.bytes, be2]
    simp only [List.cons_append, List.nil_append, planEntries, ih, ofBe16']

theorem planBytes_length (es : List PlanEntry) : (es.flatMap PlanEntry.bytes).length = 3 * es.length := by
  induction es with
  | nil => rfl
  | cons e es ih =>
    simp only [List.flatMap_cons, List.length_append, ih, PlanEntry.bytes, be_length, List.length_cons, List.length_nil]
    omega

theorem slice_append (a b c : List Byte) : slice (a ++ b ++ c) a.length b.length = b := by
  simp [slice]

theorem crc16Bytes_length (bs : List Byte) : (crc16Bytes bs).length = 2 := be_length 2 _

end Sys2Proof.Machine
end

