-- ==== Sys2Proof/Laws/Quiet.lean ====
section
/-! SUPPORT. What no reaction inside an event does: it changes no setting of the host and no pin (`Part.settings`), frees or
takes no direct place, only adds replies at the tail, gives out no age, keeps E + Q: each completion moves one place from an entry to its reply
(R149), and leaves the directory in ascending slot id (R25). One lemma for each operation, in the form "if `q` is quiet after `p`, so is the operation on `q`". -/

namespace Sys2Proof.Machine

/-- `q` may follow `p` inside an event. -/
def Quiet (p q : Part) : Prop :=
  q.settings = p.settings ∧ directInUse q = directInUse p ∧
    (p.link.replies <+: q.link.replies ∧ q.link.held.Sublist p.link.held) ∧
    (p.ascending → q.ascending) ∧
    (p.ages.Nodup → q.ages.Sublist p.ages ∧ q.rqs.nextAge = p.rqs.nextAge ∧ q.places = p.places
      ∧ activeCount q ≤ max Config.activeMax (activeCount p))

variable {p q : Part}

theorem Quiet.refl (p : Part) : Quiet p p :=
  ⟨rfl, rfl, ⟨List.prefix_refl _, List.Sublist.refl _⟩, id, fun _ => ⟨List.Sublist.refl _, rfl, rfl, le_max_right _ _⟩⟩

theorem Quiet.trans {r : Part} (h : Quiet p q) (g : Quiet q r) : Quiet p r := by
  refine ⟨g.1.trans h.1, g.2.1.trans h.2.1, ⟨h.2.2.1.1.trans g.2.2.1.1, g.2.2.1.2.trans h.2.2.1.2⟩,
    fun d => g.2.2.2.1 (h.2.2.2.1 d), fun n => ?_⟩
  obtain ⟨a, b, c, d⟩ := h.2.2.2.2 n
  obtain ⟨a', b', c', d'⟩ := g.2.2.2.2 (a.nodup n)
  exact ⟨a'.trans a, b'.trans b, c'.trans c, by omega⟩

/-- A change of blocks other than the link, the queue and MLI, with the preempt level kept, and the directory in order. -/
theorem quiet_dir (h : Quiet p q) (a : Sdr) (b : Smp) (c : Pee) (d : Wcu) (e : Rcu) (f : Scu) (hc : c.preempt = q.pee.preempt)
    (hd : q.ascending → a.directory.Pairwise (fun a b => a.slot < b.slot)) :
    Quiet p ⟨q.run, q.link, q.rqs, a, b, c, d, e, q.mli, f⟩ := by
  refine h.trans ⟨?_, rfl, ⟨List.prefix_refl _, List.Sublist.refl _⟩, hd,
    fun _ => ⟨List.Sublist.refl _, rfl, rfl, le_max_right _ _⟩⟩
  simp only [Part.settings, hc]

/-- A change of blocks other than the link, the queue and MLI, with the preempt level and the directory kept. -/
theorem quiet_mk (h : Quiet p q) (a : Sdr) (b : Smp) (c : Pee) (d : Wcu) (e : Rcu) (f : Scu) (hc : c.preempt = q.pee.preempt)
    (hd : a.directory = q.sdr.directory) : Quiet p ⟨q.run, q.link, q.rqs, a, b, c, d, e, q.mli, f⟩ :=
  quiet_dir h a b c d e f hc (fun x => by rw [hd]; exact x)

/-- A change of the set flags of the condition table. -/
theorem setCond_quiet (h : Quiet p q) (c : Cond) : Quiet p (setCond c q) := by
  refine h.trans ⟨?_, rfl, ⟨List.prefix_refl _, List.Sublist.refl _⟩, id, fun _ => ⟨List.Sublist.refl _, rfl, rfl, le_max_right _ _⟩⟩
  have : ∀ (l : List CondRow) (i : Nat),
      (l.modify i (fun r => { r with set := true })).map (fun r => (r.enable, r.level)) = l.map (fun r => (r.enable, r.level)) := by
    intro l
    induction l with
    | nil => intro i; cases i <;> rfl
    | cons x xs ih => intro i; cases i with
      | zero => rfl
      | succ n => simpa using ih n
  simp only [Part.settings, setCond, this]

theorem foldl_quiet {α : Type} (g : Part → α → Part) (hg : ∀ r a, Quiet p r → Quiet p (g r a)) (l : List α) (h : Quiet p q) :
    Quiet p (l.foldl g q) := by
  induction l generalizing q with
  | nil => exact h
  | cons a l ih => exact ih (hg q a h)

theorem quiet_ite {c : Prop} [Decidable c] {a b : Part} (ha : Quiet p a) (hb : Quiet p b) : Quiet p (if c then a else b) := by
  split
  · exact ha
  · exact hb

/-! ### Ops and Engine -/

theorem modSector_quiet (h : Quiet p q) (i : Nat) (f : Sector → Sector) : Quiet p (modSector i f q) := quiet_mk h _ _ _ _ _ _ rfl rfl
theorem modZone_quiet (h : Quiet p q) (z : Nat) (f : Zone → Zone) : Quiet p (modZone z f q) := quiet_mk h _ _ _ _ _ _ rfl rfl
theorem modCtx_quiet (h : Quiet p q) (c : CtxId) (f : WriteCtx → WriteCtx) : Quiet p (modCtx c f q) := by
  cases c <;> exact quiet_mk h _ _ _ _ _ _ rfl rfl
/-- A change of a directory's entries that keeps their slots keeps its order. -/
theorem ascending_map (f : DirEntry → DirEntry) (hf : ∀ e, (f e).slot = e.slot) {l : List DirEntry}
    (h : l.Pairwise (fun a b => a.slot < b.slot)) : (l.map f).Pairwise (fun a b => a.slot < b.slot) :=
  List.pairwise_map.2 (h.imp (fun {a b} x => by rw [hf a, hf b]; exact x))
theorem modEntry_quiet (h : Quiet p q) (s : Nat) (f : DirEntry → DirEntry)
    (hf : ∀ e, (f e).slot = e.slot := by intro e; first | exact rfl | (split <;> exact rfl)) : Quiet p (modEntry s f q) :=
  quiet_dir h _ _ _ _ _ _ rfl (ascending_map _ (fun e => by split; exacts [hf e, rfl]))
theorem modRetiring_quiet (h : Quiet p q) (s n : Nat) (f : Retiring → Retiring) : Quiet p (modRetiring s n f q) :=
  quiet_mk h _ _ _ _ _ _ rfl rfl
theorem modServing_quiet (h : Quiet p q) (a : Nat) (f : Serving → Serving) : Quiet p (modServing a f q) :=
  quiet_mk h _ _ _ _ _ _ rfl rfl
theorem dropServing_quiet (h : Quiet p q) (a : Nat) : Quiet p (dropServing a q) := quiet_mk h _ _ _ _ _ _ rfl rfl
theorem withdraw_quiet (h : Quiet p q) (o : Owner) : Quiet p (withdraw o q) := quiet_mk h _ _ _ _ _ _ rfl rfl
theorem startSuspension_quiet (h : Quiet p q) (a : Nat) : Quiet p (startSuspension a q) := quiet_mk h _ _ _ _ _ _ rfl rfl
theorem raise_quiet (h : Quiet p q) (u : Purpose) (k : OpKind) (l : Nat) (t : Target) : Quiet p (raise u k l t q) := by
  unfold raise
  dsimp only
  split
  · apply startSuspension_quiet
    exact quiet_mk h _ _ _ _ _ _ rfl rfl
  · exact quiet_mk h _ _ _ _ _ _ rfl rfl
theorem noteCtx_quiet (h : Quiet p q) (c : CtxId) (n : Note) : Quiet p (noteCtx c n q) := modCtx_quiet h _ _
theorem noteStepJob_quiet (h : Quiet p q) (n : Note) : Quiet p (noteStepJob n q) := by
  unfold noteStepJob
  split
  · split
    · exact quiet_mk h _ _ _ _ _ _ rfl rfl
    · exact h
  · exact h
theorem noteServed_quiet (h : Quiet p q) (u : Purpose) (n : Note) : Quiet p (noteServed u n q) := by
  unfold noteServed
  repeat' split
  all_goals first
    | with_reducible exact h
    | with_reducible exact noteCtx_quiet h _ _
    | with_reducible exact modServing_quiet h _ _
    | with_reducible exact noteStepJob_quiet h _
    | with_reducible exact quiet_mk h _ _ _ _ _ _ rfl rfl

/-! ### Map -/

theorem removeTaker_quiet (h : Quiet p q) (c : CtxId) : Quiet p (removeTaker c q) := quiet_mk h _ _ _ _ _ _ rfl rfl
theorem clearTail_quiet (h : Quiet p q) (i : Nat) : Quiet p (clearTail i q) := quiet_mk h _ _ _ _ _ _ rfl rfl
theorem liftHold_quiet (h : Quiet p q) (z : Nat) : Quiet p (liftHold z q) := by
  unfold liftHold
  split
  · exact quiet_mk h _ _ _ _ _ _ rfl rfl
  · exact h
theorem raiseErase_quiet (h : Quiet p q) : Quiet p (raiseErase q) := by
  unfold raiseErase
  split
  · exact raise_quiet (quiet_mk h _ _ _ _ _ _ rfl rfl) _ _ _ _
  · exact h
theorem openBatch_quiet (h : Quiet p q) : Quiet p (openBatch q) := by
  unfold openBatch
  dsimp only
  repeat' split
  all_goals first
    | with_reducible exact h
    | with_reducible exact raiseErase_quiet (quiet_mk h _ _ _ _ _ _ rfl rfl)
    | with_reducible exact quiet_mk h _ _ _ _ _ _ rfl rfl
theorem joinErase_quiet (h : Quiet p q) (i : Nat) : Quiet p (joinErase i q) := by
  unfold joinErase
  dsimp only
  repeat' split
  all_goals first
    | with_reducible exact raiseErase_quiet (quiet_mk h _ _ _ _ _ _ rfl rfl)
    | with_reducible exact openBatch_quiet (quiet_mk h _ _ _ _ _ _ rfl rfl)
    | with_reducible exact quiet_mk h _ _ _ _ _ _ rfl rfl
theorem returnSpare_quiet (h : Quiet p q) (z : Nat) : Quiet p (returnSpare z q) :=
  quiet_ite (liftHold_quiet (modZone_quiet h _ _) _) h
theorem becomeStale_quiet (h : Quiet p q) (i : Nat) : Quiet p (becomeStale i q) := by
  have g := modSector_quiet h i (fun s => { s with state := .stale })
  unfold becomeStale
  dsimp only
  apply returnSpare_quiet
  split
  · exact joinErase_quiet (quiet_mk g _ _ _ _ _ _ rfl rfl) _
  · exact quiet_mk g _ _ _ _ _ _ rfl rfl
theorem judgeSector_quiet (h : Quiet p q) (i : Nat) : Quiet p (judgeSector i q) := by
  unfold judgeSector
  dsimp only
  repeat' split
  all_goals first
    | with_reducible exact h
    | with_reducible exact becomeStale_quiet h _
    | with_reducible exact quiet_mk h _ _ _ _ _ _ rfl rfl
theorem dropOwner_quiet (h : Quiet p q) (i : Nat) : Quiet p (dropOwner i q) := by
  unfold dropOwner
  dsimp only
  apply modSector_quiet
  split
  · exact modCtx_quiet h _ _
  · exact quiet_mk h _ _ _ _ _ _ rfl rfl
  · exact h
theorem sealSector_quiet (h : Quiet p q) (i : Nat) : Quiet p (sealSector i q) :=
  judgeSector_quiet (modSector_quiet (clearTail_quiet (dropOwner_quiet h _) _) _ _) _
theorem sealFailed_quiet (h : Quiet p q) (i : Nat) : Quiet p (sealFailed i q) := sealSector_quiet (modSector_quiet h _ _) _
theorem giveUp_quiet (h : Quiet p q) (i : Nat) : Quiet p (giveUp i q) := by
  have g := dropOwner_quiet h i
  unfold giveUp
  dsimp only
  repeat' split
  all_goals first
    | with_reducible exact modSector_quiet g _ _
    | with_reducible exact sealSector_quiet g _
    | with_reducible exact modZone_quiet (modSector_quiet g _ _) _ _
    | with_reducible exact modZone_quiet (modSector_quiet (sealSector_quiet g _) _ _) _ _
theorem raiseSuspectMark_quiet (h : Quiet p q) (i n : Nat) : Quiet p (raiseSuspectMark i n q) := raise_quiet h _ _ _ _
theorem markSuspect_quiet (h : Quiet p q) (i : Nat) : Quiet p (markSuspect i q) := by
  unfold markSuspect
  dsimp only
  split
  · exact setCond_quiet h _
  · exact raiseSuspectMark_quiet (modSector_quiet (setCond_quiet h _) _ _) _ _
theorem settleSuspect_quiet (h : Quiet p q) (i : Nat) (st : SectorState) : Quiet p (settleSuspect i st q) := by
  unfold settleSuspect
  repeat' split
  all_goals first
    | with_reducible exact h
    | with_reducible exact sealSector_quiet h _
    | with_reducible exact judgeSector_quiet h _
theorem makeSuspect_quiet (h : Quiet p q) (i : Nat) (b : Option Holder) : Quiet p (makeSuspect i b q) := by
  unfold makeSuspect
  split
  · exact sealFailed_quiet (markSuspect_quiet h _) _
  · exact settleSuspect_quiet (markSuspect_quiet h _) _ _
theorem addLive_quiet (h : Quiet p q) (i n : Nat) : Quiet p (addLive i n q) := judgeSector_quiet (modSector_quiet h _ _) _
theorem subLive_quiet (h : Quiet p q) (i n : Nat) : Quiet p (subLive i n q) := judgeSector_quiet (modSector_quiet h _ _) _
theorem addPending_quiet (h : Quiet p q) (i n : Nat) : Quiet p (addPending i n q) := modSector_quiet h _ _
theorem subPending_quiet (h : Quiet p q) (i n : Nat) : Quiet p (subPending i n q) := judgeSector_quiet (modSector_quiet h _ _) _
theorem addRetiring_quiet (h : Quiet p q) (i n : Nat) : Quiet p (addRetiring i n q) := judgeSector_quiet (modSector_quiet h _ _) _
theorem subRetiring_quiet (h : Quiet p q) (i n : Nat) : Quiet p (subRetiring i n q) := judgeSector_quiet (modSector_quiet h _ _) _
theorem pendingToLive_quiet (h : Quiet p q) (i n : Nat) : Quiet p (pendingToLive i n q) :=
  judgeSector_quiet (modSector_quiet h _ _) _
theorem liveToRetiring_quiet (h : Quiet p q) (i n : Nat) : Quiet p (liveToRetiring i n q) :=
  judgeSector_quiet (modSector_quiet h _ _) _
theorem forElems_quiet (f : Nat → Nat → Part → Part) (hf : ∀ i n r, Quiet p r → Quiet p (f i n r)) (es : List Elem)
    (h : Quiet p q) : Quiet p (forElems f es q) := foldl_quiet _ (fun r _ g => hf _ _ r g) es h
theorem reportFree_quiet (h : Quiet p q) (z : Nat) : Quiet p (reportFree z q) := by
  unfold reportFree
  repeat' split
  all_goals first
    | with_reducible exact h
    | with_reducible exact setCond_quiet h _
theorem takeTail_quiet (h : Quiet p q) (c : CtxId) (i : Nat) : Quiet p (takeTail c i q) :=
  modCtx_quiet (modSector_quiet (clearTail_quiet h _) _ _) _ _
theorem takeFree_quiet (h : Quiet p q) (c : CtxId) (i : Nat) : Quiet p (takeFree c i q) := by
  unfold takeFree
  dsimp only
  apply reportFree_quiet
  split
  · exact liftHold_quiet (modCtx_quiet (modSector_quiet h _ _) _ _) _
  · exact modCtx_quiet (modSector_quiet h _ _) _ _
theorem takeForCtx_quiet (h : Quiet p q) (c : CtxId) : Quiet p (takeForCtx c q).2 := by
  unfold takeForCtx
  dsimp only
  repeat' split
  all_goals first
    | with_reducible exact h
    | with_reducible exact takeTail_quiet h _ _
    | with_reducible exact takeFree_quiet h _ _
    | with_reducible exact noteCtx_quiet (modZone_quiet h _ _) _ _
theorem takeForRunner_quiet (h : Quiet p q) (z : Nat) : Quiet p (takeForRunner z q).2 := by
  unfold takeForRunner
  dsimp only
  repeat' split
  all_goals first
    | with_reducible exact h
    | with_reducible exact reportFree_quiet (quiet_mk (modSector_quiet h _ _) _ _ _ _ _ _ rfl rfl) _
    | with_reducible exact reportFree_quiet (quiet_mk (modSector_quiet (modZone_quiet h _ _) _ _) _ _ _ _ _ _ rfl rfl) _
theorem cutCtx_quiet (h : Quiet p q) (c : CtxId) (z n : Nat) : Quiet p (cutCtx c z n q).2 := by
  unfold cutCtx
  dsimp only
  split
  · exact h
  · exact modCtx_quiet h _ _
theorem cutFold_quiet (z : Nat) (l : List CtxId) (nq : Nat × Part) (h : Quiet p nq.2) :
    Quiet p (l.foldl (fun (nq : Nat × Part) c => cutCtx c z nq.1 nq.2) nq).2 := by
  induction l generalizing nq with
  | nil => exact h
  | cons c l ih => exact ih _ (cutCtx_quiet h _ _ _)
theorem loseSpare_quiet (h : Quiet p q) (z : Nat) (r : Zone) : Quiet p (loseSpare z r q) := by
  unfold loseSpare
  split
  · exact modZone_quiet h _ _
  · exact h
theorem liftIfCut_quiet (h : Quiet p q) (z n : Nat) : Quiet p (liftIfCut z n q) := by
  unfold liftIfCut
  split
  · exact liftHold_quiet h _
  · exact h
theorem cutReservations_quiet (h : Quiet p q) (z : Nat) : Quiet p (cutReservations z q) := by
  unfold cutReservations
  split
  · exact h
  · exact quiet_ite h (loseSpare_quiet (liftIfCut_quiet (cutFold_quiet z (cutOrder q) (_, q) h) _ _) _ _)

end Sys2Proof.Machine
end

