-- ==== Sys2Proof/Laws/QuietWork.lean ====
section
/-! SUPPORT. The write contexts' and the Slot Directory's work is quiet (Laws/Quiet.lean). -/

namespace Sys2Proof.Machine

variable {p q : Part}

/-! ### Replies -/

/-- A reply in an ending place takes no direct and no queued-class place. -/
theorem pushEnding_quiet (h : Quiet p q) (r : Reply) (c : CtxId) (hr : r.place = .ending c) : Quiet p (pushReply r q) := by
  refine h.trans ⟨rfl, ?_, ⟨List.prefix_append _ _, List.Sublist.refl _⟩, id, fun _ => ⟨List.Sublist.refl _, rfl, ?_, le_max_right _ _⟩⟩
  · simp [directInUse, pushReply, List.filter_append, hr]
  · simp [Part.places, queuedReplies, pushReply, List.filter_append, hr]

theorem answerFold_link (l : List HeldAbort) (st : Status) (q : Part) :
    let r := l.foldl (fun q h => pushReply { kind := 0x06, tag := h.tag, status := st, notes := 0, payload := [], place := .direct } q) q
    (r.settings = q.settings ∧ r.sdr = q.sdr) ∧ r.rqs = q.rqs ∧ r.link.held = q.link.held ∧ queuedReplies r = queuedReplies q ∧
      (r.link.replies.filter (fun x => x.place = .direct)).length
        = (q.link.replies.filter (fun x => x.place = .direct)).length + l.length ∧ q.link.replies <+: r.link.replies := by
  induction l generalizing q with
  | nil => simp
  | cons a l ih =>
    obtain ⟨h1, h2, h3, h4, h5, h6⟩ := ih (pushReply { kind := 0x06, tag := a.tag, status := st, notes := 0, payload := [], place := .direct } q)
    refine ⟨⟨h1.1.trans rfl, h1.2.trans rfl⟩, h2.trans rfl, h3.trans rfl, h4.trans ?_, h5.trans ?_, (List.prefix_append _ _).trans h6⟩
    · simp [queuedReplies, pushReply, List.filter_append]
    · simp [pushReply, List.filter_append]
      omega

theorem answerHeld_quiet (h : Quiet p q) (a : Nat) (st : Status) : Quiet p (answerHeld a st q) := by
  obtain ⟨h1, h2, h3, h4, h5, h6⟩ := answerFold_link (q.link.held.filter (fun h => h.target = a)) st
    { q with link := { q.link with held := q.link.held.filter (fun h => h.target ≠ a) } }
  refine h.trans ⟨h1.1.trans rfl, ?_, ⟨h6, by unfold answerHeld; rw [h3]; exact List.filter_sublist⟩,
    fun x => by unfold Part.ascending answerHeld; rw [h1.2]; exact x, fun _ => ⟨?_, ?_, ?_, ?_⟩⟩
  · have hp : (q.link.held.filter (fun h => h.target = a)).length + (q.link.held.filter (fun h => h.target ≠ a)).length
        = q.link.held.length := by
      have := List.length_eq_length_filter_add (l := q.link.held) (fun h => decide (h.target = a))
      simp only [this, decide_not]
    unfold directInUse answerHeld
    rw [h5, h3]
    simp only at hp ⊢
    omega
  · unfold Part.ages answerHeld; rw [h2]
  · unfold answerHeld; rw [h2]
  · unfold Part.places answerHeld; rw [h2, h4]; rfl
  · unfold activeCount answerHeld; rw [h2]; exact le_max_right _ _

/-- R149: a completion moves one place from an entry to its reply. -/
theorem completeEntry_quiet (h : Quiet p q) (a : Nat) (st : Status) (n : Byte) (pl : List Byte) :
    Quiet p (completeEntry a st n pl q) := by
  unfold completeEntry
  split
  · rename_i e he
    apply answerHeld_quiet
    refine h.trans ⟨rfl, ?_, ⟨List.prefix_append _ _, List.Sublist.refl _⟩, id, fun nd => ⟨?_, rfl, ?_, ?_⟩⟩
    · simp [directInUse, pushReply, dropEntry, List.filter_append]
    · exact List.Sublist.map _ List.filter_sublist
    · have hmem : e ∈ q.rqs.queue := List.mem_of_find?_eq_some he
      have hage : e.age = a := by simpa using List.find?_some he
      have hlen : ∀ l : List Entry, (l.map (·.age)).Nodup → e ∈ l →
          (l.filter (fun x => x.age ≠ a)).length + 1 = l.length := by
        intro l
        induction l with
        | nil => intro _ hm; cases hm
        | cons x xs ih =>
          intro hn hm
          simp only [List.map_cons, List.nodup_cons] at hn
          rcases List.mem_cons.mp hm with rfl | hm'
          · have : xs.filter (fun x => x.age ≠ a) = xs := by
              apply List.filter_eq_self.mpr
              intro y hy
              have : y.age ≠ e.age := fun he' => hn.1 (he' ▸ List.mem_map_of_mem hy)
              simpa [hage] using this
            simp [hage]
            simpa using congrArg List.length this
          · have hx : x.age ≠ a := fun hx => hn.1 (by rw [hx, ← hage]; exact List.mem_map_of_mem hm')
            have := ih hn.2 hm'
            simp [hx] at this ⊢
            omega
      have := hlen q.rqs.queue nd hmem
      simp only [Part.places, queuedReplies, pushReply, dropEntry, List.filter_append, List.length_append] at this ⊢
      simp at this ⊢
      omega
    · refine le_trans ?_ (le_max_right _ _)
      exact (List.Sublist.filter _ List.filter_sublist).length_le
  · exact h

/-! ### Write contexts -/

theorem releasePending_quiet (h : Quiet p q) (k : WriteCtx) : Quiet p (releasePending k q) := by
  have g : Quiet p (k.written.foldl (fun q w => subPending w.sector (space w.length) q) q) :=
    foldl_quiet _ (fun r _ hr => subPending_quiet hr _ _) _ h
  unfold releasePending
  dsimp only
  split
  · exact subPending_quiet g _ _
  · exact g
theorem giveUpCtx_quiet (h : Quiet p q) (k : WriteCtx) : Quiet p (giveUpCtx k q) := by
  unfold giveUpCtx
  split
  · exact giveUp_quiet (quiet_ite (modSector_quiet h _ _) h) _
  · exact h
theorem returnReservation_quiet (h : Quiet p q) (c : CtxId) : Quiet p (returnReservation c q) :=
  returnSpare_quiet (quiet_ite (liftHold_quiet (modCtx_quiet h _ _) _) (modCtx_quiet h _ _)) _
theorem clearOpenCtx_quiet (h : Quiet p q) (c : CtxId) (s : Nat) : Quiet p (clearOpenCtx c s q) :=
  modEntry_quiet h _ (fun d => if d.openCtx = some c then { d with openCtx := none } else d) (fun e => by split <;> rfl)
theorem finishEnd_quiet (h : Quiet p q) (c : CtxId) (st : Option Status) : Quiet p (finishEnd c st q) := by
  have g1 : Quiet p (removeTaker c (withdraw (.ctx c) q)) := removeTaker_quiet (withdraw_quiet h _) _
  have g2 : Quiet p (if (q.ctx c).commit = .switched then removeTaker c (withdraw (.ctx c) q)
      else releasePending (q.ctx c) (removeTaker c (withdraw (.ctx c) q))) := quiet_ite g1 (releasePending_quiet g1 _)
  have g := clearOpenCtx_quiet (returnReservation_quiet (giveUpCtx_quiet g2 (q.ctx c)) c) c (q.ctx c).slot
  unfold finishEnd
  dsimp only
  split
  · exact modCtx_quiet g _ _
  · exact pushEnding_quiet (modCtx_quiet g _ _) _ c rfl
theorem endCtx_quiet (h : Quiet p q) (c : CtxId) (s : Status) : Quiet p (endCtx c s q) :=
  quiet_ite (modCtx_quiet h _ _) (finishEnd_quiet h _ _)
theorem finishCause_quiet (h : Quiet p q) (c : CtxId) (e : EndCause) : Quiet p (finishCause c e q) := by
  cases e <;> exact finishEnd_quiet h _ _
theorem raiseCommit_quiet (h : Quiet p q) (c : CtxId) : Quiet p (raiseCommit c q) := by
  unfold raiseCommit
  dsimp only
  split
  · exact raise_quiet h _ _ _ _
  · exact h
theorem tryCommit_quiet (h : Quiet p q) (c : CtxId) : Quiet p (tryCommit c q) := by
  unfold tryCommit
  dsimp only
  repeat' split
  all_goals first
    | with_reducible exact h
    | with_reducible exact endCtx_quiet h _ _
    | with_reducible exact raiseCommit_quiet (modCtx_quiet h _ _) _
theorem raiseFirst_quiet (h : Quiet p q) (c : CtxId) (i : Nat) : Quiet p (raiseFirst c i q) :=
  quiet_ite (endCtx_quiet h _ _) (raise_quiet h _ _ _ _)
theorem sectorFor_quiet (h : Quiet p q) (c : CtxId) : Quiet p (sectorFor c q).2 := by
  unfold sectorFor
  repeat' split
  all_goals first
    | with_reducible exact h
    | with_reducible exact takeForCtx_quiet h _
theorem startExtent_quiet (h : Quiet p q) (c : CtxId) : Quiet p (startExtent c q) := by
  unfold startExtent
  dsimp only
  split
  all_goals
    rename_i hs
    have g := sectorFor_quiet h c
    rw [hs] at g
    dsimp only at g
  · split
    · exact raiseFirst_quiet g _ _
    · exact g
  · exact quiet_ite (endCtx_quiet h _ _) g
  · exact endCtx_quiet g _ _
theorem raiseClose_quiet (h : Quiet p q) (c : CtxId) (x : CurExtent) : Quiet p (raiseClose c x q) := raise_quiet h _ _ _ _
theorem raiseData_quiet (h : Quiet p q) (c : CtxId) (x : CurExtent) : Quiet p (raiseData c x q) := raise_quiet h _ _ _ _
theorem chooseStep_quiet (h : Quiet p q) (c : CtxId) : Quiet p (chooseStep c q) := by
  unfold chooseStep
  dsimp only
  repeat' split
  all_goals first
    | with_reducible exact h
    | with_reducible exact raiseClose_quiet h _ _
    | with_reducible exact raiseData_quiet h _ _
    | with_reducible exact endCtx_quiet h _ _
    | with_reducible exact startExtent_quiet h _
    | with_reducible exact tryCommit_quiet (modCtx_quiet h _ _) _
theorem advanceNextWrite_quiet (h : Quiet p q) (i o n : Nat) : Quiet p (advanceNextWrite i o n q) :=
  quiet_ite (modSector_quiet h _ _) h
theorem sealIfFull_quiet (h : Quiet p q) (i : Nat) : Quiet p (sealIfFull i q) := quiet_ite (sealSector_quiet h _) h
theorem endingLanded_quiet (h : Quiet p q) (c : CtxId) (u : Purpose) (ok : Bool) (n : Nat) :
    Quiet p (endingLanded c u ok n q) := by
  unfold endingLanded
  split
  · exact quiet_ite (modCtx_quiet h _ _) h
  · exact h
theorem endingDone_quiet (g : Quiet p q) (c : CtxId) (e : EndCause) (u : Purpose) (i o : Nat) (ok : Bool) (n : Nat) :
    Quiet p (endingDone c e u i o ok n q) := by
  have h := endingLanded_quiet g c u ok n
  unfold endingDone
  apply finishCause_quiet
  dsimp only
  repeat' split
  all_goals first
    | with_reducible exact h
    | with_reducible exact makeSuspect_quiet (noteCtx_quiet h _ _) _ _
    | with_reducible exact modSector_quiet h _ _
    | with_reducible exact modCtx_quiet (subPending_quiet (sealIfFull_quiet (advanceNextWrite_quiet h _ _ _) _) _ _) _ _
theorem firstDone_quiet (h : Quiet p q) (c : CtxId) (i o : Nat) : Quiet p (firstDone c i o q) :=
  chooseStep_quiet (addPending_quiet (modCtx_quiet h _ _) _ _) _
theorem dataLanded_quiet (h : Quiet p q) (c : CtxId) (x : CurExtent) (bs : List Byte) : Quiet p (dataLanded c x bs q) :=
  addPending_quiet (modCtx_quiet h _ _) _ _
theorem dataDone_quiet (h : Quiet p q) (c : CtxId) (bs : List Byte) : Quiet p (dataDone c bs q) := by
  unfold dataDone
  split
  · have g := modCtx_quiet (dataLanded_quiet h c ‹_› bs) c freeBuffer
    exact chooseStep_quiet (quiet_ite (modCtx_quiet g _ _) g) _
  · exact h
theorem closeDone_quiet (h : Quiet p q) (c : CtxId) : Quiet p (closeDone c q) := by
  unfold closeDone
  split
  · exact chooseStep_quiet (sealIfFull_quiet (advanceNextWrite_quiet (addPending_quiet (modCtx_quiet h _ _) _ _) _ _ _) _) _
  · exact h
theorem settleExtent_quiet (h : Quiet p q) (c : CtxId) : Quiet p (settleExtent c q) := by
  unfold settleExtent
  split
  · exact quiet_ite (subPending_quiet (modCtx_quiet h _ _) _ _) (modCtx_quiet h _ _)
  · exact h
theorem programFailure_quiet (h : Quiet p q) (c : CtxId) (i : Nat) (g : List Byte) : Quiet p (programFailure c i g q) := by
  have h1 := makeSuspect_quiet (noteCtx_quiet h c .mediaEvent) i (some (.ctx c))
  unfold programFailure
  dsimp only
  split
  · exact endCtx_quiet h1 _ _
  · apply chooseStep_quiet
    apply noteCtx_quiet
    split
    · exact settleExtent_quiet (dataLanded_quiet (modCtx_quiet h1 _ _) _ _ _) _
    · exact modCtx_quiet h1 _ _
theorem closeFailure_quiet (h : Quiet p q) (c : CtxId) (i : Nat) : Quiet p (closeFailure c i q) :=
  endCtx_quiet (makeSuspect_quiet (noteCtx_quiet h _ _) _ _) _ _

/-! ### Serving records -/

theorem completeServing_quiet (h : Quiet p q) (a : Nat) (st : Status) (n : Byte) (pl : List Byte) :
    Quiet p (completeServing a st n pl q) := completeEntry_quiet (dropServing_quiet h _) _ _ _ _
theorem completeNoSlot_quiet (h : Quiet p q) (r : Serving) : Quiet p (completeNoSlot r q) := completeServing_quiet h _ _ _ _
theorem slotGone_quiet (h : Quiet p q) (a : Nat) : Quiet p (slotGone a q) := by
  unfold slotGone
  split
  · exact quiet_ite (modServing_quiet h _ _) (completeNoSlot_quiet (withdraw_quiet h _) _)
  · exact h
theorem raiseRead_quiet (h : Quiet p q) (a : Nat) : Quiet p (raiseRead a q) := by
  unfold raiseRead
  dsimp only
  repeat' split
  all_goals first
    | with_reducible exact h
    | with_reducible exact completeServing_quiet h _ _ _ _
    | with_reducible exact raise_quiet (modServing_quiet h _ _) _ _ _ _
    | with_reducible exact completeNoSlot_quiet h _
theorem readDone_quiet (h : Quiet p q) (a : Nat) (bs : List Byte) : Quiet p (readDone a bs q) := by
  unfold readDone
  split
  · exact quiet_ite (completeNoSlot_quiet h _) (completeServing_quiet h _ _ _ _)
  · exact h
theorem raiseVerify_quiet (h : Quiet p q) (a : Nat) : Quiet p (raiseVerify a q) := by
  unfold raiseVerify
  repeat' split
  all_goals first
    | with_reducible exact h
    | with_reducible exact raise_quiet (modServing_quiet h _ _) _ _ _ _
    | with_reducible exact completeNoSlot_quiet h _
theorem verifyDone_quiet (h : Quiet p q) (a : Nat) (bs : List Byte) : Quiet p (verifyDone a bs q) := by
  unfold verifyDone
  split
  · refine quiet_ite (completeNoSlot_quiet h _) (quiet_ite (quiet_ite (completeServing_quiet h _ _ _ _) ?_) ?_)
    · exact quiet_ite (completeServing_quiet h _ _ _ _) (raiseVerify_quiet (modServing_quiet h _ _) _)
    · exact completeServing_quiet (makeSuspect_quiet h _ _) _ _ _ _
  · exact h
theorem raiseDeleteMark_quiet (h : Quiet p q) (a : Nat) : Quiet p (raiseDeleteMark a q) := by
  unfold raiseDeleteMark
  split
  · exact raise_quiet h _ _ _ _
  · exact h
theorem clearDeletePending_quiet (h : Quiet p q) (s : Nat) : Quiet p (clearDeletePending s q) :=
  modEntry_quiet h _ (fun d => { d with deletePending := false }) (fun _ => rfl)
theorem deleteSucceeded_quiet (h : Quiet p q) (r : Serving) : Quiet p (deleteSucceeded r q) := by
  unfold deleteSucceeded
  split
  · dsimp only
    apply completeServing_quiet
    apply foldl_quiet _ (fun r _ hr => slotGone_quiet hr _)
    apply forElems_quiet _ (fun _ _ _ hr => subLive_quiet hr _ _)
    exact quiet_dir h _ _ _ _ _ _ rfl (fun x => x.filter _)
  · exact completeNoSlot_quiet h _
theorem deleteMarkDone_quiet (h : Quiet p q) (a : Nat) (ok : Bool) : Quiet p (deleteMarkDone a ok q) := by
  unfold deleteMarkDone
  split
  · exact quiet_ite (completeNoSlot_quiet h _) (quiet_ite (deleteSucceeded_quiet h _) (raise_quiet (modServing_quiet h _ _) _ _ _ _))
  · exact h
theorem deleteMarkFailed_quiet (h : Quiet p q) (r : Serving) : Quiet p (deleteMarkFailed r q) :=
  makeSuspect_quiet (modServing_quiet h _ _) _ _
theorem deleteReadBackDone_quiet (h : Quiet p q) (a : Nat) (b : Byte) : Quiet p (deleteReadBackDone a b q) := by
  unfold deleteReadBackDone
  dsimp only
  repeat' split
  all_goals first
    | with_reducible exact h
    | with_reducible exact completeNoSlot_quiet h _
    | with_reducible exact deleteSucceeded_quiet (deleteMarkFailed_quiet h _) _
    | with_reducible exact deleteMarkFailed_quiet h _
    | with_reducible exact raiseDeleteMark_quiet (modServing_quiet h _ _) _
    | with_reducible exact completeServing_quiet (clearDeletePending_quiet (deleteMarkFailed_quiet h _) _) _ _ _ _
theorem reissueAtSwitch_quiet (h : Quiet p q) (s : Nat) : Quiet p (reissueAtSwitch s q) := by
  apply foldl_quiet _ _ _ h
  intro r a hr
  repeat' split
  all_goals first
    | with_reducible exact hr
    | with_reducible exact raiseRead_quiet (withdraw_quiet hr _) _
    | with_reducible exact raiseVerify_quiet (modServing_quiet (withdraw_quiet hr _) _ _) _
theorem reissueAtReplacement_quiet (h : Quiet p q) (s i : Nat) : Quiet p (reissueAtReplacement s i q) := by
  apply foldl_quiet _ _ _ h
  intro r a hr
  repeat' split
  all_goals first
    | with_reducible exact hr
    | with_reducible exact raiseRead_quiet (withdraw_quiet hr _) _
    | with_reducible exact raiseVerify_quiet (withdraw_quiet hr _) _

/-! ### Retiring list and commit -/

theorem raiseObsolete_quiet (h : Quiet p q) (s n : Nat) : Quiet p (raiseObsolete s n q) := by
  unfold raiseObsolete
  split
  · exact raise_quiet (modRetiring_quiet h _ _ _) _ _ _ _
  · exact h
theorem retire_quiet (h : Quiet p q) (e : DirEntry) (l : Nat) (w : Option CtxId) : Quiet p (retire e l w q) := by
  unfold retire
  split
  · exact h
  · have g (x : List Retiring) : Quiet p (forElems liveToRetiring e.extents { q with sdr := { q.sdr with retiring := x } }) :=
      forElems_quiet liveToRetiring (fun _ _ _ hr => liveToRetiring_quiet hr _ _) _ (quiet_mk h _ _ _ _ _ _ rfl rfl)
    exact quiet_ite (g _) (raiseObsolete_quiet (g _) _ _)
theorem noteWaiting_quiet (h : Quiet p q) (r : Retiring) (n : Note) : Quiet p (noteWaiting r n q) := by
  unfold noteWaiting
  split
  · exact noteCtx_quiet h _ _
  · exact h
theorem recordLeaves_quiet (h : Quiet p q) (r : Retiring) : Quiet p (recordLeaves r q) := by
  have g1 (x : List Retiring) : Quiet p (forElems subRetiring r.extents { q with sdr := { q.sdr with retiring := x } }) :=
    forElems_quiet (p := p) subRetiring (fun _ _ _ hr => subRetiring_quiet hr _ _) _ (quiet_mk h _ _ _ _ _ _ rfl rfl)
  unfold recordLeaves
  dsimp only
  repeat' split
  all_goals first
    | with_reducible exact finishEnd_quiet (subRetiring_quiet (g1 _) _ _) _ _
    | with_reducible exact finishEnd_quiet (g1 _) _ _
    | with_reducible exact subRetiring_quiet (g1 _) _ _
    | with_reducible exact g1 _
theorem addLingering_quiet (h : Quiet p q) (s i : Nat) : Quiet p (addLingering s i q) := modEntry_quiet h _ _
theorem obsoleteDone_quiet (h : Quiet p q) (s n : Nat) (ok : Bool) : Quiet p (obsoleteDone s n ok q) := by
  unfold obsoleteDone
  split
  · exact quiet_ite (recordLeaves_quiet h _) (quiet_ite (raiseObsolete_quiet (noteWaiting_quiet h _ _) _ _)
      (recordLeaves_quiet (addLingering_quiet (makeSuspect_quiet (noteWaiting_quiet h _ _) _ _) _ _) _))
  · exact h
/-- R25, R28: the entry of an absent slot joins in its place. -/
theorem insertEntry_ascending (e : DirEntry) (l : List DirEntry) (h : l.Pairwise (fun a b => a.slot < b.slot))
    (ha : ∀ d ∈ l, d.slot ≠ e.slot) : (insertEntry e l).Pairwise (fun a b => a.slot < b.slot) ∧
      ∀ d ∈ insertEntry e l, d = e ∨ d ∈ l := by
  induction l with
  | nil => exact ⟨List.pairwise_singleton _ _, fun d hd => .inl (List.mem_singleton.1 hd)⟩
  | cons x xs ih =>
    have hx := List.pairwise_cons.1 h
    obtain ⟨i1, i2⟩ := ih hx.2 (fun d hd => ha d (List.mem_cons_of_mem _ hd))
    unfold insertEntry
    split
    · refine ⟨List.pairwise_cons.2 ⟨fun d hd => ?_, i1⟩, fun d hd => ?_⟩
      · rcases i2 d hd with rfl | m
        · assumption
        · exact hx.1 d m
      · rcases List.mem_cons.1 hd with rfl | m
        · exact .inr List.mem_cons_self
        · exact (i2 d m).imp id (List.mem_cons_of_mem _)
    · have lt : e.slot < x.slot := by have := ha x List.mem_cons_self; omega
      refine ⟨List.pairwise_cons.2 ⟨fun d hd => ?_, h⟩, fun d hd => List.mem_cons.1 hd⟩
      rcases List.mem_cons.1 hd with rfl | m
      · exact lt
      · exact lt.trans (hx.1 d m)
theorem commitSwitch_quiet (h : Quiet p q) (c : CtxId) : Quiet p (commitSwitch c q) := by
  have g1 := modCtx_quiet h c (fun k => { k with commit := .switched })
  have move (es : List Elem) {r : Part} (hr : Quiet p r) : Quiet p (forElems pendingToLive es r) :=
    forElems_quiet pendingToLive (fun _ _ _ h => pendingToLive_quiet h _ _) es hr
  unfold commitSwitch
  dsimp only
  split
  · rename_i absent
    refine finishEnd_quiet (move _ (quiet_dir g1 _ _ _ _ _ _ rfl (fun x => (insertEntry_ascending _ _ x (fun d hd => ?_)).1))) _ _
    have e : (modCtx c (fun k => { k with commit := .switched }) q).sdr.directory = q.sdr.directory := by cases c <;> rfl
    simpa [WriteCtx.newEntry] using List.find?_eq_none.1 absent d (e ▸ hd)
  · have g := retire_quiet (move (q.ctx c).elems (modEntry_quiet g1 (q.ctx c).slot (fun e => { e with
      cls := (q.ctx c).cls, length := (q.ctx c).total, sequence := (q.ctx c).sequence, extents := (q.ctx c).elems })))
    exact quiet_ite (finishEnd_quiet (reissueAtSwitch_quiet (g _ _ _) _) _ _) (reissueAtSwitch_quiet (g _ _ _) _)
theorem commitFailed_quiet (h : Quiet p q) (c : CtxId) : Quiet p (commitFailed c q) := by
  unfold commitFailed
  split
  · exact raise_quiet (makeSuspect_quiet (noteCtx_quiet (modCtx_quiet h _ _) _ _) _ _) _ _ _ _
  · exact h
theorem commitReadBack_quiet (h : Quiet p q) (c : CtxId) (b : Byte) : Quiet p (commitReadBack c b q) := by
  unfold commitReadBack
  dsimp only
  split
  · exact commitSwitch_quiet h _
  · split
    · exact finishEnd_quiet h _ _
    · exact quiet_ite (raiseCommit_quiet (noteCtx_quiet h _ _) _) (finishEnd_quiet h _ _)

end Sys2Proof.Machine
end

