-- ==== Sys2Proof/Laws/Resolve.lean ====
section
/-! SUPPORT. The directory that resolve installs is in ascending slot id (R25, R174). -/

namespace Sys2Proof.Machine

/-- The order of the live-eligible generations: by slot, then sequence. -/
def pairBefore (a b : Nat × Nat) : Prop := a.1 < b.1 ∨ (a.1 = b.1 ∧ a.2 < b.2)

theorem insertPair_sorted (a : Nat × Nat) (l : List (Nat × Nat)) (h : l.Pairwise pairBefore) :
    (insertPair a l).Pairwise pairBefore ∧ ∀ x ∈ insertPair a l, x = a ∨ x ∈ l := by
  induction l with
  | nil => exact ⟨List.pairwise_singleton _ _, fun x hx => .inl (List.mem_singleton.1 hx)⟩
  | cons b bs ih =>
    have hb := List.pairwise_cons.1 h
    obtain ⟨i1, i2⟩ := ih hb.2
    unfold insertPair
    split
    · exact ⟨h, fun x hx => .inr hx⟩
    · rename_i ne
      split
      · rename_i lt
        refine ⟨List.pairwise_cons.2 ⟨fun x hx => ?_, h⟩, fun x hx => List.mem_cons.1 hx⟩
        rcases List.mem_cons.1 hx with rfl | m
        · exact lt
        · have := hb.1 x m
          unfold pairBefore at this ⊢
          omega
      · rename_i nlt
        refine ⟨List.pairwise_cons.2 ⟨fun x hx => ?_, i1⟩, fun x hx => ?_⟩
        · rcases i2 x hx with rfl | m
          · have : x.1 ≠ b.1 ∨ x.2 ≠ b.2 := by
              by_contra c
              exact ne (Prod.ext (by omega) (by omega))
            unfold pairBefore
            omega
          · exact hb.1 x m
        · rcases List.mem_cons.1 hx with rfl | m
          · exact .inr List.mem_cons_self
          · exact (i2 x m).imp id (List.mem_cons_of_mem _)

theorem better_slot {s : Nat} {a b : Candidate} (ha : a.slot = s) (hb : b.slot = s) : (better a b).slot = s := by
  unfold better; split <;> assumption

theorem chosen_slot {cs : List Candidate} {s q i : Nat} {c : Candidate} (h : chosen cs s q i = some c) : c.slot = s := by
  have fold : ∀ (l : List Candidate) (x : Candidate), x.slot = s → (∀ d ∈ l, d.slot = s) → (l.foldl better x).slot = s := by
    intro l
    induction l with
    | nil => exact fun x hx _ => hx
    | cons d l ih => exact fun x hx hl => ih _ (better_slot hx (hl d List.mem_cons_self)) (fun e he => hl e (List.mem_cons_of_mem _ he))
  have mem : ∀ d ∈ cs.filter (fun c => decide (c.slot = s) && decide (c.sequence = q) && decide (c.index = i)), d.slot = s := by
    intro d hd
    have := (List.mem_filter.1 hd).2
    simp only [Bool.and_eq_true, decide_eq_true_eq] at this
    exact this.1.1
  unfold chosen at h
  split at h
  · cases h
  · rename_i x l hl
    injection h with h
    rw [← h]
    exact fold l x (mem x (hl ▸ List.mem_cons_self)) (fun d hd => mem d (hl ▸ List.mem_cons_of_mem _ hd))

theorem eligibleRun_slot {cs : List Candidate} {s q : Nat} {run : List Candidate} (h : eligibleRun cs s q = some run) :
    runSlot run = s := by
  unfold eligibleRun at h
  dsimp only at h
  split at h
  · rename_i x l hl
    split at h
    · injection h with h
      rw [← h, hl]
      have : x ∈ chosenRun cs s q := hl ▸ List.mem_cons_self
      obtain ⟨o, ho, e⟩ := List.mem_filterMap.1 this
      obtain ⟨i, _, hi⟩ := List.mem_map.1 ((List.takeWhile_sublist _).subset ho)
      exact chosen_slot (hi.trans e)
    · cases h
  · cases h

theorem eligibleRuns_sorted (cs : List Candidate) : (eligibleRuns cs).Pairwise (fun a b => runSlot a ≤ runSlot b) := by
  have sorted : ∀ (l : List Candidate) (acc : List (Nat × Nat)), acc.Pairwise pairBefore →
      (l.foldl (fun l c => insertPair (c.slot, c.sequence) l) acc).Pairwise pairBefore := by
    intro l
    induction l with
    | nil => exact fun acc h => h
    | cons c l ih => exact fun acc h => ih _ (insertPair_sorted _ _ h).1
  unfold eligibleRuns
  refine (sorted _ _ List.Pairwise.nil).filterMap _ (fun a b hab x hx y hy => ?_)
  rw [eligibleRun_slot hx, eligibleRun_slot hy]
  unfold pairBefore at hab
  omega

theorem liveRuns_sorted (l : List (List Candidate)) (h : l.Pairwise (fun a b => runSlot a ≤ runSlot b)) :
    (liveRuns l).Pairwise (fun a b => runSlot a < runSlot b) ∧ ∀ r ∈ liveRuns l, r ∈ l := by
  induction l with
  | nil => exact ⟨List.Pairwise.nil, fun _ h => h⟩
  | cons r l ih =>
    have hr := List.pairwise_cons.1 h
    obtain ⟨i1, i2⟩ := ih hr.2
    cases l with
    | nil => exact ⟨List.pairwise_singleton _ _, fun _ h => h⟩
    | cons s rest =>
      unfold liveRuns
      split
      · exact ⟨i1, fun x hx => List.mem_cons_of_mem _ (i2 x hx)⟩
      · rename_i ne
        refine ⟨List.pairwise_cons.2 ⟨fun x hx => ?_, i1⟩, fun x hx => ?_⟩
        · have a := hr.1 s List.mem_cons_self
          have b : runSlot s ≤ runSlot x := by
            rcases List.mem_cons.1 (i2 x hx) with rfl | m
            · exact le_refl _
            · exact (List.pairwise_cons.1 hr.2).1 x m
          omega
        · rcases List.mem_cons.1 hx with rfl | m
          · exact List.mem_cons_self
          · exact List.mem_cons_of_mem _ (i2 x m)

/-- R174: the entries that resolve installs stand in ascending slot id. -/
theorem resolved_ascending (plan : List (Nat × Nat)) (cs : List Candidate) :
    ((liveRuns (eligibleRuns cs)).filterMap (entryOfRun plan)).Pairwise (fun a b => a.slot < b.slot) := by
  have slot : ∀ {run : List Candidate} {d : DirEntry}, entryOfRun plan run = some d → d.slot = runSlot run := by
    intro run d h
    cases run with
    | nil => cases h
    | cons c l =>
      injection h with h
      rw [← h]
      rfl
  refine (liveRuns_sorted _ (eligibleRuns_sorted cs)).1.filterMap _ (fun a b hab x hx y hy => ?_)
  rw [slot hx, slot hy]
  exact hab

end Sys2Proof.Machine
end

