-- ==== Sys2Proof/Laws/QuietEvents.lean ====
section
/-! SUPPORT. The runner, the batches, the Scan Unit, activation, the close of an event and the owners' reactions to a
completed operation are quiet (Laws/Quiet.lean). -/

namespace Sys2Proof.Machine

variable {p q : Part}

/-- A reaction is quiet when whatever it answers is. -/
def QuietReact (f : Part → Option Part) : Prop := ∀ p q r, Quiet p q → f q = some r → Quiet p r

/-! ### Runner -/

theorem modJob_quiet (h : Quiet p q) (f : Job → Job) : Quiet p (modJob f q) := quiet_mk h _ _ _ _ _ _ rfl rfl
theorem modStep_quiet (h : Quiet p q) (f : Step → Step) : Quiet p (modStep f q) := quiet_mk h _ _ _ _ _ _ rfl rfl
theorem endJob_quiet (h : Quiet p q) (st : Status) : Quiet p (endJob st q) := by
  unfold endJob
  split
  · exact completeEntry_quiet (quiet_mk h _ _ _ _ _ _ rfl rfl) _ _ _ _
  · exact h
theorem jobReact_quiet : QuietReact jobReact := by
  intro p q r h hr
  unfold jobReact at hr
  repeat' split at hr
  all_goals first
    | cases hr; done
    | (injection hr with hr; subst hr)
  all_goals first
    | with_reducible exact endJob_quiet h _
    | with_reducible exact modJob_quiet h _
theorem beginStep_quiet (h : Quiet p q) (k : StepKind) (j : Option Nat) (l z : Nat) (m : Movable) :
    Quiet p (beginStep k j l z m q) := raise_quiet (modEntry_quiet (quiet_mk h _ _ _ _ _ _ rfl rfl) _ _) _ _ _ _
theorem runnerReact_quiet : QuietReact runnerReact := by
  intro p q r h hr
  unfold runnerReact at hr
  dsimp only at hr
  repeat' split at hr
  all_goals first
    | cases hr; done
    | (injection hr with hr; subst hr)
  all_goals first
    | with_reducible exact beginStep_quiet h _ _ _ _ _
    | with_reducible exact giveUp_quiet h _
theorem restReact_quiet : QuietReact restReact := by
  intro p q r h hr
  unfold restReact at hr
  split at hr
  · obtain ⟨i, _, rfl⟩ := Option.map_eq_some_iff.mp hr
    exact giveUp_quiet h i
  · cases hr
theorem replaceElem_quiet (h : Quiet p q) (st : Step) : Quiet p (replaceElem st q) := by
  unfold replaceElem
  split
  · exact quiet_ite (reissueAtReplacement_quiet (subLive_quiet (addLive_quiet (modEntry_quiet h _ _) _ _) _ _) _ _) h
  · exact h
theorem raiseDeferred_quiet (h : Quiet p q) (st : Step) (b : Bool) : Quiet p (raiseDeferred st b q) := by
  unfold raiseDeferred
  split
  · exact quiet_ite (raiseObsolete_quiet (modRetiring_quiet
      (quiet_ite (addRetiring_quiet (modRetiring_quiet h _ _ _) _ _) h) _ _ _) _ _) h
  · exact h
theorem dropRunnerSector_quiet (h : Quiet p q) (i : Nat) : Quiet p (dropRunnerSector i q) := modSector_quiet h _ _
theorem settleRunnerSector_quiet (h : Quiet p q) (st : Step) : Quiet p (settleRunnerSector st q) := by
  unfold settleRunnerSector
  split
  · split
    · exact quiet_ite (sealSector_quiet h _) h
    · exact quiet_ite h (judgeSector_quiet h _)
  · dsimp only
    have g : Quiet p (match q.rcu.owned with
        | some i => dropRunnerSector i { q with rcu := { q.rcu with owned := none } }
        | none => q) := by
      split
      · exact dropRunnerSector_quiet (quiet_mk h _ _ _ _ _ _ rfl rfl) _
      · exact h
    exact quiet_ite g (dropRunnerSector_quiet g _)
theorem settleRestart_quiet (h : Quiet p q) : Quiet p (settleRestart q) := by
  unfold settleRestart
  split
  · dsimp only
    split
    · exact giveUp_quiet (quiet_mk h _ _ _ _ _ _ rfl rfl) _
    · exact quiet_mk h _ _ _ _ _ _ rfl rfl
  · exact h
theorem endStep_quiet (h : Quiet p q) (b : Bool) : Quiet p (endStep b q) := by
  unfold endStep
  split
  · have g (x : Rcu) : Quiet p { q with rcu := x } := quiet_mk h _ _ _ _ _ _ rfl rfl
    exact settleRestart_quiet (settleRunnerSector_quiet (raiseDeferred_quiet
      (modEntry_quiet (quiet_ite (replaceElem_quiet (g _) _) (g _)) _ _) _ _) _)
  · exact h
theorem jobBoundary_quiet (h : Quiet p q) (st : Step) : Quiet p (jobBoundary st q) := by
  unfold jobBoundary
  split
  · split
    · dsimp only
      have g (b : Bool) (f : Job → Job) : Quiet p (if b = true then modJob f q else q) := quiet_ite (modJob_quiet h _) h
      split
      · exact quiet_ite (endJob_quiet (g _ _) _) (quiet_ite (endJob_quiet (g _ _) _) (quiet_ite (endJob_quiet (g _ _) _) (g _ _)))
      · exact g _ _
    · exact h
  · exact h
theorem finishStep_quiet (h : Quiet p q) (b : Bool) : Quiet p (finishStep b q) := by
  unfold finishStep
  split
  · exact jobBoundary_quiet (endStep_quiet h _) _
  · exact h
theorem countFailure_quiet (h : Quiet p q) (st : Step) : Quiet p (countFailure st q) := modJob_quiet h _
theorem stepFailed_quiet (h : Quiet p q) : Quiet p (stepFailed q) := by
  unfold stepFailed
  split
  · exact finishStep_quiet (countFailure_quiet (makeSuspect_quiet (noteStepJob_quiet h _) _ _) _) _
  · exact h
theorem stepNoSpace_quiet (h : Quiet p q) (st : Step) : Quiet p (stepNoSpace st q) := by
  have g := endStep_quiet h false
  unfold stepNoSpace
  dsimp only
  repeat' split
  all_goals first
    | with_reducible exact endJob_quiet g _
    | with_reducible exact g
    | with_reducible exact quiet_mk g _ _ _ _ _ _ rfl rfl
theorem raiseRunnerFirst_quiet (h : Quiet p q) (st : Step) (i o : Nat) : Quiet p (raiseRunnerFirst st i o q) :=
  raise_quiet (modStep_quiet h _) _ _ _ _
theorem runnerTakes_quiet (h : Quiet p q) (st : Step) : Quiet p (runnerTakes st q) := by
  have g := takeForRunner_quiet h st.zone
  unfold runnerTakes
  split
  all_goals rename_i e; rw [e] at g
  · exact raiseRunnerFirst_quiet g _ _ _
  · exact stepNoSpace_quiet g _
theorem runnerReadDone_quiet (h : Quiet p q) (bs : List Byte) : Quiet p (runnerReadDone bs q) := by
  unfold runnerReadDone
  dsimp only
  split
  · split
    · exact quiet_ite (raiseRunnerFirst_quiet (modStep_quiet h _) _ _ _) (runnerTakes_quiet (giveUp_quiet (modStep_quiet h _) _) _)
    · exact runnerTakes_quiet (modStep_quiet h _) _
  · exact h
theorem raiseRunnerNext_quiet (h : Quiet p q) : Quiet p (raiseRunnerNext q) := by
  unfold raiseRunnerNext
  split
  · exact quiet_ite (raise_quiet (modStep_quiet h _) _ _ _ _) (raise_quiet (modStep_quiet h _) _ _ _ _)
  · exact h
theorem raiseDiscard_quiet (h : Quiet p q) : Quiet p (raiseDiscard q) := by
  unfold raiseDiscard
  split
  · exact raise_quiet (modStep_quiet h _) _ _ _ _
  · exact h
theorem runnerDataDone_quiet (h : Quiet p q) (n : Nat) : Quiet p (runnerDataDone n q) := raiseRunnerNext_quiet (modStep_quiet h _)
theorem sealIfSuspect_quiet (h : Quiet p q) (i : Nat) : Quiet p (sealIfSuspect i q) := quiet_ite (sealSector_quiet h _) h
theorem runnerCloseDone_quiet (h : Quiet p q) : Quiet p (runnerCloseDone q) := by
  unfold runnerCloseDone
  split
  · exact sealIfSuspect_quiet (raiseDiscard_quiet (advanceNextWrite_quiet h _ _ _)) _
  · exact h
theorem runnerDiscardDone_quiet (h : Quiet p q) (ok : Bool) : Quiet p (runnerDiscardDone ok q) := by
  unfold runnerDiscardDone
  split
  · exact quiet_ite (finishStep_quiet h _) (quiet_ite (raiseDiscard_quiet (noteStepJob_quiet (modStep_quiet h _) _))
      (finishStep_quiet (makeSuspect_quiet (noteStepJob_quiet h _) _ _) _))
  · exact h

/-! ### Batches and grants -/

theorem failTaker_quiet (h : Quiet p q) (c : CtxId) : Quiet p (failTaker c q) := endCtx_quiet (removeTaker_quiet h c) _ _
theorem answerTaker_quiet (z : Nat) : QuietReact (answerTaker z) := by
  intro p q r h hr
  have g (c : CtxId) := removeTaker_quiet h c
  unfold answerTaker at hr
  dsimp only at hr
  repeat' split at hr
  all_goals first
    | cases hr; done
    | (injection hr with hr; subst hr)
  all_goals first
    | with_reducible exact raiseFirst_quiet (takeTail_quiet (g _) _ _) _ _
    | with_reducible exact raiseFirst_quiet (takeFree_quiet (g _) _ _) _ _
    | with_reducible exact failTaker_quiet h _
    | with_reducible exact foldl_quiet _ (fun _ _ hr => failTaker_quiet hr _) _ h
theorem answerTakers_quiet (h : Quiet p q) (z : Nat) : Quiet p (answerTakers z q) := by
  unfold answerTakers
  split
  · rename_i r hr
    have g := answerTaker_quiet z p q r h hr
    cases e : answerTaker z r with
    | none => exact g
    | some t => exact answerTaker_quiet z p r t g e
  · exact h
theorem takersReact_quiet : QuietReact takersReact := by
  intro p q r h hr
  obtain ⟨l, z, _, _, hz, _⟩ := List.findSome?_eq_some_iff.mp hr
  exact answerTaker_quiet z p q r h hz
theorem grantErase_quiet (h : Quiet p q) (b : Bool) (z : Nat) (ss : List Nat) : Quiet p (grantErase b z ss q) := by
  unfold grantErase
  exact quiet_mk (foldl_quiet _ (fun _ _ hr => withdraw_quiet (modSector_quiet hr _ _) _) _ h) _ _ _ _ _ _ rfl rfl
theorem followTakers_quiet (h : Quiet p q) : Quiet p (followTakers q) := by
  unfold followTakers
  split
  · exact quiet_mk h _ _ _ _ _ _ rfl rfl
  · exact h
theorem dropClaim_quiet (h : Quiet p q) (a : Nat) : Quiet p (dropClaim a q) := quiet_mk h _ _ _ _ _ _ rfl rfl
theorem startBufferOf_quiet (h : Quiet p q) (u : Purpose) : Quiet p (startBufferOf u q) := by
  unfold startBufferOf
  split
  all_goals first
    | with_reducible exact modCtx_quiet h _ _
    | with_reducible exact h
theorem grantOp_quiet (h : Quiet p q) (e : EngineState) (c : Claim) : Quiet p (grantOp e c q) :=
  quiet_mk (startBufferOf_quiet (dropClaim_quiet h c.age) c.purpose) _ _ _ _ _ _ rfl rfl
theorem grantIdle_quiet (h : Quiet p q) (c : Claim) : Quiet p (grantIdle c q) := by
  unfold grantIdle
  repeat' split
  all_goals first
    | with_reducible exact grantErase_quiet (quiet_mk (dropClaim_quiet h _) _ _ _ _ _ _ rfl rfl) _ _ _
    | with_reducible exact dropClaim_quiet h _
    | with_reducible exact grantErase_quiet (dropClaim_quiet h _) _ _ _
    | with_reducible exact grantOp_quiet h _ _
theorem grantNow_quiet (h : Quiet p q) : Quiet p (grantNow q) := by
  unfold grantNow
  repeat' split
  all_goals first
    | with_reducible exact h
    | with_reducible exact grantIdle_quiet h _
    | with_reducible exact noteServed_quiet (grantOp_quiet h _ _) _ _
    | with_reducible exact quiet_mk h _ _ _ _ _ _ rfl rfl
theorem clearLingering_quiet (h : Quiet p q) (i : Nat) : Quiet p (clearLingering i q) :=
  quiet_dir h _ _ _ _ _ _ rfl
    (ascending_map (fun e => { e with lingering := e.lingering.filter (fun s => s ≠ i) }) (fun _ => rfl))
theorem applyOutcome_quiet (h : Quiet p q) (t : SectorState) (b : BatchSector) : Quiet p (applyOutcome t b q) := by
  have g (f : Sector → Sector) := modSector_quiet (quiet_ite (c := (b.erased && b.headerOk) = true)
    (clearLingering_quiet h b.sector) h) b.sector f
  unfold applyOutcome
  exact quiet_ite (quiet_ite (answerTakers_quiet (liftHold_quiet (g _) _) _) (g _)) (cutReservations_quiet (setCond_quiet
    (modSector_quiet (quiet_ite (clearLingering_quiet h _) h) _ _) _) _)
theorem noteFormatBad_quiet (h : Quiet p q) (b : Batch) : Quiet p (noteFormatBad b q) := quiet_ite (noteServed_quiet h _ _) h
theorem movePosition_quiet (h : Quiet p q) (b : Batch) : Quiet p (movePosition b q) := quiet_mk h _ _ _ _ _ _ rfl rfl
theorem completeBatch_quiet (h : Quiet p q) : Quiet p (completeBatch q) := by
  unfold completeBatch
  split
  · rename_i b _
    have g1 (t : SectorState) (l : List BatchSector) : Quiet p (l.foldl (fun q s => applyOutcome t s q) q) :=
      foldl_quiet _ (fun _ _ hr => applyOutcome_quiet hr _ _) _ h
    dsimp only
    split
    · apply movePosition_quiet
      apply noteFormatBad_quiet
      exact quiet_mk (g1 _ _) _ _ _ _ _ _ rfl rfl
    · apply openBatch_quiet
      apply reportFree_quiet
      exact quiet_mk (g1 _ _) _ _ _ _ _ _ rfl rfl
  · exact h
theorem enterHeaders_quiet (h : Quiet p q) (good : Nat → Bool) (clock : Nat) : Quiet p (enterHeaders good clock q) :=
  quiet_mk h _ _ _ _ _ _ rfl rfl
theorem headerDone_quiet (h : Quiet p q) (i : Nat) (ok : Bool) : Quiet p (headerDone i ok q) := by
  unfold headerDone
  dsimp only
  split
  · exact quiet_mk h _ _ _ _ _ _ rfl rfl
  · exact completeBatch_quiet (quiet_mk h _ _ _ _ _ _ rfl rfl)

/-! ### Scan and FORMAT -/

theorem installSpares_quiet (h : Quiet p q) (f : Nat → Part → Nat) : Quiet p (installSpares f q) :=
  foldl_quiet _ (fun _ _ hr => modZone_quiet hr _ _) _ h
theorem reportAll_quiet (h : Quiet p q) : Quiet p (reportAll q) := foldl_quiet _ (fun _ _ hr => reportFree_quiet hr _) _ h
theorem resolve_quiet (h : Quiet p q) (n : Nat) (plan : List (Nat × Nat)) : Quiet p (resolve n plan q) := by
  unfold resolve
  dsimp only
  apply openBatch_quiet
  apply reportAll_quiet
  apply foldl_quiet _ (fun _ _ hr => raiseObsolete_quiet hr _ _)
  apply setCond_quiet
  apply installSpares_quiet
  exact quiet_dir h _ _ _ _ _ _ rfl (fun _ => resolved_ascending _ _)
theorem blankFromScan_quiet (h : Quiet p q) : Quiet p (blankFromScan q) := quiet_mk h _ _ _ _ _ _ rfl rfl
theorem decideStore_quiet (h : Quiet p q) : Quiet p (decideStore q) := by
  unfold decideStore
  split
  · exact blankFromScan_quiet h
  · exact quiet_ite (resolve_quiet h _ _) (blankFromScan_quiet h)
theorem scanDone_quiet (h : Quiet p q) (s : Nat) (bs : List Byte) : Quiet p (scanDone s bs q) := by
  have g (x : Scu) : Quiet p { q with scu := x } := quiet_mk h _ _ _ _ _ _ rfl rfl
  exact quiet_ite (raise_quiet (g _) _ _ _ _) (decideStore_quiet (g _))
theorem withdrawRetiring_quiet (h : Quiet p q) : Quiet p (withdrawRetiring q) :=
  foldl_quiet _ (fun _ _ hr => withdraw_quiet hr _) _ h
theorem formatStart_quiet (h : Quiet p q) (e : Entry) (plan : List (Nat × Nat)) (n : Byte) : Quiet p (formatStart e plan n q) := by
  unfold formatStart
  dsimp only
  apply foldl_quiet _ (fun _ _ hr => slotGone_quiet hr _)
  apply installSpares_quiet
  exact quiet_dir (withdraw_quiet (withdrawRetiring_quiet h) .reclaim) _ _ _ _ _ _ rfl (fun _ => List.Pairwise.nil)
theorem formatStop_quiet (h : Quiet p q) : Quiet p (formatStop q) := quiet_mk (withdraw_quiet h .scan) _ _ _ _ _ _ rfl rfl
theorem formatReply_quiet (h : Quiet p q) (f : FormatRun) (st : Status) : Quiet p (formatReply f st q) :=
  completeEntry_quiet h _ _ _ _
theorem formatMount_quiet (h : Quiet p q) (f : FormatRun) : Quiet p (formatMount f q) := by
  have g (x : Scu) : Quiet p { q with scu := x } := quiet_mk h _ _ _ _ _ _ rfl rfl
  exact openBatch_quiet (reportAll_quiet (formatReply_quiet (installSpares_quiet (setCond_quiet (g _) _) _) _ _))
theorem formatReact_quiet : QuietReact formatReact := by
  intro p q r h hr
  unfold formatReact at hr
  repeat' split at hr
  all_goals first
    | cases hr; done
    | (injection hr with hr; subst hr)
  all_goals first
    | with_reducible exact formatStop_quiet h
    | with_reducible exact formatMount_quiet h _
    | with_reducible exact formatReply_quiet (formatStop_quiet h) _ _
    | with_reducible exact raise_quiet h _ _ _ _
    | with_reducible exact quiet_ite (formatStop_quiet h) (formatMount_quiet h _)
    | exact formatReply_quiet (formatStop_quiet h) _ _

/-! ### Activation -/

theorem openWrite_quiet (h : Quiet p q) (e : Entry) (s z k n : Nat) : Quiet p (openWrite e s z k n q) := by
  unfold openWrite
  split
  · exact h
  · have g (c : CtxId) (f : WriteCtx → WriteCtx) (n : Nat) :
        Quiet p { (modCtx c f q) with sdr := { (modCtx c f q).sdr with sequence := n } } :=
      quiet_mk (modCtx_quiet h c f) _ _ _ _ _ _ rfl rfl
    exact chooseStep_quiet (completeEntry_quiet (modEntry_quiet (g _ _ _) _ _) _ _ _ _) _
theorem answerList_quiet (h : Quiet p q) (e : Entry) (a m : Nat) : Quiet p (answerList e a m q) := completeEntry_quiet h _ _ _ _
theorem addServing_quiet (h : Quiet p q) (r : Serving) : Quiet p (addServing r q) := quiet_mk h _ _ _ _ _ _ rfl rfl
theorem handOver_quiet (h : Quiet p q) (e : Entry) : Quiet p (handOver e q) := by
  unfold handOver
  split
  · exact openWrite_quiet h _ _ _ _ _
  · exact raiseRead_quiet (addServing_quiet h _) _
  · exact answerList_quiet h _ _ _
  · exact raiseDeleteMark_quiet (modEntry_quiet (addServing_quiet h _) _ _) _
  · exact raiseVerify_quiet (addServing_quiet h _) _
  · exact quiet_mk h _ _ _ _ _ _ rfl rfl
  · exact formatStart_quiet h _ _ _
theorem activate_ages (a : Nat) (l : List Entry) :
    (l.map (fun e => if e.age = a then { e with active := true } else e)).map (·.age) = l.map (·.age) := by
  rw [List.map_map]
  apply List.map_congr_left
  intro e _
  simp only [Function.comp]
  split <;> rfl
theorem activate_absent (a : Nat) (l : List Entry) (h : a ∉ l.map (·.age)) :
    l.map (fun e => if e.age = a then { e with active := true } else e) = l := by
  induction l with
  | nil => rfl
  | cons x xs ih =>
    simp only [List.map_cons, List.mem_cons, not_or] at h ⊢
    rw [if_neg (fun e => h.1 e.symm), ih h.2]
theorem activate_count (a : Nat) (l : List Entry) (nd : (l.map (·.age)).Nodup) :
    ((l.map (fun e => if e.age = a then { e with active := true } else e)).filter (·.active)).length
      ≤ (l.filter (·.active)).length + 1 := by
  induction l with
  | nil => simp
  | cons x xs ih =>
    simp only [List.map_cons, List.nodup_cons] at nd
    by_cases hx : x.age = a
    · have hxs : a ∉ xs.map (·.age) := hx ▸ nd.1
      rw [List.map_cons, activate_absent a xs hxs, if_pos hx]
      cases hb : x.active <;> simp [hb]
    · have := ih nd.2
      rw [List.map_cons, if_neg hx]
      cases hb : x.active <;> simp [hb] <;> simpa using this

/-- R148, R150: making one entry ACTIVE, while fewer than 4 are. -/
theorem activateEntry_quiet (h : Quiet p q) (a : Nat) (hn : activeCount q < Config.activeMax) :
    Quiet p (modQueue a (fun d => { d with active := true }) q) := by
  refine h.trans ⟨rfl, rfl, ⟨List.prefix_refl _, List.Sublist.refl _⟩, id, fun nd => ⟨?_, rfl, ?_, ?_⟩⟩
  · have e : (modQueue a (fun d => { d with active := true }) q).ages = q.ages := activate_ages a q.rqs.queue
    rw [e]
  · simp [Part.places, queuedReplies, modQueue]
  · have := activate_count a q.rqs.queue nd
    have h4 : Config.activeMax = 4 := rfl
    unfold activeCount at hn ⊢
    simp only [modQueue]
    omega
theorem activate_quiet (h : Quiet p q) (e : Entry) (hn : activeCount q < Config.activeMax) : Quiet p (activate e q) := by
  have g := activateEntry_quiet h e.age hn
  unfold activate
  dsimp only
  split
  · exact completeEntry_quiet g _ _ _ _
  · exact handOver_quiet g _
theorem activationReact_quiet : QuietReact activationReact := by
  intro p q r h hr
  unfold activationReact at hr
  split at hr
  · rename_i hn
    obtain ⟨e, _, rfl⟩ := Option.map_eq_some_iff.mp hr
    exact activate_quiet h e hn
  · cases hr

/-! ### The close of an event -/

theorem commitReact_quiet : QuietReact commitReact := by
  intro p q r h hr
  obtain ⟨c, _, rfl⟩ := Option.map_eq_some_iff.mp hr
  exact tryCommit_quiet h c
theorem spareReact_quiet : QuietReact spareReact := by
  intro p q r h hr
  obtain ⟨z, _, rfl⟩ := Option.map_eq_some_iff.mp hr
  exact returnSpare_quiet h z
theorem firstReact_quiet (fs : List (Part → Option Part)) (hf : ∀ f ∈ fs, QuietReact f) : QuietReact (firstReact fs) := by
  induction fs with
  | nil => intro p q r _ hr; cases hr
  | cons f fs ih =>
    intro p q r h hr
    unfold firstReact at hr
    split at hr
    · rename_i e
      injection hr with hr
      exact hf f List.mem_cons_self p q r h (hr ▸ e)
    · exact ih (fun g hg => hf g (List.mem_cons_of_mem _ hg)) p q r h hr
theorem react_quiet : QuietReact react := by
  refine firstReact_quiet _ ?_
  simp only [List.forall_mem_cons, List.not_mem_nil, false_implies, implies_true, and_true]
  exact ⟨takersReact_quiet, commitReact_quiet, spareReact_quiet, jobReact_quiet, restReact_quiet, activationReact_quiet,
    formatReact_quiet, runnerReact_quiet⟩
theorem settle_quiet (n : Nat) (h : Quiet p q) : Quiet p (settle n q) := by
  induction n generalizing q with
  | zero => exact h
  | succ n ih =>
    unfold settle
    split
    · rename_i e
      exact ih (react_quiet p _ _ h e)
    · exact h

/-- What an event makes possible, however much it is, is quiet. -/
theorem closeEvent_quiet (h : Quiet p q) : Quiet p (closeEvent q) := grantNow_quiet (followTakers_quiet (settle_quiet _ h))

/-! ### The owners' reactions -/

theorem endOp_quiet (h : Quiet p q) : Quiet p (endOp q) := quiet_mk h _ _ _ _ _ _ rfl rfl
theorem suspectMarkDone_quiet (h : Quiet p q) (i n : Nat) (ok : Bool) : Quiet p (suspectMarkDone i n ok q) :=
  quiet_ite h (quiet_ite (raiseSuspectMark_quiet h _ _) h)
theorem ctxOpDone_quiet (h : Quiet p q) (c : CtxId) (u : Purpose) (i o : Nat) (r : Result) : Quiet p (ctxOpDone c u i o r q) := by
  unfold ctxOpDone
  split
  · exact endingDone_quiet h _ _ _ _ _ _ _
  · split
    · exact quiet_ite (firstDone_quiet h _ _ _) (programFailure_quiet h _ _ _)
    · exact quiet_ite (dataDone_quiet h _ _) (programFailure_quiet h _ _ _)
    · exact quiet_ite (closeDone_quiet h _) (closeFailure_quiet h _ _)
theorem writeEnded_quiet (h : Quiet p q) (u : Purpose) (i o : Nat) (r : Result) : Quiet p (writeEnded u i o r q) := by
  unfold writeEnded
  split
  all_goals first
    | with_reducible exact h
    | with_reducible exact ctxOpDone_quiet h _ _ _ _ _
    | with_reducible exact quiet_ite (commitSwitch_quiet h _) (commitFailed_quiet h _)
    | with_reducible exact deleteMarkDone_quiet h _ _
    | with_reducible exact obsoleteDone_quiet h _ _ _
    | with_reducible exact suspectMarkDone_quiet h _ _ _
    | with_reducible exact quiet_ite (raiseRunnerNext_quiet h) (stepFailed_quiet h)
    | with_reducible exact quiet_ite (runnerDataDone_quiet h _) (stepFailed_quiet h)
    | with_reducible exact quiet_ite (runnerCloseDone_quiet h) (stepFailed_quiet h)
    | with_reducible exact runnerDiscardDone_quiet h _
theorem readEnded_quiet (h : Quiet p q) (u : Purpose) (bs : List Byte) : Quiet p (readEnded u bs q) := by
  unfold readEnded
  split
  all_goals first
    | with_reducible exact h
    | with_reducible exact commitReadBack_quiet h _ _
    | with_reducible exact readDone_quiet h _ _
    | with_reducible exact verifyDone_quiet h _ _
    | with_reducible exact deleteReadBackDone_quiet h _ _
    | with_reducible exact runnerReadDone_quiet h _
    | with_reducible exact scanDone_quiet h _ _

end Sys2Proof.Machine
end

