-- ==== Sys2Proof/Laws/LinkInv.lean ====
section
/-! SUPPORT. What the link's own operations do to the invariant of the link, the queue and the directory (Part.LinkInv). -/

namespace Sys2Proof.Machine

variable {p q : Part}

/-- What happens inside an event keeps the invariant. -/
theorem Quiet.linkInv (h : Quiet p q) (i : p.LinkInv) : q.LinkInv := by
  obtain ⟨hs, hd, _, hdir, hq⟩ := h
  obtain ⟨ha, hn, hp, hc⟩ := hq i.agesNodup
  have hconds : q.link.conds.map (fun r => (r.enable, r.level)) = p.link.conds.map (fun r => (r.enable, r.level)) :=
    congrArg Settings.enables hs
  have hfloor : q.link.floor = p.link.floor := congrArg Settings.floor hs
  have hreserve : q.rqs.reserve = p.rqs.reserve := congrArg Settings.reserve hs
  have hpre : q.pee.preempt = p.pee.preempt := congrArg Settings.preempt hs
  refine ⟨ha.nodup i.agesNodup, ?_, hp ▸ i.places, ?_, hd ▸ i.direct, ?_, ?_, hfloor ▸ i.floor, hreserve ▸ i.reserve, hpre ▸ i.preempt,
    hdir i.directory⟩
  · exact fun a h => hn ▸ i.agesBelow a (ha.subset h)
  · exact hc.trans (max_le (le_refl _) i.active)
  · have := congrArg List.length hconds
    rw [List.length_map, List.length_map] at this
    rw [this]
    exact i.conds
  · intro r hr
    have hm : (r.enable, r.level) ∈ q.link.conds.map (fun r => (r.enable, r.level)) := List.mem_map_of_mem hr
    rw [hconds] at hm
    obtain ⟨r', hr', e⟩ := List.mem_map.mp hm
    have := i.levels r' hr'
    injection e with e1 e2
    omega

/-- R166: a direct reply takes a place only while one is free. -/
theorem placeDirect_linkInv (i : p.LinkInv) (k t : Byte) (st : Status) (pl : List Byte) : (placeDirect k t st pl p).LinkInv := by
  unfold placeDirect
  split
  · rename_i h
    refine ⟨i.agesNodup, i.agesBelow, ?_, i.active, ?_, i.conds, i.levels, i.floor, i.reserve, i.preempt, i.directory⟩
    · have := i.places
      simpa [Part.places, queuedReplies, pushReply, List.filter_append] using this
    · have e : Config.directPlaces = 6 := rfl
      simp only [directInUse, pushReply, List.filter_append, List.length_append] at h ⊢
      simp at h ⊢
      omega
  · exact Quiet.linkInv (setCond_quiet (Quiet.refl p) _) i

/-- The two forms of a direct reply (R166). -/
theorem placeDirect_free (h : directInUse p < 6) (k t : Byte) (st : Status) (pl : List Byte) :
    placeDirect k t st pl p
      = pushReply { kind := k, tag := t, status := st, notes := 0, payload := pl, place := .direct } p := if_pos h

theorem placeDirect_full (h : 6 ≤ directInUse p) (k t : Byte) (st : Status) (pl : List Byte) :
    placeDirect k t st pl p = overrunSet p := if_neg (by have e : Config.directPlaces = 6 := rfl; omega)

theorem placeDirect_answers (k t : Byte) (st : Status) (pl : List Byte) (p : Part) :
    DirectReply k t st pl p (placeDirect k t st pl p) :=
  ⟨fun h => placeDirect_free h k t st pl, fun h => placeDirect_full h k t st pl⟩

/-- R159: the end of a transaction changes nothing that the invariant speaks of. -/
theorem endTransaction_linkInv (i : p.LinkInv) (bs : List Byte) : (endTransaction bs p).LinkInv :=
  ⟨i.agesNodup, i.agesBelow, i.places, i.active, i.direct, i.conds, i.levels, i.floor, i.reserve, i.preempt, i.directory⟩

/-- R159: a push that is taken: the part once the push has ended, and then what it brought. -/
theorem push_listens (h : p.listens) (n : Nat) (act : Part → Part) : push n act p = act (p.pushed n) := by
  obtain ⟨h1, h2⟩ := h
  unfold push Part.pushed Part.shownStatus
  rw [if_pos h1]
  unfold currentTransaction beginTransaction
  cases ht : p.link.transaction <;> simp_all [endTransaction]

/-- R159: a push that is not taken ends its transaction and does no more. -/
theorem push_lost (h : ¬ p.listens) (n : Nat) (act : Part → Part) : push n act p = endTransaction [] p := by
  unfold push currentTransaction
  split
  · rename_i h1
    cases ht : p.link.transaction
    · exact absurd ⟨h1, by rw [ht]; exact fun h => nomatch h⟩ h
    · exact absurd ⟨h1, by rw [ht]; exact fun h => nomatch h⟩ h
    · rfl
  · rfl

theorem push_linkInv (i : p.LinkInv) (n : Nat) (act : Part → Part) (hact : ∀ r, r.LinkInv → (act r).LinkInv) :
    (push n act p).LinkInv := by
  by_cases h : p.listens
  · rw [push_listens h]
    exact hact _ (endTransaction_linkInv i _)
  · rw [push_lost h]
    exact endTransaction_linkInv i []

/-- The close of an event keeps the invariant. -/
theorem closeEvent_linkInv (i : p.LinkInv) : (closeEvent p).LinkInv := (closeEvent_quiet (Quiet.refl p)).linkInv i

/-- R149: an admission keeps the invariant. -/
theorem admit_linkInv (i : p.LinkInv) (r : Request) (t : Byte) (l : Nat) (h : admits l p = true) : (admitEntry r t l p).LinkInv := by
  refine ⟨?_, ?_, ?_, ?_, i.direct, i.conds, i.levels, i.floor, i.reserve, i.preempt, i.directory⟩
  · have := i.agesNodup
    have hb := i.agesBelow
    simp only [Part.ages, admitEntry, List.map_append, List.map_cons, List.map_nil] at this hb ⊢
    rw [List.nodup_append]
    refine ⟨this, by simp, ?_⟩
    intro a ha b hb' e
    have := hb a ha
    simp only [List.mem_singleton] at hb'
    omega
  · intro a ha
    have hb := i.agesBelow
    simp only [Part.ages, admitEntry, List.map_append, List.map_cons, List.map_nil, List.mem_append, List.mem_singleton] at ha hb ⊢
    rcases ha with ha | ha
    · have := hb a ha; omega
    · omega
  · have e : Config.queueMax = 16 := rfl
    have e2 : (admitEntry r t l p).places = p.places + 1 := by
      simp [Part.places, admitEntry, queuedReplies]; omega
    rw [e2]
    unfold admits at h
    simp only [Bool.and_eq_true, decide_eq_true_eq] at h
    unfold Part.places
    split at h <;> simp only [decide_eq_true_eq] at h <;> omega
  · have := i.active
    simpa [activeCount, admitEntry, List.filter_append] using this

end Sys2Proof.Machine
end

