-- ==== Sys2Proof/Laws/Memory.lean ====
section
/-! SUPPORT. The array: what each operation of Machine/Ops.lean and Machine/Operate.lean does to the canonical form and to the
read of one byte. -/

namespace Sys2Proof.Machine

/-! ### The canonical form -/

theorem wfFrom_weaken {lo lo' : Nat} {m : Memory} (h : Memory.wfFrom lo' m = true) (hl : lo ≤ lo') : Memory.wfFrom lo m = true := by
  cases m with
  | nil => rfl
  | cons c m =>
    obtain ⟨a, v⟩ := c
    simp only [Memory.wfFrom, Bool.and_eq_true, decide_eq_true_eq] at h ⊢
    exact ⟨⟨⟨by omega, h.1.1.2⟩, h.1.2⟩, h.2⟩

theorem insert_wfFrom {lo a : Nat} {v : Byte} (m : Memory) (h : Memory.wfFrom lo m = true) (hl : lo ≤ a) (ha : a < Config.arraySize) :
    Memory.wfFrom lo (m.insert a v) = true := by
  induction m generalizing lo with
  | nil =>
    unfold Memory.insert
    split
    · rfl
    · simp_all [Memory.wfFrom]
  | cons c m ih =>
    obtain ⟨b, w⟩ := c
    simp only [Memory.wfFrom, Bool.and_eq_true, decide_eq_true_eq] at h
    unfold Memory.insert
    split
    · simp only [Memory.wfFrom, Bool.and_eq_true, decide_eq_true_eq]
      exact ⟨h.1, ih h.2 (by omega)⟩
    · have hr : Memory.wfFrom (a + 1) (if b = a then m else (b, w) :: m) = true := by
        split
        · rename_i e; exact e ▸ h.2
        · simp only [Memory.wfFrom, Bool.and_eq_true, decide_eq_true_eq]
          exact ⟨⟨⟨by omega, h.1.1.2⟩, h.1.2⟩, h.2⟩
      dsimp only
      split
      · exact wfFrom_weaken hr (by omega)
      · simp only [Memory.wfFrom, Bool.and_eq_true, decide_eq_true_eq]
        exact ⟨⟨⟨hl, ha⟩, by assumption⟩, hr⟩

/-- A write keeps the canonical form, whatever its address. -/
theorem write_wf {m : Memory} (h : m.wf = true) (a : Nat) (v : Byte) : (m.write a v).wf = true := by
  unfold Memory.write
  split
  · exact insert_wfFrom m h (Nat.zero_le _) (by assumption)
  · exact h

theorem filter_wfFrom (f : Host.Cell → Bool) (m : Memory) : ∀ lo, Memory.wfFrom lo m = true → Memory.wfFrom lo (m.filter f) = true := by
  induction m with
  | nil => exact fun _ h => h
  | cons c m ih =>
    intro lo h
    obtain ⟨a, v⟩ := c
    simp only [Memory.wfFrom, Bool.and_eq_true, decide_eq_true_eq] at h
    simp only [List.filter_cons]
    split
    · simp only [Memory.wfFrom, Bool.and_eq_true, decide_eq_true_eq]
      exact ⟨h.1, ih _ h.2⟩
    · exact wfFrom_weaken (ih _ h.2) (by omega)

theorem eraseSector_wf {m : Memory} (h : m.wf = true) (s : Nat) : (m.eraseSector s).wf = true := filter_wfFrom _ m 0 h

theorem writeResidue_wf (ss : List Nat) (r : List (Nat × Byte)) (m : Memory) (h : m.wf = true) : (Memory.writeResidue ss r m).wf = true := by
  induction r generalizing m with
  | nil => exact h
  | cons c r ih =>
    obtain ⟨a, v⟩ := c
    unfold Memory.writeResidue
    refine ih _ ?_
    split
    · exact write_wf h _ _
    · exact h

/-- R3: an erase keeps the canonical form, whatever it leaves behind. -/
theorem eraseSectors_wf {m : Memory} (h : m.wf = true) (ss : List Nat) (r : List (Nat × Byte)) : (m.eraseSectors ss r).wf = true := by
  refine writeResidue_wf ss r _ ?_
  induction ss generalizing m with
  | nil => exact h
  | cons s ss ih => exact ih (eraseSector_wf h s)

theorem programFrom_wf (bs : List Byte) (m : Memory) (h : m.wf = true) (a : Nat) (stuck : List Byte) : (m.programFrom a bs stuck).wf = true := by
  induction bs generalizing m a stuck with
  | nil => exact h
  | cons b bs ih => exact ih _ (write_wf h _ _) _ _

/-- R65: a program keeps the canonical form. -/
theorem programArray_wf {m : Memory} (h : m.wf = true) (s o : Nat) (bs stuck : List Byte) : (programArray m s o bs stuck).wf = true := by
  unfold programArray
  split
  · exact programFrom_wf _ _ h _ _
  · exact h

/-- R4: so does a cut. -/
theorem tornArray_wf {m : Memory} (h : m.wf = true) (p : Part) (stuck : List Byte) (r : List (Nat × Byte)) :
    (tornArray p stuck r m).wf = true := by
  have h1 : ∀ m1 : Memory, m1.wf = true →
      (if erasePhase p then m1.eraseSectors (batchSectors p) r
       else match headerSector p with
        | some b => programArray m1 b.sector (headerWrite b).1 (headerWrite b).2 stuck
        | none => m1).wf = true := by
    intro m1 g
    split
    · exact eraseSectors_wf g _ _
    · split
      · exact programArray_wf g _ _ _ _
      · exact g
  unfold tornArray
  apply h1
  split
  · split
    · exact programArray_wf h _ _ _ _
    all_goals exact h
  · exact h

/-! ### The read of one byte -/

theorem read_below {lo a : Nat} (m : Memory) (h : Memory.wfFrom lo m = true) (ha : a < lo) : m.read a = Config.blankByte := by
  induction m generalizing lo with
  | nil => rfl
  | cons c m ih =>
    obtain ⟨b, w⟩ := c
    simp only [Memory.wfFrom, Bool.and_eq_true, decide_eq_true_eq] at h
    have hb : b ≠ a := by omega
    simp only [Memory.read, if_neg hb]
    exact ih h.2 (by omega)

theorem insert_read {lo : Nat} (m : Memory) (h : Memory.wfFrom lo m = true) (a : Nat) (v : Byte) (b : Nat) :
    (m.insert a v).read b = if b = a then v else m.read b := by
  induction m generalizing lo with
  | nil =>
    unfold Memory.insert
    by_cases hv : v = Config.blankByte
    · simp [hv, Memory.read]
    · rw [if_neg hv]
      by_cases hb : b = a
      · rw [hb, if_pos rfl, Memory.read, if_pos rfl]
      · rw [if_neg hb]
        simp only [Memory.read, if_neg (Ne.symm hb)]
  | cons c m ih =>
    obtain ⟨x, w⟩ := c
    simp only [Memory.wfFrom, Bool.and_eq_true, decide_eq_true_eq] at h
    unfold Memory.insert
    by_cases hx : x < a
    · rw [if_pos hx]
      by_cases hb : x = b
      · have : b ≠ a := by omega
        simp [Memory.read, hb, this]
      · simp only [Memory.read, if_neg hb]
        exact ih h.2
    · rw [if_neg hx]
      dsimp only
      by_cases hb : b = a
      · rw [if_pos hb, hb]
        by_cases hv : v = Config.blankByte
        · rw [if_pos hv, hv]
          by_cases hxa : x = a
          · rw [if_pos hxa]; exact read_below m h.2 (by omega)
          · rw [if_neg hxa]
            simp only [Memory.read, if_neg hxa]
            exact read_below m h.2 (by omega)
        · rw [if_neg hv, Memory.read, if_pos rfl]
      · rw [if_neg hb]
        have hr : Memory.read (if x = a then m else (x, w) :: m) b = Memory.read ((x, w) :: m) b := by
          by_cases hxa : x = a
          · rw [if_pos hxa]
            have : x ≠ b := by omega
            simp only [Memory.read, if_neg this]
          · rw [if_neg hxa]
        by_cases hv : v = Config.blankByte
        · rw [if_pos hv, hr]
        · rw [if_neg hv]
          simp only [Memory.read, if_neg (Ne.symm hb)] at hr ⊢
          exact hr

/-- R1: a byte written inside the array reads as written, and no other byte changes. -/
theorem write_read {m : Memory} (h : m.wf = true) {a : Nat} (ha : a < Config.arraySize) (v : Byte) (b : Nat) :
    (m.write a v).read b = if b = a then v else m.read b := by
  rw [Memory.write, if_pos ha]
  exact insert_read m h a v b

/-- A write outside the array writes nothing. -/
theorem write_outside (m : Memory) {a : Nat} (ha : ¬ a < Config.arraySize) (v : Byte) : m.write a v = m := if_neg ha

/-- A write at another address keeps the byte. -/
theorem write_other {m : Memory} (h : m.wf = true) {a b : Nat} (hab : b ≠ a) (v : Byte) : (m.write a v).read b = m.read b := by
  by_cases ha : a < Config.arraySize
  · rw [write_read h ha, if_neg hab]
  · rw [write_outside m ha]

/-- R2, log 56: a byte given as 0xFF passes the pre-check whatever it held, and any other passes when no bit would have to rise. -/
theorem preCheckByte_iff (old v : Byte) : preCheckByte old v = true ↔ v = 0xFF ∨ old &&& v = v := by
  simp [preCheckByte]

/-- R2: a byte given as 0xFF keeps its value. -/
theorem programmedByte_ones (old k : Byte) : programmedByte old 0xFF k = old := by
  rw [programmedByte, show (0xFF : Byte) = BitVec.allOnes 8 from rfl, BitVec.allOnes_or, BitVec.and_allOnes]

/-- R2: the pre-check of an operation, byte by byte. -/
theorem preCheck_iff (old bs : List Byte) (h : old.length = bs.length) :
    preCheck old bs = true ↔ ∀ k < bs.length, bs.getD k 0 = 0xFF ∨ old.getD k 0 &&& bs.getD k 0 = bs.getD k 0 := by
  induction bs generalizing old with
  | nil => simp [preCheck]
  | cons v vs ih =>
    cases old with
    | nil => simp at h
    | cons w ws =>
      have e : preCheck (w :: ws) (v :: vs) = (preCheckByte w v && preCheck ws vs) := rfl
      rw [e, Bool.and_eq_true, preCheckByte_iff, ih ws (by simpa using h)]
      constructor
      · rintro ⟨hv, hs⟩ k hk
        cases k with
        | zero => exact hv
        | succ k => exact hs k (by simpa using hk)
      · intro hs
        exact ⟨hs 0 (by simp), fun k hk => hs (k + 1) (by simpa using hk)⟩

/-- R2: a program never sets a bit of a byte. -/
theorem programmedByte_le (old v k : Byte) : programmedByte old v k &&& old = programmedByte old v k := by
  unfold programmedByte
  rw [BitVec.and_comm (old &&& (v ||| k)) old, ← BitVec.and_assoc, BitVec.and_self]

/-- Bytes outside the run keep their value. -/
theorem programFrom_other (bs : List Byte) (m : Memory) (h : m.wf = true) (a : Nat) (stuck : List Byte) (b : Nat)
    (hb : b < a ∨ a + bs.length ≤ b) : (m.programFrom a bs stuck).read b = m.read b := by
  induction bs generalizing m a stuck with
  | nil => rfl
  | cons c cs ih =>
    simp only [List.length_cons] at hb
    unfold Memory.programFrom
    rw [ih _ (write_wf h _ _) _ _ (by omega), write_other h (by omega)]

/-- R2, R65: what a program leaves of a byte of its run. -/
theorem programFrom_read (bs : List Byte) (m : Memory) (h : m.wf = true) (a : Nat) (stuck : List Byte) (k : Nat) (hk : k < bs.length)
    (ha : a + bs.length ≤ Config.arraySize) :
    (m.programFrom a bs stuck).read (a + k) = programmedByte (m.read (a + k)) (bs.getD k 0) (stuck.getD k 0) := by
  induction bs generalizing m a stuck k with
  | nil => simp at hk
  | cons c cs ih =>
    simp only [List.length_cons] at hk ha
    unfold Memory.programFrom
    cases k with
    | zero =>
      rw [programFrom_other _ _ (write_wf h _ _) _ _ _ (by omega), Nat.add_zero, write_read h (by omega), if_pos rfl]
      cases stuck <;> rfl
    | succ k =>
      have e : a + (k + 1) = a + 1 + k := by omega
      rw [e, ih _ (write_wf h _ _) _ _ k (by omega) (by omega), write_other h (by omega)]
      cases stuck <;> rfl

/-- R65: a program changes no byte outside its run. -/
theorem programArray_other {m : Memory} (h : m.wf = true) (s o : Nat) (bs stuck : List Byte) (b : Nat)
    (hb : b < addr s o ∨ addr s o + bs.length ≤ b) : (programArray m s o bs stuck).read b = m.read b := by
  unfold programArray
  split
  · exact programFrom_other _ _ h _ _ _ hb
  · rfl

/-- R3: an erased sector reads 0xFF. -/
theorem eraseSector_read (m : Memory) (s b : Nat) :
    (m.eraseSector s).read b = if addr s 0 ≤ b ∧ b < addr (s + 1) 0 then Config.blankByte else m.read b := by
  induction m with
  | nil => simp [Memory.eraseSector, Memory.read]
  | cons c m ih =>
    obtain ⟨x, w⟩ := c
    simp only [Memory.eraseSector] at ih ⊢
    simp only [List.filter_cons]
    by_cases hx : (decide (x < addr s 0) || decide (addr (s + 1) 0 ≤ x)) = true
    · rw [if_pos hx]
      simp only [Bool.or_eq_true, decide_eq_true_eq] at hx
      simp only [Memory.read]
      rw [ih]
      by_cases hb : x = b
      · have : ¬ (addr s 0 ≤ b ∧ b < addr (s + 1) 0) := by omega
        simp [hb, this]
      · simp [hb]
    · rw [if_neg hx, ih]
      simp only [Bool.or_eq_true, decide_eq_true_eq] at hx
      simp only [Memory.read]
      by_cases hb : x = b
      · have : addr s 0 ≤ b ∧ b < addr (s + 1) 0 := by omega
        simp [this]
      · simp [hb]

/-- An address lies in its sector. -/
theorem addr_sector (a s : Nat) : (addr s 0 ≤ a ∧ a < addr (s + 1) 0) ↔ a / Config.sectorSize = s := by
  unfold addr Config.sectorSize
  omega

theorem writeResidue_other (ss : List Nat) (r : List (Nat × Byte)) (m : Memory) (h : m.wf = true) (b : Nat)
    (hb : ss.contains (b / Config.sectorSize) = false) : (Memory.writeResidue ss r m).read b = m.read b := by
  induction r generalizing m with
  | nil => rfl
  | cons c r ih =>
    obtain ⟨a, v⟩ := c
    unfold Memory.writeResidue
    split
    · rename_i hc
      have hab : b ≠ a := by
        intro e
        rw [e, hc] at hb
        cases hb
      rw [ih _ (write_wf h _ _), write_other h hab]
    · exact ih _ h

/-- R3: an erase changes no byte outside its sectors. -/
theorem eraseSectors_other {m : Memory} (h : m.wf = true) (ss : List Nat) (r : List (Nat × Byte)) (b : Nat)
    (hb : ss.contains (b / Config.sectorSize) = false) : (m.eraseSectors ss r).read b = m.read b := by
  have hw : (ss.foldl Memory.eraseSector m).wf = true := eraseSectors_wf (r := []) h ss
  unfold Memory.eraseSectors
  rw [writeResidue_other ss r _ hw b hb]
  clear hw
  induction ss generalizing m with
  | nil => rfl
  | cons s ss ih =>
    simp only [List.contains_cons, Bool.or_eq_false_iff, beq_eq_false_iff_ne] at hb
    rw [List.foldl_cons, ih (eraseSector_wf h s) hb.2, eraseSector_read, if_neg]
    rw [addr_sector]
    exact hb.1

/-! ### The read of a run -/

theorem readFrom_eq (n : Nat) (m : Memory) (a : Nat) (h : Memory.wfFrom a m = true) :
    Memory.readFrom m a n = (List.range n).map (fun k => m.read (a + k)) := by
  induction n generalizing m a with
  | zero => cases m <;> rfl
  | succ n ih =>
    rw [List.range_succ_eq_map, List.map_cons, List.map_map]
    cases m with
    | nil =>
      rw [Memory.readFrom, ih [] (a + 1) rfl]
      simp only [Memory.read]
      congr 1
    | cons c m =>
      obtain ⟨b, w⟩ := c
      simp only [Memory.wfFrom, Bool.and_eq_true, decide_eq_true_eq] at h
      rw [Memory.readFrom]
      by_cases hb : b = a
      · rw [if_pos hb, ih m (a + 1) (hb ▸ h.2)]
        refine congrArg₂ List.cons (by simp [Memory.read, hb]) ?_
        apply List.map_congr_left
        intro k _
        have : b ≠ a + (k + 1) := by omega
        simp only [Function.comp, Memory.read, if_neg this, Nat.succ_eq_add_one]
        congr 1
        omega
      · rw [if_neg hb, ih ((b, w) :: m) (a + 1)]
        · refine congrArg₂ List.cons ?_ ?_
          · simp only [Memory.read, Nat.add_zero, if_neg hb]
            exact (read_below m h.2 (by omega)).symm
          · apply List.map_congr_left
            intro k _
            simp only [Function.comp, Nat.succ_eq_add_one]
            congr 1
            omega
        · simp only [Memory.wfFrom, Bool.and_eq_true, decide_eq_true_eq]
          exact ⟨⟨⟨by omega, h.1.1.2⟩, h.1.2⟩, h.2⟩

theorem drop_below (a : Nat) (m : Memory) : ∀ lo, Memory.wfFrom lo m = true →
    Memory.wfFrom a (m.dropWhile (fun c => c.1 < a)) = true ∧ ∀ k, Memory.read (m.dropWhile (fun c => c.1 < a)) (a + k) = m.read (a + k) := by
  induction m with
  | nil => exact fun _ _ => ⟨rfl, fun _ => rfl⟩
  | cons c m ih =>
    intro lo h
    obtain ⟨b, w⟩ := c
    simp only [Memory.wfFrom, Bool.and_eq_true, decide_eq_true_eq] at h
    by_cases hb : b < a
    · rw [List.dropWhile_cons_of_pos (by simpa using hb)]
      refine ⟨(ih _ h.2).1, fun k => ?_⟩
      have : b ≠ a + k := by omega
      rw [(ih _ h.2).2 k, Memory.read, if_neg this]
    · rw [List.dropWhile_cons_of_neg (by simpa using hb)]
      refine ⟨?_, fun _ => rfl⟩
      simp only [Memory.wfFrom, Bool.and_eq_true, decide_eq_true_eq]
      exact ⟨⟨⟨by omega, h.1.1.2⟩, h.1.2⟩, h.2⟩

/-- R64: the bytes read from an address are the bytes there, one after another. -/
theorem readBytes_eq {m : Memory} (h : m.wf = true) (a n : Nat) : m.readBytes a n = (List.range n).map (fun k => m.read (a + k)) := by
  unfold Memory.readBytes
  rw [readFrom_eq n _ a (drop_below a m 0 h).1]
  exact List.map_congr_left (fun k _ => (drop_below a m 0 h).2 k)

theorem readBytes_length {m : Memory} (h : m.wf = true) (a n : Nat) : (m.readBytes a n).length = n := by
  rw [readBytes_eq h]; simp

/-- R2: the pre-check of a program over the bytes the array holds. -/
theorem preCheck_readBytes_iff {m : Memory} (h : m.wf = true) (s o : Nat) (bs : List Byte) :
    preCheck (m.readBytes (addr s o) bs.length) bs = true ↔ PreCheckPasses m s o bs := by
  rw [preCheck_iff _ _ (readBytes_length h _ _)]
  refine forall₂_congr fun k hk => ?_
  rw [readBytes_eq h]
  simp [List.getD, hk, addr, Config.sectorSize]

/-- R2, R65: what a program whose pre-check passes leaves of a byte of its run. -/
theorem programArray_read {m : Memory} (h : m.wf = true) (s o : Nat) (bs stuck : List Byte) (hp : PreCheckPasses m s o bs)
    (ha : addr s o + bs.length ≤ Config.arraySize) (k : Nat) (hk : k < bs.length) :
    (programArray m s o bs stuck).read (addr s o + k) = programmedByte (m.read (addr s o + k)) (bs.getD k 0) (stuck.getD k 0) := by
  rw [programArray, if_pos ((preCheck_readBytes_iff h s o bs).2 hp)]
  exact programFrom_read bs m h _ _ k hk ha

/-- R2: a program whose pre-check fails leaves the array as it was. -/
theorem programArray_stopped {m : Memory} (h : m.wf = true) (s o : Nat) (bs stuck : List Byte) (hp : ¬ PreCheckPasses m s o bs) :
    programArray m s o bs stuck = m := if_neg (fun e => hp ((preCheck_readBytes_iff h s o bs).1 e))

end Sys2Proof.Machine
end

