-- ==== Sys2Proof/Laws/PerInstr.lean ====
section
/-! SUPPORT. The family Frames: a request's fields are the fields of its frame's body, at its kind's body length (R162). -/

namespace Sys2Proof.Laws.Frames

open Sys2Proof.Machine

/-- R162: a well-formed request is read back from its body, whose length its kind allows. A command that is no request has no
body. -/
def Statement (i : Instr) : Prop :=
  i.wellFormed = true → ∀ body, requestBody i = some body →
    decodeBody body = some i ∧ bodyLengthAllowed (byteAt body 0).toNat body.length = some true

theorem transactionStart : Statement .transactionStart := by
  intro _ _ h
  cases h

theorem ignoredTransaction (later : Nat) : Statement (.ignoredTransaction later) := by
  intro _ _ h
  cases h

theorem badFrame (frame : List Byte) : Statement (.badFrame frame) := by
  intro _ _ h
  cases h

theorem fetch (clocked : Nat) : Statement (.fetch clocked) := by
  intro _ _ h
  cases h

theorem ident (tag level : Byte) : Statement (.ident tag level) := by
  intro _ body h
  injection h with h
  subst h
  exact ⟨rfl, rfl⟩

theorem status (tag level : Byte) : Statement (.status tag level) := by
  intro _ body h
  injection h with h
  subst h
  exact ⟨rfl, rfl⟩

theorem notice (tag level : Byte) (settings : List (Byte × Byte)) (floor : Byte) : Statement (.notice tag level settings floor) := by
  intro w body h
  injection h with h
  subst h
  have hs : settings.length = 8 := by simpa [Instr.wellFormed] using w
  have hl : (settings.flatMap (fun s => [s.1, s.2])).length = 16 := by rw [pairs_length, hs]
  have ht : (settings.flatMap (fun s => [s.1, s.2]) ++ [floor]).take 16 = settings.flatMap (fun s => [s.1, s.2]) :=
    List.take_left' hl
  have hb : byteAt (settings.flatMap (fun s => [s.1, s.2]) ++ [floor]) 16 = floor := by
    rw [byteAt, List.getD_append_right _ _ _ _ (by omega), hl]
    rfl
  have hp : (settings.flatMap (fun s => [s.1, s.2]) ++ [floor]).length = 17 := by rw [List.length_append, hl]; rfl
  constructor
  · refine (if_pos hp).trans ?_
    show some (Instr.notice tag level (pairs ((settings.flatMap (fun s => [s.1, s.2]) ++ [floor]).take 16))
      (byteAt (settings.flatMap (fun s => [s.1, s.2]) ++ [floor]) 16)) = _
    rw [ht, pairs_flat, hb]
  · show some (decide ((settings.flatMap (fun s => [s.1, s.2]) ++ [floor]).length + 3 = 20)) = some true
    rw [hp]
    rfl

theorem clear (tag level conditions : Byte) : Statement (.clear tag level conditions) := by
  intro _ body h
  injection h with h
  subst h
  exact ⟨rfl, rfl⟩

theorem tune (tag level reserve preempt : Byte) : Statement (.tune tag level reserve preempt) := by
  intro _ body h
  injection h with h
  subst h
  exact ⟨rfl, rfl⟩

theorem abort (tag level target : Byte) : Statement (.abort tag level target) := by
  intro _ body h
  injection h with h
  subst h
  exact ⟨rfl, rfl⟩

theorem abandon (tag level context : Byte) : Statement (.abandon tag level context) := by
  intro _ body h
  injection h with h
  subst h
  exact ⟨rfl, rfl⟩

theorem restart (tag level : Byte) : Statement (.restart tag level) := by
  intro _ body h
  injection h with h
  subst h
  exact ⟨rfl, rfl⟩

theorem data (tag level context : Byte) (offset : BitVec 24) (bytes : List Byte) : Statement (.data tag level context offset bytes) := by
  intro w body h
  injection h with h
  subst h
  obtain _ | ⟨d, ds⟩ := bytes
  · simp [Instr.wellFormed] at w
  have hs : ds.length < 256 := by
    have e : Config.bufferSize = 256 := rfl
    simp only [Instr.wellFormed, List.length_cons, Bool.and_eq_true, decide_eq_true_eq] at w
    omega
  constructor
  · refine (if_pos hs).trans ?_
    rw [← be3, ofBe24]
  · have h1 : decide (8 ≤ ds.length + 1 + 1 + 1 + 1 + 1 + 1 + 1 + 1) = true := by simp
    have h2 : decide (ds.length + 1 + 1 + 1 + 1 + 1 + 1 + 1 + 1 ≤ 263) = true := by simp; omega
    show some (decide (8 ≤ ds.length + 1 + 1 + 1 + 1 + 1 + 1 + 1 + 1) && decide (ds.length + 1 + 1 + 1 + 1 + 1 + 1 + 1 + 1 ≤ 263)) = some true
    rw [h1, h2]
    rfl

theorem write (tag level : Byte) (slot : BitVec 16) (zone cls : Byte) (length : BitVec 24) : Statement (.write tag level slot zone cls length) := by
  intro _ body h
  injection h with h
  subst h
  refine ⟨Eq.trans (b := some (.write tag level (BitVec.ofNat 16 (ofBe (be 2 slot.toNat))) zone cls (BitVec.ofNat 24 (ofBe (be 3 length.toNat))))) rfl ?_, rfl⟩
  rw [ofBe16, ofBe24]

theorem read (tag level : Byte) (slot : BitVec 16) (offset : BitVec 24) (count : Byte) : Statement (.read tag level slot offset count) := by
  intro _ body h
  injection h with h
  subst h
  refine ⟨Eq.trans (b := some (.read tag level (BitVec.ofNat 16 (ofBe (be 2 slot.toNat))) (BitVec.ofNat 24 (ofBe (be 3 offset.toNat))) count)) rfl ?_, rfl⟩
  rw [ofBe16, ofBe24]

theorem list (tag level : Byte) (startAfter : BitVec 16) (maximum : Byte) : Statement (.list tag level startAfter maximum) := by
  intro _ body h
  injection h with h
  subst h
  refine ⟨Eq.trans (b := some (.list tag level (BitVec.ofNat 16 (ofBe (be 2 startAfter.toNat))) maximum)) rfl ?_, rfl⟩
  rw [ofBe16]

theorem delete (tag level : Byte) (slot : BitVec 16) : Statement (.delete tag level slot) := by
  intro _ body h
  injection h with h
  subst h
  refine ⟨Eq.trans (b := some (.delete tag level (BitVec.ofNat 16 (ofBe (be 2 slot.toNat))))) rfl ?_, rfl⟩
  rw [ofBe16]

theorem verify (tag level : Byte) (slot : BitVec 16) : Statement (.verify tag level slot) := by
  intro _ body h
  injection h with h
  subst h
  refine ⟨Eq.trans (b := some (.verify tag level (BitVec.ofNat 16 (ofBe (be 2 slot.toNat))))) rfl ?_, rfl⟩
  rw [ofBe16]

theorem compact (tag level zone count : Byte) : Statement (.compact tag level zone count) := by
  intro _ body h
  injection h with h
  subst h
  exact ⟨rfl, rfl⟩

theorem format (tag level zoneCount : Byte) (entries : List PlanEntry) : Statement (.format tag level zoneCount entries) := by
  intro w body h
  injection h with h
  subst h
  have hs : entries.length = 4 := by simpa [Instr.wellFormed] using w
  have hl : (entries.flatMap PlanEntry.bytes).length = 12 := by rw [planBytes_length, hs]
  constructor
  · refine (if_pos hl).trans ?_
    show some (Instr.format tag level zoneCount (planEntries (entries.flatMap PlanEntry.bytes))) = _
    rw [planEntries_flat]
  · show some (decide ((entries.flatMap PlanEntry.bytes).length + 4 = 16)) = some true
    rw [hl]
    rfl

theorem resetAsserted (stuck : List Byte) (residue : List (Nat × Byte)) : Statement (.resetAsserted stuck residue) := by
  intro _ _ h
  cases h

theorem coldStart (stuck : List Byte) (residue : List (Nat × Byte)) : Statement (.coldStart stuck residue) := by
  intro _ _ h
  cases h

theorem maintPinChange (asserted : Bool) : Statement (.maintPinChange asserted) := by
  intro _ _ h
  cases h

theorem debounceExpiry : Statement .debounceExpiry := by
  intro _ _ h
  cases h

theorem gatheringWindowExpiry : Statement .gatheringWindowExpiry := by
  intro _ _ h
  cases h

theorem readComplete : Statement .readComplete := by
  intro _ _ h
  cases h

theorem programComplete (stuck : List Byte) : Statement (.programComplete stuck) := by
  intro _ _ h
  cases h

theorem markComplete (stuck : List Byte) : Statement (.markComplete stuck) := by
  intro _ _ h
  cases h

theorem operationTimeout (stuck : List Byte) : Statement (.operationTimeout stuck) := by
  intro _ _ h
  cases h

theorem suspendComplete : Statement .suspendComplete := by
  intro _ _ h
  cases h

theorem erasePhaseEnd (residue : List (Nat × Byte)) : Statement (.erasePhaseEnd residue) := by
  intro _ _ h
  cases h

theorem batchTimeout (residue : List (Nat × Byte)) : Statement (.batchTimeout residue) := by
  intro _ _ h
  cases h

theorem headerWriteComplete (stuck : List Byte) : Statement (.headerWriteComplete stuck) := by
  intro _ _ h
  cases h

theorem lossOfPower (stuck : List Byte) (residue : List (Nat × Byte)) : Statement (.lossOfPower stuck residue) := by
  intro _ _ h
  cases h

end Sys2Proof.Laws.Frames
end

