-- ==== Sys2Proof/Laws/Sectors.lean ====
section
/-! SUPPORT. What the operations of the Sector Map leave of each sector, said once for each operation. -/

namespace Sys2Proof.Machine

/-! ### Operations that change no sector -/

theorem raise_smp (u : Purpose) (k : OpKind) (l : Nat) (t : Target) (p : Part) : (raise u k l t p).smp = p.smp := by
  unfold raise; dsimp only; split <;> rfl

theorem raiseErase_smp (p : Part) : (raiseErase p).smp = p.smp := by
  unfold raiseErase; split
  · rw [raise_smp]
  · rfl

theorem openBatch_smp (p : Part) : (openBatch p).smp = p.smp := by
  unfold openBatch; split
  · rfl
  · split
    · dsimp only; split
      · rw [raiseErase_smp]
      · rfl
    · rfl

theorem joinErase_smp (i : Nat) (p : Part) : (joinErase i p).smp = p.smp := by
  unfold joinErase; split
  · split
    · dsimp only; split
      · rw [raiseErase_smp]
      · rfl
    · rfl
  · rw [openBatch_smp]

theorem sector_of_smp {p q : Part} (h : q.smp = p.smp) (i : Nat) : q.sector i = p.sector i := by unfold Part.sector; rw [h]

/-! ### Sealing -/

theorem sector_of_sectors {p q : Part} (h : q.smp.sectors = p.smp.sectors) (i : Nat) : q.sector i = p.sector i := by
  unfold Part.sector; rw [h]

theorem becomeStale_sectors (i : Nat) (p : Part) :
    (becomeStale i p).smp.sectors = (modSector i (fun s => { s with state := .stale }) p).smp.sectors := by
  unfold becomeStale; dsimp only; rw [returnSpare_sectors]; split
  · rw [joinErase_smp]
  · rfl

/-- R53: becoming STALE changes of the zones the spares alone. -/
theorem becomeStale_zones (i : Nat) (p : Part) : (becomeStale i p).smp.zones.map (fun z => { z with spareInUse := false })
    = p.smp.zones.map (fun z => { z with spareInUse := false }) := by
  unfold becomeStale; dsimp only
  obtain ⟨_, _, e, _, h⟩ := returnSpare_eq (p.sector i).zone _
  rw [e, h]; split
  · rw [joinErase_smp]; rfl
  · rfl

/-- R46: a sector is judged empty when its counts are 0 and it holds no uncounted copy. -/
theorem emptied_iff (p : Part) (i : Nat) : p.emptied i ↔ ((p.sector i).countsZero && !copyUncounted i p) = true := by
  unfold Part.emptied Sector.countsZero copyUncounted
  cases p.rcu.step <;> simp [and_assoc, ← imp_iff_not_or]

/-- R46: judging a sector changes its state alone, and only from SEALED to STALE when it is judged empty. -/
theorem judgeSector_sector (i : Nat) (p : Part) (j : Nat) : (judgeSector i p).sector j =
    if j = i ∧ (p.sector i).state = .sealed ∧ ((p.sector i).countsZero && !copyUncounted i p) = true ∧ i < p.smp.sectors.length
      then { p.sector i with state := .stale } else p.sector j := by
  unfold judgeSector
  dsimp only
  split
  · rename_i hs
    split
    · rename_i hz
      rw [sector_of_sectors (becomeStale_sectors i p), sector_modSector]
      by_cases hj : i = j
      · subst hj; simp [hs, hz]
      · have hn : ¬ j = i := fun h => hj h.symm
        simp [hj, hn]
    · rename_i hz
      split
      all_goals simp [hz]
      rfl
  · rename_i hs; simp [hs]

theorem judgeSector_zones (i : Nat) (p : Part) : (judgeSector i p).smp.zones.map (fun z => { z with spareInUse := false })
    = p.smp.zones.map (fun z => { z with spareInUse := false }) := by
  unfold judgeSector
  dsimp only
  split
  · split
    · exact becomeStale_zones i p
    · split <;> rfl
  · rfl

theorem judgeSector_length (i : Nat) (p : Part) : (judgeSector i p).smp.sectors.length = p.smp.sectors.length :=
  (judgeSector_mapStep (MapStep.refl p) i).length

theorem dropOwner_smp (i : Nat) (p : Part) : (dropOwner i p).smp = (modSector i (fun s => { s with owner := none }) p).smp := by
  unfold dropOwner modSector
  dsimp only
  split <;> simp

theorem dropOwner_sector (i : Nat) (p : Part) (j : Nat) : (dropOwner i p).sector j =
    if j = i ∧ i < p.smp.sectors.length then { p.sector i with owner := none } else p.sector j := by
  rw [sector_of_smp (dropOwner_smp i p), sector_modSector]
  by_cases hj : i = j
  · subst hj; simp
  · have hn : ¬ j = i := fun h => hj h.symm
    simp [hj, hn]

theorem dropOwner_step (i : Nat) (p : Part) : (dropOwner i p).rcu.step = p.rcu.step := by
  unfold dropOwner modSector
  dsimp only
  split <;> simp

/-- R44, R46: sealing a sector drops its owner and makes it STALE when it is judged empty, SEALED otherwise. -/
theorem sealSector_sector {i : Nat} {p : Part} (hi : i < p.smp.sectors.length) (j : Nat) : (sealSector i p).sector j =
    if j = i then
      { p.sector i with owner := none, state := if (p.sector i).countsZero && !copyUncounted i p then .stale else .sealed }
    else p.sector j := by
  unfold sealSector
  have len : (clearTail i (dropOwner i p)).smp.sectors.length = p.smp.sectors.length := by
    show (dropOwner i p).smp.sectors.length = _
    rw [dropOwner_smp, modSector_length]
  have inner : (modSector i (fun s => { s with state := .sealed }) (clearTail i (dropOwner i p))).sector i =
      { p.sector i with owner := none, state := .sealed } := by
    rw [sector_modSector_self (by rw [len]; exact hi)]
    show { (dropOwner i p).sector i with state := .sealed } = _
    rw [dropOwner_sector, if_pos ⟨rfl, hi⟩]
  have zero : ((modSector i (fun s => { s with state := .sealed }) (clearTail i (dropOwner i p))).sector i).countsZero
      = (p.sector i).countsZero := by rw [inner]; rfl
  have copy : copyUncounted i (modSector i (fun s => { s with state := .sealed }) (clearTail i (dropOwner i p)))
      = copyUncounted i p := by
    unfold copyUncounted
    rw [show (modSector i (fun s => { s with state := .sealed }) (clearTail i (dropOwner i p))).rcu.step = p.rcu.step from
      dropOwner_step i p]
  rw [judgeSector_sector, zero, copy]
  by_cases hj : j = i
  · subst hj
    rw [inner]
    by_cases hz : ((p.sector j).countsZero && !copyUncounted j p) = true
    · rw [if_pos ⟨rfl, rfl, hz, by rw [modSector_length, len]; exact hi⟩, if_pos rfl, if_pos hz]
    · rw [if_neg (fun h => hz h.2.2.1), if_pos rfl, if_neg hz]
  · rw [if_neg (fun h => hj h.1), if_neg hj, sector_modSector_other (fun h => hj h.symm)]
    show (dropOwner i p).sector j = _
    rw [dropOwner_sector, if_neg (fun h => hj h.1)]

/-- R45: the state that a sealed sector takes. -/
theorem sealedState_of {p : Part} {i : Nat} {st : SectorState}
    (h : st = if (p.sector i).countsZero && !copyUncounted i p then .stale else .sealed) : SealedState p i st := by
  unfold SealedState
  rw [emptied_iff]
  exact ⟨fun hz => by rw [h, if_pos hz], fun hz => by rw [h, if_neg hz]⟩

/-- R44, R53: sealing changes of the zones the tail that names the sector, and the spares. -/
theorem sealSector_zones (i : Nat) (p : Part) : (sealSector i p).smp.zones.map (fun z => { z with spareInUse := false }) =
    (p.smp.zones.map (fun z => if z.tail = some i then { z with tail := none } else z)).map (fun z => { z with spareInUse := false }) := by
  unfold sealSector
  rw [judgeSector_zones]
  show ((dropOwner i p).smp.zones.map _).map _ = _
  rw [dropOwner_smp]; rfl

/-- R44, R46: what sealing leaves of the sector sealed. -/
theorem sealSector_self {i : Nat} {p : Part} (hi : i < p.smp.sectors.length) :
    ((sealSector i p).sector i).owner = none ∧ SealedState p i ((sealSector i p).sector i).state ∧
    (sealSector i p).sector i = { p.sector i with owner := none, state := ((sealSector i p).sector i).state } := by
  have h := sealSector_sector hi i
  rw [if_pos rfl] at h
  refine ⟨by rw [h], sealedState_of (by rw [h]), by rw [h]⟩

/-! ### Becoming suspect -/

theorem raiseSuspectMark_smp (i n : Nat) (p : Part) : (raiseSuspectMark i n p).smp = p.smp := raise_smp ..

/-- R48: the suspect event makes its sector suspect and changes no other. -/
theorem markSuspect_sector {i : Nat} {p : Part} (hi : i < p.smp.sectors.length) (j : Nat) : (markSuspect i p).sector j =
    if j = i then { p.sector i with suspect := true } else p.sector j := by
  unfold markSuspect
  dsimp only
  split
  · rename_i h
    show p.sector j = _
    split
    · rename_i hj; subst hj; rw [← h]
    · rfl
  · rw [sector_of_smp (raiseSuspectMark_smp ..)]
    split
    · rename_i hj; subst hj; rw [sector_modSector_self (p := setCond .media p) hi]; rfl
    · rename_i hj; rw [sector_modSector_other (fun h => hj h.symm)]; rfl

theorem markSuspect_smp_zones (i : Nat) (p : Part) : (markSuspect i p).smp.zones = p.smp.zones := by
  unfold markSuspect; dsimp only; split
  · rfl
  · rw [raiseSuspectMark_smp]; rfl

theorem markSuspect_length (i : Nat) (p : Part) : (markSuspect i p).smp.sectors.length = p.smp.sectors.length :=
  (markSuspect_mapStep (MapStep.refl p) i).length

/-! ### Takes -/

theorem modZone_zone (z n : Nat) (f : Zone → Zone) (p : Part) : (modZone z f p).zone n = if z = n then (p.zone n).map f else p.zone n := by
  unfold modZone Part.zone
  simp only [List.getElem?_modify]
  split <;> simp_all

/-- R43: the search for a zone's FREE sector of lowest number finds it. -/
theorem lowestFree_iff (z i : Nat) (p : Part) : lowestFree z p = some i ↔ LowestFree z i p := by
  unfold lowestFree LowestFree
  rw [List.findIdx?_eq_some_iff_getElem]
  have g : ∀ j (h : j < p.smp.sectors.length), p.sector j = p.smp.sectors[j] := by
    intro j h; unfold Part.sector; rw [List.getD_eq_getElem?_getD, List.getElem?_eq_getElem h]; rfl
  constructor
  · rintro ⟨h, a, b⟩
    simp only [Bool.and_eq_true, decide_eq_true_eq] at a
    refine ⟨h, by rw [g i h]; exact a.1, by rw [g i h]; exact a.2, fun j hj w => ?_⟩
    have := b j hj
    rw [g j (by omega)] at w
    simp [w] at this
  · rintro ⟨h, a, b, c⟩
    refine ⟨h, ?_, fun j hj => ?_⟩
    · rw [g i h] at a b; simp [a, b]
    · have := c j hj
      rw [g j (by omega)] at this
      simpa using this

/-- R43: it finds none exactly when the zone has none. -/
theorem lowestFree_none (z : Nat) (p : Part) : lowestFree z p = none ↔ NoneFree z p := by
  unfold lowestFree NoneFree
  rw [List.findIdx?_eq_none_iff]
  have g : ∀ j (h : j < p.smp.sectors.length), p.sector j = p.smp.sectors[j] := by
    intro j h; unfold Part.sector; rw [List.getD_eq_getElem?_getD, List.getElem?_eq_getElem h]; rfl
  constructor
  · intro h j hj w
    have := h _ (List.getElem_mem hj)
    rw [g j hj] at w
    simp [w] at this
  · intro h s hs
    obtain ⟨j, hj, rfl⟩ := List.getElem_of_mem hs
    have := h j hj
    rw [g j hj] at this
    simpa using this

theorem reportFree_smp (z : Nat) (p : Part) : (reportFree z p).smp = p.smp := by
  unfold reportFree; split
  · split <;> rfl
  · rfl

theorem reportFree_rcu (z : Nat) (p : Part) : (reportFree z p).rcu = p.rcu := by
  unfold reportFree; split
  · split <;> rfl
  · rfl

theorem reportFree_ctx (z : Nat) (p : Part) (d : CtxId) : (reportFree z p).ctx d = p.ctx d := by
  unfold reportFree; split
  · split
    · cases d <;> rfl
    · rfl
  · rfl

/-- R43: a take refused changes nothing. -/
theorem takeForCtx_refused {c : CtxId} {p r : Part} (h : takeForCtx c p = (.refused, r)) : r = p := by
  unfold takeForCtx at h
  dsimp only at h
  repeat' split at h
  all_goals simp_all

/-- R55: a cut takes what it can from its context, and leaves the other and the tables. -/
theorem cutCtx_spec (c d : CtxId) (z n : Nat) (p : Part) :
    (cutCtx c z n p).1 = n - reservedBy z (p.ctx c) ∧
    reservedBy z ((cutCtx c z n p).2.ctx d) = (if d = c then reservedBy z (p.ctx c) - n else reservedBy z (p.ctx d)) ∧
    (cutCtx c z n p).2.smp = p.smp ∧ (cutCtx c z n p).2.rcu = p.rcu := by
  unfold cutCtx
  dsimp only
  refine ⟨rfl, ?_, by split <;> simp, by split <;> simp⟩
  split
  · rename_i h
    split
    · rename_i hd; subst hd; rcases h with h | h <;> omega
    · rfl
  · rename_i h
    rw [not_or] at h
    by_cases hd : d = c
    · subst hd
      rw [if_pos rfl, modCtx_ctx]
      have ho : (p.ctx d).isOpen = true ∧ (p.ctx d).zone = z := by
        have := h.1
        unfold reservedBy at this
        by_contra hc
        apply this
        rw [if_neg]; simpa using hc
      have e : reservedBy z (p.ctx d) = (p.ctx d).reservation := by unfold reservedBy; simp [ho]
      have : reservedBy z { p.ctx d with reservation := (p.ctx d).reservation - min n (reservedBy z (p.ctx d)) } = (p.ctx d).reservation - min n (reservedBy z (p.ctx d)) := by
        unfold reservedBy
        rw [if_pos]
        simp only [Bool.and_eq_true, decide_eq_true_eq]
        exact ho
      rw [this, e]; omega
    · rw [if_neg hd, modCtx_ctx_other hd]


end Sys2Proof.Machine
end

