-- ==== Sys2Proof/Tests/Slice0.lean ====
section
/-! SUPPORT. Tests on small states: the checks of WellFormed, the CRCs and frames against bytes worked out from the manual, one
step of the commands, and for every statement with hypotheses a state that meets them. -/

namespace Sys2Proof.Tests

set_option Elab.async false

open Sys2Proof.Machine

/-! ### Small states -/

/-- A machine with nothing listed in its array and no command waiting. -/
def on (p : Part) : State := { array := [], part := p, pending := [] }

/-- A sector of zone 0. -/
def sec (st : SectorState) (nextWrite live : Nat) (owner : Option Holder) : Sector :=
  { Sector.cold with state := st, nextWrite := nextWrite, live := live, owner := owner }

/-- A store of one zone, MOUNTED, with five sectors, nothing queued and the engine idle. -/
def calm : Part :=
  { Part.cold with
    smp := { sectors := [sec .free 32 0 none, sec .free 32 0 none, sec .free 32 0 none, sec .sealed 4096 68 none, sec .tail 1000 64 none]
             zones := [{ first := 0, count := 512, lowWater := 1, tail := some 4, spareInUse := false, waiting := [] }] }
    pee := { Part.cold.pee with state := .idle, op := none }
    scu := { Part.cold.scu with store := .mounted, format := 1 } }

/-- The engine of `calm` in a state, with an operation and claims. -/
def engine (st : EngineState) (op : Option Claim) (claims : List Claim) : Part :=
  { calm with pee := { calm.pee with state := st, op := op, claims := claims } }

/-- A claim. -/
def claim (age : Nat) (u : Purpose) (k : OpKind) (l : Nat) (t : Target) : Claim :=
  { age := age, purpose := u, kind := k, level := l, target := t }

/-- A batch of sectors 1 and 2 in its erase or header-write phase. -/
def batch (headers : Bool) (done1 : Bool) : Batch :=
  { forFormat := false, zone := 0, headers := headers, unsuspended := 0,
    sectors := [{ sector := 1, header := sectorHeaderBytes 1 0 1 [(512, 1)] false, count := 1, bad := false, erased := true,
                  done := done1, headerOk := done1 },
                { sector := 2, header := sectorHeaderBytes 1 0 1 [(512, 1)] false, count := 1, bad := false, erased := true,
                  done := false, headerOk := false }] }

/-- The engine with a batch in progress. -/
def batching (st : EngineState) (b : Batch) : Part := { calm with pee := { calm.pee with state := st, batch := some b } }

/-- An entry of the request queue, with tag 5. -/
def entry (r : Request) (active : Bool) : Entry :=
  { request := r, tag := 5, level := 3, age := 0, active := active, abortWaits := false }

/-- `calm` with one entry in its request queue. -/
def queued (r : Request) (active : Bool) : Part := { calm with rqs := { calm.rqs with queue := [entry r active], nextAge := 1 } }

/-- A direct reply. -/
def answer : Reply := { kind := 0x01, tag := 1, status := .ok, notes := 0, payload := [], place := .direct }

/-- `calm` with all six direct places in use. -/
def full : Part := { calm with link := { calm.link with replies := List.replicate 6 answer } }

/-- A context that receives 5000 bytes for slot 7, with one frame of 256 taken and programmed. -/
def writing : WriteCtx :=
  { WriteCtx.cold with state := .receiving, slot := 7, total := 5000, received := 256, programmed := 256, sequence := 3, level := 3 }

/-- `calm` with context 0 as given. -/
def writer (k : WriteCtx) : Part := { calm with wcu := { calm.wcu with c0 := k } }

/-- The entry of slot 7, of 36 bytes in sector 3. -/
def slot7 : DirEntry :=
  { slot := 7, zone := 0, cls := .guarded, length := 36, sequence := 2, openCtx := none, deletePending := false, relocating := false,
    lingering := [], extents := [{ sector := 3, offset := 32, length := 36, copy := 0 }] }

/-- `p` with slot 7 in its directory. -/
def holding (p : Part) : Part := { p with sdr := { p.sdr with directory := [slot7], sequence := 4 } }

theorem calm_listens : calm.listens := ⟨rfl, nofun⟩

/-! ### WellFormed -/

theorem test_ill_badFrame : (Instr.badFrame [0x00, 0x03, 0x01, 0x07, 0x00, 0x24, 0x77]).wellFormed = false := by decide +kernel
theorem test_ill_notice : (Instr.notice 0 0 [] 0).wellFormed = false := by decide
theorem test_ill_data_none : (Instr.data 0 0 0 0 []).wellFormed = false := by decide
theorem test_ill_data_long : (Instr.data 0 0 0 0 (List.replicate 257 0)).wellFormed = false := by decide +kernel
theorem test_ill_format : (Instr.format 0 0 1 []).wellFormed = false := by decide
theorem test_ill_stuck : (Instr.programComplete (List.replicate 257 0)).wellFormed = false := by decide +kernel
theorem test_ill_residue_outside : (Instr.erasePhaseEnd [(2097152, 0)]).wellFormed = false := by decide
theorem test_ill_residue_blank : (Instr.batchTimeout [(0, 0xFF)]).wellFormed = false := by decide
theorem test_ill_cut : (Instr.lossOfPower [] [(2097152, 0)]).wellFormed = false := by decide
theorem test_well : ([Instr.notice 0 0 (List.replicate 8 (0, 0)) 0, .data 0 0 0 0 [1], .format 0 0 1 (List.replicate 4 ⟨0, 0⟩),
    .programComplete (List.replicate 256 0), .coldStart [] [(2097151, 0)], .badFrame []].all (·.wellFormed)) = true := by decide +kernel

/-! ### CRCs and frames, against bytes worked out from R15, R17 and section 10.2 -/

theorem test_crc16 : crc16 [0x31, 0x32, 0x33, 0x34, 0x35, 0x36, 0x37, 0x38, 0x39] = 0x29B1#16 := by decide +kernel
theorem test_crc32 : crc32 [0x31, 0x32, 0x33, 0x34, 0x35, 0x36, 0x37, 0x38, 0x39] = 0xCBF43926#32 := by decide +kernel
theorem test_frame_ident : requestFrame (.ident 7 0) = some [0x00, 0x03, 0x01, 0x07, 0x00, 0x24, 0x77] := by decide +kernel
theorem test_frame_tune : requestFrame (.tune 1 0 2 4) = some [0x00, 0x05, 0x05, 0x01, 0x00, 0x02, 0x04, 0xC1, 0xCA] := by
  decide +kernel
theorem test_frame_write : decodeFrame [0x00, 0x0A, 0x20, 0x2A, 0x03, 0x01, 0x02, 0x00, 0x02, 0x00, 0x13, 0x88, 0xA7, 0x31]
    = some (.write 0x2A 3 258 0 2 5000) := by decide +kernel
theorem test_frame_data : decodeFrame [0x00, 0x09, 0x10, 0x09, 0x00, 0x01, 0x00, 0x01, 0x00, 0xAA, 0xBB, 0x2C, 0xE7]
    = some (.data 9 0 1 256 [0xAA, 0xBB]) := by decide +kernel
theorem test_table_gives_no_bits : decodeTableWord 8 1 = none := rfl

/-! ### One step -/

/-- The part of the outcome of one command, where there is a next state. -/
def after (i : Instr) (s : State) : Option Part :=
  match step { s with pending := [i] } with
  | .next t => some t.part
  | .fault _ | .refused _ => none

theorem test_ident : (after (.ident 9 0) (on calm)).map (fun p => p.link.replies.map (·.payload)) =
    some [[0x47, 0x16, 0x40, 0x01, 0x02, 0x00, 0x10, 0x00, 0x01, 0x00, 0x01, 0x00, 0x04, 0x00, 0x00]] := by decide +kernel
theorem test_status : (after (.status 9 0) (on (writer writing))).map (fun p => p.link.replies.map (fun r =>
    (r.payload.length, slice r.payload 89 10))) = some [(116, [0x01, 0x00, 0x07, 0x00, 0x01, 0x00, 0x00, 0x01, 0x00, 0x02])] := by
  decide +kernel
theorem test_overrun : (after (.ident 9 0) (on full)).map (fun p => (p.link.replies.length, condSetByte p)) = some (6, 0x40) := by
  decide +kernel
theorem test_write_opens : (after (.write 5 3 9 0 1 300) (on calm)).map (fun p => (p.wcu.c0.state, p.wcu.c0.reservation,
    p.rqs.queue, p.link.replies.map (·.payload))) = some (.receiving, 2, [], [[0x00, 0x02]]) := by decide +kernel
theorem test_read_granted : (after (.read 5 3 7 4 40) (on (holding calm))).map (fun p => p.pee.op.map (fun c => (c.purpose, c.target)))
    = some (some (.readSlot 0, .runs [{ sector := 3, offset := 68, length := 32 }])) := by decide +kernel
theorem test_guarded_delete : (after (.delete 5 3 7) (on (holding calm))).map (fun p => p.link.replies.map (·.status))
    = some [.protected_] := by decide +kernel
theorem test_data_first : (after (.data 5 0 0 0 [1, 2]) (on (writer { writing with received := 0, programmed := 0, total := 2 }))).map
    (fun p => (p.wcu.c0.credit, p.pee.op.map (·.target.touched), p.wcu.c0.owned)) = some (1, some [4], some 4) := by decide +kernel
theorem test_debounce : (after .debounceExpiry (on { calm with mli := { pin := true, level := false, timer := some 4999 } })).map
    (fun p => (p.mli, condSetByte p)) = some ({ pin := true, level := true, timer := none }, 0x80) := by decide +kernel

/-! ### States that meet the hypotheses of the statements -/

/-- What the engine runs in the witnesses below. -/
def readOp : Claim := claim 0 (.readSlot 0) .read 3 (.runs [{ sector := 511, offset := 0, length := 4096 }])
def programOp : Claim := claim 0 .runnerData .program 3 (.bytes 511 3840 (List.replicate 256 0x00))
def markOp : Claim := claim 0 (.suspectMark 1 1) .mark 0 (.bytes 1 30 [0x00])

theorem hyp_StepRunsFrontCommand : ({ on calm with pending := [.readComplete, .debounceExpiry] } : State).pending
    = .readComplete :: [.debounceExpiry] := rfl
theorem hyp_EveryStepRuns_idle : (on calm).pending = [] ∧ (on calm).part.run = .running ∧
    (on { calm with run := .inReset }).part.run ≠ .running := by decide
/-- The command ends in the fault of a byte outside the array. -/
def faults (i : Instr) (s : State) : Bool :=
  match exec i s with
  | .fault f => decide (f = .outsideArray)
  | .next _ | .refused _ => false

/-- R1: the three ways a command meets a byte outside the array, each one byte beyond the last. -/
theorem hyp_EveryStepRuns_outside :
    faults .readComplete (on (engine .busy (some { readOp with target := .runs [{ sector := 511, offset := 0, length := 4097 }] }) [])) = true ∧
    faults (.programComplete []) (on (engine .busy (some { programOp with target := .bytes 512 0 [0x00] }) [])) = true ∧
    faults (.markComplete []) (on (engine .busy (some { markOp with target := .bytes 0 4096 [0x00] }) [])) = true ∧
    faults (.operationTimeout []) (on (engine .busy (some { markOp with target := .bytes 0 4096 [0x00] }) [])) = true ∧
    faults (.headerWriteComplete []) (on (batching .busy { batch true false with
      sectors := [{ sector := 512, header := [0xB7], count := 1, bad := false, erased := true, done := false, headerOk := false }] })) = true ∧
    faults (.operationTimeout []) (on (batching .busy { batch true false with
      sectors := [{ sector := 512, header := [], count := 1, bad := true, erased := false, done := false, headerOk := false }] })) = true := by decide +kernel
theorem hyp_StepKeepsArrayCanonical : Memory.wf State.reset.array = true ∧ ∃ t, step State.reset = .next t := ⟨rfl, _, rfl⟩
theorem hyp_StepKeepsLinkInv : State.reset.part.LinkInv ∧ ∃ t, step State.reset = .next t :=
  ⟨by constructor <;> decide, _, rfl⟩
theorem hyp_OnlyWorkChangesArray : touchesArray (.fetch 0) = false ∧ ∃ t, exec (.fetch 0) State.reset = .next t := ⟨rfl, _, rfl⟩
theorem hyp_CrcThirtyTwoRule : ∃ r bytes, verifyPasses r bytes = true :=
  ⟨{ age := 0, kind := .verify, tag := 0, level := 0, slot := 7, offset := 0, count := 0, sequence := 2, readLen := 0, readCount := 0,
     shortened := false, attempts := 0, nextIndex := 1, checked := 0, notes := 0, gone := false, detached := false,
     elem := { sector := 3, offset := 32, length := 1, copy := 0 } },
   let h := firstStageBytes 7 2 1 0 none false
   h.take 16 ++ closeBytes 1 (be 4 (crc32 [0xAB]).toNat) ++ h.drop 23 ++ [0xAB], by decide +kernel⟩
/-- A serving record of age 0 for slot 7, whose element is slot 7's first. -/
def served (k : ServeKind) : Serving :=
  { age := 0, kind := k, tag := 5, level := 3, slot := 7, offset := 0, count := 36, sequence := 2, readLen := 36, readCount := 36,
    shortened := false, attempts := 0, nextIndex := 0, checked := 0, elem := { sector := 3, offset := 32, length := 36, copy := 0 },
    notes := 0, gone := false, detached := false }

/-- Slot 7 present, with a request for it served. -/
def serving (r : Request) (v : Serving) (es : List Elem) : Part :=
  { queued r true with sdr := { calm.sdr with directory := [{ slot7 with extents := es }], serving := [v] } }

/-- An element of slot 7 in sector 3. -/
def elemAt (o : Nat) : Elem := { sector := 3, offset := o, length := 36, copy := 0 }

/-- The 68 bytes of slot 7's first extent as it was written: 36 bytes of 0xAB. -/
def extent7 : List Byte :=
  (firstStageBytes 7 2 0 0 (some (.guarded, 36)) true).take 16 ++ closeBytes 36 (be 4 (crc32 (List.replicate 36 0xAB)).toNat)
    ++ (firstStageBytes 7 2 0 0 (some (.guarded, 36)) true).drop 23 ++ List.replicate 36 0xAB

theorem hyp_ServedWorkEnds_entry : (serving (.read 7 0 36) (served .read) [elemAt 32]).servingOf 0 = some (served .read) ∧
    (serving (.read 7 0 36) (served .read) [elemAt 32]).queueEntry 0 = some (entry (.read 7 0 36) true) ∧
    ((serving (.read 7 0 36) (served .read) [elemAt 32]).entryOf 7).isSome = true := by decide +kernel
theorem hyp_ServedWorkEnds_gone : ((serving (.read 7 0 36) { served .read with gone := true } []).servingOf 0).map (·.gone) = some true := by
  decide +kernel
theorem hyp_ServedWorkEnds_verify : verifyPasses (served .verify) extent7 = true ∧ verifyPasses (served .verify) (extent7.dropLast ++ [0xAA]) = false ∧
    [elemAt 32, elemAt 100][0 + 1]? = some (elemAt 100) ∧ [elemAt 32].length ≤ 0 + 1 ∧
    ({ entry (.verify 7) true with abortWaits := true } : Entry).abortWaits = true := by decide +kernel
/-- R115, R119: the three ends of a VERIFY's step that passes, and of one that does not. -/
theorem test_verify_ends :
    (verifyDone 0 extent7 (serving (.verify 7) (served .verify) [elemAt 32])).link.replies.map (fun r => (r.status, r.payload))
      = [(.ok, [0, 7, 0, 0, 0, 2, 1])] ∧
    (verifyDone 0 extent7 (serving (.verify 7) (served .verify) [elemAt 32, elemAt 100])).pee.claims.map (·.target)
      = [.runs [{ sector := 3, offset := 100, length := 68 }]] ∧
    (verifyDone 0 (extent7.dropLast ++ [0xAA]) (serving (.verify 7) (served .verify) [elemAt 32])).link.replies.map
      (fun r => (r.status, r.payload)) = [(.dataCorrupt, [0, 7, 0, 0, 0, 2, 0, 0])] := by decide +kernel
/-- R36, R118: a DELETE succeeds while a READ of its slot waits: NO_SLOT, and then its own OK (log 42). -/
theorem test_delete_others : (deleteMarkDone 0 true { serving (.delete 7) (served .delete) [elemAt 32] with
    sdr := { calm.sdr with directory := [slot7], serving := [served .delete, { served .read with age := 1 }] }
    rqs := { calm.rqs with queue := [entry (.delete 7) true, { entry (.read 7 0 36) true with age := 1 }], nextAge := 2 } }).link.replies.map
      (fun r => (r.kind, r.status)) = [(0x21, .noSlot), (0x23, .ok)] := by decide +kernel
theorem hyp_ServedWorkEnds_delete : ({ served .delete with attempts := 2 } : Serving).attempts < 3 ∧
    3 ≤ ({ served .delete with attempts := 3 } : Serving).attempts ∧ ({ served .delete with detached := true } : Serving).detached = true ∧
    (served .delete).elem.sector < calm.smp.sectors.length ∧ (0xFE : Byte) ≠ 0xFF ∧
    (served .read).slot = (served .delete).slot ∧ ({ served .read with age := 1 } : Serving).age ≠ (served .delete).age ∧
    calm.pee.op = none := by decide +kernel

/-- A DELETE of slot 7 that RESTART detached: no queue entry, its slot present with delete pending. -/
def detached (v : Serving) : Part :=
  { calm with sdr := { calm.sdr with directory := [{ slot7 with deletePending := true }], serving := [{ v with detached := true }] } }

theorem hyp_ServedWorkEnds_detached :
    (detached (served .delete)).servingOf 0 = some { served .delete with detached := true } ∧ (detached (served .delete)).queueEntry 0 = none ∧
    ((detached (served .delete)).entryOf 7).isSome = true ∧ (served .delete).gone = false ∧
    (detached { served .delete with gone := true }).servingOf 0 = some { served .delete with gone := true, detached := true } ∧
    (served .delete).elem.sector < (detached (served .delete)).smp.sectors.length := by decide +kernel
/-- R36: the decisions of a detached DELETE: removed, read back, removed with its sector suspect, kept without delete pending with its
sector suspect; never a reply. -/
theorem test_detached_delete :
    (let q := writeEnded (.deleteMark 0) 3 56 { ok := true, good := [0x00] } (detached (served .delete))
     (q.sdr.directory, q.sdr.serving, q.link.replies)) = ([], [], []) ∧
    (let q := writeEnded (.deleteMark 0) 3 56 { ok := false, good := [] } (detached (served .delete))
     (q.sdr.directory.length, q.pee.claims.map (·.purpose))) = (1, [.deleteReadBack 0]) ∧
    (let q := readEnded (.deleteReadBack 0) [0x7F] (detached { served .delete with attempts := 1 })
     (q.sdr.directory, (q.sector 3).suspect, q.link.replies)) = ([], true, []) ∧
    (let q := readEnded (.deleteReadBack 0) [0xFF] (detached { served .delete with attempts := 1 })
     (q.sdr.directory.map (·.deletePending), q.sdr.serving, (q.sector 3).suspect, q.link.replies)) = ([false], [], true, []) := by
  decide +kernel
/-- Log 55: the WRITE of the slot that was passed over for delete pending is activated when the detached DELETE removes the entry. -/
theorem test_detached_activates :
    (after (.markComplete []) (on { detached (served .delete) with
      rqs := { (queued (.write 7 0 1 300) false).rqs with queue := [{ entry (.write 7 0 1 300) false with age := 1 }], nextAge := 2 }
      pee := { calm.pee with state := .busy, op := some (claim 0 (.deleteMark 0) .mark 3 (.bytes 3 56 [0x00])) } })).map
      (fun p => (p.sdr.directory, p.rqs.queue, p.wcu.c0.state)) = some ([], [], .receiving) := by decide +kernel

/-- The record of slot 7's superseded generation, of 36 bytes in sector 3, awaited by context 0. -/
def record7 (attempts : Nat) : Retiring :=
  { slot := 7, sequence := 1, extents := [elemAt 32], head := elemAt 32, superseded := true, level := 3, attempts := attempts,
    waiting := some .c0, deferred := false, extra := some (2, 68) }

/-- Context 0 committed, with a record that it awaits. -/
def retiring7 (attempts : Nat) : Part :=
  let p := writer { writing with state := .committing, commit := .switched }
  { p with sdr := { p.sdr with directory := [slot7], retiring := [record7 attempts] } }

theorem hyp_ServedWorkEnds_record : (retiring7 2).retiringOf 7 1 = some (record7 2) ∧ (record7 2).attempts < 3 ∧ 3 ≤ (record7 3).attempts ∧
    (record7 2).waiting = some .c0 ∧ ((retiring7 2).ctx .c0).commit = .switched ∧ (retiring7 2).mounted = true ∧
    (retiring7 3).entryOf 7 = some slot7 ∧ ({ record7 2 with waiting := none } : Retiring).waiting = none := by decide +kernel

/-! #### Write contexts and the runner -/

/-- A context with a current extent of `n` data bytes at offset 32 of sector 0, and `m` of its total programmed. -/
def extending (n m : Nat) : WriteCtx :=
  { writing with
    programmed := m, owned := some 0
    current := some { index := 0, sector := 0, offset := 32, data := n, crc := 0xFFFFFFFF#32, mustClose := false } }

/-- A buffer of 256 bytes of which `n` are down. -/
def buffer (n : Nat) : Buffer := { state := .filled, bytes := List.replicate 256 0x11, offset := 0, done := n }

theorem chooses_of {c : CtxId} {p : Part} (h : ((p.ctx c).state = .receiving ∨ (p.ctx c).state = .closing) ∧ (p.ctx c).ending = none ∧
    claimOutstanding (.ctx c) p = false ∧ isWaiting c p = false) : p.chooses c := h
theorem hyp_WritersStep_chooses : (writer writing).chooses .c0 ∧ ¬ calm.chooses .c0 :=
  ⟨chooses_of (by decide +kernel), fun h => absurd h.1 (by decide +kernel)⟩
theorem hyp_WritersStep_current : (extending 4032 100).current.map (fun x => (x.offset, x.data)) = some (32, 4032) ∧ 4032 = 4096 - 32 - 32 ∧ (extending 4031 5000).programmed = (extending 4031 5000).total ∧
    ¬ (4031 = 4096 - 32 - 32) ∧ ({ extending 0 0 with bufX := buffer 255 } : WriteCtx).bufferReady = true ∧
    ({ extending 0 0 with bufX := buffer 256 } : WriteCtx).bufferReady = false := by decide +kernel
/-- R101: with 72 extents closed and data still to program the context ends with FRAGMENTED, its buffers empty. -/
theorem test_fragmented : ((chooseStep .c0 (writer { writing with
    written := List.replicate 72 { sector := 3, offset := 32, length := 4 } })).link.replies.map
    (fun r => (r.kind, r.status)),
    (chooseStep .c0 (writer { writing with written := List.replicate 71 { sector := 3, offset := 32, length := 4 } })).link.replies)
    = ([(0x20, .fragmented)], []) := by decide +kernel

/-- `calm` with another sector table and tail. -/
def mapped (ss : List Sector) (t : Option Nat) (p : Part) : Part :=
  { p with smp := { sectors := ss, zones := calm.smp.zones.map (fun z => { z with tail := t }) } }

/-- 72 closed extents. -/
def allExtents : List Written := List.replicate 72 { sector := 3, offset := 32, length := 4 }
/-- R89, R101: with bytes for a 73rd extent the context takes a FREE sector first, which it gives up as TAIL; with no sector to take it
ends all the same. -/
theorem test_fragmented_take :
    (let p := mapped [sec .free 32 0 none, sec .free 32 0 none] none (writer { writing with bufX := buffer 0, written := allExtents })
     ((takeForCtx .c0 p).1, ((chooseStep .c0 p).sector 0).state, (chooseStep .c0 p).link.replies.map (·.status)))
      = (.taken, .tail, [.fragmented]) ∧
    (let p := mapped [sec .stale 4096 0 none] none (writer { writing with bufX := buffer 0, reservation := 1, written := allExtents })
     ((takeForCtx .c0 p).1, (chooseStep .c0 p).link.replies.map (·.status))) = (.waits, [.fragmented]) := by decide +kernel
theorem hyp_WritersStep_start :
    (let k : WriteCtx := { writing with bufX := buffer 0, owned := some 0 }
     k.hasBytes ∧ k.written.length < 72 ∧ 64 ≤ ((mapped [sec .owned 4032 0 (some (.ctx .c0))] none (writer k)).sector 0).room ∧
     ((mapped [sec .owned 4033 0 (some (.ctx .c0))] none (writer k)).sector 0).room < 64) ∧
    (takeForCtx .c0 (writer { writing with bufX := buffer 0 })).1 = .taken ∧
    (takeForCtx .c0 (mapped [sec .stale 4096 0 none] none (writer { writing with bufX := buffer 0, reservation := 1 }))).1 = .waits ∧
    (takeForCtx .c0 (mapped [sec .free 32 0 none] none (writer { writing with bufX := buffer 0 }))).1 = .refused :=
  ⟨⟨⟨by decide, by decide +kernel⟩, by decide +kernel⟩, by decide +kernel⟩
theorem hyp_WritersStep_commit :
    (let k : WriteCtx := { writing with state := .closing, programmed := 5000, written := [{ sector := 3, offset := 32, length := 4 }] }
     k.bufferReady = false ∧ ¬ (k.total = 0 ∧ k.written = []) ∧ k.programmed = k.total ∧ k.written ≠ [] ∧
     (∃ r ∈ (retiring7 1).sdr.retiring, r.slot = k.slot ∧ r.superseded = true) ∧ (writer k).sdr.retiring = []) ∧
    ({ writing with maintRequired := true } : WriteCtx).maintRequired = true ∧ calm.mli.level = false := by decide +kernel
theorem hyp_WritersStep_outcomes : calm.pee.op = none ∧ writing.ending = none ∧ (2 : Nat) ≤ ({ writing with failures := 2 } : WriteCtx).failures ∧
    ({ writing with failures := 1 } : WriteCtx).failures < 2 ∧ (extending 0 0).current ≠ none ∧ writing.current = none ∧
    ({ writing with attempts := 2 } : WriteCtx).attempts < 3 ∧ 3 ≤ ({ writing with attempts := 3 } : WriteCtx).attempts ∧
    ({ writing with ending := some (.withStatus .abandoned) } : WriteCtx).ending = some (.withStatus .abandoned) ∧
    (buffer 0).done + 256 = (buffer 0).bytes.length ∧ (buffer 0).done + 255 ≠ (buffer 0).bytes.length ∧
    64 ≤ 4096 - (32 + roundUp4 (32 + 3968)) ∧ 4096 - (32 + roundUp4 (32 + 3969)) < 64 := by decide +kernel
/-- R83, R90, R97: a data PROGRAM that completes well under ABANDON is counted in the ending reply's figure. -/
theorem test_abandoned_data : (writeEnded (.ctxData .c0) 0 64 { ok := true, good := List.replicate 256 0x11 }
    (writer { extending 0 256 with ending := some (.withStatus .abandoned), bufX := buffer 0 })).link.replies.map (fun r => (r.status, r.payload))
    = [(.abandoned, [0, 0, 7, 0, 0, 0, 3, 0, 2, 0])] := by decide +kernel

theorem hyp_WritersStep_endings : calm.pee.op = none ∧ (extending 0 256).commit = .notReached ∧ 0 < calm.smp.sectors.length ∧
    ((writer { extending 0 256 with ending := some .byRestart, failures := 1 }).ctx .c0).ending = some .byRestart ∧
    ((writer { extending 0 256 with ending := some .byRestart, failures := 1 }).ctx .c0).failures < 2 ∧
    ¬ ((writer { extending 0 256 with ending := some (.withStatus .abandoned), failures := 2 }).ctx .c0).failures < 2 := by decide +kernel
/-- R97, R104: a context that RESTART is ending is IDLE at the completion of its operation, without a reply; when the operation FAILED
its sector is suspect. -/
theorem test_restart_ends_at_completion :
    (let p := mapped [sec .owned 32 0 (some (.ctx .c0))] none (writer { extending 0 256 with ending := some .byRestart })
     let done (u : Purpose) (ok : Bool) : CtxState × Bool × List Reply :=
       let q := writeEnded u 0 64 { ok := ok, good := [0x11] } p
       (q.wcu.c0.state, (q.sector 0).suspect, q.link.replies)
     [done (.ctxData .c0) true, done (.ctxData .c0) false, done (.ctxFirst .c0) false, done (.ctxClose .c0) false])
      = [(.idle, false, []), (.idle, true, []), (.idle, true, []), (.idle, true, [])] ∧
    (let q := readEnded (.ctxReadBack .c0) [0xFF] (writer { writing with state := .committing, commit := .attempting, ending := some .byRestart })
     (q.wcu.c0.state, q.link.replies)) = (.idle, []) := by decide +kernel

/-- The runner's step for slot 7, its copy in sector 1 at offset 32, serving no job. -/
def moving (k : StepKind) (sent attempts : Nat) : Step :=
  { kind := k, job := if k = .compact then some 0 else none, level := 3, slot := 7, sequence := 2, index := 0, zone := 0, phase := .data,
    bytes := extent7, elem := elemAt 32, newSector := 1, newOffset := 32, sent := sent, attempts := attempts }

/-- A COMPACT's job of age 0, asked for one sector, with sector 3 its victim. -/
def compacting : Job :=
  { age := 0, zone := 0, asked := 1, emptied := 0, victim := some 3, taken := [3], failures := 0, level := 3, notes := 0 }

/-- Slot 7 present, with the runner's fields given. -/
def running (r : Rcu) : Part := { holding calm with rcu := r }

theorem hyp_WritersStep_runner :
    (running { calm.rcu with evacQueue := [3] }).mounted = true ∧
    (evacuationStep (running { calm.rcu with evacQueue := [3] })).map (·.elem) = some (elemAt 32) ∧
    firstMovable 3 (running { calm.rcu with job := some compacting }) = some { slot := 7, sequence := 2, index := 0, elem := elemAt 32 } ∧
    evacuationStep (running { calm.rcu with owned := some 1 }) = none ∧
    nextVictim { compacting with taken := [] } (running calm.rcu) = some 3 ∧ nextVictim compacting (running calm.rcu) = none := by
  decide +kernel
theorem hyp_WritersStep_room :
    (takeForRunner 0 (running { calm.rcu with step := some (moving .evacuation 0 0) })).1 = some 0 ∧
    (takeForRunner 0 (mapped [sec .sealed 4096 68 none] none (running { calm.rcu with step := some (moving .compact 0 0) }))).1 = none ∧
    32 + (moving .evacuation 0 0).elem.length = (sec .owned 4028 0 (some .runner)).room ∧
    ¬ 32 + (moving .evacuation 0 0).elem.length ≤ (sec .owned 4032 0 (some .runner)).room ∧
    64 ≤ (sec .owned 4032 0 (some .runner)).room := by decide +kernel
theorem hyp_WritersStep_close :
    (∀ suspect : Bool, (({ sec .owned 32 0 (some .runner) with suspect := suspect } : Sector).state = .owned)) ∧
    (takeForRunner 0 (giveUp 0 (mapped [sec .owned 4096 4 (some .runner)] none (running { calm.rcu with
      owned := some 0, step := some (moving .evacuation 0 0) })))).1 = none := by decide +kernel
/-- R42, R44, R48: the runner's sector, made suspect by another block while its copy is written, is SEALED at the close and not judged
empty before its copy counts; at the step's end it holds live bytes and waits for evacuation. -/
theorem test_runner_suspect_sealed :
    (let p := mapped [sec .free 32 0 none, { sec .owned 32 0 (some .runner) with suspect := true }, sec .free 32 0 none, sec .sealed 4096 68 none]
       none (running { calm.rcu with owned := some 1, step := some { moving .evacuation 36 0 with phase := .closing } })
     let q := writeEnded .runnerClose 1 48 { ok := true, good := [] } p
     let r := writeEnded .runnerDiscard 3 57 { ok := true, good := [] } q
     (((q.sector 1).state, q.rcu.owned, q.rcu.eraseQueue), ((r.sector 1).state, (r.sector 1).live, r.rcu.evacQueue, (r.sector 3).state)))
      = ((.sealed, none, []), (.sealed, 68, [1], .stale)) := by decide +kernel
theorem hyp_WritersStep_ends : (moving .compact 35 0).sent < 36 ∧ (36 : Nat) ≤ (moving .compact 36 0).sent ∧
    (moving .compact 0 1).attempts + 1 < 3 ∧ 2 ≤ (moving .compact 0 2).attempts ∧
    ({ compacting with failures := 2 } : Job).failures = 2 ∧ ({ compacting with failures := 1 } : Job).failures < 2 ∧
    compacting.emptied < compacting.asked ∧ 0 < ((running calm.rcu).sector 3).live ∧ (moving .compact 0 0).job = some compacting.age ∧
    (holding calm).entryOf 7 = some slot7 ∧ slot7.sequence = (moving .compact 0 0).sequence ∧ (1 : Nat) ≠ 3 := by decide +kernel
theorem hyp_WritersStep_dead : slot7.sequence ≠ ({ moving .compact 36 2 with sequence := 1 } : Step).sequence ∧
    (running calm.rcu).retiringOf 7 2 = none ∧ ((mapped [sec .owned 4033 0 (some .runner)] none calm).sector 0).room < 64 ∧ (mapped [sec .owned 4033 0 (some .runner)] none calm).mounted = true ∧
    ({ mapped [sec .owned 4033 0 (some .runner)] none calm with scu := { calm.scu with store := .formatting } } : Part).mounted = false ∧
    ((mapped [sec .owned 4033 0 (some .runner)] none calm).sector 0).state ≠ .bad := by decide +kernel
/-- R131: a failed discard attempt gives the COMPACT RETRIED; the third makes the old copy's sector suspect and gives MEDIA_EVENT. -/
theorem test_discard_fails :
    (let p (n : Nat) := { running { calm.rcu with job := some { compacting with asked := 2 }, step := some { moving .compact 36 n with phase := .discarding } } with
       rqs := (queued (.compact 0 2) true).rqs }
     let q (n : Nat) := writeEnded .runnerDiscard 3 57 { ok := false, good := [] } (p n)
     (((q 1).rcu.job.map (·.notes), (q 1).rcu.step.map (·.attempts)), ((q 2).rcu.job.map (·.notes), (q 2).rcu.step, ((q 2).sector 3).suspect)))
      = ((some 0x04, some 2), (some 0x08, none, true)) := by decide +kernel
/-- R35, R132: a step of a generation that is no longer live moves nothing. -/
theorem test_dead_step :
    (let q := writeEnded .runnerDiscard 3 57 { ok := true, good := [] } (running { calm.rcu with step := some { moving .evacuation 36 0 with sequence := 1, phase := .discarding } })
     (q.sdr.directory, (q.sector 1).live, (q.sector 3).live)) = ([slot7], 0, 68) := by decide +kernel
theorem hyp_WritersStep_job : compacting.emptied < compacting.asked ∧ compacting.asked ≤ ({ compacting with emptied := 1 } : Job).emptied ∧
    (queued (.compact 0 1) true).queueEntry compacting.age = some (entry (.compact 0 1) true) ∧
    (calm.sector 0).live = 0 ∧ 0 < (calm.sector 3).live ∧ (calm.sector 3).suspect = false ∧ firstMovable 3 calm = none ∧
    firstMovable 3 (holding calm) ≠ none ∧ nextVictim compacting calm = none ∧
    nextVictim { compacting with taken := [] } calm = some 3 ∧
    (moving .compact 0 0).job = some compacting.age ∧ (moving .evacuation 0 0).job ≠ some compacting.age := by decide +kernel
/-- What a COMPACT's reaction leaves of its job, in a part that has its request. -/
def reacted (j : Job) : Option Part := jobReact { queued (.compact 0 1) true with rcu := { calm.rcu with job := some j } }
/-- `compacting` without a victim. -/
def resting : Job := { compacting with victim := none }
/-- R133, R134: the victim emptied, stuck, chosen; a COMPACT ends OK with its count reached, or with the smaller one. -/
theorem test_job_reactions :
    (reacted { compacting with victim := some 0 }).map (·.rcu.job) = some (some { resting with emptied := 1 }) ∧
    (reacted compacting).map (·.rcu.job) = some (some resting) ∧
    (reacted { resting with taken := [] }).map (·.rcu.job) = some (some compacting) := by decide +kernel
theorem test_job_ends :
    (reacted { resting with emptied := 1 }).map (fun p => p.link.replies.map (fun r => (r.status, r.payload))) = some [(.ok, [0, 1])] ∧
    (reacted resting).map (fun p => p.link.replies.map (fun r => (r.status, r.payload))) = some [(.ok, [0, 0])] ∧
    (reacted resting).map (·.rcu.job) = some none := by decide +kernel
/-- R134: a closed step that empties the victim ends a COMPACT of one sector with OK. -/
theorem test_job_boundary_ok :
    (let p := { running { calm.rcu with job := some compacting, owned := some 1, step := some { moving .compact 36 0 with phase := .discarding } } with
       rqs := (queued (.compact 0 1) true).rqs }
     (writeEnded .runnerDiscard 3 57 { ok := true, good := [] } p).link.replies.map (fun r => (r.status, r.payload))) = [(.ok, [0, 1])] := by
  decide +kernel
/-- R38, R93: a context waits in COMMITTING while a SUPERSEDED record of its slot stands, and goes on, or fails, when it has left. -/
theorem hyp_WritersStep_waiting :
    (let k : WriteCtx := { writing with state := .committing, commit := .waiting, written := [{ sector := 3, offset := 32, length := 4 }] }
     (commitReact { retiring7 1 with wcu := (writer k).wcu }).isNone = true ∧
     (commitReact (writer k)).map (fun q => (q.pee.claims.map (·.purpose), q.wcu.c0.commit)) = some ([.ctxCommit .c0], .attempting) ∧
     (commitReact (writer { k with maintRequired := true })).map (fun q => q.link.replies.map (·.status)) = some [.protected_] ∧
     claimRuns (.ctx .c0) (writer k) = false) := by decide +kernel
/-- R130: an evacuation step whose take is answered none sets the hold whatever the store is. -/
theorem test_hold_while_formatting : (readEnded .runnerRead extent7 { mapped [sec .sealed 4096 68 none] none (running { calm.rcu with
      step := some { moving .evacuation 0 0 with phase := .reading } }) with
    scu := { calm.scu with store := .formatting } }).rcu.hold = some 0 := by decide +kernel
/-- R134: the job's end gives the runner's sector up before the next COMPACT is handed over. -/
theorem test_job_end_gives_up :
    (let p := mapped [sec .owned 1000 0 (some .runner), sec .sealed 4096 68 none] none (queued (.compact 0 1) false)
     (settle 2 { p with rcu := { calm.rcu with owned := some 0, job := some { compacting with age := 9, emptied := 1 } } }).rcu.owned)
      = none := by decide +kernel

theorem hyp_SectorHeadersReadBack : planValid [(8, 1), (8, 32), (8, 1), (488, 32)] = true ∧ 511 < 512 ∧ planValid [(512, 1)] = true := by
  decide +kernel
/-- R6: a header that meets every condition, and ones that break one each: a bit of the CRC, the format number, the sector's zone. -/
theorem test_header_conditions :
    let plan := [(8, 1), (8, 32), (8, 1), (488, 32)]
    let h := sectorHeaderBytes 1 1 5 plan false
    sectorHeaderValid 8 h = true ∧ sectorHeaderValid 15 h = true ∧ sectorHeaderValid 7 h = false ∧ sectorHeaderValid 16 h = false ∧
    sectorHeaderValid 8 (h.modify 21 (· ^^^ 0x01)) = false ∧ sectorHeaderValid 8 (h.modify 0 (· ^^^ 0x01)) = false ∧
    sectorHeaderValid 8 (sectorHeaderBytes 0 1 5 plan false) = false ∧
    sectorHeaderValid 8 (sectorHeaderBytes 1 1 5 [(8, 1), (8, 33), (8, 1), (488, 32)] false) = false ∧
    sectorHeaderValid 8 (h.modify 30 (fun _ => 0x00)) = true := by decide +kernel
/-- R12: a first stage that meets every condition, and ones that break one each: a bit of the CRC, the slot id, the sequence, the index,
the total length. -/
theorem test_first_stage_conditions :
    let stage (slot q i total : Nat) := firstStageBytes slot q i 0 (if i = 0 then some (.guarded, total) else none) false
    firstStageValid (stage 7 2 0 36) = true ∧ firstStageValid (stage 7 2 71 0) = true ∧
    firstStageValid ((stage 7 2 0 36).modify 15 (· ^^^ 0x01)) = false ∧ firstStageValid (stage 4096 2 0 36) = false ∧
    firstStageValid (stage 7 0xFFFFFFFF 0 36) = false ∧ firstStageValid (stage 7 2 72 36) = false ∧
    firstStageValid (stage 7 2 0 262145) = false := by decide +kernel
/-- A sector of 104 bytes: its header, and slot 7's first extent. -/
def sector7 (bad : Bool) : List Byte := sectorHeaderBytes 1 0 5 [(512, 1)] bad ++ extent7 ++ List.replicate 64 0xFF

/-- What nothing has been walked of. -/
def walk0 : Walk := { candidates := [], nextWrite := 4096, walkSealed := true, space := 0, highest := 0 }

theorem hyp_ArrayIsReadBack_stage : (1 : Nat) ≤ 4095 ∧ (1 : Nat) ≤ 0xFFFFFFFE ∧ (71 : Nat) ≤ 71 ∧ (65535 : Nat) ≤ 65535 ∧ (262144 : Nat) ≤ 262144 := by
  decide
theorem hyp_ArrayIsReadBack_classify :
    (classify 0 (List.replicate 40 0xFF)).1.cls = .blankErased ∧ (classify 0 (List.replicate 40 0x00)).1.cls = .torn ∧
    (classify 0 (sector7 true)).1.cls = .bad ∧ (classify 0 (sector7 false)).1.cls = .walked ∧
    (classify 0 (sector7 false)).2.candidates.map (fun c => (c.slot, c.sequence, c.length, c.total, c.committed)) = [(7, 2, 36, 36, true)] ∧
    (classify 0 (sector7 false)).1.nextWrite = 100 ∧ (classify 0 (sector7 false)).1.walkSealed = false := by decide +kernel
theorem hyp_ArrayIsReadBack_walk :
    4096 - 4033 < 64 ∧ 64 ≤ 4096 - 4032 ∧ extentForm (sector7 false) 32 = .closed ∧ extentForm (sector7 false) 100 = .erased ∧
    extentForm (sector7 false) 36 = .torn ∧ extentForm (firstStageBytes 7 2 0 0 (some (.guarded, 36)) true) 0 = .unclosed ∧
    extentForm (extent7.dropLast ++ [0xAA]) 0 = .unsound ∧
    firstStageValid (slice (sector7 false) 32 32) = true ∧ byteAt (slice (sector7 false) 32 32) 25 = 0xFF ∧
    (walkFrom 0 (sector7 false) 2 32 walk0).highest = 2 := by decide +kernel

/-- A candidate of slot 7: generation, index, copy. -/
def cand (q i c : Nat) : Candidate :=
  { slot := 7, sequence := q, index := i, copy := c, sector := 0, offset := 32 + 68 * i, length := 36, cls := .guarded, total := 72,
    committed := true, obsolete := false }

theorem hyp_ArrayIsReadBack_chosen : chosen [cand 2 0 0, cand 2 0 1] 7 2 0 = some (cand 2 0 1) ∧ chosen [cand 2 0 0] 7 2 1 = none ∧
    eligibleRun [cand 2 1 0, cand 2 0 0] 7 2 = some [cand 2 0 0, cand 2 1 0] ∧ eligibleRun [cand 2 0 0] 7 2 = none ∧
    addCandidate [cand 2 0 0] (cand 2 0 0) = [cand 2 0 0] ∧ addCandidate [cand 2 0 0] (cand 2 0 1) = [cand 2 0 0, cand 2 0 1] := by
  decide +kernel

/-- A sector with a valid header, scanned: its next-write offset. -/
def scanned (n : Nat) (suspect : Bool) : ScanRecord :=
  { cls := .walked, format := 1, plan := [(512, 1)], eraseCount := 5, suspect := suspect, nextWrite := n, walkSealed := false, space := 0 }

/-- A scan that found generations 1 and 2 of slot 7 in sector 0, an erased sector, a FREE one, a retired one and a suspect one. -/
def scan : Part :=
  { Part.cold with scu := { Part.cold.scu with
      candidates := [cand 1 0 0, cand 1 1 0, cand 2 0 0, cand 2 1 0], highest := 2
      records := [scanned 168 false, { scanned 4096 false with cls := .blankErased, eraseCount := 0 }, scanned 32 false,
                  { scanned 4096 false with cls := .bad, eraseCount := 9 }, scanned 100 true] } }

theorem hyp_ArrayIsReadBack_resolve :
    ((decideStore scan).scu.store, (decideStore scan).sdr.directory.map (fun d => (d.slot, d.sequence, d.length)),
      (decideStore scan).sdr.retiring.map (fun r => (r.slot, r.sequence)), (decideStore scan).smp.sectors.map (fun s => (s.state, s.eraseCount)))
    = (.mounted, [(7, 2, 72)], [(7, 1)], [(.tail, 5), (.stale, 9), (.free, 5), (.bad, 9), (.stale, 5)]) ∧
    (decideStore { scan with scu := { scan.scu with records := [scanned 32 false, { scanned 32 false with format := 2 }] } }).scu.store = .blank ∧
    (decideStore { scan with scu := { scan.scu with records := [{ scanned 32 false with cls := .bad }] } }).scu.store = .blank := by
  decide +kernel
theorem hyp_ArrayIsReadBack_conds : scan.link.conds[0]? = some CondRow.cold ∧ (decideStore scan).link.conds[0]? = some { CondRow.cold with set := true } := by
  decide +kernel
/-- R170: the format number of a store found BLANK: the highest read, 0 with none. -/
theorem test_blank_format :
    (decideStore { scan with scu := { scan.scu with records := [{ scanned 32 false with format := 3 }, { scanned 32 false with format := 2 },
      { scanned 32 false with cls := .bad, format := 9 }] } }).scu.format = 3 ∧
    (decideStore { scan with scu := { scan.scu with records := [{ scanned 32 false with cls := .bad }] } }).scu.format = 0 := by decide +kernel
/-- R171, R172: a sector's scan read leaves its record, its candidate and its sequence, and the next sector's read. -/
theorem test_scan_read :
    (let q := readEnded (.scanRead 0) (sector7 false) { Part.cold with pee := calm.pee }
     ((q.scu.records.map (·.cls), q.scu.candidates.map (·.slot), q.scu.highest), (q.scu.store, q.pee.claims.map (·.target))))
      = (([.walked], [7], 2), (.scanning, [.runs [{ sector := 1, offset := 0, length := 4096 }]])) := by decide +kernel
/-- R173: after sector 511 the store is decided. -/
theorem test_scan_ends : (readEnded (.scanRead 510) [0x00] { Part.cold with pee := calm.pee }).scu.store = .scanning ∧
    (readEnded (.scanRead 511) [0x00] { Part.cold with pee := calm.pee }).scu.store = .blank := by decide +kernel
/-- R29, R174: a RECOVERY record's first OBSOLETE claim is raised at resolve, at level 0. -/
theorem test_recovery_claim : (decideStore scan).sdr.retiring.map (fun r => (r.attempts, r.waiting, r.level)) = [(1, none, 0)] ∧
    (decideStore scan).pee.claims.map (fun c => (c.purpose, c.level, c.target)) = [(.obsolete 7 1, 0, .bytes 0 56 [0x00])] := by decide +kernel
theorem hyp_ProgramsOnlyClearBits : Memory.wf [] = true ∧ Inside 511 3840 (List.replicate 256 (0xFF : Byte)).length ∧
    Inside 0 0 (List.replicate 1 (0x00 : Byte)).length := ⟨rfl, ⟨by decide, by decide +kernel⟩, by decide, by decide⟩
theorem hyp_ProgramsOnlyClearBits_span : Inside 0 0 [(0xFF : Byte), 0x00].length ∧
    (∀ k < [(0xFF : Byte), 0x00].length, [(0xFF : Byte), 0x00].getD k 0 = 0xFF ∨ [(0xFF : Byte), 0x00].getD k 0 = 0x00) ∧
    [(0xFF : Byte), 0x00].getD 0 0 = 0xFF ∧ [(0xFF : Byte), 0x00].getD 1 0 = 0x00 :=
  ⟨⟨by decide, by decide⟩, by decide, rfl, rfl⟩
/-- R2, R65, log 56: a byte given as 0xFF over 0x5E passes the pre-check and stays, the next byte is programmed, and the verify fails at
the first; over 0xFF the operation succeeds; any other byte with a bit to raise leaves the array as it was. -/
theorem test_program_spans_ones :
    (programArray [(0, 0x5E)] 0 0 [0xFF, 0x00] [], programResult [(0, 0x5E)] 0 0 [0xFF, 0x00] [],
      programResult [] 0 0 [0xFF, 0x00] [], programArray [(0, 0x5E)] 0 0 [0x7F, 0x00] [], programResult [(0, 0x5E)] 0 0 [0x7F, 0x00] [])
      = ([(0, 0x5E), (1, 0x00)], { ok := false, good := [] }, { ok := true, good := [0xFF, 0x00] },
        [(0, 0x5E)], { ok := false, good := [] }) := by decide +kernel
theorem hyp_RequestFramesDecode : ∃ f, (Instr.data 1 2 0 262143 [0xFF]).wellFormed = true ∧
    requestFrame (.data 1 2 0 262143 [0xFF]) = some f := ⟨_, rfl, rfl⟩
theorem hyp_TransactionStart : (on calm).part.run = .running ∧ (on { calm with run := .inReset }).part.run ≠ .running := by decide
theorem hyp_BadFrames :
    [0x1D, 0x0F].length < 4 ∧ checkFrame [0x00, 0x00, 0x1D, 0x0E] = .refused .badCrc ∧
    checkFrame [0x00, 0x04, 0x01, 0x07, 0x00, 0x75, 0x5A] = .refused .badLength ∧
    checkFrame [0x00, 0x04, 0x01, 0x07, 0x00, 0x00, 0x74, 0x32] = .refused .badLength ∧
    checkFrame [0x00, 0x00, 0x1D, 0x0F] = .refused .unknownKind ∧ checkFrame [0x00, 0x01, 0x09, 0x6E, 0x84] = .refused .unknownKind ∧
    checkFrame [0x00, 0x03, 0x09, 0x07, 0x00, 0x8D, 0xD6] = .refused .unknownKind := by decide +kernel
theorem hyp_Fetch : ({ full with link := { full.link with transaction := .active 1 none } } : Part).link.transaction = .active 1 none ∧
    full.link.replies = answer :: List.replicate 5 answer ∧ 8 < (replyFrame answer).length ∧ (replyFrame answer).length ≤ 9 ∧
    full.link.transaction = .none := by decide +kernel
/-- R163: a fetch whose CS fell before any reply was produced gives zeros and takes none of those produced since. -/
theorem test_fetch_fixed_none :
    ((after (.fetch 9) (on { full with link := { full.link with transaction := .active 1 none } })).map
      (fun p => (p.link.miso, p.link.replies.length))) = some (1 :: List.replicate 9 0x00, 6) := by decide +kernel
theorem hyp_Attn : attn full = true ∧ (∀ r ∈ full.link.conds, r.enable = false) ∧
    attn { full with link := { full.link with floor := 7 } } = true ∧ (∀ r ∈ full.link.conds, r.level ≤ 7) := by decide
theorem hyp_Status_shown : (on calm).part.scu.store = .mounted ∧ (on calm).part.smp.zones.length ≤ 4 ∧
    (on calm).part.smp.zones[0]?.isSome = true ∧ State.reset.part.scu.store = .scanning := by decide +kernel
theorem hyp_Notice : (∀ x ∈ [((0 : Byte), (0 : Byte)), (1, 7), (0, 7), (1, 0), (0, 1), (0, 2), (0, 3), (1, 4)],
    (x.1 = 0 ∨ x.1 = 1) ∧ x.2.toNat ≤ 7) ∧ (7 : Byte).toNat ≤ 7 ∧ calm.link.conds.length = 8 := by
  refine ⟨?_, by decide, rfl⟩
  simp
theorem hyp_Notice_bad : ¬ ((2 : Byte) = 0 ∨ (2 : Byte) = 1) ∧ ¬ (8 : Byte).toNat ≤ 7 := by decide
theorem hyp_Tune : (engine .erasing none [claim 0 .runnerData .program 3 (.bytes 0 32 [0])]).pee.claims.find?
    (fun c => preempting 3 c && !preempting 4 c) = some (claim 0 .runnerData .program 3 (.bytes 0 32 [0])) ∧
    (engine .erasing none []).pee.budget = 8 ∧ calm.pee.claims.find? (fun c => preempting 1 c && !preempting 4 c) = none ∧
    (7 : Byte).toNat ≤ 7 ∧ 8 ≤ (8 : Byte).toNat ∧ (0 : Byte).toNat = 0 := by decide +kernel
theorem hyp_AbortRemovesWaiting : (queued (.read 7 0 1) false).ages.Nodup ∧ (queued (.read 7 0 1) false).link.held = [] ∧
    (queued (.read 7 0 1) false).rqs.queue.find? (fun e => e.tag = 5) = some (entry (.read 7 0 1) false) := by decide +kernel
theorem hyp_AbortAnswersAtOnce : (queued (.delete 7) true).rqs.queue.find? (fun e => e.tag = 5) = some (entry (.delete 7) true) ∧
    (queued (.read 7 0 1) true).rqs.queue.find? (fun e => e.tag = 5) = some (entry (.read 7 0 1) true) ∧
    (queued (.list 7 1) true).rqs.queue.find? (fun e => e.tag = 5) = some (entry (.list 7 1) true) ∧
    calm.rqs.queue.find? (fun e => e.tag = 5) = none ∧
    (∃ r ∈ [{ answer with kind := 0x21, tag := 5, place := .queued }], r.place = .queued ∧ r.tag = 5 ∧ r.kind ≠ 0x20) := by
  decide +kernel
theorem hyp_AbortOfLongRequests_verify : (queued (.verify 7) true).rqs.queue.find? (fun e => e.tag = 5) = some (entry (.verify 7) true) ∧
    purposeWaits (.verifyStep 0) (queued (.verify 7) true) = false ∧ directInUse (queued (.verify 7) true) < 6 := by decide +kernel
theorem hyp_AbortOfLongRequests_full : 6 ≤ directInUse { full with rqs := (queued (.verify 7) true).rqs } := by decide +kernel

theorem hyp_AbortOfLongRequests_compact : ∃ p : Part, p.listens ∧ p.rqs.queue.find? (fun e => e.tag = 5) = some (entry (.compact 0 1) true) ∧
    purposeWaits .runnerRead p = false ∧ p.rcu.job = some compacting ∧ p.rcu.step = some (moving .compact 0 0) ∧
    (moving .compact 0 0).job = some compacting.age :=
  ⟨{ queued (.compact 0 1) true with rcu := { calm.rcu with job := some compacting, step := some (moving .compact 0 0) } },
    calm_listens, by decide +kernel⟩
theorem hyp_AbortOfLongRequests_format : ∃ p : Part, p.listens ∧
    p.rqs.queue.find? (fun e => e.tag = 5) = some (entry (.format 1 [(512, 1)]) true) ∧ ∃ b, p.pee.batch = some b ∧ b.forFormat = true :=
  ⟨{ queued (.format 1 [(512, 1)]) true with pee := { calm.pee with batch := some { batch false false with forFormat := true } } },
    calm_listens, by decide +kernel, _, rfl, rfl⟩
/-- A FORMAT's runner of age 0. -/
def formatter (position : Nat) (stopped : Bool) : FormatRun :=
  { position := position, level := 3, age := 0, notes := 0, stopped := stopped }
theorem hyp_AbortOfLongRequests_ends : (queued (.verify 7) true).ages.Nodup ∧
    (serving (.verify 7) (served .verify) [elemAt 32]).servingOf 0 = some (served .verify) ∧
    purposeWaits (.verifyStep 0) (engine .busy none [claim 0 (.verifyStep 0) .read 3 (.runs [])]) = true ∧
    purposeWaits .runnerRead (engine .busy none [claim 0 .runnerRead .read 3 (.runs [])]) = true ∧
    compacting.age = (entry (.compact 0 1) true).age ∧ (moving .compact 0 0).job = some compacting.age ∧
    (moving .evacuation 0 0).job ≠ some compacting.age ∧ (formatter 0 false).age = (entry (.format 1 []) true).age ∧
    calm.pee.batch = none := by decide +kernel
/-- R119, R134: an ABORT of a COMPACT that has no step of its own ends it, and is answered after it. -/
theorem test_abort_compact : (after (.abort 9 0 5) (on { queued (.compact 0 1) true with rcu := { calm.rcu with job := some compacting } })).map
    (fun p => (p.rcu.job, p.link.replies.map (fun r => (r.kind, r.status)))) = some (none, [(0x25, .aborted), (0x06, .ok)]) := by
  decide +kernel
theorem hyp_Abandon : (2 : Byte).toNat = 2 ∧ (calm.ctx .c1).state = .idle ∧ ((writer writing).ctx .c0).state = .receiving ∧
    ((writer { writing with state := .closing }).ctx .c0).ending = none ∧
    ((writer { writing with state := .committing, commit := .attempting }).ctx .c0).commit = .attempting ∧
    purposeWaits (.ctxCommit .c0) (writer { writing with state := .committing, commit := .attempting }) = false ∧
    ((writer { writing with state := .committing, commit := .switched }).ctx .c0).ending = none := by decide +kernel
theorem hyp_Abandon_granted : claimRuns (.ctx .c0) (engine .busy (some (claim 0 (.ctxData .c0) .program 3 (.bytes 1 64 [0]))) []) = true := by decide +kernel
theorem hyp_Abandon_committing :
    ((writer { writing with state := .committing, commit := .waiting }).ctx .c0).commit = .waiting ∧
    purposeWaits (.ctxCommit .c0) { writer { writing with state := .committing, commit := .attempting } with
      pee := { calm.pee with claims := [claim 0 (.ctxCommit .c0) .mark 3 (.bytes 3 55 [0x00])] } } = true := by decide +kernel
/-- R103: a commit that waits for its slot's record ends at once under ABANDON. -/
theorem test_abandon_waiting : (after (.abandon 4 0 0) (on (writer { writing with state := .committing, commit := .waiting }))).map
    (fun p => (p.wcu.c0.state, p.link.replies.map (fun r => (r.kind, r.status)))) = some (.ended, [(0x07, .ok), (0x20, .abandoned)]) := by
  decide +kernel
theorem hyp_Restart_keeps : (holding calm).sdr.directory ≠ [] ∧ calm.mounted = true ∧
    (∀ c, (({ writer writing with scu := { calm.scu with store := .formatting } } : Part).ctx c).owned = none) ∧ calm.scu.runner = none ∧
    (∃ p : Part, p.scu.runner ≠ none ∧ ∃ b, p.pee.batch = some b ∧ b.forFormat = true) :=
  ⟨by decide +kernel, by decide, fun c => by cases c <;> rfl, rfl,
    { calm with scu := { calm.scu with runner := some { position := 0, level := 3, age := 0, notes := 0, stopped := false } }
                pee := { calm.pee with batch := some { batch false false with forFormat := true } } }, by decide, _, rfl, rfl⟩
/-- R58, R104: a RESTART of a part with an open context and a queued request. -/
theorem test_restart : (after (.restart 4 0) (on { holding (writer writing) with rqs := (queued (.read 7 0 1) false).rqs })).map
    (fun p => (p.wcu.c0.state, p.rqs.queue, p.sdr.directory, p.link.replies.map (·.payload))) = some (.idle, [], [slot7], [[1, 1]]) := by
  decide +kernel
theorem hyp_Restart_ends : (writer writing).wcu.c0.isOpen = true ∧ claimRuns (.ctx .c0) (writer writing) = false ∧
    ((writer { writing with state := .ended }).ctx .c0).state ≠ .idle ∧ (extending 4 4).owned = some 0 ∧
    (∀ j < 5, ((mapped [sec .owned 32 0 (some (.ctx .c0))] none (writer (extending 4 4))).sector j).owner = some (.ctx .c0) → j = 0) ∧
    (extending 4 4).pendingIn 0 = 36 := by decide +kernel
/-- A context with both buffers filled whose data PROGRAM runs. -/
def programming : Part :=
  { writer { extending 0 256 with bufX := buffer 0, bufY := buffer 0 } with
    pee := (engine .busy (some (claim 0 (.ctxData .c0) .program 3 (.bytes 0 64 [0]))) []).pee }
theorem hyp_Restart_carried : programming.listens ∧ (programming.ctx .c0).isOpen = true ∧ claimRuns (.ctx .c0) programming = true :=
  ⟨⟨rfl, nofun⟩, rfl, rfl⟩
/-- R104: a context that RESTART ends at its operation's completion has both buffers EMPTY from then on. -/
theorem test_restart_empties_buffers : (programming.ctx .c0).credit = 0 ∧ (after (.restart 4 0) (on programming)).map
    (fun p => (p.wcu.c0.state, p.wcu.c0.ending, p.wcu.c0.credit)) = some (.receiving, some .byRestart, 2) := by decide +kernel
/-- `calm` with a DELETE of slot 7 after a failed attempt, and claims of every kind of owner. -/
def restartable (u : Purpose) : Part :=
  { serving (.delete 7) { served .delete with attempts := 1 } [elemAt 32] with
    wcu := (writer writing).wcu
    pee := { calm.pee with nextAge := 9, claims := [claim 0 u .read 3 (.runs []), claim 1 (.ctxData .c0) .program 3 (.bytes 1 64 [0]),
      claim 2 (.obsolete 9 1) .mark 3 (.bytes 1 56 [0]), claim 3 (.suspectMark 2 1) .mark 0 (.bytes 2 30 [0]),
      claim 4 .reclaimErase .erase 0 .openBatch, claim 5 .runnerRead .read 3 (.runs []), claim 6 .formatErase .erase 3 (.sectors [1])] } }
theorem hyp_Restart_claims : ((restartable (.deleteMark 0)).sdr.serving.map (·.age)).Nodup ∧ 1 ≤ calm.pee.preempt ∧
    (restartable (.deleteReadBack 0)).carriesDelete { served .delete with attempts := 1 } ∧
    ¬ (restartable (.deleteMark 0)).carriesDelete { served .delete with attempts := 1 } ∧
    ((restartable (.deleteMark 0)).ctx .c0).isOpen = true ∧ claimRuns (.ctx .c0) (restartable (.deleteMark 0)) = false := by
  unfold Part.carriesDelete
  decide +kernel
/-- R36, R82, R104: what RESTART withdraws, keeps and raises: the context's claim goes, a DELETE's with its read-back not raised goes
and its head's sector is suspect, marked at 9 and evacuated at 10. -/
theorem test_restart_claims :
    (after (.restart 4 0) (on { restartable (.deleteReadBack 0) with pee := { (restartable (.deleteReadBack 0)).pee with
      state := .busy, op := some (claim 7 .runnerFirst .program 3 (.bytes 1 64 [0])) } })).map (fun p => p.pee.claims.map (·.age)) = some [0, 2, 3, 4, 5, 6] ∧
    (after (.restart 4 0) (on { restartable (.deleteMark 0) with pee := { (restartable (.deleteMark 0)).pee with
      state := .busy, op := some (claim 7 .runnerFirst .program 3 (.bytes 1 64 [0])) } })).map (fun p => (p.pee.claims.map (·.age), (p.sector 3).suspect))
        = some ([2, 3, 4, 5, 6, 9, 10], true) := by decide +kernel
theorem hyp_Restart : State.reset.part.listens ∧ State.reset.part.scu.store = .scanning ∧ calm.listens ∧ calm.scu.store ≠ .scanning :=
  ⟨⟨rfl, nofun⟩, rfl, calm_listens, by decide +kernel⟩
theorem hyp_DataIsChecked : ¬ ((calm.ctx .c0).state = .receiving) ∧ (257 : Nat) ≠ ((writer writing).ctx .c0).received ∧
    (((writer { writing with bufX := { Buffer.cold with state := .filled } }).ctx .c0).buf .x).state ≠ .empty ∧
    (256 : BitVec 24).toNat + (List.replicate 256 (0 : Byte)).length ≤ writing.total := by decide +kernel
theorem hyp_DataFillsBuffer : (writer writing).listens ∧ ((writer writing).ctx .c0).state = .receiving ∧
    (256 : BitVec 24).toNat = writing.received ∧ (256 : Nat) + 256 ≤ writing.total ∧ (writing.buf writing.fillNext).state = .empty ∧
    (4999 : BitVec 24).toNat + [(1 : Byte)].length = { writing with received := 4999 }.total :=
  ⟨calm_listens, by decide +kernel⟩
theorem hyp_QueuedRequests : (8 : Byte).toNat = 8 ∧ (List.replicate 4 (⟨512, 1⟩ : PlanEntry)).length = 4 ∧
    (calm.rqs.queue.length < 16 ∧ calm.places < 16 - calm.rqs.reserve) ∧
    ¬ ({ calm with rqs := { calm.rqs with queue := List.replicate 16 (entry (.read 7 0 1) false) } } : Part).rqs.queue.length < 16 := by
  decide +kernel
theorem hyp_Eligibility : (entry (.verify 7) false).active = false ∧
    (queued (.format 1 [(512, 1)]) true).rqs.queue.any (fun d => d.active && d.request.long) = true ∧
    calm.entryOf 7 = none ∧ ((holding calm).entryOf 7).isSome = true := by decide +kernel
theorem hyp_ActivationOrder : (queued (.read 7 0 1) false).ages.Pairwise (· < ·) ∧ activeCount (queued (.read 7 0 1) false) < 4 ∧
    eligible (queued (.read 7 0 1) false) (entry (.read 7 0 1) false) = true ∧
    4 ≤ activeCount { calm with rqs := { calm.rqs with queue := List.replicate 4 (entry (.delete 7) true) } } := by decide +kernel
theorem hyp_ActivationOrder_validated : validate (.read 7 0 1) (queued (.read 7 0 1) false) = some .noSlot ∧
    (queued (.read 7 0 1) false).queueEntry (entry (.read 7 0 1) false).age = some (entry (.read 7 0 1) false) ∧
    (queued (.read 7 0 1) false).link.held = [] ∧ validate (.read 7 0 1) (holding (queued (.read 7 0 1) false)) = none := by decide +kernel
/-- R153: a request that fails validation is answered in its place and leaves; one that passes is ACTIVE in its owner's hands. -/
theorem test_activation :
    (let q := activate (entry (.read 7 0 1) false) (queued (.read 7 0 1) false)
     (q.rqs.queue, q.link.replies)) =
      ([], [{ kind := 0x21, tag := 5, status := .noSlot, notes := 0, payload := [], place := .queued }]) ∧
    (let q := activate (entry (.read 7 0 1) false) (holding (queued (.read 7 0 1) false))
     (q.rqs.queue.map (·.active), q.sdr.serving.map (·.slot))) = ([true], [7]) := by decide +kernel
theorem hyp_LowestFailingCode : validate (.read 0 0 0) calm = some .badField ∧ validate (.read 0 0 0) Part.cold = some .notReady ∧
    validate (.list 0 1) calm = none := by decide +kernel
theorem hyp_ClassCheck : calm.entryOf 7 = none ∧ (holding calm).entryOf 7 = some slot7 ∧ (holding calm).mli.level = false ∧
    requestClass (.delete 7) (holding calm) = .refused ∧
    requestClass (.format 1 [(512, 1)]) (holding calm) = .refused ∧
    (∀ c ∈ checks (.delete 7) (holding calm), c.2.code.toNat < 0x34 → c.1 = true) := by decide +kernel
/-- R94: a WRITE of no bytes opens CLOSING and starts its head. -/
theorem test_write_empty : (after (.write 5 3 9 0 1 0) (on calm)).map (fun p => (p.wcu.c0.state, p.wcu.c0.cls, p.pee.op.map (·.purpose)))
    = some (.closing, .opened, some (.ctxFirst .c0)) := by decide +kernel
theorem hyp_WriteOpensContext_more : SlotClass.fixed.code.toNat = 3 ∧ (holding (queued (.write 7 0 3 0) true)).entryOf 7 = some slot7 ∧
    claimOutstanding (.ctx .c0) calm = false ∧ isWaiting .c0 calm = false ∧ (7 : Nat) ≠ 9 := by decide +kernel
theorem hyp_WriteOpensContext : idleCtx (queued (.write 9 0 1 1) true) = some .c0 ∧
    (queued (.write 9 0 1 1) true).queueEntry 0 = some (entry (.write 9 0 1 1) true) ∧
    (queued (.write 9 0 1 1) true).link.held = [] ∧ idleCtx (writer writing) = some .c1 := by decide +kernel
theorem hyp_ReadRuns : Memory.wf [(12352, 1)] = true ∧ (35 : Nat) ≤ 36 ∧ 36 ≤ (slot7.extents.map (·.length)).sum := by decide +kernel
theorem hyp_ListIsAnswered : (queued (.list 0 20) true).queueEntry 0 = some (entry (.list 0 20) true) ∧
    (queued (.list 0 20) true).link.held = [] := by decide +kernel
theorem hyp_FormatRuns_handOver : (entry (.format 1 [(512, 1)]) true).request = .format 1 [(512, 1)] ∧
    ¬ (calm.scu.store = .blank ∧ calm.smp.zones = []) ∧ (blankFromScan scan).scu.store = .blank ∧ scan.smp.zones = [] ∧
    scan.scu.records[1]?.map (·.cls) = some .blankErased ∧ scan.scu.records[3]?.map (·.cls) = some .bad ∧
    calm.smp.sectors[3]? = some (sec .sealed 4096 68 none) ∧ calm.rcu.step = none ∧ 3 ∉ batchSectors calm := by decide +kernel
/-- `calm` in the midst of a FORMAT, its entry's ABORT waiting or not. -/
def formatting (f : FormatRun) (aborted : Bool) : Part :=
  { calm with scu := { calm.scu with store := .formatting, runner := some f }
              rqs := { calm.rqs with queue := [{ entry (.format 1 [(512, 1)]) true with abortWaits := aborted }] } }
theorem hyp_FormatRuns_runner :
    (let p := formatting (formatter 5 false) false
     p.scu.runner = some (formatter 5 false) ∧ claimOutstanding .scan p = false ∧ p.pee.batch = none ∧ p.rcu.step = none ∧
     p.queueEntry 0 = some (entry (.format 1 [(512, 1)]) true) ∧ p.smp.sectors.length = 5 ∧ p.link.conds[0]? ≠ none) ∧
    (formatter 4 true).stopped = true ∧ ((formatting (formatter 4 false) true).sector 4).state ≠ .bad ∧
    (formatting (formatter 4 false) true).queueEntry 0 = some { entry (.format 1 [(512, 1)]) true with abortWaits := true } ∧
    claimOutstanding .scan (engine .busy none [claim 0 .formatErase .erase 3 (.sectors [0])]) = true := by decide +kernel
/-- Slot 7 present, a READ of it served with its operation granted and a VERIFY with its claim waiting. -/
def formatUnder : Part :=
  { holding (engine .busy (some (claim 0 (.readSlot 0) .read 3 (.runs []))) [claim 1 (.verifyStep 1) .read 3 (.runs [])]) with
    sdr := { calm.sdr with directory := [slot7], serving := [served .read, { served .verify with age := 1 }], retiring := [record7 1] }
    rqs := { calm.rqs with queue := [entry (.read 7 0 36) true, { entry (.verify 7) true with age := 1 }], nextAge := 2 } }
theorem hyp_FormatRuns_served : (formatUnder.sdr.serving.map (·.age)).Nodup ∧ claimRuns (.serving 0) formatUnder = true ∧
    claimRuns (.serving 1) formatUnder = false ∧ (formatUnder.queueEntry 1).isSome = true ∧ formatUnder.sdr.retiring ≠ [] := by decide +kernel
/-- R118, R177: the served requests at the hand-over of a FORMAT. -/
theorem test_format_served :
    (let q := handOver { entry (.format 1 [(512, 1)]) true with age := 7 } formatUnder
     ((q.sdr.serving.map (fun r => (r.age, r.gone)), q.rqs.queue.map (·.age), q.pee.claims), q.link.replies.map (fun r => (r.kind, r.status, r.payload))))
      = (([(0, true)], [0], []), [(0x24, .noSlot, [0, 7])]) := by decide +kernel
/-- R178, R179: the next batch, the end OK, and the end under an ABORT. -/
theorem test_format_runs :
    ((formatReact (formatting (formatter 1 false) false)).map (fun p => p.pee.claims.map (·.target))) = some [.sectors [1, 2, 3, 4]] ∧
    ((formatReact (formatting (formatter 5 false) true)).map (fun p => (p.scu.store, p.link.replies.map (·.status)))) = some (.mounted, [.ok]) ∧
    ((formatReact (formatting (formatter 4 false) true)).map (fun p => (p.scu.store, p.link.replies.map (·.status)))) = some (.blank, [.aborted]) ∧
    ((formatReact (formatting (formatter 4 true) false)).map (fun p => (p.scu.store, p.link.replies))) = some (.blank, []) := by
  decide +kernel
theorem hyp_CommitSwitches : (writer writing).entryOf writing.slot = none ∧ (holding (writer writing)).entryOf writing.slot = some slot7 ∧
    slot7.extents ≠ [] := by decide +kernel
/-- Slot 7 open for context 0, its head moved by the runner's step or not. -/
def superseding (moves : Bool) : Part :=
  let p := writer { writing with written := [{ sector := 0, offset := 32, length := 36 }] }
  { p with sdr := { p.sdr with directory := [{ slot7 with openCtx := some .c0, relocating := moves }] }
           rcu := { p.rcu with step := if moves then some { moving .evacuation 36 2 with phase := .discarding } else none } }
theorem hyp_CommitSwitches_record : (superseding false).ascending ∧ (superseding false).retiringOf 7 slot7.sequence = none ∧
    (∀ b, ((superseding b).ctx .c0).ending ≠ some .byRestart) ∧ (moving .evacuation 36 2).slot = writing.slot ∧
    (moving .evacuation 36 2).sequence = slot7.sequence ∧ (moving .evacuation 36 2).index = 0 := by
  unfold Part.ascending
  decide +kernel
theorem hyp_CommitSwitches_ends : ((writer writing).ctx .c0).ending ≠ some .byRestart ∧ (writer writing).entryOf 7 = none ∧
    ((superseding false).entryOf 7).map (fun e => e.extents.isEmpty) = some false ∧
    ((writer { writing with ending := some .byRestart }).ctx .c0).ending = some .byRestart := by decide +kernel
/-- R96, R104: the committing context after the switch: ended with OK, COMMITTING, or IDLE without a reply after a RESTART. -/
theorem test_commit_ends :
    (let q := commitSwitch .c0 (writer { writing with state := .committing, commit := .attempting })
     (q.wcu.c0.state, q.link.replies.map (fun r => (r.status, r.place)))) = (.ended, [(.ok, .ending .c0)]) ∧
    (let q := commitSwitch .c0 { superseding false with wcu := (writer { writing with state := .committing, commit := .attempting }).wcu }
     (q.wcu.c0.state, q.wcu.c0.commit, q.link.replies)) = (.committing, .switched, []) ∧
    (let q := commitSwitch .c0 { superseding false with wcu := (writer { writing with state := .committing, ending := some .byRestart }).wcu }
     (q.wcu.c0.state, q.sdr.retiring.map (·.waiting), q.link.replies)) = (.idle, [none], []) := by decide +kernel
/-- R29, R31: the record's first claim is raised on the old head, or deferred while a step has it. -/
theorem test_commit_record :
    (commitSwitch .c0 (superseding false)).pee.claims.map (fun c => (c.purpose, c.level, c.target)) = [(.obsolete 7 2, 3, .bytes 3 56 [0x00])] ∧
    (commitSwitch .c0 (superseding false)).sdr.retiring.map (fun r => (r.attempts, r.waiting, r.deferred)) = [(1, some .c0, false)] ∧
    (commitSwitch .c0 (superseding true)).pee.claims = [] ∧
    (commitSwitch .c0 (superseding true)).sdr.retiring.map (fun r => (r.attempts, r.waiting, r.deferred)) = [(0, some .c0, true)] := by
  decide +kernel
theorem hyp_CommitSwitches_deferred :
    (commitSwitch .c0 (superseding true)).rcu.step = some { moving .evacuation 36 2 with phase := .discarding } ∧
    ((commitSwitch .c0 (superseding true)).retiringOf 7 2).map (·.deferred) = some true ∧
    (commitSwitch .c0 (superseding true)).mounted = true ∧ 1 < (superseding true).smp.sectors.length := by decide +kernel
/-- R31: a deferred claim is raised at the step's end, on the copy that the step leaves chosen. -/
theorem test_deferred_claim :
    (let q := writeEnded .runnerDiscard 3 57 { ok := false, good := [] } (commitSwitch .c0 (superseding true))
     ((q.pee.claims.filter (fun c => c.purpose = .obsolete 7 2)).map (·.target), (q.sector 1).retiring)) = ([.bytes 1 56 [0x00]], 68) ∧
    ((endStep false (commitSwitch .c0 (superseding true))).pee.claims.map (·.target)) = [.bytes 3 56 [0x00]] := by decide +kernel
/-- R25: a slot's first entry stands in its place. -/
theorem test_entry_joins_in_order : ((commitSwitch .c0 { writer { writing with slot := 5 } with sdr := { calm.sdr with
    directory := [{ slot7 with slot := 2 }, slot7] } }).sdr.directory.map (·.slot)) = [2, 5, 7] := by decide +kernel
theorem hyp_Cut_program : (engine .busy (some programOp) []).run = .running ∧ (engine .busy (some programOp) []).pee.batch = none ∧
    Inside 511 3840 256 ∧ ∃ t, exec (.resetAsserted [] []) (on (engine .busy (some programOp) [])) = .next t :=
  ⟨rfl, rfl, ⟨by decide, by decide⟩, _, rfl⟩
theorem hyp_Cut_read : (engine .busy (some readOp) []).pee.batch = none ∧
    ∃ t, exec (.lossOfPower [] []) (on (engine .busy (some readOp) [])) = .next t := ⟨rfl, _, rfl⟩
theorem hyp_PartStops : ({ calm with link := { calm.link with transaction := .active 4 none } } : Part).run = .running := rfl
theorem hyp_MaintPin : true ≠ calm.mli.pin ∧ true ≠ calm.mli.level ∧
    (false ≠ (⟨true, false, some 4999⟩ : Mli).pin ∧ false = (⟨true, false, some 4999⟩ : Mli).level) := by decide
theorem hyp_Debounce : ({ calm with mli := ⟨true, false, some 4999⟩ } : Part).mli.timer = some 4999 := rfl
theorem hyp_GrantOrder : bestClaim ((engine .idle none [programOp, { markOp with age := 1, level := 3 }]).pee.claims.filter
    (clearOfBatch calm)) = some { markOp with age := 1, level := 3 } := by decide +kernel
theorem hyp_GrantOrder_still : calm.pee.state = .idle ∧ calm.pee.claims.filter (clearOfBatch calm) = [] ∧
    (engine .busy (some readOp) []).pee.state ≠ .idle ∧ (engine .busy (some readOp) []).pee.state ≠ .suspended := by decide +kernel
/-- The close of an event: an admitted READ is activated and its claim granted; with nothing to react the part is as it was. -/
theorem test_close : react calm = none ∧ closeEvent calm = calm ∧
    (closeEvent (holding (queued (.read 7 0 36) false))).pee.op.map (·.purpose) = some (.readSlot 0) := by decide +kernel

/-- An open batch of sectors 2 and 1 with its ERASE claim raised. -/
def openB : Part :=
  { engine .idle none [claim 0 .reclaimErase .erase 0 .openBatch] with
    rcu := { calm.rcu with openBatch := some { zone := 0, sectors := [2, 1], window := none, raised := true } } }

theorem hyp_EraseGrant : openB.pee.state = .idle ∧
    bestClaim (openB.pee.claims.filter (clearOfBatch openB)) = some (claim 0 .reclaimErase .erase 0 .openBatch) ∧
    (∀ i ∈ [2, 1], i < openB.smp.sectors.length) := by decide +kernel
/-- A FORMAT's ERASE claim for sectors 1 and 2, and a SUSPECT mark's claim for sector 2, which is suspect. -/
def formatE : Part :=
  { mapped [sec .free 32 0 none, sec .stale 4096 0 none, { sec .stale 4096 0 none with suspect := true }] none
      (engine .idle none [claim 0 .formatErase .erase 3 (.sectors [1, 2]), claim 1 (.suspectMark 2 1) .mark 0 (.bytes 2 30 [0x00])]) with
    scu := { calm.scu with store := .formatting, format := 2 } }
theorem hyp_EraseGrant_format : formatE.pee.state = .idle ∧ bestClaim (formatE.pee.claims.filter (clearOfBatch formatE))
    = some (claim 0 .formatErase .erase 3 (.sectors [1, 2])) := by decide +kernel
/-- R47, R67, R178: what the grant of a FORMAT's ERASE makes of the engine and the map. -/
theorem test_format_grant :
    (grantNow formatE).pee.state = .erasing ∧ (grantNow formatE).pee.claims = [] ∧
    (grantNow formatE).smp.sectors.map (·.state) = [.free, .erasing, .erasing] ∧
    (grantNow formatE).pee.batch.map (fun b => b.sectors.map (fun x => (x.sector, x.bad, x.count))) = some [(1, false, 1), (2, true, 1)] ∧
    (grantNow formatE).pee.batch.map (·.forFormat) = some true := by decide +kernel
theorem hyp_SuspensionStarts : (batching .erasing (batch false false)).pee.state = .erasing ∧
    1 ≤ (batching .erasing (batch false false)).pee.budget ∧ Preempts 4 .mark 4 ∧ ¬ Preempts 4 .program 3 ∧ calm.pee.state ≠ .erasing :=
  ⟨rfl, by decide, .inr ⟨.inl rfl, by decide⟩, by unfold Preempts; decide, by decide⟩
theorem hyp_ReadComplete : (engine .busy (some readOp) []).pee.op = some readOp ∧ readOp.kind = .read ∧ Inside 511 0 4096 ∧
    readOp.target = .runs [{ sector := 511, offset := 0, length := 4096 }] := ⟨rfl, rfl, ⟨by decide, by decide⟩, rfl⟩
theorem hyp_Programs : (engine .busy (some programOp) []).pee.op = some programOp ∧ programOp.kind = .program ∧ Inside 511 3840 256 ∧
    markOp.kind = .mark ∧ Inside 1 30 1 := ⟨rfl, rfl, ⟨by decide, by decide⟩, rfl, by decide, by decide⟩
theorem hyp_Timeouts : ∀ b, (engine .busy (some programOp) []).pee.batch = some b → b.headers = false := nofun
theorem hyp_HeaderWrites_first : (batch true false).sectors.find? (fun y => !y.done) = (batch true false).sectors.head? ∧
    Inside 1 0 (sectorHeaderBytes 1 0 1 [(512, 1)] false).length := ⟨by decide +kernel, by decide, by decide +kernel⟩
theorem hyp_HeaderWrites_last : ((batch true true).sectors.find? (fun y => !y.done)).map (·.sector) = some 2 := by decide +kernel
theorem hyp_BatchCompletes :
    (let p := batching .busy { batch true true with sectors := [{ (batch true true).sectors[0] with headerOk := false }] }
     p.link.conds.length = 8 ∧ p.mounted = true ∧ (∀ z ∈ p.smp.zones, z.waiting = []) ∧ (∀ c, (p.ctx c).owned ≠ some 1) ∧
     (∀ z ∈ p.smp.zones, z.tail ≠ some 1) ∧ (p.sector 1).countsZero = true ∧ 1 < p.smp.sectors.length ∧
     ((completeBatch p).sector 1).state = .bad ∧ (completeBatch p).rcu.eraseQueue = []) ∧
    ((batch true true).sectors.map (·.sector)).Nodup ∧ (mapped [sec .erasing 4096 0 none] none calm).smp.sectors.head?.map (·.state) = some .erasing ∧
    (formatting (formatter 0 false) false).scu.runner = some (formatter 0 false) ∧
    countState 0 .free (mapped [] none calm) < calm.smp.zones[0].lowWater :=
  ⟨⟨rfl, rfl, by decide, fun c => by cases c <;> decide, by decide +kernel⟩, by decide +kernel⟩
/-- `calm` with context 0 waiting in zone 0, over a sector table and a tail. -/
def awaiting (ss : List Sector) (t : Option Nat) (units : Nat) : Part :=
  { writer { writing with reservation := units } with
    smp := { sectors := ss, zones := calm.smp.zones.map (fun z => { z with tail := t, waiting := [.c0] }) } }
theorem hyp_BatchCompletes_takers :
    (awaiting [] none 0).zone 0 = some { calm.smp.zones[0] with tail := none, waiting := [.c0] } ∧ writing.written.length < 72 ∧
    lowestFree 0 (awaiting [sec .free 32 0 none] none 1) = some 0 ∧ 1 ≤ ((awaiting [sec .free 32 0 none] none 1).ctx .c0).reservation ∧
    ¬ reserved 0 (awaiting [sec .free 32 0 none] none 0) + 2 ≤ available 0 (awaiting [sec .free 32 0 none] none 0) ∧
    available 0 (awaiting [sec .sealed 4096 4 none] none 0) = 0 ∧ available 0 (awaiting [sec .stale 4096 0 none] none 0) ≠ 0 ∧
    lowestFree 0 (awaiting [sec .stale 4096 0 none] none 0) = none ∧ claimRuns (.ctx .c0) (awaiting [] none 0) = false := by decide +kernel
/-- R54: a waiting taker is answered from the TAIL, a FREE sector or with NO_SPACE, or goes on waiting. -/
theorem test_takers :
    (answerTaker 0 (awaiting [sec .tail 100 4 none] (some 0) 0)).map (fun p => (p.sector 0).owner) = some (some (.ctx .c0)) ∧
    (answerTaker 0 (awaiting [sec .free 32 0 none] none 1)).map (fun p => (p.wcu.c0.owned, p.wcu.c0.reservation)) = some (some 0, 0) ∧
    (answerTaker 0 (awaiting [sec .free 32 0 none] none 0)).map (fun p => p.link.replies.map (·.status)) = some [.noSpace] ∧
    (answerTaker 0 (awaiting [sec .stale 4096 0 none] none 0)).isNone = true := by decide +kernel
/-- Both contexts wait in a zone of which nothing can be freed; context 0, of level 3, wrote what sector 0 holds. -/
def bothAwaiting : Part :=
  { awaiting [{ sec .sealed 4096 0 none with pending := 68 }] none 0 with
    wcu := { c0 := { writing with written := [{ sector := 0, offset := 32, length := 36 }] }, c1 := { writing with level := 2 } }
    smp := { sectors := [{ sec .sealed 4096 0 none with pending := 68 }],
             zones := calm.smp.zones.map (fun z => { z with tail := none, waiting := [.c1, .c0] }) } }
theorem hyp_BatchCompletes_both : available 0 bothAwaiting = 0 ∧ claimRuns (.ctx .c0) bothAwaiting = false ∧
    claimRuns (.ctx .c1) bothAwaiting = false ∧ (bothAwaiting.zone 0).map (·.waiting) = some [.c1, .c0] := by decide +kernel
/-- R54: every waiting taker fails, though the first one's end makes a sector STALE. -/
theorem test_takers_all_fail : (takersReact bothAwaiting).map (fun p => (p.link.replies.map (fun r => (r.status, r.place)), p.smp.sectors.map (·.state)))
    = some ([(.noSpace, .ending .c0), (.noSpace, .ending .c1)], [.stale]) := by decide +kernel
theorem hyp_BatchCompletes_sector : ∃ x y z : BatchSector, (x.erased = true ∧ x.headerOk = true ∧ x.bad = false) ∧
    (y.erased = true ∧ y.headerOk = false) ∧ z.erased = false :=
  ⟨⟨1, [], 1, false, true, true, true⟩, ⟨1, [], 1, false, true, true, false⟩, ⟨1, [], 1, true, false, true, true⟩, by decide⟩
theorem hyp_ErasePhaseEnds : (batching .erasing (batch false false)).pee.batch = some (batch false false) ∧
    (batching .suspending (batch false false)).pee.state = .suspending := ⟨rfl, rfl⟩
theorem hyp_SuspensionTakesHold : (batching .suspending (batch false false)).pee.claims = [] ∧
    (engine .suspending none [readOp]).pee.claims.filter
      (fun c => clearOfBatch (engine .suspending none [readOp]) c && preempting 4 c) ≠ [] := by decide +kernel
/-- R77: the claim granted at the completion of a suspension gains the note when it was not the cause. -/
theorem test_grant_in_suspension :
    (let p := { engine .suspending none [claim 1 (.ctxData .c0) .program 4 (.bytes 0 64 [0])] with wcu := (writer writing).wcu }
     (after .suspendComplete (on p)).map (fun q => (q.pee.state, servedNotes (.ctxData .c0) q))) = some (.suspendedBusy, some 0x01) := by
  decide +kernel
/-- R75 to R77: the look after an operation in a suspension: the next preempting claim, whose request gains the note, or the erase. -/
theorem test_look_in_suspended :
    (let p := { engine .suspended none [claim 1 (.ctxData .c0) .program 4 (.bytes 0 64 [0])] with wcu := (writer writing).wcu }
     ((grantNow p).pee.state, servedNotes (.ctxData .c0) (grantNow p))) = (.suspendedBusy, some 0x01) ∧
    (grantNow (engine .suspended none [])).pee.state = .erasing := by decide +kernel
theorem hyp_SuspensionTakesHold_cause : servedNotes (.ctxData .c0) (writer writing) = some 0 ∧ servedNotes (.readSlot 0)
    (serving (.read 7 0 36) (served .read) []) = some 0 ∧ servedNotes (.obsolete 7 1) (retiring7 1) = some 0 ∧
    servedNotes .runnerData (running { calm.rcu with job := some compacting, step := some (moving .compact 0 0) }) = some 0 ∧
    servedNotes .reclaimErase calm = none ∧
    ([readOp].find? (fun c => c.age = 0)) = some readOp := by decide +kernel
theorem hyp_WindowExpiry_level : ∃ z, (awaiting [] none 0).zone 0 = some z ∧ .c0 ∈ z.waiting := ⟨_, rfl, by decide⟩
theorem hyp_WindowExpiry : ({ zone := 0, sectors := [1], window := some 299, raised := false } : OpenBatch).window = some 299 := rfl
/-- An erase queue of `n` sectors of zone 0 after one of zone 1, number 9 the oldest of zone 0. -/
def gathering (queue : List Nat) : Part :=
  { calm with smp := { calm.smp with sectors := { sec .stale 4096 0 none with zone := 1 } :: List.replicate 10 (sec .stale 4096 0 none) }
              rcu := { calm.rcu with eraseQueue := queue } }
/-- The open batch of zone 0 with `n` sectors, in `gathering []`. -/
def gathered (ss : List Nat) (raised : Bool) : Part :=
  { gathering [] with rcu := { calm.rcu with openBatch := some { zone := 0, sectors := ss, window := some 7, raised := raised } } }
theorem hyp_OpenBatch : (gathering [9, 0, 1]).mounted = true ∧ (gathering [9, 0, 1]).rcu.openBatch = none ∧ (gathering [9, 0, 1]).pee.batch = none ∧
    ([9, 0, 1].filter (fun j => ((gathering [9, 0, 1]).sector j).zone = 0)).length < 8 ∧
    8 ≤ ([9, 0, 1, 2, 3, 4, 5, 6, 7, 8].filter (fun j => ((gathering []).sector j).zone = 0)).length ∧
    (gathered [1, 2, 3, 4, 5, 6, 7] false).rcu.openBatch.map (·.sectors.length) = some 7 ∧ ((gathered [] true).sector 9).zone = 0 ∧
    ((mapped [sec .sealed 4096 0 none] none calm).sector 0).state = .sealed ∧
    ({ calm with scu := { calm.scu with store := .formatting } } : Part).mounted = false ∧ (batch true true).forFormat = false := by decide +kernel
theorem hyp_OpenBatch_emptied : (mapped [sec .sealed 4096 0 none] none calm).emptied 0 := ⟨rfl, rfl, rfl, nofun⟩
/-- R122, R124: the oldest sector's zone-mates join it in queue order up to 8, which raises the claim at once. -/
theorem test_batch_opens :
    ((openBatch (gathering [9, 0, 1])).rcu.openBatch, (openBatch (gathering [9, 0, 1])).rcu.eraseQueue)
      = (some { zone := 0, sectors := [9, 1], window := some 0, raised := false }, [0]) ∧
    ((openBatch (gathering [9, 0, 1, 2, 3, 4, 5, 6, 7, 8])).rcu.openBatch, (openBatch (gathering [9, 0, 1, 2, 3, 4, 5, 6, 7, 8])).rcu.eraseQueue)
      = (some { zone := 0, sectors := [9, 1, 2, 3, 4, 5, 6, 7], window := none, raised := true }, [0, 8]) ∧
    (openBatch (gathering [9, 0, 1, 2, 3, 4, 5, 6, 7, 8])).pee.claims.map (fun c => (c.purpose, c.kind, c.target)) = [(.reclaimErase, .erase, .openBatch)] := by
  decide +kernel
/-- R123, R124: a STALE sector joins the open batch of its zone, the eighth raises the claim; any other joins the queue. -/
theorem test_batch_joins :
    (joinErase 9 (gathered [1, 2, 3, 4, 5, 6, 7] false)).rcu.openBatch
      = some { zone := 0, sectors := [1, 2, 3, 4, 5, 6, 7, 9], window := none, raised := true } ∧
    (joinErase 9 (gathered [1, 2, 3, 4, 5, 6, 7] false)).pee.claims.length = 1 ∧
    (joinErase 9 (gathered [1, 2, 3, 4, 5, 6, 7] true)).pee.claims = [] ∧
    (joinErase 9 (gathered [1] false)).rcu.openBatch = some { zone := 0, sectors := [1, 9], window := some 7, raised := false } ∧
    (joinErase 0 (gathered [1] false)).rcu.eraseQueue = [0] ∧
    (joinErase 9 (gathered [1, 2, 3, 4, 5, 6, 7, 8] true)).rcu.eraseQueue = [9] := by decide +kernel
/-- R79: the waiting ERASE claim takes the level of its zone's waiting taker, and keeps its age. -/
theorem test_erase_follows : (followTakers { openB with wcu := (awaiting [] none 0).wcu, smp := (awaiting [] none 0).smp }).pee.claims
    = [claim 0 .reclaimErase .erase 3 .openBatch] ∧ (followTakers openB).pee.claims = openB.pee.claims := by decide +kernel
theorem hyp_EngineEvents : ∃ t, exec .readComplete (on (engine .busy (some readOp) [])) = .next t := ⟨_, rfl⟩

/-- `calm` with sector 0 owned by the runner. -/
def givingUp (nextWrite : Nat) (tail : Option Nat) : Part :=
  { calm with smp := { sectors := sec .owned nextWrite 0 (some .runner) :: calm.smp.sectors.tail,
                       zones := calm.smp.zones.map (fun z => { z with tail := tail }) } }

theorem hyp_SectorMapRules_giveUp : (givingUp 4032 none).mounted = true ∧ ((givingUp 4032 none).sector 0).room = 64 ∧
    (givingUp 4032 none).zone ((givingUp 4032 none).sector 0).zone = some { calm.smp.zones[0] with tail := none } ∧
    ((givingUp 32 (some 4)).sector 4).room < ((givingUp 32 (some 4)).sector 0).room ∧
    ((givingUp 1000 (some 4)).sector 0).room ≤ ((givingUp 1000 (some 4)).sector 4).room ∧
    ((givingUp 4033 none).sector 0).room < 64 ∧ ((givingUp 4033 none).sector 0).countsZero = true ∧
    (calm.sector 4).countsZero = false := by decide +kernel
/-- R45, R46: given up with too little room: STALE with nothing in it, SEALED with live bytes. -/
theorem test_give_up_full : ((giveUp 0 (givingUp 4033 none)).sector 0).state = .stale ∧
    ((giveUp 0 (mapped [sec .owned 4033 4 (some .runner)] none calm)).sector 0).state = .sealed := by decide +kernel
theorem hyp_SectorMapRules_takes :
    (writer writing).zone 0 = some calm.smp.zones[0] ∧ calm.smp.zones[0].tail = some 4 ∧ 4 < calm.smp.sectors.length ∧
    (let p := mapped [sec .free 32 0 none, sec .free 32 0 none] none (writer writing)
     reserved 0 p + 2 = available 0 p ∧ lowestFree 0 p = some 0) ∧
    (let p := mapped [sec .stale 4096 0 none] none (writer { writing with reservation := 1 })
     1 ≤ (p.ctx .c0).reservation ∧ lowestFree 0 p = none) ∧
    (let p := mapped [sec .free 32 0 none] none (writer writing)
     ¬ 1 ≤ (p.ctx .c0).reservation ∧ ¬ reserved 0 p + 2 ≤ available 0 p ∧ (takeForRunner 0 p).1 = some 0 ∧
     ((takeForRunner 0 p).2.zone 0).map (·.spareInUse) = some true) := by decide +kernel
/-- R52, R55: a zone with one available sector and reservations of 2 and 1. -/
def short (spare : Bool) : Part :=
  { calm with
    wcu := { c0 := { writing with reservation := 2 }, c1 := { writing with reservation := 1, sequence := 4 } }
    smp := { sectors := [sec .free 32 0 none], zones := calm.smp.zones.map (fun z => { z with tail := none, spareInUse := spare }) } }
theorem hyp_SectorMapRules_cut : reserved 0 (short false) + 1 - available 0 (short false) = 3 ∧
    reserved 0 (short true) - available 0 (short true) = 2 ∧ (CtxId.c1 ≠ .c0) ∧
    ((short true).ctx .c1).level = ((short true).ctx .c0).level ∧ ((short true).ctx .c0).sequence < ((short true).ctx .c1).sequence ∧
    (let q := cutReservations 0 (short true)
     (q.wcu.c0.reservation, q.wcu.c1.reservation) = (1, 0)) ∧
    spareReact (short true) = none ∧
    (spareReact { short true with wcu := calm.wcu }).map (fun q => q.smp.zones.map (·.spareInUse)) = some [false] := by decide +kernel
theorem hyp_SectorMapRules_seals :
    (calm.sector 3).state = .sealed ∧ (calm.sector 3).countsZero = false ∧ 0 < (calm.sector 3).live ∧
    ((mapped [sec .sealed 4096 0 none] none calm).sector 0).countsZero = true ∧ calm.link.conds.length = 8 ∧
    (calm.sector 4).state = .tail ∧ ((givingUp 32 none).sector 0).owner = some .runner ∧ ((givingUp 32 none).sector 0).state = .owned ∧
    extentOpen 0 (givingUp 32 none) = false ∧ ((givingUp 32 none).sector 0).owner = some .runner ∧
    extentOpen 0 (mapped [sec .owned 32 0 (some (.ctx .c0))] none (writer (extending 0 0))) = true := by decide +kernel
/-- R42, R48: a sector that is FREE when it becomes suspect is STALE at once, and joins the erase queue (log 50). -/
theorem test_free_suspect :
    (((makeSuspect 0 none calm).sector 0).state, ((makeSuspect 0 none calm).sector 0).suspect, (makeSuspect 0 none calm).rcu.openBatch.map (·.sectors))
      = (.stale, true, some [0]) := by decide +kernel
/-- A zone whose spare is IN USE, with one FREE sector, a reservation of 1, and a full sector of nothing in the runner's hands. -/
def spareAway : Part :=
  { mapped [sec .owned 4096 0 (some .runner), sec .free 32 0 none, sec .sealed 4096 68 none, sec .sealed 4096 68 none] none
      (running { calm.rcu with owned := some 0, hold := some 0, step := some { moving .evacuation 0 0 with phase := .reading } }) with
    wcu := { calm.wcu with c0 := { writing with reservation := 1 } }
    smp := { sectors := [sec .owned 4096 0 (some .runner), sec .free 32 0 none, sec .sealed 4096 68 none, sec .sealed 4096 68 none],
             zones := calm.smp.zones.map (fun z => { z with tail := none, spareInUse := true }) } }
theorem hyp_SectorMapRules_spare : available 0 spareAway = 1 ∧ reserved 0 spareAway = 1 ∧ claimRuns (.ctx .c0) spareAway = false ∧
    (spareAway.zone 0).map (·.spareInUse) = some true := by decide +kernel
/-- R53, R130: the sector given up becomes STALE, the spare returns and lifts the hold, and the take of the same event is a spare take
again. -/
theorem test_spare_returns_in_event :
    (let p := readEnded .runnerRead extent7 spareAway
     (((giveUp 0 spareAway).zone 0).map (·.spareInUse), (giveUp 0 spareAway).rcu.hold, (p.sector 0).state, p.rcu.owned,
       (p.zone 0).map (·.spareInUse))) = (some false, none, .stale, some 1, some true) ∧
    (((endCtx .c0 .abandoned spareAway).zone 0).map (·.spareInUse) = some false) := by decide +kernel
/-- `calm` with the hold of zone 0 and a batch in its header-write phase, all written. -/
def heldBatch : Part :=
  { mapped [sec .sealed 4096 4 none, sec .erasing 4096 0 none, sec .erasing 4096 0 none] none (batching .busy { batch true true with
      sectors := (batch true true).sectors.map (fun x => { x with done := true, headerOk := true }) }) with
    rcu := { calm.rcu with hold := some 0 } }
theorem hyp_WritersStep_hold : heldBatch.rcu.hold = some 0 ∧ Relieved 0 heldBatch (completeBatch heldBatch) ∧
    Relieved 0 spareAway (giveUp 0 spareAway) ∧ Relieved 0 spareAway (endCtx .c0 .abandoned spareAway) ∧
    ¬ Relieved 0 heldBatch (judgeSector 0 heldBatch) := by
  unfold Relieved
  decide +kernel
/-- R130: a freed sector, a spare returned and a reservation returned lift the hold. -/
theorem test_hold_lifted : (completeBatch heldBatch).rcu.hold = none ∧ (giveUp 0 spareAway).rcu.hold = none ∧
    (endCtx .c0 .abandoned spareAway).rcu.hold = none ∧ (judgeSector 0 heldBatch).rcu.hold = some 0 := by decide +kernel
/-- R48: a SUSPECT mark is attempted three times. -/
theorem test_suspect_mark_attempts :
    ((writeEnded (.suspectMark 1 2) 1 30 { ok := false, good := [] } calm).pee.claims.map (fun c => (c.purpose, c.level))) =
      [(.suspectMark 1 3, 0)] ∧
    writeEnded (.suspectMark 1 3) 1 30 { ok := false, good := [] } calm = calm ∧
    writeEnded (.suspectMark 1 1) 1 30 { ok := true, good := [0] } calm = calm := by decide +kernel
/-- R31, R48: a suspect SEALED sector that gains retiring bytes alone joins the evacuation queue (log 48). -/
theorem test_retiring_gain : (addRetiring 0 68 (mapped [{ sec .sealed 4096 0 none with suspect := true, pending := 4 }] none calm)).rcu.evacQueue
    = [0] := by decide +kernel
theorem hyp_SectorMapRules_commit : (writer writing).mounted = true ∧ (holding (writer writing)).entryOf 7 = some slot7 ∧
    (let q := commitSwitch .c0 (holding (writer { writing with written := [{ sector := 0, offset := 32, length := 36 }] }))
     ((q.sector 0).live, (q.sector 3).live, (q.sector 3).retiring)) = (68, 0, 68) := by decide +kernel
theorem hyp_NothingToTake : ¬ ({ calm with link := { calm.link with transaction := .lost } } : Part).listens ∧
    ¬ ({ calm with run := .unpowered } : Part).listens ∧ calm.pee.op = none ∧ calm.pee.batch = none ∧ calm.pee.state = .idle ∧
    calm.rcu.openBatch = none ∧ calm.mli.timer = none :=
  ⟨fun h => h.2 rfl, fun h => RunState.noConfusion h.1, rfl, rfl, rfl, rfl, rfl⟩
/-- Slot 7 present with two elements, a served request and its waiting claim. -/
def waiting7 (v : Serving) (u : Purpose) : Part :=
  { serving (.read 7 0 36) v [elemAt 32, elemAt 100] with pee := { calm.pee with claims := [claim 0 u .read 3 (.runs [])], nextAge := 1 } }
theorem hyp_HandOvers_again :
    (waiting7 (served .read) (.readSlot 0)).entryOf 7 = some { slot7 with extents := [elemAt 32, elemAt 100] } ∧
    purposeWaits (.readSlot 0) (waiting7 (served .read) (.readSlot 0)) = true ∧ (served .read).offset < slot7.length ∧
    slot7.length ≤ ({ served .read with offset := 36 } : Serving).offset ∧ (served .verify).nextIndex ≠ 1 ∧
    purposeWaits (.verifyStep 0) (waiting7 (served .verify) (.verifyStep 0)) = true ∧
    purposeWaits (.verifyStep 0) (waiting7 (served .delete) (.deleteMark 0)) = false ∧
    (holding (queued (.read 7 36 1) true)).queueEntry 0 = some (entry (.read 7 36 1) true) := by decide +kernel
/-- R107, R108, R117: a READ at the slot's end is answered at once; a waiting claim is raised again, or kept. -/
theorem test_hand_over_end : (handOver (entry (.read 7 36 1) true) (holding (queued (.read 7 36 1) true))).link.replies.map
      (fun r => (r.status, r.notes, r.payload)) = [(.ok, 0x10, [0, 0, 0, 2, 0, 0, 36, 0])] ∧
    ((reissueAtReplacement 7 0 (waiting7 (served .verify) (.verifyStep 0))).pee.claims.map (·.age)) = [1] ∧
    ((reissueAtReplacement 7 1 (waiting7 (served .verify) (.verifyStep 0))).pee.claims.map (·.age)) = [0] ∧
    ((reissueAtSwitch 7 (waiting7 { served .verify with nextIndex := 1, checked := 1 } (.verifyStep 0))).sdr.serving.map
      (fun r => (r.nextIndex, r.checked))) = [(0, 0)] := by decide +kernel
theorem hyp_HandOvers : (holding (queued (.read 7 35 240) true)).entryOf 7 = some slot7 ∧ 35 < slot7.length ∧
    (holding (queued (.read 7 35 240) true)).sdr.serving = [] := by decide +kernel
theorem hyp_HandOvers_compact : (entry (.compact 0 1) true).request = .compact 0 1 ∧ calm.sdr.directory = [] := by decide
/-- R159: the byte after the fall of CS says what the transaction is. -/
theorem test_transaction_kinds : decodeTransaction [0x62, 0x00, 0x00] = some (.fetch 2) ∧
    decodeTransaction ([0x61] ++ [0x00, 0x03, 0x01, 0x07, 0x00, 0x24, 0x77]) = some (.ident 7 0) ∧
    decodeTransaction [0x61, 0x1D] = some (.badFrame [0x1D]) ∧ decodeTransaction [0x63, 0x00] = some (.ignoredTransaction 1) ∧
    decodeTransaction [] = none := by decide +kernel
/-- R159: a transaction lost to a RESET ends with the rise of CS, also while the part does not run: the next push is taken. -/
theorem test_lost_transaction_ends :
    ((after .transactionStart (on { calm with run := .inReset })).bind (fun p => after (.fetch 0) (on p))).map (·.link.transaction)
      = some .none := by decide +kernel
/-- R156: a FORMAT's notes gain MEDIA_EVENT when its batch makes a sector BAD. -/
theorem test_format_notes_bad : ((completeBatch { calm with
    scu := { calm.scu with store := .formatting, runner := some { position := 0, level := 3, age := 0, notes := 0, stopped := false } }
    pee := { calm.pee with batch := some { batch true true with forFormat := true } } }).scu.runner).map (·.notes) = some 0x08 := by
  decide +kernel
/-- R170: a FORMAT that is stopped leaves the scan's records. -/
theorem test_stopped_format_keeps_records : (formatStop (handOver (entry (.format 1 [(5, 1)]) true) (blankFromScan scan))).scu.records.length = 5 := by
  decide +kernel
/-- R135, R177: a FORMAT taken while the runner owns a sector but has no step leaves the runner with none. -/
theorem test_format_frees_runner : (after (.format 5 3 1 ([⟨512, 4⟩, ⟨0, 0⟩, ⟨0, 0⟩, ⟨0, 0⟩])) (on { givingUp 1000 none with
    rcu := { calm.rcu with owned := some 0 } })).map (fun p => (p.scu.store, p.rcu.owned, (p.sector 0).state, (p.sector 0).owner)) =
    some (.formatting, none, .erasing, none) := by decide +kernel

end Sys2Proof.Tests
end

