-- ==== Sys2Proof/Proofs/FlashArray.lean ====
section
/-! SUPPORT. The array under the engine: which commands change it, programs, cuts, and the end of an erase phase (01 R1 to R4, R65, R68, R159). -/
namespace Sys2Proof.Machine

/-! ### Only the engine's work and its interruption change the array (R1, R4) -/

theorem execReadComplete_array {s t : State} (h : execReadComplete s = .next t) : t.array = s.array := by
  unfold execReadComplete at h
  split at h
  · split at h
    · injection h with h; rw [← h]
    · cases h
  · injection h with h; rw [h]

theorem execSuspendComplete_array {s t : State} (h : execSuspendComplete s = .next t) : t.array = s.array := by
  unfold execSuspendComplete at h
  split at h
  all_goals injection h with h; rw [← h]

theorem execMaintPinChange_array {asserted : Bool} {s t : State} (h : execMaintPinChange asserted s = .next t) :
    t.array = s.array := by
  unfold execMaintPinChange at h
  split at h
  · injection h with h; rw [h]
  · split at h
    all_goals injection h with h; rw [← h]

theorem execDebounceExpiry_array {s t : State} (h : execDebounceExpiry s = .next t) : t.array = s.array := by
  unfold execDebounceExpiry at h
  split at h
  all_goals injection h with h; rw [← h]

theorem execGatheringWindowExpiry_array {s t : State} (h : execGatheringWindowExpiry s = .next t) : t.array = s.array := by
  unfold execGatheringWindowExpiry at h
  split at h
  all_goals injection h with h; rw [← h]

/-- Settles O7: a command that is no operation of the engine on the array changes the part alone. -/
theorem onlyWorkChangesArray : Obligations.OnlyWorkChangesArray := by
  intro i s t hi h
  cases i
  case programComplete | markComplete | operationTimeout | erasePhaseEnd | batchTimeout | headerWriteComplete
    | resetAsserted | coldStart | lossOfPower => cases hi
  case readComplete => exact execReadComplete_array h
  case suspendComplete => exact execSuspendComplete_array h
  case maintPinChange => exact execMaintPinChange_array h
  case debounceExpiry => exact execDebounceExpiry_array h
  case gatheringWindowExpiry => exact execGatheringWindowExpiry_array h
  case transactionStart | ignoredTransaction | badFrame | fetch | ident | status | notice | clear | tune | abort | abandon
    | restart | data | write | read | list | delete | verify | compact | format =>
    injection h with h
    rw [← h]

/-! ### Programs (R2, R65) -/

theorem inside_fits {i o n : Nat} (h : Inside i o n) : addr i o + n ≤ Config.arraySize := by
  obtain ⟨hs, ho⟩ := h
  simp only [addr, Config.sectorSize, Config.arraySize]
  omega

/-- R2, R65: what a program leaves, in the words of the statements. -/
theorem programArray_programmedBytes {m : Memory} (h : m.wf = true) {i o : Nat} {bs : List Byte} (hin : Inside i o bs.length)
    (stuck : List Byte) : ProgrammedBytes m (programArray m i o bs stuck) i o bs stuck :=
  ⟨fun a ha => programArray_other h i o bs stuck a ha,
   fun hp k hk => programArray_read h i o bs stuck hp (inside_fits hin) k hk,
   fun hp => programArray_stopped h i o bs stuck hp⟩

/-- R65: the leading bytes that read back as given, against a byte that does not. -/
theorem leadingEqual_spec (back bs : List Byte) (h : back.length = bs.length) :
    leadingEqual back bs ≤ bs.length ∧ (∀ k < leadingEqual back bs, back.getD k 0 = bs.getD k 0) ∧
      (leadingEqual back bs < bs.length → back.getD (leadingEqual back bs) 0 ≠ bs.getD (leadingEqual back bs) 0) := by
  induction bs generalizing back with
  | nil => cases back <;> simp_all [leadingEqual]
  | cons b bs ih =>
    cases back with
    | nil => cases h
    | cons a as =>
      obtain ⟨bound, before, stop⟩ := ih as (by simpa using h)
      unfold leadingEqual
      by_cases hab : a = b
      · rw [if_pos hab]
        refine ⟨by simpa using bound, fun k hk => ?_, fun hk => ?_⟩
        · cases k with
          | zero => exact hab
          | succ k => exact before k (by omega)
        · exact stop (by simpa using hk)
      · rw [if_neg hab]
        exact ⟨Nat.zero_le _, fun k hk => absurd hk (Nat.not_lt_zero _), fun _ => hab⟩

/-- R65: the bytes of a run all read back as given exactly when every one is a leading one. -/
theorem leadingEqual_eq_length_iff (back bs : List Byte) (h : back.length = bs.length) :
    leadingEqual back bs = bs.length ↔ back = bs := by
  obtain ⟨bound, before, stop⟩ := leadingEqual_spec back bs h
  constructor
  · intro e
    refine List.ext_getElem h fun k hk hk' => ?_
    have := before k (by omega)
    simpa [List.getD, hk, hk'] using this
  · rintro rfl
    by_contra hne
    exact stop (by omega) rfl

theorem readBytes_getD {m : Memory} (h : m.wf = true) (a n k : Nat) (hk : k < n) : (m.readBytes a n).getD k 0 = m.read (a + k) := by
  rw [readBytes_eq h]
  simp [List.getD, hk]

/-- R65: the verify of a program whose pre-check passed. -/
theorem programResult_eq {m : Memory} (h : m.wf = true) {i o : Nat} {bs : List Byte} (hp : PreCheckPasses m i o bs) (stuck : List Byte) :
    let n := leadingEqual ((programArray m i o bs stuck).readBytes (addr i o) bs.length) bs
    programResult m i o bs stuck = { ok := decide (n = bs.length), good := bs.take n } := by
  have len : ((programArray m i o bs stuck).readBytes (addr i o) bs.length).length = bs.length :=
    readBytes_length (programArray_wf h i o bs stuck) _ _
  have all := leadingEqual_eq_length_iff _ bs len
  unfold programResult
  dsimp only
  rw [if_pos ((preCheck_readBytes_iff h i o bs).2 hp)]
  split
  · rename_i e
    rw [all.2 e]
    simp
  · rename_i e
    simp [mt all.1 e]

theorem programResult_stopped {m : Memory} (h : m.wf = true) {i o : Nat} {bs : List Byte} (hp : ¬ PreCheckPasses m i o bs)
    (stuck : List Byte) : programResult m i o bs stuck = { ok := false, good := [] } :=
  if_neg (fun e => hp ((preCheck_readBytes_iff h i o bs).1 e))

/-- R65: the leading bytes of a run in the array that read back as given, in the words of the statements. -/
theorem leadingEqual_verifiedPrefix {m : Memory} (h : m.wf = true) (i o : Nat) (bs : List Byte) :
    VerifiedPrefix m i o bs bs.length (leadingEqual (m.readBytes (addr i o) bs.length) bs) := by
  obtain ⟨bound, before, stop⟩ := leadingEqual_spec (m.readBytes (addr i o) bs.length) bs (readBytes_length h _ _)
  refine ⟨bound, fun k hk => ?_, fun hk => ?_⟩
  · exact (readBytes_getD h (addr i o) bs.length k (by omega)).symm.trans (before k hk)
  · exact fun e => stop hk ((readBytes_getD h (addr i o) bs.length _ hk).trans e)

theorem programResult_programResult {m : Memory} (h : m.wf = true) (i o : Nat) (bs stuck : List Byte) :
    ProgramResult m (programArray m i o bs stuck) i o bs (programResult m i o bs stuck) := by
  refine ⟨fun hp => ?_, fun hp => ?_⟩
  · rw [programResult_stopped h hp]
    exact ⟨rfl, rfl⟩
  · rw [programResult_eq h hp]
    exact ⟨_, leadingEqual_verifiedPrefix (programArray_wf h i o bs stuck) i o bs, rfl, decide_eq_true_iff⟩

/-- R65: a program SUCCEEDS exactly when its pre-check passes and every byte of its run reads back as given. -/
theorem programResult_ok_iff {m : Memory} (h : m.wf = true) (i o : Nat) (bs stuck : List Byte) :
    (programResult m i o bs stuck).ok = true ↔
      PreCheckPasses m i o bs ∧ ∀ k < bs.length, (programArray m i o bs stuck).read (addr i o + k) = bs.getD k 0 := by
  by_cases hp : PreCheckPasses m i o bs
  · obtain ⟨bound, before, stop⟩ := leadingEqual_verifiedPrefix (programArray_wf h i o bs stuck) i o bs
    rw [programResult_eq h hp, decide_eq_true_iff]
    refine ⟨fun e => ⟨hp, fun k hk => before k (by omega)⟩, fun hall => ?_⟩
    by_contra hne
    have hlt := Nat.lt_of_le_of_ne bound hne
    exact stop hlt (hall.2 _ hlt)
  · simp [programResult_stopped h hp, hp]

/-- R2: a program sets no bit of any byte. -/
theorem programArray_le {m : Memory} (h : m.wf = true) {i o : Nat} {bs : List Byte} (hin : Inside i o bs.length)
    (stuck : List Byte) (a : Nat) :
    (programArray m i o bs stuck).read a &&& m.read a = (programArray m i o bs stuck).read a := by
  by_cases hp : PreCheckPasses m i o bs
  · by_cases ha : a < addr i o ∨ addr i o + bs.length ≤ a
    · rw [programArray_other h i o bs stuck a ha, BitVec.and_self]
    · obtain ⟨k, rfl⟩ : ∃ k, a = addr i o + k := ⟨a - addr i o, by omega⟩
      rw [programArray_read h i o bs stuck hp (inside_fits hin) k (by omega), programmedByte_le]
  · rw [programArray_stopped h i o bs stuck hp, BitVec.and_self]

/-- R2: a program that gives each byte as 0xFF or 0x00 passes its pre-check whatever the array holds. -/
theorem preCheckPasses_of_ones_or_zeros (m : Memory) (i o : Nat) {bs : List Byte}
    (hb : ∀ k < bs.length, bs.getD k 0 = 0xFF ∨ bs.getD k 0 = 0x00) : PreCheckPasses m i o bs := by
  intro k hk
  refine (hb k hk).imp id fun e => ?_
  rw [e]
  exact BitVec.and_zero

/-- R2: a byte given as 0x00 is cleared where no bit stays. -/
theorem programmedByte_zeros (old : Byte) : programmedByte old 0x00 0x00 = 0x00 := by simp [programmedByte]

/-- R2: such a program keeps the bytes given as 0xFF and clears the others, where no bit stays. -/
theorem programArray_span_read {m : Memory} (h : m.wf = true) {i o : Nat} {bs : List Byte} (hin : Inside i o bs.length)
    (hb : ∀ k < bs.length, bs.getD k 0 = 0xFF ∨ bs.getD k 0 = 0x00) (k : Nat) (hk : k < bs.length) :
    (programArray m i o bs []).read (addr i o + k) = if bs.getD k 0 = 0xFF then m.read (addr i o + k) else 0x00 := by
  rw [programArray_read h i o bs [] (preCheckPasses_of_ones_or_zeros m i o hb) (inside_fits hin) k hk]
  split
  · rename_i e
    rw [e, programmedByte_ones]
  · rename_i e
    rw [(hb k hk).resolve_left e]
    exact programmedByte_zeros _

theorem programResult_span_ok_iff {m : Memory} (h : m.wf = true) {i o : Nat} {bs : List Byte} (hin : Inside i o bs.length)
    (hb : ∀ k < bs.length, bs.getD k 0 = 0xFF ∨ bs.getD k 0 = 0x00) :
    (programResult m i o bs []).ok = true ↔ ∀ k < bs.length, bs.getD k 0 = 0xFF → m.read (addr i o + k) = 0xFF := by
  rw [programResult_ok_iff h]
  have read := programArray_span_read h hin hb
  constructor
  · rintro ⟨-, hall⟩ k hk e
    have := (read k hk).symm.trans (hall k hk)
    rwa [if_pos e, e] at this
  · refine fun hones => ⟨preCheckPasses_of_ones_or_zeros m i o hb, fun k hk => ?_⟩
    rw [read k hk]
    split
    · rename_i e
      rw [e, hones k hk e]
    · rename_i e
      exact ((hb k hk).resolve_left e).symm

/-- Settles O12. -/
theorem programsOnlyClearBits : Obligations.ProgramsOnlyClearBits := by
  intro m i o bs h hin
  refine ⟨programArray_programmedBytes h hin [], programResult_programResult h i o bs [], programArray_le h hin, ?_, ?_, ?_⟩
  · intro k hk e
    by_cases hp : PreCheckPasses m i o bs
    · have := programArray_read h i o bs [] hp (inside_fits hin) k hk
      rwa [e, programmedByte_ones] at this
    · rw [programArray_stopped h i o bs [] hp]
  · intro hz
    refine (programResult_span_ok_iff h hin fun k hk => .inr (hz k hk)).2 fun k hk e => ?_
    rw [hz k hk] at e
    exact absurd e (by decide)
  · exact fun hb => ⟨programArray_span_read h hin hb, programResult_span_ok_iff h hin hb⟩

/-! ### The completion of a program (R65) -/

/-- A PROGRAM or MARK of a running part inside the array ends as its owner takes its result. -/
theorem finishWrite_inside {i o : Nat} {bs : List Byte} (hin : Inside i o bs.length) (u : Purpose) (stuck : List Byte) (r : Result)
    (s : State) : finishWrite u i o bs stuck r s = .next { s with
      array := programArray s.array i o bs stuck
      part := closeEvent (writeEnded u i o r (endOp s.part)) } := by
  obtain ⟨hs, ho⟩ := hin
  exact if_pos (by simp [runInside, hs, ho])

theorem execProgramComplete_eq {s : State} {c : Claim} {i o : Nat} {bs : List Byte} (hrun : s.part.run = .running)
    (hop : s.part.pee.op = some c) (ht : c.target = .bytes i o bs) (hk : c.kind = .program) (stuck : List Byte) :
    exec (.programComplete stuck) s = finishWrite c.purpose i o bs stuck (programResult s.array i o bs stuck) s := by
  obtain ⟨age, u, kind, level, target⟩ := c
  subst ht hk
  show execProgramComplete stuck s = _
  simp only [execProgramComplete, runningOp, hrun, hop, if_true]

theorem execMarkComplete_eq {s : State} {c : Claim} {i o : Nat} {bs : List Byte} (hrun : s.part.run = .running)
    (hop : s.part.pee.op = some c) (ht : c.target = .bytes i o bs) (hk : c.kind = .mark) (stuck : List Byte) :
    exec (.markComplete stuck) s = finishWrite c.purpose i o bs stuck (programResult s.array i o bs stuck) s := by
  obtain ⟨age, u, kind, level, target⟩ := c
  subst ht hk
  show execMarkComplete stuck s = _
  simp only [execMarkComplete, runningOp, hrun, hop, if_true]

/-- R75: the engine once its operation is over, in the words of the statements. -/
theorem endOp_eq (p : Part) : endOp p = { p with pee := { p.pee with
    op := none, state := match p.pee.state with | .suspendedBusy => .suspended | .busy => .idle | x => x } } := by
  unfold endOp
  cases p.pee.state <;> rfl

/-- Settles O50: PROGRAM_COMPLETE and MARK_COMPLETE are one ending, `finishWrite`. -/
theorem programsAndMarksComplete : Obligations.ProgramsAndMarksComplete := by
  intro s c i o bs stuck hrun hwf hop ht hin after done
  have ended : ∀ x, exec x s = finishWrite c.purpose i o bs stuck (programResult s.array i o bs stuck) s → done x := by
    intro x hx
    rw [finishWrite_inside hin, endOp_eq] at hx
    exact ⟨_, _, hx, programArray_programmedBytes hwf hin stuck, programResult_programResult hwf i o bs stuck⟩
  exact ⟨fun hk => ended _ (execProgramComplete_eq hrun hop ht hk stuck),
    fun hk => ended _ (execMarkComplete_eq hrun hop ht hk stuck)⟩

/-! ### What a cut leaves (R4) -/

/-- R4: the array as the cut of the running operation leaves it, before what the batch in progress adds. -/
def tornOp (p : Part) (stuck : List Byte) (m : Memory) : Memory :=
  match p.pee.op with
  | some { target := .bytes s o bs, .. } => programArray m s o bs stuck
  | _ => m

theorem tornOp_bytes {p : Part} {c : Claim} {n o : Nat} {bs : List Byte} (hop : p.pee.op = some c) (ht : c.target = .bytes n o bs)
    (stuck : List Byte) (m : Memory) : tornOp p stuck m = programArray m n o bs stuck := by
  obtain ⟨age, u, kind, level, target⟩ := c
  subst ht
  simp only [tornOp, hop]

theorem tornOp_of_no_bytes {p : Part} (h : ∀ c n o bs, p.pee.op = some c → c.target ≠ .bytes n o bs) (stuck : List Byte)
    (m : Memory) : tornOp p stuck m = m := by
  unfold tornOp
  split
  · rename_i hop
    exact absurd rfl (h _ _ _ _ hop)
  · rfl

/-- R4: a cut tears the running operation first, and then what the batch in progress writes. -/
theorem tornArray_eq (p : Part) (stuck : List Byte) (residue : List (Nat × Byte)) (m : Memory) :
    tornArray p stuck residue m =
      if erasePhase p then (tornOp p stuck m).eraseSectors (batchSectors p) residue
      else match headerSector p with
        | some b => programArray (tornOp p stuck m) b.sector (headerWrite b).1 (headerWrite b).2 stuck
        | none => tornOp p stuck m := by
  have op : tornOp p stuck m = match p.pee.op with
      | some c => match c.target with
        | .bytes s o bs => programArray m s o bs stuck
        | .runs _ | .openBatch | .sectors _ => m
      | none => m := by
    unfold tornOp
    cases p.pee.op with
    | none => rfl
    | some c => obtain ⟨_, _, _, _, _ | _ | _ | _⟩ := c <;> rfl
  rw [op]
  rfl

theorem tornOp_wf {p : Part} {m : Memory} (h : m.wf = true) (stuck : List Byte) : (tornOp p stuck m).wf = true := by
  unfold tornOp
  split
  · exact programArray_wf h _ _ _ _
  · exact h

theorem tornOp_other {p : Part} {m : Memory} (h : m.wf = true) (stuck : List Byte) {a : Nat} (ha : ¬ p.inFlight a) :
    (tornOp p stuck m).read a = m.read a := by
  unfold tornOp
  split
  · rename_i n o bs hop
    refine programArray_other h n o bs stuck a ?_
    by_contra hc
    rw [not_or, Nat.not_lt, Nat.not_le] at hc
    exact ha (.inl ⟨_, n, o, bs, hop, rfl, hc.1, hc.2⟩)
  · rfl

theorem erasePhase_iff (p : Part) : erasePhase p = true ↔ ∃ b, p.pee.batch = some b ∧ b.headers = false := by
  unfold erasePhase
  cases p.pee.batch <;> simp

theorem headerSector_eq_some_iff (p : Part) (x : BatchSector) : headerSector p = some x ↔
    ∃ b, p.pee.batch = some b ∧ b.headers = true ∧ b.sectors.find? (fun y => !y.done) = some x := by
  unfold headerSector
  cases p.pee.batch with
  | none => simp
  | some b => cases hb : b.headers <;> simp [hb]

theorem batchSectors_of_batch {p : Part} {b : Batch} (h : p.pee.batch = some b) : batchSectors p = b.sectors.map (·.sector) := by
  simp only [batchSectors, h]

/-- R4: the sectors of an erase phase are work in progress. -/
theorem inFlight_of_erasePhase {p : Part} {a : Nat} (he : erasePhase p = true)
    (ha : (batchSectors p).contains (a / Config.sectorSize) = true) : p.inFlight a := by
  obtain ⟨b, hb, hh⟩ := (erasePhase_iff p).1 he
  rw [batchSectors_of_batch hb, List.contains_iff_mem, List.mem_map] at ha
  obtain ⟨x, hx, e⟩ := ha
  exact .inr (.inl ⟨b, hb, hh, x, hx, e.symm⟩)

/-- R4, R69: the bytes of the header write or BAD mark in progress are work in progress. -/
theorem inFlight_of_headerSector {p : Part} {x : BatchSector} (hx : headerSector p = some x) {a : Nat}
    (lo : addr x.sector (headerWrite x).1 ≤ a) (hi : a < addr x.sector (headerWrite x).1 + (headerWrite x).2.length) :
    p.inFlight a := by
  obtain ⟨b, hb, hh, hf⟩ := (headerSector_eq_some_iff p x).1 hx
  refine .inr (.inr ⟨b, x, hb, hh, hf, ?_⟩)
  simp only [addr, Config.sectorSize, headerWrite] at lo hi
  cases he : x.erased with
  | true =>
    rw [he, if_pos rfl] at lo hi
    simp only [Nat.add_zero] at lo hi
    exact .inl ⟨rfl, lo, hi⟩
  | false =>
    rw [he, if_neg Bool.false_ne_true] at lo hi
    exact .inr ⟨rfl, by simp only [badOffset, List.length_singleton] at lo hi; omega⟩

/-- R4: a cut changes no byte outside the work in progress. -/
theorem tornArray_other {p : Part} {m : Memory} (h : m.wf = true) (stuck : List Byte) (residue : List (Nat × Byte)) {a : Nat}
    (ha : ¬ p.inFlight a) : (tornArray p stuck residue m).read a = m.read a := by
  have wf := tornOp_wf (p := p) h stuck
  have op := tornOp_other h stuck ha
  rw [tornArray_eq]
  split
  · rename_i he
    rw [eraseSectors_other wf _ _ _ (Bool.eq_false_iff.2 fun hc => ha (inFlight_of_erasePhase he hc)), op]
  · split
    · rename_i x hx
      rw [programArray_other wf, op]
      by_contra hc
      rw [not_or, Nat.not_lt, Nat.not_le] at hc
      exact ha (inFlight_of_headerSector hx hc.1 hc.2)
    · exact op

/-- R4: with no batch in progress a cut tears the running operation alone. -/
theorem tornArray_no_batch {p : Part} (hb : p.pee.batch = none) (stuck : List Byte) (residue : List (Nat × Byte)) (m : Memory) :
    tornArray p stuck residue m = tornOp p stuck m := by
  rw [tornArray_eq]
  simp only [erasePhase, headerSector, hb, Bool.false_eq_true, if_false]

theorem stopArray_running {s : State} (h : s.part.run = .running) (stuck : List Byte) (residue : List (Nat × Byte)) :
    stopArray stuck residue s = tornArray s.part stuck residue s.array := if_pos h

theorem execResetAsserted_running {s : State} (h : s.part.run = .running) (stuck : List Byte) (residue : List (Nat × Byte)) :
    exec (.resetAsserted stuck residue) s =
      .next { s with array := tornArray s.part stuck residue s.array, part := stopPart .inReset s.part } :=
  (if_pos h).trans (by rw [stopArray_running h])

theorem execLossOfPower_running {s : State} (h : s.part.run = .running) (stuck : List Byte) (residue : List (Nat × Byte)) :
    exec (.lossOfPower stuck residue) s =
      .next { s with array := tornArray s.part stuck residue s.array, part := stopPart .unpowered s.part } := by
  rw [← stopArray_running h]
  rfl

theorem execColdStart_running {s : State} (h : s.part.run = .running) (stuck : List Byte) (residue : List (Nat × Byte)) :
    exec (.coldStart stuck residue) s =
      .next { s with array := tornArray s.part stuck residue s.array, part := coldPart s.part } := by
  rw [← stopArray_running h]
  rfl

/-- R4: the three cuts of a running part leave one array. -/
theorem cut_array {stuck : List Byte} {residue : List (Nat × Byte)} {i : Instr} {s t : State}
    (hi : i = .coldStart stuck residue ∨ i = .resetAsserted stuck residue ∨ i = .lossOfPower stuck residue)
    (hrun : s.part.run = .running) (h : exec i s = .next t) : t.array = tornArray s.part stuck residue s.array := by
  rcases hi with rfl | rfl | rfl
  · rw [execColdStart_running hrun] at h
    injection h with h
    rw [← h]
  · rw [execResetAsserted_running hrun] at h
    injection h with h
    rw [← h]
  · rw [execLossOfPower_running hrun] at h
    injection h with h
    rw [← h]

/-- Settles O42. -/
theorem cutTouchesOnlyWorkInFlight : Obligations.CutTouchesOnlyWorkInFlight := by
  intro stuck residue i s t hi hrun hwf h
  rw [cut_array hi hrun h]
  refine ⟨fun a ha => tornArray_other hwf stuck residue ha, fun hb c n o bs hop ht hin => ?_, fun hb hno => ?_⟩
  · rw [tornArray_no_batch hb, tornOp_bytes hop ht]
    exact programArray_programmedBytes hwf hin stuck
  · rw [tornArray_no_batch hb, tornOp_of_no_bytes hno]

/-! ### A part that stops (R159, R168) -/

theorem attn_stopPart {r : RunState} (h : r ≠ .running) (p : Part) : attn (stopPart r p) = false := by
  simp [attn, stopPart, h]

theorem misoHighImpedance_stopPart {r : RunState} (h : r ≠ .running) (p : Part) : misoHighImpedance (stopPart r p) = true := by
  simp [misoHighImpedance, stopPart, h]

theorem not_listens_stopPart {r : RunState} (h : r ≠ .running) (p : Part) : ¬ (stopPart r p).listens := fun l => h l.1

theorem stopPart_transaction {p : Part} {b : Byte} {x : Option Reply} (h : p.link.transaction = .active b x) (r : RunState) :
    (stopPart r p).link.transaction = .lost := by
  simp only [stopPart, h, loseTransaction]

/-- Settles O43. -/
theorem partStopsAtResetAndLossOfPower : Obligations.PartStopsAtResetAndLossOfPower := by
  intro stuck residue s hrun
  have reset : RunState.inReset ≠ .running := by decide
  have power : RunState.unpowered ≠ .running := by decide
  exact ⟨_, _, execResetAsserted_running hrun stuck residue, execLossOfPower_running hrun stuck residue, rfl, rfl, rfl, rfl,
    attn_stopPart reset _, attn_stopPart power _, misoHighImpedance_stopPart reset _, not_listens_stopPart reset _,
    not_listens_stopPart power _, rfl, fun b r h => ⟨stopPart_transaction h _, stopPart_transaction h _⟩, rfl, rfl⟩

/-! ### The end of the erase phase (R3, R68, R70) -/

theorem eraseRuns_of {s : State} (hrun : s.part.run = .running) (hst : s.part.pee.state = .erasing ∨ s.part.pee.state = .suspending) :
    eraseRuns s = true := by
  simpa [eraseRuns, hrun] using hst

/-- What the canonical form says of each listed byte. -/
theorem wfFrom_mem {lo : Nat} (m : Memory) (h : Memory.wfFrom lo m = true) {c : Host.Cell} (hc : c ∈ m) :
    lo ≤ c.1 ∧ m.read c.1 = c.2 ∧ c.2 ≠ Config.blankByte := by
  induction m generalizing lo with
  | nil => cases hc
  | cons d m ih =>
    obtain ⟨a, v⟩ := d
    simp only [Memory.wfFrom, Bool.and_eq_true, decide_eq_true_eq] at h
    obtain ⟨⟨⟨hlo, -⟩, hv⟩, hm⟩ := h
    rcases List.mem_cons.1 hc with rfl | hc
    · exact ⟨hlo, if_pos rfl, hv⟩
    · obtain ⟨above, hread, hne⟩ := ih hm hc
      exact ⟨by omega, (if_neg (by omega)).trans hread, hne⟩

theorem read_of_not_listed (m : Memory) {a : Nat} (h : ∀ c ∈ m, c.1 ≠ a) : m.read a = Config.blankByte := by
  induction m with
  | nil => rfl
  | cons c m ih =>
    have hm := List.forall_mem_cons.1 h
    exact (if_neg hm.1).trans (ih hm.2)

/-- R68: a sector has no listed byte exactly when it reads 0xFF throughout. -/
theorem sectorBlank_iff {m : Memory} (h : m.wf = true) (s : Nat) :
    sectorBlank m s = true ↔ ∀ k < 4096, m.read (s * 4096 + k) = 0xFF := by
  unfold sectorBlank
  simp only [List.all_eq_true, decide_eq_true_eq, Config.sectorSize]
  constructor
  · exact fun hs k hk => read_of_not_listed m fun c hc e => hs c hc (by omega)
  · intro hs c hc e
    obtain ⟨-, hread, hne⟩ := wfFrom_mem m h hc
    have := hs (c.1 % 4096) (Nat.mod_lt _ (by decide))
    rw [show s * 4096 + c.1 % 4096 = c.1 by omega, hread] at this
    exact hne this

/-- R3: a byte that reads 0xFF keeps doing so under further erases. -/
theorem foldl_eraseSector_blank {a : Nat} (ss : List Nat) (m : Memory) (h : m.read a = Config.blankByte) :
    (ss.foldl Memory.eraseSector m).read a = Config.blankByte := by
  induction ss generalizing m with
  | nil => exact h
  | cons s ss ih => exact ih _ (by rw [eraseSector_read, h, ite_self])

/-- R3: an erase that leaves no residue leaves its sectors reading 0xFF. -/
theorem eraseSectors_read_blank (ss : List Nat) (m : Memory) {a : Nat} (ha : a / 4096 ∈ ss) :
    (m.eraseSectors ss []).read a = 0xFF := by
  show (ss.foldl Memory.eraseSector m).read a = _
  induction ss generalizing m with
  | nil => cases ha
  | cons t ts ih =>
    rcases List.mem_cons.1 ha with e | ha
    · exact foldl_eraseSector_blank ts _ (by rw [eraseSector_read, if_pos ((addr_sector a t).2 e)])
    · exact ih _ ha

/-- R68, R70: the header-write phase begins: what the engine, the batch and the rest of the part hold then. -/
theorem enterHeaders_spec {p : Part} {b : Batch} (hb : p.pee.batch = some b) (good : Nat → Bool) (clock : Nat) :
    let q := enterHeaders good clock p
    q = { p with pee := q.pee } ∧ q.pee.state = .busy ∧ q.pee.claims = p.pee.claims ∧ q.pee.budget = p.pee.budget ∧
      q.pee.batch = some (b.toHeaders good clock) := by
  simp [enterHeaders, hb]

theorem toHeaders_sectors (good : Nat → Bool) (clock : Nat) (b : Batch) :
    (b.toHeaders good clock).sectors.map (fun x => { x with erased := false }) = b.sectors.map (fun x => { x with erased := false }) := by
  simp [Batch.toHeaders, Function.comp_def]

theorem toHeaders_erased {good : Nat → Bool} {clock : Nat} {b : Batch} {x : BatchSector}
    (hx : x ∈ (b.toHeaders good clock).sectors) : x.erased = good x.sector := by
  obtain ⟨y, -, rfl⟩ := List.mem_map.1 hx
  rfl

/-- Settles O54. -/
theorem erasePhaseEnds : Obligations.ErasePhaseEnds := by
  intro s b residue hrun hwf hst hb
  have runs := eraseRuns_of hrun hst
  have sectors : batchSectors s.part = b.sectors.map (·.sector) := batchSectors_of_batch hb
  have wf : Memory.wf (Memory.eraseSectors s.array (batchSectors s.part) residue) = true := eraseSectors_wf hwf _ _
  have clock : batchClock s.part = b.unsuspended := by simp only [batchClock, hb]
  have phase : ∀ (good : Nat → Bool) (n : Nat) (v : State), v = { s with
      array := Memory.eraseSectors s.array (batchSectors s.part) residue, part := enterHeaders good n s.part } →
      v.pending = s.pending ∧ v.part = { s.part with pee := v.part.pee } ∧ v.part.pee.state = .busy ∧
        v.part.pee.claims = s.part.pee.claims ∧ v.part.pee.budget = s.part.pee.budget ∧
        (∀ a, a / 4096 ∉ b.sectors.map (·.sector) → Memory.read v.array a = Memory.read s.array a) ∧
        ∃ b', v.part.pee.batch = some b' ∧ b'.headers = true ∧ b'.zone = b.zone ∧ b'.forFormat = b.forFormat ∧
          b'.sectors.map (fun x => { x with erased := false }) = b.sectors.map (fun x => { x with erased := false }) := by
    rintro good n v rfl
    obtain ⟨rest, state, claims, budget, batch⟩ := enterHeaders_spec hb good n
    refine ⟨rfl, rest, state, claims, budget, fun a ha => eraseSectors_other hwf _ _ _ ?_,
      _, batch, rfl, rfl, rfl, toHeaders_sectors good n b⟩
    rw [sectors]
    simpa using ha
  refine ⟨_, _, if_pos runs, if_pos runs, ?_, fun b' hb' => ?_, fun b' hb' => ?_, fun hr a ha => ?_⟩
  · rintro v (e | e)
    · exact phase _ _ v e
    · exact phase _ _ v e
  · obtain ⟨-, -, -, -, batch⟩ := enterHeaders_spec hb
      (sectorBlank (Memory.eraseSectors s.array (batchSectors s.part) residue)) (batchClock s.part)
    obtain rfl := Option.some.inj (batch.symm.trans hb')
    refine ⟨clock, fun x hx => ?_⟩
    rw [toHeaders_erased hx, sectorBlank_iff wf]
  · obtain ⟨-, -, -, -, batch⟩ := enterHeaders_spec hb (fun _ => false) Config.batchTime
    obtain rfl := Option.some.inj (batch.symm.trans hb')
    exact fun x hx => toHeaders_erased hx
  · subst hr
    exact eraseSectors_read_blank _ _ (by rw [sectors]; exact ha)

end Sys2Proof.Machine
end

