-- ==== Sys2Proof/Proofs/Crcs.lean ====
section
/-! SUPPORT. The CRC-16 and the CRC-32: the shift register bit by bit, and what each of them covers (R15, R17). -/
namespace Sys2Proof.Machine

/-! ### The shift registers (R15, R17) -/

theorem crc16Bit_eq (reg : BitVec 16) (bit : Bool) :
    crc16Bit reg bit = if reg.getMsbD 0 = bit then reg <<< 1 else (reg <<< 1) ^^^ 0x1021#16 := by
  rw [← BitVec.msb]
  unfold crc16Bit
  cases reg.msb <;> cases bit <;> rfl

theorem crc32Bit_eq (reg : BitVec 32) (bit : Bool) :
    crc32Bit reg bit = if reg.getLsbD 0 = bit then reg >>> 1 else (reg >>> 1) ^^^ 0xEDB88320#32 := by
  unfold crc32Bit
  cases reg.getLsbD 0 <;> cases bit <;> rfl

theorem crc16_concat (bs : List Byte) (b : Byte) : crc16 (bs ++ [b]) = crc16Byte (crc16 bs) b := List.foldl_concat ..

theorem crc32Run_concat (reg : BitVec 32) (bs : List Byte) (b : Byte) :
    crc32Run reg (bs ++ [b]) = crc32Byte (crc32Run reg bs) b := List.foldl_concat ..

/-! ### What the CRCs cover -/

/-- A record that is its guarded bytes, their CRC-16 and what follows: the two bytes after the guarded ones are their CRC-16. -/
theorem crc16Bytes_after {body h rest : List Byte} (e : h = body ++ crc16Bytes body ++ rest) {n : Nat} (hn : body.length = n) :
    (h.drop n).take 2 = crc16Bytes (h.take n) := by
  subst e hn
  rw [List.append_assoc, List.drop_left, List.take_left, List.take_left' (crc16Bytes_length body)]

/-- A frame that ends with the CRC-16 of the bytes before it. -/
theorem crc16Bytes_last {body f : List Byte} (e : f = body ++ crc16Bytes body) :
    f.drop (f.length - 2) = crc16Bytes body ∧ f.take (f.length - 2) = body := by
  have hn : f.length - 2 = body.length := by rw [e, List.length_append, crc16Bytes_length]; omega
  rw [hn, e]
  exact ⟨List.drop_left, List.take_left⟩

theorem planEntryBytes_length (plan : List (Nat × Nat)) (i : Nat) : (planEntryBytes plan i).length = 3 := by
  unfold planEntryBytes
  split <;> rfl

/-- R5: the 20 bytes of a sector header that its CRC covers. -/
def sectorHeaderBody (format zone eraseCount : Nat) (plan : List (Nat × Nat)) : List Byte :=
  [0xB7] ++ be 2 format ++ be 1 zone ++ be 3 eraseCount ++ be 1 plan.length
    ++ planEntryBytes plan 0 ++ planEntryBytes plan 1 ++ planEntryBytes plan 2 ++ planEntryBytes plan 3

theorem sectorHeaderBody_length (f z n : Nat) (plan : List (Nat × Nat)) : (sectorHeaderBody f z n plan).length = 20 := by
  simp [sectorHeaderBody, be_length, planEntryBytes_length]

theorem sectorHeaderBytes_eq (f z n : Nat) (plan : List (Nat × Nat)) (bad : Bool) :
    sectorHeaderBytes f z n plan bad = sectorHeaderBody f z n plan ++ crc16Bytes (sectorHeaderBody f z n plan) ++
      (List.replicate 8 0xFF ++ [0xFF, if bad then 0x00 else 0xFF]) :=
  List.append_assoc _ _ _

/-- R9: the class and total length of a head; 0xFF in any other extent. -/
def headBytes : Option (SlotClass × Nat) → List Byte
  | some ct => [ct.1.code] ++ be 3 ct.2
  | none => [0xFF, 0xFF, 0xFF, 0xFF]

theorem headBytes_length (head : Option (SlotClass × Nat)) : (headBytes head).length = 4 := by
  cases head <;> rfl

/-- R9: the 14 bytes of a first stage that its CRC covers. -/
def firstStageBody (slot sequence index copy : Nat) (head : Option (SlotClass × Nat)) : List Byte :=
  [0x5E] ++ be 2 slot ++ be 4 sequence ++ be 1 index ++ be 2 copy ++ headBytes head

theorem firstStageBody_length (slot q i c : Nat) (head : Option (SlotClass × Nat)) : (firstStageBody slot q i c head).length = 14 := by
  simp [firstStageBody, be_length, headBytes_length]

theorem firstStageBytes_eq (slot q i c : Nat) (head : Option (SlotClass × Nat)) (co : Bool) :
    firstStageBytes slot q i c head co = firstStageBody slot q i c head ++ crc16Bytes (firstStageBody slot q i c head) ++
      (List.replicate 7 0xFF ++ [if co then 0x00 else 0xFF] ++ List.replicate 8 0xFF) := by
  cases head <;> simp only [firstStageBytes, firstStageBody, headBytes, List.append_assoc]

theorem replyFrame_eq (r : Reply) : ∃ guarded, replyFrame r = 0xE4 :: (guarded ++ crc16Bytes guarded) := ⟨_, rfl⟩

theorem requestFrame_eq {i : Instr} {f : List Byte} (h : requestFrame i = some f) :
    ∃ guarded, f = guarded ++ crc16Bytes guarded := by
  unfold requestFrame at h
  split at h
  · injection h with h
    exact ⟨_, h.symm⟩
  · cases h

/-- R10, R115: a VERIFY passes an extent only when the CRC stored in its close stage is that of its data bytes. -/
theorem crc_of_verifyPasses {r : Serving} {bytes : List Byte} (h : verifyPasses r bytes = true) :
    (bytes.drop 19).take 4 = be 4 (crc32 ((bytes.drop 32).take r.elem.length)).toNat :=
  (of_decide_eq_true (Bool.and_eq_true_iff.1 h).2).symm

theorem crc16_check : crc16 [0x31, 0x32, 0x33, 0x34, 0x35, 0x36, 0x37, 0x38, 0x39] = 0x29B1#16 := by decide +kernel

theorem crc32_check : crc32 [0x31, 0x32, 0x33, 0x34, 0x35, 0x36, 0x37, 0x38, 0x39] = 0xCBF43926#32 := by decide +kernel

/-- Settles O8. -/
theorem crcSixteenRule : Obligations.CrcSixteenRule := by
  refine ⟨rfl, crc16Bit_eq, crc16_concat, fun bs => be2 _, crc16_check, fun f z n plan bad => ?_, fun slot q i c head co => ?_,
    fun r => ?_, fun i f h => ?_⟩
  · exact crc16Bytes_after (sectorHeaderBytes_eq f z n plan bad) (sectorHeaderBody_length f z n plan)
  · exact crc16Bytes_after (firstStageBytes_eq slot q i c head co) (firstStageBody_length slot q i c head)
  · obtain ⟨guarded, e⟩ := replyFrame_eq r
    have cut : (0xE4 :: (guarded ++ crc16Bytes guarded)).length - 2 = guarded.length + 1 := by
      simp only [List.length_cons, List.length_append, crc16Bytes_length]
      omega
    dsimp only
    rw [e, cut, List.drop_succ_cons, List.take_succ_cons, List.drop_succ_cons, List.drop_zero, List.drop_left, List.take_left]
  · obtain ⟨guarded, rfl⟩ := requestFrame_eq h
    obtain ⟨last, first⟩ := crc16Bytes_last (body := guarded) rfl
    rw [last, first]

/-- Settles O9. -/
theorem crcThirtyTwoRule : Obligations.CrcThirtyTwoRule :=
  ⟨by decide, rfl, crc32Bit_eq, crc32Run_concat, fun _ => rfl, crc32_check, fun _ _ => crc_of_verifyPasses⟩

end Sys2Proof.Machine
end

