-- ==== Sys2Proof/Proofs/Headers.lean ====
section
/-! SUPPORT. Sector headers and extent headers as they are written and as they are read back (R5 to R7, R9, R12). -/
namespace Sys2Proof.Machine

/-! ### Fields of a byte string -/

/-- A slice that lies inside the first part of a string. -/
theorem slice_append_left (l m : List Byte) {a n : Nat} (h : a + n ≤ l.length) : slice (l ++ m) a n = slice l a n := by
  rw [slice, List.drop_append_of_le_length (by omega), List.take_append_of_le_length (by rw [List.length_drop]; omega), slice]

/-- A slice that lies inside the second part of a string. -/
theorem slice_append_right (l m : List Byte) (a n : Nat) : slice (l ++ m) (l.length + a) n = slice m a n := by
  rw [slice, List.drop_length_add_append, slice]

theorem slice_slice (l : List Byte) (a n b k : Nat) (h : b + k ≤ n) : slice (slice l a n) b k = slice l (a + b) k := by
  rw [slice, slice, slice, List.drop_take, List.take_take, List.drop_drop, Nat.min_eq_left (by omega)]

/-- A field inside a slice is a field of the string. -/
theorem field_slice (l : List Byte) (a n b k : Nat) (h : b + k ≤ n) : field (slice l a n) b k = field l (a + b) k := by
  rw [field, slice_slice l a n b k h, field]

theorem byteAt_slice (l : List Byte) (a n i : Nat) (h : i < n) : byteAt (slice l a n) i = byteAt l (a + i) := by
  simp [byteAt, slice, List.getD, h]

theorem byteAt_take (l : List Byte) (n i : Nat) (h : i < n) : byteAt (l.take n) i = byteAt l i := by
  have := byteAt_slice l 0 n i h
  rwa [Nat.zero_add] at this

theorem field_take (l : List Byte) (n b k : Nat) (h : b + k ≤ n) : field (l.take n) b k = field l b k := by
  have := field_slice l 0 n b k h
  rwa [Nat.zero_add] at this

/-- A field of one byte. -/
theorem field_one (l : List Byte) (i : Nat) : field l i 1 = (byteAt l i).toNat := by
  have e : byteAt l i = (l.drop i).headD 0 := by simp [byteAt, List.getD, List.headD_eq_head?_getD]
  rw [e, field, slice]
  cases l.drop i with
  | nil => rfl
  | cons b bs => simp [ofBe]

/-- A field that was written as the bytes of a number. -/
theorem field_of_slice_be {l : List Byte} {a n v : Nat} (h : slice l a n = be n v) (hv : v < 256 ^ n) : field l a n = v := by
  rw [field, h, ofBe_be n v hv]

/-- Three bytes spell the greatest number exactly when each is 0xFF. -/
theorem ofBe_take_three_ones (l : List Byte) : ofBe (l.take 3) = 0xFFFFFF ↔ l.take 3 = [0xFF, 0xFF, 0xFF] := by
  have ones : ∀ b : Byte, b = 0xFF ↔ b.toNat = 255 := fun b => by rw [BitVec.toNat_eq]; rfl
  obtain _ | ⟨a, _ | ⟨b, _ | ⟨c, l⟩⟩⟩ := l
  · simp [ofBe]
  · have := a.isLt
    simp [ofBe]
    omega
  · have := a.isLt
    have := b.isLt
    simp [ofBe]
    omega
  · have := a.isLt
    have := b.isLt
    have := c.isLt
    simp only [ofBe, List.take_succ_cons, List.take_zero, List.foldl_cons, List.foldl_nil, List.cons.injEq, and_true, ones]
    omega

/-- R9, R12: the four bytes of class and total length all read 0xFF. -/
theorem slice_four_ones_iff (l : List Byte) (a : Nat) :
    slice l a 4 = [0xFF, 0xFF, 0xFF, 0xFF] ↔ byteAt l a = 0xFF ∧ field l (a + 1) 3 = 0xFFFFFF := by
  have hd : byteAt l a = (l.drop a).headD 0 := by simp [byteAt, List.getD, List.headD_eq_head?_getD]
  have tl : field l (a + 1) 3 = ofBe ((l.drop a).tail.take 3) := by rw [field, slice, List.tail_drop]
  rw [hd, tl, ofBe_take_three_ones, slice]
  cases l.drop a with
  | nil => simp
  | cons b bs => simp

/-! ### The zone plan (R40) -/

/-- R40: the bounds of a plan. -/
theorem planValid_iff (plan : List (Nat × Nat)) : planValid plan = true ↔
    1 ≤ plan.length ∧ plan.length ≤ 4 ∧ (∀ z ∈ plan, 8 ≤ z.1 ∧ z.1 ≤ 512 ∧ 1 ≤ z.2 ∧ z.2 ≤ 32) ∧ (plan.map (·.1)).sum = 512 := by
  simp only [planValid, Bool.and_eq_true, List.all_eq_true, decide_eq_true_eq, Config.sectorCount, and_assoc]

/-- R40: zone `z` is a zone of the plan that starts at or below sector `s` and ends above it. -/
theorem zoneOfSector_eq_iff (plan : List (Nat × Nat)) (s z : Nat) :
    z < plan.length ∧ z = zoneOfSector plan s ↔
      z < plan.length ∧ ((plan.map (·.1)).take z).sum ≤ s ∧ s < ((plan.map (·.1)).take (z + 1)).sum := by
  induction plan generalizing s z with
  | nil => simp
  | cons p ps ih =>
    unfold zoneOfSector
    cases z with
    | zero =>
      by_cases h : s < p.1 <;> simp [h]
    | succ z =>
      have := ih (s - p.1) z
      by_cases h : s < p.1
      · simp only [if_pos h, List.map_cons, List.take_succ_cons, List.sum_cons]
        omega
      · simp only [if_neg h, List.map_cons, List.take_succ_cons, List.sum_cons, List.length_cons, Nat.add_lt_add_iff_right,
          Nat.add_right_cancel_iff] at this ⊢
        rw [this]
        omega

theorem zoneOfSector_lt (plan : List (Nat × Nat)) (s : Nat) (h : s < (plan.map (·.1)).sum) : zoneOfSector plan s < plan.length := by
  induction plan generalizing s with
  | nil => cases h
  | cons p ps ih =>
    unfold zoneOfSector
    split
    · exact Nat.succ_pos _
    · rw [List.map_cons, List.sum_cons] at h
      exact Nat.succ_lt_succ (ih _ (by omega))

/-! ### A sector header as it is written (R5, R7) -/

section Written
variable (f z n : Nat) (plan : List (Nat × Nat)) (bad : Bool)

theorem sectorHeaderBytes_length : (sectorHeaderBytes f z n plan bad).length = 32 := by
  rw [sectorHeaderBytes_eq]
  simp [sectorHeaderBody_length, crc16Bytes_length]

/-- R5: the 8 bytes before the plan's entries. -/
def headerStart : List Byte := [0xB7] ++ be 2 f ++ be 1 z ++ be 3 n ++ be 1 plan.length

/-- R5: the 12 bytes of the plan's entries. -/
def headerEntries (plan : List (Nat × Nat)) : List Byte :=
  planEntryBytes plan 0 ++ planEntryBytes plan 1 ++ planEntryBytes plan 2 ++ planEntryBytes plan 3

theorem sectorHeaderBody_eq : sectorHeaderBody f z n plan = headerStart f z n plan ++ headerEntries plan := by
  simp only [sectorHeaderBody, headerStart, headerEntries, List.append_assoc]

theorem slice_headerEntries {i : Nat} (hi : i < 4) : slice (headerEntries plan) (3 * i) 3 = planEntryBytes plan i := by
  have entry (j : Nat) := List.length_eq_three.1 (planEntryBytes_length plan j)
  obtain ⟨a0, b0, c0, e0⟩ := entry 0
  obtain ⟨a1, b1, c1, e1⟩ := entry 1
  obtain ⟨a2, b2, c2, e2⟩ := entry 2
  obtain ⟨a3, b3, c3, e3⟩ := entry 3
  rw [headerEntries, e0, e1, e2, e3]
  interval_cases i
  · exact e0.symm
  · exact e1.symm
  · exact e2.symm
  · exact e3.symm

/-- The bytes that the CRC covers, read from the header. -/
theorem slice_sectorHeader_body {a k : Nat} (h : a + k ≤ 20) :
    slice (sectorHeaderBytes f z n plan bad) a k = slice (sectorHeaderBody f z n plan) a k := by
  rw [sectorHeaderBytes_eq, List.append_assoc, slice_append_left _ _ (by rw [sectorHeaderBody_length]; exact h)]

/-- The fields before the plan, read from the header. -/
theorem slice_sectorHeader_start {a k : Nat} (h : a + k ≤ 8) :
    slice (sectorHeaderBytes f z n plan bad) a k = slice (headerStart f z n plan) a k := by
  rw [slice_sectorHeader_body f z n plan bad (by omega), sectorHeaderBody_eq, slice_append_left _ _ (by exact h)]

/-- The plan's entries, read from the header. -/
theorem slice_sectorHeader_entry {i : Nat} (hi : i < 4) :
    slice (sectorHeaderBytes f z n plan bad) (8 + 3 * i) 3 = planEntryBytes plan i := by
  rw [slice_sectorHeader_body f z n plan bad (by omega), sectorHeaderBody_eq, ← slice_headerEntries plan hi]
  exact slice_append_right (headerStart f z n plan) _ _ _

/-- R7: the mark bytes, read from the header. -/
theorem sectorHeader_marks : markSet (byteAt (sectorHeaderBytes f z n plan bad) 30) = false ∧
    markSet (byteAt (sectorHeaderBytes f z n plan bad) 31) = bad := by
  have tail : slice (sectorHeaderBytes f z n plan bad) 30 2 = [0xFF, if bad then 0x00 else 0xFF] := by
    have len : (sectorHeaderBody f z n plan ++ crc16Bytes (sectorHeaderBody f z n plan)).length = 22 := by
      rw [List.length_append, sectorHeaderBody_length, crc16Bytes_length]
    rw [sectorHeaderBytes_eq]
    have := slice_append_right (sectorHeaderBody f z n plan ++ crc16Bytes (sectorHeaderBody f z n plan))
      (List.replicate 8 0xFF ++ [0xFF, if bad then 0x00 else 0xFF]) 8 2
    rw [len] at this
    exact this
  have first := byteAt_slice (sectorHeaderBytes f z n plan bad) 30 2 0 (by decide)
  have second := byteAt_slice (sectorHeaderBytes f z n plan bad) 30 2 1 (by decide)
  rw [tail] at first second
  rw [← first, ← second]
  cases bad <;> decide

theorem sectorHeader_crc : slice (sectorHeaderBytes f z n plan bad) 20 2 = crc16Bytes ((sectorHeaderBytes f z n plan bad).take 20) :=
  crc16Bytes_after (sectorHeaderBytes_eq f z n plan bad) (sectorHeaderBody_length f z n plan)

theorem sectorHeader_magic : byteAt (sectorHeaderBytes f z n plan bad) 0 = 0xB7 := by
  rw [← byteAt_slice _ 0 1 0 (by decide), slice_sectorHeader_start f z n plan bad (by decide)]
  rfl

variable {f z n plan}

theorem sectorHeader_format (hf : f ≤ 65535) : field (sectorHeaderBytes f z n plan bad) 1 2 = f :=
  field_of_slice_be (slice_sectorHeader_start f z n plan bad (by decide)) (by omega)

theorem sectorHeader_zone (hz : z < 256) : field (sectorHeaderBytes f z n plan bad) 3 1 = z :=
  field_of_slice_be (slice_sectorHeader_start f z n plan bad (by decide)) (by omega)

theorem sectorHeader_eraseCount (hn : n ≤ 0xFFFFFF) : field (sectorHeaderBytes f z n plan bad) 4 3 = n :=
  field_of_slice_be (slice_sectorHeader_start f z n plan bad (by decide)) (by omega)

theorem sectorHeader_zoneCount (hp : plan.length < 256) : field (sectorHeaderBytes f z n plan bad) 7 1 = plan.length :=
  field_of_slice_be (slice_sectorHeader_start f z n plan bad (by decide)) (by omega)

/-- R5: a plan's entry, read from the header. -/
theorem sectorHeader_entry (hp : planValid plan = true) {i : Nat} (hi : i < plan.length) :
    field (sectorHeaderBytes f z n plan bad) (8 + 3 * i) 2 = plan[i].1 ∧
      field (sectorHeaderBytes f z n plan bad) (10 + 3 * i) 1 = plan[i].2 := by
  obtain ⟨-, len, bounds, -⟩ := (planValid_iff plan).1 hp
  obtain ⟨-, count, -, mark⟩ := bounds plan[i] (List.getElem_mem hi)
  have entry : slice (sectorHeaderBytes f z n plan bad) (8 + 3 * i) 3 = be 2 plan[i].1 ++ be 1 plan[i].2 := by
    rw [slice_sectorHeader_entry f z n plan bad (by omega), planEntryBytes, List.getElem?_eq_getElem hi]
  have first := field_slice (sectorHeaderBytes f z n plan bad) (8 + 3 * i) 3 0 2 (by decide)
  have second := field_slice (sectorHeaderBytes f z n plan bad) (8 + 3 * i) 3 2 1 (by decide)
  rw [entry] at first second
  rw [show 8 + 3 * i + 2 = 10 + 3 * i by omega] at second
  exact ⟨first.symm.trans (field_of_slice_be rfl (by omega)), second.symm.trans (field_of_slice_be rfl (by omega))⟩

theorem sectorHeader_plan (hp : planValid plan = true) : headerPlan (sectorHeaderBytes f z n plan bad) = plan := by
  obtain ⟨-, len, -, -⟩ := (planValid_iff plan).1 hp
  unfold headerPlan
  rw [sectorHeader_zoneCount bad (by omega)]
  refine List.ext_getElem (by simp) fun i hi hi' => ?_
  obtain ⟨count, mark⟩ := sectorHeader_entry (f := f) (z := z) (n := n) bad hp hi'
  simp [count, mark]

end Written

/-! ### A sector header as it is read (R6) -/

/-- R6: the conditions of a valid header, over the plan that it records. -/
theorem sectorHeaderValid_iff (s : Nat) (h : List Byte) : sectorHeaderValid s h = true ↔
    byteAt h 0 = 0xB7 ∧ slice h 20 2 = crc16Bytes (h.take 20) ∧ field h 1 2 ≠ 0 ∧ 1 ≤ field h 7 1 ∧ field h 7 1 ≤ 4 ∧
      planValid (headerPlan h) = true ∧ (∀ i < 4, field h 7 1 ≤ i → slice h (8 + 3 * i) 3 = [0xFF, 0xFF, 0xFF]) ∧
      field h 3 1 = zoneOfSector (headerPlan h) s := by
  simp only [sectorHeaderValid, Bool.and_eq_true, List.all_eq_true, List.mem_range, Bool.or_eq_true, decide_eq_true_eq, and_assoc,
    ← Nat.not_lt, or_iff_not_imp_left]

theorem headerPlan_length (h : List Byte) : (headerPlan h).length = field h 7 1 := by simp [headerPlan]

/-- R40: the first sectors of the zones that a header records. -/
theorem headerPlan_first (h : List Byte) {z : Nat} (hz : z ≤ field h 7 1) :
    (((headerPlan h).map (·.1)).take z).sum = ((List.range z).map (fun i => field h (8 + 3 * i) 2)).sum := by
  rw [headerPlan, List.map_map, ← List.map_take, List.take_range, Nat.min_eq_left hz]
  rfl

/-- R40: the bounds of the plan that a header records. -/
theorem planValid_headerPlan_iff (h : List Byte) : planValid (headerPlan h) = true ↔
    1 ≤ field h 7 1 ∧ field h 7 1 ≤ 4 ∧
      (∀ i < field h 7 1, 8 ≤ field h (8 + 3 * i) 2 ∧ field h (8 + 3 * i) 2 ≤ 512 ∧
        1 ≤ field h (10 + 3 * i) 1 ∧ field h (10 + 3 * i) 1 ≤ 32) ∧
      ((List.range (field h 7 1)).map (fun i => field h (8 + 3 * i) 2)).sum = 512 := by
  rw [planValid_iff, headerPlan_length, ← headerPlan_first h (Nat.le_refl _), List.take_of_length_le (by simp [headerPlan])]
  simp only [headerPlan, List.forall_mem_map, List.mem_range]

/-- R6: a sector header written with fields in range is valid in its sector. -/
theorem sectorHeader_valid {s f n : Nat} {plan : List (Nat × Nat)} (hp : planValid plan = true) (f0 : 1 ≤ f) (hf : f ≤ 65535)
    (hs : s < 512) (bad : Bool) : sectorHeaderValid s (sectorHeaderBytes f (zoneOfSector plan s) n plan bad) = true := by
  obtain ⟨pos, len, -, sum⟩ := (planValid_iff plan).1 hp
  have zone := zoneOfSector_lt plan s (by omega)
  rw [sectorHeaderValid_iff, sectorHeader_plan bad hp, sectorHeader_format bad hf, sectorHeader_zone bad (by omega),
    sectorHeader_zoneCount bad (by omega)]
  refine ⟨sectorHeader_magic .., sectorHeader_crc .., by omega, pos, len, hp, fun i hi beyond => ?_, rfl⟩
  rw [slice_sectorHeader_entry _ _ _ _ _ hi, planEntryBytes, List.getElem?_eq_none beyond]

/-- Settles O10. -/
theorem sectorHeadersReadBack : Obligations.SectorHeadersReadBack := by
  refine ⟨fun s f n plan bad hp f0 hf hn hs => ?_, fun s h hs => ?_⟩
  · obtain ⟨suspect, badMark⟩ := sectorHeader_marks f (zoneOfSector plan s) n plan bad
    exact ⟨sectorHeaderBytes_length .., sectorHeader_valid hp f0 hf hs bad, sectorHeader_format bad hf,
      sectorHeader_eraseCount bad hn, sectorHeader_plan bad hp, suspect, badMark⟩
  · intro zones count lowWater firstSector zone
    rw [sectorHeaderValid_iff, planValid_headerPlan_iff]
    have inZone (hz : zone < zones) : zone = zoneOfSector (headerPlan h) s ↔ firstSector zone ≤ s ∧ s < firstSector (zone + 1) := by
      have := zoneOfSector_eq_iff (headerPlan h) s zone
      rw [headerPlan_length, headerPlan_first h (Nat.le_of_lt hz), headerPlan_first h hz] at this
      simpa only [show zone < field h 7 1 from hz, true_and] using this
    constructor
    · rintro ⟨magic, crc, format, pos, len, ⟨-, -, bounds, sum⟩, beyond, hzone⟩
      have hz : zone < zones := by
        have := zoneOfSector_lt (headerPlan h) s (by
          rw [← List.take_of_length_le (l := (headerPlan h).map (·.1)) (i := zones) (by simp [headerPlan, zones]),
            headerPlan_first h (Nat.le_refl _), sum]
          exact hs)
        rwa [← hzone, headerPlan_length] at this
      obtain ⟨lo, hi⟩ := (inZone hz).1 hzone
      exact ⟨magic, crc, format, pos, len, bounds, sum, beyond, hz, lo, hi⟩
    · rintro ⟨magic, crc, format, pos, len, bounds, sum, beyond, hz, lo, hi⟩
      exact ⟨magic, crc, format, pos, len, ⟨pos, len, bounds, sum⟩, beyond, (inZone hz).2 ⟨lo, hi⟩⟩

/-! ### An extent's first stage as it is written (R9) -/

section Written
variable (slot q i c : Nat) (head : Option (SlotClass × Nat)) (co : Bool)

theorem firstStageBytes_length : (firstStageBytes slot q i c head co).length = 32 := by
  rw [firstStageBytes_eq]
  simp [firstStageBody_length, crc16Bytes_length]

theorem slice_firstStage_body {a k : Nat} (h : a + k ≤ 14) :
    slice (firstStageBytes slot q i c head co) a k = slice (firstStageBody slot q i c head) a k := by
  rw [firstStageBytes_eq, List.append_assoc, slice_append_left _ _ (by rw [firstStageBody_length]; exact h)]

theorem firstStage_crc : slice (firstStageBytes slot q i c head co) 14 2 = crc16Bytes ((firstStageBytes slot q i c head co).take 14) :=
  crc16Bytes_after (firstStageBytes_eq slot q i c head co) (firstStageBody_length slot q i c head)

theorem firstStage_magic : byteAt (firstStageBytes slot q i c head co) 0 = 0x5E := by
  rw [← byteAt_slice _ 0 1 0 (by decide), slice_firstStage_body slot q i c head co (by decide)]
  rfl

/-- R9: the class and total length, or their 0xFF, read from the header. -/
theorem slice_firstStage_head : slice (firstStageBytes slot q i c head co) 10 4 = headBytes head := by
  rw [slice_firstStage_body slot q i c head co (by decide)]
  exact (slice_append_right ([0x5E] ++ be 2 slot ++ be 4 q ++ be 1 i ++ be 2 c) (headBytes head) 0 4).trans
    (List.take_of_length_le (by rw [List.drop_zero, headBytes_length]))

/-- R9, R10: the close stage and the mark bytes, read from the header. -/
theorem slice_firstStage_rest : slice (firstStageBytes slot q i c head co) 16 16 =
    List.replicate 7 0xFF ++ [if co then 0x00 else 0xFF] ++ List.replicate 8 0xFF := by
  have len : (firstStageBody slot q i c head ++ crc16Bytes (firstStageBody slot q i c head)).length = 16 := by
    rw [List.length_append, firstStageBody_length, crc16Bytes_length]
  have := slice_append_right (firstStageBody slot q i c head ++ crc16Bytes (firstStageBody slot q i c head))
    (List.replicate 7 0xFF ++ [if co then 0x00 else 0xFF] ++ List.replicate 8 0xFF) 0 16
  rw [len] at this
  rw [firstStageBytes_eq]
  exact this

theorem firstStage_close : slice (firstStageBytes slot q i c head co) 16 7 = List.replicate 7 0xFF := by
  have := slice_slice (firstStageBytes slot q i c head co) 16 16 0 7 (by decide)
  rw [slice_firstStage_rest] at this
  exact this.symm

/-- R9: of the marks, COMMITTED alone is as given. -/
theorem firstStage_marks : markSet (byteAt (firstStageBytes slot q i c head co) 23) = co ∧
    markSet (byteAt (firstStageBytes slot q i c head co) 24) = false ∧
    markSet (byteAt (firstStageBytes slot q i c head co) 25) = false := by
  have mark (k : Nat) (hk : k < 16) := byteAt_slice (firstStageBytes slot q i c head co) 16 16 k hk
  rw [slice_firstStage_rest] at mark
  rw [← mark 7 (by decide), ← mark 8 (by decide), ← mark 9 (by decide)]
  cases co <;> decide

variable {slot q i c}

theorem firstStage_slot (h : slot ≤ 4095) : field (firstStageBytes slot q i c head co) 1 2 = slot :=
  field_of_slice_be (slice_firstStage_body slot q i c head co (by decide)) (by omega)

theorem firstStage_sequence (h : q ≤ 0xFFFFFFFE) : field (firstStageBytes slot q i c head co) 3 4 = q :=
  field_of_slice_be (slice_firstStage_body slot q i c head co (by decide)) (by omega)

theorem firstStage_index (h : i ≤ 71) : field (firstStageBytes slot q i c head co) 7 1 = i :=
  field_of_slice_be (slice_firstStage_body slot q i c head co (by decide)) (by omega)

theorem firstStage_copy (h : c ≤ 65535) : field (firstStageBytes slot q i c head co) 8 2 = c :=
  field_of_slice_be (slice_firstStage_body slot q i c head co (by decide)) (by omega)

theorem firstStage_class (cls : SlotClass) (total : Nat) :
    byteAt (firstStageBytes slot q i c (some (cls, total)) co) 10 = cls.code := by
  rw [← byteAt_slice _ 10 4 0 (by decide), slice_firstStage_head]
  rfl

theorem firstStage_total (cls : SlotClass) {total : Nat} (h : total ≤ 262144) :
    field (firstStageBytes slot q i c (some (cls, total)) co) 11 3 = total := by
  have := field_slice (firstStageBytes slot q i c (some (cls, total)) co) 10 4 1 3 (by decide)
  rw [slice_firstStage_head] at this
  exact this.symm.trans (field_of_slice_be rfl (by omega))

end Written

/-! ### An extent's first stage as it is read (R12) -/

theorem classOf_isSome_iff (b : Byte) : (classOf b.toNat).isSome = true ↔ b = 0x01 ∨ b = 0x02 ∨ b = 0x03 := by
  simp only [BitVec.toNat_eq]
  unfold classOf
  split <;> simp_all

/-- R12: a class is read back from its byte. -/
theorem classOf_code {b : Byte} {cls : SlotClass} (h : classOf b.toNat = some cls) : cls.code = b := by
  rw [BitVec.toNat_eq]
  unfold classOf at h
  split at h
  case h_4 => cases h
  all_goals cases h; rw [‹b.toNat = _›]; rfl

/-- R12: the conditions of a valid first stage. -/
theorem firstStageValid_iff (h : List Byte) : firstStageValid h = true ↔
    byteAt h 0 = 0x5E ∧ slice h 14 2 = crc16Bytes (h.take 14) ∧ 1 ≤ field h 1 2 ∧ field h 1 2 ≤ 4095 ∧
    field h 3 4 ≠ 0 ∧ field h 3 4 ≠ 0xFFFFFFFF ∧ field h 7 1 ≤ 71 ∧
    (field h 7 1 = 0 → (byteAt h 10 = 0x01 ∨ byteAt h 10 = 0x02 ∨ byteAt h 10 = 0x03) ∧ field h 11 3 ≤ 262144) ∧
    (field h 7 1 ≠ 0 → byteAt h 10 = 0xFF ∧ field h 11 3 = 0xFFFFFF) := by
  have index : field h 7 1 < Config.maxExtents ↔ field h 7 1 ≤ 71 := Nat.lt_succ_iff
  have head : (if field h 7 1 = 0 then (classOf (field h 10 1)).isSome && decide (field h 11 3 ≤ Config.maxLength)
        else decide (slice h 10 4 = [0xFF, 0xFF, 0xFF, 0xFF])) = true ↔
      (field h 7 1 = 0 → (byteAt h 10 = 0x01 ∨ byteAt h 10 = 0x02 ∨ byteAt h 10 = 0x03) ∧ field h 11 3 ≤ 262144) ∧
      (field h 7 1 ≠ 0 → byteAt h 10 = 0xFF ∧ field h 11 3 = 0xFFFFFF) := by
    rw [field_one h 10]
    split
    · rename_i i0
      rw [Bool.and_eq_true, classOf_isSome_iff, decide_eq_true_eq]
      exact ⟨fun x => ⟨fun _ => x, fun c => absurd i0 c⟩, fun x => x.1 i0⟩
    · rename_i i0
      rw [decide_eq_true_eq, slice_four_ones_iff]
      exact ⟨fun x => ⟨fun c => absurd c i0, fun _ => x⟩, fun x => x.2 i0⟩
  unfold firstStageValid
  simp only [Bool.and_eq_true, decide_eq_true_eq, and_assoc, index, head]

/-- R9, R12: a first stage written with fields in range is valid, and its fields are read back. -/
theorem firstStage_readsBack {slot q i c : Nat} (cls : SlotClass) {total : Nat} (co : Bool) (s0 : 1 ≤ slot) (hs : slot ≤ 4095)
    (q0 : 1 ≤ q) (hq : q ≤ 0xFFFFFFFE) (hi : i ≤ 71) (ht : total ≤ 262144) :
    let h := firstStageBytes slot q i c (if i = 0 then some (cls, total) else none) co
    firstStageValid h = true ∧ (i = 0 → byteAt h 10 = cls.code ∧ field h 11 3 = total) := by
  have head : i = 0 → let h := firstStageBytes slot q i c (if i = 0 then some (cls, total) else none) co
      byteAt h 10 = cls.code ∧ field h 11 3 = total := by
    rintro rfl
    exact ⟨firstStage_class co cls total, firstStage_total co cls ht⟩
  refine ⟨?_, head⟩
  rw [firstStageValid_iff, firstStage_slot _ co hs, firstStage_sequence _ co hq, firstStage_index _ co hi]
  refine ⟨firstStage_magic .., firstStage_crc .., s0, hs, by omega, by omega, hi, fun i0 => ?_, fun i0 => ?_⟩
  · obtain ⟨hcls, htot⟩ := head i0
    rw [hcls, htot]
    exact ⟨by cases cls <;> decide, ht⟩
  · rw [if_neg i0, ← slice_four_ones_iff]
    exact slice_firstStage_head ..

end Sys2Proof.Machine
end

