-- ==== Sys2Proof/Proofs/ScanRead.lean ====
section
/-! SUPPORT. The scan of one sector: its class, the walk of its written space, and the candidates it leaves (R18, R172). -/
namespace Sys2Proof.Machine

theorem all_ones_iff (l : List Byte) : l.all (fun b => decide (b = 0xFF)) = true ↔ ∀ b ∈ l, b = 0xFF := by simp

/-- R7: a mark byte reads as set when any of its bits is 0. -/
theorem markSet_iff (b : Byte) : markSet b = true ↔ b ≠ 0xFF := by simp [markSet]

theorem markSet_eq_false_iff (b : Byte) : markSet b = false ↔ b = 0xFF := by simp [markSet]

/-! ### The class of a sector (R172) -/

/-- R172: what the walk finds of a sector that is not walked. -/
def Walk.nothing : Walk := { candidates := [], nextWrite := Config.sectorSize, walkSealed := true, space := 0, highest := 0 }

section Classify
variable {s : Nat} {bytes : List Byte}

theorem classify_blank (h : ∀ b ∈ bytes, b = 0xFF) : classify s bytes = (plainRecord .blankErased, Walk.nothing) :=
  if_pos ((all_ones_iff bytes).2 h)

theorem classify_not_blank (h : ¬ ∀ b ∈ bytes, b = 0xFF) : classify s bytes =
    if sectorHeaderValid s (bytes.take 32) then
      if markSet (byteAt (bytes.take 32) badOffset) then (headerRecord .bad (bytes.take 32) Walk.nothing, Walk.nothing)
      else (headerRecord .walked (bytes.take 32) (walk s bytes), walk s bytes)
    else (plainRecord .torn, Walk.nothing) :=
  if_neg (mt (all_ones_iff bytes).1 h)

theorem classify_torn (h : ¬ ∀ b ∈ bytes, b = 0xFF) (hv : ¬ sectorHeaderValid s (bytes.take 32) = true) :
    classify s bytes = (plainRecord .torn, Walk.nothing) := by
  rw [classify_not_blank h, if_neg hv]

theorem classify_bad (h : ¬ ∀ b ∈ bytes, b = 0xFF) (hv : sectorHeaderValid s (bytes.take 32) = true) (hb : byteAt bytes 31 ≠ 0xFF) :
    classify s bytes = (headerRecord .bad (bytes.take 32) Walk.nothing, Walk.nothing) := by
  rw [classify_not_blank h, if_pos hv, byteAt_take _ _ _ (by decide), if_pos ((markSet_iff _).2 hb)]

theorem classify_walked (h : ¬ ∀ b ∈ bytes, b = 0xFF) (hv : sectorHeaderValid s (bytes.take 32) = true) (hb : byteAt bytes 31 = 0xFF) :
    classify s bytes = (headerRecord .walked (bytes.take 32) (walk s bytes), walk s bytes) := by
  rw [classify_not_blank h, if_pos hv, byteAt_take _ _ _ (by decide), (markSet_eq_false_iff _).2 hb, if_neg Bool.false_ne_true]

/-- R170: the record of a valid header holds the header's fields. -/
theorem headerRecord_fields (c : ScanClass) (bytes : List Byte) (w : Walk) :
    let r := headerRecord c (bytes.take 32) w
    r.format = field bytes 1 2 ∧ r.plan = headerPlan (bytes.take 32) ∧ r.eraseCount = field bytes 4 3 ∧
      (r.suspect = true ↔ byteAt bytes 30 ≠ 0xFF) :=
  ⟨field_take _ _ _ _ (by decide), rfl, field_take _ _ _ _ (by decide), by
    rw [headerRecord, markSet_iff, byteAt_take _ _ _ (by decide)]⟩

end Classify

/-! ### The five forms of an extent header (R12) -/

section Walk
variable {s n h : Nat} {bytes : List Byte}

theorem extentForm_erased (he : ∀ b ∈ slice bytes h 32, b = 0xFF) : extentForm bytes h = .erased :=
  if_pos ((all_ones_iff _).2 he)

theorem extentForm_torn (he : ¬ ∀ b ∈ slice bytes h 32, b = 0xFF) (hf : ¬ firstStageValid (slice bytes h 32) = true) :
    extentForm bytes h = .torn := by
  rw [extentForm]
  dsimp only
  rw [if_neg (mt (all_ones_iff _).1 he), if_pos (by simpa using hf)]

theorem lengthFits_iff (h n : Nat) : lengthFits h n = true ↔ n ≤ 4032 ∧ h + 32 + n ≤ 4096 := by
  simp [lengthFits, Config.maxExtentData, Config.sectorSize]

/-- R12: the forms of a header with a valid first stage, by its close stage. -/
theorem extentForm_first (he : ¬ ∀ b ∈ slice bytes h 32, b = 0xFF) (hf : firstStageValid (slice bytes h 32) = true) :
    extentForm bytes h =
      let hd := slice bytes h 32
      let len := field hd 16 3
      if len = 0xFFFFFF then .unclosed
      else if ¬ (len ≤ 4032 ∧ h + 32 + len ≤ 4096) then .torn
      else if slice hd 19 4 = be 4 (crc32 (slice bytes (h + 32) len)).toNat then .closed
      else .unsound := by
  rw [extentForm]
  dsimp only
  rw [if_neg (mt (all_ones_iff _).1 he), hf, if_neg (by decide)]
  simp only [← lengthFits_iff, Bool.not_eq_true', Bool.not_eq_true]

/-! ### One step of the walk (R18) -/

theorem walkFrom_full (w : Walk) (hr : 4096 - h < 64) :
    walkFrom s bytes (n + 1) h w = { w with nextWrite := h, walkSealed := true } := if_pos hr

/-- R18: what the walk has seen once it has read the header at an offset. -/
def Walk.seeing (w : Walk) (hd : List Byte) : Walk :=
  if firstStageValid hd then { w with highest := max w.highest (field hd 3 4) } else w

theorem walkFrom_room (w : Walk) (hr : 64 ≤ 4096 - h) : walkFrom s bytes (n + 1) h w =
    let hd := slice bytes h 32
    let seen := w.seeing hd
    match extentForm bytes h with
    | .erased => { w with nextWrite := h, walkSealed := false }
    | .torn | .unclosed => { seen with nextWrite := Config.sectorSize, walkSealed := true }
    | .unsound =>
      walkFrom s bytes n (h + roundUp4 (32 + field hd 16 3)) { seen with space := seen.space + space (field hd 16 3) }
    | .closed =>
      let cs := if markSet (byteAt hd discardedOffset) then seen.candidates else seen.candidates ++ [candidateOf s h hd]
      walkFrom s bytes n (h + roundUp4 (32 + field hd 16 3))
        { seen with candidates := cs, space := seen.space + space (field hd 16 3) } := by
  rw [walkFrom, if_neg (Nat.not_lt.2 hr)]
  rfl

theorem walkFrom_erased (w : Walk) (hr : 64 ≤ 4096 - h) (he : ∀ b ∈ slice bytes h 32, b = 0xFF) :
    walkFrom s bytes (n + 1) h w = { w with nextWrite := h, walkSealed := false } := by
  rw [walkFrom_room w hr, extentForm_erased he]

theorem walkFrom_torn (w : Walk) (hr : 64 ≤ 4096 - h) (he : ¬ ∀ b ∈ slice bytes h 32, b = 0xFF)
    (hf : ¬ firstStageValid (slice bytes h 32) = true) :
    walkFrom s bytes (n + 1) h w = { w with nextWrite := 4096, walkSealed := true } := by
  rw [walkFrom_room w hr, extentForm_torn he hf]
  dsimp only
  rw [Walk.seeing, if_neg hf]

section First
variable (w : Walk) (hr : 64 ≤ 4096 - h) (he : ¬ ∀ b ∈ slice bytes h 32, b = 0xFF)
  (hf : firstStageValid (slice bytes h 32) = true)
include hr he hf

/-- R18: a header of a valid first stage that is not closed, or whose length does not fit, ends the walk. -/
theorem walkFrom_unclosed (hl : field (slice bytes h 32) 16 3 = 0xFFFFFF ∨
      ¬ (field (slice bytes h 32) 16 3 ≤ 4032 ∧ h + 32 + field (slice bytes h 32) 16 3 ≤ 4096)) :
    walkFrom s bytes (n + 1) h w =
      { w with highest := max w.highest (field (slice bytes h 32) 3 4), nextWrite := 4096, walkSealed := true } := by
  have seen : w.seeing (slice bytes h 32) = { w with highest := max w.highest (field (slice bytes h 32) 3 4) } := if_pos hf
  rw [walkFrom_room w hr, extentForm_first he hf]
  dsimp only
  rw [seen]
  by_cases hu : field (slice bytes h 32) 16 3 = 0xFFFFFF
  · rw [if_pos hu]
  · rw [if_neg hu, if_pos (hl.resolve_left hu)]

/-- R18: a closed header, sound or not, moves the walk on past its extent. -/
theorem walkFrom_closed (hl : field (slice bytes h 32) 16 3 ≠ 0xFFFFFF)
    (hfit : field (slice bytes h 32) 16 3 ≤ 4032 ∧ h + 32 + field (slice bytes h 32) 16 3 ≤ 4096) :
    walkFrom s bytes (n + 1) h w =
      walkFrom s bytes n (h + roundUp4 (32 + field (slice bytes h 32) 16 3))
        { w with
          highest := max w.highest (field (slice bytes h 32) 3 4)
          space := w.space + space (field (slice bytes h 32) 16 3)
          candidates :=
            if slice (slice bytes h 32) 19 4 = be 4 (crc32 (slice bytes (h + 32) (field (slice bytes h 32) 16 3))).toNat ∧
                byteAt (slice bytes h 32) 25 = 0xFF then w.candidates ++ [candidateOf s h (slice bytes h 32)]
            else w.candidates } := by
  have seen : w.seeing (slice bytes h 32) = { w with highest := max w.highest (field (slice bytes h 32) 3 4) } := if_pos hf
  rw [walkFrom_room w hr, extentForm_first he hf]
  dsimp only
  rw [seen, if_neg hl, if_neg (not_not.2 hfit)]
  by_cases sound : slice (slice bytes h 32) 19 4 = be 4 (crc32 (slice bytes (h + 32) (field (slice bytes h 32) 16 3))).toNat
  · rw [if_pos sound]
    by_cases disc : byteAt (slice bytes h 32) 25 = 0xFF
    · simp only [(markSet_eq_false_iff _).2 disc, Bool.false_eq_true, if_false, if_pos (And.intro sound disc)]
    · simp only [(markSet_iff _).2 disc, if_true, if_neg (fun x : _ ∧ _ => disc x.2)]
  · rw [if_neg sound]
    dsimp only
    rw [if_neg (fun x => sound x.1)]

end First
end Walk

/-- R12, R172: the class of a head's candidate is the one its byte names. -/
theorem candidateOf_class {hd : List Byte} (hf : firstStageValid hd = true) (h0 : field hd 7 1 = 0) (s h : Nat) :
    (candidateOf s h hd).cls.code = byteAt hd 10 := by
  obtain ⟨-, -, -, -, -, -, -, head, -⟩ := (firstStageValid_iff hd).1 hf
  obtain ⟨cls, hc⟩ := Option.isSome_iff_exists.1 ((classOf_isSome_iff _).2 (head h0).1)
  simp only [candidateOf, field_one, hc, Option.getD_some]
  exact classOf_code hc

/-! ### Candidates merged (R172) -/

theorem sameCopy_iff (a b : Candidate) :
    sameCopy a b = true ↔ b.slot = a.slot ∧ b.sequence = a.sequence ∧ b.index = a.index ∧ b.copy = a.copy := by
  simp only [sameCopy, Bool.and_eq_true, decide_eq_true_eq, and_assoc]
  exact ⟨fun ⟨s, q, i, c⟩ => ⟨s.symm, q.symm, i.symm, c.symm⟩, fun ⟨s, q, i, c⟩ => ⟨s.symm, q.symm, i.symm, c.symm⟩⟩

theorem any_sameCopy_iff (cs : List Candidate) (c : Candidate) : cs.any (sameCopy c) = true ↔
    ∃ d ∈ cs, d.slot = c.slot ∧ d.sequence = c.sequence ∧ d.index = c.index ∧ d.copy = c.copy := by
  simp only [List.any_eq_true, sameCopy_iff]

/-! ### The end of a sector's read (R172, R173) -/

/-- R172: the part once a sector's record is made and what its walk found is merged. -/
def recordScan (s : Nat) (bytes : List Byte) (p : Part) : Part :=
  { p with scu := { p.scu with
    records := p.scu.records ++ [(classify s bytes).1]
    candidates := (classify s bytes).2.candidates.foldl addCandidate p.scu.candidates
    highest := max p.scu.highest (classify s bytes).2.highest } }

theorem scanDone_eq (s : Nat) (bytes : List Byte) (p : Part) :
    scanDone s bytes p = if s + 1 < 512 then raiseScan (s + 1) (recordScan s bytes p) else decideStore (recordScan s bytes p) := rfl

/-- R59: a claim raised is one claim more, whatever it starts. -/
theorem raise_spec (u : Purpose) (k : OpKind) (l : Nat) (t : Target) (p : Part) :
    raise u k l t p = { p with pee := (raise u k l t p).pee } ∧
    (raise u k l t p).pee.claims = p.pee.claims ++ [{ age := p.pee.nextAge, purpose := u, kind := k, level := l, target := t }] ∧
    (raise u k l t p).pee.nextAge = p.pee.nextAge + 1 ∧ (raise u k l t p).pee.batch = p.pee.batch := by
  unfold raise
  dsimp only
  split
  all_goals exact ⟨rfl, rfl, rfl, rfl⟩

end Sys2Proof.Machine
end

