-- ==== Sys2Proof/Proofs/Generations.lean ====
section
/-! SUPPORT. Chosen copies and the live-eligible generations of a scan's candidates (R22 to R24). -/
namespace Sys2Proof.Machine

/-! ### Chosen copies (R22) -/

/-- The candidate is of the given index of a generation. -/
def Candidate.isCopyOf (slot sequence index : Nat) (c : Candidate) : Prop :=
  c.slot = slot ∧ c.sequence = sequence ∧ c.index = index

/-- The candidates for an index of a generation, in the order they were found. -/
def copiesOf (cs : List Candidate) (slot sequence index : Nat) : List Candidate :=
  cs.filter (fun c => decide (c.slot = slot) && decide (c.sequence = sequence) && decide (c.index = index))

theorem mem_copiesOf {cs : List Candidate} {slot q i : Nat} {c : Candidate} :
    c ∈ copiesOf cs slot q i ↔ c ∈ cs ∧ c.isCopyOf slot q i := by
  simp only [copiesOf, Candidate.isCopyOf, List.mem_filter, Bool.and_eq_true, decide_eq_true_eq, and_assoc]

/-- R22: a fold of `better` ends at one of the candidates, and none has a higher copy number. -/
theorem foldl_better_spec (l : List Candidate) (c : Candidate) :
    l.foldl better c ∈ c :: l ∧ ∀ d ∈ c :: l, d.copy ≤ (l.foldl better c).copy := by
  induction l generalizing c with
  | nil => simp
  | cons d l ih =>
    obtain ⟨mem, top⟩ := ih (better c d)
    have one : better c d = c ∨ better c d = d := by unfold better; split <;> simp
    have both : c.copy ≤ (better c d).copy ∧ d.copy ≤ (better c d).copy := by unfold better; split <;> omega
    have first := top _ List.mem_cons_self
    refine ⟨?_, fun e he => ?_⟩
    · rcases List.mem_cons.1 mem with e | mem
      · rw [List.foldl_cons, e]
        rcases one with e | e <;> simp [e]
      · exact List.mem_cons_of_mem _ (List.mem_cons_of_mem _ mem)
    · rcases List.mem_cons.1 he with rfl | he
      · exact both.1.trans first
      · rcases List.mem_cons.1 he with rfl | he
        · exact both.2.trans first
        · exact top e (List.mem_cons_of_mem _ he)

theorem chosen_eq_none_iff (cs : List Candidate) (slot q i : Nat) :
    chosen cs slot q i = none ↔ ∀ c ∈ cs, ¬ c.isCopyOf slot q i := by
  have none_iff : chosen cs slot q i = none ↔ copiesOf cs slot q i = [] := by
    unfold chosen
    rw [← copiesOf]
    cases copiesOf cs slot q i <;> simp
  rw [none_iff, List.eq_nil_iff_forall_not_mem]
  simp only [mem_copiesOf, not_and]

theorem chosen_spec {cs : List Candidate} {slot q i : Nat} {c : Candidate} (h : chosen cs slot q i = some c) :
    c ∈ cs ∧ c.isCopyOf slot q i ∧ ∀ d ∈ cs, d.isCopyOf slot q i → d.copy ≤ c.copy := by
  unfold chosen at h
  rw [← copiesOf] at h
  split at h
  · cases h
  · rename_i d ds e
    injection h with h
    obtain ⟨mem, top⟩ := foldl_better_spec ds d
    rw [← e, h] at mem
    rw [← e, h] at top
    obtain ⟨hc, copy⟩ := mem_copiesOf.1 mem
    exact ⟨hc, copy, fun d hd copy => top d (mem_copiesOf.2 ⟨hd, copy⟩)⟩

/-! ### The chosen run of a generation (R22, R23) -/

/-- `r` lists what `f` gives from `k` on, up to the first number without a value, or `n` of them. -/
def IsRun {α : Type} (f : Nat → Option α) (k n : Nat) (r : List α) : Prop :=
  r.length ≤ n ∧ (∀ i < r.length, f (k + i) = r[i]?) ∧ (r.length < n → f (k + r.length) = none)

/-- There is one such list. -/
theorem IsRun.unique {α : Type} {f : Nat → Option α} {k n : Nat} {r t : List α} (hr : IsRun f k n r) (ht : IsRun f k n t) : r = t := by
  obtain ⟨rlen, rget, rstop⟩ := hr
  obtain ⟨tlen, tget, tstop⟩ := ht
  have len : r.length = t.length := by
    rcases Nat.lt_trichotomy r.length t.length with h | h | h
    · have := (rstop (by omega)).symm.trans (tget _ h)
      rw [List.getElem?_eq_getElem h] at this
      cases this
    · exact h
    · have := (tstop (by omega)).symm.trans (rget _ h)
      rw [List.getElem?_eq_getElem h] at this
      cases this
  refine List.ext_getElem? fun i => ?_
  by_cases hi : i < r.length
  · exact (rget i hi).symm.trans (tget i (by omega))
  · rw [List.getElem?_eq_none (by omega), List.getElem?_eq_none (by omega)]

theorem takeWhile_isRun {α : Type} (f : Nat → Option α) (n k : Nat) :
    IsRun f k n ((((List.range' k n).map f).takeWhile (·.isSome)).filterMap id) := by
  induction n generalizing k with
  | zero => exact ⟨Nat.le_refl _, fun i hi => absurd hi (Nat.not_lt_zero _), fun h => absurd h (Nat.lt_irrefl _)⟩
  | succ n ih =>
    obtain ⟨len, get, stop⟩ := ih (k + 1)
    rw [List.range'_succ, List.map_cons]
    cases hk : f k with
    | none =>
      rw [List.takeWhile_cons_of_neg (by simp)]
      exact ⟨Nat.zero_le _, fun i hi => absurd hi (Nat.not_lt_zero _), fun _ => hk⟩
    | some a =>
      rw [List.takeWhile_cons_of_pos rfl, List.filterMap_cons_some (f := id) (b := a) rfl]
      refine ⟨Nat.succ_le_succ len, fun i hi => ?_, fun h => ?_⟩
      · cases i with
        | zero => exact hk
        | succ i =>
          rw [List.getElem?_cons_succ, ← get i (Nat.lt_of_succ_lt_succ hi)]
          congr 1
          omega
      · rw [← stop (Nat.lt_of_succ_lt_succ h), List.length_cons]
        congr 1
        omega

theorem chosenRun_isRun (cs : List Candidate) (slot q : Nat) : IsRun (chosen cs slot q) 0 72 (chosenRun cs slot q) := by
  rw [chosenRun, List.range_eq_range']
  exact takeWhile_isRun _ _ _

/-- The head of a generation's chosen run is one of its candidates. -/
theorem chosenRun_head {cs : List Candidate} {slot q : Nat} {h : Candidate} {t : List Candidate} (e : chosenRun cs slot q = h :: t) :
    h ∈ cs ∧ h.isCopyOf slot q 0 := by
  obtain ⟨-, get, -⟩ := chosenRun_isRun cs slot q
  have := get 0 (by rw [e]; exact Nat.succ_pos _)
  rw [e] at this
  obtain ⟨mem, copy, -⟩ := chosen_spec this
  exact ⟨mem, copy⟩

/-! ### Live-eligible generations (R23, R24) -/

theorem complete_iff (cs : List Candidate) (h : Candidate) (t : List Candidate) : complete cs (h :: t) = true ↔
    (∀ c ∈ cs, c.slot = h.slot → c.sequence = h.sequence → c.index < (h :: t).length) ∧ ((h :: t).map (·.length)).sum = h.total := by
  simp only [complete, Bool.and_eq_true, List.all_eq_true, Bool.or_eq_true, Bool.not_eq_true', Bool.and_eq_false_iff,
    decide_eq_false_iff_not, decide_eq_true_eq]
  refine and_congr_left' (forall₂_congr fun c _ => ?_)
  tauto

theorem eligibleRun_eq_some_iff (cs : List Candidate) (slot q : Nat) (run : List Candidate) :
    eligibleRun cs slot q = some run ↔ ∃ h t, run = h :: t ∧ chosenRun cs slot q = run ∧ complete cs run = true ∧
      h.committed = true ∧ h.obsolete = false := by
  unfold eligibleRun
  dsimp only
  split
  · rename_i h t e
    rw [e]
    split
    · rename_i hc
      simp only [Bool.and_eq_true, Bool.not_eq_true'] at hc
      obtain ⟨⟨hc, hco⟩, hob⟩ := hc
      constructor
      · rintro ⟨⟩
        exact ⟨h, t, rfl, rfl, hc, hco, hob⟩
      · rintro ⟨_, _, _, e', _⟩
        rw [e']
    · rename_i hc
      refine ⟨nofun, ?_⟩
      rintro ⟨_, _, e1, e2, hcomp, hco, hob⟩
      subst e1
      cases e2
      exact absurd (by simp [hcomp, hco, hob]) hc
  · rename_i e
    rw [e]
    refine ⟨nofun, ?_⟩
    rintro ⟨_, _, e1, e2, -⟩
    subst e1
    cases e2

/-- R22 to R24: the model's test of a generation is the statements'. -/
theorem eligibleRun_iff (cs : List Candidate) (slot q : Nat) (run : List Candidate) :
    eligibleRun cs slot q = some run ↔ LiveEligible cs slot q run := by
  rw [eligibleRun_eq_some_iff]
  constructor
  · rintro ⟨h, t, rfl, e, hcomp, hco, hob⟩
    obtain ⟨len, get, -⟩ := chosenRun_isRun cs slot q
    rw [e] at len get
    obtain ⟨-, hslot, hseq, -⟩ := chosenRun_head e
    obtain ⟨below, sum⟩ := (complete_iff cs h t).1 hcomp
    rw [hslot, hseq] at below
    exact ⟨len, fun i hi => by rw [← get i hi, Nat.zero_add], below, h, rfl, sum, hco, hob⟩
  · rintro ⟨len, get, below, h, hhead, sum, hco, hob⟩
    have none_after : run.length < 72 → chosen cs slot q (0 + run.length) = none := by
      rw [Nat.zero_add, chosen_eq_none_iff]
      rintro - c hc ⟨hslot, hseq, hidx⟩
      have := below c hc hslot hseq
      omega
    have e : chosenRun cs slot q = run :=
      (chosenRun_isRun cs slot q).unique ⟨len, fun i hi => by rw [Nat.zero_add]; exact get i hi, none_after⟩
    obtain ⟨t, rfl⟩ := List.head?_eq_some_iff.1 hhead
    obtain ⟨-, hslot, hseq, -⟩ := chosenRun_head e
    refine ⟨h, t, rfl, e, (complete_iff cs h t).2 ⟨?_, sum⟩, hco, hob⟩
    rw [hslot, hseq]
    exact below

/-- A live-eligible run starts with a candidate of index 0 of its generation. -/
theorem LiveEligible.head {cs : List Candidate} {slot q : Nat} {run : List Candidate} (h : LiveEligible cs slot q run) :
    ∃ c t, run = c :: t ∧ c ∈ cs ∧ c.isCopyOf slot q 0 := by
  obtain ⟨c, t, rfl, e, -⟩ := (eligibleRun_eq_some_iff cs slot q run).1 ((eligibleRun_iff cs slot q run).2 h)
  obtain ⟨mem, copy⟩ := chosenRun_head e
  exact ⟨c, t, rfl, mem, copy⟩

/-! ### The list of the live-eligible generations (R174) -/

theorem mem_insertPair {a x : Nat × Nat} {l : List (Nat × Nat)} : x ∈ insertPair a l ↔ x = a ∨ x ∈ l := by
  induction l with
  | nil => simp [insertPair]
  | cons b bs ih =>
    unfold insertPair
    split
    · rename_i e
      simp [e]
    · split
      · rw [List.mem_cons]
      · rw [List.mem_cons, ih, List.mem_cons]
        tauto

/-- The generations that have a candidate of index 0, in rising order. -/
def generations (cs : List Candidate) : List (Nat × Nat) :=
  (cs.filter (fun c => decide (c.index = 0))).foldl (fun l c => insertPair (c.slot, c.sequence) l) []

theorem foldl_insertPair_spec (l : List Candidate) (acc : List (Nat × Nat)) (h : acc.Pairwise pairBefore) :
    let r := l.foldl (fun l c => insertPair (c.slot, c.sequence) l) acc
    r.Pairwise pairBefore ∧ ∀ g, g ∈ r ↔ g ∈ acc ∨ ∃ c ∈ l, g = (c.slot, c.sequence) := by
  induction l generalizing acc with
  | nil => exact ⟨h, fun g => by simp⟩
  | cons c l ih =>
    obtain ⟨sorted, mem⟩ := ih _ (insertPair_sorted (c.slot, c.sequence) acc h).1
    refine ⟨sorted, fun g => ?_⟩
    rw [List.foldl_cons, mem, mem_insertPair, List.exists_mem_cons_iff]
    tauto

theorem generations_sorted (cs : List Candidate) : (generations cs).Pairwise pairBefore :=
  (foldl_insertPair_spec _ [] List.Pairwise.nil).1

theorem mem_generations {cs : List Candidate} {g : Nat × Nat} :
    g ∈ generations cs ↔ ∃ c ∈ cs, c.index = 0 ∧ g = (c.slot, c.sequence) := by
  rw [generations, (foldl_insertPair_spec _ [] List.Pairwise.nil).2]
  simp [and_assoc]

/-- The slot and sequence of a run's head. -/
def runKey (run : List Candidate) : Nat × Nat := (run.head?.map (fun h => (h.slot, h.sequence))).getD (0, 0)

theorem runKey_fst (run : List Candidate) : (runKey run).1 = runSlot run := by cases run <;> rfl

theorem LiveEligible.key {cs : List Candidate} {slot q : Nat} {run : List Candidate} (h : LiveEligible cs slot q run) :
    runKey run = (slot, q) := by
  obtain ⟨c, t, rfl, -, hslot, hseq, -⟩ := h.head
  exact Prod.ext hslot hseq

theorem eligibleRuns_eq (cs : List Candidate) : eligibleRuns cs = (generations cs).filterMap (fun g => eligibleRun cs g.1 g.2) := rfl

theorem mem_eligibleRuns {cs : List Candidate} {run : List Candidate} :
    run ∈ eligibleRuns cs ↔ ∃ slot q, LiveEligible cs slot q run := by
  rw [eligibleRuns_eq, List.mem_filterMap]
  constructor
  · rintro ⟨g, -, hg⟩
    exact ⟨g.1, g.2, (eligibleRun_iff cs g.1 g.2 run).1 hg⟩
  · rintro ⟨slot, q, h⟩
    obtain ⟨c, t, -, hc, hslot, hseq, h0⟩ := h.head
    exact ⟨(slot, q), mem_generations.2 ⟨c, hc, h0, by rw [hslot, hseq]⟩, (eligibleRun_iff cs slot q run).2 h⟩

theorem eligibleRuns_head {cs : List Candidate} {run : List Candidate} (h : run ∈ eligibleRuns cs) :
    ∃ c t, run = c :: t ∧ LiveEligible cs c.slot c.sequence run := by
  obtain ⟨slot, q, he⟩ := mem_eligibleRuns.1 h
  obtain ⟨c, t, e, -, hslot, hseq, -⟩ := he.head
  exact ⟨c, t, e, by rw [hslot, hseq]; exact he⟩

/-- R174: the live-eligible generations stand in rising order of slot and sequence, without repeats. -/
theorem eligibleRuns_keys (cs : List Candidate) : (eligibleRuns cs).Pairwise (fun a b => pairBefore (runKey a) (runKey b)) := by
  rw [eligibleRuns_eq]
  refine (generations_sorted cs).filterMap _ fun g g' hg a ha b hb => ?_
  rw [((eligibleRun_iff cs _ _ a).1 ha).key, ((eligibleRun_iff cs _ _ b).1 hb).key]
  exact hg

/-! ### Live and stale generations (R24) -/

theorem liveRuns_sublist (l : List (List Candidate)) : (liveRuns l).Sublist l := by
  induction l using liveRuns.induct with
  | case1 => exact List.Sublist.refl _
  | case2 r => exact List.Sublist.refl _
  | case3 r s rest e ih =>
    rw [liveRuns, if_pos e]
    exact ih.cons _
  | case4 r s rest e ih =>
    rw [liveRuns, if_neg e]
    exact ih.cons_cons _

theorem staleRuns_sublist (l : List (List Candidate)) : (staleRuns l).Sublist l := by
  induction l using staleRuns.induct with
  | case1 => exact List.Sublist.refl _
  | case2 r => exact List.nil_sublist _
  | case3 r s rest e ih =>
    rw [staleRuns, if_pos e]
    exact ih.cons_cons _
  | case4 r s rest e ih =>
    rw [staleRuns, if_neg e]
    exact ih.cons _

/-- Two generations of one slot, the first of lower sequence. -/
def Superseded (r d : List Candidate) : Prop := (runKey d).1 = (runKey r).1 ∧ (runKey r).2 < (runKey d).2

/-- R24: of a slot's generations the last is live, and the others, of lower sequence, are stale. -/
theorem liveRuns_staleRuns (l : List (List Candidate)) (h : l.Pairwise (fun a b => pairBefore (runKey a) (runKey b))) :
    (∀ r ∈ l, r ∈ liveRuns l ∨ r ∈ staleRuns l) ∧ ∀ r ∈ staleRuns l, ∃ d ∈ liveRuns l, Superseded r d := by
  induction l using liveRuns.induct with
  | case1 => exact ⟨nofun, nofun⟩
  | case2 r => exact ⟨fun _ => .inl, nofun⟩
  | case3 r s rest e ih =>
    obtain ⟨hr, hrest⟩ := List.pairwise_cons.1 h
    obtain ⟨cover, above⟩ := ih hrest
    rw [liveRuns, if_pos e, staleRuns, if_pos e]
    have rs : Superseded r s := by
      have := hr s List.mem_cons_self
      rw [← runKey_fst, ← runKey_fst] at e
      unfold pairBefore at this
      exact ⟨e.symm, by omega⟩
    refine ⟨fun x hx => ?_, fun x hx => ?_⟩
    · rcases List.mem_cons.1 hx with rfl | hx
      · exact .inr List.mem_cons_self
      · exact (cover x hx).imp id (List.mem_cons_of_mem _)
    · rcases List.mem_cons.1 hx with rfl | hx
      · rcases cover s List.mem_cons_self with hs | hs
        · exact ⟨s, hs, rs⟩
        · obtain ⟨d, hd, sd⟩ := above s hs
          exact ⟨d, hd, sd.1.trans rs.1, rs.2.trans sd.2⟩
      · exact above x hx
  | case4 r s rest e ih =>
    obtain ⟨-, hrest⟩ := List.pairwise_cons.1 h
    obtain ⟨cover, above⟩ := ih hrest
    rw [liveRuns, if_neg e, staleRuns, if_neg e]
    refine ⟨fun x hx => ?_, fun x hx => ?_⟩
    · rcases List.mem_cons.1 hx with rfl | hx
      · exact .inl List.mem_cons_self
      · exact (cover x hx).imp (List.mem_cons_of_mem _) id
    · obtain ⟨d, hd, sd⟩ := above x hx
      exact ⟨d, List.mem_cons_of_mem _ hd, sd⟩

end Sys2Proof.Machine
end

