-- ==== Sys2Proof/Proofs/ResolvedDirectory.lean ====
section
/-! SUPPORT. Resolve: the directory and the RECOVERY records it installs (R25, R29, R174). -/
namespace Sys2Proof.Machine

/-! ### The stages of resolve -/

/-- R24: the live generations that resolve installs. -/
def liveOf (cs : List Candidate) : List (List Candidate) := liveRuns (eligibleRuns cs)

/-- R24: the stale generations that resolve makes records of. -/
def staleOf (cs : List Candidate) : List (List Candidate) := staleRuns (eligibleRuns cs)

/-- R174: the RECOVERY records before their first attempts are raised. -/
def resolvedRecords (cs : List Candidate) : List Retiring := (staleOf cs).filterMap recordOfRun

/-- R175: the sector table with every tail candidate a TAIL. -/
def rawSectors (plan : List (Nat × Nat)) (p : Part) : List Sector :=
  p.scu.records.zipIdx.map
    (fun r => resolvedSector plan p.scu.records (liveOf p.scu.candidates) (staleOf p.scu.candidates) r.2 r.1)

/-- R176: the tail of each zone. -/
def resolvedTails (plan : List (Nat × Nat)) (p : Part) : List (Option Nat) :=
  (List.range plan.length).map (fun z => zoneTail z (rawSectors plan p))

/-- R176: the sector table with one TAIL of each zone at most. -/
def resolvedSectors (plan : List (Nat × Nat)) (p : Part) : List Sector := sealOthers (resolvedTails plan p) (rawSectors plan p)

/-- R40, R176: the zone table, before its spares. -/
def resolvedZones (plan : List (Nat × Nat)) (p : Part) : List Zone :=
  (zonesFrom 0 plan).zipIdx.map (fun z => { z.1 with tail := (resolvedTails plan p).getD z.2 none })

/-- R174 to R176: the tables installed. -/
def installTables (format : Nat) (plan : List (Nat × Nat)) (p : Part) : Part :=
  { p with
    sdr := { p.sdr with directory := (liveOf p.scu.candidates).filterMap (entryOfRun plan)
                        retiring := resolvedRecords p.scu.candidates
                        sequence := p.scu.highest + 1 }
    smp := { sectors := resolvedSectors plan p, zones := resolvedZones plan p }
    rcu := { p.rcu with eraseQueue := sectorsWhere (fun s => decide (s.state = .stale)) (resolvedSectors plan p)
                        evacQueue := sectorsWhere (fun s => decide (s.state = .sealed) && s.suspect) (resolvedSectors plan p) }
    scu := { p.scu with store := .mounted, format := format, candidates := [], records := [] } }

/-- R30: the next attempt of each record of a list is raised. -/
def raiseAll (rs : List Retiring) (p : Part) : Part := rs.foldl (fun q r => raiseObsolete r.slot r.sequence q) p

/-- R174 to R176: the part that resolve has made when it opens a batch. -/
def resolvedPart (format : Nat) (plan : List (Nat × Nat)) (p : Part) : Part :=
  reportAll (raiseAll (resolvedRecords p.scu.candidates) (setCond .mounted (installSpares available (installTables format plan p))))

theorem resolve_eq (format : Nat) (plan : List (Nat × Nat)) (p : Part) :
    resolve format plan p = openBatch (resolvedPart format plan p) := rfl

/-! ### What the stages leave as it is -/

/-- R57: the spares installed change the zones' spares alone. -/
theorem installSpares_eq (p : Part) : installSpares available p = { p with smp := { p.smp with
    zones := p.smp.zones.mapIdx (fun z r => { r with spareInUse := decide (available z p = 0) }) } } := by
  have upTo (n : Nat) : (List.range n).foldl
        (fun q z => modZone z (fun r => { r with spareInUse := decide (available z q = 0) }) q) p =
      { p with smp := { p.smp with
        zones := p.smp.zones.mapIdx (fun z r => if z < n then { r with spareInUse := decide (available z p = 0) } else r) } } := by
    induction n with
    | zero => simp [List.mapIdx_eq_zipIdx_map]
    | succ n ih =>
      rw [List.range_succ, List.foldl_concat, ih]
      refine congrArg (fun zs => ({ p with smp := { p.smp with zones := zs } } : Part)) (List.ext_getElem? fun z => ?_)
      simp only [List.getElem?_modify, List.getElem?_mapIdx]
      cases p.smp.zones[z]? with
      | none => rfl
      | some r =>
        by_cases hz : n = z
        · subst hz
          simp
          rfl
        · have : z < n ↔ z < n + 1 := by omega
          simp [hz, this]
  rw [installSpares, upTo]
  refine congrArg (fun zs => ({ p with smp := { p.smp with zones := zs } } : Part)) (List.ext_getElem? fun z => ?_)
  simp only [List.getElem?_mapIdx]
  by_cases hz : z < p.smp.zones.length
  · simp [hz]
  · rw [List.getElem?_eq_none (by omega)]
    rfl

/-- R126: a report changes no condition but a SPACE_LOW. -/
theorem reportFree_eq (z : Nat) (p : Part) : ∃ cs, reportFree z p = { p with link := { p.link with conds := cs } } ∧
    cs[0]? = p.link.conds[0]? := by
  have low : ∀ z, (spaceLowOf z).index ≠ 0 := by
    intro z
    unfold spaceLowOf
    split <;> decide
  unfold reportFree
  split
  · split
    · exact ⟨_, rfl, List.getElem?_modify_ne _ _ (low z)⟩
    · exact ⟨_, rfl, rfl⟩
  · exact ⟨_, rfl, rfl⟩

theorem reportAll_eq (p : Part) : ∃ cs, reportAll p = { p with link := { p.link with conds := cs } } ∧
    cs[0]? = p.link.conds[0]? := by
  unfold reportAll
  generalize List.range p.smp.zones.length = l
  induction l generalizing p with
  | nil => exact ⟨_, rfl, rfl⟩
  | cons z l ih =>
    obtain ⟨cs, e, h0⟩ := reportFree_eq z p
    obtain ⟨ds, e', h0'⟩ := ih (reportFree z p)
    rw [List.foldl_cons]
    refine ⟨ds, e'.trans ?_, h0'.trans ?_⟩
    · rw [e]
    · rw [e]
      exact h0

/-- R124: raising the open batch's claim changes the engine and that batch. -/
theorem raiseErase_eq (p : Part) : raiseErase p = { p with
    pee := (raiseErase p).pee, rcu := { p.rcu with openBatch := (raiseErase p).rcu.openBatch } } := by
  unfold raiseErase
  split
  · rw [(raise_spec ..).1]
  · rfl

/-- R122: opening a batch changes the engine, the open batch and the erase queue. -/
theorem openBatch_eq (p : Part) : openBatch p = { p with
    pee := (openBatch p).pee
    rcu := { p.rcu with eraseQueue := (openBatch p).rcu.eraseQueue, openBatch := (openBatch p).rcu.openBatch } } := by
  unfold openBatch
  split
  · rfl
  · split
    · dsimp only
      split
      · rw [raiseErase_eq]
      · rfl
    · rfl

/-! ### The records' attempts (R30) -/

/-- The slot and sequence of a record. -/
def Retiring.key (r : Retiring) : Nat × Nat := (r.slot, r.sequence)

/-- R30: a record of a generation with `k` attempts more counted. -/
def Retiring.tried (r : Retiring) (k : Nat) : Retiring := { r with attempts := r.attempts + k }

/-- R30: a record once an attempt of generation `s`, `n` is counted. -/
def Retiring.triedFor (s n : Nat) (r : Retiring) : Retiring := if r.slot = s && r.sequence = n then r.tried 1 else r

theorem Retiring.triedFor_head (s n : Nat) (r : Retiring) :
    (r.triedFor s n).key = r.key ∧ (r.triedFor s n).head = r.head ∧ (r.triedFor s n).level = r.level := by
  unfold Retiring.triedFor
  split <;> exact ⟨rfl, rfl, rfl⟩

/-- R30: raising a record's attempt changes the count of the records of its generation, and the engine. -/
theorem raiseObsolete_eq (s n : Nat) (p : Part) : raiseObsolete s n p = { p with
    sdr := { p.sdr with retiring := p.sdr.retiring.map (Retiring.triedFor s n) }
    pee := (raiseObsolete s n p).pee } := by
  unfold raiseObsolete
  split
  · rw [(raise_spec ..).1]
    rfl
  · rename_i h
    have absent : ∀ r ∈ p.sdr.retiring, r.triedFor s n = r := fun r hr => if_neg (List.find?_eq_none.1 h r hr)
    rw [List.map_congr_left absent, List.map_id']

/-- R30: the claims of an attempt join the claim set at its end. -/
theorem raiseObsolete_pee (s n : Nat) (p : Part) :
    p.pee.claims <+: (raiseObsolete s n p).pee.claims ∧ p.pee.nextAge ≤ (raiseObsolete s n p).pee.nextAge ∧
      (raiseObsolete s n p).pee.batch = p.pee.batch := by
  unfold raiseObsolete
  split
  · obtain ⟨-, claims, age, batch⟩ := raise_spec (.obsolete s n) .mark ‹Retiring›.level
      (.bytes ‹Retiring›.head.sector (‹Retiring›.head.offset + obsoleteOffset) [0x00])
      (modRetiring s n (fun r => { r with attempts := r.attempts + 1 }) p)
    exact ⟨⟨_, claims.symm⟩, by rw [age]; exact Nat.le_succ _, batch⟩
  · exact ⟨List.prefix_refl _, Nat.le_refl _, rfl⟩

theorem raiseObsolete_claimed {s n : Nat} {p : Part} {r : Retiring} (h : p.retiringOf s n = some r) :
    Claimed (.obsolete s n) .mark r.level (.bytes r.head.sector (r.head.offset + 24) [0x00]) p (raiseObsolete s n p) := by
  unfold raiseObsolete
  rw [h]
  dsimp only
  refine ⟨p.pee.nextAge, Nat.le_refl _, ?_⟩
  rw [(raise_spec ..).2.1]
  exact List.mem_append_right _ (List.mem_singleton_self _)

/-- R30: the record of a generation, found again once an attempt is raised, names the same head at the same level. -/
theorem raiseObsolete_retiringOf {s n s' n' : Nat} {p : Part} {r : Retiring} (h : p.retiringOf s' n' = some r) :
    ∃ t, (raiseObsolete s n p).retiringOf s' n' = some t ∧ t.head = r.head ∧ t.level = r.level := by
  obtain ⟨-, head, level⟩ := r.triedFor_head s n
  refine ⟨r.triedFor s n, ?_, head, level⟩
  unfold Part.retiringOf at h ⊢
  rw [raiseObsolete_eq, List.find?_map, Option.map_eq_some_iff]
  refine ⟨r, ?_, rfl⟩
  rw [← h]
  congr 1
  funext x
  obtain ⟨hs, hq⟩ := Prod.ext_iff.1 (x.triedFor_head s n).1
  simp only [Retiring.key] at hs hq
  simp only [Function.comp, hs, hq]

theorem Claimed.mono {u : Purpose} {k : OpKind} {l : Nat} {t : Target} {p p' q q' : Part} (h : Claimed u k l t p q)
    (age : p'.pee.nextAge ≤ p.pee.nextAge) (claims : q.pee.claims <+: q'.pee.claims) : Claimed u k l t p' q' := by
  obtain ⟨a, ha, mem⟩ := h
  exact ⟨a, age.trans ha, claims.subset mem⟩

theorem raiseAll_pee (rs : List Retiring) (p : Part) :
    p.pee.claims <+: (raiseAll rs p).pee.claims ∧ p.pee.nextAge ≤ (raiseAll rs p).pee.nextAge ∧
      (raiseAll rs p).pee.batch = p.pee.batch := by
  induction rs generalizing p with
  | nil => exact ⟨List.prefix_refl _, Nat.le_refl _, rfl⟩
  | cons r rs ih =>
    obtain ⟨claims, age, batch⟩ := raiseObsolete_pee r.slot r.sequence p
    obtain ⟨claims', age', batch'⟩ := ih (raiseObsolete r.slot r.sequence p)
    exact ⟨claims.trans claims', age.trans age', batch'.trans batch⟩

/-- R30: each record raised has its claim. -/
theorem raiseAll_claimed (rs : List Retiring) (p : Part)
    (h : ∀ r ∈ rs, ∃ t, p.retiringOf r.slot r.sequence = some t ∧ t.head = r.head ∧ t.level = r.level) :
    ∀ r ∈ rs, Claimed (.obsolete r.slot r.sequence) .mark r.level (.bytes r.head.sector (r.head.offset + 24) [0x00]) p (raiseAll rs p) := by
  induction rs generalizing p with
  | nil => exact nofun
  | cons x rs ih =>
    intro r hr
    rcases List.mem_cons.1 hr with rfl | hr
    · obtain ⟨t, ht, head, level⟩ := h r List.mem_cons_self
      have := raiseObsolete_claimed ht
      rw [head, level] at this
      exact this.mono (Nat.le_refl _) (raiseAll_pee rs _).1
    · refine (ih (raiseObsolete x.slot x.sequence p) (fun y hy => ?_) r hr).mono (raiseObsolete_pee _ _ _).2.1 (List.prefix_refl _)
      obtain ⟨t, ht, head, level⟩ := h y (List.mem_cons_of_mem _ hy)
      obtain ⟨t', ht', head', level'⟩ := raiseObsolete_retiringOf (s := x.slot) (n := x.sequence) ht
      exact ⟨t', ht', head'.trans head, level'.trans level⟩

/-- R30: raising a list's attempts counts one for each of a record's generation. -/
theorem raiseAll_eq (rs : List Retiring) (p : Part) : raiseAll rs p = { p with
    sdr := { p.sdr with retiring := p.sdr.retiring.map (fun r => r.tried ((rs.map Retiring.key).count r.key)) }
    pee := (raiseAll rs p).pee } := by
  induction rs generalizing p with
  | nil => simp [raiseAll, Retiring.tried]
  | cons x rs ih =>
    have more (r : Retiring) : (r.triedFor x.slot x.sequence).tried ((rs.map Retiring.key).count (r.triedFor x.slot x.sequence).key) =
        r.tried (((x :: rs).map Retiring.key).count r.key) := by
      rw [(r.triedFor_head _ _).1, List.map_cons, List.count_cons, Retiring.triedFor]
      by_cases hx : r.key = x.key
      · obtain ⟨hs, hq⟩ := Prod.ext_iff.1 hx
        simp only [Retiring.key] at hs hq
        simp only [hs, hq, decide_true, Bool.and_true, if_true, hx, beq_self_eq_true]
        simp only [Retiring.tried, Nat.add_assoc, Nat.add_comm 1]
      · have hb : ¬ ((decide (r.slot = x.slot) && decide (r.sequence = x.sequence)) = true) := by
          simpa [Retiring.key] using hx
        rw [if_neg hb, beq_false_of_ne (Ne.symm hx), if_neg Bool.false_ne_true, Nat.add_zero]
    have step : raiseAll (x :: rs) p = raiseAll rs (raiseObsolete x.slot x.sequence p) := rfl
    rw [step, ih, raiseObsolete_eq]
    simp only [List.map_map, Function.comp_def, more]

/-! ### The directory and the records (R174) -/

theorem mem_liveOf {cs : List Candidate} {run : List Candidate} (h : run ∈ liveOf cs) :
    ∃ c t, run = c :: t ∧ LiveEligible cs c.slot c.sequence run := eligibleRuns_head ((liveRuns_sublist _).subset h)

theorem mem_staleOf {cs : List Candidate} {run : List Candidate} (h : run ∈ staleOf cs) :
    ∃ c t, run = c :: t ∧ LiveEligible cs c.slot c.sequence run := eligibleRuns_head ((staleRuns_sublist _).subset h)

/-- R174: the RECOVERY record of a run with a given head, before its first attempt. -/
theorem recordOfRun_cons (c : Candidate) (t : List Candidate) : recordOfRun (c :: t) =
    some { slot := c.slot, sequence := c.sequence, extents := (c :: t).map Candidate.elem, head := c.elem, superseded := false,
           level := 0, attempts := 0, waiting := none, deferred := false, extra := none } := rfl

theorem entryOfRun_cons (plan : List (Nat × Nat)) (c : Candidate) (t : List Candidate) : entryOfRun plan (c :: t) =
    some { slot := c.slot, zone := zoneOfSector plan c.sector, cls := c.cls, length := c.total, sequence := c.sequence,
           extents := (c :: t).map Candidate.elem, openCtx := none, deletePending := false, relocating := false, lingering := [] } := rfl

theorem recordOfRun_key {run : List Candidate} {r : Retiring} (h : recordOfRun run = some r) : r.key = runKey run := by
  cases run with
  | nil => cases h
  | cons c t =>
    rw [recordOfRun_cons] at h
    injection h with h
    subst h
    rfl

theorem entryOfRun_key {plan : List (Nat × Nat)} {run : List Candidate} {d : DirEntry} (h : entryOfRun plan run = some d) :
    (d.slot, d.sequence) = runKey run := by
  cases run with
  | nil => cases h
  | cons c t =>
    rw [entryOfRun_cons] at h
    injection h with h
    subst h
    rfl

/-- R174: the records stand in rising order of slot and sequence. -/
theorem resolvedRecords_sorted (cs : List Candidate) : (resolvedRecords cs).Pairwise (fun a b => pairBefore a.key b.key) := by
  refine ((eligibleRuns_keys cs).sublist (staleRuns_sublist _)).filterMap _ fun a b hab x hx y hy => ?_
  rw [recordOfRun_key hx, recordOfRun_key hy]
  exact hab

theorem resolvedRecords_nodup (cs : List Candidate) : ((resolvedRecords cs).map Retiring.key).Nodup := by
  refine List.pairwise_map.2 ((resolvedRecords_sorted cs).imp fun {a b} h e => ?_)
  rw [e] at h
  unfold pairBefore at h
  omega

/-- R29, R30: the records once the first attempt of each is raised. -/
def raisedRecords (cs : List Candidate) : List Retiring := (resolvedRecords cs).map (fun r => { r with attempts := 1 })

theorem resolvedRecords_attempts {cs : List Candidate} {r : Retiring} (h : r ∈ resolvedRecords cs) : r.attempts = 0 := by
  obtain ⟨run, hrun, e⟩ := List.mem_filterMap.1 h
  obtain ⟨c, t, rfl, -⟩ := mem_staleOf hrun
  rw [recordOfRun_cons] at e
  injection e with e
  rw [← e]

/-- R30: each record's first attempt is counted once. -/
theorem resolvedRecords_raised (cs : List Candidate) : (resolvedRecords cs).map
    (fun r => r.tried (((resolvedRecords cs).map Retiring.key).count r.key)) = raisedRecords cs := by
  refine List.map_congr_left fun r hr => ?_
  rw [List.count_eq_one_of_mem (resolvedRecords_nodup cs) (List.mem_map_of_mem hr), Retiring.tried, resolvedRecords_attempts hr]

/-- The part that resolve has made when it raises the records' claims. -/
theorem raiseAll_resolved (cs : List Candidate) (p : Part) (h : p.sdr.retiring = resolvedRecords cs) :
    raiseAll (resolvedRecords cs) p = { p with
      sdr := { p.sdr with retiring := raisedRecords cs }, pee := (raiseAll (resolvedRecords cs) p).pee } := by
  rw [raiseAll_eq, h, resolvedRecords_raised]

theorem find?_of_nodup_keys {l : List Retiring} (h : (l.map Retiring.key).Nodup) {r : Retiring} (hr : r ∈ l) :
    l.find? (fun x => x.slot = r.slot && x.sequence = r.sequence) = some r := by
  induction l with
  | nil => cases hr
  | cons x l ih =>
    rw [List.map_cons] at h
    obtain ⟨hx, hl⟩ := List.nodup_cons.1 h
    rcases List.mem_cons.1 hr with rfl | hr
    · simp
    · have ne : ¬ ((decide (x.slot = r.slot) && decide (x.sequence = r.sequence)) = true) := by
        intro e
        simp only [Bool.and_eq_true, decide_eq_true_eq] at e
        exact hx (List.mem_map.2 ⟨r, hr, Prod.ext e.1.symm e.2.symm⟩)
      rw [List.find?_cons_of_neg (p := fun x : Retiring => x.slot = r.slot && x.sequence = r.sequence) ne]
      exact ih hl hr

/-! ### Resolve as a whole -/

section Resolve
variable (format : Nat) (plan : List (Nat × Nat)) (p : Part)

/-- R57, R174 to R176: what resolve has made when it opens a batch, but for the engine and the conditions. -/
theorem resolvedPart_eq : ∃ conds, resolvedPart format plan p =
    { installTables format plan p with
      link := { p.link with conds := conds }
      sdr := { (installTables format plan p).sdr with retiring := raisedRecords p.scu.candidates }
      smp := (installSpares available (installTables format plan p)).smp
      pee := (resolvedPart format plan p).pee } ∧
    (∀ r, p.link.conds[0]? = some r → conds[0]? = some { r with set := true }) := by
  obtain ⟨conds, e, h0⟩ := reportAll_eq
    (raiseAll (resolvedRecords p.scu.candidates) (setCond .mounted (installSpares available (installTables format plan p))))
  refine ⟨conds, ?_, fun r hr => h0.trans ?_⟩
  · unfold resolvedPart
    rw [e, raiseAll_resolved _ _ (by rw [setCond_sdr, installSpares_eq]; rfl), installSpares_eq]
    rfl
  · rw [raiseAll_resolved _ _ (by rw [setCond_sdr, installSpares_eq]; rfl), installSpares_eq]
    simp [setCond, Cond.index, installTables, hr]

/-- R30: the engine when resolve opens a batch: the records' claims and none besides. -/
theorem resolvedPart_pee : (resolvedPart format plan p).pee = (raiseAll (resolvedRecords p.scu.candidates)
    (setCond .mounted (installSpares available (installTables format plan p)))).pee := by
  obtain ⟨conds, e, -⟩ := reportAll_eq
    (raiseAll (resolvedRecords p.scu.candidates) (setCond .mounted (installSpares available (installTables format plan p))))
  unfold resolvedPart
  rw [e]

theorem resolvedPart_batch : (resolvedPart format plan p).pee.batch = p.pee.batch := by
  rw [resolvedPart_pee, (raiseAll_pee _ _).2.2, setCond_pee, installSpares_eq]
  rfl

/-- R29, R30: each record of resolve has its first claim. -/
theorem resolvedPart_claimed {r : Retiring} (hr : r ∈ resolvedRecords p.scu.candidates) :
    Claimed (.obsolete r.slot r.sequence) .mark r.level (.bytes r.head.sector (r.head.offset + 24) [0x00]) p
      (resolvedPart format plan p) := by
  have base : (setCond .mounted (installSpares available (installTables format plan p))).sdr.retiring =
      resolvedRecords p.scu.candidates := by
    rw [setCond_sdr, installSpares_eq]
    rfl
  have claimed := raiseAll_claimed (resolvedRecords p.scu.candidates)
    (setCond .mounted (installSpares available (installTables format plan p)))
    (fun x hx => ⟨x, by rw [Part.retiringOf, base]; exact find?_of_nodup_keys (resolvedRecords_nodup _) hx, rfl, rfl⟩) r hr
  refine claimed.mono ?_ (by rw [resolvedPart_pee])
  rw [setCond_pee, installSpares_eq]
  exact Nat.le_refl _

theorem resolve_sdr : (resolve format plan p).sdr =
    { p.sdr with directory := (liveOf p.scu.candidates).filterMap (entryOfRun plan)
                 retiring := raisedRecords p.scu.candidates
                 sequence := p.scu.highest + 1 } := by
  obtain ⟨conds, e, -⟩ := resolvedPart_eq format plan p
  rw [resolve_eq, openBatch_eq, e]
  rfl

theorem resolve_retiring : (resolve format plan p).sdr.retiring = raisedRecords p.scu.candidates := by rw [resolve_sdr]

theorem resolve_scu : (resolve format plan p).scu =
    { p.scu with store := .mounted, format := format, candidates := [], records := [] } := by
  obtain ⟨conds, e, -⟩ := resolvedPart_eq format plan p
  rw [resolve_eq, openBatch_eq, e]
  rfl

theorem resolve_smp : (resolve format plan p).smp = (installSpares available (installTables format plan p)).smp := by
  obtain ⟨conds, e, -⟩ := resolvedPart_eq format plan p
  rw [resolve_eq, openBatch_eq, e]

theorem resolve_evacQueue : (resolve format plan p).rcu.evacQueue =
    sectorsWhere (fun s => decide (s.state = .sealed) && s.suspect) (resolvedSectors plan p) := by
  obtain ⟨conds, e, -⟩ := resolvedPart_eq format plan p
  rw [resolve_eq, openBatch_eq, e]
  rfl

/-- R173: the MOUNTED condition is set. -/
theorem resolve_mountedCond {r : CondRow} (hr : p.link.conds[0]? = some r) :
    (resolve format plan p).link.conds[0]? = some { r with set := true } := by
  obtain ⟨conds, e, h0⟩ := resolvedPart_eq format plan p
  rw [resolve_eq, openBatch_eq, e]
  exact h0 r hr

theorem resolve_claimed {r : Retiring} (hr : r ∈ resolvedRecords p.scu.candidates) :
    Claimed (.obsolete r.slot r.sequence) .mark r.level (.bytes r.head.sector (r.head.offset + 24) [0x00]) p (resolve format plan p) := by
  obtain ⟨l, claims, -⟩ := (openBatch_mapStep (MapStep.refl (resolvedPart format plan p))).claims
  exact (resolvedPart_claimed format plan p hr).mono (Nat.le_refl _) ⟨l, claims.symm⟩

/-! ### The directory and the records against the candidates -/

theorem resolve_directory_sound {d : DirEntry} (hd : d ∈ (resolve format plan p).sdr.directory) :
    ∃ c t, LiveEligible p.scu.candidates d.slot d.sequence (c :: t) ∧ c :: t ∈ liveOf p.scu.candidates ∧
      entryOfRun plan (c :: t) = some d := by
  rw [resolve_sdr] at hd
  obtain ⟨run, hrun, e⟩ := List.mem_filterMap.1 hd
  obtain ⟨c, t, rfl, he⟩ := mem_liveOf hrun
  obtain ⟨hs, hq⟩ := Prod.ext_iff.1 (entryOfRun_key e)
  exact ⟨c, t, by rw [show d.slot = _ from hs, show d.sequence = _ from hq]; exact he, hrun, e⟩

/-- R174: each live generation has its entry. -/
theorem resolve_directory_complete {run : List Candidate} (h : run ∈ liveOf p.scu.candidates) :
    ∃ d ∈ (resolve format plan p).sdr.directory, (d.slot, d.sequence) = runKey run := by
  obtain ⟨c, t, rfl, -⟩ := mem_liveOf h
  rw [resolve_sdr]
  exact ⟨_, List.mem_filterMap.2 ⟨_, h, entryOfRun_cons plan c t⟩, rfl⟩

/-- R174: each record is of a stale generation, whose slot has an entry of higher sequence. -/
theorem resolve_retiring_sound {r : Retiring} (hr : r ∈ (resolve format plan p).sdr.retiring) :
    (∃ run, LiveEligible p.scu.candidates r.slot r.sequence run) ∧
      ∃ d ∈ (resolve format plan p).sdr.directory, d.slot = r.slot ∧ r.sequence < d.sequence := by
  rw [resolve_retiring] at hr
  obtain ⟨r0, hr0, rfl⟩ := List.mem_map.1 hr
  obtain ⟨run, hrun, e⟩ := List.mem_filterMap.1 hr0
  obtain ⟨hs, hq⟩ := Prod.ext_iff.1 (recordOfRun_key e)
  obtain ⟨live, hlive, slot, below⟩ := (liveRuns_staleRuns _ (eligibleRuns_keys p.scu.candidates)).2 run hrun
  obtain ⟨d, hd, key⟩ := resolve_directory_complete format plan p hlive
  obtain ⟨ds, dq⟩ := Prod.ext_iff.1 key
  simp only [Retiring.key] at hs hq ds dq
  obtain ⟨c, t, rfl, he⟩ := mem_staleOf hrun
  refine ⟨⟨c :: t, ?_⟩, d, hd, ?_, ?_⟩
  · show LiveEligible _ r0.slot r0.sequence _
    rw [hs, hq]
    exact he
  · show d.slot = r0.slot
    rw [ds, slot, hs]
  · show r0.sequence < d.sequence
    rw [hq, dq]
    exact below

/-- R29, R174: each stale generation has its record, whose first attempt is raised. -/
theorem resolve_retiring_complete {run : List Candidate} (h : run ∈ staleOf p.scu.candidates) :
    ∃ r ∈ (resolve format plan p).sdr.retiring, r.key = runKey run ∧ r.superseded = false ∧ r.level = 0 ∧ r.waiting = none ∧
      r.extents = run.map Candidate.elem ∧ r.extents.head? = some r.head ∧ r.attempts = 1 ∧ r.deferred = false ∧ r.extra = none ∧
      Claimed (.obsolete r.slot r.sequence) .mark 0 (.bytes r.head.sector (r.head.offset + 24) [0x00]) p (resolve format plan p) := by
  obtain ⟨c, t, rfl, -⟩ := mem_staleOf h
  have record : _ ∈ resolvedRecords p.scu.candidates := List.mem_filterMap.2 ⟨_, h, recordOfRun_cons c t⟩
  have raised : _ ∈ raisedRecords p.scu.candidates := List.mem_map_of_mem record
  have claimed := resolve_claimed format plan p record
  rw [← resolve_retiring format plan p] at raised
  exact ⟨_, raised, rfl, rfl, rfl, rfl, rfl, rfl, rfl, rfl, rfl, claimed⟩

/-- R174: the records stand in rising order of slot and sequence. -/
theorem resolve_retiring_sorted : (resolve format plan p).sdr.retiring.Pairwise
    (fun a b => a.slot < b.slot ∨ (a.slot = b.slot ∧ a.sequence < b.sequence)) := by
  rw [resolve_sdr]
  exact List.pairwise_map.2 (resolvedRecords_sorted p.scu.candidates)

/-- R24, R174: a live-eligible generation is the slot's entry, or has a record below it. -/
theorem resolve_covers {slot n : Nat} {run : List Candidate} (h : LiveEligible p.scu.candidates slot n run) :
    ∃ d ∈ (resolve format plan p).sdr.directory, d.slot = slot ∧ n ≤ d.sequence ∧
      (n < d.sequence → run ∈ staleOf p.scu.candidates) := by
  obtain ⟨cover, above⟩ := liveRuns_staleRuns _ (eligibleRuns_keys p.scu.candidates)
  rcases cover run (mem_eligibleRuns.2 ⟨slot, n, h⟩) with hlive | hstale
  · obtain ⟨d, hd, key⟩ := resolve_directory_complete format plan p hlive
    obtain ⟨ds, dq⟩ := Prod.ext_iff.1 (key.trans h.key)
    simp only at ds dq
    exact ⟨d, hd, ds, by omega, fun lt => absurd lt (by omega)⟩
  · obtain ⟨live, hlive, slotEq, below⟩ := above run hstale
    obtain ⟨d, hd, key⟩ := resolve_directory_complete format plan p hlive
    obtain ⟨ds, dq⟩ := Prod.ext_iff.1 key
    rw [h.key] at slotEq below
    simp only at ds dq slotEq below
    exact ⟨d, hd, ds.trans slotEq, by omega, fun _ => hstale⟩

end Resolve

end Sys2Proof.Machine
end

