-- ==== Sys2Proof/Proofs/ResolvedSectors.lean ====
section
/-! SUPPORT. Resolve: the sector and zone tables and the queues it installs (R121 to R124, R127, R175, R176). -/
namespace Sys2Proof.Machine

/-! ### Folds that pick a greatest value -/

theorem foldl_max_spec {α : Type} (f : α → Nat) (l : List α) (n : Nat) :
    let m := l.foldl (fun m x => max m (f x)) n
    n ≤ m ∧ (∀ x ∈ l, f x ≤ m) ∧ (m = n ∨ ∃ x ∈ l, f x = m) := by
  induction l generalizing n with
  | nil => exact ⟨Nat.le_refl _, nofun, .inl rfl⟩
  | cons x l ih =>
    obtain ⟨lo, all, att⟩ := ih (max n (f x))
    dsimp only [List.foldl_cons] at lo all att ⊢
    refine ⟨by omega, fun y hy => ?_, ?_⟩
    · rcases List.mem_cons.1 hy with rfl | hy
      · omega
      · exact all y hy
    · rcases att with e | ⟨y, hy, e⟩
      · rcases Nat.le_total (f x) n with h | h
        · exact .inl (e.trans (Nat.max_eq_left h))
        · exact .inr ⟨x, List.mem_cons_self, (e.trans (Nat.max_eq_right h)).symm⟩
      · exact .inr ⟨y, List.mem_cons_of_mem _ hy, e⟩

/-- R176: of two sectors given with their room, the one with more, the first on a tie. -/
def roomier (best : Option (Nat × Nat)) (y : Nat × Nat) : Option (Nat × Nat) :=
  match best with
  | some b => if b.2 < y.2 then some y else best
  | none => some y

/-- R176: over sectors in rising order the fold ends at the one with the most room, the lowest on a tie. -/
theorem foldl_roomier_spec (l : List (Nat × Nat)) (b : Nat × Nat) (h : (b :: l).Pairwise (fun x y => x.1 < y.1)) :
    ∃ c ∈ b :: l, l.foldl roomier (some b) = some c ∧ ∀ y ∈ b :: l, y.2 ≤ c.2 ∧ (y.2 = c.2 → c.1 ≤ y.1) := by
  induction l generalizing b with
  | nil =>
    refine ⟨b, List.mem_singleton_self _, rfl, fun y hy => ?_⟩
    rw [List.mem_singleton.1 hy]
    exact ⟨Nat.le_refl _, fun _ => Nat.le_refl _⟩
  | cons x l ih =>
    obtain ⟨hb, hxl⟩ := List.pairwise_cons.1 h
    have hbl : (b :: l).Pairwise (fun x y => x.1 < y.1) :=
      List.pairwise_cons.2 ⟨fun y hy => hb y (List.mem_cons_of_mem _ hy), (List.pairwise_cons.1 hxl).2⟩
    have hbx := hb x List.mem_cons_self
    rw [List.foldl_cons]
    by_cases more : b.2 < x.2
    · rw [show roomier (some b) x = some x from if_pos more]
      obtain ⟨c, hc, e, top⟩ := ih x hxl
      have hx := top x List.mem_cons_self
      refine ⟨c, List.mem_cons_of_mem _ hc, e, fun y hy => ?_⟩
      rcases List.mem_cons.1 hy with rfl | hy
      · exact ⟨by omega, fun _ => by omega⟩
      · exact top y hy
    · rw [show roomier (some b) x = some b from if_neg more]
      obtain ⟨c, hc, e, top⟩ := ih b hbl
      have hb' := top b List.mem_cons_self
      refine ⟨c, ?_, e, fun y hy => ?_⟩
      · rcases List.mem_cons.1 hc with rfl | hc
        · exact List.mem_cons_self
        · exact List.mem_cons_of_mem _ (List.mem_cons_of_mem _ hc)
      · rcases List.mem_cons.1 hy with rfl | hy
        · exact hb'
        · rcases List.mem_cons.1 hy with rfl | hy
          · exact ⟨by omega, fun _ => by omega⟩
          · exact top y (List.mem_cons_of_mem _ hy)

/-! ### The sector table (R175, R176) -/

/-- R176: a sector of the table once each zone's tail is chosen. -/
def Sector.settled (tails : List (Option Nat)) (i : Nat) (s : Sector) : Sector :=
  if s.state = .tail ∧ tails.getD s.zone none ≠ some i then { s with state := .sealed } else s

theorem Sector.settled_fields (tails : List (Option Nat)) (i : Nat) (s : Sector) :
    s.settled tails i = { s with state := (s.settled tails i).state } := by
  unfold Sector.settled
  split <;> rfl

theorem Sector.settled_of_ne_tail {s : Sector} (h : s.state ≠ .tail) (tails : List (Option Nat)) (i : Nat) : s.settled tails i = s :=
  if_neg fun x => h x.1

theorem Sector.settled_room (tails : List (Option Nat)) (i : Nat) (s : Sector) : (s.settled tails i).room = s.room := by
  rw [Sector.settled_fields]
  rfl

theorem sealOthers_getElem? (tails : List (Option Nat)) (l : List Sector) (i : Nat) :
    (sealOthers tails l)[i]? = l[i]?.map (Sector.settled tails i) := by
  rw [sealOthers, List.getElem?_map, List.getElem?_zipIdx, Option.map_map, Nat.zero_add]
  rfl

theorem zipIdx_eq (l : List Sector) : l.zipIdx = (List.range l.length).map (fun i => (l.getD i .cold, i)) := by
  refine List.ext_getElem (by simp) fun i hi hi' => ?_
  have : i < l.length := by simpa using hi
  simp [List.getD, this]

theorem sectorsWhere_eq (f : Sector → Bool) (l : List Sector) :
    sectorsWhere f l = (List.range l.length).filter (fun i => f (l.getD i .cold)) := by
  rw [sectorsWhere, zipIdx_eq, List.filter_map, List.map_map]
  exact List.map_id _

section Resolve
variable (format : Nat) (plan : List (Nat × Nat)) (p : Part)

theorem rawSectors_getElem? (i : Nat) : (rawSectors plan p)[i]? = p.scu.records[i]?.map
    (resolvedSector plan p.scu.records (liveOf p.scu.candidates) (staleOf p.scu.candidates) i) := by
  rw [rawSectors, List.getElem?_map, List.getElem?_zipIdx, Option.map_map, Nat.zero_add]
  rfl

theorem resolvedSectors_length : (resolvedSectors plan p).length = p.scu.records.length := by
  simp [resolvedSectors, sealOthers, rawSectors]

theorem resolve_sectors : (resolve format plan p).smp.sectors = resolvedSectors plan p := by
  rw [resolve_smp, installSpares_eq]
  rfl

theorem resolve_zones : (resolve format plan p).smp.zones = (resolvedZones plan p).mapIdx
    (fun z r => { r with spareInUse := decide (available z (installTables format plan p) = 0) }) := by
  rw [resolve_smp, installSpares_eq]
  rfl

/-- R175, R176: the entry that resolve installs for a sector of the raw table. -/
theorem resolve_sector_of_raw {i : Nat} {s : Sector} (h : (rawSectors plan p)[i]? = some s) :
    (resolve format plan p).sector i = s.settled (resolvedTails plan p) i := by
  rw [Part.sector, resolve_sectors, List.getD_eq_getElem?_getD, resolvedSectors, sealOthers_getElem?, h]
  rfl

/-- R121, R127: a queue that resolve installs holds the sectors for which its test holds, in rising order. -/
theorem sectorsWhere_resolved (f : Sector → Bool) : sectorsWhere f (resolvedSectors plan p) =
    (List.range p.scu.records.length).filter (fun i => f ((resolve format plan p).sector i)) := by
  rw [sectorsWhere_eq, resolvedSectors_length]
  simp only [Part.sector, resolve_sectors]

/-! ### A sector's figures (R175) -/

variable (records : List ScanRecord) (live stale : List (List Candidate)) (i : Nat) (r : ScanRecord)

theorem resolvedSector_figures :
    let s := resolvedSector plan records live stale i r
    s.zone = zoneOfSector plan i ∧ s.owner = none ∧ s.pending = 0 ∧ s.suspect = r.suspect ∧ s.live = spaceIn i live ∧
      s.retiring = spaceIn i stale := by
  unfold resolvedSector
  cases r.cls
  case walked =>
    dsimp only
    split
    · exact ⟨rfl, rfl, rfl, rfl, rfl, rfl⟩
    · split
      · exact ⟨rfl, rfl, rfl, rfl, rfl, rfl⟩
      · split
        · exact ⟨rfl, rfl, rfl, rfl, rfl, rfl⟩
        · exact ⟨rfl, rfl, rfl, rfl, rfl, rfl⟩
  all_goals exact ⟨rfl, rfl, rfl, rfl, rfl, rfl⟩

variable {r}

theorem resolvedSector_bad (h : r.cls = .bad) :
    let s := resolvedSector plan records live stale i r
    s.state = .bad ∧ s.nextWrite = 4096 ∧ s.eraseCount = r.eraseCount := by
  unfold resolvedSector
  rw [h]
  exact ⟨rfl, rfl, rfl⟩

theorem resolvedSector_unread (h : r.cls = .torn ∨ r.cls = .blankErased) :
    let s := resolvedSector plan records live stale i r
    s.state = .stale ∧ s.nextWrite = 4096 ∧ s.eraseCount = zoneErase plan records (zoneOfSector plan i) := by
  unfold resolvedSector
  rcases h with h | h
  · rw [h]
    exact ⟨rfl, rfl, rfl⟩
  · rw [h]
    exact ⟨rfl, rfl, rfl⟩

/-- R175: the state of a sector that was walked. -/
theorem resolvedSector_walked (h : r.cls = .walked) :
    let s := resolvedSector plan records live stale i r
    let empty : Prop := spaceIn i live = 0 ∧ spaceIn i stale = 0
    s.eraseCount = r.eraseCount ∧ s.nextWrite = r.nextWrite ∧
      (r.suspect = true → empty → s.state = .stale) ∧ (r.suspect = true → ¬ empty → s.state = .sealed) ∧
      (r.suspect = false → r.nextWrite = 32 → s.state = .free) ∧
      (r.suspect = false → r.nextWrite ≠ 32 → empty → s.state = .stale) ∧
      (r.suspect = false → r.nextWrite ≠ 32 → ¬ empty → r.walkSealed = true → s.state = .sealed) ∧
      (r.suspect = false → r.nextWrite ≠ 32 → ¬ empty → r.walkSealed = false → s.state = .tail) := by
  unfold resolvedSector
  rw [h]
  simp only [← Bool.decide_and, decide_eq_true_eq]
  cases r.suspect with
  | true =>
    by_cases he : spaceIn i live = 0 ∧ spaceIn i stale = 0 <;> simp [he]
  | false =>
    by_cases hw : r.nextWrite = 32
    · simp [hw]
    · by_cases he : spaceIn i live = 0 ∧ spaceIn i stale = 0
      · simp [hw, he]
      · cases r.walkSealed <;> simp [hw, he]

/-- R175: the erase count given to a sector without a header is the highest read in its zone. -/
theorem zoneErase_spec (z : Nat) :
    (∀ j t, records[j]? = some t → t.cls = .walked ∨ t.cls = .bad → zoneOfSector plan j = z → t.eraseCount ≤ zoneErase plan records z) ∧
    (zoneErase plan records z = 0 ∨ ∃ j t, records[j]? = some t ∧ (t.cls = .walked ∨ t.cls = .bad) ∧ zoneOfSector plan j = z ∧
      t.eraseCount = zoneErase plan records z) := by
  obtain ⟨-, all, att⟩ := foldl_max_spec (fun x : ScanRecord × Nat => x.1.eraseCount) (records.zipIdx.filter (fun r =>
    decide (zoneOfSector plan r.2 = z) && (decide (r.1.cls = .walked) || decide (r.1.cls = .bad)))) 0
  simp only [List.mem_filter, List.mem_zipIdx_iff_getElem?, Bool.and_eq_true, Bool.or_eq_true, decide_eq_true_eq] at all att
  refine ⟨fun j t ht hc hz => all (t, j) ⟨ht, hz, hc⟩, att.imp id ?_⟩
  rintro ⟨⟨t, j⟩, ⟨ht, hz, hc⟩, e⟩
  exact ⟨j, t, ht, hc, hz, e⟩

end Resolve

/-! ### A sector's bytes (R175) -/

/-- R175: the space of runs in a sector is that of their elements. -/
theorem spaceIn_eq_spaceOf (i : Nat) (runs : List (List Candidate)) : spaceIn i runs = spaceOf i (runs.flatten.map Candidate.elem) := by
  rw [spaceIn, spaceOf, List.filter_map, List.map_map]
  rfl

/-- What is made of each run, each holding its run's elements, holds the elements of all. -/
theorem filterMap_extents {α : Type} {g : List Candidate → Option α} {extents : α → List Elem}
    (h : ∀ run, (g run).toList.flatMap extents = run.map Candidate.elem) (runs : List (List Candidate)) :
    (runs.filterMap g).flatMap extents = runs.flatten.map Candidate.elem := by
  induction runs with
  | nil => rfl
  | cons run runs ih =>
    rw [List.flatten_cons, List.map_append, ← ih, ← h run]
    cases hg : g run with
    | none => rw [List.filterMap_cons_none hg]; rfl
    | some a => rw [List.filterMap_cons_some hg]; simp

theorem entryOfRun_extents (plan : List (Nat × Nat)) (runs : List (List Candidate)) :
    (runs.filterMap (entryOfRun plan)).flatMap (·.extents) = runs.flatten.map Candidate.elem :=
  filterMap_extents (fun run => by cases run <;> simp [entryOfRun]) runs

theorem recordOfRun_extents (runs : List (List Candidate)) :
    (runs.filterMap recordOfRun).flatMap (·.extents) = runs.flatten.map Candidate.elem :=
  filterMap_extents (fun run => by cases run <;> simp [recordOfRun]) runs

theorem resolve_live (format : Nat) (plan : List (Nat × Nat)) (p : Part) (i : Nat) :
    spaceIn i (liveOf p.scu.candidates) = spaceOf i ((resolve format plan p).sdr.directory.flatMap (·.extents)) := by
  rw [resolve_sdr, entryOfRun_extents, spaceIn_eq_spaceOf]

theorem resolve_retiring_space (format : Nat) (plan : List (Nat × Nat)) (p : Part) (i : Nat) :
    spaceIn i (staleOf p.scu.candidates) = spaceOf i ((resolve format plan p).sdr.retiring.flatMap (·.extents)) := by
  rw [resolve_retiring, raisedRecords, List.flatMap_map, spaceIn_eq_spaceOf, ← recordOfRun_extents]
  rfl

/-! ### The zone table (R40, R57, R176) -/

theorem zonesFrom_plan (first : Nat) (plan : List (Nat × Nat)) : (zonesFrom first plan).map (fun z => (z.count, z.lowWater)) = plan := by
  induction plan generalizing first with
  | nil => rfl
  | cons y ys ih => rw [zonesFrom, List.map_cons, ih]

theorem zonesFrom_waiting (first : Nat) (plan : List (Nat × Nat)) : ∀ z ∈ zonesFrom first plan, z.waiting = [] := by
  induction plan generalizing first with
  | nil => exact nofun
  | cons y ys ih => exact List.forall_mem_cons.2 ⟨rfl, ih _⟩

theorem zonesFrom_length (first : Nat) (plan : List (Nat × Nat)) : (zonesFrom first plan).length = plan.length := by
  rw [← List.length_map (fun z : Zone => (z.count, z.lowWater)), zonesFrom_plan]

section Resolve
variable (format : Nat) (plan : List (Nat × Nat)) (p : Part)

/-- R40, R57, R176: the row that resolve installs for a zone. -/
theorem resolve_zone (z : Nat) : (resolve format plan p).zone z = (zonesFrom 0 plan)[z]?.map (fun r =>
    { r with tail := (resolvedTails plan p).getD z none, spareInUse := decide (available z (resolve format plan p) = 0) }) := by
  have same : available z (resolve format plan p) = available z (installTables format plan p) := by
    simp only [available, countState, resolve_sectors, installTables]
  rw [Part.zone, resolve_zones, List.getElem?_mapIdx, resolvedZones, List.getElem?_map, List.getElem?_zipIdx, Option.map_map,
    Option.map_map, Nat.zero_add, same]
  rfl

theorem resolve_plan : planOf (resolve format plan p) = plan := by
  conv_rhs => rw [← zonesFrom_plan 0 plan]
  refine List.ext_getElem? fun z => ?_
  have := resolve_zone format plan p z
  rw [Part.zone] at this
  rw [planOf, List.getElem?_map, this, Option.map_map, List.getElem?_map]
  rfl

theorem resolve_zone_spec {z : Nat} {r : Zone} (h : (resolve format plan p).zone z = some r) :
    r.waiting = [] ∧ (r.spareInUse = true ↔ available z (resolve format plan p) = 0) := by
  rw [resolve_zone, Option.map_eq_some_iff] at h
  obtain ⟨y, hy, rfl⟩ := h
  exact ⟨zonesFrom_waiting 0 plan y (List.mem_of_getElem? hy), decide_eq_true_iff⟩

theorem resolvedTails_getD {z : Nat} (hz : z < plan.length) : (resolvedTails plan p).getD z none = zoneTail z (rawSectors plan p) := by
  simp [resolvedTails, List.getD, hz]

theorem resolve_tail {z : Nat} (hz : z < plan.length) :
    ((resolve format plan p).zone z).bind (·.tail) = zoneTail z (rawSectors plan p) := by
  rw [resolve_zone, List.getElem?_eq_getElem (by rw [zonesFrom_length]; exact hz), resolvedTails_getD plan p hz]
  rfl

end Resolve

/-! ### The tail of a zone (R176) -/

/-- R176: the tail candidates of a zone, in rising order, each with its room. -/
def tailCandidates (z : Nat) (l : List Sector) : List (Nat × Nat) :=
  (l.zipIdx.filter (fun s => decide (s.1.zone = z) && decide (s.1.state = .tail))).map (fun s => (s.2, s.1.room))

theorem zoneTail_eq (z : Nat) (l : List Sector) : zoneTail z l = ((tailCandidates z l).foldl roomier none).map (·.1) := by
  rw [tailCandidates, List.foldl_map]
  rfl

theorem tailCandidates_rising (z : Nat) (l : List Sector) : (tailCandidates z l).Pairwise (fun x y => x.1 < y.1) := by
  refine List.pairwise_map.2 (List.Pairwise.filter _ ?_)
  rw [zipIdx_eq]
  exact List.pairwise_map.2 List.pairwise_lt_range

theorem mem_tailCandidates {z : Nat} {l : List Sector} {x : Nat × Nat} :
    x ∈ tailCandidates z l ↔ ∃ s, l[x.1]? = some s ∧ s.zone = z ∧ s.state = .tail ∧ s.room = x.2 := by
  simp only [tailCandidates, List.mem_map, List.mem_filter, List.mem_zipIdx_iff_getElem?, Bool.and_eq_true, decide_eq_true_eq]
  constructor
  · rintro ⟨⟨s, i⟩, ⟨hs, hz, ht⟩, rfl⟩
    exact ⟨s, hs, hz, ht, rfl⟩
  · rintro ⟨s, hs, hz, ht, hr⟩
    exact ⟨(s, x.1), ⟨hs, hz, ht⟩, Prod.ext rfl hr⟩

/-- R176: where a zone has a tail candidate its tail is the one with the most room, the lowest on a tie. -/
theorem zoneTail_spec {l : List Sector} {z i : Nat} {s : Sector} (hs : l[i]? = some s) (hz : s.zone = z) (ht : s.state = .tail) :
    ∃ t u, zoneTail z l = some t ∧ l[t]? = some u ∧ s.room ≤ u.room ∧ (s.room = u.room → t ≤ i) := by
  have mem : (i, s.room) ∈ tailCandidates z l := mem_tailCandidates.2 ⟨s, hs, hz, ht, rfl⟩
  have rising := tailCandidates_rising z l
  have sound (x : Nat × Nat) : x ∈ tailCandidates z l → _ := mem_tailCandidates.1
  rw [zoneTail_eq]
  cases e : tailCandidates z l with
  | nil => rw [e] at mem; cases mem
  | cons b rest =>
    rw [e] at mem rising sound
    obtain ⟨c, hc, best, top⟩ := foldl_roomier_spec rest b rising
    obtain ⟨u, hu, -, -, room⟩ := sound c hc
    obtain ⟨more, tie⟩ := top _ mem
    rw [← room] at more tie
    exact ⟨c.1, u, by rw [List.foldl_cons, roomier, best]; rfl, hu, more, tie⟩

/-- R176: a walked sector with bytes and room that no header seals is its zone's tail, or is sealed beside one with at least its
room. -/
theorem settled_tail (format : Nat) (plan : List (Nat × Nat)) (p : Part) {i : Nat} {s : Sector} (hs : (rawSectors plan p)[i]? = some s)
    (ht : s.state = .tail) (hz : s.zone < plan.length) :
    let q := resolve format plan p
    ∃ t, (q.zone s.zone).bind (·.tail) = some t ∧ s.room ≤ (q.sector t).room ∧ (s.room = (q.sector t).room → t ≤ i) ∧
      (q.sector i).state = if t = i then .tail else .sealed := by
  obtain ⟨t, u, tail, hu, more, tie⟩ := zoneTail_spec hs rfl ht
  rw [← Sector.settled_room (resolvedTails plan p) t u, ← resolve_sector_of_raw format plan p hu] at more tie
  refine ⟨t, (resolve_tail format plan p hz).trans tail, more, tie, ?_⟩
  rw [resolve_sector_of_raw format plan p hs, Sector.settled, resolvedTails_getD plan p hz, tail]
  by_cases e : t = i
  · rw [if_pos e, if_neg (fun x => x.2 (congrArg some e)), ht]
  · rw [if_neg e, if_pos ⟨ht, fun x => e (Option.some.inj x)⟩]

end Sys2Proof.Machine
end

