-- ==== Sys2Proof/Proofs/ReadBack.lean ====
section
/-! SUPPORT. The scan's decision, and the whole of what is read back from the array (R172 to R176). -/
namespace Sys2Proof.Machine

/-! ### The batch that resolve opens (R121, R122) -/

section Resolve
variable (format : Nat) (plan : List (Nat × Nat)) (p : Part)

theorem resolvedPart_rcu : (resolvedPart format plan p).rcu = (installTables format plan p).rcu := by
  obtain ⟨conds, e, -⟩ := resolvedPart_eq format plan p
  rw [e]

theorem resolvedPart_mounted : (resolvedPart format plan p).mounted = true := by
  obtain ⟨conds, e, -⟩ := resolvedPart_eq format plan p
  rw [e]
  rfl

theorem resolvedPart_eraseQueue : (resolvedPart format plan p).rcu.eraseQueue =
    (List.range p.scu.records.length).filter (fun i => ((resolve format plan p).sector i).state = .stale) := by
  rw [resolvedPart_rcu]
  exact sectorsWhere_resolved format plan p (fun s => decide (s.state = .stale))

/-- R121: a STALE sector is in the erase queue or in the batch that resolve opens. -/
theorem resolve_stale_queued {i : Nat} (hi : i < p.scu.records.length) (h : ((resolve format plan p).sector i).state = .stale) :
    i ∈ (resolve format plan p).rcu.eraseQueue ∨ ∃ b, (resolve format plan p).rcu.openBatch = some b ∧ i ∈ b.sectors := by
  refine (openBatch_mapStep (MapStep.refl (resolvedPart format plan p))).erase i (.inl ?_)
  rw [resolvedPart_eraseQueue, List.mem_filter]
  exact ⟨List.mem_range.2 hi, decide_eq_true h⟩

theorem resolve_evac : (resolve format plan p).rcu.evacQueue = (List.range p.scu.records.length).filter
    (fun i => ((resolve format plan p).sector i).state = .sealed ∧ ((resolve format plan p).sector i).suspect = true) := by
  rw [resolve_evacQueue, sectorsWhere_resolved format plan p]
  simp only [Bool.decide_and, Bool.decide_eq_true]

/-! ### One sector of the table that resolve installs (R175, R176) -/

variable {i : Nat} {r : ScanRecord} (hr : p.scu.records[i]? = some r)
include hr

theorem rawSector_of_record : (rawSectors plan p)[i]? =
    some (resolvedSector plan p.scu.records (liveOf p.scu.candidates) (staleOf p.scu.candidates) i r) := by
  rw [rawSectors_getElem?, hr]
  rfl

theorem resolve_sector_of_record : (resolve format plan p).sector i =
    (resolvedSector plan p.scu.records (liveOf p.scu.candidates) (staleOf p.scu.candidates) i r).settled (resolvedTails plan p) i :=
  resolve_sector_of_raw format plan p (rawSector_of_record plan p hr)

/-- R175: the figures of a sector, whatever its class. -/
theorem resolve_sector_figures :
    let q := resolve format plan p
    let s := q.sector i
    s.zone = zoneOfSector plan i ∧ s.owner = none ∧ s.pending = 0 ∧ s.suspect = r.suspect ∧
      s.live = spaceOf i (q.sdr.directory.flatMap (·.extents)) ∧ s.retiring = spaceOf i (q.sdr.retiring.flatMap (·.extents)) := by
  dsimp only
  rw [← resolve_live, ← resolve_retiring_space, resolve_sector_of_record format plan p hr, Sector.settled_fields]
  exact resolvedSector_figures plan p.scu.records (liveOf p.scu.candidates) (staleOf p.scu.candidates) i r

/-- R175: a sector that is no tail candidate is installed as its record says. -/
theorem resolve_sector_of_ne_tail {st : SectorState} (hst : st ≠ .tail)
    (h : (resolvedSector plan p.scu.records (liveOf p.scu.candidates) (staleOf p.scu.candidates) i r).state = st) :
    ((resolve format plan p).sector i).state = st := by
  rw [resolve_sector_of_record format plan p hr, Sector.settled_of_ne_tail (by rw [h]; exact hst), h]

theorem resolve_sector_bad (h : r.cls = .bad) :
    let s := (resolve format plan p).sector i
    s.state = .bad ∧ s.nextWrite = 4096 ∧ s.eraseCount = r.eraseCount := by
  obtain ⟨state, next, count⟩ := resolvedSector_bad plan p.scu.records (liveOf p.scu.candidates) (staleOf p.scu.candidates) i h
  refine ⟨resolve_sector_of_ne_tail format plan p hr (by decide) state, ?_⟩
  rw [resolve_sector_of_record format plan p hr, Sector.settled_fields]
  exact ⟨next, count⟩

theorem resolve_sector_unread (h : r.cls = .torn ∨ r.cls = .blankErased) :
    let s := (resolve format plan p).sector i
    s.state = .stale ∧ s.nextWrite = 4096 ∧ s.eraseCount = zoneErase plan p.scu.records (zoneOfSector plan i) := by
  obtain ⟨state, next, count⟩ := resolvedSector_unread plan p.scu.records (liveOf p.scu.candidates) (staleOf p.scu.candidates) i h
  refine ⟨resolve_sector_of_ne_tail format plan p hr (by decide) state, ?_⟩
  rw [resolve_sector_of_record format plan p hr, Sector.settled_fields]
  exact ⟨next, count⟩

/-- R175, R176: a sector that was walked, its tail candidate aside. -/
theorem resolve_sector_walked (h : r.cls = .walked) :
    let q := resolve format plan p
    let s := q.sector i
    let empty : Prop := s.live = 0 ∧ s.retiring = 0
    s.eraseCount = r.eraseCount ∧ s.nextWrite = r.nextWrite ∧
      (r.suspect = true → empty → s.state = .stale) ∧ (r.suspect = true → ¬ empty → s.state = .sealed) ∧
      (r.suspect = false → r.nextWrite = 32 → s.state = .free) ∧
      (r.suspect = false → r.nextWrite ≠ 32 → empty → s.state = .stale) ∧
      (r.suspect = false → r.nextWrite ≠ 32 → ¬ empty → r.walkSealed = true → s.state = .sealed) ∧
      (r.suspect = false → r.nextWrite ≠ 32 → ¬ empty → r.walkSealed = false → zoneOfSector plan i < plan.length →
        ∃ t, (q.zone (zoneOfSector plan i)).bind (·.tail) = some t ∧ s.room ≤ (q.sector t).room ∧
          (s.room = (q.sector t).room → t ≤ i) ∧ s.state = (if t = i then .tail else .sealed)) := by
  dsimp only
  obtain ⟨-, -, -, -, live, retiring⟩ := resolve_sector_figures format plan p hr
  rw [← resolve_live] at live
  rw [← resolve_retiring_space] at retiring
  obtain ⟨zone, -⟩ := resolvedSector_figures plan p.scu.records (liveOf p.scu.candidates) (staleOf p.scu.candidates) i r
  obtain ⟨count, next, suspectEmpty, suspectFull, free, empty, sealed, tail⟩ :=
    resolvedSector_walked plan p.scu.records (liveOf p.scu.candidates) (staleOf p.scu.candidates) i h
  have plain {st : SectorState} (hst : st ≠ .tail) := resolve_sector_of_ne_tail format plan p hr hst
  rw [live, retiring]
  refine ⟨?_, ?_, fun a b => plain (by decide) (suspectEmpty a b), fun a b => plain (by decide) (suspectFull a b),
    fun a b => plain (by decide) (free a b), fun a b c => plain (by decide) (empty a b c),
    fun a b c d => plain (by decide) (sealed a b c d), fun a b c d hz => ?_⟩
  · rw [resolve_sector_of_record format plan p hr, Sector.settled_fields]
    exact count
  · rw [resolve_sector_of_record format plan p hr, Sector.settled_fields]
    exact next
  · have := settled_tail format plan p (rawSector_of_record plan p hr) (tail a b c d) (by rw [zone]; exact hz)
    rw [zone] at this
    obtain ⟨t, ht, more, tie, state⟩ := this
    rw [← Sector.settled_room (resolvedTails plan p) i, ← resolve_sector_of_record format plan p hr] at more tie
    exact ⟨t, ht, more, tie, state⟩

end Resolve

/-! ### The decision after the last sector (R170, R173) -/

theorem foldl_walked_eq (l : List ScanRecord) (n : Nat) :
    l.foldl (fun m r => if r.cls = .walked then max m r.format else m) n =
      (l.filter (fun r => r.cls = .walked)).foldl (fun m r => max m r.format) n := by
  rw [List.foldl_filter]
  simp only [decide_eq_true_eq]

/-- R170: the format number of a BLANK store is the highest that was read, 0 with none. -/
theorem blankFromScan_format (p : Part) :
    (∀ r ∈ p.scu.records, r.cls = .walked → r.format ≤ (blankFromScan p).scu.format) ∧
      ((blankFromScan p).scu.format = 0 ∨ ∃ r, (r ∈ p.scu.records ∧ r.cls = .walked) ∧ r.format = (blankFromScan p).scu.format) := by
  have e : (blankFromScan p).scu.format =
      (p.scu.records.filter (fun r => r.cls = .walked)).foldl (fun m r => max m r.format) 0 := foldl_walked_eq _ _
  obtain ⟨-, all, att⟩ := foldl_max_spec (·.format) (p.scu.records.filter (fun r => r.cls = .walked)) 0
  simp only [List.mem_filter, decide_eq_true_eq] at all att
  rw [e]
  exact ⟨fun r hr hw => all r ⟨hr, hw⟩, att⟩

/-- R173: without a valid header, or with two that disagree, the store is BLANK. -/
theorem decideStore_blank {p : Part} (h : (∀ r, ¬ (r ∈ p.scu.records ∧ r.cls = .walked)) ∨
    ∃ r t, (r ∈ p.scu.records ∧ r.cls = .walked) ∧ (t ∈ p.scu.records ∧ t.cls = .walked) ∧ (r.format ≠ t.format ∨ r.plan ≠ t.plan)) :
    decideStore p = blankFromScan p := by
  unfold decideStore
  split
  · rfl
  · rename_i a ha
    refine if_neg fun agree => ?_
    simp only [List.all_eq_true, Bool.or_eq_true, Bool.and_eq_true, decide_eq_true_eq, ne_eq] at agree
    have mem := List.mem_of_find?_eq_some ha
    have walked : a.cls = .walked := by simpa using List.find?_some ha
    rcases h with unread | ⟨r, t, ⟨hr, hrw⟩, ⟨ht, htw⟩, differ⟩
    · exact unread a ⟨mem, walked⟩
    · obtain ⟨rf, rp⟩ := (agree r hr).resolve_left (not_not.2 hrw)
      obtain ⟨tf, tp⟩ := (agree t ht).resolve_left (not_not.2 htw)
      exact differ.elim (fun x => x (rf.trans tf.symm)) (fun x => x (rp.trans tp.symm))

/-- R173: with valid headers that agree the store is resolved with their format number and plan. -/
theorem decideStore_resolves {p : Part} {r : ScanRecord} (hr : r ∈ p.scu.records ∧ r.cls = .walked)
    (agree : ∀ t, (t ∈ p.scu.records ∧ t.cls = .walked) → t.format = r.format ∧ t.plan = r.plan) :
    decideStore p = resolve r.format r.plan p := by
  unfold decideStore
  split
  · rename_i unread
    exact absurd (decide_eq_true hr.2) (List.find?_eq_none.1 unread r hr.1)
  · rename_i a ha
    have walked : a.cls = .walked := by simpa using List.find?_some ha
    obtain ⟨af, ap⟩ := agree a ⟨List.mem_of_find?_eq_some ha, walked⟩
    rw [af, ap]
    refine if_pos ?_
    simp only [List.all_eq_true, Bool.or_eq_true, Bool.and_eq_true, decide_eq_true_eq, ne_eq]
    exact fun t ht => or_iff_not_imp_left.2 fun x => agree t ⟨ht, not_not.1 x⟩

/-! ### The whole -/

/-- Settles O11: each clause from the lemmas on its part of the way, from the bytes written to the store that is decided. -/
theorem arrayIsReadBack : Obligations.ArrayIsReadBack := by
  refine ⟨?_, firstStageValid_iff, ?_, ?_, ?_, ?_, ?_, ?_, ?_⟩
  · intro slot q i c cls total co s0 hs q0 hq hi hc ht h
    obtain ⟨valid, head⟩ := firstStage_readsBack (c := c) cls co s0 hs q0 hq hi ht
    exact ⟨firstStageBytes_length .., valid, firstStage_slot _ co hs, firstStage_sequence _ co hq, firstStage_index _ co hi,
      firstStage_copy _ co hc, head, firstStage_close .., firstStage_marks ..⟩
  · intro s bytes r blank valid w finds
    refine ⟨rfl, fun hb => ?_, fun hb hv => ?_, fun hb hv => ?_⟩
    · simp only [r, finds, classify_blank hb]
      exact ⟨rfl, rfl, rfl⟩
    · simp only [r, finds, classify_torn hb hv]
      exact ⟨rfl, rfl, rfl⟩
    · by_cases bad : byteAt bytes 31 = 0xFF
      · obtain ⟨format, plan, count, suspect⟩ := headerRecord_fields .walked bytes w
        simp only [r, finds, classify_walked hb hv bad]
        exact ⟨format, plan, count, suspect, fun x => absurd bad x, fun _ => ⟨rfl, rfl, rfl, rfl⟩⟩
      · obtain ⟨format, plan, count, suspect⟩ := headerRecord_fields .bad bytes Walk.nothing
        simp only [r, finds, classify_bad hb hv bad]
        exact ⟨format, plan, count, suspect, fun _ => ⟨rfl, rfl, rfl⟩, fun x => absurd x bad⟩
  · intro s n h bytes w hd len first fits erased sound q
    refine ⟨walkFrom_full w, walkFrom_erased w, walkFrom_torn w, fun hr he hf => ?_⟩
    refine ⟨walkFrom_unclosed w hr he hf, fun hl hfit lost => ?_, fun hl hfit hs hdisc => ?_⟩
    · refine (walkFrom_closed w hr he hf hl hfit).trans ?_
      rw [if_neg (fun x => lost.elim (fun y => y x.1) (fun y => y x.2))]
    · refine ⟨candidateOf s h hd, (walkFrom_closed w hr he hf hl hfit).trans ?_, rfl, rfl, rfl, rfl, rfl, rfl, rfl,
        fun h0 => ⟨candidateOf_class hf h0 s h, rfl⟩, markSet_iff _, markSet_iff _⟩
      rw [if_pos ⟨hs, hdisc⟩]
  · exact fun cs slot q i => ⟨chosen_eq_none_iff cs slot q i, fun c h => chosen_spec h, eligibleRun_iff cs slot q⟩
  · exact fun cs c => ⟨fun h => if_pos ((any_sameCopy_iff cs c).2 h), fun h => if_neg (mt (any_sameCopy_iff cs c).1 h)⟩
  · intro p s bytes found recorded q
    have done : q = if s + 1 < 512 then raiseScan (s + 1) recorded else decideStore recorded := scanDone_eq s bytes p
    refine ⟨fun hs => ?_, fun hs => ?_⟩
    · rw [if_pos (by omega)] at done
      obtain ⟨rest, claims, -⟩ := raise_spec (.scanRead (s + 1)) .read 0
        (.runs [{ sector := s + 1, offset := 0, length := 4096 }]) recorded
      rw [done]
      exact ⟨rest, claims⟩
    · rw [if_neg (by omega)] at done
      exact done
  · intro format plan p q cs dir
    refine ⟨by rw [resolve_scu], by rw [resolve_scu], by rw [resolve_scu], resolve_plan format plan p,
      fun r => resolve_mountedCond format plan p, by rw [resolve_sdr], ?_, ?_, ?_, fun r => resolve_retiring_sound format plan p,
      resolve_retiring_sorted format plan p, ?_, resolve_evac format plan p, ?_, fun z r => resolve_zone_spec format plan p⟩
    · simp only [dir, q, resolve_sdr]
      exact resolved_ascending plan cs
    · intro d hd
      obtain ⟨c, t, he, -, e⟩ := resolve_directory_sound format plan p hd
      exact ⟨c :: t, c, he, rfl, (Option.some.inj e).symm⟩
    · intro slot n run he
      obtain ⟨d, hd, ds, le, stale⟩ := resolve_covers format plan p he
      refine ⟨d, hd, ds, le, fun lt => ?_⟩
      obtain ⟨r, hr, key, superseded, level, waiting, extents, head, attempts, deferred, extra, claimed⟩ :=
        resolve_retiring_complete format plan p (stale lt)
      obtain ⟨rs, rq⟩ := Prod.ext_iff.1 (key.trans he.key)
      simp only [Retiring.key] at rs rq
      rw [rs, rq] at claimed
      exact ⟨r, hr, rs, rq, superseded, level, waiting, extents, head, attempts, deferred, extra, claimed⟩
    · exact ⟨resolvedPart format plan p, rfl, resolvedPart_mounted format plan p, by rw [resolvedPart_rcu]; rfl,
        resolvedPart_batch format plan p, resolvedPart_eraseQueue format plan p⟩
    · intro i r hr s empty z
      have hi : i < p.scu.records.length := (List.getElem?_eq_some_iff.1 hr).1
      obtain ⟨zone, owner, pending, suspect, live, retiring⟩ := resolve_sector_figures format plan p hr
      refine ⟨zone, owner, pending, suspect, live, retiring, resolve_sector_bad format plan p hr, fun h => ?_,
        resolve_sector_walked format plan p hr, resolve_stale_queued format plan p hi⟩
      obtain ⟨state, next, count⟩ := resolve_sector_unread format plan p hr h
      obtain ⟨bound, att⟩ := zoneErase_spec plan p.scu.records z
      rw [← count] at bound att
      exact ⟨state, next, bound, att⟩
  · intro p read
    refine ⟨fun h => ?_, fun r hr agree => decideStore_resolves hr agree⟩
    obtain ⟨bound, att⟩ := blankFromScan_format p
    rw [decideStore_blank h]
    exact ⟨rfl, rfl, rfl, rfl, rfl, fun r hr => bound r hr.1 hr.2, att⟩

end Sys2Proof.Machine
end

