-- ==== Sys2Proof/Proofs/LinkInvariant.lean ====
section
/-! SUPPORT. Every step keeps the invariant of the link, the request queue and the directory (R25, R148, R149, R158, R166, R167). -/
namespace Sys2Proof.Machine

variable {p q : Part}

/-! ### Changes that give out no age and take no place -/

/-- The invariant passes to a part with no more entries, replies and held places, and with settings in their ranges. -/
theorem Part.LinkInv.shrink (i : p.LinkInv) (queue : q.rqs.queue.Sublist p.rqs.queue) (nextAge : q.rqs.nextAge = p.rqs.nextAge)
    (replies : q.link.replies.Sublist p.link.replies) (held : q.link.held.Sublist p.link.held)
    (conds : q.link.conds.length = 8) (levels : ∀ r ∈ q.link.conds, r.level ≤ 7) (floor : q.link.floor ≤ 7)
    (reserve : q.rqs.reserve ≤ 7) (preempt : 1 ≤ q.pee.preempt ∧ q.pee.preempt ≤ 7) (directory : q.ascending) : q.LinkInv where
  agesNodup := (queue.map Entry.age).nodup i.agesNodup
  agesBelow := fun a h => nextAge ▸ i.agesBelow a ((queue.map (·.age)).subset h)
  places := by
    have e := queue.length_le
    have r : queuedReplies q ≤ queuedReplies p := (replies.filter _).length_le
    have := i.places
    unfold Part.places at this ⊢
    omega
  active := (queue.filter _).length_le.trans i.active
  direct := by
    have h := held.length_le
    have r := (replies.filter (fun r => r.place = .direct)).length_le
    have := i.direct
    unfold directInUse at this ⊢
    omega
  conds := conds
  levels := levels
  floor := floor
  reserve := reserve
  preempt := preempt
  directory := directory

/-- A change of what the invariant does not speak of. -/
theorem Part.LinkInv.congr (i : p.LinkInv) (rqs : q.rqs = p.rqs) (replies : q.link.replies = p.link.replies)
    (held : q.link.held = p.link.held) (conds : q.link.conds = p.link.conds) (floor : q.link.floor = p.link.floor)
    (preempt : q.pee.preempt = p.pee.preempt) (directory : q.sdr.directory = p.sdr.directory) : q.LinkInv :=
  i.shrink (by rw [rqs]) (by rw [rqs]) (by rw [replies]) (by rw [held]) (by rw [conds]; exact i.conds)
    (by rw [conds]; exact i.levels) (by rw [floor]; exact i.floor) (by rw [rqs]; exact i.reserve) (by rw [preempt]; exact i.preempt)
    (by unfold Part.ascending; rw [directory]; exact i.directory)

/-- An idle microsecond moves the clocks alone (log 2). -/
theorem tickPart_linkInv (i : p.LinkInv) : (tickPart p).LinkInv := by
  unfold tickPart
  split
  · exact i.congr rfl rfl rfl rfl rfl rfl rfl
  · exact i

/-! ### Transactions -/

/-- R98, R163: a fetched reply leaves its place. -/
theorem dropHead_linkInv (i : p.LinkInv) : (dropHead p).LinkInv := by
  unfold dropHead
  cases hr : p.link.replies with
  | nil => exact i
  | cons r rs =>
    have popped : Part.LinkInv { p with link := { p.link with replies := rs } } :=
      i.shrink (List.Sublist.refl _) rfl (by rw [hr]; exact List.sublist_cons_self r rs) (List.Sublist.refl _) i.conds i.levels i.floor
        i.reserve i.preempt i.directory
    dsimp only
    unfold releasePlace
    split
    · exact (modCtx_quiet (Quiet.refl _) _ _).linkInv popped
    · exact popped
    · exact popped

theorem endFetch_linkInv (i : p.LinkInv) (n : Nat) : (endFetch n p).LinkInv := by
  unfold endFetch
  split
  · split
    · dsimp only
      split
      · split
        · exact dropHead_linkInv (endTransaction_linkInv i _)
        · exact endTransaction_linkInv i _
      · exact endTransaction_linkInv i _
    all_goals exact endTransaction_linkInv i []
  · exact endTransaction_linkInv i []

/-! ### NOTICE, CLEAR and TUNE -/

theorem setRows_length (rows : List CondRow) (ss : List (Byte × Byte)) : (setRows rows ss).length = rows.length := by
  induction rows generalizing ss with
  | nil => cases ss <;> rfl
  | cons r rs ih => cases ss with
    | nil => rfl
    | cons s ss => simp only [setRows, List.length_cons, ih]

theorem setRows_levels (rows : List CondRow) (ss : List (Byte × Byte)) (hr : ∀ r ∈ rows, r.level ≤ 7)
    (hs : ∀ s ∈ ss, s.2.toNat ≤ 7) : ∀ r ∈ setRows rows ss, r.level ≤ 7 := by
  induction rows generalizing ss with
  | nil => cases ss <;> exact hr
  | cons r rs ih => cases ss with
    | nil => exact hr
    | cons s ss =>
      intro x hx
      rcases List.mem_cons.1 hx with rfl | hx
      · exact hs s List.mem_cons_self
      · exact ih ss (fun y hy => hr y (List.mem_cons_of_mem _ hy)) (fun y hy => hs y (List.mem_cons_of_mem _ hy)) x hx

theorem takeNotice_linkInv (i : p.LinkInv) (tag : Byte) (ss : List (Byte × Byte)) (floor : Byte) : (takeNotice tag ss floor p).LinkInv := by
  unfold takeNotice
  split
  · exact placeDirect_linkInv i ..
  · split
    · rename_i hv
      unfold noticeValid at hv
      simp only [Bool.and_eq_true, List.all_eq_true, decide_eq_true_eq] at hv
      obtain ⟨hs, hf⟩ := hv
      apply placeDirect_linkInv
      exact i.shrink (List.Sublist.refl _) rfl (List.Sublist.refl _) (List.Sublist.refl _)
        ((setRows_length _ _).trans i.conds) (setRows_levels _ _ i.levels (fun s h => (hs s h).2)) hf i.reserve i.preempt i.directory
    · exact placeDirect_linkInv i ..

theorem clearConds_levels (set : Byte) (rows : List CondRow) (h : ∀ r ∈ rows, r.level ≤ 7) : ∀ r ∈ clearConds set rows, r.level ≤ 7 := by
  intro r hr
  obtain ⟨⟨x, n⟩, hx, rfl⟩ := List.mem_map.1 hr
  have := h x (List.fst_mem_of_mem_zipIdx hx)
  dsimp only
  split <;> exact this

theorem takeClear_linkInv (i : p.LinkInv) (tag set : Byte) : (takeClear tag set p).LinkInv := by
  apply placeDirect_linkInv
  exact i.shrink (List.Sublist.refl _) rfl (List.Sublist.refl _) (List.Sublist.refl _)
    (by simpa [clearConds] using i.conds) (clearConds_levels set _ i.levels) i.floor i.reserve i.preempt i.directory

/-- R78: what the new preempt level leaves as it is. -/
theorem setPreempt_eq (n : Nat) (p : Part) : ∃ x : Pee, setPreempt n p = { p with pee := x } ∧ x.preempt = n := by
  unfold setPreempt
  dsimp only
  split
  · split
    · exact ⟨_, rfl, rfl⟩
    · exact ⟨_, rfl, rfl⟩
  · exact ⟨_, rfl, rfl⟩

theorem takeTune_linkInv (i : p.LinkInv) (tag reserve preempt : Byte) : (takeTune tag reserve preempt p).LinkInv := by
  unfold takeTune
  split
  · rename_i h
    obtain ⟨x, e, hx⟩ := setPreempt_eq preempt.toNat { p with rqs := { p.rqs with reserve := reserve.toNat } }
    rw [e]
    apply placeDirect_linkInv
    exact i.shrink (List.Sublist.refl _) rfl (List.Sublist.refl _) (List.Sublist.refl _) i.conds i.levels i.floor
      h.1 (hx ▸ h.2) i.directory
  · exact placeDirect_linkInv i ..

/-! ### ABORT -/

/-- A mark on entries that leaves their ages and whether they are ACTIVE. -/
theorem modQueue_linkInv (i : p.LinkInv) (a : Nat) (f : Entry → Entry) (age : ∀ e, (f e).age = e.age)
    (active : ∀ e, (f e).active = e.active) : (modQueue a f p).LinkInv := by
  have ages : (modQueue a f p).ages = p.ages := by
    unfold Part.ages modQueue
    rw [List.map_map]
    refine List.map_congr_left fun e _ => ?_
    dsimp only [Function.comp]
    split
    · exact age e
    · rfl
  refine ⟨ages ▸ i.agesNodup, ages ▸ i.agesBelow, ?_, ?_, i.direct, i.conds, i.levels, i.floor, i.reserve, i.preempt, i.directory⟩
  · have := i.places
    simpa [Part.places, queuedReplies, modQueue] using this
  · have count : activeCount (modQueue a f p) = activeCount p := by
      unfold activeCount modQueue
      rw [List.filter_map, List.length_map]
      congr 2
      funext e
      dsimp only [Function.comp]
      split
      · exact active e
      · rfl
    exact count ▸ i.active

/-- R157: an ABORT holds a direct place only while one is free. -/
theorem holdAbort_linkInv (i : p.LinkInv) (tag : Byte) (age : Nat) : (holdAbort tag age p).LinkInv := by
  unfold holdAbort
  refine modQueue_linkInv ?_ age _ (fun _ => rfl) (fun _ => rfl)
  split
  · rename_i h
    refine ⟨i.agesNodup, i.agesBelow, i.places, i.active, ?_, i.conds, i.levels, i.floor, i.reserve, i.preempt, i.directory⟩
    unfold directInUse at h ⊢
    rw [List.length_append]
    exact h
  · exact (setCond_quiet (Quiet.refl p) _).linkInv i

theorem abortVerify_quiet (h : Quiet p q) (age : Nat) : Quiet p (abortVerify age q) := by
  unfold abortVerify
  split
  · exact quiet_ite (completeServing_quiet (withdraw_quiet h _) _ _ _ _) h
  · exact h

theorem abortCompact_quiet (h : Quiet p q) : Quiet p (abortCompact q) := by
  unfold abortCompact
  split
  · exact quiet_ite (quiet_ite (endJob_quiet (endStep_quiet (withdraw_quiet h _) _) _) h) (endJob_quiet h _)
  · exact h

theorem abortFormat_quiet (h : Quiet p q) : Quiet p (abortFormat q) := by
  unfold abortFormat
  split
  · exact quiet_ite h (formatReply_quiet (formatStop_quiet h) _ _)
  · exact h

theorem abortActive_linkInv (i : p.LinkInv) (tag : Byte) (e : Entry) : (abortActive tag e p).LinkInv := by
  have held := holdAbort_linkInv i tag e.age
  unfold abortActive
  split
  · exact (abortVerify_quiet (Quiet.refl _) _).linkInv held
  · exact (abortCompact_quiet (Quiet.refl _)).linkInv held
  · exact (abortFormat_quiet (Quiet.refl _)).linkInv held
  all_goals exact placeDirect_linkInv i ..

theorem takeAbort_linkInv (i : p.LinkInv) (tag target : Byte) : (takeAbort tag target p).LinkInv := by
  unfold takeAbort
  split
  · apply closeEvent_linkInv
    split
    · exact abortActive_linkInv i tag _
    · exact placeDirect_linkInv ((completeEntry_quiet (Quiet.refl p) _ _ _ _).linkInv i) ..
  · split
    · exact placeDirect_linkInv i ..
    · exact placeDirect_linkInv i ..

/-! ### ABANDON, RESTART and DATA -/

theorem abandonCtx_quiet (h : Quiet p q) (c : CtxId) : Quiet p (abandonCtx c q) := by
  unfold abandonCtx
  split
  · exact endCtx_quiet h _ _
  · exact endCtx_quiet h _ _
  · exact quiet_ite (finishEnd_quiet h _ _) h
  all_goals exact h

theorem takeAbandon_linkInv (i : p.LinkInv) (tag context : Byte) : (takeAbandon tag context p).LinkInv := by
  have answered := placeDirect_linkInv i 0x07 tag
  unfold takeAbandon
  split
  · split
    · exact closeEvent_linkInv ((abandonCtx_quiet (Quiet.refl _) _).linkInv (answered _ _))
    · exact answered _ _
  · exact answered _ _

theorem restartServing_quiet (h : Quiet p q) (r : Serving) : Quiet p (restartServing r q) := by
  have cleared := clearDeletePending_quiet (withdraw_quiet h (.serving r.age)) r.slot
  unfold restartServing
  split
  · exact quiet_ite (modServing_quiet h _ _) (dropServing_quiet (quiet_ite (makeSuspect_quiet cleared _ _) cleared) _)
  all_goals exact dropServing_quiet (withdraw_quiet h _) _

theorem restartCtx_quiet (h : Quiet p q) (c : CtxId) : Quiet p (restartCtx c q) := by
  have later : Quiet p (endAtCompletion c q) := modCtx_quiet h _ _
  unfold restartCtx
  dsimp only
  split
  · exact h
  · exact modCtx_quiet h _ _
  all_goals exact quiet_ite later (finishEnd_quiet h _ _)

theorem restartFormat_quiet (h : Quiet p q) : Quiet p (restartFormat q) := by
  unfold restartFormat
  split
  · exact quiet_ite (quiet_mk h _ _ _ _ _ _ rfl rfl) (formatStop_quiet h)
  · exact h

/-- R180: what RESTART makes of the work of the blocks. -/
theorem restartWork_quiet (p : Part) : Quiet p (restartFormat (restartRunner (allCtx.foldl (fun q c => restartCtx c q)
    (clearWaiting (p.sdr.serving.foldl (fun q r => restartServing r q) p))))) := by
  have served : Quiet p (p.sdr.serving.foldl (fun q r => restartServing r q) p) :=
    foldl_quiet _ (fun _ _ h => restartServing_quiet h _) _ (Quiet.refl p)
  have waited : Quiet p (clearWaiting (p.sdr.serving.foldl (fun q r => restartServing r q) p)) := quiet_mk served _ _ _ _ _ _ rfl rfl
  have ended := foldl_quiet (fun q c => restartCtx c q) (fun _ _ h => restartCtx_quiet h _) allCtx waited
  exact restartFormat_quiet (quiet_mk ended _ _ _ _ _ _ rfl rfl)

theorem takeRestart_linkInv (i : p.LinkInv) (tag : Byte) : (takeRestart tag p).LinkInv := by
  unfold takeRestart
  split
  · exact placeDirect_linkInv i ..
  · dsimp only
    apply closeEvent_linkInv
    apply placeDirect_linkInv
    have emptied : Part.LinkInv { p with rqs := { p.rqs with queue := [] }, link := { p.link with held := [] } } :=
      i.shrink (List.nil_sublist _) rfl (List.Sublist.refl _) (List.nil_sublist _) i.conds i.levels i.floor i.reserve i.preempt
        i.directory
    have quiet := restartWork_quiet { p with rqs := { p.rqs with queue := [] }, link := { p.link with held := [] } }
    have j := quiet.linkInv emptied
    exact j.shrink (List.Sublist.refl _) rfl (List.nil_sublist _) (List.Sublist.refl _) j.conds j.levels j.floor j.reserve j.preempt
      j.directory

theorem takeData_linkInv (i : p.LinkInv) (tag context : Byte) (offset : BitVec 24) (bytes : List Byte) :
    (takeData tag context offset bytes p).LinkInv := by
  unfold takeData
  split
  · exact placeDirect_linkInv i ..
  · split
    · exact placeDirect_linkInv i ..
    · split
      · exact placeDirect_linkInv i ..
      · exact closeEvent_linkInv ((chooseStep_quiet (modCtx_quiet (Quiet.refl p) _ _) _).linkInv i)

/-! ### Queued requests and frames -/

theorem offer_linkInv (i : p.LinkInv) (r : Request) (tag level : Byte) : (offer r tag level p).LinkInv := by
  unfold offer
  split
  · exact placeDirect_linkInv i ..
  · split
    · exact placeDirect_linkInv i ..
    · split
      · rename_i h; exact closeEvent_linkInv (admit_linkInv i r tag _ h)
      · exact placeDirect_linkInv i ..

theorem takeFormat_linkInv (i : p.LinkInv) (tag level n : Byte) (es : List PlanEntry) : (takeFormat tag level n es p).LinkInv := by
  unfold takeFormat
  split
  · exact placeDirect_linkInv i ..
  · exact offer_linkInv i ..

theorem takeRequest_linkInv (i : p.LinkInv) (c : Instr) : (takeRequest c p).LinkInv := by
  cases c
  case ident => exact placeDirect_linkInv i ..
  case status => exact placeDirect_linkInv i ..
  case notice => exact takeNotice_linkInv i ..
  case clear => exact takeClear_linkInv i ..
  case tune => exact takeTune_linkInv i ..
  case abort => exact takeAbort_linkInv i ..
  case abandon => exact takeAbandon_linkInv i ..
  case restart => exact takeRestart_linkInv i ..
  case data => exact takeData_linkInv i ..
  case format => exact takeFormat_linkInv i ..
  case write | read | list | delete | verify | compact => exact offer_linkInv i ..
  all_goals exact i

theorem takeFrame_linkInv (i : p.LinkInv) (frame : List Byte) : (takeFrame frame p).LinkInv := by
  unfold takeFrame
  split
  · exact i
  · exact placeDirect_linkInv i ..
  · split
    · exact takeRequest_linkInv i _
    · exact i

/-! ### The array, the engine and the pins -/

theorem finishWrite_linkInv {u : Purpose} {n o : Nat} {bs stuck : List Byte} {r : Result} {s t : State} (i : s.part.LinkInv)
    (h : finishWrite u n o bs stuck r s = .next t) : t.part.LinkInv := by
  unfold finishWrite at h
  split at h
  · injection h with h
    rw [← h]
    exact closeEvent_linkInv ((writeEnded_quiet (endOp_quiet (Quiet.refl _)) _ _ _ _).linkInv i)
  · cases h

theorem finishHeader_linkInv {b : BatchSector} {stuck : List Byte} {ok : Bool} {s t : State} (i : s.part.LinkInv)
    (h : finishHeader b stuck ok s = .next t) : t.part.LinkInv := by
  unfold finishHeader at h
  dsimp only at h
  split at h
  · injection h with h
    rw [← h]
    have done := (headerDone_quiet (Quiet.refl s.part) b.sector ok).linkInv i
    dsimp only
    split
    · exact done
    · exact closeEvent_linkInv done
  · cases h

theorem execReadComplete_linkInv {s t : State} (i : s.part.LinkInv) (h : execReadComplete s = .next t) : t.part.LinkInv := by
  unfold execReadComplete at h
  split at h
  · split at h
    · injection h with h
      rw [← h]
      exact closeEvent_linkInv ((readEnded_quiet (endOp_quiet (Quiet.refl _)) _ _).linkInv i)
    · cases h
  · injection h with h; rwa [← h]

theorem execProgramComplete_linkInv {stuck : List Byte} {s t : State} (i : s.part.LinkInv)
    (h : execProgramComplete stuck s = .next t) : t.part.LinkInv := by
  unfold execProgramComplete at h
  split at h
  · exact finishWrite_linkInv i h
  · injection h with h; rwa [← h]

theorem execMarkComplete_linkInv {stuck : List Byte} {s t : State} (i : s.part.LinkInv)
    (h : execMarkComplete stuck s = .next t) : t.part.LinkInv := by
  unfold execMarkComplete at h
  split at h
  · exact finishWrite_linkInv i h
  · injection h with h; rwa [← h]

theorem execHeaderWriteComplete_linkInv {stuck : List Byte} {s t : State} (i : s.part.LinkInv)
    (h : execHeaderWriteComplete stuck s = .next t) : t.part.LinkInv := by
  unfold execHeaderWriteComplete at h
  split at h
  · exact finishHeader_linkInv i h
  · injection h with h; rwa [← h]

theorem execOperationTimeout_linkInv {stuck : List Byte} {s t : State} (i : s.part.LinkInv)
    (h : execOperationTimeout stuck s = .next t) : t.part.LinkInv := by
  unfold execOperationTimeout at h
  split at h
  · exact finishHeader_linkInv i h
  · split at h
    · exact finishWrite_linkInv i h
    · exact finishWrite_linkInv i h
    · injection h with h; rwa [← h]

theorem execSuspendComplete_linkInv {s t : State} (i : s.part.LinkInv) (h : execSuspendComplete s = .next t) : t.part.LinkInv := by
  unfold execSuspendComplete at h
  split at h
  · injection h with h
    rw [← h]
    refine Quiet.linkInv ?_ i
    apply grantNow_quiet
    refine quiet_mk ?_ _ _ _ _ _ _ rfl rfl
    split
    · exact noteServed_quiet (Quiet.refl _) _ _
    · exact Quiet.refl _
  · injection h with h; rwa [← h]

theorem execErasePhaseEnd_linkInv {residue : List (Nat × Byte)} {s t : State} (i : s.part.LinkInv)
    (h : execErasePhaseEnd residue s = .next t) : t.part.LinkInv := by
  unfold execErasePhaseEnd at h
  split at h
  all_goals injection h with h; rw [← h]
  · exact (enterHeaders_quiet (Quiet.refl _) _ _).linkInv i
  · exact i

theorem execBatchTimeout_linkInv {residue : List (Nat × Byte)} {s t : State} (i : s.part.LinkInv)
    (h : execBatchTimeout residue s = .next t) : t.part.LinkInv := by
  unfold execBatchTimeout at h
  split at h
  all_goals injection h with h; rw [← h]
  · exact (enterHeaders_quiet (Quiet.refl _) _ _).linkInv i
  · exact i

theorem execGatheringWindowExpiry_linkInv {s t : State} (i : s.part.LinkInv) (h : execGatheringWindowExpiry s = .next t) :
    t.part.LinkInv := by
  unfold execGatheringWindowExpiry at h
  split at h
  all_goals injection h with h; rw [← h]
  · exact closeEvent_linkInv ((raiseErase_quiet (Quiet.refl _)).linkInv i)
  · exact i

theorem stopPart_linkInv (i : p.LinkInv) (r : RunState) : (stopPart r p).LinkInv := i.congr rfl rfl rfl rfl rfl rfl rfl

theorem coldPart_linkInv (p : Part) : (coldPart p).LinkInv where
  agesNodup := List.nodup_nil
  agesBelow := fun _ h => nomatch h
  places := Nat.zero_le _
  active := Nat.zero_le _
  direct := Nat.zero_le _
  conds := rfl
  levels := fun r hr => by rw [List.eq_of_mem_replicate hr]; decide
  floor := Nat.zero_le _
  reserve := show 2 ≤ 7 by decide
  preempt := show 1 ≤ 4 ∧ 4 ≤ 7 by decide
  directory := List.Pairwise.nil

theorem execResetAsserted_linkInv {stuck : List Byte} {residue : List (Nat × Byte)} {s t : State} (i : s.part.LinkInv)
    (h : execResetAsserted stuck residue s = .next t) : t.part.LinkInv := by
  unfold execResetAsserted at h
  split at h
  all_goals injection h with h; rw [← h]
  · exact stopPart_linkInv i _
  · exact i

theorem execMaintPinChange_linkInv {asserted : Bool} {s t : State} (i : s.part.LinkInv)
    (h : execMaintPinChange asserted s = .next t) : t.part.LinkInv := by
  unfold execMaintPinChange at h
  split at h
  · injection h with h; rwa [← h]
  · split at h
    all_goals injection h with h; rw [← h]; exact i.congr rfl rfl rfl rfl rfl rfl rfl

theorem execDebounceExpiry_linkInv {s t : State} (i : s.part.LinkInv) (h : execDebounceExpiry s = .next t) : t.part.LinkInv := by
  unfold execDebounceExpiry at h
  split at h
  all_goals injection h with h; rw [← h]
  · exact (setCond_quiet (Quiet.refl _) _).linkInv (i.congr rfl rfl rfl rfl rfl rfl rfl)
  · exact i

/-! ### The step -/

theorem request_linkInv {n : Nat} {act : Part → Part} {s t : State} (i : s.part.LinkInv) (hact : ∀ r, r.LinkInv → (act r).LinkInv)
    (h : request n act s = .next t) : t.part.LinkInv := by
  injection h with h
  rw [← h]
  exact push_linkInv i n act hact

/-- Whatever the command, its effect keeps the invariant. -/
theorem exec_linkInv {c : Instr} {s t : State} (i : s.part.LinkInv) (h : exec c s = .next t) : t.part.LinkInv := by
  cases c
  case transactionStart =>
    injection h with h
    rw [← h]
    exact i.congr rfl rfl rfl rfl rfl rfl rfl
  case ignoredTransaction => exact request_linkInv i (fun _ j => j) h
  case badFrame => exact request_linkInv i (fun _ j => takeFrame_linkInv j _) h
  case fetch => injection h with h; rw [← h]; exact endFetch_linkInv i _
  case ident => exact request_linkInv i (fun _ j => placeDirect_linkInv j _ _ _ _) h
  case status => exact request_linkInv i (fun _ j => placeDirect_linkInv j _ _ _ _) h
  case notice => exact request_linkInv i (fun _ j => takeNotice_linkInv j _ _ _) h
  case clear => exact request_linkInv i (fun _ j => takeClear_linkInv j _ _) h
  case tune => exact request_linkInv i (fun _ j => takeTune_linkInv j _ _ _) h
  case abort => exact request_linkInv i (fun _ j => takeAbort_linkInv j _ _) h
  case abandon => exact request_linkInv i (fun _ j => takeAbandon_linkInv j _ _) h
  case restart => exact request_linkInv i (fun _ j => takeRestart_linkInv j _) h
  case data => exact request_linkInv i (fun _ j => takeData_linkInv j _ _ _ _) h
  case format => exact request_linkInv i (fun _ j => takeFormat_linkInv j _ _ _ _) h
  case write | read | list | delete | verify | compact => exact request_linkInv i (fun _ j => offer_linkInv j _ _ _) h
  case resetAsserted => exact execResetAsserted_linkInv i h
  case coldStart => injection h with h; rw [← h]; exact coldPart_linkInv _
  case maintPinChange => exact execMaintPinChange_linkInv i h
  case debounceExpiry => exact execDebounceExpiry_linkInv i h
  case gatheringWindowExpiry => exact execGatheringWindowExpiry_linkInv i h
  case readComplete => exact execReadComplete_linkInv i h
  case programComplete => exact execProgramComplete_linkInv i h
  case markComplete => exact execMarkComplete_linkInv i h
  case operationTimeout => exact execOperationTimeout_linkInv i h
  case suspendComplete => exact execSuspendComplete_linkInv i h
  case erasePhaseEnd => exact execErasePhaseEnd_linkInv i h
  case batchTimeout => exact execBatchTimeout_linkInv i h
  case headerWriteComplete => exact execHeaderWriteComplete_linkInv i h
  case lossOfPower => injection h with h; rw [← h]; exact stopPart_linkInv i _

/-- Settles O6: the command at the front of the queue keeps the invariant, and so does an idle microsecond. -/
theorem stepKeepsLinkInv : Obligations.StepKeepsLinkInv := by
  intro s t i h
  unfold step at h
  split at h
  · injection h with h
    rw [← h]
    exact tickPart_linkInv i
  · rename_i cs _
    exact exec_linkInv (s := { s with pending := cs }) i h

/-! ### The cold start (R171) -/

theorem coldStart_next (stuck : List Byte) (residue : List (Nat × Byte)) (s : State) : exec (.coldStart stuck residue) s =
    .next { s with array := stopArray stuck residue s, part := coldPart s.part } := rfl

/-- R171: with MAINT released and no transaction in progress, a cold start leaves the part that reset gives. -/
theorem coldPart_released {p : Part} (pin : p.mli.pin = false) (idle : p.link.transaction = .none) : coldPart p = .cold := by
  unfold coldPart
  rw [pin, idle]
  rfl

/-- R81, R83: both contexts of a part after a cold start are IDLE and empty. -/
theorem coldPart_ctx (p : Part) (c : CtxId) : (coldPart p).ctx c = WriteCtx.cold := by cases c <;> rfl

/-- Settles O41: the blocks of a part after a cold start are those of the part after reset, but for the pin's. -/
theorem coldStartValues : Obligations.ColdStartValues := by
  refine ⟨fun stuck residue s => ⟨_, coldStart_next stuck residue s, rfl, ?_⟩, rfl, ?_, rfl, rfl, rfl, fun _ => rfl⟩
  · exact ⟨rfl, rfl, rfl, rfl, rfl, rfl, rfl, rfl, rfl, rfl, rfl, coldPart_ctx s.part, rfl, rfl, rfl, rfl, rfl, rfl, ⟨0, rfl⟩, rfl, rfl,
      coldPart_released⟩
  · have cold := coldPart_linkInv Part.cold
    rwa [coldPart_released rfl rfl] at cold

end Sys2Proof.Machine
end

