-- ==== Sys2Proof/Proofs/Validation.lean ====
section
/-! SUPPORT. Validation: the checks of a kind stand in code order, and each check is the condition of the table (R19, R37, R52, R152). -/
namespace Sys2Proof.Machine

/-! ### The failing check of lowest code (R152) -/

/-- R152: the checks of a kind stand in the order of their codes. -/
theorem checks_sorted (r : Request) (p : Part) : (checks r p).Pairwise (fun a b => a.2.code.toNat ≤ b.2.code.toNat) := by
  cases r <;> simp [checks, Status.code]

theorem validate_eq_none_iff (r : Request) (p : Part) : validate r p = none ↔ ∀ c ∈ checks r p, c.1 = true := by
  simp [validate]

theorem validate_eq_some {r : Request} {p : Part} {st : Status} (h : validate r p = some st) :
    (false, st) ∈ checks r p ∧ ∀ c ∈ checks r p, c.1 = false → st.code.toNat ≤ c.2.code.toNat := by
  obtain ⟨⟨b, st'⟩, found, rfl⟩ := Option.map_eq_some_iff.1 h
  obtain ⟨hb, before, after, split, passed⟩ := List.find?_eq_some_iff_append.1 found
  obtain rfl : b = false := by simpa using hb
  have sorted := checks_sorted r p
  rw [split] at sorted ⊢
  refine ⟨by simp, fun c hc hf => ?_⟩
  rcases List.mem_append.1 hc with hc | hc
  · have := passed c hc
    rw [hf] at this
    cases this
  · rcases List.mem_cons.1 hc with rfl | hc
    · exact Nat.le_refl _
    · exact (List.pairwise_cons.1 (List.pairwise_append.1 sorted).2.1).1 c hc

/-! ### The checks against the conditions of the table -/

/-- A check fails exactly when the condition of its row holds, with the row's code. -/
def CheckIs (row : Prop × Status) (check : Bool × Status) : Prop := check.2 = row.2 ∧ (check.1 = false ↔ row.1)

theorem firstFailing_of_checks {rows : List (Prop × Status)} {cs : List (Bool × Status)} (h : List.Forall₂ CheckIs rows cs) :
    FirstFailing rows ((cs.find? (fun c => !c.1)).map (·.2)) := by
  induction h with
  | nil => rfl
  | @cons row check rows cs is _ ih =>
    obtain ⟨code, fails⟩ := is
    refine ⟨fun hc => ?_, fun hc => ?_⟩
    · rw [List.find?_cons_of_pos (by simpa using fails.2 hc), Option.map_some, code]
    · rwa [List.find?_cons_of_neg (by simpa using fun hf => hc (fails.1 hf))]

theorem validate_firstFailing {r : Request} {p : Part} {rows : List (Prop × Status)} (h : List.Forall₂ CheckIs rows (checks r p)) :
    FirstFailing rows (validate r p) := firstFailing_of_checks h

/-- R19: a slot id outside its range. -/
theorem slotInRange_eq_false_iff (s : Nat) : slotInRange s = false ↔ s < 1 ∨ 4095 < s := by
  simp only [slotInRange, Bool.and_eq_false_iff, decide_eq_false_iff_not, Nat.not_le]

theorem classOf_isSome_eq_false_iff (k : Nat) : (classOf k).isSome = false ↔ k < 1 ∨ 3 < k := by
  unfold classOf
  split
  · simp
  · simp
  · simp
  · rename_i h1 h2 h3
    have : k ≠ 1 ∧ k ≠ 2 ∧ k ≠ 3 := ⟨h1, h2, h3⟩
    simp only [Option.isSome_none, true_iff]
    omega

theorem zoneMatches_eq_false_iff (s z : Nat) (p : Part) :
    zoneMatches s z p = false ↔ ∃ d, p.entryOf s = some d ∧ d.zone ≠ z := by
  unfold zoneMatches
  cases p.entryOf s <;> simp

theorem slotOpen_iff (s : Nat) (p : Part) : slotOpen s p = true ↔ ∃ c, (p.ctx c).isOpen = true ∧ (p.ctx c).slot = s := by
  constructor
  · intro h
    obtain ⟨c, _, hc⟩ := List.any_eq_true.1 h
    exact ⟨c, by simpa using hc⟩
  · rintro ⟨c, hc⟩
    exact List.any_eq_true.2 ⟨c, by cases c <;> decide, by simpa using hc⟩

theorem writeFree_eq_false_iff (s : Nat) (p : Part) : writeFree s p = false ↔
    (∃ c, (p.ctx c).isOpen = true ∧ (p.ctx c).slot = s) ∨ ∃ d, p.entryOf s = some d ∧ d.deletePending = true := by
  unfold writeFree
  rw [← slotOpen_iff, Bool.and_eq_false_iff]
  cases p.entryOf s <;> simp

theorem idleCtx_isSome_eq_false_iff (p : Part) : (idleCtx p).isSome = false ↔ ∀ c, (p.ctx c).state ≠ .idle := by
  unfold idleCtx
  rw [Option.isSome_eq_false_iff, Option.isNone_iff_eq_none, List.find?_eq_none]
  constructor
  · intro h c
    simpa using h c (by cases c <;> decide)
  · intro h c _
    simpa using h c

theorem entryOf_isSome_eq_false_iff (s : Nat) (p : Part) : (p.entryOf s).isSome = false ↔ p.entryOf s = none := by
  rw [Option.isSome_eq_false_iff, Option.isNone_iff_eq_none]

theorem deleteFree_eq_false_iff (s : Nat) (p : Part) : deleteFree s p = false ↔ ∃ d, p.entryOf s = some d ∧
    ((∃ c, (p.ctx c).isOpen = true ∧ (p.ctx c).slot = s) ∨ d.deletePending = true ∨ (∃ r ∈ p.sdr.retiring, r.slot = s) ∨
      d.lingering ≠ []) := by
  unfold deleteFree
  rw [← slotOpen_iff]
  cases p.entryOf s with
  | none => simp
  | some e =>
    simp only [noRecord, Bool.and_eq_false_iff, or_assoc]
    simp

theorem anyOpen_iff (p : Part) : allCtx.all (fun c => !(p.ctx c).isOpen) = false ↔ ∃ c, (p.ctx c).isOpen = true := by
  constructor
  · intro h
    obtain ⟨c, _, hc⟩ := List.all_eq_false.1 h
    exact ⟨c, by simpa using hc⟩
  · rintro ⟨c, hc⟩
    exact List.all_eq_false.2 ⟨c, by cases c <;> decide, by simpa using hc⟩

theorem formatReady_iff (p : Part) : (decide (p.scu.store = .blank) || p.mounted) = false ↔
    p.scu.store = .scanning ∨ p.scu.store = .formatting := by
  unfold Part.mounted
  cases p.scu.store <;> simp

theorem decide_ne_refused_iff (x : ClassOutcome) : decide (x ≠ .refused) = false ↔ x = .refused := by simp

/-- Settles O34: the checks stand in code order, and each is the condition of its row. -/
theorem lowestFailingCode : Obligations.LowestFailingCode := by
  refine ⟨fun r p => ⟨validate_eq_none_iff r p, fun _ h => validate_eq_some h⟩, fun p => ?_⟩
  have ready : CheckIs (p.mounted = false, .notReady) (p.mounted, .notReady) := ⟨rfl, Iff.rfl⟩
  have present (s : Nat) : CheckIs (p.entryOf s = none, .noSlot) ((p.entryOf s).isSome, .noSlot) :=
    ⟨rfl, entryOf_isSome_eq_false_iff s p⟩
  have ranged (s : Nat) : CheckIs (s < 1 ∨ 4095 < s, .badField) (slotInRange s, .badField) := ⟨rfl, slotInRange_eq_false_iff s⟩
  have allowed (x : ClassOutcome) : CheckIs (x = .refused, .protected_) (decide (x ≠ .refused), .protected_) :=
    ⟨rfl, decide_ne_refused_iff x⟩
  refine ⟨fun s z k n => validate_firstFailing ?_, fun s o c => validate_firstFailing ?_, fun a m => validate_firstFailing ?_,
    fun s => validate_firstFailing ?_, fun s => validate_firstFailing ?_, fun z n => validate_firstFailing ?_,
    fun n plan => validate_firstFailing ?_⟩
  · refine .cons ready (.cons ⟨rfl, ?_⟩ (.cons (allowed _) (.cons ⟨rfl, writeFree_eq_false_iff s p⟩
      (.cons ⟨rfl, idleCtx_isSome_eq_false_iff p⟩ (.cons ⟨rfl, ?_⟩ (.cons ⟨rfl, ?_⟩ (.cons ⟨rfl, ?_⟩ .nil)))))))
    · simp only [Bool.and_eq_false_iff, decide_eq_false_iff_not, Nat.not_lt, Nat.not_le, or_assoc, slotInRange_eq_false_iff,
        classOf_isSome_eq_false_iff, zoneMatches_eq_false_iff]
    · simp only [Bool.or_eq_false_iff, decide_eq_false_iff_not, Nat.not_lt, entryOf_isSome_eq_false_iff]
    · exact decide_eq_false_iff_not.trans Nat.not_le
    · simp only [decide_eq_false_iff_not, Nat.not_lt]
  · refine .cons ready (.cons ⟨rfl, ?_⟩ (.cons (present s) .nil))
    simp only [Bool.and_eq_false_iff, decide_eq_false_iff_not, Nat.not_le, or_assoc, slotInRange_eq_false_iff]
  · refine .cons ready (.cons ⟨rfl, ?_⟩ .nil)
    simp only [Bool.and_eq_false_iff, decide_eq_false_iff_not, Nat.not_le, or_assoc]
  · exact .cons ready (.cons (ranged s) (.cons (present s) (.cons (allowed _) (.cons ⟨rfl, deleteFree_eq_false_iff s p⟩ .nil))))
  · exact .cons ready (.cons (ranged s) (.cons (present s) .nil))
  · refine .cons ready (.cons ⟨rfl, ?_⟩ .nil)
    simp only [Bool.and_eq_false_iff, decide_eq_false_iff_not, Nat.not_lt, Nat.not_le, or_assoc]
  · refine .cons ⟨rfl, formatReady_iff p⟩ (.cons ⟨rfl, ?_⟩ (.cons (allowed _) (.cons ⟨rfl, anyOpen_iff p⟩ .nil)))
    rw [Bool.and_eq_false_iff, Bool.and_eq_false_iff, decide_eq_false_iff_not, decide_eq_false_iff_not, Nat.not_le, Nat.not_le,
      or_assoc, ← Bool.not_eq_true (planValid _), planValid_iff]
    exact Iff.rfl

end Sys2Proof.Machine
end

