-- ==== Sys2Proof/Proofs/CloseOfEvent.lean ====
section
/-! SUPPORT. The close of an event: its reactions in their order, up to their bound, and the claim that the engine grants (R63). -/
namespace Sys2Proof.Machine

/-! ### Reactions (log 7) -/

theorem firstReact_eq (fs : List (Part → Option Part)) (p : Part) : firstReact fs p = fs.findSome? (fun f => f p) := by
  induction fs with
  | nil => rfl
  | cons f fs ih =>
    unfold firstReact
    rw [List.findSome?_cons]
    cases f p with
    | none => exact ih
    | some q => rfl

theorem settle_react {p q : Part} (h : react p = some q) (n : Nat) : settle (n + 1) p = settle n q := by
  simp only [settle, h]

theorem settle_rest {p : Part} (h : react p = none) (n : Nat) : settle (n + 1) p = p := by
  simp only [settle, h]

/-- The reactions of one event are a chain, which stops at the bound or where none has anything to do. -/
theorem settle_chain (n : Nat) (p : Part) : ∃ k ≤ n, ∃ f : Nat → Part, f 0 = p ∧ (∀ i < k, react (f i) = some (f (i + 1))) ∧
    settle n p = f k ∧ (k < n → react (f k) = none) := by
  induction n generalizing p with
  | zero => exact ⟨0, Nat.le_refl _, fun _ => p, rfl, fun i hi => absurd hi (by omega), rfl, fun h => absurd h (by omega)⟩
  | succ n ih =>
    cases h : react p with
    | none =>
      exact ⟨0, Nat.zero_le _, fun _ => p, rfl, fun i hi => absurd hi (by omega), settle_rest h n, fun _ => h⟩
    | some q =>
      obtain ⟨k, hk, f, start, chain, last, stop⟩ := ih q
      refine ⟨k + 1, by omega, fun i => i.casesOn p f, rfl, fun i hi => ?_, (settle_react h n).trans last, fun hn => stop (by omega)⟩
      cases i with
      | zero => exact h.trans (congrArg some start.symm)
      | succ i => exact chain i (by omega)

/-! ### The claim granted (R63) -/

theorem Claim.before_iff (a b : Claim) : a.before b = true ↔ b.level < a.level ∨
    (a.level = b.level ∧ (a.kind.rank < b.kind.rank ∨ (a.kind.rank = b.kind.rank ∧ a.age < b.age))) := by
  simp only [Claim.before, Bool.or_eq_true, Bool.and_eq_true, decide_eq_true_eq]

theorem bestClaim_eq_none_iff (l : List Claim) : bestClaim l = none ↔ l = [] := by
  cases l with
  | nil => simp [bestClaim]
  | cons c cs =>
    simp only [bestClaim, reduceCtorEq, iff_false]
    split
    · exact nofun
    · split <;> exact nofun

/-- R63: the claim granted is one of the list, and none of the list goes before it. -/
theorem bestClaim_spec {l : List Claim} {c : Claim} (h : bestClaim l = some c) : c ∈ l ∧ ∀ d ∈ l, ¬ d.before c = true := by
  induction l generalizing c with
  | nil => cases h
  | cons x xs ih =>
    unfold bestClaim at h
    have irrefl : ¬ x.before x = true := by rw [Claim.before_iff]; omega
    cases best : bestClaim xs with
    | none =>
      rw [best] at h
      obtain rfl : x = c := Option.some.inj h
      rw [bestClaim_eq_none_iff] at best
      subst best
      exact ⟨List.mem_singleton_self x, fun d hd => List.mem_singleton.1 hd ▸ irrefl⟩
    | some y =>
      rw [best] at h
      obtain ⟨hy, first⟩ := ih best
      dsimp only at h
      split at h
      · rename_i hb
        obtain rfl : y = c := Option.some.inj h
        refine ⟨List.mem_cons_of_mem _ hy, fun d hd => ?_⟩
        rcases List.mem_cons.1 hd with rfl | hd
        · rw [Claim.before_iff] at hb ⊢; omega
        · exact first d hd
      · rename_i hb
        obtain rfl : x = c := Option.some.inj h
        refine ⟨List.mem_cons_self, fun d hd => ?_⟩
        rcases List.mem_cons.1 hd with rfl | hd
        · exact irrefl
        · have := first d hd
          rw [Claim.before_iff] at hb this ⊢; omega

theorem grantNow_idle_some {p : Part} {c : Claim} (h : p.pee.state = .idle)
    (best : bestClaim (p.pee.claims.filter (clearOfBatch p)) = some c) : grantNow p = grantIdle c p := by
  simp only [grantNow, h, eligibleClaims, best]

theorem grantNow_idle_none {p : Part} (h : p.pee.state = .idle) (none_ : p.pee.claims.filter (clearOfBatch p) = []) :
    grantNow p = p := by
  simp only [grantNow, h, eligibleClaims, none_, bestClaim]

/-- R63: a claim with an operation of its own, granted. -/
theorem grantOp_pee (e : EngineState) (c : Claim) (p : Part) : (grantOp e c p).pee =
    { p.pee with state := e, op := some c, opClock := 0, claims := p.pee.claims.filter (fun d => d.age ≠ c.age) } := by
  unfold grantOp startBufferOf
  split <;> simp [dropClaim]

theorem grantIdle_op {c : Claim} (h : (∃ rs, c.target = .runs rs) ∨ ∃ i o bs, c.target = .bytes i o bs) (p : Part) :
    grantIdle c p = grantOp .busy c p := by
  unfold grantIdle
  rcases h with ⟨rs, h⟩ | ⟨i, o, bs, h⟩ <;> rw [h]

/-- Settles O46: the reactions form a chain, and the claim granted is the best of those that may be granted. -/
theorem grantOrder : Obligations.GrantOrder := by
  refine ⟨fun p => ⟨rfl, firstReact_eq _ p⟩, settle_chain, fun l => ⟨bestClaim_eq_none_iff l, fun c h => ?_⟩, by decide,
    fun p c idle best target => ?_, fun p h => ?_⟩
  · obtain ⟨mem, first⟩ := bestClaim_spec h
    refine ⟨mem, fun d hd age => ?_⟩
    have := first d hd
    rw [Claim.before_iff] at this
    omega
  · have granted : grantNow p = grantOp .busy c p := (grantNow_idle_some idle best).trans (grantIdle_op target p)
    rw [granted, grantOp_pee]
    exact ⟨rfl, rfl, rfl⟩
  · rcases h with ⟨idle, none_⟩ | ⟨idle, suspended⟩
    · exact grantNow_idle_none idle none_
    · unfold grantNow
      split
      · contradiction
      · contradiction
      all_goals rfl

end Sys2Proof.Machine
end

