-- ==== Sys2Proof/Proofs/Tables.lean ====
section
/-! SUPPORT. One rule for each operation on the tables of the directory, the served requests and the queue; what raising a claim leaves
as it is; the end of a queued request as one change (`endedPart`). -/
namespace Sys2Proof.Machine

/-! ### Searching a table that was changed -/

/-- A search for a key finds the changed row, when the change of rows keeps the keys. -/
theorem find?_map_key {α : Type} (l : List α) (g : α → α) (q : α → Bool) (hg : ∀ x, q (g x) = q x) :
    (l.map g).find? q = (l.find? q).map g := by
  rw [List.find?_map]
  congr 2
  funext x
  exact hg x

/-- What a search for a key finds has the key. -/
theorem entryOf_slot {p : Part} {s : Nat} {d : DirEntry} (h : p.entryOf s = some d) : d.slot = s := by
  simpa using List.find?_some h

theorem servingOf_age {p : Part} {a : Nat} {r : Serving} (h : p.servingOf a = some r) : r.age = a := by
  simpa using List.find?_some h

theorem queueEntry_age {p : Part} {a : Nat} {e : Entry} (h : p.queueEntry a = some e) : e.age = a := by
  simpa using List.find?_some h

theorem retiringOf_key {p : Part} {s n : Nat} {r : Retiring} (h : p.retiringOf s n = some r) : r.slot = s ∧ r.sequence = n := by
  simpa using List.find?_some h

/-! ### The directory (R25) -/

theorem entryOf_of_directory {p q : Part} (h : q.sdr.directory = p.sdr.directory) (s : Nat) : q.entryOf s = p.entryOf s := by
  unfold Part.entryOf
  rw [h]

theorem entryOf_modEntry (f : DirEntry → DirEntry) (hf : ∀ e, (f e).slot = e.slot) (s t : Nat) (p : Part) :
    (modEntry s f p).entryOf t = (p.entryOf t).map (fun e => if e.slot = s then f e else e) :=
  find?_map_key _ _ _ (fun e => by split <;> simp [hf])

theorem entryOf_modEntry_self {f : DirEntry → DirEntry} (hf : ∀ e, (f e).slot = e.slot) {s : Nat} {p : Part} {d : DirEntry}
    (h : p.entryOf s = some d) : (modEntry s f p).entryOf s = some (f d) := by
  rw [entryOf_modEntry f hf, h, Option.map_some, if_pos (entryOf_slot h)]

theorem entryOf_modEntry_other {f : DirEntry → DirEntry} (hf : ∀ e, (f e).slot = e.slot) {s t : Nat} (hst : t ≠ s) (p : Part) :
    (modEntry s f p).entryOf t = p.entryOf t := by
  rw [entryOf_modEntry f hf]
  cases h : p.entryOf t with
  | none => rfl
  | some d => rw [Option.map_some, if_neg (by rw [entryOf_slot h]; exact hst)]

theorem entryOf_modEntry_none {f : DirEntry → DirEntry} (hf : ∀ e, (f e).slot = e.slot) {s t : Nat} {p : Part}
    (h : p.entryOf t = none) : (modEntry s f p).entryOf t = none := by
  rw [entryOf_modEntry f hf, h, Option.map_none]

/-! ### Serving records (R105) -/

theorem servingOf_of_serving {p q : Part} (h : q.sdr.serving = p.sdr.serving) (a : Nat) : q.servingOf a = p.servingOf a := by
  unfold Part.servingOf
  rw [h]

theorem servingOf_modServing {f : Serving → Serving} (hf : ∀ r, (f r).age = r.age) (a b : Nat) (p : Part) :
    (modServing a f p).servingOf b = (p.servingOf b).map (fun r => if r.age = a then f r else r) :=
  find?_map_key _ _ _ (fun r => by split <;> simp [hf])

theorem servingOf_modServing_self {f : Serving → Serving} (hf : ∀ r, (f r).age = r.age) {a : Nat} {p : Part} {r : Serving}
    (h : p.servingOf a = some r) : (modServing a f p).servingOf a = some (f r) := by
  rw [servingOf_modServing hf, h, Option.map_some, if_pos (servingOf_age h)]

theorem servingOf_modServing_other {f : Serving → Serving} (hf : ∀ r, (f r).age = r.age) {a b : Nat} (hab : b ≠ a) (p : Part) :
    (modServing a f p).servingOf b = p.servingOf b := by
  rw [servingOf_modServing hf]
  cases h : p.servingOf b with
  | none => rfl
  | some d => rw [Option.map_some, if_neg (by rw [servingOf_age h]; exact hab)]

theorem servingOf_dropServing_self (a : Nat) (p : Part) : (dropServing a p).servingOf a = none := by
  refine List.find?_eq_none.2 fun r hr => ?_
  simpa using (List.mem_filter.1 hr).2

theorem servingOf_dropServing_other {a b : Nat} (hab : b ≠ a) (p : Part) : (dropServing a p).servingOf b = p.servingOf b := by
  unfold Part.servingOf dropServing
  rw [List.find?_filter]
  congr 1
  funext r
  by_cases hr : r.age = b
  · simp [hr, hab]
  · simp [hr]

/-- R105: a record added is found when its age is new. -/
theorem servingOf_addServing {r : Serving} {p : Part} (h : ∀ x ∈ p.sdr.serving, x.age ≠ r.age) :
    (addServing r p).servingOf r.age = some r := by
  unfold Part.servingOf addServing
  rw [List.find?_append, List.find?_eq_none.2 (by simpa using h)]
  simp

/-- R105: with ages told apart, the record of an age is the one of the table. -/
theorem servingOf_of_mem {p : Part} (nd : (p.sdr.serving.map (·.age)).Nodup) {r : Serving} (hr : r ∈ p.sdr.serving) :
    p.servingOf r.age = some r := by
  cases h : p.servingOf r.age with
  | none => simpa using List.find?_eq_none.1 h r hr
  | some x => rw [List.inj_on_of_nodup_map nd (List.mem_of_find?_eq_some h) hr (servingOf_age h)]

/-! ### Raising a claim (R59) -/

@[simp] theorem raise_run (u : Purpose) (k : OpKind) (l : Nat) (t : Target) (p : Part) : (raise u k l t p).run = p.run := by
  rw [(raise_spec ..).1]
@[simp] theorem raise_link (u : Purpose) (k : OpKind) (l : Nat) (t : Target) (p : Part) : (raise u k l t p).link = p.link := by
  rw [(raise_spec ..).1]
@[simp] theorem raise_rqs (u : Purpose) (k : OpKind) (l : Nat) (t : Target) (p : Part) : (raise u k l t p).rqs = p.rqs := by
  rw [(raise_spec ..).1]
@[simp] theorem raise_sdr (u : Purpose) (k : OpKind) (l : Nat) (t : Target) (p : Part) : (raise u k l t p).sdr = p.sdr := by
  rw [(raise_spec ..).1]
@[simp] theorem raise_wcu (u : Purpose) (k : OpKind) (l : Nat) (t : Target) (p : Part) : (raise u k l t p).wcu = p.wcu := by
  rw [(raise_spec ..).1]
@[simp] theorem raise_rcu (u : Purpose) (k : OpKind) (l : Nat) (t : Target) (p : Part) : (raise u k l t p).rcu = p.rcu := by
  rw [(raise_spec ..).1]
@[simp] theorem raise_mli (u : Purpose) (k : OpKind) (l : Nat) (t : Target) (p : Part) : (raise u k l t p).mli = p.mli := by
  rw [(raise_spec ..).1]
@[simp] theorem raise_scu (u : Purpose) (k : OpKind) (l : Nat) (t : Target) (p : Part) : (raise u k l t p).scu = p.scu := by
  rw [(raise_spec ..).1]
@[simp] theorem raise_claims (u : Purpose) (k : OpKind) (l : Nat) (t : Target) (p : Part) : (raise u k l t p).pee.claims =
    p.pee.claims ++ [{ age := p.pee.nextAge, purpose := u, kind := k, level := l, target := t }] := (raise_spec ..).2.1
@[simp] theorem raise_nextAge (u : Purpose) (k : OpKind) (l : Nat) (t : Target) (p : Part) :
    (raise u k l t p).pee.nextAge = p.pee.nextAge + 1 := (raise_spec ..).2.2.1
@[simp] theorem raise_batch (u : Purpose) (k : OpKind) (l : Nat) (t : Target) (p : Part) :
    (raise u k l t p).pee.batch = p.pee.batch := (raise_spec ..).2.2.2
@[simp] theorem raise_op (u : Purpose) (k : OpKind) (l : Nat) (t : Target) (p : Part) : (raise u k l t p).pee.op = p.pee.op := by
  unfold raise
  dsimp only
  split <;> rfl

/-! ### Replies (R148, R157) -/

/-- The reply that an ABORT waiting on a target is given. -/
def HeldAbort.reply (st : Status) (h : HeldAbort) : Reply :=
  { kind := 0x06, tag := h.tag, status := st, notes := 0, payload := [], place := .direct }

theorem pushReplies_eq (st : Status) (hs : List HeldAbort) (p : Part) : hs.foldl (fun q h => pushReply (h.reply st) q) p =
    { p with link := { p.link with replies := p.link.replies ++ hs.map (HeldAbort.reply st) } } := by
  induction hs generalizing p with
  | nil => simp
  | cons h hs ih =>
    rw [List.foldl_cons, ih]
    simp [pushReply]

/-- R157: the ABORTs that wait on a target are answered in their order. -/
theorem answerHeld_eq (a : Nat) (st : Status) (p : Part) : answerHeld a st p = { p with link := { p.link with
    replies := p.link.replies ++ (p.link.held.filter (fun h => h.target = a)).map (HeldAbort.reply st)
    held := p.link.held.filter (fun h => h.target ≠ a) } } :=
  pushReplies_eq st _ _

theorem abortAnswer_eq (st : Status) : abortAnswer st = if st = .aborted then .ok else .tooLate := by cases st <;> rfl

/-- R148, R157: a queued request that ends leaves with its reply in its place and the ABORTs that wait on it answered. -/
theorem completeEntry_eq {a : Nat} {e : Entry} {p : Part} (h : p.queueEntry a = some e) (st : Status) (n : Byte) (pl : List Byte) :
    completeEntry a st n pl p = endedPart e st n pl p := by
  unfold completeEntry
  rw [h]
  dsimp only
  rw [answerHeld_eq, abortAnswer_eq, ← queueEntry_age h]
  rfl

/-- R105: a request whose entry RESTART discarded gives no reply. -/
theorem completeEntry_absent {a : Nat} {p : Part} (h : p.queueEntry a = none) (st : Status) (n : Byte) (pl : List Byte) :
    completeEntry a st n pl p = p := by
  unfold completeEntry
  rw [h]

theorem queueEntry_of_rqs {p q : Part} (h : q.rqs = p.rqs) (a : Nat) : q.queueEntry a = p.queueEntry a := by
  unfold Part.queueEntry
  rw [h]

theorem queueEntry_endedPart_self (e : Entry) (st : Status) (n : Byte) (pl : List Byte) (p : Part) :
    (endedPart e st n pl p).queueEntry e.age = none := by
  refine List.find?_eq_none.2 fun d hd => ?_
  simpa using (List.mem_filter.1 hd).2

theorem queueEntry_endedPart_other {a : Nat} {e : Entry} (h : a ≠ e.age) (st : Status) (n : Byte) (pl : List Byte) (p : Part) :
    (endedPart e st n pl p).queueEntry a = p.queueEntry a := by
  unfold Part.queueEntry endedPart
  rw [List.find?_filter]
  congr 1
  funext d
  by_cases hd : d.age = a
  · simp [hd, h]
  · simp [hd]

end Sys2Proof.Machine
end

