-- ==== Sys2Proof/Proofs/HandOver.lean ====
section
/-! SUPPORT. What a request that passed its validation starts at its hand-over (R85, R94, R105, R107, R111, R114, R133). -/
namespace Sys2Proof.Machine

/-! ### WRITE (R85, R94) -/

/-- R85: the part in which a WRITE has opened its context, with its opening reply not yet given. -/
def openedPart (e : Entry) (s z k n : Nat) (c : CtxId) (p : Part) : Part :=
  let p1 := modCtx c (fun _ => openedCtx e s z k n p.sdr.sequence (slotClassCheck s p)) p
  modEntry s (fun d => { d with openCtx := some c }) { p1 with sdr := { p1.sdr with sequence := p1.sdr.sequence + 1 } }

theorem openWrite_eq {e : Entry} {p : Part} {c : CtxId} (h : idleCtx p = some c) (s z k n : Nat) : openWrite e s z k n p =
    chooseStep c (completeEntry e.age .ok (notesOf (slotClassCheck s p)) (be 1 c.num ++ be 1 2) (openedPart e s z k n c p)) := by
  unfold openWrite
  rw [h]
  rfl

theorem openedPart_eq (e : Entry) (s z k n : Nat) (c : CtxId) (p : Part) : openedPart e s z k n c p = { p with
    sdr := { p.sdr with sequence := p.sdr.sequence + 1, directory := (openedPart e s z k n c p).sdr.directory }
    wcu := (openedPart e s z k n c p).wcu } := by
  cases c <;> rfl

theorem openedPart_ctx (e : Entry) (s z k n : Nat) (c : CtxId) (p : Part) :
    (openedPart e s z k n c p).ctx c = openedCtx e s z k n p.sdr.sequence (slotClassCheck s p) := by
  cases c <;> rfl

theorem openedPart_ctx_other {c d : CtxId} (h : d ≠ c) (e : Entry) (s z k n : Nat) (p : Part) :
    (openedPart e s z k n c p).ctx d = p.ctx d := by
  cases c <;> cases d <;> first | exact absurd rfl h | rfl

theorem openedPart_entryOf (e : Entry) (s z k n : Nat) (c : CtxId) (p : Part) :
    (∀ d, p.entryOf s = some d → (openedPart e s z k n c p).entryOf s = some { d with openCtx := some c }) ∧
    ∀ t, t ≠ s → (openedPart e s z k n c p).entryOf t = p.entryOf t := by
  have same (p1 : Part) (h : p1.sdr = p.sdr) (t : Nat) :
      Part.entryOf { p1 with sdr := { p1.sdr with sequence := p1.sdr.sequence + 1 } } t = p.entryOf t :=
    entryOf_of_directory (congrArg Sdr.directory h) t
  refine ⟨fun d hd => entryOf_modEntry_self (f := fun d => { d with openCtx := some c }) (fun _ => rfl) ?_, fun t ht =>
    (entryOf_modEntry_other (f := fun d => { d with openCtx := some c }) (fun _ => rfl) ht _).trans ?_⟩
  · exact (same _ (modCtx_sdr ..) s).trans hd
  · exact same _ (modCtx_sdr ..) t

/-- R137: the class that a class byte names. -/
theorem classOf_of_code (l : SlotClass) : classOf l.code.toNat = some l := by cases l <;> rfl

/-- R88: a context that has received nothing of one byte or more has no step to choose. -/
theorem chooseStep_opened {c : CtxId} {p : Part} (current : (p.ctx c).current = none) (written : (p.ctx c).written = [])
    (empty : (p.ctx c).bufferReady = false) (programmed : (p.ctx c).programmed = 0) (total : 1 ≤ (p.ctx c).total) :
    chooseStep c p = p := by
  have some_ : (p.ctx c).total ≠ 0 := by omega
  unfold chooseStep
  dsimp only
  rw [current, written, empty, programmed]
  split
  · rfl
  · rw [if_neg (fun h => some_ h.1), if_neg Bool.false_ne_true, if_neg (fun h => some_ h.symm), if_neg (by decide)]

/-- Settles O36: the WRITE opens its context, its opening reply takes its entry's place, and then its first step is chosen. -/
theorem writeOpensContext : Obligations.WriteOpensContext := by
  intro p e s z k n c request idle entry held
  have lower : (p.ctx .c0).state = .idle → c = .c0 := by
    intro h
    have : idleCtx p = some .c0 := List.find?_cons_of_pos (by simpa using h)
    exact Option.some.inj (idle.symm.trans this)
  have entry' : (openedPart e s z k n c p).queueEntry e.age = some e := by
    rw [queueEntry_of_rqs (p := p) (by rw [openedPart_eq])]
    exact entry
  have handed : handOver e p = chooseStep c (endedPart e .ok (notesOf (slotClassCheck s p)) (be 1 c.num ++ be 1 2)
      (openedPart e s z k n c p)) := by
    unfold handOver
    rw [request]
    dsimp only
    rw [openWrite_eq idle, completeEntry_eq entry']
  obtain ⟨entrySelf, entryOther⟩ := openedPart_entryOf e s z k n c p
  have before := openedPart_eq e s z k n c p
  have replies : (endedPart e .ok (notesOf (slotClassCheck s p)) (be 1 c.num ++ be 1 2) (openedPart e s z k n c p)).link.replies =
      p.link.replies ++ [{ kind := 0x20, tag := e.tag, status := .ok, notes := notesOf (slotClassCheck s p),
                           payload := be 1 c.num ++ be 1 2, place := .queued }] := by
    have none_ : p.link.held.filter (fun h => h.target = e.age) = [] := by
      rw [List.filter_eq_nil_iff]
      exact fun h hh => by simpa using held h hh
    rw [before]
    simp only [endedPart, none_, request, Request.kind, List.map_nil, List.append_nil]
  have queue : (endedPart e .ok (notesOf (slotClassCheck s p)) (be 1 c.num ++ be 1 2) (openedPart e s z k n c p)).rqs.queue =
      p.rqs.queue.filter (fun d => d.age ≠ e.age) := by rw [before]; rfl
  generalize hq : endedPart e .ok (notesOf (slotClassCheck s p)) (be 1 c.num ++ be 1 2) (openedPart e s z k n c p) = q
    at handed replies queue
  have ctxs (d : CtxId) : q.ctx d = (openedPart e s z k n c p).ctx d := by rw [← hq]; cases d <;> rfl
  have self : q.ctx c = openedCtx e s z k n p.sdr.sequence (slotClassCheck s p) := (ctxs c).trans (openedPart_ctx ..)
  have sdr : q.sdr = (openedPart e s z k n c p).sdr := by rw [← hq]; rfl
  have pee : q.pee = p.pee := by rw [← hq]; show (openedPart e s z k n c p).pee = _; rw [before]
  have smp : q.smp = p.smp := by rw [← hq]; show (openedPart e s z k n c p).smp = _; rw [before]
  have entries (t : Nat) : q.entryOf t = (openedPart e s z k n c p).entryOf t := entryOf_of_directory (congrArg Sdr.directory sdr) t
  have bytes (hn : 1 ≤ n) : chooseStep c q = q := by
    apply chooseStep_opened
    all_goals rw [self]
    exacts [rfl, rfl, rfl, rfl, hn]
  have chooses (hn : n = 0) (free : claimOutstanding (.ctx c) p = false) (still : isWaiting c p = false) : q.chooses c := by
    refine ⟨.inr (by rw [self]; exact if_pos hn), by rw [self]; rfl, ?_, ?_⟩
    · rw [← free]; unfold claimOutstanding claimWaits claimRuns; rw [pee]
    · rw [← still]; unfold isWaiting; rw [smp]
  refine ⟨lower, q, handed, fun hn => handed.trans (bytes hn), ?_⟩
  rw [self]
  exact ⟨fun hn free still => ⟨chooses hn free still, rfl⟩, rfl, rfl, rfl, rfl, fun l hl => by rw [openedCtx, ← hl, classOf_of_code]; rfl,
    rfl, by rw [sdr, before], rfl, rfl, rfl, rfl, rfl, rfl, rfl, rfl, decide_eq_true_iff, fun d hd => (entries s).trans (entrySelf d hd),
    fun t ht => (entries t).trans (entryOther t ht), queue, replies, fun d hd => (ctxs d).trans (openedPart_ctx_other hd ..), pee, smp⟩

end Sys2Proof.Machine
end

