-- ==== Sys2Proof/Proofs/Served.lean ====
section
/-! SUPPORT. Served requests: their claims raised anew, what is done for one of them leaves every other alone, and the waiting READs and
VERIFYs of a slot follow its entry (R105 to R108, R111, R114, R117, R118). -/
namespace Sys2Proof.Machine

/-! ### The claims of a served request -/

/-- R107: the runs that a READ's claim names in the entry as it stands. -/
def Serving.runsIn (r : Serving) (d : DirEntry) : List Run :=
  readRuns r.offset (r.offset + min r.count (d.length - r.offset)) 0 d.extents

/-- R107: a READ's record with the figures of the claim raised. -/
def Serving.reading (r : Serving) (d : DirEntry) : Serving :=
  { r with sequence := d.sequence, readLen := d.length, readCount := min r.count (d.length - r.offset),
           shortened := decide (min r.count (d.length - r.offset) < r.count) }

/-- R107: a READ within the slot raises its claim. -/
theorem raiseRead_raised {a : Nat} {p : Part} {r : Serving} {d : DirEntry} (hr : p.servingOf a = some r)
    (hd : p.entryOf r.slot = some d) (h : r.offset < d.length) :
    Raised (.readSlot a) .read r.level (.runs (r.runsIn d)) p (raiseRead a p) ∧ (raiseRead a p).servingOf a = some (r.reading d) := by
  unfold raiseRead
  rw [hr]
  dsimp only
  rw [hd]
  dsimp only
  rw [if_neg (by omega)]
  refine ⟨raise_raised .., (servingOf_of_serving (congrArg Sdr.serving (raise_sdr ..)) a).trans ?_⟩
  exact servingOf_modServing_self (f := fun x => { x with
    sequence := d.sequence, readLen := d.length, readCount := min r.count (d.length - r.offset),
    shortened := decide (min r.count (d.length - r.offset) < x.count) }) (fun _ => rfl) hr

/-- R107: a READ at or past the slot's end is answered at once. -/
theorem raiseRead_past {a : Nat} {p : Part} {r : Serving} {d : DirEntry} (hr : p.servingOf a = some r)
    (hd : p.entryOf r.slot = some d) (h : d.length ≤ r.offset) : raiseRead a p =
      completeServing a .ok (r.notes ||| 0x10) (be 4 d.sequence ++ be 3 d.length ++ be 1 0) p := by
  unfold raiseRead
  rw [hr]
  dsimp only
  rw [hd]
  dsimp only
  rw [if_pos h, readPayload, List.append_nil]
  rfl

/-- R114: a VERIFY's next step is a READ of the whole extent. -/
theorem raiseVerify_raised {a : Nat} {p : Part} {r : Serving} {d : DirEntry} {x : Elem} (hr : p.servingOf a = some r)
    (hd : p.entryOf r.slot = some d) (hx : d.extents[r.nextIndex]? = some x) :
    Raised (.verifyStep a) .read r.level (.runs [{ sector := x.sector, offset := x.offset, length := 32 + x.length }]) p (raiseVerify a p) ∧
      (raiseVerify a p).servingOf a = some { r with elem := x } := by
  unfold raiseVerify
  rw [hr]
  dsimp only
  rw [hd]
  dsimp only
  rw [hx]
  refine ⟨raise_raised .., (servingOf_of_serving (congrArg Sdr.serving (raise_sdr ..)) a).trans ?_⟩
  exact servingOf_modServing_self (f := fun r => { r with elem := x }) (fun _ => rfl) hr

/-- R111: a DELETE's attempt is a MARK of the head's OBSOLETE byte. -/
theorem raiseDeleteMark_eq {a : Nat} {p : Part} {r : Serving} (hr : p.servingOf a = some r) : raiseDeleteMark a p =
    raise (.deleteMark a) .mark r.level (.bytes r.elem.sector (r.elem.offset + 24) [0x00]) p := by
  unfold raiseDeleteMark
  rw [hr]

/-! ### What is done for one served request leaves the others alone -/

/-- The claims that wait for the served request of an age. -/
def Part.claimsOf (a : Nat) (p : Part) : List Claim := p.pee.claims.filter (fun c => c.purpose.owner = .serving a)

/-- In `q` the served request of age `a` stands as in `p`: its record, its claims, its entry, the ABORTs that wait on it; the directory
and the running operation stand too. -/
structure LeavesServed (a : Nat) (p q : Part) : Prop where
  claims    : q.claimsOf a = p.claimsOf a
  record    : q.servingOf a = p.servingOf a
  directory : q.sdr.directory = p.sdr.directory
  op        : q.pee.op = p.pee.op
  age       : p.pee.nextAge ≤ q.pee.nextAge
  entry     : q.queueEntry a = p.queueEntry a
  held      : q.link.held.filter (fun h => h.target = a) = p.link.held.filter (fun h => h.target = a)
  replies   : p.link.replies <+: q.link.replies

section
variable {a b : Nat} {p q : Part}

theorem LeavesServed.refl (a : Nat) (p : Part) : LeavesServed a p p :=
  ⟨rfl, rfl, rfl, rfl, Nat.le_refl _, rfl, rfl, List.prefix_refl _⟩

theorem LeavesServed.trans {r : Part} (h : LeavesServed a p q) (g : LeavesServed a q r) : LeavesServed a p r :=
  ⟨g.claims.trans h.claims, g.record.trans h.record, g.directory.trans h.directory, g.op.trans h.op, h.age.trans g.age,
    g.entry.trans h.entry, g.held.trans h.held, h.replies.trans g.replies⟩

theorem withdraw_leavesServed (hab : a ≠ b) (p : Part) : LeavesServed a p (withdraw (.serving b) p) :=
  { LeavesServed.refl a p with
    claims := by
      unfold Part.claimsOf withdraw
      rw [List.filter_filter]
      refine List.filter_congr fun c _ => ?_
      by_cases h : c.purpose.owner = .serving a
      · simp [h, hab]
      · simp [h] }

theorem raise_leavesServed (hab : a ≠ b) {u : Purpose} (hu : u.owner = .serving b) (k : OpKind) (l : Nat) (t : Target) (p : Part) :
    LeavesServed a p (raise u k l t p) where
  claims := by
    unfold Part.claimsOf
    rw [raise_claims, List.filter_append, List.filter_cons_of_neg (by simpa [hu] using hab.symm), List.filter_nil, List.append_nil]
  record := servingOf_of_serving (by rw [raise_sdr]) a
  directory := by rw [raise_sdr]
  op := raise_op ..
  age := by rw [raise_nextAge]; exact Nat.le_succ _
  entry := queueEntry_of_rqs (raise_rqs ..) a
  held := by rw [raise_link]
  replies := by rw [raise_link]

theorem modServing_leavesServed (hab : a ≠ b) (f : Serving → Serving) (p : Part)
    (hf : ∀ r, (f r).age = r.age := by exact fun _ => rfl) :
    LeavesServed a p (modServing b f p) :=
  { LeavesServed.refl a p with record := servingOf_modServing_other hf hab p }

/-- A queued request that ends leaves the places of the others. -/
theorem endedPart_leavesServed {e : Entry} (h : a ≠ e.age) (st : Status) (n : Byte) (pl : List Byte) (p : Part) :
    LeavesServed a p (endedPart e st n pl p) :=
  { LeavesServed.refl a p with
    entry := queueEntry_endedPart_other h st n pl p
    held := by
      unfold endedPart
      rw [List.filter_filter]
      refine List.filter_congr fun x _ => ?_
      by_cases hx : x.target = a
      · simp [hx, h]
      · simp [hx]
    replies := by
      unfold endedPart
      rw [List.append_assoc]
      exact List.prefix_append _ _ }

theorem completeServing_leavesServed (hab : a ≠ b) (st : Status) (n : Byte) (pl : List Byte) (p : Part) :
    LeavesServed a p (completeServing b st n pl p) := by
  have dropped : LeavesServed a p (dropServing b p) :=
    { LeavesServed.refl a p with record := servingOf_dropServing_other hab p }
  unfold completeServing
  cases he : (dropServing b p).queueEntry b with
  | none => rw [completeEntry_absent he]; exact dropped
  | some e =>
    rw [completeEntry_eq he]
    exact dropped.trans (endedPart_leavesServed (by rw [queueEntry_age he]; exact hab) ..)

theorem raiseRead_leavesServed (hab : a ≠ b) (p : Part) : LeavesServed a p (raiseRead b p) := by
  unfold raiseRead
  split
  · rename_i r hr
    split
    · dsimp only
      split
      · exact completeServing_leavesServed hab ..
      · exact (modServing_leavesServed hab _ p).trans (raise_leavesServed hab rfl ..)
    · exact completeServing_leavesServed (by rw [servingOf_age hr]; exact hab) ..
  · exact LeavesServed.refl a p

theorem raiseVerify_leavesServed (hab : a ≠ b) (p : Part) : LeavesServed a p (raiseVerify b p) := by
  unfold raiseVerify
  split
  · rename_i r hr
    split
    · split
      · exact (modServing_leavesServed hab _ p).trans (raise_leavesServed hab rfl ..)
      · exact LeavesServed.refl a p
    · exact completeServing_leavesServed (by rw [servingOf_age hr]; exact hab) ..
  · exact LeavesServed.refl a p

/-- R118: a served request that meets NO_SLOT leaves the others. -/
theorem slotGone_leavesServed (hab : a ≠ b) (p : Part) : LeavesServed a p (slotGone b p) := by
  unfold slotGone
  split
  · rename_i r hr
    split
    · exact modServing_leavesServed hab _ p
    · exact (withdraw_leavesServed hab p).trans (completeServing_leavesServed (by rw [servingOf_age hr]; exact hab) ..)
  · exact LeavesServed.refl a p

/-- The claims of a served request tell whether one of its purposes waits. -/
theorem purposeWaits_of_claimsOf {u : Purpose} (hu : u.owner = .serving a) (h : q.claimsOf a = p.claimsOf a) :
    purposeWaits u q = purposeWaits u p := by
  have only (r : Part) : purposeWaits u r = (r.claimsOf a).any (fun c => c.purpose == u) := by
    unfold purposeWaits Part.claimsOf
    rw [List.any_filter]
    congr 1
    funext c
    by_cases hc : c.purpose = u
    · simp [hc, hu]
    · simp [hc]
  rw [only, only, h]

theorem claimsOf_withdraw (a : Nat) (p : Part) : (withdraw (.serving a) p).claimsOf a = [] := by
  unfold Part.claimsOf withdraw
  rw [List.filter_filter, List.filter_eq_nil_iff]
  intro c _
  simp

/-- R61: after its claims are withdrawn, a served request's one claim is the one raised. -/
theorem claimsOf_raised {u : Purpose} {k : OpKind} {l : Nat} {t : Target} (hu : u.owner = .serving a) (none_ : p.claimsOf a = [])
    (h : Raised u k l t p q) : q.claimsOf a = [{ age := p.pee.nextAge, purpose := u, kind := k, level := l, target := t }] := by
  unfold Raised at h
  unfold Part.claimsOf at none_ ⊢
  rw [h, List.filter_append, none_, List.nil_append, List.filter_cons_of_pos (by simpa using hu), List.filter_nil]

/-- Work done in turn for served requests leaves one that it is not done for. -/
theorem foldl_leavesServed_absent {α : Type} (key : α → Nat) (F : Part → α → Part)
    (hF : ∀ (a : Nat) q x, a ≠ key x → LeavesServed a q (F q x)) {a : Nat} (l : List α) (h : ∀ y ∈ l, a ≠ key y) (p : Part) :
    LeavesServed a p (l.foldl F p) := by
  induction l generalizing p with
  | nil => exact LeavesServed.refl a p
  | cons y l ih => exact (hF a p y (h y List.mem_cons_self)).trans (ih (fun z hz => h z (List.mem_cons_of_mem _ hz)) _)

/-- Work done in turn for served requests, one of each age, comes to one of them with all it has, and leaves what it then has. -/
theorem foldl_leavesServed {α : Type} (key : α → Nat) (F : Part → α → Part)
    (hF : ∀ (a : Nat) q x, a ≠ key x → LeavesServed a q (F q x)) (l : List α) (nd : (l.map key).Nodup) {x : α} (hx : x ∈ l) (p : Part) :
    ∃ m, LeavesServed (key x) p m ∧ LeavesServed (key x) (F m x) (l.foldl F p) := by
  obtain ⟨before, after, rfl⟩ := List.append_of_mem hx
  rw [List.map_append, List.map_cons, List.nodup_middle, List.nodup_cons, ← List.map_append] at nd
  refine ⟨before.foldl F p, foldl_leavesServed_absent key F hF before (fun y hy e => nd.1 ?_) p, ?_⟩
  · rw [e]; exact List.mem_map_of_mem (List.mem_append_left _ hy)
  · rw [List.foldl_append, List.foldl_cons]
    exact foldl_leavesServed_absent key F hF after (fun y hy e => nd.1 (by rw [e]; exact List.mem_map_of_mem (List.mem_append_right _ hy))) _

end

/-! ### The waiting READs and VERIFYs of a slot follow its entry (R108, R117) -/

/-- R108, R117: what becomes of one served request when its slot's entry is switched. -/
def switchOne (slot : Nat) (q : Part) (r : Serving) : Part :=
  match r.kind with
  | .read => if purposeWaits (.readSlot r.age) q then raiseRead r.age (withdraw (.serving r.age) q) else q
  | .verify =>
    match q.entryOf slot with
    | some e =>
      if purposeWaits (.verifyStep r.age) q then
        raiseVerify r.age (modServing r.age (fun r => { r with sequence := e.sequence, nextIndex := 0, checked := 0 })
          (withdraw (.serving r.age) q))
      else q
    | none => q
  | .delete => q

/-- R108, R117: what becomes of one served request when element `i` of its slot's entry is replaced. -/
def replaceOne (i : Nat) (q : Part) (r : Serving) : Part :=
  match r.kind with
  | .read => if purposeWaits (.readSlot r.age) q then raiseRead r.age (withdraw (.serving r.age) q) else q
  | .verify =>
    if purposeWaits (.verifyStep r.age) q && decide (r.nextIndex = i) then raiseVerify r.age (withdraw (.serving r.age) q) else q
  | .delete => q

theorem reissueAtSwitch_eq (slot : Nat) (p : Part) :
    reissueAtSwitch slot p = (p.sdr.serving.filter (fun r => r.slot = slot)).foldl (switchOne slot) p := rfl

theorem reissueAtReplacement_eq (slot i : Nat) (p : Part) :
    reissueAtReplacement slot i p = (p.sdr.serving.filter (fun r => r.slot = slot)).foldl (replaceOne i) p := rfl

theorem switchOne_leavesServed (slot a : Nat) (q : Part) (r : Serving) (h : a ≠ r.age) : LeavesServed a q (switchOne slot q r) := by
  unfold switchOne
  split
  · split
    · exact (withdraw_leavesServed h q).trans (raiseRead_leavesServed h _)
    · exact LeavesServed.refl a q
  · split
    · split
      · exact ((withdraw_leavesServed h q).trans (modServing_leavesServed h _ _)).trans (raiseVerify_leavesServed h _)
      · exact LeavesServed.refl a q
    · exact LeavesServed.refl a q
  · exact LeavesServed.refl a q

theorem replaceOne_leavesServed (i a : Nat) (q : Part) (r : Serving) (h : a ≠ r.age) : LeavesServed a q (replaceOne i q r) := by
  unfold replaceOne
  split
  · split
    · exact (withdraw_leavesServed h q).trans (raiseRead_leavesServed h _)
    · exact LeavesServed.refl a q
  · split
    · exact (withdraw_leavesServed h q).trans (raiseVerify_leavesServed h _)
    · exact LeavesServed.refl a q
  · exact LeavesServed.refl a q

/-- R105, R148: a served request that completes ends its entry, with its record gone. -/
theorem completeServing_eq {a : Nat} {e : Entry} {p : Part} (h : p.queueEntry a = some e) (st : Status) (n : Byte) (pl : List Byte) :
    completeServing a st n pl p = endedPart e st n pl (dropServing a p) :=
  completeEntry_eq (p := dropServing a p) h st n pl

/-- R107, R108: a READ's claim is raised again, in a part in which it has none and stands otherwise as in `p`. -/
theorem readAgain {p m q : Part} {r : Serving} {d : DirEntry} (hr : m.servingOf r.age = some r) (hd : m.entryOf r.slot = some d)
    (free : m.claimsOf r.age = []) (age : p.pee.nextAge ≤ m.pee.nextAge) (h : LeavesServed r.age (raiseRead r.age m) q) :
    (r.offset < d.length →
      (∃ a, p.pee.nextAge ≤ a ∧ q.claimsOf r.age =
        [{ age := a, purpose := .readSlot r.age, kind := .read, level := r.level, target := .runs (r.runsIn d) }]) ∧
      q.servingOf r.age = some (r.reading d)) ∧
    (d.length ≤ r.offset → ∀ e, m.queueEntry r.age = some e → q.servingOf r.age = none ∧ q.queueEntry r.age = none ∧
      { kind := e.request.kind, tag := e.tag, status := .ok, notes := r.notes ||| 0x10,
        payload := be 4 d.sequence ++ be 3 d.length ++ be 1 0, place := .queued } ∈ q.link.replies) := by
  refine ⟨fun within => ?_, fun past e he => ?_⟩
  · obtain ⟨raised, record⟩ := raiseRead_raised hr hd within
    exact ⟨⟨_, age, h.claims.trans (claimsOf_raised rfl free raised)⟩, h.record.trans record⟩
  · rw [raiseRead_past hr hd past, completeServing_eq he] at h
    refine ⟨h.record.trans (servingOf_dropServing_self r.age m), h.entry.trans ?_, h.replies.subset ?_⟩
    · have gone := queueEntry_endedPart_self e .ok (r.notes ||| 0x10) (be 4 d.sequence ++ be 3 d.length ++ be 1 0) (dropServing r.age m)
      rwa [queueEntry_age he] at gone
    · simp [endedPart]

/-- R114, R117: a VERIFY's claim is raised again, in a part in which it has none. -/
theorem verifyAgain {p m q : Part} {a : Nat} {r : Serving} {d : DirEntry} {x : Elem} (hr : m.servingOf a = some r)
    (hd : m.entryOf r.slot = some d) (hx : d.extents[r.nextIndex]? = some x)
    (free : m.claimsOf a = []) (age : p.pee.nextAge ≤ m.pee.nextAge) (h : LeavesServed a (raiseVerify a m) q) :
    (∃ n, p.pee.nextAge ≤ n ∧ q.claimsOf a = [
      { age := n, purpose := .verifyStep a, kind := .read, level := r.level, target := .runs [{ sector := x.sector, offset := x.offset, length := 32 + x.length }] }]) ∧
    q.servingOf a = some { r with elem := x } := by
  obtain ⟨raised, record⟩ := raiseVerify_raised hr hd hx
  exact ⟨⟨_, age, h.claims.trans (claimsOf_raised rfl free raised)⟩, h.record.trans record⟩

end Sys2Proof.Machine
end

