-- ==== Sys2Proof/Proofs/StartedWork.lean ====
section
/-! SUPPORT. The work that READ, DELETE, VERIFY and COMPACT start, and what an entry's switch or the replacement of an element makes of it. -/
namespace Sys2Proof.Machine

/-! ### At the hand-over (R105, R107, R111, R114) -/

theorem newServing_elem {p : Part} {s : Nat} {d : DirEntry} {h : Elem} {es : List Elem} (hd : p.entryOf s = some d)
    (hx : d.extents = h :: es) (e : Entry) (k : ServeKind) (o c : Nat) (n : Byte) :
    (newServing e k s o c n p).sequence = d.sequence ∧ (newServing e k s o c n p).elem = h := by
  unfold newServing
  simp [hd, hx]

section
variable {p : Part} {e : Entry} {s : Nat} {d : DirEntry} {h : Elem} {es : List Elem}

/-- R107: a READ within the slot starts with its claim. -/
theorem handOver_read (hd : p.entryOf s = some d) (new : ∀ r ∈ p.sdr.serving, r.age ≠ e.age) {o c : Nat}
    (request : e.request = .read s o c) (within : o < d.length) :
    Raised (.readSlot e.age) .read e.level (.runs (readRuns o (o + min c (d.length - o)) 0 d.extents)) p (handOver e p) ∧
      (handOver e p).servingOf e.age = some ((newServing e .read s o c 0 p).reading d) := by
  have found : (addServing (newServing e .read s o c 0 p) p).servingOf e.age = some (newServing e .read s o c 0 p) :=
    servingOf_addServing (r := newServing e .read s o c 0 p) new
  have handed : handOver e p = raiseRead e.age (addServing (newServing e .read s o c 0 p) p) := by
    unfold handOver; rw [request]
  rw [handed]
  exact raiseRead_raised (p := addServing (newServing e .read s o c 0 p) p) found hd within

/-- R107: a READ at or past the slot's end is answered at its hand-over. -/
theorem handOver_read_past (hd : p.entryOf s = some d) (new : ∀ r ∈ p.sdr.serving, r.age ≠ e.age) {o c : Nat}
    (request : e.request = .read s o c) (past : d.length ≤ o) (entry : p.queueEntry e.age = some e) :
    handOver e p = endedPart e .ok 0x10 (be 4 d.sequence ++ be 3 d.length ++ be 1 0) p := by
  have found : (addServing (newServing e .read s o c 0 p) p).servingOf e.age = some (newServing e .read s o c 0 p) :=
    servingOf_addServing (r := newServing e .read s o c 0 p) new
  have handed : handOver e p = raiseRead e.age (addServing (newServing e .read s o c 0 p) p) := by
    unfold handOver; rw [request]
  have left : dropServing e.age (addServing (newServing e .read s o c 0 p) p) = p := by
    have others : p.sdr.serving.filter (fun r => r.age ≠ e.age) = p.sdr.serving :=
      List.filter_eq_self.2 (fun r hr => by simpa using new r hr)
    unfold dropServing addServing
    dsimp only
    rw [List.filter_append, others, List.filter_cons_of_neg (by simp [newServing]), List.filter_nil, List.append_nil]
  rw [handed, raiseRead_past found hd past, completeServing_eq (p := addServing _ p) entry, left]
  exact congrArg (endedPart e .ok · _ p) (by decide : (0 : Byte) ||| 0x10 = 0x10)

/-- R111: a DELETE starts with its first attempt, and its entry has delete pending. -/
theorem handOver_delete (hd : p.entryOf s = some d) (hx : d.extents = h :: es) (new : ∀ r ∈ p.sdr.serving, r.age ≠ e.age)
    (request : e.request = .delete s) :
    Raised (.deleteMark e.age) .mark e.level (.bytes h.sector (h.offset + 24) [0x00]) p (handOver e p) ∧
      (∃ n, (handOver e p).servingOf e.age = some (newServing e .delete s 0 0 n p)) ∧
      (handOver e p).entryOf s = some { d with deletePending := true } := by
  generalize hn : notesOf (slotClassCheck s p) = n
  have found : (modEntry s (fun d => { d with deletePending := true }) (addServing (newServing e .delete s 0 0 n p) p)).servingOf e.age =
      some (newServing e .delete s 0 0 n p) := servingOf_addServing (r := newServing e .delete s 0 0 n p) new
  have handed : handOver e p = raise (.deleteMark e.age) .mark e.level (.bytes h.sector (h.offset + 24) [0x00])
      (modEntry s (fun d => { d with deletePending := true }) (addServing (newServing e .delete s 0 0 n p) p)) := by
    unfold handOver
    rw [request]
    dsimp only
    rw [hn, raiseDeleteMark_eq found, (newServing_elem hd hx e .delete 0 0 n).2]
    rfl
  rw [handed]
  refine ⟨raise_raised .., ⟨n, (servingOf_of_serving (congrArg Sdr.serving (raise_sdr ..)) _).trans found⟩,
    (entryOf_of_directory (congrArg Sdr.directory (raise_sdr ..)) s).trans ?_⟩
  exact entryOf_modEntry_self (f := fun d => { d with deletePending := true }) (fun _ => rfl)
    (p := addServing (newServing e .delete s 0 0 n p) p) hd

/-- R114: a VERIFY starts with the READ of its slot's first extent. -/
theorem handOver_verify (hd : p.entryOf s = some d) (hx : d.extents = h :: es) (new : ∀ r ∈ p.sdr.serving, r.age ≠ e.age)
    (request : e.request = .verify s) :
    Raised (.verifyStep e.age) .read e.level (.runs [{ sector := h.sector, offset := h.offset, length := 32 + h.length }]) p (handOver e p) ∧
      (handOver e p).servingOf e.age = some { newServing e .verify s 0 0 0 p with elem := h } := by
  have found : (addServing (newServing e .verify s 0 0 0 p) p).servingOf e.age = some (newServing e .verify s 0 0 0 p) :=
    servingOf_addServing (r := newServing e .verify s 0 0 0 p) new
  have handed : handOver e p = raiseVerify e.age (addServing (newServing e .verify s 0 0 0 p) p) := by
    unfold handOver; rw [request]
  rw [handed]
  exact raiseVerify_raised (p := addServing (newServing e .verify s 0 0 0 p) p) found hd (by rw [hx]; rfl)

end

/-! ### When the entry is switched or an element is replaced (R108, R117) -/

section
variable {p : Part} {slot : Nat} {r : Serving}

/-- A served request of the slot meets its part of the work after the others of the slot that come before it. -/
theorem reissueAtSwitch_at (nd : (p.sdr.serving.map (·.age)).Nodup) (hr : r ∈ p.sdr.serving) (hs : r.slot = slot) :
    ∃ m, LeavesServed r.age p m ∧ LeavesServed r.age (switchOne slot m r) (reissueAtSwitch slot p) := by
  rw [reissueAtSwitch_eq]
  exact foldl_leavesServed (·.age) (switchOne slot) (switchOne_leavesServed slot)
    (p.sdr.serving.filter (fun r => r.slot = slot)) ((List.filter_sublist.map Serving.age).nodup nd) (List.mem_filter.2 ⟨hr, by simpa using hs⟩) p

theorem reissueAtReplacement_at (nd : (p.sdr.serving.map (·.age)).Nodup) (hr : r ∈ p.sdr.serving) (hs : r.slot = slot) (i : Nat) :
    ∃ m, LeavesServed r.age p m ∧ LeavesServed r.age (replaceOne i m r) (reissueAtReplacement slot i p) := by
  rw [reissueAtReplacement_eq]
  exact foldl_leavesServed (·.age) (replaceOne i) (replaceOne_leavesServed i)
    (p.sdr.serving.filter (fun r => r.slot = slot)) ((List.filter_sublist.map Serving.age).nodup nd) (List.mem_filter.2 ⟨hr, by simpa using hs⟩) p

/-- A served request with no READ or VERIFY waiting is left as it is. -/
theorem switchOne_idle {m : Part} (h : r.kind = .delete ∨
    (purposeWaits (.readSlot r.age) m = false ∧ purposeWaits (.verifyStep r.age) m = false)) : switchOne slot m r = m := by
  unfold switchOne
  rcases h with h | ⟨h, g⟩
  · rw [h]
  · split
    · rw [h, if_neg Bool.false_ne_true]
    · split
      · rw [g, if_neg Bool.false_ne_true]
      · rfl
    · rfl

theorem replaceOne_idle {i : Nat} {m : Part} (h : r.kind = .delete ∨
    (purposeWaits (.readSlot r.age) m = false ∧ purposeWaits (.verifyStep r.age) m = false)) : replaceOne i m r = m := by
  unfold replaceOne
  rcases h with h | ⟨h, g⟩
  · rw [h]
  · split
    · rw [h, if_neg Bool.false_ne_true]
    · rw [g, Bool.false_and, if_neg Bool.false_ne_true]
    · rfl

end

/-- Settles O60: each request starts with its claim or its job, and a waiting READ or VERIFY is raised again from the entry. -/
theorem handOversStartWork : Obligations.HandOversStartWork := by
  refine ⟨fun p e s d h es hd hx new => ⟨fun o c request within => ?_, fun o c request past entry => ?_, fun request => ?_,
    fun request => ?_⟩, fun p e z n request => ?_, fun p slot i d r hd nd hr hs => ?_⟩
  · obtain ⟨raised, record⟩ := handOver_read hd new request within
    exact ⟨raised, _, List.mem_of_find?_eq_some record, rfl, rfl, rfl, rfl, rfl, by simp [Serving.reading, newServing]⟩
  · exact handOver_read_past hd new request past entry
  · obtain ⟨raised, ⟨n, record⟩, entry⟩ := handOver_delete hd hx new request
    obtain ⟨sequence, elem⟩ := newServing_elem hd hx e .delete 0 0 n
    exact ⟨⟨raised, _, List.mem_of_find?_eq_some record, rfl, rfl, sequence, rfl, elem⟩, entry⟩
  · obtain ⟨raised, record⟩ := handOver_verify hd hx new request
    exact ⟨raised, _, List.mem_of_find?_eq_some record, rfl, rfl, (newServing_elem hd hx e .verify 0 0 0).1, rfl, rfl, rfl⟩
  · unfold handOver
    rw [request]
  · subst hs
    obtain ⟨m, before, after⟩ := reissueAtSwitch_at nd hr rfl
    obtain ⟨m', before', after'⟩ := reissueAtReplacement_at nd hr rfl i
    have record := servingOf_of_mem nd hr
    have waits (u : Purpose) (hu : u.owner = .serving r.age) {m : Part} (h : LeavesServed r.age p m) :
        purposeWaits u m = purposeWaits u p := purposeWaits_of_claimsOf hu h.claims
    have entry {m : Part} (h : LeavesServed r.age p m) : m.entryOf r.slot = some d := (entryOf_of_directory h.directory _).trans hd
    have same {m q : Part} (h : LeavesServed r.age p m) (g : LeavesServed r.age m q) :
        q.claimsOf r.age = p.claimsOf r.age ∧ q.servingOf r.age = some r := ⟨(h.trans g).claims, (h.trans g).record.trans record⟩
    refine ⟨fun kind wait q hq => ?_, fun kind wait => ⟨fun x hx => ?_, fun other => ?_, fun this x hx => ?_⟩, fun idle => ⟨?_, ?_⟩⟩
    · have again : ∃ m, LeavesServed r.age p m ∧ LeavesServed r.age (raiseRead r.age (withdraw (.serving r.age) m)) q := by
        rcases hq with rfl | rfl
        · refine ⟨m, before, ?_⟩
          simpa only [switchOne, kind, (waits _ rfl before).trans wait, if_true] using after
        · refine ⟨m', before', ?_⟩
          simpa only [replaceOne, kind, (waits _ rfl before').trans wait, if_true] using after'
      obtain ⟨m, before, after⟩ := again
      obtain ⟨within, past⟩ := readAgain (p := p) (m := withdraw (.serving r.age) m) (before.record.trans record) (entry before :)
        (claimsOf_withdraw ..) before.age after
      exact ⟨within, fun h e he => past h e (before.entry.trans he)⟩
    · have started : LeavesServed r.age (raiseVerify r.age (modServing r.age
          (fun r => { r with sequence := d.sequence, nextIndex := 0, checked := 0 }) (withdraw (.serving r.age) m)))
          (reissueAtSwitch r.slot p) := by
        simpa only [switchOne, kind, entry before, (waits _ rfl before).trans wait, if_true] using after
      have found := servingOf_modServing_self (f := fun r => { r with sequence := d.sequence, nextIndex := 0, checked := 0 })
        (fun _ => rfl) (p := withdraw (.serving r.age) m) (before.record.trans record)
      exact verifyAgain found (entry before :) hx (claimsOf_withdraw ..) before.age started
    · rw [replaceOne, kind] at after'
      simp only [other, decide_false, Bool.and_false, Bool.false_eq_true, if_false] at after'
      exact same before' after'
    · have started : LeavesServed r.age (raiseVerify r.age (withdraw (.serving r.age) m')) (reissueAtReplacement r.slot i p) := by
        simpa only [replaceOne, kind, (waits _ rfl before').trans wait, this, decide_true, Bool.and_true, if_true] using after'
      exact verifyAgain (p := p) (m := withdraw (.serving r.age) m') (before'.record.trans record) (entry before' :) (this ▸ hx)
        (claimsOf_withdraw ..) before'.age started
    · rw [switchOne_idle (by rw [waits _ rfl before, waits _ rfl before]; exact idle)] at after
      exact same before after
    · rw [replaceOne_idle (by rw [waits _ rfl before', waits _ rfl before']; exact idle)] at after'
      exact same before' after'

end Sys2Proof.Machine
end

