-- ==== Sys2Proof/Proofs/Upkeep.lean ====
section
/-! SUPPORT. The claims that the Sector Map and the Reclaim Unit raise of themselves (`NewClaims`), and what they leave as it is while the
counts of sectors change (`Spaced`). One lemma for each operation, in the form "if `q` follows `p`, so does the operation on `q`". -/
namespace Sys2Proof.Machine

/-! ### New claims -/

/-- `q` may follow `p` by operations of the Sector Map and the Reclaim Unit: the claims of `p` stand, and those that join them are the
open batch's and first SUSPECT marks, of ages not given out before, none of which suspends an erase when the level is 1 or more. -/
structure NewClaims (p q : Part) : Prop where
  age     : p.pee.nextAge ≤ q.pee.nextAge
  claims  : ∃ l, q.pee.claims = p.pee.claims ++ l ∧
              ∀ d ∈ l, p.pee.nextAge ≤ d.age ∧ (d.purpose = .reclaimErase ∨ ∃ i, d.purpose = .suspectMark i 1)
  preempt : q.pee.preempt = p.pee.preempt
  engine  : 1 ≤ p.pee.preempt → q.pee.state = p.pee.state ∧ q.pee.budget = p.pee.budget ∧ q.pee.cause = p.pee.cause

section
variable {p q : Part}

theorem NewClaims.refl (p : Part) : NewClaims p p :=
  ⟨Nat.le_refl _, ⟨[], (List.append_nil _).symm, nofun⟩, rfl, fun _ => ⟨rfl, rfl, rfl⟩⟩

theorem NewClaims.trans {r : Part} (h : NewClaims p q) (g : NewClaims q r) : NewClaims p r where
  age := h.age.trans g.age
  claims := by
    obtain ⟨l, hl, new⟩ := h.claims
    obtain ⟨m, hm, newer⟩ := g.claims
    refine ⟨l ++ m, by rw [hm, hl, List.append_assoc], fun d hd => ?_⟩
    rcases List.mem_append.1 hd with hd | hd
    · exact new d hd
    · exact ⟨h.age.trans (newer d hd).1, (newer d hd).2⟩
  preempt := g.preempt.trans h.preempt
  engine := fun one => by
    obtain ⟨state, budget, cause⟩ := h.engine one
    obtain ⟨state', budget', cause'⟩ := g.engine (h.preempt ▸ one)
    exact ⟨state'.trans state, budget'.trans budget, cause'.trans cause⟩

/-- What leaves the engine as it is raises no claim. -/
theorem NewClaims.pee (h : NewClaims p q) {r : Part} (e : r.pee = q.pee := by rfl) : NewClaims p r := by
  constructor <;> rw [e]
  · exact h.age
  · exact h.claims
  · exact h.preempt
  · exact h.engine

/-- A claim that does not suspend an erase at a preemption level of 1 or more. -/
theorem raise_newClaims (h : NewClaims p q) {u : Purpose} {k : OpKind} {l : Nat} {t : Target}
    (hu : u = .reclaimErase ∨ ∃ i, u = .suspectMark i 1)
    (weak : ∀ n, 1 ≤ n → preempting n { age := q.pee.nextAge, purpose := u, kind := k, level := l, target := t } = false) :
    NewClaims p (raise u k l t q) :=
  h.trans
    { age := by rw [raise_nextAge]; exact Nat.le_succ _
      claims := ⟨_, raise_claims .., fun d hd => by rw [List.mem_singleton.1 hd]; exact ⟨Nat.le_refl _, hu⟩⟩
      preempt := by unfold raise startSuspension; dsimp only; split <;> rfl
      engine := fun one => by
        unfold raise
        dsimp only
        rw [if_neg (fun h => by rw [weak _ one] at h; exact Bool.false_ne_true h.2.2)]
        exact ⟨rfl, rfl, rfl⟩ }

theorem raiseErase_newClaims (h : NewClaims p q) : NewClaims p (raiseErase q) := by
  unfold raiseErase
  split
  · exact raise_newClaims h.pee (.inl rfl) fun _ _ => rfl
  · exact h

theorem openBatch_newClaims (h : NewClaims p q) : NewClaims p (openBatch q) := by
  unfold openBatch
  split
  · exact h
  · split
    · dsimp only
      split
      · exact raiseErase_newClaims h.pee
      · exact h.pee
    · exact h

theorem joinErase_newClaims (h : NewClaims p q) (i : Nat) : NewClaims p (joinErase i q) := by
  unfold joinErase
  split
  · split
    · dsimp only
      split
      · exact raiseErase_newClaims h.pee
      · exact h.pee
    · exact h.pee
  · exact openBatch_newClaims h.pee

theorem returnSpare_newClaims (h : NewClaims p q) (z : Nat) : NewClaims p (returnSpare z q) := by
  obtain ⟨_, _, eq, -, -⟩ := returnSpare_eq z q
  rw [eq]
  exact h.pee

theorem becomeStale_newClaims (h : NewClaims p q) (i : Nat) : NewClaims p (becomeStale i q) := by
  unfold becomeStale
  refine returnSpare_newClaims ?_ _
  split
  · exact joinErase_newClaims h.pee i
  · exact h.pee

theorem judgeSector_newClaims (h : NewClaims p q) (i : Nat) : NewClaims p (judgeSector i q) := by
  unfold judgeSector
  dsimp only
  split
  · split
    · exact becomeStale_newClaims h i
    · split
      · exact h.pee
      · exact h
  · exact h

theorem dropOwner_newClaims (h : NewClaims p q) (i : Nat) : NewClaims p (dropOwner i q) := by
  unfold dropOwner
  split
  · exact h.pee (by simp)
  · exact h.pee
  · exact h.pee

theorem sealSector_newClaims (h : NewClaims p q) (i : Nat) : NewClaims p (sealSector i q) :=
  judgeSector_newClaims (dropOwner_newClaims h i).pee i

theorem giveUp_newClaims (h : NewClaims p q) (i : Nat) : NewClaims p (giveUp i q) := by
  have dropped := dropOwner_newClaims h i
  unfold giveUp
  dsimp only
  split
  · exact dropped.pee
  · split
    · split
      · split
        · exact dropped.pee
        · split
          · exact (sealSector_newClaims dropped _).pee
          · exact sealSector_newClaims dropped i
      · exact sealSector_newClaims dropped i
    · exact sealSector_newClaims dropped i

theorem markSuspect_newClaims (h : NewClaims p q) (i : Nat) : NewClaims p (markSuspect i q) := by
  unfold markSuspect
  dsimp only
  split
  · exact h.pee
  · refine raise_newClaims h.pee (.inr ⟨i, rfl⟩) fun n hn => ?_
    simp only [preempting, decide_eq_false_iff_not]
    omega

theorem settleSuspect_newClaims (h : NewClaims p q) (i : Nat) (st : SectorState) : NewClaims p (settleSuspect i st q) := by
  unfold settleSuspect
  split
  · exact sealSector_newClaims h i
  · exact sealSector_newClaims h i
  · split
    · exact h
    · exact sealSector_newClaims h i
  all_goals exact judgeSector_newClaims h i

theorem makeSuspect_newClaims (h : NewClaims p q) (i : Nat) (o : Option Holder) : NewClaims p (makeSuspect i o q) := by
  have marked := markSuspect_newClaims h i
  unfold makeSuspect
  split
  · exact sealSector_newClaims marked.pee i
  · exact settleSuspect_newClaims marked i _

/-- A change for each element of a list, each of which raises claims of its own. -/
theorem forElems_newClaims (h : NewClaims p q) {f : Nat → Nat → Part → Part}
    (hf : ∀ i n r, NewClaims p r → NewClaims p (f i n r)) (es : List Elem) : NewClaims p (forElems f es q) := by
  unfold forElems
  induction es generalizing q with
  | nil => exact h
  | cons e es ih => exact ih (hf _ _ _ h)

end

/-! ### Judging leaves the contexts -/

theorem raiseErase_wcu (p : Part) : (raiseErase p).wcu = p.wcu := by
  unfold raiseErase
  split
  · rw [raise_wcu]
  · rfl

theorem openBatch_wcu (p : Part) : (openBatch p).wcu = p.wcu := by
  unfold openBatch
  split
  · rfl
  · split
    · dsimp only
      split
      · rw [raiseErase_wcu]
      · rfl
    · rfl

theorem joinErase_wcu (i : Nat) (p : Part) : (joinErase i p).wcu = p.wcu := by
  unfold joinErase
  split
  · split
    · dsimp only
      split
      · rw [raiseErase_wcu]
      · rfl
    · rfl
  · rw [openBatch_wcu]

theorem returnSpare_wcu (z : Nat) (p : Part) : (returnSpare z p).wcu = p.wcu := by
  obtain ⟨_, _, eq, -, -⟩ := returnSpare_eq z p
  rw [eq]

theorem judgeSector_wcu (i : Nat) (p : Part) : (judgeSector i p).wcu = p.wcu := by
  unfold judgeSector
  dsimp only
  split
  · split
    · unfold becomeStale
      dsimp only
      rw [returnSpare_wcu]
      split
      · rw [joinErase_wcu]; rfl
      · rfl
    · split <;> rfl
  · rfl

theorem forElems_wcu {f : Nat → Nat → Part → Part} (hf : ∀ i n q, (f i n q).wcu = q.wcu) (es : List Elem) (p : Part) :
    (forElems f es p).wcu = p.wcu := by
  unfold forElems
  induction es generalizing p with
  | nil => rfl
  | cons e es ih => exact (ih _).trans (hf _ _ p)

/-! ### What stays while counts change -/

/-- The part with nothing in its evacuation queue, for the changes of counts after which the queue is not spoken of. -/
def Part.unqueued (p : Part) : Part := { p with rcu := { p.rcu with evacQueue := [] } }

/-- `q` may follow `p` by operations of the Sector Map and by changes of counts, of whatever amount. -/
def Spaced (p q : Part) : Prop := ∃ a b c, MapStep (recount a b c p.unqueued) q

section
variable {p q : Part}

theorem MapStep.unqueued (h : MapStep p q) : MapStep (recount same same same p.unqueued) q := by
  rw [recount_same]
  exact { h with evac := nofun }

theorem MapStep.spaced (h : MapStep p q) : Spaced p q := ⟨_, _, _, h.unqueued⟩

theorem Spaced.refl (p : Part) : Spaced p p := (MapStep.refl p).spaced

theorem Spaced.step (h : Spaced p q) {r : Part} (g : MapStep q r) : Spaced p r := by
  obtain ⟨a, b, c, h⟩ := h
  exact ⟨a, b, c, h.trans g⟩

theorem Spaced.sdr (h : Spaced p q) : q.sdr = p.sdr := by obtain ⟨_, _, _, h⟩ := h; exact h.sdr
theorem Spaced.run (h : Spaced p q) : q.run = p.run := by obtain ⟨_, _, _, h⟩ := h; exact h.run
theorem Spaced.rqs (h : Spaced p q) : q.rqs = p.rqs := by obtain ⟨_, _, _, h⟩ := h; exact h.rqs
theorem Spaced.mli (h : Spaced p q) : q.mli = p.mli := by obtain ⟨_, _, _, h⟩ := h; exact h.mli
theorem Spaced.scu (h : Spaced p q) : q.scu = p.scu := by obtain ⟨_, _, _, h⟩ := h; exact h.scu
theorem Spaced.replies (h : Spaced p q) : q.link.replies = p.link.replies := by obtain ⟨_, _, _, h⟩ := h; rw [h.link]; rfl
theorem Spaced.held (h : Spaced p q) : q.link.held = p.link.held := by obtain ⟨_, _, _, h⟩ := h; rw [h.link]; rfl
theorem Spaced.op (h : Spaced p q) : q.pee.op = p.pee.op := by obtain ⟨_, _, _, h⟩ := h; exact h.op
theorem Spaced.batch (h : Spaced p q) : q.pee.batch = p.pee.batch := by obtain ⟨_, _, _, h⟩ := h; exact h.batch
theorem Spaced.rcuStep (h : Spaced p q) : q.rcu.step = p.rcu.step := by obtain ⟨_, _, _, h⟩ := h; exact h.step
theorem Spaced.job (h : Spaced p q) : q.rcu.job = p.rcu.job := by obtain ⟨_, _, _, h⟩ := h; exact h.job
theorem Spaced.length (h : Spaced p q) : q.smp.sectors.length = p.smp.sectors.length := by
  obtain ⟨_, _, _, h⟩ := h; exact h.length.trans (List.length_mapIdx)
theorem Spaced.ctx (h : Spaced p q) (c : CtxId) : q.ctx c = { p.ctx c with owned := (q.ctx c).owned } := by
  obtain ⟨_, _, _, h⟩ := h
  rw [h.ctx c, recount_ctx]
  cases c <;> rfl
theorem Spaced.mounted (h : Spaced p q) : q.mounted = p.mounted := by unfold Part.mounted; rw [h.scu]

theorem sector_of_length_le {i : Nat} (h : p.smp.sectors.length ≤ i) : p.sector i = Sector.cold := by
  unfold Part.sector
  rw [List.getD_eq_getElem?_getD, List.getElem?_eq_none h]
  rfl

/-- A change of one sector that keeps its zone, its erase count and its standing as suspect. -/
theorem modSector_spaced (h : Spaced p q) (i : Nat) (f : Sector → Sector)
    (hf : ∀ s, (f s).zone = s.zone ∧ (f s).eraseCount = s.eraseCount ∧ (s.suspect = true → (f s).suspect = true)) :
    Spaced p (modSector i f q) := by
  have len := h.length
  have start (a b c : Nat → Nat → Nat) (j : Nat) : (recount a b c p.unqueued).sector j =
      if j < p.smp.sectors.length then (p.sector j).chg (a j) (b j) (c j) else p.sector j := recount_sector ..
  obtain ⟨a, b, c, h⟩ := h
  refine ⟨fun j _ => ((modSector i f q).sector j).live, fun j _ => ((modSector i f q).sector j).pending,
    fun j _ => ((modSector i f q).sector j).retiring, { h with
      length := by rw [modSector_length, len]; exact List.length_mapIdx.symm
      counts := fun j => ?_
      suspect := fun j => ?_
      evac := nofun }⟩
  · obtain ⟨zone, count, live, pending, retiring⟩ := h.counts j
    rw [start] at zone count live pending retiring
    rw [start]
    by_cases hj : j < p.smp.sectors.length
    · rw [if_pos hj] at zone count
      rw [if_pos hj]
      refine ⟨?_, ?_, rfl, rfl, rfl⟩
      · rw [sector_modSector]
        split
        · exact (hf _).1.trans zone
        · exact zone
      · rw [sector_modSector]
        split
        · exact (hf _).2.1.trans count
        · exact count
    · rw [if_neg hj] at zone count live pending retiring
      rw [if_neg hj, sector_modSector, if_neg (by rw [len]; exact fun x => hj x.2)]
      exact ⟨zone, count, live, pending, retiring⟩
  · have kept := h.suspect j
    rw [start] at kept
    rw [start, sector_modSector]
    intro hs
    have : (q.sector j).suspect = true := kept (by
      split at hs
      · rw [if_pos ‹_›]; exact hs
      · rw [if_neg ‹_›]; exact hs)
    split
    · exact (hf _).2.2 this
    · exact this

theorem judgeSector_spaced (h : Spaced p q) (i : Nat) : Spaced p (judgeSector i q) := h.step (judgeSector_mapStep (.refl q) i)
theorem sealSector_spaced (h : Spaced p q) (i : Nat) : Spaced p (sealSector i q) := h.step (sealSector_mapStep (.refl q) i)
theorem makeSuspect_spaced (h : Spaced p q) (i : Nat) (o : Option Holder) : Spaced p (makeSuspect i o q) :=
  h.step (makeSuspect_mapStep (.refl q) i o)

theorem giveUp_spaced (h : Spaced p q) (i : Nat) : Spaced p (giveUp i q) := by
  obtain ⟨a, b, c, h⟩ := h
  obtain ⟨x, y, z, g, -⟩ := giveUp_counts h i
  exact ⟨x, y, z, g⟩

theorem forElems_spaced (h : Spaced p q) {f : Nat → Nat → Part → Part} (hf : ∀ i n r, Spaced p r → Spaced p (f i n r))
    (es : List Elem) : Spaced p (forElems f es q) := by
  unfold forElems
  induction es generalizing q with
  | nil => exact h
  | cons e es ih => exact ih (hf _ _ _ h)

end

end Sys2Proof.Machine
end

