-- ==== Sys2Proof/Proofs/ServedStep.lean ====
section
/-! SUPPORT. What is done for the served requests leaves everything else as it is (`ServedStep`): the directory, the retiring list, the
contexts, the sectors, the claims of the other owners; and no reply that it gives is a WRITE's ending. One lemma for each operation, in
the form "if `q` follows `p`, so does the operation on `q`". -/
namespace Sys2Proof.Machine

/-- `q` may follow `p` by work on the served requests and by the end of queued requests. -/
structure ServedStep (p q : Part) : Prop where
  run     : q.run = p.run
  link    : q.link = { p.link with replies := q.link.replies, held := q.link.held }
  sdr     : q.sdr = { p.sdr with serving := q.sdr.serving }
  smp     : q.smp = p.smp
  wcu     : q.wcu = p.wcu
  rcu     : q.rcu = p.rcu
  mli     : q.mli = p.mli
  scu     : q.scu = p.scu
  op      : q.pee.op = p.pee.op
  batch   : q.pee.batch = p.pee.batch
  age     : p.pee.nextAge ≤ q.pee.nextAge
  claims  : ∀ d, (∀ a, d.purpose.owner ≠ .serving a) → (d ∈ q.pee.claims ↔ d ∈ p.pee.claims)
  replies : ∃ l, q.link.replies = p.link.replies ++ l ∧ ∀ y ∈ l, ∀ c, y.place ≠ .ending c

section
variable {p q : Part}

theorem ServedStep.refl (p : Part) : ServedStep p p :=
  ⟨rfl, rfl, rfl, rfl, rfl, rfl, rfl, rfl, rfl, rfl, Nat.le_refl _, fun _ _ => Iff.rfl, [], (List.append_nil _).symm, nofun⟩

theorem ServedStep.trans {r : Part} (h : ServedStep p q) (g : ServedStep q r) : ServedStep p r where
  run := g.run.trans h.run
  link := by rw [g.link, h.link]
  sdr := by rw [g.sdr, h.sdr]
  smp := g.smp.trans h.smp
  wcu := g.wcu.trans h.wcu
  rcu := g.rcu.trans h.rcu
  mli := g.mli.trans h.mli
  scu := g.scu.trans h.scu
  op := g.op.trans h.op
  batch := g.batch.trans h.batch
  age := h.age.trans g.age
  claims := fun d hd => (g.claims d hd).trans (h.claims d hd)
  replies := by
    obtain ⟨l, hl, new⟩ := h.replies
    obtain ⟨m, hm, newer⟩ := g.replies
    refine ⟨l ++ m, by rw [hm, hl, List.append_assoc], fun y hy => ?_⟩
    rcases List.mem_append.1 hy with hy | hy
    · exact new y hy
    · exact newer y hy

theorem ServedStep.ctx (h : ServedStep p q) (c : CtxId) : q.ctx c = p.ctx c := by unfold Part.ctx; rw [h.wcu]
theorem ServedStep.sector (h : ServedStep p q) (i : Nat) : q.sector i = p.sector i := by unfold Part.sector; rw [h.smp]
theorem ServedStep.directory (h : ServedStep p q) : q.sdr.directory = p.sdr.directory := by rw [h.sdr]
theorem ServedStep.retiring (h : ServedStep p q) : q.sdr.retiring = p.sdr.retiring := by rw [h.sdr]
theorem ServedStep.entryOf (h : ServedStep p q) (s : Nat) : q.entryOf s = p.entryOf s := entryOf_of_directory h.directory s

theorem withdraw_servedStep (h : ServedStep p q) (a : Nat) : ServedStep p (withdraw (.serving a) q) :=
  h.trans { ServedStep.refl q with
    claims := fun d hd => by
      unfold withdraw
      rw [List.mem_filter]
      simp [hd a] }

theorem modServing_servedStep (h : ServedStep p q) (a : Nat) (f : Serving → Serving) : ServedStep p (modServing a f q) :=
  h.trans { ServedStep.refl q with sdr := rfl }

theorem raise_servedStep (h : ServedStep p q) {u : Purpose} {a : Nat} (hu : u.owner = .serving a) (k : OpKind) (l : Nat) (t : Target) :
    ServedStep p (raise u k l t q) :=
  h.trans
    { run := raise_run ..
      link := by rw [raise_link]
      sdr := by rw [raise_sdr]
      smp := raise_smp ..
      wcu := raise_wcu ..
      rcu := raise_rcu ..
      mli := raise_mli ..
      scu := raise_scu ..
      op := raise_op ..
      batch := raise_batch ..
      age := by rw [raise_nextAge]; exact Nat.le_succ _
      claims := fun d hd => by
        rw [raise_claims, List.mem_append, List.mem_singleton, or_iff_left]
        rintro rfl
        exact hd a hu
      replies := ⟨[], by rw [raise_link, List.append_nil], nofun⟩ }

/-- R148, R157: the end of a queued request gives its own reply and those of the ABORTs that wait on it. -/
theorem completeEntry_servedStep (h : ServedStep p q) (a : Nat) (st : Status) (n : Byte) (pl : List Byte) :
    ServedStep p (completeEntry a st n pl q) := by
  cases he : q.queueEntry a with
  | none => rw [completeEntry_absent he]; exact h
  | some e =>
    rw [completeEntry_eq he]
    refine h.trans { ServedStep.refl q with link := rfl, replies := ⟨_, List.append_assoc .., fun y hy => ?_⟩ }
    rcases List.mem_append.1 hy with hy | hy
    · rw [List.mem_singleton.1 hy]; exact nofun
    · obtain ⟨x, -, rfl⟩ := List.mem_map.1 hy; exact nofun

theorem completeServing_servedStep (h : ServedStep p q) (a : Nat) (st : Status) (n : Byte) (pl : List Byte) :
    ServedStep p (completeServing a st n pl q) :=
  completeEntry_servedStep (q := dropServing a q) (h.trans { ServedStep.refl q with sdr := rfl }) a st n pl

theorem raiseRead_servedStep (h : ServedStep p q) (a : Nat) : ServedStep p (raiseRead a q) := by
  unfold raiseRead
  split
  · split
    · dsimp only
      split
      · exact completeServing_servedStep h ..
      · exact raise_servedStep (modServing_servedStep h a _) rfl ..
    · exact completeServing_servedStep h ..
  · exact h

theorem raiseVerify_servedStep (h : ServedStep p q) (a : Nat) : ServedStep p (raiseVerify a q) := by
  unfold raiseVerify
  split
  · split
    · split
      · exact raise_servedStep (modServing_servedStep h a _) rfl ..
      · exact h
    · exact completeServing_servedStep h ..
  · exact h

/-- R118: a served request that meets NO_SLOT. -/
theorem slotGone_servedStep (h : ServedStep p q) (a : Nat) : ServedStep p (slotGone a q) := by
  unfold slotGone
  split
  · split
    · exact modServing_servedStep h a _
    · exact completeServing_servedStep (withdraw_servedStep h a) ..
  · exact h

theorem foldl_servedStep {α : Type} {F : Part → α → Part} (hF : ∀ r x, ServedStep p r → ServedStep p (F r x)) (l : List α)
    (h : ServedStep p q) : ServedStep p (l.foldl F q) := by
  induction l generalizing q with
  | nil => exact h
  | cons x l ih => exact ih (hF q x h)

theorem switchOne_servedStep (h : ServedStep p q) (slot : Nat) (r : Serving) : ServedStep p (switchOne slot q r) := by
  unfold switchOne
  split
  · split
    · exact raiseRead_servedStep (withdraw_servedStep h _) _
    · exact h
  · split
    · split
      · exact raiseVerify_servedStep (modServing_servedStep (withdraw_servedStep h _) _ _) _
      · exact h
    · exact h
  · exact h

theorem replaceOne_servedStep (h : ServedStep p q) (i : Nat) (r : Serving) : ServedStep p (replaceOne i q r) := by
  unfold replaceOne
  split
  · split
    · exact raiseRead_servedStep (withdraw_servedStep h _) _
    · exact h
  · split
    · exact raiseVerify_servedStep (withdraw_servedStep h _) _
    · exact h
  · exact h

theorem reissueAtSwitch_servedStep (h : ServedStep p q) (slot : Nat) : ServedStep p (reissueAtSwitch slot q) :=
  foldl_servedStep (fun _ r hr => switchOne_servedStep hr slot r) _ h

theorem reissueAtReplacement_servedStep (h : ServedStep p q) (slot i : Nat) : ServedStep p (reissueAtReplacement slot i q) :=
  foldl_servedStep (fun _ r hr => replaceOne_servedStep hr i r) _ h

end

end Sys2Proof.Machine
end

