-- ==== Sys2Proof/Proofs/Commit.lean ====
section
/-! SUPPORT. The switch of a committed generation (R28 to R31, R95, R96, R104), and the OBSOLETE claim that a relocation step defers. -/
namespace Sys2Proof.Machine

/-! ### The end of a context, on the directory, the retiring list and its claims -/

section
variable {c : CtxId} {st : Option Status} {p : Part}

theorem finishEnd_sdr_pee (c : CtxId) (st : Option Status) (p : Part) :
    (finishEnd c st p).sdr = (released c p).sdr ∧ (finishEnd c st p).pee = (released c p).pee := by
  rw [finishEnd_released]
  cases st with
  | none => exact ⟨modCtx_sdr .., modCtx_pee ..⟩
  | some s => exact ⟨(modCtx_sdr ..), (modCtx_pee ..)⟩

theorem finishEnd_retiring : (finishEnd c st p).sdr.retiring = p.sdr.retiring := by
  rw [(finishEnd_sdr_pee c st p).1, (released_spec c p).retire]

/-- The entry of an ended context's slot has no open context of its number. -/
def DirEntry.letGo (c : CtxId) (slot : Nat) (e : DirEntry) : DirEntry :=
  if e.slot = slot then (if e.openCtx = some c then { e with openCtx := none } else e) else e

theorem DirEntry.letGo_eq (c : CtxId) (slot : Nat) (e : DirEntry) : e.letGo c slot = { e with openCtx := (e.letGo c slot).openCtx } := by
  unfold DirEntry.letGo
  repeat' split
  all_goals rfl

theorem finishEnd_entryOf (s : Nat) : (finishEnd c st p).entryOf s = (p.entryOf s).map (DirEntry.letGo c (p.ctx c).slot) := by
  unfold Part.entryOf
  rw [(finishEnd_sdr_pee c st p).1, (released_spec c p).dir]
  exact find?_map_key _ (DirEntry.letGo c (p.ctx c).slot) _ fun e => by rw [DirEntry.letGo_eq]

/-- R97: of the claims, a context's end concerns its own. -/
theorem mem_finishEnd_claims {d : Claim} {s n : Nat} (hd : d.purpose.owner = .retiring s n) :
    d ∈ (finishEnd c st p).pee.claims ↔ d ∈ p.pee.claims := by
  obtain ⟨l, claims, new⟩ := (released_spec c p).claims
  rw [(finishEnd_sdr_pee c st p).2, claims, List.mem_append, List.mem_filter, or_iff_left]
  · simp [hd]
  · intro h
    rcases new d h with own | ⟨i, own⟩ <;> simp [own] at hd

end

/-! ### Entries that join -/

theorem entryOf_insertEntry (d : DirEntry) (l : List DirEntry) (s : Nat) (h : l.find? (fun e => e.slot = d.slot) = none) :
    (insertEntry d l).find? (fun e => e.slot = s) = if s = d.slot then some d else l.find? (fun e => e.slot = s) := by
  induction l with
  | nil => by_cases hs : s = d.slot <;> simp [insertEntry, hs, eq_comm]
  | cons x l ih =>
    rw [List.find?_cons] at h
    have hx : x.slot ≠ d.slot := fun e => by simp [e] at h
    have hl : l.find? (fun e => e.slot = d.slot) = none := by simpa [hx] using h
    unfold insertEntry
    split
    · rw [List.find?_cons, ih hl, List.find?_cons]
      by_cases hs : x.slot = s
      · simp [hs, show s ≠ d.slot from hs ▸ hx]
      · simp [hs]
    · rw [List.find?_cons]
      by_cases hs : s = d.slot
      · simp [hs]
      · simp [hs, Ne.symm hs]

/-! ### The superseded generation retires (R28 to R31) -/

/-- R29, R31: the record of a superseded generation, when its first claim is raised or deferred. -/
def DirEntry.record (e : DirEntry) (h : Elem) (level : Nat) (waiting : Option CtxId) (deferred : Bool) : Retiring :=
  { slot := e.slot, sequence := e.sequence, extents := e.extents, head := h, superseded := true,
    level := level, attempts := 0, waiting := waiting, deferred := deferred, extra := none }

section
variable {p q : Part}

theorem liveToRetiring_spaced (h : Spaced p q) (i n : Nat) : Spaced p (liveToRetiring i n q) :=
  judgeSector_spaced (modSector_spaced h i (fun s => { s with live := s.live - n, retiring := s.retiring + n }) fun _ => ⟨rfl, rfl, id⟩) i

theorem pendingToLive_spaced (h : Spaced p q) (i n : Nat) : Spaced p (pendingToLive i n q) :=
  judgeSector_spaced (modSector_spaced h i (fun s => { s with pending := s.pending - n, live := s.live + n }) fun _ => ⟨rfl, rfl, id⟩) i

theorem forElems_pendingToLive_wcu (es : List Elem) (p : Part) : (forElems pendingToLive es p).wcu = p.wcu :=
  forElems_wcu (f := pendingToLive) (fun i _ q => judgeSector_wcu i (modSector i _ q)) es p

theorem forElems_liveToRetiring_wcu (es : List Elem) (p : Part) : (forElems liveToRetiring es p).wcu = p.wcu :=
  forElems_wcu (f := liveToRetiring) (fun i _ q => judgeSector_wcu i (modSector i _ q)) es p

theorem pendingToLive_newClaims (h : NewClaims p q) (i n : Nat) : NewClaims p (pendingToLive i n q) :=
  judgeSector_newClaims (q := modSector i _ q) h.pee i

theorem liveToRetiring_newClaims (h : NewClaims p q) (i n : Nat) : NewClaims p (liveToRetiring i n q) :=
  judgeSector_newClaims (q := modSector i _ q) h.pee i

/-- R28: a superseded generation leaves everything but its record, its bytes and its first claim. -/
theorem retire_eq {e : DirEntry} {h : Elem} {es : List Elem} (hx : e.extents = h :: es) (level : Nat) (w : Option CtxId) (p : Part) :
    let deferred := e.relocating && headRelocating e.slot e.sequence p
    let m : Part := { p with sdr := { p.sdr with retiring := p.sdr.retiring ++ [e.record h level w deferred] } }
    retire e level w p = if deferred then forElems liveToRetiring e.extents m
      else raiseObsolete e.slot e.sequence (forElems liveToRetiring e.extents m) := by
  unfold retire
  rw [hx]
  simp only [DirEntry.record, hx]

theorem retiringOf_append {s n : Nat} {r : Retiring} (hr : r.slot = s ∧ r.sequence = n) (none_ : p.retiringOf s n = none)
    (hq : q.sdr.retiring = p.sdr.retiring ++ [r]) : q.retiringOf s n = some r := by
  unfold Part.retiringOf at none_ ⊢
  rw [hq, List.find?_append, none_]
  simp [hr]

theorem raiseObsolete_retiring {s n : Nat} {r : Retiring} (hr : r.slot = s ∧ r.sequence = n) (none_ : p.retiringOf s n = none)
    (hq : q.sdr.retiring = p.sdr.retiring ++ [r]) : (raiseObsolete s n q).sdr.retiring = p.sdr.retiring ++ [r.tried 1] := by
  rw [raiseObsolete_eq, hq, List.map_append, List.map_singleton]
  have others : ∀ x ∈ p.sdr.retiring, x.triedFor s n = x := fun x hx => if_neg (List.find?_eq_none.1 none_ x hx)
  rw [List.map_congr_left others, List.map_id']
  simp [Retiring.triedFor, hr]

/-- R28: what the end of a generation leaves as it is. -/
theorem retire_kept (e : DirEntry) (level : Nat) (w : Option CtxId) (p : Part) :
    let q := retire e level w p
    q.wcu = p.wcu ∧ q.link.replies = p.link.replies ∧ q.sdr.directory = p.sdr.directory := by
  cases hx : e.extents with
  | nil => unfold retire; rw [hx]; exact ⟨rfl, rfl, rfl⟩
  | cons h es =>
    rw [retire_eq hx]
    generalize (e.relocating && headRelocating e.slot e.sequence p) = deferred
    let m : Part := { p with sdr := { p.sdr with retiring := p.sdr.retiring ++ [e.record h level w deferred] } }
    have moved : Spaced m (forElems liveToRetiring e.extents m) := forElems_spaced (.refl m) (fun i n _ h => liveToRetiring_spaced h i n) _
    have kept : (forElems liveToRetiring e.extents m).wcu = p.wcu ∧ (forElems liveToRetiring e.extents m).link.replies = p.link.replies ∧
        (forElems liveToRetiring e.extents m).sdr.directory = p.sdr.directory :=
      ⟨forElems_liveToRetiring_wcu .., moved.replies, (congrArg Sdr.directory moved.sdr :)⟩
    dsimp only
    split
    · exact kept
    · rw [raiseObsolete_eq]; exact kept

section
variable {e : DirEntry} {h : Elem} {es : List Elem} {level : Nat} {w : Option CtxId}

/-- R28: a superseded generation with extents has its record. -/
theorem retire_recorded (hx : e.extents = h :: es) : ∃ r ∈ (retire e level w p).sdr.retiring,
    r.slot = e.slot ∧ r.sequence = e.sequence ∧ r.extents = e.extents ∧ r.superseded = true := by
  rw [retire_eq hx]
  generalize (e.relocating && headRelocating e.slot e.sequence p) = deferred
  let m : Part := { p with sdr := { p.sdr with retiring := p.sdr.retiring ++ [e.record h level w deferred] } }
  have listed : e.record h level w deferred ∈ (forElems liveToRetiring e.extents m).sdr.retiring := by
    rw [(forElems_spaced (.refl m) (fun i n _ h => liveToRetiring_spaced h i n) _).sdr]
    exact List.mem_append_right _ (List.mem_singleton_self _)
  dsimp only
  split
  · exact ⟨_, listed, rfl, rfl, rfl, rfl⟩
  · refine ⟨(e.record h level w deferred).triedFor e.slot e.sequence, ?_, ?_⟩
    · rw [raiseObsolete_eq]; exact List.mem_map_of_mem listed
    · simp [Retiring.triedFor, Retiring.tried, DirEntry.record]

/-- R29: its first claim is raised on its head. -/
theorem retire_raises (hx : e.extents = h :: es) (none_ : p.retiringOf e.slot e.sequence = none)
    (still : (e.relocating && headRelocating e.slot e.sequence p) = false) :
    (retire e level w p).sdr.retiring = p.sdr.retiring ++ [(e.record h level w false).tried 1] ∧
      Claimed (.obsolete e.slot e.sequence) .mark level (.bytes h.sector (h.offset + 24) [0x00]) p (retire e level w p) := by
  rw [retire_eq hx, still]
  let m : Part := { p with sdr := { p.sdr with retiring := p.sdr.retiring ++ [e.record h level w false] } }
  have listed := congrArg Sdr.retiring
    (forElems_spaced (.refl m) (fun i n _ h => liveToRetiring_spaced h i n) e.extents).sdr
  have raised : NewClaims p (forElems liveToRetiring e.extents m) :=
    forElems_newClaims ((NewClaims.refl p).pee (r := m)) (fun i n _ h => liveToRetiring_newClaims h i n) _
  refine ⟨raiseObsolete_retiring ⟨rfl, rfl⟩ none_ listed, ?_⟩
  exact (raiseObsolete_claimed (retiringOf_append (r := e.record h level w false) ⟨rfl, rfl⟩ none_ listed)).mono raised.age
    (List.prefix_refl _)

/-- R31: its first claim is deferred while a step moves its head. -/
theorem retire_defers (hx : e.extents = h :: es) (moves : (e.relocating && headRelocating e.slot e.sequence p) = true) :
    (retire e level w p).sdr.retiring = p.sdr.retiring ++ [e.record h level w true] ∧
      ∀ d ∈ (retire e level w p).pee.claims, d.purpose = .obsolete e.slot e.sequence → d ∈ p.pee.claims := by
  rw [retire_eq hx, moves]
  let m : Part := { p with sdr := { p.sdr with retiring := p.sdr.retiring ++ [e.record h level w true] } }
  have raised : NewClaims p (forElems liveToRetiring e.extents m) :=
    forElems_newClaims ((NewClaims.refl p).pee (r := m)) (fun i n _ h => liveToRetiring_newClaims h i n) _
  refine ⟨congrArg Sdr.retiring (forElems_spaced (.refl m) (fun i n _ h => liveToRetiring_spaced h i n) e.extents).sdr, ?_⟩
  obtain ⟨l, claims, new⟩ := raised.claims
  intro d hd obsolete
  rcases List.mem_append.1 (claims ▸ hd) with old | own
  · exact old
  · rcases (new d own).2 with u | ⟨i, u⟩ <;> rw [u] at obsolete <;> cases obsolete

end

end

/-! ### The switch (R28, R95, R96, R104) -/

/-- R28: an entry once it names a context's generation. -/
def WriteCtx.onto (k : WriteCtx) (e : DirEntry) : DirEntry :=
  { e with cls := k.cls, length := k.total, sequence := k.sequence, extents := k.elems }

/-- The part at which a slot's first generation is committed. -/
def firstCommitted (c : CtxId) (p : Part) : Part :=
  let p1 := modCtx c (fun k => { k with commit := .switched }) p
  forElems pendingToLive (p.ctx c).elems
    { p1 with sdr := { p1.sdr with directory := insertEntry ((p.ctx c).newEntry c) p1.sdr.directory } }

/-- The part at which a further generation of a slot is committed, before the generation superseded retires. -/
def furtherCommitted (c : CtxId) (p : Part) : Part :=
  forElems pendingToLive (p.ctx c).elems
    (modEntry (p.ctx c).slot (p.ctx c).onto (modCtx c (fun k => { k with commit := .switched }) p))

/-- R95, R104: the context that awaits the end of the generation superseded. -/
def waiter (c : CtxId) (k : WriteCtx) : Option CtxId := if k.ending = some .byRestart then none else some c

/-- The part at which the generation superseded has retired and the slot's waiting claims are raised again. -/
def superseded (c : CtxId) (e : DirEntry) (p : Part) : Part :=
  reissueAtSwitch (p.ctx c).slot (retire e (p.ctx c).level (waiter c (p.ctx c)) (furtherCommitted c p))

section
variable {c : CtxId} {p : Part}

theorem commitSwitch_first (h : p.entryOf (p.ctx c).slot = none) : commitSwitch c p =
    finishEnd c (if (p.ctx c).ending = some .byRestart then none else some .ok) (firstCommitted c p) := by
  unfold commitSwitch
  dsimp only
  rw [h]
  simp only [decide_eq_true_eq, firstCommitted]

theorem commitSwitch_further {e : DirEntry} (h : p.entryOf (p.ctx c).slot = some e) : commitSwitch c p =
    if (p.ctx c).ending = some .byRestart then finishEnd c none (superseded c e p) else superseded c e p := by
  unfold commitSwitch
  dsimp only
  rw [h]
  simp only [decide_eq_true_eq]
  rfl

theorem firstCommitted_spaced (c : CtxId) (p : Part) :
    let p1 := modCtx c (fun k => { k with commit := .switched }) p
    Spaced { p1 with sdr := { p1.sdr with directory := insertEntry ((p.ctx c).newEntry c) p1.sdr.directory } } (firstCommitted c p) :=
  forElems_spaced (.refl _) (fun i n _ h => pendingToLive_spaced h i n) _

theorem furtherCommitted_spaced (c : CtxId) (p : Part) :
    Spaced (modEntry (p.ctx c).slot (p.ctx c).onto (modCtx c (fun k => { k with commit := .switched }) p)) (furtherCommitted c p) :=
  forElems_spaced (.refl _) (fun i n _ h => pendingToLive_spaced h i n) _

theorem ctx_of_wcu {q : Part} (h : q.wcu = p.wcu) (c : CtxId) : q.ctx c = p.ctx c := by
  unfold Part.ctx
  rw [h]

theorem firstCommitted_ctx (c : CtxId) (p : Part) : (firstCommitted c p).ctx c = { p.ctx c with commit := .switched } :=
  (ctx_of_wcu (forElems_pendingToLive_wcu ..) c).trans (modCtx_ctx ..)

theorem furtherCommitted_ctx (c : CtxId) (p : Part) : (furtherCommitted c p).ctx c = { p.ctx c with commit := .switched } :=
  (ctx_of_wcu (forElems_pendingToLive_wcu ..) c).trans (modCtx_ctx ..)

theorem furtherCommitted_newClaims (c : CtxId) (p : Part) : NewClaims p (furtherCommitted c p) :=
  forElems_newClaims (q := modEntry _ _ _) ((NewClaims.refl p).pee (modCtx_pee ..)) (fun i n _ h => pendingToLive_newClaims h i n) _

/-- R97: a context's end leaves the entries of the other slots. -/
theorem finishEnd_entryOf_other {st : Option Status} {t : Nat} (h : t ≠ (p.ctx c).slot) :
    (finishEnd c st p).entryOf t = p.entryOf t := by
  rw [finishEnd_entryOf]
  cases hd : p.entryOf t with
  | none => rfl
  | some d => rw [Option.map_some, DirEntry.letGo, if_neg (by rw [entryOf_slot hd]; exact h)]

/-! #### A slot's first generation -/

theorem firstCommitted_entryOf (none_ : p.entryOf (p.ctx c).slot = none) (t : Nat) :
    (firstCommitted c p).entryOf t = if t = (p.ctx c).slot then some ((p.ctx c).newEntry c) else p.entryOf t := by
  have directory : (firstCommitted c p).sdr.directory = insertEntry ((p.ctx c).newEntry c) p.sdr.directory := by
    rw [(firstCommitted_spaced c p).sdr]
    simp only [modCtx_sdr]
  unfold Part.entryOf
  rw [directory]
  exact entryOf_insertEntry _ _ _ none_

theorem firstCommitted_replies : (firstCommitted c p).link.replies = p.link.replies :=
  (firstCommitted_spaced c p).replies.trans (congrArg Link.replies (modCtx_link ..))

theorem firstCommitted_retiring : (firstCommitted c p).sdr.retiring = p.sdr.retiring := by
  rw [(firstCommitted_spaced c p).sdr]
  simp only [modCtx_sdr]

/-! #### A further generation -/

/-- R28: what the switch to a further generation leaves, and how it changes the directory. -/
theorem furtherCommitted_kept (c : CtxId) (p : Part) :
    (furtherCommitted c p).sdr.directory = (modEntry (p.ctx c).slot (p.ctx c).onto p).sdr.directory ∧
      (furtherCommitted c p).sdr.retiring = p.sdr.retiring ∧ (furtherCommitted c p).link.replies = p.link.replies ∧
      (furtherCommitted c p).rcu.step = p.rcu.step := by
  have h := furtherCommitted_spaced c p
  refine ⟨?_, ?_, ?_, ?_⟩
  · rw [h.sdr]; simp only [modEntry, modCtx_sdr]
  · rw [h.sdr, modEntry_retiring, modCtx_sdr]
  · rw [h.replies, modEntry_link, modCtx_link]
  · rw [h.rcuStep, modEntry_rcu, modCtx_rcu]

/-- R28, R108: what stands once the generation superseded has retired and the waiting claims are raised again. -/
theorem superseded_kept (c : CtxId) (e : DirEntry) (p : Part) :
    (superseded c e p).ctx c = { p.ctx c with commit := .switched } ∧
      (∃ l, (superseded c e p).link.replies = p.link.replies ++ l ∧ ∀ y ∈ l, ∀ d, y.place ≠ .ending d) ∧
      (∀ t, (superseded c e p).entryOf t = (modEntry (p.ctx c).slot (p.ctx c).onto p).entryOf t) := by
  obtain ⟨directory, -, replies, -⟩ := furtherCommitted_kept c p
  obtain ⟨wcu, replies', directory'⟩ := retire_kept e (p.ctx c).level (waiter c (p.ctx c)) (furtherCommitted c p)
  have h := reissueAtSwitch_servedStep (.refl (retire e (p.ctx c).level (waiter c (p.ctx c)) (furtherCommitted c p))) (p.ctx c).slot
  refine ⟨?_, ?_, fun t => ?_⟩
  · exact (h.ctx c).trans ((ctx_of_wcu wcu c).trans (furtherCommitted_ctx c p))
  · obtain ⟨l, eq, new⟩ := h.replies
    exact ⟨l, by rw [superseded, eq, replies', replies], new⟩
  · exact (h.entryOf t).trans (entryOf_of_directory (directory'.trans directory) t)

/-- R28, R104: what a commit over an earlier generation leaves of the retiring list, of the retiring records' claims and of the entry. -/
theorem commitSwitch_further_kept {e : DirEntry} (he : p.entryOf (p.ctx c).slot = some e) :
    let r := retire e (p.ctx c).level (waiter c (p.ctx c)) (furtherCommitted c p)
    (commitSwitch c p).sdr.retiring = r.sdr.retiring ∧
      (∀ d : Claim, ∀ s n, d.purpose.owner = .retiring s n → (d ∈ (commitSwitch c p).pee.claims ↔ d ∈ r.pee.claims)) ∧
      ∃ o, (commitSwitch c p).entryOf (p.ctx c).slot = some { (p.ctx c).onto e with openCtx := o } ∧
        ((p.ctx c).ending ≠ some .byRestart → o = e.openCtx) := by
  have h := reissueAtSwitch_servedStep (.refl (retire e (p.ctx c).level (waiter c (p.ctx c)) (furtherCommitted c p))) (p.ctx c).slot
  have claims (d : Claim) (s n : Nat) (hd : d.purpose.owner = .retiring s n) := h.claims d fun a x => by rw [hd] at x; cases x
  have entry : (superseded c e p).entryOf (p.ctx c).slot = some ((p.ctx c).onto e) :=
    ((superseded_kept c e p).2.2 _).trans (entryOf_modEntry_self (f := (p.ctx c).onto) (fun _ => rfl) he)
  rw [commitSwitch_further he]
  dsimp only
  split
  · rename_i stopped
    refine ⟨finishEnd_retiring.trans h.retiring, fun d s n hd => (mem_finishEnd_claims hd).trans (claims d s n hd),
      (((p.ctx c).onto e).letGo c ((superseded c e p).ctx c).slot).openCtx, ?_, fun x => absurd stopped x⟩
    rw [finishEnd_entryOf, entry, Option.map_some, ← DirEntry.letGo_eq]
  · exact ⟨h.retiring, claims, _, entry, fun _ => rfl⟩

/-- R31: the step under way moves the head of the generation superseded. -/
theorem moves_iff (e : DirEntry) (p q : Part) (h : q.rcu.step = p.rcu.step) : (e.relocating && headRelocating e.slot e.sequence q) = true ↔
    e.relocating = true ∧ ∃ st, p.rcu.step = some st ∧ st.slot = e.slot ∧ st.sequence = e.sequence ∧ st.index = 0 := by
  unfold headRelocating
  rw [h]
  cases p.rcu.step <;> simp [and_assoc]

/-- R28, R33, R95, R96, R104: the switch of a committed generation. -/
theorem commitSwitch_switches (c : CtxId) (p : Part) :
    let k := p.ctx c
    let q := commitSwitch c p
    (p.ascending → q.ascending) ∧ (∀ t, t ≠ k.slot → q.entryOf t = p.entryOf t) := by
  refine ⟨(commitSwitch_quiet (.refl p) c).2.2.2.1, fun t ht => ?_⟩
  cases he : p.entryOf (p.ctx c).slot with
  | none =>
    rw [commitSwitch_first he, finishEnd_entryOf_other (by rw [firstCommitted_ctx]; exact ht), firstCommitted_entryOf he, if_neg ht]
  | some e =>
    obtain ⟨ctx, -, entry⟩ := superseded_kept c e p
    have other : (superseded c e p).entryOf t = p.entryOf t := (entry t).trans (entryOf_modEntry_other (f := (p.ctx c).onto) (fun _ => rfl) ht p)
    rw [commitSwitch_further he]
    split
    · exact (finishEnd_entryOf_other (by rw [ctx]; exact ht)).trans other
    · exact other

end

end Sys2Proof.Machine
end

