-- ==== Sys2Proof/Proofs/StepEnd.lean ====
section
/-! SUPPORT. The end of a relocation step (R31, R35, R132, R136, R177): its element's replacement, the OBSOLETE claim deferred on it, the
runner's sector, and the boundary of its job. -/
namespace Sys2Proof.Machine

variable {p q : Part}

/-! ### The element's replacement (R35, R51) -/

/-- R129: the new copy of a step's element. -/
def Step.copied (st : Step) : Elem :=
  { sector := st.newSector, offset := st.newOffset, length := st.elem.length, copy := st.elem.copy + 1 }

/-- R35: an entry whose element the step replaced. -/
def Step.onto (st : Step) (e : DirEntry) : DirEntry := { e with extents := e.extents.set st.index st.copied }

/-- R51: the part once the element names the new copy and its space has moved. -/
def movedElem (st : Step) (p : Part) : Part :=
  subLive st.elem.sector (space st.elem.length) (addLive st.newSector (space st.elem.length) (modEntry st.slot st.onto p))

theorem replaceElem_live {st : Step} {e : DirEntry} (he : p.entryOf st.slot = some e) (live : e.sequence = st.sequence) :
    replaceElem st p = reissueAtReplacement st.slot st.index (movedElem st p) := by
  unfold replaceElem
  rw [he]
  dsimp only
  rw [if_pos live]
  rfl

/-- R35: a step of a generation that is no longer the slot's moves nothing. -/
theorem replaceElem_dead {st : Step} (dead : ∀ e, p.entryOf st.slot = some e → e.sequence ≠ st.sequence) : replaceElem st p = p := by
  unfold replaceElem
  cases he : p.entryOf st.slot with
  | none => rfl
  | some e => exact if_neg (dead e he)

/-- R51: the space of the element moves from the live bytes of its old sector to those of its new one. -/
theorem movedElem_counts (st : Step) (p : Part) :
    MapStep (recount (thenAt st.elem.sector (· - space st.elem.length) (thenAt st.newSector (· + space st.elem.length) same)) same same
      (modEntry st.slot st.onto p).unqueued) (movedElem st p) :=
  subLive_counts (addLive_counts rfl (MapStep.refl (modEntry st.slot st.onto p)).unqueued _ _) _ _

theorem movedElem_newClaims (st : Step) (p : Part) : NewClaims p (movedElem st p) :=
  judgeSector_newClaims (q := modSector _ _ _)
    (judgeSector_newClaims (q := modSector _ _ (modEntry st.slot st.onto p)) (NewClaims.refl p).pee _).pee _

/-- R35: what the replacement of an element leaves as it is. -/
structure Replaced (p q : Part) : Prop where
  retiring : q.sdr.retiring = p.sdr.retiring
  scu      : q.scu = p.scu
  job      : q.rcu.job = p.rcu.job
  age      : p.pee.nextAge ≤ q.pee.nextAge
  length   : q.smp.sectors.length = p.smp.sectors.length
  counts   : ∀ j, (q.sector j).pending = (p.sector j).pending ∧ (q.sector j).retiring = (p.sector j).retiring

theorem replaceElem_replaced (st : Step) (p : Part) : Replaced p (replaceElem st p) := by
  by_cases live : ∃ e, p.entryOf st.slot = some e ∧ e.sequence = st.sequence
  · obtain ⟨e, he, live⟩ := live
    have counts := movedElem_counts st p
    have served := reissueAtReplacement_servedStep (.refl (movedElem st p)) st.slot st.index
    rw [replaceElem_live he live]
    exact
      { retiring := by rw [served.retiring, counts.sdr]; rfl
        scu := by rw [served.scu, counts.scu]; rfl
        job := by rw [served.rcu, counts.job]; rfl
        age := (movedElem_newClaims st p).age.trans served.age
        length := by rw [served.smp, counts.length]; exact List.length_mapIdx
        counts := fun j => by
          obtain ⟨-, -, -, pending, retiring⟩ := counts.counts j
          rw [served.sector, pending, retiring, recount_sector]
          split <;> exact ⟨rfl, rfl⟩ }
  · rw [replaceElem_dead fun e he x => live ⟨e, he, x⟩]
    exact ⟨rfl, rfl, rfl, Nat.le_refl _, rfl, fun _ => ⟨rfl, rfl⟩⟩

/-! ### The runner's sector (R44, R132, R136, R177) -/

theorem dropRunnerSector_spaced (h : Spaced p q) (i : Nat) : Spaced p (dropRunnerSector i q) :=
  modSector_spaced h i _ fun s => by split <;> exact ⟨rfl, rfl, id⟩

theorem settleRunnerSector_mapStep (h : MapStep p q) (st : Step) (m : q.mounted = true) : MapStep p (settleRunnerSector st q) := by
  unfold settleRunnerSector
  rw [if_pos m]
  split
  · split
    · exact sealSector_mapStep h _
    · exact h
  · split
    · exact h
    · exact judgeSector_mapStep h _

/-- The runner's field of its sector is no part of what the Sector Map keeps. -/
theorem disowned_mapStep (p : Part) (o : Option Nat) : MapStep p { p with rcu := { p.rcu with owned := o } } :=
  { MapStep.refl p with step := rfl }

theorem settleRunnerSector_spaced (st : Step) (p : Part) : Spaced p (settleRunnerSector st p) := by
  by_cases m : p.mounted = true
  · exact (settleRunnerSector_mapStep (.refl p) st m).spaced
  · unfold settleRunnerSector
    rw [if_neg m]
    have given : Spaced p (match p.rcu.owned with
        | some i => dropRunnerSector i { p with rcu := { p.rcu with owned := none } }
        | none => p) := by
      split
      · exact dropRunnerSector_spaced (disowned_mapStep p none).spaced _
      · exact .refl p
    dsimp only
    split
    · exact given
    · exact dropRunnerSector_spaced given _

theorem settleRunnerSector_newClaims (h : NewClaims p q) (st : Step) : NewClaims p (settleRunnerSector st q) := by
  unfold settleRunnerSector
  split
  · split
    · split
      · exact sealSector_newClaims h _
      · exact h
    · split
      · exact h
      · exact judgeSector_newClaims h _
  · dsimp only
    split
    · split
      · exact h.pee
      · exact h
    · split
      · exact h.pee
      · exact h.pee

/-- R136: the part whose runner has met the end of its step after a RESTART. -/
def unstopped (p : Part) : Part :=
  { p with rcu := { p.rcu with stopAtEnd := false, lastKind := if p.rcu.stopAtEnd then none else p.rcu.lastKind } }

theorem settleRestart_eq (p : Part) : settleRestart p = if p.rcu.stopAtEnd then
    (match p.rcu.owned with
      | some i => giveUp i (unstopped p)
      | none => unstopped p) else unstopped p := by
  unfold settleRestart unstopped
  split
  · rfl
  · rename_i h
    rw [Bool.not_eq_true] at h
    rw [← h]

theorem settleRestart_spaced (p : Part) : Spaced (unstopped p) (settleRestart p) := by
  rw [settleRestart_eq]
  split
  · split
    · exact giveUp_spaced (.refl _) _
    · exact .refl _
  · exact .refl _

theorem settleRestart_mapStep (m : p.mounted = true) : MapStep (unstopped p) (settleRestart p) := by
  rw [settleRestart_eq]
  split
  · split
    · exact giveUp_mapStep (.refl _) _ m
    · exact .refl _
  · exact .refl _

theorem settleRestart_newClaims (h : NewClaims p q) : NewClaims p (settleRestart q) := by
  rw [settleRestart_eq]
  split
  · split
    · exact giveUp_newClaims h.pee _
    · exact h.pee
  · exact h.pee

/-! ### The deferred claim (R31, R35) -/

theorem retiringOf_of_retiring (h : q.sdr.retiring = p.sdr.retiring) (s n : Nat) : q.retiringOf s n = p.retiringOf s n := by
  unfold Part.retiringOf
  rw [h]

theorem retiringOf_modRetiring {s n : Nat} {r : Retiring} (h : p.retiringOf s n = some r) (f : Retiring → Retiring)
    (hf : ∀ r, (f r).key = r.key) : (modRetiring s n f p).retiringOf s n = some (f r) := by
  have keys : ∀ x : Retiring, (decide ((if x.slot = s && x.sequence = n then f x else x).slot = s) &&
      decide ((if x.slot = s && x.sequence = n then f x else x).sequence = n)) = (decide (x.slot = s) && decide (x.sequence = n)) := by
    intro x
    obtain ⟨slot, sequence⟩ := Prod.ext_iff.1 (hf x)
    simp only [Retiring.key] at slot sequence
    split
    · rw [slot, sequence]
    · rfl
  obtain ⟨slot, sequence⟩ := retiringOf_key h
  refine (find?_map_key p.sdr.retiring _ _ keys).trans ?_
  rw [show p.sdr.retiring.find? _ = some r from h, Option.map_some, if_pos (by simp [slot, sequence])]

/-- R31: a record whose deferred claim is raised at the end of a step, closed or not. -/
def Step.resume (st : Step) (closed : Bool) (r : Retiring) : Retiring :=
  if closed then { r with head := st.copied, extra := some (st.newSector, space st.elem.length), deferred := false }
  else { r with deferred := false }

/-- R31: the part at which the record with the deferred claim names the head that the claim is raised on. -/
def resumed (st : Step) (closed : Bool) (p : Part) : Part :=
  modRetiring st.slot st.sequence (fun r => { r with deferred := false }) (if closed then
    addRetiring st.newSector (space st.elem.length) (modRetiring st.slot st.sequence
      (fun r => { r with head := st.copied, extra := some (st.newSector, space st.elem.length) }) p)
    else p)

theorem raiseDeferred_raises {st : Step} {r : Retiring} (hr : p.retiringOf st.slot st.sequence = some r) (hd : r.deferred = true)
    (closed : Bool) : raiseDeferred st closed p = raiseObsolete st.slot st.sequence (resumed st closed p) := by
  unfold raiseDeferred
  rw [hr]
  exact if_pos hd

theorem raiseDeferred_none {st : Step} (h : ∀ r, p.retiringOf st.slot st.sequence = some r → r.deferred = false) (closed : Bool) :
    raiseDeferred st closed p = p := by
  unfold raiseDeferred
  cases hr : p.retiringOf st.slot st.sequence with
  | none => rfl
  | some r => exact if_neg (by rw [h r hr]; exact Bool.false_ne_true)

theorem addRetiring_counts (i n : Nat) (p : Part) : MapStep (recount same same (thenAt i (· + n) same) p.unqueued) (addRetiring i n p) := by
  have same_ : thenAt i id same = same := by funext j m; unfold thenAt; split <;> rfl
  have h := modSector_counts (MapStep.refl p).unqueued i id id (· + n) (.inl rfl)
  rw [same_] at h
  exact judgeSector_mapStep h i

theorem addRetiring_newClaims (h : NewClaims p q) (i n : Nat) : NewClaims p (addRetiring i n q) :=
  judgeSector_newClaims (q := modSector i _ q) h.pee i

/-- R31: what stands of the part when the deferred claim is about to be raised. -/
theorem resumed_spec {st : Step} {r : Retiring} (hr : p.retiringOf st.slot st.sequence = some r) (closed : Bool) :
    (resumed st closed p).retiringOf st.slot st.sequence = some (st.resume closed r) ∧ NewClaims p (resumed st closed p) ∧
      (resumed st closed p).scu = p.scu ∧ (resumed st closed p).rcu.job = p.rcu.job ∧
      (resumed st closed p).smp.sectors.length = p.smp.sectors.length ∧
      ∀ j < p.smp.sectors.length, ((resumed st closed p).sector j).retiring =
        (p.sector j).retiring + (if closed = true ∧ j = st.newSector then space st.elem.length else 0) := by
  cases closed with
  | false =>
    exact ⟨retiringOf_modRetiring hr _ fun _ => rfl, (NewClaims.refl p).pee, rfl, rfl, rfl, fun j _ => (Nat.add_zero _).symm⟩
  | true =>
    let m := modRetiring st.slot st.sequence (fun r => { r with head := st.copied, extra := some (st.newSector, space st.elem.length) }) p
    have counts : MapStep _ (addRetiring st.newSector (space st.elem.length) m) := addRetiring_counts ..
    have named : m.retiringOf st.slot st.sequence = some { r with head := st.copied, extra := some (st.newSector, space st.elem.length) } :=
      retiringOf_modRetiring hr (fun r => { r with head := st.copied, extra := some (st.newSector, space st.elem.length) }) fun _ => rfl
    have found := (retiringOf_of_retiring (congrArg Sdr.retiring counts.sdr) st.slot st.sequence).trans named
    refine ⟨retiringOf_modRetiring found (fun r => { r with deferred := false }) fun _ => rfl,
      (addRetiring_newClaims ((NewClaims.refl p).pee (r := m)) _ _).pee, counts.scu, counts.job,
      counts.length.trans List.length_mapIdx, fun j hj => ?_⟩
    obtain ⟨-, -, -, -, retiring⟩ := counts.counts j
    refine Eq.trans retiring ?_
    rw [recount_sector, if_pos (show j < m.unqueued.smp.sectors.length from hj)]
    simp only [Sector.chg, thenAt, true_and]
    split <;> rfl

/-! ### The end of the step (R35, R132) -/

/-- The part at which a step has ended and its element, when closed, is replaced. -/
def unstepped (st : Step) (closed : Bool) (p : Part) : Part :=
  let p1 : Part := { p with rcu := { p.rcu with step := none, lastKind := some st.kind } }
  modEntry st.slot (fun e => { e with relocating := false }) (if closed then replaceElem st p1 else p1)

theorem endStep_eq {st : Step} (hs : p.rcu.step = some st) (closed : Bool) :
    endStep closed p = settleRestart (settleRunnerSector st (raiseDeferred st closed (unstepped st closed p))) := by
  unfold endStep
  rw [hs]
  rfl

theorem unstepped_replaced (st : Step) (closed : Bool) (p : Part) : Replaced p (unstepped st closed p) := by
  cases closed with
  | false => exact ⟨rfl, rfl, rfl, Nat.le_refl _, rfl, fun _ => ⟨rfl, rfl⟩⟩
  | true =>
    have h := replaceElem_replaced st { p with rcu := { p.rcu with step := none, lastKind := some st.kind } }
    exact ⟨h.retiring, h.scu, h.job, h.age, h.length, h.counts⟩

theorem raiseObsolete_retiringOf_self {s n : Nat} {r : Retiring} (h : p.retiringOf s n = some r) :
    (raiseObsolete s n p).retiringOf s n = some (r.tried 1) := by
  refine (retiringOf_of_retiring ?_ s n).trans (retiringOf_modRetiring h (Retiring.tried · 1) fun _ => rfl)
  rw [raiseObsolete_eq]
  rfl

/-- R44, R132, R136: what settling the runner's sector leaves as it is. -/
theorem settled_kept (st : Step) (p : Part) :
    let q := settleRestart (settleRunnerSector st p)
    q.sdr = p.sdr ∧ q.scu = p.scu ∧ q.rcu.job = p.rcu.job ∧ NewClaims p q ∧ q.smp.sectors.length = p.smp.sectors.length ∧
      (p.mounted = true → ∀ j, (q.sector j).live = (p.sector j).live ∧ (q.sector j).pending = (p.sector j).pending ∧
        (q.sector j).retiring = (p.sector j).retiring) := by
  have runner := settleRunnerSector_spaced st p
  have restart := settleRestart_spaced (settleRunnerSector st p)
  refine ⟨restart.sdr.trans runner.sdr, restart.scu.trans runner.scu, restart.job.trans runner.job,
    settleRestart_newClaims (settleRunnerSector_newClaims (.refl p) st), restart.length.trans runner.length, fun m j => ?_⟩
  have m' : (settleRunnerSector st p).mounted = true := by rw [runner.mounted]; exact m
  obtain ⟨-, -, live, pending, retiring⟩ := (settleRunnerSector_mapStep (.refl p) st m).counts j
  obtain ⟨-, -, live', pending', retiring'⟩ := (settleRestart_mapStep m').counts j
  exact ⟨live'.trans live, pending'.trans pending, retiring'.trans retiring⟩

/-- R31, R35: the end of a step raises the claim deferred on it, on the new copy when it closed it and on the old head when not. -/
theorem endStep_raises {st : Step} {r : Retiring} (hs : p.rcu.step = some st) (hr : p.retiringOf st.slot st.sequence = some r)
    (hd : r.deferred = true) (closed : Bool) :
    let t := st.resume closed r
    Claimed (.obsolete st.slot st.sequence) .mark t.level (.bytes t.head.sector (t.head.offset + 24) [0x00]) p (endStep closed p) ∧
      (endStep closed p).retiringOf st.slot st.sequence = some (t.tried 1) ∧
      (p.mounted = true → ∀ j < p.smp.sectors.length, ((endStep closed p).sector j).retiring =
        (p.sector j).retiring + (if closed = true ∧ j = st.newSector then space st.elem.length else 0)) := by
  have ended := unstepped_replaced st closed p
  have hr' := (retiringOf_of_retiring ended.retiring st.slot st.sequence).trans hr
  obtain ⟨named, raised, scu, -, length, counts⟩ := resumed_spec hr' closed
  rw [endStep_eq hs, raiseDeferred_raises hr' hd]
  generalize resumed st closed (unstepped st closed p) = m at named raised scu length counts
  obtain ⟨sdr, -, -, new, -, kept⟩ := settled_kept st (raiseObsolete st.slot st.sequence m)
  obtain ⟨l, claims, -⟩ := new.claims
  refine ⟨(raiseObsolete_claimed named).mono (ended.age.trans raised.age) ⟨l, claims.symm⟩, ?_, fun mounted j hj => ?_⟩
  · exact (retiringOf_of_retiring (congrArg Sdr.retiring sdr) _ _).trans (raiseObsolete_retiringOf_self named)
  · have mounted' : (raiseObsolete st.slot st.sequence m).mounted = true := by
      rw [raiseObsolete_eq]
      unfold Part.mounted at mounted ⊢
      rw [scu, ended.scu]
      exact mounted
    rw [(kept mounted' j).2.2]
    refine Eq.trans ?_ ((counts j (by rw [ended.length]; exact hj)).trans ?_)
    · rw [raiseObsolete_eq]; rfl
    · rw [(ended.counts j).2]

/-! ### The boundary of the job (R133, R134) -/

/-- R134: a COMPACT's end leaves the directory, the sectors and the engine. -/
theorem endJob_kept (st : Status) (p : Part) :
    (endJob st p).sdr = p.sdr ∧ (endJob st p).smp = p.smp ∧ (endJob st p).pee = p.pee := by
  unfold endJob
  split
  · rename_i j hj
    cases he : Part.queueEntry { p with rcu := { p.rcu with job := none } } j.age with
    | none => rw [completeEntry_absent he]; exact ⟨rfl, rfl, rfl⟩
    | some e => rw [completeEntry_eq he]; exact ⟨rfl, rfl, rfl⟩
  · exact ⟨rfl, rfl, rfl⟩

/-- R133: the job's victim has no live bytes left. -/
def Job.victimEmptied (j : Job) (p : Part) : Bool :=
  match j.victim with
  | some v => decide ((p.sector v).live = 0)
  | none => false

/-- R133: a job at its boundary, with a victim emptied counted. -/
def Job.atBoundary (j : Job) (p : Part) : Job := if j.victimEmptied p then { j with emptied := j.emptied + 1, victim := none } else j

/-- The part with its job at the boundary. -/
def withJob (j : Job) (p : Part) : Part := { p with rcu := { p.rcu with job := some j } }

theorem withJob_self {j : Job} (h : p.rcu.job = some j) : withJob j p = p := by
  unfold withJob
  rw [← h]

theorem jobBoundary_own {st : Step} {j : Job} (hj : p.rcu.job = some j) (hs : st.job = some j.age) : jobBoundary st p =
    let k := j.atBoundary p
    let q := withJob k p
    if k.asked ≤ k.emptied then endJob .ok q
    else if Config.maxAttempts ≤ k.failures then endJob .mediaFault q
    else if abortWaits k.age q then endJob .aborted q
    else q := by
  have counted : modJob (fun j => { j with emptied := j.emptied + 1, victim := none }) p =
      withJob { j with emptied := j.emptied + 1, victim := none } p := by
    unfold modJob withJob
    rw [hj]
    rfl
  unfold jobBoundary Job.atBoundary Job.victimEmptied
  rw [hj]
  dsimp only
  rw [if_pos hs, counted]
  cases j.victim with
  | none => rw [if_neg Bool.false_ne_true, if_neg Bool.false_ne_true, hj, withJob_self hj]
  | some v =>
    dsimp only
    by_cases live : (p.sector v).live = 0
    · simp only [live, decide_true, if_true]
      rfl
    · simp only [live, decide_false, Bool.false_eq_true, if_false, hj, withJob_self hj]

theorem jobBoundary_other {st : Step} (h : ∀ j, p.rcu.job = some j → st.job ≠ some j.age) : jobBoundary st p = p := by
  unfold jobBoundary
  cases hj : p.rcu.job with
  | none => rfl
  | some j => exact if_neg (h j hj)

theorem jobBoundary_kept (st : Step) (p : Part) :
    (jobBoundary st p).sdr = p.sdr ∧ (jobBoundary st p).smp = p.smp ∧ (jobBoundary st p).pee = p.pee := by
  by_cases own : ∃ j, p.rcu.job = some j ∧ st.job = some j.age
  · obtain ⟨j, hj, hs⟩ := own
    rw [jobBoundary_own hj hs]
    dsimp only
    split
    · exact endJob_kept _ _
    · split
      · exact endJob_kept _ _
      · split
        · exact endJob_kept _ _
        · exact ⟨rfl, rfl, rfl⟩
  · rw [jobBoundary_other fun j hj hs => own ⟨j, hj, hs⟩]
    exact ⟨rfl, rfl, rfl⟩

/-! ### Steps that fail (R131, R156) -/

/-- R156: the job once a note of its own step is taken. -/
def Step.noted (st : Step) (n : Note) (o : Option Job) : Option Job :=
  o.map fun j => if st.job = some j.age then { j with notes := withNote n j.notes } else j

theorem noteStepJob_eq {st : Step} (hs : p.rcu.step = some st) (n : Note) :
    noteStepJob n p = { p with rcu := { p.rcu with job := st.noted n p.rcu.job } } := by
  unfold noteStepJob Step.noted
  rw [hs]
  cases hj : p.rcu.job with
  | none => exact congrArg (fun j => ({ p with rcu := { p.rcu with job := j } } : Part)) hj
  | some j =>
    dsimp only [Option.map_some]
    split
    · rfl
    · exact congrArg (fun j => ({ p with rcu := { p.rcu with job := j } } : Part)) hj

theorem finishStep_eq {st : Step} (hs : p.rcu.step = some st) (closed : Bool) :
    finishStep closed p = jobBoundary st (endStep closed p) := by
  unfold finishStep
  rw [hs]

/-- R131: a failed operation of a step ends it unclosed, with the runner's sector suspect. -/
theorem stepFailed_eq {st : Step} (hs : p.rcu.step = some st) : stepFailed p = jobBoundary st (endStep false (countFailure st
    (makeSuspect st.newSector (some .runner) { p with rcu := { p.rcu with job := st.noted .mediaEvent p.rcu.job } }))) := by
  have stands := (makeSuspect_mapStep (.refl { p with rcu := { p.rcu with job := st.noted .mediaEvent p.rcu.job } }) st.newSector
    (some .runner)).step.trans hs
  unfold stepFailed
  rw [hs]
  dsimp only
  rw [noteStepJob_eq hs]
  exact finishStep_eq (p := countFailure st _) stands false

/-- R130: a discard that succeeded, or failed for the last time, ends the step closed. -/
theorem runnerDiscardDone_closes {st : Step} (hs : p.rcu.step = some st) {ok : Bool} (last : ok = true ∨ 2 ≤ st.attempts) :
    runnerDiscardDone ok p = jobBoundary st (endStep true (if ok then p else makeSuspect st.elem.sector none (noteStepJob .mediaEvent p))) := by
  unfold runnerDiscardDone
  rw [hs]
  dsimp only
  split
  · exact finishStep_eq hs true
  · rename_i h
    have : ¬ st.attempts + 1 < Config.maxAttempts := by
      have := last.resolve_left h
      show ¬ st.attempts + 1 < 3
      omega
    have stands := (makeSuspect_mapStep (.refl { p with rcu := { p.rcu with job := st.noted .mediaEvent p.rcu.job } }) st.elem.sector
      none).step.trans hs
    rw [if_neg this, noteStepJob_eq hs]
    exact finishStep_eq stands true

end Sys2Proof.Machine
end

