-- ==== Sys2Proof/Proofs/Switch.lean ====
section
/-! SUPPORT. What a commit's switch makes of the context, the entry and the generation before it, and where a deferred claim is raised. -/
namespace Sys2Proof.Machine

section
variable {c : CtxId} {p : Part}

/-- R95: without a generation before it the context ends at the switch. -/
theorem commitSwitch_first_ends (none_ : p.entryOf (p.ctx c).slot = none) (on : (p.ctx c).ending ≠ some .byRestart) :
    EndedWith c .ok (firstCommitted c p) (commitSwitch c p) := by
  rw [commitSwitch_first none_, if_neg on]
  exact finishEnd_ended c .ok _

/-- R96: with one it stays as it is, and the switch gives no ending reply. -/
theorem commitSwitch_further_waits {e : DirEntry} (he : p.entryOf (p.ctx c).slot = some e) (on : (p.ctx c).ending ≠ some .byRestart) :
    (commitSwitch c p).ctx c = { p.ctx c with commit := .switched } ∧
      ∀ r ∈ (commitSwitch c p).link.replies, r.place = .ending c → r ∈ p.link.replies := by
  obtain ⟨ctx, ⟨l, replies, new⟩, -⟩ := superseded_kept c e p
  rw [commitSwitch_further he, if_neg on]
  refine ⟨ctx, fun r hr place => ?_⟩
  exact (List.mem_append.1 (replies ▸ hr)).resolve_right fun h => new r h c place

/-- R104: after a RESTART it is IDLE and no reply of it is given. -/
theorem commitSwitch_silent (stopped : (p.ctx c).ending = some .byRestart) :
    (∀ r ∈ (commitSwitch c p).link.replies, r.place = .ending c → r ∈ p.link.replies) ∧
      ∃ m : Part, m.ctx c = { p.ctx c with commit := .switched } ∧ EndedSilently c m (commitSwitch c p) := by
  cases he : p.entryOf (p.ctx c).slot with
  | none =>
    have silently := finishEnd_silently c (firstCommitted c p)
    rw [commitSwitch_first he, if_pos stopped]
    refine ⟨fun r hr _ => ?_, _, firstCommitted_ctx c p, silently⟩
    rw [silently.2.2, firstCommitted_replies] at hr
    exact hr
  | some e =>
    obtain ⟨ctx, ⟨l, replies, new⟩, -⟩ := superseded_kept c e p
    have silently := finishEnd_silently c (superseded c e p)
    rw [commitSwitch_further he, if_pos stopped]
    refine ⟨fun r hr place => ?_, _, ctx, silently⟩
    rw [silently.2.2, replies] at hr
    exact (List.mem_append.1 hr).resolve_right fun h => new r h c place

/-- R28, R33: a slot's first generation creates its entry. -/
theorem commitSwitch_creates (none_ : p.entryOf (p.ctx c).slot = none) :
    (commitSwitch c p).entryOf (p.ctx c).slot = some { (p.ctx c).newEntry c with openCtx := none } ∧
      (commitSwitch c p).sdr.retiring = p.sdr.retiring := by
  rw [commitSwitch_first none_]
  refine ⟨?_, finishEnd_retiring.trans firstCommitted_retiring⟩
  rw [finishEnd_entryOf, firstCommitted_entryOf none_, if_pos rfl, firstCommitted_ctx]
  simp [DirEntry.letGo, WriteCtx.newEntry]

section
variable {e : DirEntry} {h : Elem} {es : List Elem}

/-- R28: a superseded generation with extents joins the retiring list. -/
theorem commitSwitch_retires (he : p.entryOf (p.ctx c).slot = some e) (hx : e.extents = h :: es) :
    ∃ r ∈ (commitSwitch c p).sdr.retiring, r.slot = (p.ctx c).slot ∧ r.sequence = e.sequence ∧ r.extents = e.extents ∧
      r.superseded = true := by
  rw [(commitSwitch_further_kept he).1, ← entryOf_slot he]
  exact retire_recorded hx

/-- R29: its first OBSOLETE claim is raised on its head, when no step moves it. -/
theorem commitSwitch_raises (he : p.entryOf (p.ctx c).slot = some e) (hx : e.extents = h :: es)
    (none_ : p.retiringOf (p.ctx c).slot e.sequence = none)
    (still : ¬ (e.relocating = true ∧ ∃ st, p.rcu.step = some st ∧ st.slot = e.slot ∧ st.sequence = e.sequence ∧ st.index = 0)) :
    (commitSwitch c p).sdr.retiring = p.sdr.retiring ++ [(e.record h (p.ctx c).level (waiter c (p.ctx c)) false).tried 1] ∧
      Claimed (.obsolete (p.ctx c).slot e.sequence) .mark (p.ctx c).level (.bytes h.sector (h.offset + 24) [0x00]) p
        (commitSwitch c p) := by
  obtain ⟨retiring, claims, -⟩ := commitSwitch_further_kept he
  obtain ⟨-, listed, -, step⟩ := furtherCommitted_kept c p
  have slot := entryOf_slot he
  have still' := Bool.eq_false_iff.2 ((not_congr (moves_iff e p (furtherCommitted c p) step)).2 still)
  obtain ⟨record, a, age, mem⟩ := retire_raises (level := (p.ctx c).level) (w := waiter c (p.ctx c)) hx
    ((retiringOf_of_retiring listed _ _).trans (slot ▸ none_)) still'
  rw [slot] at mem
  exact ⟨retiring.trans (record.trans (by rw [listed])), a, (furtherCommitted_newClaims c p).age.trans age, (claims _ _ _ rfl).2 mem⟩

/-- R31: while a relocation step of its head runs, the claim is deferred. -/
theorem commitSwitch_defers (he : p.entryOf (p.ctx c).slot = some e) (hx : e.extents = h :: es)
    (moves : e.relocating = true ∧ ∃ st, p.rcu.step = some st ∧ st.slot = e.slot ∧ st.sequence = e.sequence ∧ st.index = 0) :
    (commitSwitch c p).sdr.retiring = p.sdr.retiring ++ [e.record h (p.ctx c).level (waiter c (p.ctx c)) true] ∧
      ∀ d ∈ (commitSwitch c p).pee.claims, d.purpose = .obsolete (p.ctx c).slot e.sequence → d ∈ p.pee.claims := by
  obtain ⟨retiring, claims, -⟩ := commitSwitch_further_kept he
  obtain ⟨-, listed, -, step⟩ := furtherCommitted_kept c p
  obtain ⟨record, waits⟩ := retire_defers (level := (p.ctx c).level) (w := waiter c (p.ctx c)) hx
    ((moves_iff e p (furtherCommitted c p) step).2 moves)
  obtain ⟨l, eq, new⟩ := (furtherCommitted_newClaims c p).claims
  refine ⟨retiring.trans (record.trans (by rw [listed])), fun d hd obsolete => ?_⟩
  have stood := waits d ((claims d _ _ (by rw [obsolete]; rfl)).1 hd) (by rw [obsolete, entryOf_slot he])
  rcases List.mem_append.1 (eq ▸ stood) with old | own
  · exact old
  · rcases (new d own).2 with u | ⟨i, u⟩ <;> rw [u] at obsolete <;> cases obsolete

end
end

/-! ### The end of the step that a claim is deferred on (R31, R35) -/

section
variable {p : Part} {st : Step} {r : Retiring}

/-- What a step's failure leaves, before the step ends, of what the claim is raised from. -/
structure Stands (st : Step) (p m : Part) : Prop where
  step   : m.rcu.step = some st
  sdr    : m.sdr = p.sdr
  scu    : m.scu = p.scu
  claims : NewClaims p m
  length : m.smp.sectors.length = p.smp.sectors.length
  counts : ∀ j, (m.sector j).retiring = (p.sector j).retiring

theorem stands_refl (hs : p.rcu.step = some st) : Stands st p p :=
  ⟨hs, rfl, rfl, .refl p, rfl, fun _ => rfl⟩

theorem stands_of_makeSuspect (hs : p.rcu.step = some st) (i : Nat) (o : Option Holder) (j : Option Job) :
    Stands st p (makeSuspect i o { p with rcu := { p.rcu with job := j } }) := by
  have h := makeSuspect_mapStep (.refl { p with rcu := { p.rcu with job := j } }) i o
  exact ⟨h.step.trans hs, h.sdr, h.scu, makeSuspect_newClaims (NewClaims.refl p).pee i o, h.length, fun n => (h.counts n).2.2.2.2⟩

/-- The job's boundary after the step's end leaves the claim raised. -/
theorem boundary_raises {m : Part} (stands : Stands st p m) (hr : p.retiringOf st.slot st.sequence = some r) (hd : r.deferred = true)
    (closed : Bool) :
    let t := st.resume closed r
    let q := jobBoundary st (endStep closed m)
    Claimed (.obsolete st.slot st.sequence) .mark t.level (.bytes t.head.sector (t.head.offset + 24) [0x00]) p q ∧
      q.retiringOf st.slot st.sequence = some (t.tried 1) ∧
      (p.mounted = true → ∀ j < p.smp.sectors.length, (q.sector j).retiring =
        (p.sector j).retiring + (if closed = true ∧ j = st.newSector then space st.elem.length else 0)) := by
  obtain ⟨claimed, record, retiring⟩ :=
    endStep_raises stands.step ((retiringOf_of_retiring (congrArg Sdr.retiring stands.sdr) _ _).trans hr) hd closed
  obtain ⟨sdr, smp, pee⟩ := jobBoundary_kept st (endStep closed m)
  refine ⟨claimed.mono stands.claims.age (by rw [pee]), ?_, fun mounted j hj => ?_⟩
  · exact (retiringOf_of_retiring (congrArg Sdr.retiring sdr) _ _).trans record
  · have mounted' : m.mounted = true := by unfold Part.mounted at mounted ⊢; rw [stands.scu]; exact mounted
    rw [← stands.counts, ← retiring mounted' j (by rw [stands.length]; exact hj)]
    unfold Part.sector
    rw [smp]

/-- R131: a failed operation of a step raises the deferred claim on the head itself. -/
theorem stepFailed_raises (hs : p.rcu.step = some st) (hr : p.retiringOf st.slot st.sequence = some r) (hd : r.deferred = true) :
    Claimed (.obsolete st.slot st.sequence) .mark r.level (.bytes r.head.sector (r.head.offset + 24) [0x00]) p (stepFailed p) ∧
      (stepFailed p).retiringOf st.slot st.sequence = some { r with deferred := false, attempts := r.attempts + 1 } := by
  have h := stands_of_makeSuspect hs st.newSector (some .runner) (st.noted .mediaEvent p.rcu.job)
  obtain ⟨claimed, record, -⟩ := boundary_raises (m := countFailure st _)
    ⟨h.step, h.sdr, h.scu, h.claims.pee, h.length, h.counts⟩ hr hd false
  rw [stepFailed_eq hs]
  exact ⟨claimed, record⟩

end

/-- Settles O40: the switch of a committed generation, and the OBSOLETE claim that a relocation step of its head defers. -/
theorem commitSwitchesEntry : Obligations.CommitSwitchesEntry := by
  refine ⟨fun p c => ?_, fun p st r i o bs hs hr hd => ⟨fun ok last => ?_, fun u q hq => ?_⟩⟩
  · obtain ⟨ascending, others⟩ := commitSwitch_switches c p
    refine ⟨ascending, others, ⟨fun on none_ => ?_, fun on e he _ => commitSwitch_further_waits he on, commitSwitch_silent⟩,
      fun none_ => ?_, fun e he => ?_⟩
    · exact ⟨_, firstCommitted_ctx c p, firstCommitted_replies, commitSwitch_first_ends none_ on⟩
    · obtain ⟨entry, retiring⟩ := commitSwitch_creates none_
      exact ⟨_, entry, rfl, rfl, rfl, rfl, rfl, rfl, rfl, rfl, rfl, retiring⟩
    · obtain ⟨-, -, x, entry, kept⟩ := commitSwitch_further_kept he
      have slot := entryOf_slot he
      refine ⟨_, entry, rfl, rfl, rfl, rfl, rfl, rfl, rfl, rfl, kept, fun some_ => ?_, fun h es hx none_ => ⟨fun still => ?_, fun moves => ?_⟩⟩
      · obtain ⟨h, es, hx⟩ := List.exists_cons_of_ne_nil some_
        exact commitSwitch_retires he hx
      · have raised := commitSwitch_raises he hx none_ (by rw [slot]; exact still)
        rw [DirEntry.record, slot] at raised
        exact raised
      · have deferred := commitSwitch_defers he hx (by rw [slot]; exact moves)
        rw [DirEntry.record, slot] at deferred
        exact deferred
  · have stands : Stands st p (if ok then p else makeSuspect st.elem.sector none (noteStepJob .mediaEvent p)) := by
      split
      · exact stands_refl hs
      · rw [noteStepJob_eq hs]; exact stands_of_makeSuspect hs ..
    obtain ⟨claimed, record, retiring⟩ := boundary_raises stands hr hd true
    dsimp only [writeEnded]
    rw [runnerDiscardDone_closes hs last]
    exact ⟨claimed, record, by simpa using retiring⟩
  · rcases hq with ⟨hu, rfl⟩ | rfl
    · have failed : writeEnded u i o { ok := false, good := bs } p = stepFailed p := by rcases hu with rfl | rfl | rfl <;> rfl
      rw [failed]
      exact stepFailed_raises hs hr hd
    · obtain ⟨claimed, record, -⟩ := endStep_raises hs hr hd false
      exact ⟨claimed, record⟩

end Sys2Proof.Machine
end

