-- ==== Sys2Proof/Proofs/NoSlot.lean ====
section
/-! SUPPORT. The served requests of a slot that leaves the directory meet NO_SLOT (R105, R118). -/
namespace Sys2Proof.Machine

variable {p q : Part} {v : Serving}

theorem claimWaits_serving_eq_false_iff (a : Nat) (p : Part) : claimWaits (.serving a) p = false ↔ p.claimsOf a = [] := by
  unfold claimWaits Part.claimsOf
  rw [List.any_eq_false, List.filter_eq_nil_iff]
  simp only [beq_iff_eq, decide_eq_true_eq]

/-- R118: while its operation runs, a served request stays to that operation's completion. -/
theorem slotGone_runs (record : p.servingOf v.age = some v) (runs : claimRuns (.serving v.age) p = true) :
    slotGone v.age p = modServing v.age (fun r => { r with gone := true }) p := by
  unfold slotGone
  rw [record]
  exact if_pos runs

theorem slotGone_ends (record : p.servingOf v.age = some v) (rests : claimRuns (.serving v.age) p = false) :
    slotGone v.age p = completeServing v.age .noSlot v.notes (be 2 v.slot) (withdraw (.serving v.age) p) := by
  unfold slotGone
  rw [record]
  exact if_neg (by rw [rests]; exact Bool.false_ne_true)

theorem claimRuns_of_op {o : Owner} (h : q.pee.op = p.pee.op) : claimRuns o q = claimRuns o p := by
  unfold claimRuns
  rw [h]

/-- R118: a served request with no operation running ends with NO_SLOT, whatever is done for the others before and after it. -/
theorem slotGone_endedNoSlot {m : Part} (before : LeavesServed v.age p m) (after : LeavesServed v.age (slotGone v.age m) q)
    (record : p.servingOf v.age = some v) (rests : claimRuns (.serving v.age) p = false) : EndedNoSlot v p q := by
  rw [slotGone_ends (before.record.trans record) ((claimRuns_of_op before.op).trans rests)] at after
  have no_claim : (completeServing v.age .noSlot v.notes (be 2 v.slot) (withdraw (.serving v.age) m)).claimsOf v.age = [] := by
    unfold completeServing
    cases he : (dropServing v.age (withdraw (.serving v.age) m)).queueEntry v.age with
    | none => rw [completeEntry_absent he]; exact claimsOf_withdraw v.age m
    | some e => rw [completeEntry_eq he]; exact claimsOf_withdraw v.age m
  have dropped : (completeServing v.age .noSlot v.notes (be 2 v.slot) (withdraw (.serving v.age) m)).servingOf v.age = none := by
    unfold completeServing
    cases he : (dropServing v.age (withdraw (.serving v.age) m)).queueEntry v.age with
    | none => rw [completeEntry_absent he]; exact servingOf_dropServing_self ..
    | some e => rw [completeEntry_eq he]; exact servingOf_dropServing_self ..
  refine ⟨after.record.trans dropped, ?_, fun f hf => ?_⟩
  · rw [claimWaits_serving_eq_false_iff, after.claims, no_claim]
  · have he : (withdraw (.serving v.age) m).queueEntry v.age = some f := before.entry.trans hf
    rw [completeServing_eq he] at after
    refine ⟨after.entry.trans ?_, after.replies.subset ?_⟩
    · have gone := queueEntry_endedPart_self f .noSlot v.notes (be 2 v.slot) (dropServing v.age (withdraw (.serving v.age) m))
      rwa [queueEntry_age he] at gone
    · simp [endedPart]

/-- R118: the served requests of a list of ages meet NO_SLOT in turn. -/
theorem foldl_slotGone {ages : List Nat} (nd : ages.Nodup) (hv : v.age ∈ ages) (record : p.servingOf v.age = some v) :
    let q := ages.foldl (fun q a => slotGone a q) p
    (claimRuns (.serving v.age) p = true → q.servingOf v.age = some { v with gone := true } ∧ q.queueEntry v.age = p.queueEntry v.age) ∧
    (claimRuns (.serving v.age) p = false → EndedNoSlot v p q) := by
  obtain ⟨m, before, after⟩ := foldl_leavesServed id (fun q a => slotGone a q) (fun a q x h => slotGone_leavesServed h q) ages
    (by rwa [List.map_id]) hv p
  refine ⟨fun runs => ?_, slotGone_endedNoSlot before after record⟩
  have record' := before.record.trans record
  rw [id, slotGone_runs record' ((claimRuns_of_op before.op).trans runs)] at after
  exact ⟨after.record.trans (servingOf_modServing_self (f := fun r => { r with gone := true }) (fun _ => rfl) record'),
    after.entry.trans before.entry⟩

end Sys2Proof.Machine
end

