-- ==== Sys2Proof/Proofs/FormatRun.lean ====
section
/-! SUPPORT. FORMAT: what takes effect at its hand-over (R39, R57, R118, R136, R177), and its runner (R157, R178, R179). -/
namespace Sys2Proof.Machine

/-! ### Spares, counted in any way that reads the sectors alone (R57) -/

theorem installSpares_tables {count : Nat → Part → Nat}
    (reads : ∀ z (q : Part) (zs : List Zone), count z { q with smp := { q.smp with zones := zs } } = count z q) (p : Part) :
    installSpares count p = { p with smp := { p.smp with
      zones := p.smp.zones.mapIdx (fun z r => { r with spareInUse := decide (count z p = 0) }) } } := by
  have upTo (n : Nat) : (List.range n).foldl (fun q z => modZone z (fun r => { r with spareInUse := decide (count z q = 0) }) q) p =
      { p with smp := { p.smp with
        zones := p.smp.zones.mapIdx (fun z r => if z < n then { r with spareInUse := decide (count z p = 0) } else r) } } := by
    induction n with
    | zero => simp [List.mapIdx_eq_zipIdx_map]
    | succ n ih =>
      rw [List.range_succ, List.foldl_concat, ih, modZone, reads]
      refine congrArg (fun zs => ({ p with smp := { p.smp with zones := zs } } : Part)) (List.ext_getElem? fun z => ?_)
      rw [List.getElem?_modify, List.getElem?_mapIdx, List.getElem?_mapIdx]
      rcases Nat.lt_trichotomy z n with h | rfl | h
      · simp [h, Nat.ne_of_gt h, Nat.lt_succ_of_lt h]
      · cases p.smp.zones[z]? <;> simp
      · simp [Nat.not_lt_of_gt h, Nat.ne_of_lt h, Nat.not_lt_of_ge (Nat.succ_le_of_lt h)]
  rw [installSpares, upTo]
  refine congrArg (fun zs => ({ p with smp := { p.smp with zones := zs } } : Part)) (List.ext_getElem? fun z => ?_)
  rw [List.getElem?_mapIdx, List.getElem?_mapIdx]
  by_cases hz : z < p.smp.zones.length
  · simp [hz]
  · rw [List.getElem?_eq_none (by omega)]
    rfl

/-! ### The hand-over -/

theorem zonesFrom_tail (first : Nat) (plan : List (Nat × Nat)) : ∀ z ∈ zonesFrom first plan, z.tail = none := by
  induction plan generalizing first with
  | nil => exact nofun
  | cons y ys ih => exact List.forall_mem_cons.2 ⟨rfl, ih _⟩

/-- R39: withdrawing the claims of retiring records. -/
theorem withdrawRetiring_eq (p : Part) : withdrawRetiring p = { p with pee := { p.pee with
    claims := p.pee.claims.filter (fun c => p.sdr.retiring.all (fun r => !(c.purpose.owner == .retiring r.slot r.sequence))) } } := by
  have each (rs : List Retiring) (q : Part) : rs.foldl (fun q r => withdraw (.retiring r.slot r.sequence) q) q =
      { q with pee := { q.pee with
        claims := q.pee.claims.filter (fun c => rs.all (fun r => !(c.purpose.owner == .retiring r.slot r.sequence))) } } := by
    induction rs generalizing q with
    | nil => simp
    | cons r rs ih =>
      rw [List.foldl_cons, ih]
      unfold withdraw
      dsimp only
      rw [List.filter_filter]
      simp only [List.all_cons, Bool.and_comm]
  exact each _ p

/-- R39, R136, R177: the tables that a FORMAT installs at its hand-over, before the served requests meet NO_SLOT. -/
def formatTables (e : Entry) (plan : List (Nat × Nat)) (notes : Byte) (p : Part) : Part :=
  let p1 := withdraw .reclaim (withdrawRetiring p)
  installSpares available { p1 with
    sdr := { p1.sdr with directory := [], retiring := [], sequence := 1 }
    smp := { sectors := formatSectors p1 plan, zones := zonesFrom 0 plan }
    rcu := { p1.rcu with eraseQueue := [], openBatch := none, evacQueue := [], hold := none, lastKind := none
                         owned := if p1.rcu.step.isSome then p1.rcu.owned else none }
    scu := { p1.scu with store := .formatting, format := nextFormat p1.scu.format, candidates := [],
                         runner := some { position := 0, level := e.level, age := e.age, notes := notes, stopped := false } } }

theorem handOver_format {e : Entry} {n : Nat} {plan : List (Nat × Nat)} (h : e.request = .format n plan) (p : Part) : handOver e p =
    (p.sdr.serving.map (·.age)).foldl (fun q a => slotGone a q) (formatTables e (plan.take n) (notesOf (formatClassCheck p)) p) := by
  unfold handOver
  rw [h]
  rfl

section
variable (e : Entry) (plan : List (Nat × Nat)) (notes : Byte) (p : Part)

/-- R177: what the tables installed leave as it is, and what they hold. -/
theorem formatTables_eq : formatTables e plan notes p = { p with
    sdr := { p.sdr with directory := [], retiring := [], sequence := 1 }
    smp := (formatTables e plan notes p).smp
    pee := { p.pee with claims := (formatTables e plan notes p).pee.claims }
    rcu := { p.rcu with eraseQueue := [], openBatch := none, evacQueue := [], hold := none, lastKind := none
                        owned := if p.rcu.step.isSome then p.rcu.owned else none }
    scu := { p.scu with store := .formatting, format := nextFormat p.scu.format, candidates := [],
                        runner := some { position := 0, level := e.level, age := e.age, notes := notes, stopped := false } } } := by
  unfold formatTables
  rw [withdrawRetiring_eq]
  dsimp only
  rw [installSpares_eq]
  rfl

theorem formatTables_sectors : (formatTables e plan notes p).smp.sectors = formatSectors p plan := by
  unfold formatTables
  rw [withdrawRetiring_eq]
  dsimp only
  rw [installSpares_eq]
  rfl

theorem formatTables_zones : ∃ f : Nat → Bool, (formatTables e plan notes p).smp.zones =
    (zonesFrom 0 plan).mapIdx (fun z r => { r with spareInUse := f z }) := by
  unfold formatTables
  rw [withdrawRetiring_eq]
  dsimp only
  rw [installSpares_eq]
  exact ⟨_, rfl⟩

theorem formatTables_plan : planOf (formatTables e plan notes p) = plan := by
  obtain ⟨f, zones⟩ := formatTables_zones e plan notes p
  unfold planOf
  rw [zones]
  refine Eq.trans (List.ext_getElem? fun z => ?_) (zonesFrom_plan 0 plan)
  rw [List.getElem?_map, List.getElem?_mapIdx, List.getElem?_map, Option.map_map]
  rfl

/-- R40: a zone installed has no tail and no waiting taker. -/
theorem formatTables_zone {z : Zone} (hz : z ∈ (formatTables e plan notes p).smp.zones) : z.tail = none ∧ z.waiting = [] := by
  obtain ⟨f, zones⟩ := formatTables_zones e plan notes p
  rw [zones] at hz
  obtain ⟨i, hi, rfl⟩ := List.mem_mapIdx.1 hz
  have row := List.getElem_mem hi
  exact ⟨(zonesFrom_tail 0 plan _ row :), (zonesFrom_waiting 0 plan _ row :)⟩

/-- R39, R136: the claims that the hand-over withdraws. -/
theorem formatTables_claims : (formatTables e plan notes p).pee.claims =
    (p.pee.claims.filter (fun c => p.sdr.retiring.all (fun r => !(c.purpose.owner == .retiring r.slot r.sequence)))).filter
      (fun c => !(c.purpose.owner == .reclaim)) := by
  unfold formatTables
  rw [withdrawRetiring_eq]
  dsimp only
  rw [installSpares_eq]
  rfl

end

/-- The served requests meet NO_SLOT and leave all else. -/
theorem handOver_format_servedStep {e : Entry} {n : Nat} {plan : List (Nat × Nat)} (h : e.request = .format n plan) (p : Part) :
    ServedStep (formatTables e (plan.take n) (notesOf (formatClassCheck p)) p) (handOver e p) := by
  rw [handOver_format h]
  exact foldl_servedStep (fun _ a hr => slotGone_servedStep hr a) _ (.refl _)

/-! ### The sectors at the hand-over (R177) -/

/-- R170: the store is BLANK as a scan found it. -/
theorem blankSinceScan_iff (p : Part) : blankSinceScan p = true ↔ p.scu.store = .blank ∧ p.smp.zones = [] := by
  unfold blankSinceScan
  simp

/-- R177: a sector of a store that a plan was installed in. -/
theorem formatSectors_table {p : Part} (plan : List (Nat × Nat)) (h : ¬ (p.scu.store = .blank ∧ p.smp.zones = [])) (i : Nat) :
    (formatSectors p plan)[i]? = p.smp.sectors[i]?.map (formatFromTable p plan i) := by
  unfold formatSectors
  rw [if_neg (by rw [blankSinceScan_iff]; exact h), List.getElem?_map, List.getElem?_zipIdx, Option.map_map, Nat.zero_add]
  rfl

theorem formatSectors_scan {p : Part} (plan : List (Nat × Nat)) (h : p.scu.store = .blank ∧ p.smp.zones = []) (i : Nat) :
    (formatSectors p plan)[i]? = p.scu.records[i]?.map (formatFromScan p.scu.records plan i) := by
  unfold formatSectors
  rw [if_pos ((blankSinceScan_iff p).2 h), List.getElem?_map, List.getElem?_zipIdx, Option.map_map, Nat.zero_add]
  rfl

theorem sector_of_getElem? {p : Part} {i : Nat} {s : Sector} (h : p.smp.sectors[i]? = some s) : p.sector i = s := by
  unfold Part.sector
  rw [List.getD_eq_getElem?_getD, h]
  rfl

/-- R175: the erase count taken for a sector without a header read is the highest one read. -/
theorem highest_eraseCount (records : List ScanRecord) :
    let headed (r : ScanRecord) : Prop := r.cls = .walked ∨ r.cls = .bad
    let n := records.foldl (fun m r => if r.cls = .walked ∨ r.cls = .bad then max m r.eraseCount else m) 0
    (∀ x ∈ records, headed x → x.eraseCount ≤ n) ∧ (n = 0 ∨ ∃ x ∈ records, headed x ∧ x.eraseCount = n) := by
  obtain ⟨-, all, att⟩ := foldl_max_spec ScanRecord.eraseCount (records.filter (fun r => decide (r.cls = .walked ∨ r.cls = .bad))) 0
  rw [List.foldl_filter] at all att
  simp only [decide_eq_true_eq, List.mem_filter] at all att
  refine ⟨fun x hx hd => all x ⟨hx, hd⟩, att.imp_right ?_⟩
  rintro ⟨x, ⟨hx, hd⟩, e⟩
  exact ⟨x, hx, hd, e⟩

/-! ### The next batch (R178) -/

/-- R178: the sectors from a position on that are not BAD, with their numbers. -/
def leftFrom (position : Nat) (sectors : List Sector) : List (Sector × Nat) :=
  sectors.zipIdx.filter (fun s => decide (position ≤ s.2) && decide (s.1.state ≠ .bad))

theorem leftFrom_pairwise (position : Nat) (sectors : List Sector) : (leftFrom position sectors).Pairwise (fun a b => a.2 < b.2) := by
  refine List.Pairwise.filter _ (List.pairwise_map.1 (?_ : (sectors.zipIdx.map Prod.snd).Pairwise (· < ·)))
  rw [List.zipIdx_map_snd]
  exact List.pairwise_lt_range'

theorem mem_leftFrom (p : Part) (position : Nat) (x : Sector × Nat) : x ∈ leftFrom position p.smp.sectors ↔
    x.1 = p.sector x.2 ∧ x.2 < p.smp.sectors.length ∧ position ≤ x.2 ∧ (p.sector x.2).state ≠ .bad := by
  unfold leftFrom Part.sector
  rw [List.mem_filter, List.mem_zipIdx_iff_getElem?, List.getD_eq_getElem?_getD]
  by_cases h : x.2 < p.smp.sectors.length
  · simp only [List.getElem?_eq_getElem h, Option.some.injEq, Option.getD_some, h, true_and, Bool.and_eq_true, decide_eq_true_eq]
    constructor
    · rintro ⟨e, b⟩; rw [e]; exact ⟨rfl, b⟩
    · rintro ⟨e, b⟩; rw [← e] at b; exact ⟨e.symm, b⟩
  · simp [h]

/-- R178: no sector is left. -/
theorem leftFrom_eq_nil_iff (p : Part) (position : Nat) : leftFrom position p.smp.sectors = [] ↔
    ∀ i, ¬ (i < p.smp.sectors.length ∧ position ≤ i ∧ (p.sector i).state ≠ .bad) := by
  rw [List.eq_nil_iff_forall_not_mem]
  exact ⟨fun h i left => h (p.sector i, i) ((mem_leftFrom ..).2 ⟨rfl, left⟩), fun h x hx => h x.2 ((mem_leftFrom ..).1 hx).2⟩

/-- R178: the numbers of the sectors left that lie in the zone of the first. -/
def leftInZone (position z : Nat) (sectors : List Sector) : List Nat :=
  ((leftFrom position sectors).filter (fun t => decide (t.1.zone = z))).map (·.2)

theorem leftInZone_pairwise (position z : Nat) (sectors : List Sector) : (leftInZone position z sectors).Pairwise (· < ·) :=
  List.pairwise_map.2 ((leftFrom_pairwise position sectors).filter _)

theorem mem_leftInZone (p : Part) (position z i : Nat) : i ∈ leftInZone position z p.smp.sectors ↔
    (i < p.smp.sectors.length ∧ position ≤ i ∧ (p.sector i).state ≠ .bad) ∧ (p.sector i).zone = z := by
  unfold leftInZone
  simp only [List.mem_map, List.mem_filter, mem_leftFrom, decide_eq_true_eq]
  constructor
  · rintro ⟨x, ⟨⟨e, left⟩, hz⟩, rfl⟩
    exact ⟨left, e ▸ hz⟩
  · rintro ⟨left, hz⟩
    exact ⟨(p.sector i, i), ⟨⟨rfl, left⟩, hz⟩, rfl⟩

theorem formatBatch_nil {position : Nat} {sectors : List Sector} (h : leftFrom position sectors = []) : formatBatch position sectors = [] := by
  unfold formatBatch
  rw [← leftFrom, h]

theorem formatBatch_cons {position : Nat} {sectors : List Sector} {s : Sector × Nat} {rest : List (Sector × Nat)}
    (h : leftFrom position sectors = s :: rest) : formatBatch position sectors = (leftInZone position s.1.zone sectors).take 8 ∧
      ∃ ss, (leftInZone position s.1.zone sectors).take 8 = s.2 :: ss := by
  unfold formatBatch leftInZone
  rw [← leftFrom, h]
  dsimp only
  rw [List.filter_cons_of_pos (by simp), List.map_take]
  exact ⟨rfl, _, rfl⟩

/-- R178: the next batch: the lowest sector left and those left of its zone after it, up to 8 of them. -/
theorem formatBatch_spec (p : Part) (position : Nat) (some_ : ∃ i, i < p.smp.sectors.length ∧ position ≤ i ∧ (p.sector i).state ≠ .bad) :
    let left (i : Nat) : Prop := i < p.smp.sectors.length ∧ position ≤ i ∧ (p.sector i).state ≠ .bad
    ∃ first ss, formatBatch position p.smp.sectors = first :: ss ∧ left first ∧ (∀ i, left i → first ≤ i) ∧
      (first :: ss).Pairwise (· < ·) ∧ (first :: ss).length ≤ 8 ∧ (∀ i ∈ ss, left i ∧ (p.sector i).zone = (p.sector first).zone) ∧
      ∀ i, left i → (p.sector i).zone = (p.sector first).zone → i ∉ first :: ss → (first :: ss).length = 8 ∧ ∀ j ∈ first :: ss, j < i := by
  obtain ⟨s, rest, h⟩ := List.exists_cons_of_ne_nil ((not_congr (leftFrom_eq_nil_iff p position)).2 (by simpa using some_))
  obtain ⟨batch, ss, first⟩ := formatBatch_cons h
  have sorted := leftFrom_pairwise position p.smp.sectors
  rw [h] at sorted
  obtain ⟨head, leftHead⟩ := (mem_leftFrom p position s).1 (h ▸ List.mem_cons_self)
  rw [head] at batch first
  generalize hN : leftInZone position (p.sector s.2).zone p.smp.sectors = N at batch first
  have mem (i : Nat) := mem_leftInZone p position (p.sector s.2).zone i
  have rising := leftInZone_pairwise position (p.sector s.2).zone p.smp.sectors
  rw [hN] at mem rising
  refine ⟨s.2, ss, batch.trans first, leftHead, fun i left => ?_, ?_, ?_, fun i hi => ?_, fun i left hz out => ?_⟩
  · have listed := (mem_leftFrom p position (p.sector i, i)).2 ⟨rfl, left⟩
    rcases List.mem_cons.1 (h ▸ listed) with e | later
    · rw [← e]
    · exact Nat.le_of_lt ((List.pairwise_cons.1 sorted).1 _ later)
  · rw [← first]; exact rising.sublist (List.take_sublist 8 N)
  · rw [← first]; exact (List.length_take_le 8 N)
  · exact (mem i).1 (List.mem_of_mem_take (first ▸ List.mem_cons_of_mem _ hi))
  · rw [← first] at out ⊢
    have split := (List.take_append_drop 8 N)
    have later : i ∈ N.drop 8 :=
      (List.mem_append.1 (split.symm ▸ (mem i).2 ⟨left, hz⟩)).resolve_left out
    refine ⟨?_, fun j hj => ?_⟩
    · have := List.length_pos_of_mem later
      rw [List.length_drop] at this
      rw [List.length_take]
      omega
    · rw [← split, List.pairwise_append] at rising
      exact rising.2.2 j hj i later

/-! ### The runner's reaction (R157, R178, R179) -/

section
variable {p : Part} {f : FormatRun}

/-- R178: the runner rests while a claim of it is outstanding, a batch is in progress or a relocation step runs. -/
theorem format_rests_iff (p : Part) : (claimOutstanding .scan p || p.pee.batch.isSome || p.rcu.step.isSome) = false ↔
    claimOutstanding .scan p = false ∧ p.pee.batch = none ∧ p.rcu.step = none := by
  simp [and_assoc]

theorem formatReact_waits (hf : p.scu.runner = some f)
    (h : ¬ (claimOutstanding .scan p = false ∧ p.pee.batch = none ∧ p.rcu.step = none)) : formatReact p = none := by
  unfold formatReact
  rw [hf]
  exact if_pos (by rw [← format_rests_iff, Bool.not_eq_false] at h; exact h)

section
variable (hf : p.scu.runner = some f) (rests : claimOutstanding .scan p = false ∧ p.pee.batch = none ∧ p.rcu.step = none)
include hf rests

theorem formatReact_ends (none_ : leftFrom f.position p.smp.sectors = []) :
    formatReact p = some (if f.stopped then formatStop p else formatMount f p) := by
  unfold formatReact
  rw [hf]
  dsimp only
  rw [if_neg (by rw [(format_rests_iff p).2 rests]; exact Bool.false_ne_true), formatBatch_nil none_]

theorem formatReact_goes {first : Nat} {ss : List Nat} (batch : formatBatch f.position p.smp.sectors = first :: ss) : formatReact p =
    if f.stopped then some (formatStop p)
    else if abortWaits f.age p then some (formatAbort f p)
    else some (raise .formatErase .erase f.level (.sectors (first :: ss)) p) := by
  unfold formatReact
  rw [hf]
  dsimp only
  rw [if_neg (by rw [(format_rests_iff p).2 rests]; exact Bool.false_ne_true), batch]

/-- R179: a stopped FORMAT leaves a BLANK store, wherever it stands. -/
theorem formatReact_stopped (stopped : f.stopped = true) : formatReact p = some (formatStop p) := by
  by_cases none_ : leftFrom f.position p.smp.sectors = []
  · rw [formatReact_ends hf rests none_, if_pos stopped]
  · obtain ⟨first, ss, batch, -⟩ := formatBatch_spec p f.position (by
      simpa using (not_congr (leftFrom_eq_nil_iff p f.position)).1 none_)
    rw [formatReact_goes hf rests batch, if_pos stopped]

end

/-- R179: what the stop of a FORMAT leaves. -/
theorem formatStop_stops (p : Part) : (formatStop p).scu = { p.scu with store := .blank, runner := none } ∧
    claimWaits .scan (formatStop p) = false ∧ (formatStop p).smp = p.smp ∧ (formatStop p).sdr = p.sdr := by
  refine ⟨rfl, ?_, rfl, rfl⟩
  unfold claimWaits formatStop withdraw
  simp

theorem formatAbort_eq {e : Entry} (he : p.queueEntry f.age = some e) :
    formatAbort f p = endedPart e .aborted f.notes (be 2 p.scu.format) (formatStop p) :=
  completeEntry_eq (p := formatStop p) he _ _ _

/-- R57, R170, R179: what the mount of a formatted store installs. -/
theorem formatMount_spec {e : Entry} (he : p.queueEntry f.age = some e) :
    (formatMount f p).scu = { p.scu with store := .mounted, records := [], runner := none } ∧
      (formatMount f p).smp.sectors = p.smp.sectors ∧ (formatMount f p).rqs = (endedPart e .ok f.notes (be 2 p.scu.format) p).rqs ∧
      (formatMount f p).link.replies = (endedPart e .ok f.notes (be 2 p.scu.format) p).link.replies ∧
      (∀ r, p.link.conds[0]? = some r → ∃ t, (formatMount f p).link.conds[0]? = some t ∧ t.set = true) ∧
      (formatMount f p).smp.zones = p.smp.zones.mapIdx (fun z r => { r with spareInUse := decide (countState z .free p = 0) }) := by
  let p2 : Part := setCond .mounted { p with scu := { p.scu with store := .mounted, records := [], runner := none } }
  let spares := fun (z : Nat) (r : Zone) => { r with spareInUse := decide (countState z .free p = 0) }
  have installed : installSpares (fun z q => countState z .free q) p2 = { p2 with smp := { p.smp with zones := p.smp.zones.mapIdx spares } } :=
    installSpares_tables (fun _ _ _ => rfl) p2
  have ended : formatReply f .ok { p2 with smp := { p.smp with zones := p.smp.zones.mapIdx spares } } = endedPart e .ok f.notes
      (be 2 p.scu.format) { p2 with smp := { p.smp with zones := p.smp.zones.mapIdx spares } } :=
    completeEntry_eq (p := { p2 with smp := { p.smp with zones := p.smp.zones.mapIdx spares } }) he _ _ _
  obtain ⟨cs, reported, first⟩ := reportAll_eq (endedPart e .ok f.notes (be 2 p.scu.format)
    { p2 with smp := { p.smp with zones := p.smp.zones.mapIdx spares } })
  have mount : formatMount f p = openBatch (reportAll (formatReply f .ok (installSpares (fun z q => countState z .free q) p2))) := rfl
  rw [mount, installed, ended, reported, openBatch_eq]
  refine ⟨rfl, rfl, rfl, rfl, fun r hr => ?_, rfl⟩
  refine ⟨{ r with set := true }, first.trans ?_, rfl⟩
  show (p.link.conds.modify 0 _)[0]? = _
  rw [List.getElem?_modify_eq, hr]
  rfl

end

end Sys2Proof.Machine
end

