-- ==== Sys2Proof/Proofs/FormatHandOver.lean ====
section
/-! SUPPORT. The hand-over of a FORMAT, with the served requests that meet NO_SLOT, and the FORMAT's runner. -/
namespace Sys2Proof.Machine

theorem ServedStep.claimWaits {p q : Part} (h : ServedStep p q) {o : Owner} (ho : ∀ a, o ≠ .serving a) :
    claimWaits o q = claimWaits o p := by
  have same_ (d : Claim) : (d ∈ q.pee.claims ∧ (d.purpose.owner == o) = true) ↔ (d ∈ p.pee.claims ∧ (d.purpose.owner == o) = true) :=
    and_congr_left fun e => h.claims d fun a => by rw [beq_iff_eq.1 e]; exact ho a
  unfold Machine.claimWaits
  rw [Bool.eq_iff_iff, List.any_eq_true, List.any_eq_true]
  exact exists_congr same_

section
variable {e : Entry} {n : Nat} {plan : List (Nat × Nat)} (request : e.request = .format n plan) (p : Part)
include request

/-- R39, R136: the claims of the retiring records and of the Reclaim Unit are withdrawn. -/
theorem handOver_format_withdraws : (∀ r ∈ p.sdr.retiring, claimWaits (.retiring r.slot r.sequence) (handOver e p) = false) ∧
    claimWaits .reclaim (handOver e p) = false := by
  have h := handOver_format_servedStep request p
  refine ⟨fun r hr => ?_, ?_⟩
  · rw [h.claimWaits (fun _ x => by cases x), claimWaits, formatTables_claims, List.any_eq_false]
    intro d hd own
    have kept := (List.mem_filter.1 (List.mem_filter.1 hd).1).2
    rw [List.all_eq_true] at kept
    simpa [beq_iff_eq.1 own] using kept r hr
  · rw [h.claimWaits (fun _ x => by cases x), claimWaits, formatTables_claims, List.any_eq_false]
    intro d hd own
    simpa [beq_iff_eq.1 own] using (List.mem_filter.1 hd).2

/-- R118: the served requests meet NO_SLOT, at once or at their running operation's completion. -/
theorem handOver_format_serving (nd : (p.sdr.serving.map (·.age)).Nodup) {v : Serving} (hv : v ∈ p.sdr.serving) :
    (claimRuns (.serving v.age) p = true →
      (handOver e p).servingOf v.age = some { v with gone := true } ∧ (handOver e p).queueEntry v.age = p.queueEntry v.age) ∧
    (claimRuns (.serving v.age) p = false → EndedNoSlot v p (handOver e p)) := by
  have tables := formatTables_eq e (plan.take n) (notesOf (formatClassCheck p)) p
  have record : (formatTables e (plan.take n) (notesOf (formatClassCheck p)) p).servingOf v.age = some v := by
    rw [tables]; exact servingOf_of_mem nd hv
  have runs : claimRuns (.serving v.age) (formatTables e (plan.take n) (notesOf (formatClassCheck p)) p) = claimRuns (.serving v.age) p := by
    rw [tables]; rfl
  have entry : (formatTables e (plan.take n) (notesOf (formatClassCheck p)) p).queueEntry v.age = p.queueEntry v.age := by
    rw [tables]; rfl
  obtain ⟨stays, ends⟩ := foldl_slotGone nd (List.mem_map_of_mem hv) record
  rw [handOver_format request]
  refine ⟨fun h => ?_, fun h => ?_⟩
  · obtain ⟨gone, queued⟩ := stays (runs.trans h)
    exact ⟨gone, queued.trans entry⟩
  · obtain ⟨gone, claim, reply⟩ := ends (runs.trans h)
    exact ⟨gone, claim, fun f hf => reply f (entry.trans hf)⟩

theorem handOver_format_sector (i : Nat) : (handOver e p).sector i = (formatSectors p (plan.take n)).getD i Sector.cold := by
  rw [(handOver_format_servedStep request p).sector, Part.sector, formatTables_sectors]

/-- R177: a sector's entry after the hand-over over a plan installed before. -/
theorem handOver_format_table (planned : ¬ (p.scu.store = .blank ∧ p.smp.zones = [])) {i : Nat} {s : Sector} (hs : p.smp.sectors[i]? = some s) :
    (handOver e p).sector i = formatFromTable p (plan.take n) i s := by
  rw [handOver_format_sector request, List.getD_eq_getElem?_getD, formatSectors_table _ planned, hs]
  rfl

/-- R177: a sector's entry after the hand-over in a store BLANK as a scan found it. -/
theorem handOver_format_scan (scanned : p.scu.store = .blank ∧ p.smp.zones = []) {i : Nat} {r : ScanRecord} (hr : p.scu.records[i]? = some r) :
    (handOver e p).sector i = formatFromScan p.scu.records (plan.take n) i r := by
  rw [handOver_format_sector request, List.getD_eq_getElem?_getD, formatSectors_scan _ scanned, hr]
  rfl

end

theorem formatFromTable_bad {p : Part} {plan : List (Nat × Nat)} {i : Nat} {s : Sector} (h : s.state = .bad) :
    (formatFromTable p plan i s).state = .bad := by
  unfold formatFromTable
  rw [if_pos (.inl h)]
  exact h

/-- R177: a sector that is not BAD and that neither a step nor a batch holds becomes STALE and empty. -/
theorem formatFromTable_stale {p : Part} {i : Nat} {s : Sector} (plan : List (Nat × Nat)) (h : s.state ≠ .bad)
    (free : s.owner ≠ some .runner ∨ p.rcu.step = none) (out : i ∉ batchSectors p) : formatFromTable p plan i s =
      { s with zone := zoneOfSector plan i, state := .stale, live := 0, pending := 0, retiring := 0, owner := none } := by
  unfold formatFromTable
  refine if_neg ?_
  rintro (bad | ⟨owner, step⟩ | batch)
  · exact h bad
  · rcases free with free | free
    · exact free owner
    · rw [free] at step; exact Bool.false_ne_true step
  · exact out (by simpa using batch)

/-- Settles O39: what takes effect at a FORMAT's hand-over, and what its runner does. -/
theorem formatRuns : Obligations.FormatRuns := by
  refine ⟨fun p e n plan request => ?_, fun p f hf => ⟨formatReact_waits hf, fun rests stopped => ?_, fun rests going full e he => ?_,
    fun rests going some_ => ?_⟩⟩
  · have served := handOver_format_servedStep request p
    have tables := formatTables_eq e (plan.take n) (notesOf (formatClassCheck p)) p
    obtain ⟨retiring, reclaim⟩ := handOver_format_withdraws request p
    have no_record (s m : Nat) : (handOver e p).retiringOf s m = none := by
      rw [retiringOf_of_retiring served.retiring, tables]; rfl
    refine ⟨?_, ?_, ?_, ?_, ?_, ?_, ?_, ?_, ?_, ?_, ?_, ?_, fun idle => ?_, retiring, reclaim, fun s m i o res => ?_, ?_,
      fun nd v hv => handOver_format_serving request p nd hv, fun planned i s hs => ⟨fun bad => ?_, fun ok free out => ?_⟩,
      fun scanned i r hr => ?_⟩
    · rw [served.scu, tables]
    · rw [served.scu, tables]; rfl
    · rw [served.directory, tables]
    · rw [served.retiring, tables]
    · rw [served.sdr, tables]
    · rw [served.rcu, tables]
    · rw [served.rcu, tables]
    · rw [served.rcu, tables]
    · rw [served.rcu, tables]
    · rw [planOf, served.smp]; exact formatTables_plan ..
    · rw [served.smp]; exact fun z hz => formatTables_zone _ _ _ _ hz
    · rw [served.scu, tables]
    · rw [served.rcu, tables, idle]; rfl
    · show obsoleteDone s m res.ok _ = _
      unfold obsoleteDone
      rw [no_record]
    · have kept : (formatTables e (plan.take n) (notesOf (formatClassCheck p)) p).link = p.link := by rw [tables]
      obtain ⟨l, replies, -⟩ := served.replies
      rw [replies, kept]
      exact List.prefix_append ..
    · rw [handOver_format_table request p planned hs]
      exact formatFromTable_bad bad
    · rw [handOver_format_table request p planned hs, formatFromTable_stale _ ok free out]
      exact ⟨rfl, rfl, rfl, rfl, rfl, rfl⟩
    · obtain ⟨all, att⟩ := highest_eraseCount p.scu.records
      rw [handOver_format_scan request p scanned hr]
      dsimp only [formatFromScan]
      refine ⟨rfl, rfl, rfl, rfl, rfl, rfl, fun bad => if_pos bad, fun ok => if_neg ok, fun headed => ?_, fun bare => ?_⟩
      · exact if_pos (by simpa using headed)
      · rw [if_neg (by simpa using bare)]
        exact ⟨all, att⟩
  · exact ⟨_, formatReact_stopped hf rests stopped, formatStop_stops p, rfl, rfl⟩
  · obtain ⟨scu, sectors, rqs, replies, cond, zones⟩ := formatMount_spec (f := f) he
    refine ⟨_, formatReact_ends hf rests ((leftFrom_eq_nil_iff p f.position).2 full), ?_⟩
    rw [going, if_neg Bool.false_ne_true]
    refine ⟨scu, sectors, rqs, replies, cond, fun z r hz => ?_⟩
    rw [Part.zone, zones, List.getElem?_mapIdx, Option.map_eq_some_iff] at hz
    obtain ⟨x, -, rfl⟩ := hz
    simp [countState, sectors]
  · obtain ⟨first, ss, batch, leftFirst, lowest, rising, len, same_, most⟩ := formatBatch_spec p f.position some_
    have goes := formatReact_goes hf rests batch
    rw [going, if_neg Bool.false_ne_true] at goes
    refine ⟨fun e he waits => ?_, fun waits => ?_⟩
    · rw [if_pos (by rw [abortWaits, he]; exact waits), formatAbort_eq he] at goes
      exact ⟨_, goes, formatStop_stops p, rfl, rfl⟩
    · have no_abort : ¬ abortWaits f.age p = true := by
        unfold abortWaits
        split
        · rename_i e he; rw [waits e he]; exact Bool.false_ne_true
        · exact Bool.false_ne_true
      rw [if_neg no_abort] at goes
      exact ⟨_, first, ss, goes, raise_raised .., leftFirst, lowest, rising, len, same_, most⟩

end Sys2Proof.Machine
end

