-- ==== Sys2Proof/Proofs/Takers.lean ====
section
/-! SUPPORT. A zone's waiting takers (R43, R53, R54, R89): which one is answered, from what, and what the answer leaves. -/
namespace Sys2Proof.Machine

variable {p : Part} {z : Nat} {r : Zone} {c : CtxId}

/-- R54: the taker chosen has the highest level, and no earlier joiner has it too. -/
theorem bestTaker_spec (p : Part) (l : List CtxId) (h : l ≠ []) : ∃ c earlier later, bestTaker p l = some c ∧
    l = earlier ++ c :: later ∧ (∀ d ∈ earlier, (p.ctx d).level < (p.ctx c).level) ∧ (∀ d ∈ later, (p.ctx d).level ≤ (p.ctx c).level) := by
  induction l with
  | nil => exact absurd rfl h
  | cons x l ih =>
    unfold bestTaker
    cases l with
    | nil => exact ⟨x, [], [], rfl, rfl, nofun, nofun⟩
    | cons y l =>
      obtain ⟨d, earlier, later, best, split_, lower, upper⟩ := ih (by simp)
      rw [best]
      dsimp only
      split
      · rename_i less
        exact ⟨d, x :: earlier, later, rfl, by rw [split_]; rfl, List.forall_mem_cons.2 ⟨less, lower⟩, upper⟩
      · rename_i most
        refine ⟨x, [], y :: l, rfl, rfl, nofun, fun e he => ?_⟩
        rw [split_] at he
        rcases List.mem_append.1 he with he | he
        · exact (Nat.le_of_lt (lower e he)).trans (Nat.le_of_not_lt most)
        · rcases List.mem_cons.1 he with rfl | he
          · exact Nat.le_of_not_lt most
          · exact (upper e he).trans (Nat.le_of_not_lt most)

theorem waitingIn_eq (hz : p.zone z = some r) : waitingIn z p = r.waiting := by
  unfold waitingIn
  rw [hz]

/-! ### The answers -/

theorem answerTaker_none (hz : p.zone z = some r) (none_ : r.waiting = []) : answerTaker z p = none := by
  unfold answerTaker
  rw [hz, waitingIn_eq hz, none_]
  rfl

section
variable (hz : p.zone z = some r) (best : bestTaker p r.waiting = some c)
include hz best

theorem answerTaker_tail {t : Nat} (tail : r.tail = some t) : answerTaker z p = some (raiseFirst c t (takeTail c t (removeTaker c p))) := by
  unfold answerTaker
  rw [hz, waitingIn_eq hz, best]
  dsimp only
  rw [tail]

theorem answerTaker_free (tail : r.tail = none) {i : Nat} (free : LowestFree z i p) : answerTaker z p =
    some (if ctxEntitled (p.ctx c) p then raiseFirst c i (takeFree c i (removeTaker c p)) else failTaker c p) := by
  have entitled : ctxEntitled ((removeTaker c p).ctx c) (removeTaker c p) = ctxEntitled (p.ctx c) p := rfl
  unfold answerTaker
  rw [hz, waitingIn_eq hz, best]
  dsimp only
  rw [tail, (lowestFree_iff z i p).2 free]
  dsimp only
  rw [entitled]
  exact (apply_ite some ..).symm

theorem answerTaker_full (tail : r.tail = none) (none_ : NoneFree z p) : answerTaker z p =
    if available z p = 0 then some ((takersFrom c z p).foldl (fun q d => failTaker d q) p) else none := by
  unfold answerTaker
  rw [hz, waitingIn_eq hz, best]
  dsimp only
  rw [tail, (lowestFree_none z p).2 none_]

end

/-! ### A sector taken -/

theorem removeTaker_isWaiting (c : CtxId) (p : Part) : isWaiting c (removeTaker c p) = false := by
  unfold isWaiting removeTaker
  simp

theorem takeTail_ctx (c : CtxId) (t : Nat) (p : Part) : (takeTail c t p).ctx c = { p.ctx c with owned := some t } := by
  unfold takeTail
  rw [modCtx_ctx]
  rfl

theorem takeTail_sector (c : CtxId) {t : Nat} (ht : t < p.smp.sectors.length) :
    (takeTail c t p).sector t = { p.sector t with state := .owned, owner := some (.ctx c) } := by
  unfold takeTail
  rw [modCtx_sector]
  exact sector_modSector_self (p := clearTail t p) ht _

theorem takeTail_kept (c : CtxId) (t : Nat) (p : Part) : (takeTail c t p).pee = p.pee ∧ ∀ d, isWaiting d (takeTail c t p) = isWaiting d p := by
  unfold takeTail
  refine ⟨modCtx_pee .., fun d => ?_⟩
  unfold isWaiting
  rw [modCtx_smp]
  unfold modSector clearTail
  dsimp only
  rw [List.any_map]
  congr 1
  funext z
  dsimp only [Function.comp]
  split <;> rfl

/-- R43: the part at which a context has taken a FREE sector, before its report. -/
def tookFree (c : CtxId) (i : Nat) (p : Part) : Part :=
  let q := modCtx c (fun k => { k with owned := some i, reservation := k.reservation - 1 })
    (modSector i (fun s => { s with state := .owned, owner := some (.ctx c) }) p)
  if 1 ≤ (p.ctx c).reservation then liftHold (p.ctx c).zone q else q

theorem takeFree_eq (c : CtxId) (i : Nat) (p : Part) : takeFree c i p = reportFree (p.ctx c).zone (tookFree c i p) := rfl

theorem tookFree_kept (c : CtxId) (i : Nat) (p : Part) :
    (tookFree c i p).smp = (modSector i (fun s => { s with state := .owned, owner := some (.ctx c) }) p).smp ∧
      (tookFree c i p).pee = p.pee ∧ (tookFree c i p).ctx c = { p.ctx c with owned := some i, reservation := (p.ctx c).reservation - 1 } := by
  unfold tookFree
  dsimp only
  split
  · rw [liftHold_smp, liftHold_pee, liftHold_ctx]
    exact ⟨modCtx_smp .., modCtx_pee .., modCtx_ctx ..⟩
  · exact ⟨modCtx_smp .., modCtx_pee .., modCtx_ctx ..⟩

theorem reportFree_pee (z : Nat) (p : Part) : (reportFree z p).pee = p.pee := by
  obtain ⟨_, e, -⟩ := reportFree_eq z p
  rw [e]

/-- R89: with fewer than 72 extents the first stage is raised. -/
theorem raiseFirst_raises {i : Nat} (room : (p.ctx c).written.length < 72) : raiseFirst c i p =
    raise (.ctxFirst c) .program (p.ctx c).level
      (.bytes i (p.sector i).nextWrite (firstStageBytes (p.ctx c).slot (p.ctx c).sequence (p.ctx c).written.length 0
        (if (p.ctx c).written.length = 0 then some ((p.ctx c).cls, (p.ctx c).total) else none) false)) p := by
  have : ¬ (p.ctx c).written.length = Config.maxExtents := by
    show ¬ (p.ctx c).written.length = 72
    omega
  unfold raiseFirst
  rw [if_neg this]

/-- R54, R89: a taker that a sector is given to has its first stage raised and waits no more. -/
theorem raiseFirst_taken {q : Part} {i units : Nat} (room : (p.ctx c).written.length < 72) (pee : q.pee = p.pee)
    (ctx : q.ctx c = { p.ctx c with owned := some i, reservation := (p.ctx c).reservation - units })
    (sector : q.sector i = { p.sector i with state := .owned, owner := some (.ctx c) }) (waits : isWaiting c q = false) :
    RaisedFirst c i p (raiseFirst c i q) ∧ (raiseFirst c i q).sector i = { p.sector i with state := .owned, owner := some (.ctx c) } ∧
      (raiseFirst c i q).ctx c = { p.ctx c with owned := some i, reservation := (p.ctx c).reservation - units } ∧
      isWaiting c (raiseFirst c i q) = false := by
  have raises := raiseFirst_raises (p := q) (c := c) (i := i) (by rw [ctx]; exact room)
  rw [ctx, sector] at raises
  rw [raises]
  refine ⟨?_, ?_, ?_, ?_⟩
  · unfold RaisedFirst Raised
    rw [raise_claims, pee]
  · rw [sector_of_smp (raise_smp ..)]; exact sector
  · rw [raise_ctx]; exact ctx
  · unfold isWaiting; rw [raise_smp]; exact waits

/-! ### A taker that fails -/

/-- R54, R97: a taker that fails with no operation granted ends with NO_SPACE. -/
theorem failTaker_ended (rests : claimRuns (.ctx c) p = false) : EndedWith c .noSpace p (failTaker c p) := by
  have ended : EndedWith c .noSpace (removeTaker c p) (failTaker c p) := endCtx_ended (p := removeTaker c p) rests
  exact ended

theorem failTaker_eq (rests : claimRuns (.ctx c) p = false) : failTaker c p = finishEnd c (some .noSpace) (removeTaker c p) := by
  have : claimRuns (.ctx c) (removeTaker c p) = false := rests
  unfold failTaker endCtx
  rw [this, if_neg Bool.false_ne_true]

/-- R54: the takers that fail together. -/
theorem takersFrom_eq (hz : p.zone z = some r) (c : CtxId) :
    takersFrom c z p = c :: allCtx.filter (fun d => decide (d ≠ c) && r.waiting.contains d) := by
  unfold takersFrom
  rw [waitingIn_eq hz]

theorem takersFrom_alone (hz : p.zone z = some r) (alone : ∀ d ∈ r.waiting, d = c) : takersFrom c z p = [c] := by
  rw [takersFrom_eq hz, List.filter_eq_nil_iff.2]
  intro d _
  by_cases h : d ∈ r.waiting
  · simp [alone d h]
  · simp [h]

theorem takersFrom_two (hz : p.zone z = some r) {d : CtxId} (hd : d ∈ r.waiting) (other : d ≠ c) : takersFrom c z p = [c, d] := by
  rw [takersFrom_eq hz]
  cases c <;> cases d <;> simp_all [allCtx]

end Sys2Proof.Machine
end

