-- ==== Sys2Proof/Proofs/LetsGo.lean ====
section
/-! SUPPORT. What the end of a context leaves of the contexts' sectors: each is kept or given up (`OwnedFalls`), and a sector that
nothing can write in or judge stands as it is (`Aside`). One lemma for each operation, in the form "if `q` follows `p`, so does the
operation on `q`". -/
namespace Sys2Proof.Machine

/-! ### Sectors owned -/

/-- In `q` a context owns the sector it owns in `p`, or none. -/
def OwnedFalls (p q : Part) : Prop := ∀ c, (q.ctx c).owned = (p.ctx c).owned ∨ (q.ctx c).owned = none

section
variable {p q : Part}

theorem OwnedFalls.refl (p : Part) : OwnedFalls p p := fun _ => .inl rfl

theorem OwnedFalls.wcu (h : OwnedFalls p q) {r : Part} (e : r.wcu = q.wcu := by rfl) : OwnedFalls p r := fun c => by
  rw [ctx_of_wcu e]
  exact h c

theorem modCtx_ownedFalls (h : OwnedFalls p q) (c : CtxId) (f : WriteCtx → WriteCtx)
    (hf : ∀ k, (f k).owned = k.owned ∨ (f k).owned = none) : OwnedFalls p (modCtx c f q) := fun d => by
  by_cases hd : d = c
  · subst hd
    rw [modCtx_ctx]
    rcases hf (q.ctx d) with e | e
    · rw [e]; exact h d
    · exact .inr e
  · rw [modCtx_ctx_other hd]; exact h d

theorem judgeSector_ownedFalls (h : OwnedFalls p q) (i : Nat) : OwnedFalls p (judgeSector i q) := h.wcu (judgeSector_wcu i q)

theorem dropOwner_ownedFalls (h : OwnedFalls p q) (i : Nat) : OwnedFalls p (dropOwner i q) := by
  unfold dropOwner
  split
  · exact (modCtx_ownedFalls h _ _ fun _ => .inr rfl).wcu
  · exact h.wcu
  · exact h.wcu

theorem sealSector_ownedFalls (h : OwnedFalls p q) (i : Nat) : OwnedFalls p (sealSector i q) :=
  judgeSector_ownedFalls (dropOwner_ownedFalls h i).wcu i

theorem giveUp_ownedFalls (h : OwnedFalls p q) (i : Nat) : OwnedFalls p (giveUp i q) := by
  have dropped := dropOwner_ownedFalls h i
  unfold giveUp
  dsimp only
  split
  · exact dropped.wcu
  · split
    · split
      · split
        · exact dropped.wcu
        · split
          · exact (sealSector_ownedFalls dropped _).wcu
          · exact sealSector_ownedFalls dropped i
      · exact sealSector_ownedFalls dropped i
    · exact sealSector_ownedFalls dropped i

theorem subPending_ownedFalls (h : OwnedFalls p q) (i n : Nat) : OwnedFalls p (subPending i n q) :=
  judgeSector_ownedFalls (q := modSector i _ q) h.wcu i

theorem releasePending_ownedFalls (h : OwnedFalls p q) (k : WriteCtx) : OwnedFalls p (releasePending k q) := by
  have each : OwnedFalls p (k.written.foldl (fun q w => subPending w.sector (space w.length) q) q) := by
    generalize k.written = ws
    induction ws generalizing q with
    | nil => exact h
    | cons w ws ih => exact ih (subPending_ownedFalls h _ _)
  unfold releasePending
  dsimp only
  split
  · exact subPending_ownedFalls each _ _
  · exact each

/-- R97 step 4: a context gives its sector up, past the end of an extent left unclosed in it. -/
theorem giveUpCtx_owned {k : WriteCtx} {i : Nat} (hk : k.owned = some i) (p : Part) :
    ∃ f : Sector → Sector, giveUpCtx k p = giveUp i (modSector i f p) := by
  have keep : p = modSector i id p := by unfold modSector; rw [List.modify_id]
  have given (unclosed : Bool) : ∃ f : Sector → Sector,
      giveUp i (if unclosed then modSector i (fun s => { s with nextWrite := Config.sectorSize }) p else p) = giveUp i (modSector i f p) := by
    cases unclosed with
    | true => exact ⟨_, rfl⟩
    | false => exact ⟨id, by rw [← keep]; rfl⟩
  unfold giveUpCtx
  rw [hk]
  exact given _

theorem giveUpCtx_none {k : WriteCtx} (hk : k.owned = none) (p : Part) : giveUpCtx k p = p := by
  unfold giveUpCtx
  rw [hk]

theorem giveUpCtx_ownedFalls (h : OwnedFalls p q) (k : WriteCtx) : OwnedFalls p (giveUpCtx k q) := by
  cases hk : k.owned with
  | none => rw [giveUpCtx_none hk]; exact h
  | some i =>
    obtain ⟨f, e⟩ := giveUpCtx_owned hk q
    rw [e]
    exact giveUp_ownedFalls h.wcu i

theorem returnReservation_ownedFalls (h : OwnedFalls p q) (c : CtxId) : OwnedFalls p (returnReservation c q) := by
  obtain ⟨_, _, e, -, -⟩ := returnReservation_eq c q
  rw [e]
  exact (modCtx_ownedFalls h c (fun k => { k with reservation := 0 }) fun _ => .inl rfl).wcu

theorem released_ownedFalls (c : CtxId) (p : Part) : OwnedFalls p (released c p) := by
  have start : OwnedFalls p (removeTaker c (withdraw (.ctx c) p)) := (OwnedFalls.refl p).wcu
  unfold released
  refine OwnedFalls.wcu (returnReservation_ownedFalls (giveUpCtx_ownedFalls ?_ _) c)
  split
  · exact start
  · exact releasePending_ownedFalls start _

theorem finishEnd_ownedFalls (c : CtxId) (st : Option Status) (p : Part) : OwnedFalls p (finishEnd c st p) := by
  rw [finishEnd_released]
  cases st with
  | none => exact modCtx_ownedFalls (released_ownedFalls c p) c _ fun _ => .inr rfl
  | some s => exact (modCtx_ownedFalls (released_ownedFalls c p) c _ fun _ => .inr rfl).wcu

/-- R97: a context without a sector stands as it is at the end of another. -/
theorem finishEnd_ctx_other {c d : CtxId} (h : d ≠ c) (st : Option Status) {p : Part} (none_ : (p.ctx d).owned = none) :
    (finishEnd c st p).ctx d = p.ctx d := by
  have owned : ((finishEnd c st p).ctx d).owned = none := by
    rcases finishEnd_ownedFalls c st p d with e | e
    · exact e.trans none_
    · exact e
  have ctx : (finishEnd c st p).ctx d = (released c p).ctx d := by
    rw [finishEnd_released]
    cases st with
    | none => exact modCtx_ctx_other h _ _
    | some s => exact (pushReply_ctx ..).trans (modCtx_ctx_other h _ _)
  rw [ctx] at owned ⊢
  rw [(released_spec c p).other d h, owned, ← none_]

end

/-! ### Sectors set aside -/

/-- Sector `i` stands as `s`, ERASING or BAD with nothing in it, and no context owns it and no zone has it as its TAIL. -/
structure Aside (i : Nat) (s : Sector) (p : Part) : Prop where
  sector : p.sector i = s
  state  : s.state = .erasing ∨ s.state = .bad
  empty  : s.countsZero = true
  owned  : ∀ c, (p.ctx c).owned ≠ some i
  tails  : ∀ z ∈ p.smp.zones, z.tail ≠ some i

section
variable {p q : Part} {i : Nat} {s : Sector}

theorem Aside.of (h : Aside i s p) (sector : q.sector i = p.sector i) (owned : OwnedFalls p q)
    (tails : ∀ z ∈ q.smp.zones, z.tail = some i → ∃ w ∈ p.smp.zones, w.tail = some i) : Aside i s q where
  sector := sector.trans h.sector
  state := h.state
  empty := h.empty
  owned c e := by
    rcases owned c with o | o
    · exact h.owned c (o.symm.trans e)
    · rw [o] at e; cases e
  tails z hz e := by
    obtain ⟨w, hw, e'⟩ := tails z hz e
    exact h.tails w hw e'

theorem Aside.same (h : Aside i s p) (smp : q.smp = p.smp) (owned : OwnedFalls p q) : Aside i s q :=
  h.of (sector_of_smp smp i) owned (by rw [smp]; exact fun z hz e => ⟨z, hz, e⟩)

/-- A change of the zones' spares shows in no zone's TAIL and in no zone's waiting takers. -/
theorem zones_of_spares {zs ws : List Zone}
    (e : zs.map (fun r => { r with spareInUse := false }) = ws.map (fun r => { r with spareInUse := false })) :
    ∀ z ∈ zs, ∃ w ∈ ws, w.tail = z.tail ∧ w.waiting = z.waiting := by
  intro z hz
  have mem : ({ z with spareInUse := false } : Zone) ∈ ws.map (fun r => { r with spareInUse := false }) :=
    e ▸ List.mem_map_of_mem (f := fun r : Zone => { r with spareInUse := false }) hz
  obtain ⟨w, hw, hwz⟩ := List.mem_map.1 mem
  exact ⟨w, hw, (Zone.mk.inj hwz).2.2.2.1, (Zone.mk.inj hwz).2.2.2.2.2⟩

theorem tails_of_spares {zs ws : List Zone}
    (e : zs.map (fun r => { r with spareInUse := false }) = ws.map (fun r => { r with spareInUse := false })) :
    ∀ z ∈ zs, ∀ t, z.tail = some t → ∃ w ∈ ws, w.tail = some t := by
  intro z hz t ht
  obtain ⟨w, hw, tail, -⟩ := zones_of_spares e z hz
  exact ⟨w, hw, tail.trans ht⟩

theorem modSector_aside (h : Aside i s p) {j : Nat} (hj : j ≠ i) (f : Sector → Sector) : Aside i s (modSector j f p) :=
  h.of (sector_modSector_other hj f p) (OwnedFalls.refl p).wcu fun z hz e => ⟨z, hz, e⟩

theorem judgeSector_aside (h : Aside i s p) (j : Nat) : Aside i s (judgeSector j p) := by
  have sector : (judgeSector j p).sector i = p.sector i := by
    rw [judgeSector_sector]
    refine if_neg ?_
    rintro ⟨rfl, sealed, -⟩
    rw [h.sector] at sealed
    rcases h.state with e | e <;> rw [e] at sealed <;> cases sealed
  exact h.of sector (judgeSector_ownedFalls (.refl p) j) fun z hz e => tails_of_spares (judgeSector_zones j p) z hz i e

/-- R50: nothing is released of a sector that holds nothing. -/
theorem subPending_aside (h : Aside i s p) (j n : Nat) : Aside i s (subPending j n p) := by
  refine judgeSector_aside (p := modSector j (fun s => { s with pending := s.pending - n }) p) ?_ j
  by_cases hj : j = i
  · subst hj
    have zero : s.pending = 0 := by
      have := h.empty
      simp only [Sector.countsZero, Bool.and_eq_true, decide_eq_true_eq] at this
      exact this.1.2
    refine h.of ?_ (OwnedFalls.refl p).wcu fun z hz e => ⟨z, hz, e⟩
    rw [sector_modSector, h.sector, zero, Nat.zero_sub, ← zero]
    split <;> rfl
  · exact modSector_aside h hj _

theorem dropOwner_aside (h : Aside i s p) {j : Nat} (hj : j ≠ i) : Aside i s (dropOwner j p) :=
  h.of (by rw [dropOwner_sector, if_neg fun e => hj e.1.symm]) (dropOwner_ownedFalls (.refl p) j) (by
    rw [dropOwner_smp]; exact fun z hz e => ⟨z, hz, e⟩)

theorem clearTail_aside (h : Aside i s p) (j : Nat) : Aside i s (clearTail j p) :=
  h.of rfl (OwnedFalls.refl p).wcu fun z hz e => by
    obtain ⟨w, hw, rfl⟩ := List.mem_map.1 hz
    split at e
    · cases e
    · exact ⟨w, hw, e⟩

theorem sealSector_aside (h : Aside i s p) {j : Nat} (hj : j ≠ i) : Aside i s (sealSector j p) :=
  judgeSector_aside (modSector_aside (clearTail_aside (dropOwner_aside h hj) j) hj _) j

theorem modZone_aside (h : Aside i s p) (z : Nat) (f : Zone → Zone) (hf : ∀ r, (f r).tail = some i → r.tail = some i) :
    Aside i s (modZone z f p) :=
  h.of rfl (OwnedFalls.refl p).wcu fun r hr e => by
    obtain ⟨n, hn⟩ := List.mem_iff_getElem?.1 hr
    have e' : (modZone z f p).zone n = some r := hn
    rw [modZone_zone] at e'
    split at e'
    · obtain ⟨w, hw, rfl⟩ := Option.map_eq_some_iff.1 e'
      exact ⟨w, List.mem_of_getElem? hw, hf w e⟩
    · exact ⟨r, List.mem_of_getElem? e', e⟩

theorem zone_mem {z : Nat} {r : Zone} (h : p.zone z = some r) : r ∈ p.smp.zones := List.mem_of_getElem? h

theorem giveUp_aside (h : Aside i s p) {j : Nat} (hj : j ≠ i) : Aside i s (giveUp j p) := by
  have dropped := dropOwner_aside h hj
  have tail (z : Nat) {q : Part} (g : Aside i s q) : Aside i s (modZone z (fun z => { z with tail := some j })
      (modSector j (fun s => { s with state := .tail }) q)) :=
    modZone_aside (modSector_aside g hj _) z _ fun _ e => absurd (Option.some.inj e) hj
  unfold giveUp
  dsimp only
  split
  · exact modSector_aside dropped hj _
  · split
    · split
      · rename_i r hr
        split
        · exact tail _ dropped
        · rename_i t ht
          split
          · exact tail _ (sealSector_aside dropped fun e => h.tails r (zone_mem hr) (e ▸ ht))
          · exact sealSector_aside dropped hj
      · exact sealSector_aside dropped hj
    · exact sealSector_aside dropped hj

theorem giveUpCtx_aside (h : Aside i s p) {k : WriteCtx} (hk : k.owned ≠ some i) : Aside i s (giveUpCtx k p) := by
  cases ho : k.owned with
  | none => rw [giveUpCtx_none ho]; exact h
  | some j =>
    have hj : j ≠ i := fun e => hk (e ▸ ho)
    obtain ⟨f, e⟩ := giveUpCtx_owned ho p
    rw [e]
    exact giveUp_aside (modSector_aside h hj f) hj

theorem releasePending_aside (h : Aside i s p) (k : WriteCtx) : Aside i s (releasePending k p) := by
  have each : Aside i s (k.written.foldl (fun q w => subPending w.sector (space w.length) q) p) := by
    generalize k.written = ws
    induction ws generalizing p with
    | nil => exact h
    | cons w ws ih => exact ih (subPending_aside h _ _)
  unfold releasePending
  dsimp only
  split
  · exact subPending_aside each _ _
  · exact each

theorem liftHold_aside (h : Aside i s p) (z : Nat) : Aside i s (liftHold z p) :=
  h.same (liftHold_smp z p) fun c => .inl (by rw [liftHold_ctx])

theorem returnSpare_aside (h : Aside i s p) (z : Nat) : Aside i s (returnSpare z p) := by
  obtain ⟨zs, hold, e, -, zones⟩ := returnSpare_eq z p
  rw [e]
  exact h.of rfl (OwnedFalls.refl p).wcu fun z hz e => tails_of_spares zones z hz i e

theorem modCtx_aside (h : Aside i s p) (c : CtxId) (f : WriteCtx → WriteCtx) (hf : ∀ k, (f k).owned = k.owned ∨ (f k).owned = none) :
    Aside i s (modCtx c f p) :=
  h.same (modCtx_smp ..) (modCtx_ownedFalls (.refl p) c f hf)

theorem returnReservation_aside (h : Aside i s p) (c : CtxId) : Aside i s (returnReservation c p) := by
  have changed := modCtx_aside h c (fun k => { k with reservation := 0 }) fun _ => .inl rfl
  unfold returnReservation
  refine returnSpare_aside ?_ _
  split
  · exact liftHold_aside changed _
  · exact changed

theorem removeTaker_aside (h : Aside i s p) (c : CtxId) : Aside i s (removeTaker c p) :=
  h.of rfl (OwnedFalls.refl p).wcu fun z hz e => by
    obtain ⟨w, hw, rfl⟩ := List.mem_map.1 hz
    exact ⟨w, hw, e⟩

/-- R97: the end of a context leaves a sector set aside as it is. -/
theorem finishEnd_aside (h : Aside i s p) (c : CtxId) (st : Option Status) : Aside i s (finishEnd c st p) := by
  have start : Aside i s (removeTaker c (withdraw (.ctx c) p)) := 
    removeTaker_aside (p := withdraw (.ctx c) p) (h.same rfl (OwnedFalls.refl p).wcu) c
  have bytes : Aside i s (if (p.ctx c).commit = .switched then removeTaker c (withdraw (.ctx c) p)
      else releasePending (p.ctx c) (removeTaker c (withdraw (.ctx c) p))) := by
    split
    · exact start
    · exact releasePending_aside start _
  have gone : Aside i s (released c p) :=
    (returnReservation_aside (giveUpCtx_aside bytes (h.owned c)) c).same rfl (OwnedFalls.refl _).wcu
  rw [finishEnd_released]
  cases st with
  | none => exact modCtx_aside gone c (fun _ => .cold) fun _ => .inr rfl
  | some t => exact Aside.same (p := modCtx c _ _) (modCtx_aside gone c _ fun _ => .inr rfl) rfl (OwnedFalls.refl _).wcu

theorem endCtx_aside (h : Aside i s p) (c : CtxId) (st : Status) : Aside i s (endCtx c st p) := by
  unfold endCtx
  split
  · exact modCtx_aside h c (fun k => { k with ending := some (.withStatus st) }) fun _ => .inl rfl
  · exact finishEnd_aside h c _

end

end Sys2Proof.Machine
end

