-- ==== Sys2Proof/Proofs/BatchOutcome.lean ====
section
/-! SUPPORT. A batch's results applied sector by sector (R32, R47, R54, R55, R71): what they leave of the other sectors, of the
conditions, of the lingering heads and of the Scan Unit. -/
namespace Sys2Proof.Machine

variable {p q : Part}

/-! ### A cut of reservations (R55) -/

/-- R55: a cut changes its context's reservation alone. -/
theorem cutCtx_eq (c : CtxId) (z n : Nat) (p : Part) : ∃ w, (cutCtx c z n p).2 = { p with wcu := w } ∧ OwnedFalls p { p with wcu := w } := by
  have owned := modCtx_ownedFalls (.refl p) c (fun k => { k with reservation := k.reservation - min n (reservedBy z (p.ctx c)) }) fun _ => .inl rfl
  unfold cutCtx
  dsimp only
  split
  · exact ⟨p.wcu, rfl, .refl p⟩
  · cases c with
    | c0 => exact ⟨_, rfl, owned⟩
    | c1 => exact ⟨_, rfl, owned⟩

theorem cutExcess_eq (z n : Nat) (p : Part) : ∃ w, cutExcess z n p = { p with wcu := w } ∧ OwnedFalls p { p with wcu := w } := by
  have each (l : List CtxId) (nq : Nat × Part) : ∃ w, (l.foldl (fun (nq : Nat × Part) c => cutCtx c z nq.1 nq.2) nq).2 = { nq.2 with wcu := w } ∧
      OwnedFalls nq.2 { nq.2 with wcu := w } := by
    induction l generalizing nq with
    | nil => exact ⟨_, rfl, .refl _⟩
    | cons c l ih =>
      obtain ⟨w, e, owned⟩ := cutCtx_eq c z nq.1 nq.2
      obtain ⟨w', e', owned'⟩ := ih (cutCtx c z nq.1 nq.2)
      rw [e] at e' owned'
      refine ⟨w', e', fun d => ?_⟩
      rcases owned' d with o | o
      · rcases owned d with o' | o'
        · exact .inl (o.trans o')
        · exact .inr (o.trans o')
      · exact .inr o
  exact each (cutOrder p) (n, p)

theorem liftHold_eq (z : Nat) (p : Part) : ∃ h, liftHold z p = { p with rcu := { p.rcu with hold := h } } ∧ (h = p.rcu.hold ∨ h = none) := by
  unfold liftHold
  split
  · exact ⟨none, rfl, .inr rfl⟩
  · exact ⟨_, rfl, .inl rfl⟩

/-- R55: the cut of a zone's reservations changes those, the zone's spare and a hold. -/
theorem cutReservations_eq (z : Nat) (p : Part) : ∃ w zs h, cutReservations z p =
    { p with wcu := w, smp := { p.smp with zones := zs }, rcu := { p.rcu with hold := h } } ∧
    OwnedFalls p { p with wcu := w } ∧
    zs.map (fun r => { r with spareInUse := false }) = p.smp.zones.map (fun r => { r with spareInUse := false }) := by
  unfold cutReservations
  split
  · exact ⟨_, _, _, rfl, .refl p, rfl⟩
  · rename_i r _
    dsimp only
    generalize (if r.spareInUse then reserved z p - available z p else reserved z p + 1 - available z p) = excess
    split
    · exact ⟨_, _, _, rfl, .refl p, rfl⟩
    · obtain ⟨w, e, owned⟩ := cutExcess_eq z excess p
      have lifted : ∃ h, liftIfCut z (reserved z p) (cutExcess z excess p) = { p with wcu := w, rcu := { p.rcu with hold := h } } := by
        rw [e]
        unfold liftIfCut
        split
        · obtain ⟨h, e', -⟩ := liftHold_eq z { p with wcu := w }
          exact ⟨h, e'⟩
        · exact ⟨_, rfl⟩
      obtain ⟨h, e'⟩ := lifted
      rw [e']
      unfold loseSpare
      split
      · exact ⟨w, _, h, rfl, owned, modZone_map (fun r : Zone => { r with spareInUse := false }) z
          (fun r => { r with spareInUse := true }) (fun _ => rfl) p⟩
      · exact ⟨w, _, h, rfl, owned, rfl⟩

/-! ### Sectors set aside -/

section
variable {i : Nat} {s : Sector}

theorem reportFree_aside (h : Aside i s p) (z : Nat) : Aside i s (reportFree z p) :=
  h.same (reportFree_smp z p) fun c => .inl (by rw [reportFree_ctx])

theorem raise_aside (h : Aside i s p) (u : Purpose) (k : OpKind) (l : Nat) (t : Target) : Aside i s (raise u k l t p) :=
  h.same (raise_smp ..) fun c => .inl (by rw [raise_ctx])

theorem raiseFirst_aside (h : Aside i s p) (c : CtxId) (j : Nat) : Aside i s (raiseFirst c j p) := by
  unfold raiseFirst
  dsimp only
  split
  · exact endCtx_aside h c _
  · exact raise_aside h ..

theorem failTaker_aside (h : Aside i s p) (c : CtxId) : Aside i s (failTaker c p) := endCtx_aside (removeTaker_aside h c) c _

theorem takenBy_aside (h : Aside i s p) (c : CtxId) {j : Nat} (hj : j ≠ i) (f : WriteCtx → WriteCtx) (hf : ∀ k, (f k).owned = some j) :
    Aside i s (modCtx c f p) where
  sector := by rw [modCtx_sector]; exact h.sector
  state := h.state
  empty := h.empty
  owned d e := by
    by_cases hd : d = c
    · subst hd
      rw [modCtx_ctx, hf] at e
      exact hj (Option.some.inj e)
    · rw [modCtx_ctx_other hd] at e
      exact h.owned d e
  tails := by rw [modCtx_smp]; exact h.tails

theorem takeTail_aside (h : Aside i s p) (c : CtxId) {t : Nat} (ht : t ≠ i) : Aside i s (takeTail c t p) :=
  takenBy_aside (modSector_aside (clearTail_aside h t) ht _) c ht _ fun _ => rfl

theorem takeFree_aside (h : Aside i s p) (c : CtxId) {j : Nat} (hj : j ≠ i) : Aside i s (takeFree c j p) := by
  have taken : Aside i s (modCtx c (fun k => { k with owned := some j, reservation := k.reservation - 1 })
      (modSector j (fun s => { s with state := .owned, owner := some (.ctx c) }) p)) :=
    takenBy_aside (modSector_aside h hj _) c hj _ fun _ => rfl
  rw [takeFree_eq]
  refine reportFree_aside ?_ _
  unfold tookFree
  dsimp only
  split
  · exact liftHold_aside taken _
  · exact taken

theorem foldl_failTaker_aside (h : Aside i s p) (l : List CtxId) : Aside i s (l.foldl (fun q d => failTaker d q) p) := by
  induction l generalizing p with
  | nil => exact h
  | cons d l ih => exact ih (failTaker_aside h d)

theorem answerTaker_aside (h : Aside i s p) {z : Nat} (hq : answerTaker z p = some q) : Aside i s q := by
  unfold answerTaker at hq
  split at hq
  · rename_i r c hr hc
    split at hq
    · rename_i t ht
      cases hq
      exact raiseFirst_aside (takeTail_aside (removeTaker_aside h c) c fun e => h.tails r (zone_mem hr) (e ▸ ht)) c t
    · split at hq
      · rename_i j hj
        have free := ((lowestFree_iff z j p).1 hj).2.2.1
        have other : j ≠ i := by
          rintro rfl
          rw [h.sector] at free
          rcases h.state with e | e <;> rw [e] at free <;> cases free
        dsimp only at hq
        split at hq
        · cases hq
          exact raiseFirst_aside (takeFree_aside (removeTaker_aside h c) c other) c j
        · cases hq
          exact failTaker_aside h c
      · split at hq
        · cases hq
          exact foldl_failTaker_aside h _
        · cases hq
  · cases hq

theorem answerTakers_aside (h : Aside i s p) (z : Nat) : Aside i s (answerTakers z p) := by
  unfold answerTakers
  split
  · rename_i q hq
    have once := answerTaker_aside h hq
    cases hr : answerTaker z q with
    | none => exact once
    | some r => exact answerTaker_aside once hr
  · exact h

theorem cutReservations_aside (h : Aside i s p) (z : Nat) : Aside i s (cutReservations z p) := by
  obtain ⟨w, zs, hold, e, owned, zones⟩ := cutReservations_eq z p
  rw [e]
  exact h.of rfl owned.wcu fun z hz e => tails_of_spares zones z hz i e

/-- R32: a result changes its sector, and where it is good the lingering heads. -/
def outcomeSet (target : SectorState) (b : BatchSector) (p : Part) : Part :=
  modSector b.sector (sectorOutcome target b) (if b.erased && b.headerOk then clearLingering b.sector p else p)

theorem applyOutcome_eq (target : SectorState) (b : BatchSector) (p : Part) : applyOutcome target b p =
    if b.erased && b.headerOk && !b.bad then
      if target = .free then answerTakers (p.sector b.sector).zone (liftHold (p.sector b.sector).zone (outcomeSet target b p))
      else outcomeSet target b p
    else cutReservations (p.sector b.sector).zone (setCond .media (outcomeSet target b p)) := rfl

/-- What a result does after its own sector has it leaves a sector set aside. -/
theorem applyOutcome_aside {target : SectorState} {b : BatchSector} (h : Aside i s (outcomeSet target b p)) :
    Aside i s (applyOutcome target b p) := by
  rw [applyOutcome_eq]
  split
  · split
    · exact answerTakers_aside (liftHold_aside h _) _
    · exact h
  · exact cutReservations_aside (p := setCond .media _) (h.same rfl (OwnedFalls.refl _).wcu) _

end

/-! ### With no taker waiting -/

/-- No zone has a waiting taker. -/
def NoTakers (p : Part) : Prop := ∀ z ∈ p.smp.zones, z.waiting = []

theorem answerTakers_noTakers (h : NoTakers p) (z : Nat) : answerTakers z p = p := by
  have none_ : answerTaker z p = none := by
    cases hz : p.zone z with
    | none => unfold answerTaker; rw [hz]
    | some r => exact answerTaker_none hz (h r (zone_mem hz))
  unfold answerTakers
  rw [none_]

theorem outcomeSet_sectors (target : SectorState) (b : BatchSector) (p : Part) :
    (outcomeSet target b p).smp = (modSector b.sector (sectorOutcome target b) p).smp := by
  unfold outcomeSet
  split <;> rfl

/-- R47: with no taker waiting a result changes its own sector alone. -/
theorem applyOutcome_noTakers (target : SectorState) (b : BatchSector) (h : NoTakers p) : NoTakers (applyOutcome target b p) ∧
    (applyOutcome target b p).smp.sectors = (modSector b.sector (sectorOutcome target b) p).smp.sectors := by
  have set := outcomeSet_sectors target b p
  have free : NoTakers (outcomeSet target b p) := fun z hz => h z (by rw [set] at hz; exact hz)
  have lifted (z : Nat) : NoTakers (liftHold z (outcomeSet target b p)) := fun r hr => free r (by rw [liftHold_smp] at hr; exact hr)
  rw [applyOutcome_eq]
  split
  · split
    · rw [answerTakers_noTakers (lifted _)]
      exact ⟨lifted _, by rw [liftHold_smp, set]⟩
    · exact ⟨free, by rw [set]⟩
  · obtain ⟨w, zs, hold, e, -, zones⟩ := cutReservations_eq (p.sector b.sector).zone (setCond .media (outcomeSet target b p))
    rw [e]
    refine ⟨fun z hz => ?_, by show (outcomeSet target b p).smp.sectors = _; rw [set]⟩
    obtain ⟨r, hr, -, waiting⟩ := zones_of_spares zones z hz
    rw [← waiting]
    exact free r hr

/-! ### Conditions, lingering heads, the Scan Unit -/

/-- `q` may follow `p` by results applied and takers answered: the Scan Unit's state stands, no condition is cleared, no head joins a set
of lingering heads. -/
structure OutcomeStep (p q : Part) : Prop where
  scu       : q.scu = p.scu
  conds     : ∀ (n : Nat) (r : CondRow), p.link.conds[n]? = some r → ∃ t, q.link.conds[n]? = some t ∧ (r.set = true → t.set = true)
  lingering : ∀ d ∈ q.sdr.directory, ∃ e ∈ p.sdr.directory, d.lingering ⊆ e.lingering

theorem OutcomeStep.refl (p : Part) : OutcomeStep p p :=
  ⟨rfl, fun _ r h => ⟨r, h, id⟩, fun d hd => ⟨d, hd, List.Subset.refl _⟩⟩

theorem OutcomeStep.trans {r : Part} (h : OutcomeStep p q) (g : OutcomeStep q r) : OutcomeStep p r where
  scu := g.scu.trans h.scu
  conds := fun n x hx => by
    obtain ⟨t, ht, set⟩ := h.conds n x hx
    obtain ⟨u, hu, set'⟩ := g.conds n t ht
    exact ⟨u, hu, set' ∘ set⟩
  lingering := fun d hd => by
    obtain ⟨e, he, sub⟩ := g.lingering d hd
    obtain ⟨f, hf, sub'⟩ := h.lingering e he
    exact ⟨f, hf, List.Subset.trans sub sub'⟩

theorem OutcomeStep.same (h : OutcomeStep p q) {r : Part} (scu : r.scu = q.scu := by rfl) (conds : r.link.conds = q.link.conds := by rfl)
    (sdr : r.sdr = q.sdr := by rfl) : OutcomeStep p r :=
  h.trans ⟨scu, by rw [conds]; exact (OutcomeStep.refl q).conds, by rw [sdr]; exact (OutcomeStep.refl q).lingering⟩

theorem setCond_outcomeStep (h : OutcomeStep p q) (c : Cond) : OutcomeStep p (setCond c q) :=
  h.trans ⟨rfl, fun n r hr => by
    obtain ⟨t, ht, set, -⟩ := (setCond_mapStep (.refl q) c).conds n r hr
    exact ⟨t, ht, set⟩, (OutcomeStep.refl q).lingering⟩

theorem reportFree_outcomeStep (h : OutcomeStep p q) (z : Nat) : OutcomeStep p (reportFree z q) := by
  unfold reportFree
  split
  · split
    · exact setCond_outcomeStep h _
    · exact h
  · exact h

theorem modCtx_outcomeStep (h : OutcomeStep p q) (c : CtxId) (f : WriteCtx → WriteCtx) : OutcomeStep p (modCtx c f q) :=
  h.same (modCtx_scu ..) (congrArg Link.conds (modCtx_link ..)) (modCtx_sdr ..)

theorem liftHold_outcomeStep (h : OutcomeStep p q) (z : Nat) : OutcomeStep p (liftHold z q) :=
  h.same (liftHold_scu ..) (congrArg Link.conds (liftHold_link ..)) (liftHold_sdr ..)

theorem finishEnd_outcomeStep (h : OutcomeStep p q) (c : CtxId) (st : Option Status) : OutcomeStep p (finishEnd c st q) := by
  have g := released_spec c q
  have gone : OutcomeStep p (released c q) := h.trans
    { scu := g.scu
      conds := fun n r hr => by
        obtain ⟨t, ht, set, -⟩ := g.conds n r hr
        exact ⟨t, ht, set⟩
      lingering := fun d hd => by
        rw [g.dir] at hd
        obtain ⟨e, he, rfl⟩ := List.mem_map.1 hd
        refine ⟨e, he, ?_⟩
        repeat' split
        all_goals exact List.Subset.refl _ }
  rw [finishEnd_released]
  cases st with
  | none => exact modCtx_outcomeStep gone c _
  | some s => exact (modCtx_outcomeStep gone c _).same

theorem endCtx_outcomeStep (h : OutcomeStep p q) (c : CtxId) (st : Status) : OutcomeStep p (endCtx c st q) := by
  unfold endCtx
  split
  · exact modCtx_outcomeStep h c _
  · exact finishEnd_outcomeStep h c _

theorem raiseFirst_outcomeStep (h : OutcomeStep p q) (c : CtxId) (i : Nat) : OutcomeStep p (raiseFirst c i q) := by
  unfold raiseFirst
  dsimp only
  split
  · exact endCtx_outcomeStep h c _
  · exact h.same (raise_scu ..) (congrArg Link.conds (raise_link ..)) (raise_sdr ..)

theorem failTaker_outcomeStep (h : OutcomeStep p q) (c : CtxId) : OutcomeStep p (failTaker c q) :=
  endCtx_outcomeStep (q := removeTaker c q) h.same c _

theorem takeFree_outcomeStep (h : OutcomeStep p q) (c : CtxId) (i : Nat) : OutcomeStep p (takeFree c i q) := by
  have taken : OutcomeStep p (modCtx c (fun k => { k with owned := some i, reservation := k.reservation - 1 })
      (modSector i (fun s => { s with state := .owned, owner := some (.ctx c) }) q)) :=
    modCtx_outcomeStep (q := modSector i _ q) h.same c _
  rw [takeFree_eq]
  refine reportFree_outcomeStep ?_ _
  unfold tookFree
  dsimp only
  split
  · exact liftHold_outcomeStep taken _
  · exact taken

theorem foldl_failTaker_outcomeStep (h : OutcomeStep p q) (l : List CtxId) : OutcomeStep p (l.foldl (fun q d => failTaker d q) q) := by
  induction l generalizing q with
  | nil => exact h
  | cons d l ih => exact ih (failTaker_outcomeStep h d)

theorem answerTaker_outcomeStep (h : OutcomeStep p q) {z : Nat} {r : Part} (hr : answerTaker z q = some r) : OutcomeStep p r := by
  unfold answerTaker at hr
  split at hr
  · split at hr
    · cases hr
      exact raiseFirst_outcomeStep (modCtx_outcomeStep (q := modSector _ _ _) h.same _ _) _ _
    · split at hr
      · dsimp only at hr
        split at hr
        · cases hr
          exact raiseFirst_outcomeStep (takeFree_outcomeStep (q := removeTaker _ q) h.same _ _) _ _
        · cases hr
          exact failTaker_outcomeStep h _
      · split at hr
        · cases hr
          exact foldl_failTaker_outcomeStep h _
        · cases hr
  · cases hr

theorem answerTakers_outcomeStep (h : OutcomeStep p q) (z : Nat) : OutcomeStep p (answerTakers z q) := by
  unfold answerTakers
  split
  · rename_i r hr
    have once := answerTaker_outcomeStep h hr
    cases hs : answerTaker z r with
    | none => exact once
    | some s => exact answerTaker_outcomeStep once hs
  · exact h

theorem cutReservations_outcomeStep (h : OutcomeStep p q) (z : Nat) : OutcomeStep p (cutReservations z q) := by
  obtain ⟨_, _, _, e, -, -⟩ := cutReservations_eq z q
  rw [e]
  exact h.same

theorem clearLingering_outcomeStep (h : OutcomeStep p q) (i : Nat) : OutcomeStep p (clearLingering i q) :=
  h.trans { OutcomeStep.refl q with
    lingering := fun d hd => by
      obtain ⟨e, he, rfl⟩ := List.mem_map.1 hd
      exact ⟨e, he, fun _ hx => (List.mem_filter.1 hx).1⟩ }

theorem outcomeSet_outcomeStep (h : OutcomeStep p q) (target : SectorState) (b : BatchSector) : OutcomeStep p (outcomeSet target b q) := by
  unfold outcomeSet
  split
  · exact (clearLingering_outcomeStep h _).same
  · exact h.same

theorem applyOutcome_outcomeStep (h : OutcomeStep p q) (target : SectorState) (b : BatchSector) : OutcomeStep p (applyOutcome target b q) := by
  have set := outcomeSet_outcomeStep h target b
  rw [applyOutcome_eq]
  split
  · split
    · exact answerTakers_outcomeStep (liftHold_outcomeStep set _) _
    · exact set
  · exact cutReservations_outcomeStep (setCond_outcomeStep set _) _

end Sys2Proof.Machine
end

