-- ==== Sys2Proof/Proofs/BatchEnd.lean ====
section
/-! SUPPORT. A batch that completes (R71, R125, R126, R178): its results in turn, the engine, the FORMAT's position, the next batch. -/
namespace Sys2Proof.Machine

variable {p q : Part}

/-! ### The results in turn -/

/-- The part with a batch's results applied. -/
def outcomes (target : SectorState) (bs : List BatchSector) (p : Part) : Part := bs.foldl (fun q s => applyOutcome target s q) p

theorem outcomes_outcomeStep (target : SectorState) (bs : List BatchSector) (p : Part) : OutcomeStep p (outcomes target bs p) := by
  unfold outcomes
  suffices ∀ q, OutcomeStep p q → OutcomeStep p (bs.foldl (fun q s => applyOutcome target s q) q) from this p (.refl p)
  induction bs with
  | nil => exact fun q h => h
  | cons b bs ih => exact fun q h => ih _ (applyOutcome_outcomeStep h target b)

/-- What comes to one sector of a batch, when the results of the others leave it as it is: its own result. `Inv s` holds of a part in
which the sector stands as `s`. -/
theorem outcomes_at {Inv : Sector → Part → Prop} {target : SectorState} {bs : List BatchSector} {x : BatchSector}
    (nd : (bs.map (·.sector)).Nodup) (hx : x ∈ bs) {s : Sector}
    (others : ∀ t q (y : BatchSector), y.sector ≠ x.sector → Inv t q → Inv t (applyOutcome target y q))
    (own : ∀ q, Inv s q → Inv (sectorOutcome target x s) (applyOutcome target x q)) (h : Inv s p) :
    Inv (sectorOutcome target x s) (outcomes target bs p) := by
  have pass (l : List BatchSector) (t : Sector) (q : Part) (hl : ∀ y ∈ l, y.sector ≠ x.sector) (hq : Inv t q) :
      Inv t (l.foldl (fun q s => applyOutcome target s q) q) := by
    induction l generalizing q with
    | nil => exact hq
    | cons y l ih => exact ih _ (fun z hz => hl z (List.mem_cons_of_mem _ hz)) (others t q y (hl y List.mem_cons_self) hq)
  obtain ⟨before, after, rfl⟩ := List.append_of_mem hx
  rw [List.map_append, List.map_cons, List.nodup_middle, List.nodup_cons, ← List.map_append] at nd
  have distinct (y : BatchSector) (hy : y ∈ before ++ after) : y.sector ≠ x.sector :=
    fun e => nd.1 (e ▸ List.mem_map_of_mem (f := BatchSector.sector) hy)
  unfold outcomes
  rw [List.foldl_append, List.foldl_cons]
  exact pass after _ _ (fun y hy => distinct y (List.mem_append_right _ hy))
    (own _ (pass before _ _ (fun y hy => distinct y (List.mem_append_left _ hy)) h))

/-- R47: with no taker waiting, each sector has its result. -/
theorem outcomes_noTakers {target : SectorState} {bs : List BatchSector} {x : BatchSector} (nd : (bs.map (·.sector)).Nodup) (hx : x ∈ bs)
    (inside : x.sector < p.smp.sectors.length) (h : NoTakers p) :
    (outcomes target bs p).sector x.sector = sectorOutcome target x (p.sector x.sector) := by
  refine (outcomes_at (Inv := fun s q => NoTakers q ∧ x.sector < q.smp.sectors.length ∧ q.sector x.sector = s) nd hx ?_ ?_
    ⟨h, inside, rfl⟩).2.2
  · rintro t q y other ⟨free, len, e⟩
    obtain ⟨free', sectors⟩ := applyOutcome_noTakers target y free
    refine ⟨free', by rw [sectors, modSector_length]; exact len, ?_⟩
    rw [sector_of_sectors sectors, sector_modSector_other other, e]
  · rintro q ⟨free, len, e⟩
    obtain ⟨free', sectors⟩ := applyOutcome_noTakers target x free
    refine ⟨free', by rw [sectors, modSector_length]; exact len, ?_⟩
    rw [sector_of_sectors sectors, sector_modSector_self len, e]

theorem Aside.inside {i : Nat} {s : Sector} (h : Aside i s p) : i < p.smp.sectors.length := by
  by_contra out
  have cold := (sector_of_length_le (Nat.le_of_not_lt out)).symm.trans h.sector
  rcases h.state with e | e <;> rw [← cold] at e <;> cases e

/-- A result changes its own sector, and a sector set aside stays so if it is still ERASING or BAD and empty. -/
theorem outcomeSet_aside {i : Nat} {s t : Sector} {target : SectorState} {y : BatchSector} (h : Aside i s p)
    (e : (outcomeSet target y p).sector i = t) (state : t.state = .erasing ∨ t.state = .bad) (empty : t.countsZero = true) :
    Aside i t (outcomeSet target y p) := by
  have ctx (c : CtxId) : (outcomeSet target y p).ctx c = p.ctx c := ctx_of_wcu (by unfold outcomeSet; split <;> rfl) c
  exact ⟨e, state, empty, fun c => by rw [ctx]; exact h.owned c, by rw [outcomeSet_sectors]; exact h.tails⟩

/-- R47: a sector that its result leaves BAD has it, whatever takers the other results answer. -/
theorem outcomes_bad {target : SectorState} {bs : List BatchSector} {x : BatchSector} (nd : (bs.map (·.sector)).Nodup) (hx : x ∈ bs)
    (bad : (x.erased && x.headerOk && !x.bad) = false) (h : Aside x.sector (p.sector x.sector) p) :
    (outcomes target bs p).sector x.sector = sectorOutcome target x (p.sector x.sector) := by
  refine (outcomes_at (Inv := Aside x.sector) nd hx (fun t q y other g => ?_) (fun q g => ?_) h).sector
  · refine applyOutcome_aside (outcomeSet_aside g ?_ g.state g.empty)
    rw [sector_of_smp (outcomeSet_sectors ..), sector_modSector_other other, g.sector]
  · have result : sectorOutcome target x (p.sector x.sector) = { p.sector x.sector with
        state := .bad, nextWrite := Config.sectorSize, owner := none,
        eraseCount := if x.erased then x.count else (p.sector x.sector).eraseCount } := by
      unfold sectorOutcome
      rw [bad, if_neg Bool.false_ne_true]
    refine applyOutcome_aside (outcomeSet_aside g ?_ (.inr (by rw [result])) (by rw [result]; exact g.empty))
    rw [sector_of_smp (outcomeSet_sectors ..), sector_modSector_self g.inside, g.sector]

/-! ### MEDIA and the lingering heads -/

/-- R47: a result that leaves its sector BAD sets MEDIA. -/
theorem applyOutcome_media {target : SectorState} {b : BatchSector} (bad : (b.erased && b.headerOk && !b.bad) = false) {r : CondRow}
    (hr : p.link.conds[5]? = some r) : ∃ t, (applyOutcome target b p).link.conds[5]? = some t ∧ t.set = true := by
  have set : (outcomeSet target b p).link = p.link := by unfold outcomeSet; split <;> rfl
  obtain ⟨w, zs, h, e, -, -⟩ := cutReservations_eq (p.sector b.sector).zone (setCond .media (outcomeSet target b p))
  rw [applyOutcome_eq, bad, if_neg Bool.false_ne_true, e]
  refine ⟨{ r with set := true }, ?_, rfl⟩
  show ((outcomeSet target b p).link.conds.modify 5 _)[5]? = _
  rw [set, List.getElem?_modify_eq, hr]
  rfl

/-- R32: a result that erased its sector and wrote its header takes the sector out of every set of lingering heads. -/
theorem applyOutcome_lingering {target : SectorState} {b : BatchSector} (erased : b.erased = true) (header : b.headerOk = true) :
    ∀ d ∈ (applyOutcome target b p).sdr.directory, b.sector ∉ d.lingering := by
  have cleared : ∀ d ∈ (outcomeSet target b p).sdr.directory, b.sector ∉ d.lingering := by
    unfold outcomeSet
    rw [erased, header]
    intro d hd mem
    obtain ⟨e, -, rfl⟩ := List.mem_map.1 hd
    simpa using (List.mem_filter.1 mem).2
  have step : OutcomeStep (outcomeSet target b p) (applyOutcome target b p) := by
    rw [applyOutcome_eq]
    split
    · split
      · exact answerTakers_outcomeStep (liftHold_outcomeStep (.refl _) _) _
      · exact .refl _
    · exact cutReservations_outcomeStep (setCond_outcomeStep (.refl _) _) _
  intro d hd mem
  obtain ⟨e, he, sub⟩ := step.lingering d hd
  exact cleared e he (sub mem)

/-- What one result of a batch brings about, and the others leave, the batch brings about. -/
theorem outcomes_of_one {P : Part → Prop} {target : SectorState} {bs : List BatchSector} {x : BatchSector} (hx : x ∈ bs) {q : Part}
    (start : OutcomeStep p q) (brings : ∀ q, OutcomeStep p q → P (applyOutcome target x q)) (keeps : ∀ q r, OutcomeStep q r → P q → P r) :
    P (outcomes target bs q) := by
  obtain ⟨before, after, rfl⟩ := List.append_of_mem hx
  unfold outcomes
  rw [List.foldl_append, List.foldl_cons]
  exact keeps _ _ (outcomes_outcomeStep target after _) (brings _ (start.trans (outcomes_outcomeStep target before q)))

theorem outcomes_media {target : SectorState} {bs : List BatchSector} {x : BatchSector} (hx : x ∈ bs)
    (bad : (x.erased && x.headerOk && !x.bad) = false) (len : p.link.conds.length = 8) :
    ∃ t, (outcomes target bs p).link.conds[5]? = some t ∧ t.set = true := by
  have row : p.link.conds[5]? = some p.link.conds[5] := List.getElem?_eq_getElem (by omega)
  refine outcomes_of_one (P := fun q => ∃ t, q.link.conds[5]? = some t ∧ t.set = true) hx (.refl p) (fun q h => ?_) fun q r h => ?_
  · obtain ⟨t, ht, -⟩ := h.conds 5 _ row
    exact applyOutcome_media bad ht
  · rintro ⟨t, ht, set⟩
    obtain ⟨u, hu, set'⟩ := h.conds 5 t ht
    exact ⟨u, hu, set' set⟩

theorem outcomes_lingering {target : SectorState} {bs : List BatchSector} {x : BatchSector} (hx : x ∈ bs) (erased : x.erased = true)
    (header : x.headerOk = true) : ∀ d ∈ (outcomes target bs p).sdr.directory, x.sector ∉ d.lingering := by
  refine outcomes_of_one (P := fun q => ∀ d ∈ q.sdr.directory, x.sector ∉ d.lingering) hx (.refl p)
    (fun q _ => applyOutcome_lingering erased header) fun q r h clear d hd mem => ?_
  obtain ⟨e, he, sub⟩ := h.lingering d hd
  exact clear e he (sub mem)

/-! ### The end of the batch (R71, R125, R126, R178) -/

/-- R71, R125: the state that a good result leaves its sector in. -/
def Batch.target (b : Batch) (p : Part) : SectorState := if !b.forFormat && !p.mounted then .stale else .free

/-- R71: the part at which the engine is IDLE with the batch's results applied. -/
def batchApplied (b : Batch) (p : Part) : Part :=
  let p1 := outcomes (b.target p) b.sectors p
  { p1 with pee := { p1.pee with state := .idle, op := none, batch := none, budget := Config.suspendBudget } }

theorem completeBatch_format {b : Batch} (hb : p.pee.batch = some b) (format : b.forFormat = true) :
    completeBatch p = movePosition b (noteFormatBad b (batchApplied b p)) := by
  unfold completeBatch
  rw [hb]
  dsimp only
  rw [if_pos format]
  rfl

theorem completeBatch_reclaim {b : Batch} (hb : p.pee.batch = some b) (reclaim : b.forFormat = false) :
    completeBatch p = openBatch (reportFree b.zone (batchApplied b p)) := by
  unfold completeBatch
  rw [hb]
  dsimp only
  rw [if_neg (by rw [reclaim]; exact Bool.false_ne_true)]
  rfl

/-- R156: the note of a FORMAT whose batch leaves a sector BAD. -/
theorem noteFormatBad_runner {b : Batch} {f : FormatRun} (hf : p.scu.runner = some f) : noteFormatBad b p = { p with scu := { p.scu with
    runner := some (if b.sectors.any (·.endsBad) then { f with notes := f.notes ||| 0x08 } else f) } } := by
  unfold noteFormatBad
  split
  · unfold noteServed
    dsimp only [Purpose.owner]
    rw [hf]
    rfl
  · rw [← hf]

theorem noteFormatBad_none {b : Batch} (hf : p.scu.runner = none) : noteFormatBad b p = p := by
  unfold noteFormatBad
  split
  · unfold noteServed
    dsimp only [Purpose.owner]
    rw [hf]
  · rfl

/-- R178: the position moves past the batch's last sector. -/
theorem movePosition_runner {b : Batch} {f : FormatRun} (hf : p.scu.runner = some f) : ∃ n, movePosition b p =
    { p with scu := { p.scu with runner := some { f with position := n } } } ∧ f.position ≤ n ∧ (∀ x ∈ b.sectors, x.sector < n) ∧
      (n = f.position ∨ ∃ x ∈ b.sectors, n = x.sector + 1) := by
  obtain ⟨-, past, att⟩ := foldl_max_spec (fun x : BatchSector => x.sector + 1) b.sectors 0
  have moved : movePosition b p = { p with scu := { p.scu with runner := some { f with
      position := max f.position (b.sectors.foldl (fun m s => max m (s.sector + 1)) 0) } } } := by
    unfold movePosition
    rw [hf]
    rfl
  generalize b.sectors.foldl (fun m s => max m (s.sector + 1)) 0 = last at past att moved
  refine ⟨_, moved, Nat.le_max_left .., fun x hx => Nat.lt_of_succ_le ((past x hx).trans (Nat.le_max_right ..)), ?_⟩
  rcases Nat.le_total last f.position with le | le
  · exact .inl (Nat.max_eq_left le)
  · rw [Nat.max_eq_right le]
    rcases att with e | ⟨x, hx, e⟩
    · exact .inl (by omega)
    · exact .inr ⟨x, hx, e.symm⟩

theorem movePosition_none {b : Batch} (hf : p.scu.runner = none) : movePosition b p = p := by
  have none_ : p.scu.runner.map (fun f => { f with
      position := max f.position (b.sectors.foldl (fun m s => max m (s.sector + 1)) 0) }) = p.scu.runner := by rw [hf]; rfl
  unfold movePosition
  dsimp only
  rw [none_]

/-! ### The next batch (R122, R125, R126) -/

theorem takeOfZone_zone (p : Part) (z : Nat) (l : List Nat) (n : Nat) : ∀ i ∈ (takeOfZone p z n l).1, (p.sector i).zone = z := by
  induction l generalizing n with
  | nil => cases n <;> exact nofun
  | cons s l ih =>
    cases n with
    | zero => exact nofun
    | succ n =>
      unfold takeOfZone
      split
      · rename_i hs
        exact List.forall_mem_cons.2 ⟨hs, ih n⟩
      · exact ih (n + 1)

/-- R122: a batch is open after the queue is looked at, or the queue is empty. -/
theorem openBatch_opens (mounted : p.mounted = true) (free : p.pee.batch = none) (queued : (openBatch p).rcu.eraseQueue ≠ []) :
    (openBatch p).rcu.openBatch ≠ none := by
  unfold openBatch at queued ⊢
  split at queued
  · rename_i e; exact absurd e queued
  · rename_i s l e
    rw [e] at queued ⊢
    dsimp only at queued ⊢
    split at queued
    · rename_i c
      rw [if_pos c]
      split
      · unfold raiseErase
        dsimp only
        rw [raise_rcu]
        exact nofun
      · exact nofun
    · rename_i c
      rw [if_neg c]
      intro none_
      exact c (by rw [mounted, none_, free]; rfl)

/-- R122: the sectors of a batch newly opened lie in its zone. -/
theorem openBatch_zone {o : OpenBatch} (none_ : p.rcu.openBatch = none) (ho : (openBatch p).rcu.openBatch = some o) :
    ∀ i ∈ o.sectors, (p.sector i).zone = o.zone := by
  unfold openBatch at ho
  split at ho
  · rw [none_] at ho; cases ho
  · split at ho
    · dsimp only at ho
      split at ho
      · unfold raiseErase at ho
        dsimp only at ho
        rw [raise_rcu] at ho
        cases ho
        exact fun i hi => takeOfZone_zone p _ _ _ i hi
      · cases ho
        exact fun i hi => takeOfZone_zone p _ _ _ i hi
    · rw [none_] at ho; cases ho

/-- R126: a zone that holds nothing to erase after the next batch opened held nothing before. -/
theorem nothingToErase_of_opened {z : Nat} (free : p.pee.batch = none) (queue : ∀ i ∈ (openBatch p).rcu.eraseQueue, (p.sector i).zone ≠ z)
    (opened : ∀ o, (openBatch p).rcu.openBatch = some o → o.zone ≠ z) : nothingToErase z p = true := by
  have step := openBatch_mapStep (.refl p)
  unfold nothingToErase
  rw [free]
  simp only [Bool.and_true, Bool.and_eq_true, List.all_eq_true, decide_eq_true_eq]
  cases hb : p.rcu.openBatch with
  | some b =>
    obtain ⟨t, ht, zone, -⟩ := step.opened b hb
    refine ⟨fun i hi => ?_, by simpa using zone ▸ opened t ht⟩
    have same_ : (openBatch p).rcu.eraseQueue = p.rcu.eraseQueue := by
      unfold openBatch
      split
      · rfl
      · rw [if_neg (by rw [hb]; simp)]
    exact queue i (same_ ▸ hi)
  | none =>
    refine ⟨fun i hi => ?_, rfl⟩
    rcases step.erase i (.inl hi) with still | ⟨o, ho, mem⟩
    · exact queue i still
    · rw [openBatch_zone hb ho i mem]
      exact opened o ho

theorem raise_idle (idle : p.pee.state = .idle) (u : Purpose) (k : OpKind) (l : Nat) (t : Target) :
    (raise u k l t p).pee.state = .idle := by
  unfold raise
  dsimp only
  rw [if_neg (by rw [idle]; exact fun h => by cases h.1)]
  exact idle

theorem raise_idle_budget (idle : p.pee.state = .idle) (u : Purpose) (k : OpKind) (l : Nat) (t : Target) :
    (raise u k l t p).pee.budget = p.pee.budget := by
  unfold raise
  dsimp only
  rw [if_neg (by rw [idle]; exact fun h => by cases h.1)]

theorem openBatch_idle (idle : p.pee.state = .idle) :
    (openBatch p).pee.state = .idle ∧ (openBatch p).pee.budget = p.pee.budget := by
  unfold openBatch
  split
  · exact ⟨idle, rfl⟩
  · split
    · dsimp only
      split
      · unfold raiseErase
        dsimp only
        exact ⟨raise_idle (by exact idle) .., raise_idle_budget (by exact idle) ..⟩
      · exact ⟨idle, rfl⟩
    · exact ⟨idle, rfl⟩

theorem spaceLowOf_index {z : Nat} (h : z < 4) : (spaceLowOf z).index = z + 1 := by
  interval_cases z <;> rfl

/-! ### What the whole completion does -/

section
variable {b : Batch} (hb : p.pee.batch = some b)
include hb

/-- R71: what the completion leaves after the results are applied: the engine, the sectors, and nothing cleared. -/
theorem completeBatch_after : (completeBatch p).pee.state = .idle ∧ (completeBatch p).pee.op = none ∧ (completeBatch p).pee.batch = none ∧
    (completeBatch p).pee.budget = 8 ∧ (completeBatch p).smp = (outcomes (b.target p) b.sectors p).smp ∧
    (completeBatch p).sdr = (outcomes (b.target p) b.sectors p).sdr ∧
    (∀ (n : Nat) (r : CondRow), (outcomes (b.target p) b.sectors p).link.conds[n]? = some r →
      ∃ t, (completeBatch p).link.conds[n]? = some t ∧ (r.set = true → t.set = true)) := by
  cases format : b.forFormat with
  | true =>
    rw [completeBatch_format hb format]
    cases hf : (batchApplied b p).scu.runner with
    | none =>
      rw [noteFormatBad_none hf, movePosition_none hf]
      exact ⟨rfl, rfl, rfl, rfl, rfl, rfl, fun n r hr => ⟨r, hr, id⟩⟩
    | some f =>
      rw [noteFormatBad_runner hf]
      obtain ⟨n, e, -⟩ := movePosition_runner (p := { batchApplied b p with scu := { (batchApplied b p).scu with
        runner := some (if b.sectors.any (·.endsBad) then { f with notes := f.notes ||| 0x08 } else f) } }) (b := b) rfl
      rw [e]
      exact ⟨rfl, rfl, rfl, rfl, rfl, rfl, fun n r hr => ⟨r, hr, id⟩⟩
  | false =>
    have step := openBatch_mapStep (.refl (reportFree b.zone (batchApplied b p)))
    have pee := reportFree_pee b.zone (batchApplied b p)
    obtain ⟨state, budget⟩ := openBatch_idle (p := reportFree b.zone (batchApplied b p)) (by rw [pee]; rfl)
    obtain ⟨cs, report, -⟩ := reportFree_eq b.zone (batchApplied b p)
    rw [completeBatch_reclaim hb format]
    refine ⟨state, by rw [step.op, pee]; rfl, by rw [step.batch, pee]; rfl, by rw [budget, pee]; rfl, ?_, ?_, fun n r hr => ?_⟩
    · rw [openBatch_smp, reportFree_smp]; rfl
    · rw [step.sdr, report]; rfl
    · obtain ⟨t, ht, set⟩ := (reportFree_outcomeStep (.refl (batchApplied b p)) b.zone).conds n r hr
      rw [openBatch_eq]
      exact ⟨t, ht, set⟩

/-- R60, R156, R178: a FORMAT's position and notes at the completion of its batch. -/
theorem completeBatch_runner (format : b.forFormat = true) {f : FormatRun} (hf : p.scu.runner = some f) :
    ∃ n, (completeBatch p).scu.runner = some { f with position := n, notes := if b.sectors.any (·.endsBad) then f.notes ||| 0x08 else f.notes } ∧
      f.position ≤ n ∧ (∀ x ∈ b.sectors, x.sector < n) ∧ (n = f.position ∨ ∃ x ∈ b.sectors, n = x.sector + 1) := by
  have hf' : (batchApplied b p).scu.runner = some f := (congrArg Scu.runner (outcomes_outcomeStep (b.target p) b.sectors p).scu).trans hf
  rw [completeBatch_format hb format, noteFormatBad_runner hf']
  obtain ⟨n, e, past⟩ := movePosition_runner (p := { batchApplied b p with scu := { (batchApplied b p).scu with
    runner := some (if b.sectors.any (·.endsBad) then { f with notes := f.notes ||| 0x08 } else f) } }) (b := b) rfl
  rw [e]
  split at past
  · exact ⟨n, by rw [if_pos ‹_›, if_pos ‹_›], past⟩
  · exact ⟨n, by rw [if_neg ‹_›, if_neg ‹_›], past⟩

/-- R126: SPACE_LOW is set of a reclaim batch's zone that is below its mark with nothing left to erase. -/
theorem completeBatch_spaceLow (reclaim : b.forFormat = false) (mounted : (completeBatch p).mounted = true) {r : Zone}
    (hr : (completeBatch p).zone b.zone = some r) (plan : b.zone < 4) (low : countState b.zone .free (completeBatch p) < r.lowWater)
    (queue : ∀ i ∈ (completeBatch p).rcu.eraseQueue, ((completeBatch p).sector i).zone ≠ b.zone)
    (opened : ∀ o, (completeBatch p).rcu.openBatch = some o → o.zone ≠ b.zone) (len : p.link.conds.length = 8) :
    ∃ t, (completeBatch p).link.conds[b.zone + 1]? = some t ∧ t.set = true := by
  rw [completeBatch_reclaim hb reclaim] at mounted hr low queue opened ⊢
  obtain ⟨cs, e, -⟩ := reportFree_eq b.zone (batchApplied b p)
  have idle : nothingToErase b.zone (batchApplied b p) = true := by
    have idle := nothingToErase_of_opened (p := reportFree b.zone (batchApplied b p)) (by rw [reportFree_pee]; rfl)
      (fun i hi => by rw [← sector_of_smp (openBatch_smp _)]; exact queue i hi) opened
    rw [e] at idle
    exact idle
  rw [openBatch_eq, e] at mounted hr low
  have reported : reportFree b.zone (batchApplied b p) = setCond (spaceLowOf b.zone) (batchApplied b p) := by
    have zone : (batchApplied b p).zone b.zone = some r := hr
    have below : countState b.zone .free (batchApplied b p) < r.lowWater := low
    have up : (batchApplied b p).mounted = true := mounted
    unfold reportFree
    rw [zone]
    dsimp only
    rw [idle, up, decide_eq_true below]
    rfl
  have index : (spaceLowOf b.zone).index = b.zone + 1 := spaceLowOf_index plan
  obtain ⟨t, ht, -⟩ := (outcomes_outcomeStep (b.target p) b.sectors p).conds (b.zone + 1) _
    (List.getElem?_eq_getElem (show b.zone + 1 < p.link.conds.length by omega))
  refine ⟨{ t with set := true }, ?_, rfl⟩
  rw [openBatch_eq, reported]
  show ((outcomes (b.target p) b.sectors p).link.conds.modify (spaceLowOf b.zone).index _)[b.zone + 1]? = _
  rw [index, List.getElem?_modify_eq, ht]
  rfl

end

end Sys2Proof.Machine
end

