-- ==== Sys2Proof/Proofs/BatchCompletes.lean ====
section
/-! O53. A batch's completion, and the answers to a zone's waiting takers. -/
namespace Sys2Proof.Machine

variable {p : Part}

/-! ### A sector's result (R47) -/

theorem sectorOutcome_good {x : BatchSector} (erased : x.erased = true) (header : x.headerOk = true) (fine : x.bad = false)
    (target : SectorState) (s : Sector) : sectorOutcome target x s =
      { s with state := target, nextWrite := 32, suspect := false, eraseCount := x.count, owner := none } := by
  unfold sectorOutcome
  rw [erased, header, fine]
  rfl

theorem sectorOutcome_bad {x : BatchSector} (bad : (x.erased && x.headerOk && !x.bad) = false) (target : SectorState) (s : Sector) :
    sectorOutcome target x s = { s with
      state := .bad, nextWrite := 4096, owner := none, eraseCount := (if x.erased then x.count else s.eraseCount) } := by
  unfold sectorOutcome
  rw [bad]
  rfl

theorem endsBad_iff (x : BatchSector) : x.endsBad = true ↔ ¬ (x.erased = true ∧ x.headerOk = true ∧ x.bad = false) := by
  unfold BatchSector.endsBad
  cases x.erased <;> cases x.headerOk <;> cases x.bad <;> decide

theorem bad_of_not_good {x : BatchSector} (h : ¬ (x.erased = true ∧ x.headerOk = true ∧ x.bad = false)) :
    (x.erased && x.headerOk && !x.bad) = false := by
  exact Bool.not_eq_true' _ ▸ (endsBad_iff x).2 h

theorem Batch.target_eq (b : Batch) (p : Part) :
    (if b.forFormat = false ∧ p.mounted = false then SectorState.stale else .free) = b.target p := by
  unfold Batch.target
  cases b.forFormat <;> cases p.mounted <;> rfl

theorem ctxEntitled_iff (k : WriteCtx) (p : Part) :
    ctxEntitled k p = true ↔ 1 ≤ k.reservation ∨ reserved k.zone p + 2 ≤ available k.zone p := by
  unfold ctxEntitled
  simp

/-! ### An answer to the waiting takers (R43, R54) -/

section
variable {z : Nat} {r : Zone} {c : CtxId} (hz : p.zone z = some r) (best : bestTaker p r.waiting = some c)
include hz best

/-- R54: the taker chosen takes its zone's TAIL. -/
theorem answerTaker_takes_tail {t : Nat} (tail : r.tail = some t) (room : (p.ctx c).written.length < 72)
    (inside : t < p.smp.sectors.length) : ∃ q, answerTaker z p = some q ∧ RaisedFirst c t p q ∧
      q.sector t = { p.sector t with state := .owned, owner := some (.ctx c) } ∧
      q.ctx c = { p.ctx c with owned := some t, reservation := (p.ctx c).reservation - 0 } ∧ isWaiting c q = false := by
  obtain ⟨pee, waits⟩ := takeTail_kept c t (removeTaker c p)
  exact ⟨_, answerTaker_tail hz best tail, raiseFirst_taken room pee (takeTail_ctx ..)
    (takeTail_sector (p := removeTaker c p) c inside) ((waits c).trans (removeTaker_isWaiting c p))⟩

/-- R43, R53, R54: the taker chosen, entitled to it, takes its zone's lowest FREE sector. -/
theorem answerTaker_takes_free (tail : r.tail = none) {i : Nat} (free : LowestFree z i p) (entitled : ctxEntitled (p.ctx c) p = true)
    (room : (p.ctx c).written.length < 72) : ∃ q, answerTaker z p = some q ∧ RaisedFirst c i p q ∧
      q.sector i = { p.sector i with state := .owned, owner := some (.ctx c) } ∧
      q.ctx c = { p.ctx c with owned := some i, reservation := (p.ctx c).reservation - 1 } ∧ isWaiting c q = false := by
  have answer := answerTaker_free hz best tail free
  rw [if_pos entitled] at answer
  refine ⟨_, answer, ?_⟩
  obtain ⟨smp, pee, ctx⟩ := tookFree_kept c i (removeTaker c p)
  rw [takeFree_eq]
  refine raiseFirst_taken room ((reportFree_pee ..).trans pee) (by rw [reportFree_ctx]; exact ctx) ?_ ?_
  · rw [sector_of_smp ((reportFree_smp ..).trans smp)]
    exact sector_modSector_self (p := removeTaker c p) free.1 _
  · unfold isWaiting
    rw [reportFree_smp, smp]
    exact removeTaker_isWaiting c p

/-- R54: with nothing left in the zone the taker chosen fails, and the other with it. -/
theorem answerTaker_fails_all (tail : r.tail = none) (none_ : NoneFree z p) (empty : available z p = 0)
    (rests : claimRuns (.ctx c) p = false) : ∃ m, EndedWith c .noSpace p m ∧
      ((∀ d ∈ r.waiting, d = c) → answerTaker z p = some m) ∧
      (∀ d ∈ r.waiting, d ≠ c → claimRuns (.ctx d) p = false →
        ∃ q, answerTaker z p = some q ∧ EndedWith d .noSpace m q ∧ q.ctx c = m.ctx c) := by
  have answer := answerTaker_full hz best tail none_
  rw [if_pos empty] at answer
  have ended := failTaker_ended rests
  refine ⟨failTaker c p, ended, fun alone => ?_, fun d hd other rests' => ⟨failTaker d (failTaker c p), ?_, ?_, ?_⟩⟩
  · rw [answer, takersFrom_alone hz alone]
    rfl
  · rw [answer, takersFrom_two hz hd other]
    rfl
  all_goals
    have op : (failTaker c p).pee.op = p.pee.op := by
      rw [failTaker_eq rests]
      exact (congrArg Pee.op (finishEnd_sdr_pee ..).2).trans (released_spec c _).op
    have rests'' : claimRuns (.ctx d) (failTaker c p) = false := (claimRuns_of_op op).trans rests'
  · exact failTaker_ended rests''
  · rw [failTaker_eq rests'']
    exact finishEnd_ctx_other (p := removeTaker d (failTaker c p)) (Ne.symm other) _ ended.2.1

end

theorem takersReact_none : takersReact p = none ↔ ∀ z < p.smp.zones.length, answerTaker z p = none := by
  unfold takersReact
  rw [List.findSome?_eq_none_iff]
  simp only [List.mem_range]

/-- R54: the first zone with a taker to answer. -/
theorem takersReact_some {q : Part} (h : takersReact p = some q) :
    ∃ z < p.smp.zones.length, answerTaker z p = some q ∧ ∀ y < z, answerTaker y p = none := by
  unfold takersReact at h
  obtain ⟨before, z, after, split_, answer, none_⟩ := List.findSome?_eq_some_iff.1 h
  rw [List.range_eq_range'] at split_
  obtain ⟨k, -, rfl, tail⟩ := List.range'_eq_append_iff.1 split_
  obtain ⟨rfl, some_, -⟩ := List.range'_eq_cons_iff.1 tail.symm
  exact ⟨_, by omega, answer, fun y hy => none_ y (List.mem_range'_1.2 (by omega))⟩

/-- Settles O53: the results are applied one after another, and each changes little besides its own sector. -/
theorem batchCompletes : Obligations.BatchCompletes := by
  unfold Obligations.BatchCompletes
  refine ⟨fun target x s => ⟨fun erased header fine => sectorOutcome_good erased header fine target s, fun erased bad => ?_, fun failed => ?_⟩,
    fun p b hb len => ?_, fun p z r hz => ⟨answerTaker_none hz, fun waits => ?_⟩, fun p => ⟨takersReact_none, fun q => takersReact_some⟩⟩
  · have result := sectorOutcome_bad (bad_of_not_good (x := x) fun fine => by rcases bad with e | e <;> simp [e] at fine) target s
    rwa [erased] at result
  · have result := sectorOutcome_bad (bad_of_not_good (x := x) fun fine => by simp [failed] at fine) target s
    rwa [failed] at result
  · obtain ⟨state, op, batch, budget, smp, sdr, conds⟩ := completeBatch_after hb
    dsimp only
    rw [Batch.target_eq]
    refine ⟨state, op, batch, budget, ?_, ?_, fun nd inside x hx => ⟨?_, ?_⟩, fun format f hf => ?_, fun reclaim mounted => ⟨?_, ?_⟩⟩
    · rintro ⟨x, hx, bad⟩
      obtain ⟨t, ht, set⟩ := outcomes_media (p := p) (target := b.target p) hx (bad_of_not_good bad) len
      obtain ⟨u, hu, set'⟩ := conds 5 t ht
      exact ⟨u, hu, set' set⟩
    · rw [sdr]
      exact fun d hd x hx erased header => outcomes_lingering hx erased header d hd
    · intro bad erasing empty owned tails
      rw [sector_of_smp smp]
      exact outcomes_bad nd hx (bad_of_not_good bad) ⟨rfl, .inl erasing, empty, owned, tails⟩
    · intro none_
      rw [sector_of_smp smp]
      exact outcomes_noTakers nd hx (inside x hx) none_
    · obtain ⟨n, e, le, past, att⟩ := completeBatch_runner hb format hf
      refine ⟨_, e, rfl, rfl, rfl, le, past, att, ?_, fun fine => ?_⟩
      · rintro ⟨x, hx, bad⟩
        exact if_pos (List.any_eq_true.2 ⟨x, hx, (endsBad_iff x).2 bad⟩)
      · refine if_neg fun any => ?_
        obtain ⟨x, hx, bad⟩ := List.any_eq_true.1 any
        exact (endsBad_iff x).1 bad (fine x hx)
    · rw [completeBatch_reclaim hb reclaim] at mounted ⊢
      refine openBatch_opens ?_ (by rw [reportFree_pee]; rfl)
      rw [openBatch_eq] at mounted
      exact mounted
    · intro r hr plan low queue opened
      exact completeBatch_spaceLow hb reclaim mounted hr plan low queue opened len
  · obtain ⟨c, earlier, later, best, split_, lower, upper⟩ := bestTaker_spec p r.waiting waits
    refine ⟨c, earlier, later, split_, lower, upper, ?_, ?_, ?_⟩
    · exact fun t tail room inside => answerTaker_takes_tail hz best tail room inside
    · refine fun tail i free => ⟨fun entitled room => answerTaker_takes_free hz best tail free ?_ room, fun less rests => ?_⟩
      · exact (ctxEntitled_iff ..).2 entitled
      · have answer := answerTaker_free hz best tail free
        rw [if_neg (less ∘ (ctxEntitled_iff ..).1)] at answer
        exact ⟨_, answer, failTaker_ended rests⟩
    · refine fun tail none_ => ⟨fun empty rests => answerTaker_fails_all hz best tail none_ empty rests, fun some_ => ?_⟩
      rw [answerTaker_full hz best tail none_, if_neg some_]

end Sys2Proof.Machine
end

