-- ==== Sys2Proof/Proofs/DeleteEnds.lean ====
section
/-! SUPPORT. The end of a DELETE (R36, R112, R113, R118): its entry leaves with its bytes, and the other requests of its slot meet NO_SLOT. -/
namespace Sys2Proof.Machine

variable {p q : Part} {r : Serving} {d : DirEntry}

/-! ### The replies of the requests that meet NO_SLOT (R118) -/

theorem claimRuns_eq_false_iff (o : Owner) (p : Part) : claimRuns o p = false ↔ ∀ c, p.pee.op = some c → c.purpose.owner ≠ o := by
  unfold claimRuns
  cases p.pee.op with
  | none => simp
  | some c => simp

/-- A reply that the end of the queued request of age `a` gives with NO_SLOT: its own, or that of an ABORT that waits on it. -/
def NoSlotReply (a : Nat) (p : Part) (y : Reply) : Prop :=
  (y.status = .noSlot ∧ y.place = .queued ∧ ∃ f, p.queueEntry a = some f ∧ y.kind = f.request.kind ∧ y.tag = f.tag) ∨
  (y.kind = 0x06 ∧ y.place = .direct ∧ ∃ h ∈ p.link.held, h.target = a ∧ y.tag = h.tag)

/-- In `q` no queue entry and no waiting ABORT is new. -/
structure QueueFalls (p q : Part) : Prop where
  entry : ∀ a f, q.queueEntry a = some f → p.queueEntry a = some f
  held  : ∀ h ∈ q.link.held, h ∈ p.link.held

theorem NoSlotReply.mono {a : Nat} {y : Reply} (h : QueueFalls p q) : NoSlotReply a q y → NoSlotReply a p y := by
  rintro (⟨status, place, f, hf, is⟩ | ⟨kind, place, x, hx, is⟩)
  · exact .inl ⟨status, place, f, h.entry a f hf, is⟩
  · exact .inr ⟨kind, place, x, h.held x hx, is⟩

/-- R118: what the NO_SLOT end of one served request makes of the queue and the replies. -/
theorem slotGone_replies (a : Nat) (p : Part) : QueueFalls p (slotGone a p) ∧
    ∃ l, (slotGone a p).link.replies = p.link.replies ++ l ∧ ∀ y ∈ l, NoSlotReply a p y := by
  cases record : p.servingOf a with
  | none =>
    unfold slotGone
    rw [record]
    exact ⟨⟨fun _ _ h => h, fun _ h => h⟩, [], (List.append_nil _).symm, nofun⟩
  | some v =>
    obtain rfl := servingOf_age record
    cases runs : claimRuns (.serving v.age) p with
    | true =>
      rw [slotGone_runs record runs]
      exact ⟨⟨fun _ _ h => h, fun _ h => h⟩, [], (List.append_nil _).symm, nofun⟩
    | false =>
      rw [slotGone_ends record runs]
      unfold completeServing
      cases he : (dropServing v.age (withdraw (.serving v.age) p)).queueEntry v.age with
      | none =>
        rw [completeEntry_absent he]
        exact ⟨⟨fun _ _ h => h, fun _ h => h⟩, [], (List.append_nil _).symm, nofun⟩
      | some f =>
        rw [completeEntry_eq he]
        refine ⟨⟨fun b g hg => ?_, fun h hh => (List.mem_filter.1 hh).1⟩, _, List.append_assoc .., fun y hy => ?_⟩
        · by_cases hb : b = f.age
          · rw [hb, queueEntry_endedPart_self] at hg; cases hg
          · rwa [queueEntry_endedPart_other hb] at hg
        · rcases List.mem_append.1 hy with hy | hy
          · rw [List.mem_singleton.1 hy]
            exact .inl ⟨rfl, rfl, f, he, rfl, rfl⟩
          · obtain ⟨h, hh, rfl⟩ := List.mem_map.1 hy
            obtain ⟨mem, target⟩ := List.mem_filter.1 hh
            exact .inr ⟨rfl, rfl, h, mem, (of_decide_eq_true target).trans (queueEntry_age he), rfl⟩

theorem foldl_slotGone_replies (ages : List Nat) (p : Part) : ∃ l,
    (ages.foldl (fun q a => slotGone a q) p).link.replies = p.link.replies ++ l ∧ ∀ y ∈ l, ∃ a ∈ ages, NoSlotReply a p y := by
  induction ages generalizing p with
  | nil => exact ⟨[], (List.append_nil _).symm, nofun⟩
  | cons a ages ih =>
    obtain ⟨falls, l, hl, own⟩ := slotGone_replies a p
    obtain ⟨m, hm, others⟩ := ih (slotGone a p)
    refine ⟨l ++ m, by rw [List.foldl_cons, hm, hl, List.append_assoc], fun y hy => ?_⟩
    rcases List.mem_append.1 hy with hy | hy
    · exact ⟨a, List.mem_cons_self, own y hy⟩
    · obtain ⟨b, hb, is⟩ := others y hy
      exact ⟨b, List.mem_cons_of_mem _ hb, is.mono falls⟩

/-- R118: a request with no operation running has its NO_SLOT reply, at the first of its age. -/
theorem foldl_slotGone_reply {v : Serving} {f : Entry} {ages : List Nat} (hv : v.age ∈ ages) (record : p.servingOf v.age = some v)
    (entry : p.queueEntry v.age = some f) (rests : claimRuns (.serving v.age) p = false) :
    { kind := f.request.kind, tag := f.tag, status := .noSlot, notes := v.notes, payload := be 2 v.slot, place := .queued } ∈
      (ages.foldl (fun q a => slotGone a q) p).link.replies := by
  obtain ⟨before, after, rfl, first⟩ := List.eq_append_cons_of_mem hv
  have left : LeavesServed v.age p (before.foldl (fun q a => slotGone a q) p) :=
    foldl_leavesServed_absent id (fun q a => slotGone a q) (fun a q x h => slotGone_leavesServed h q) before
      (fun y hy e => first (by rw [e]; exact hy)) p
  obtain ⟨-, -, given⟩ := slotGone_endedNoSlot left (LeavesServed.refl ..) record rests
  rw [List.foldl_append, List.foldl_cons]
  obtain ⟨l, hl, -⟩ := foldl_slotGone_replies after (slotGone v.age (before.foldl (fun q a => slotGone a q) p))
  rw [hl]
  exact List.mem_append_left _ (given f entry).2

theorem completeServing_servingOf_self (a : Nat) (st : Status) (n : Byte) (pl : List Byte) (p : Part) :
    (completeServing a st n pl p).servingOf a = none := by
  unfold completeServing
  cases he : (dropServing a p).queueEntry a with
  | none => rw [completeEntry_absent he]; exact servingOf_dropServing_self a p
  | some e => rw [completeEntry_eq he]; exact servingOf_dropServing_self a p

/-! ### The entry leaves (R36) -/

theorem subLive_spaced (h : Spaced p q) (i n : Nat) : Spaced p (subLive i n q) :=
  judgeSector_spaced (modSector_spaced h i (fun s => { s with live := s.live - n }) fun _ => ⟨rfl, rfl, id⟩) i

/-- R36: the part at which an entry has left the directory and its bytes are released. -/
def removedEntry (d : DirEntry) (slot : Nat) (p : Part) : Part := forElems subLive d.extents { p with sdr := { p.sdr with
  directory := p.sdr.directory.filter (fun x => x.slot ≠ slot) } }

/-- R118: the ages of the other served requests of a DELETE's slot. -/
def othersOf (r : Serving) (p : Part) : List Nat :=
  (p.sdr.serving.filter (fun o => decide (o.slot = r.slot) && decide (o.age ≠ r.age))).map (·.age)

theorem mem_othersOf {a : Nat} : a ∈ othersOf r p ↔ ∃ x ∈ p.sdr.serving, x.slot = r.slot ∧ x.age ≠ r.age ∧ x.age = a := by
  unfold othersOf
  simp only [List.mem_map, List.mem_filter, Bool.and_eq_true, decide_eq_true_eq, and_assoc]

/-- R36, R118: the part at which the entry has left and the other requests of the slot have met NO_SLOT. -/
def othersGone (r : Serving) (d : DirEntry) (p : Part) : Part :=
  (othersOf r p).foldl (fun q a => slotGone a q) (removedEntry d r.slot p)

theorem removedEntry_spaced (d : DirEntry) (slot : Nat) (p : Part) :
    Spaced { p with sdr := { p.sdr with directory := p.sdr.directory.filter (fun x => x.slot ≠ slot) } } (removedEntry d slot p) :=
  forElems_spaced (.refl _) (fun i n _ h => subLive_spaced h i n) d.extents

theorem removedEntry_counts (d : DirEntry) (slot : Nat) (p : Part) (n : Nat) :
    ((removedEntry d slot p).sector n).live = (p.sector n).live - spaceOf n d.extents ∧
    ((removedEntry d slot p).sector n).pending = (p.sector n).pending ∧ ((removedEntry d slot p).sector n).retiring = (p.sector n).retiring ∧
    ((p.sector n).suspect = true → ((removedEntry d slot p).sector n).suspect = true) := by
  have step := forElems_subLive d.extents (fun _ => 0) _ ((MapStep.refl { p with sdr := { p.sdr with
    directory := p.sdr.directory.filter (fun x => x.slot ≠ slot) } }).recounted :)
  obtain ⟨-, -, live, pending, retiring⟩ := step.counts n
  have suspect := step.suspect n
  rw [recount_sector] at live pending retiring suspect
  split at live
  · rw [if_pos ‹_›] at pending retiring suspect
    exact ⟨live.trans (by rw [Nat.zero_add]; rfl), pending, retiring, suspect⟩
  · rw [if_neg ‹_›] at pending retiring suspect
    have cold : p.sector n = Sector.cold := sector_of_length_le (Nat.le_of_not_lt ‹_›)
    refine ⟨live.trans ?_, pending, retiring, suspect⟩
    show (p.sector n).live = _
    rw [cold]
    exact (Nat.zero_sub _).symm

theorem deleteSucceeded_eq (hd : p.entryOf r.slot = some d) :
    deleteSucceeded r p = completeServing r.age .ok r.notes (deletePayload r) (othersGone r d p) := by
  have serving : (removedEntry d r.slot p).sdr.serving = p.sdr.serving := by rw [(removedEntry_spaced ..).sdr]
  unfold deleteSucceeded othersGone othersOf
  rw [hd, ← serving]
  rfl

/-! ### What the end leaves -/

theorem othersGone_servedStep (r : Serving) (d : DirEntry) (p : Part) : ServedStep (removedEntry d r.slot p) (othersGone r d p) :=
  foldl_servedStep (fun _ a h => slotGone_servedStep h a) _ (.refl _)

/-- R36: the entry has left, its bytes are released, and the DELETE's record is gone. -/
theorem deleteSucceeded_removes (hd : p.entryOf r.slot = some d) :
    (deleteSucceeded r p).sdr.directory = p.sdr.directory.filter (fun x => x.slot ≠ r.slot) ∧
    (deleteSucceeded r p).servingOf r.age = none ∧
    (∀ n, ((deleteSucceeded r p).sector n).live = (p.sector n).live - spaceOf n d.extents ∧
      ((deleteSucceeded r p).sector n).pending = (p.sector n).pending ∧
      ((deleteSucceeded r p).sector n).retiring = (p.sector n).retiring) ∧
    ∀ n, (p.sector n).suspect = true → ((deleteSucceeded r p).sector n).suspect = true := by
  have step := completeServing_servedStep (othersGone_servedStep r d p) r.age .ok r.notes (deletePayload r)
  have counts := removedEntry_counts d r.slot p
  rw [deleteSucceeded_eq hd]
  refine ⟨?_, ?_, fun n => ?_, fun n => ?_⟩
  · rw [step.directory, (removedEntry_spaced ..).sdr]
  · exact completeServing_servingOf_self ..
  · rw [step.sector]
    obtain ⟨live, pending, retiring, -⟩ := counts n
    exact ⟨live, pending, retiring⟩
  · rw [step.sector]
    exact (counts n).2.2.2

/-- R113, R118, R148: the replies of a DELETE that ends OK: first the NO_SLOT of the others, then its own, then those of its ABORTs. -/
theorem deleteSucceeded_answered (hd : p.entryOf r.slot = some d) {e : Entry} (he : p.queueEntry r.age = some e) :
    (deleteSucceeded r p).queueEntry r.age = none ∧ ∃ earlier, (deleteSucceeded r p).link.replies = earlier ++
        [{ kind := e.request.kind, tag := e.tag, status := .ok, notes := r.notes, payload := deletePayload r, place := .queued }] ++
        (p.link.held.filter (fun h => h.target = e.age)).map (HeldAbort.reply .tooLate) ∧
      p.link.replies <+: earlier ∧
      ∀ x f, p.servingOf x.age = some x → x.slot = r.slot → x.age ≠ r.age → p.queueEntry x.age = some f →
        (∀ c, p.pee.op = some c → c.purpose.owner ≠ .serving x.age) →
        { kind := f.request.kind, tag := f.tag, status := .noSlot, notes := x.notes, payload := be 2 x.slot, place := .queued } ∈ earlier := by
  have start := removedEntry_spaced d r.slot p
  have left : LeavesServed r.age (removedEntry d r.slot p) (othersGone r d p) :=
    foldl_leavesServed_absent id (fun q a => slotGone a q) (fun a q x h => slotGone_leavesServed h q) _
      (fun a ha => by obtain ⟨x, -, -, other, rfl⟩ := mem_othersOf.1 ha; exact other.symm) _
  have entry : (othersGone r d p).queueEntry r.age = some e := left.entry.trans ((queueEntry_of_rqs start.rqs _).trans he)
  rw [deleteSucceeded_eq hd, completeServing_eq entry]
  refine ⟨?_, (othersGone r d p).link.replies, ?_, ?_, fun x f record slot other hf rests => ?_⟩
  · rw [← queueEntry_age he]
    exact queueEntry_endedPart_self ..
  · have held := left.held.trans (congrArg (List.filter (fun h => h.target = r.age)) start.held)
    rw [queueEntry_age he]
    show _ ++ _ ++ List.map _ ((othersGone r d p).link.held.filter (fun h => h.target = e.age)) = _
    rw [queueEntry_age he, held]
    rfl
  · have same : (removedEntry d r.slot p).link.replies = p.link.replies := start.replies
    exact same ▸ left.replies
  · refine foldl_slotGone_reply (mem_othersOf.2 ⟨x, List.mem_of_find?_eq_some record, slot, other, rfl⟩) ?_
      ((queueEntry_of_rqs start.rqs _).trans hf) ?_
    · exact (servingOf_of_serving (by rw [start.sdr]) _).trans record
    · rw [claimRuns_of_op start.op]
      exact (claimRuns_eq_false_iff ..).2 rests

/-- R36, R105: a DELETE that RESTART detached ends with no reply of its own. -/
theorem deleteSucceeded_silent (hd : p.entryOf r.slot = some d) (he : p.queueEntry r.age = none) :
    ∃ l, (deleteSucceeded r p).link.replies = p.link.replies ++ l ∧ ∀ y ∈ l, ∃ a ∈ othersOf r p, NoSlotReply a p y := by
  have start := removedEntry_spaced d r.slot p
  have left : LeavesServed r.age (removedEntry d r.slot p) (othersGone r d p) :=
    foldl_leavesServed_absent id (fun q a => slotGone a q) (fun a q x h => slotGone_leavesServed h q) _
      (fun a ha => by obtain ⟨x, -, -, other, rfl⟩ := mem_othersOf.1 ha; exact other.symm) _
  have entry : (dropServing r.age (othersGone r d p)).queueEntry r.age = none :=
    left.entry.trans ((queueEntry_of_rqs start.rqs _).trans he)
  have falls : QueueFalls p (removedEntry d r.slot p) :=
    ⟨fun a f h => (queueEntry_of_rqs start.rqs a).symm.trans h, fun h hh => by rw [start.held] at hh; exact hh⟩
  obtain ⟨l, hl, others⟩ := foldl_slotGone_replies (othersOf r p) (removedEntry d r.slot p)
  rw [deleteSucceeded_eq hd]
  unfold completeServing
  rw [completeEntry_absent entry]
  refine ⟨l, hl.trans (by rw [start.replies]), fun y hy => ?_⟩
  obtain ⟨a, ha, is⟩ := others y hy
  exact ⟨a, ha, is.mono falls⟩

end Sys2Proof.Machine
end

