-- ==== Sys2Proof/Proofs/ServedWork.lean ====
section
/-! O3. What the completion of an operation makes of a served request (R109, R112, R113, R115, R116, R118, R119) and of a retiring record
(R30, R32). -/
namespace Sys2Proof.Machine

variable {p q : Part} {r : Serving} {d : DirEntry} {e : Entry}

/-! ### A request whose slot has gone (R118) -/

theorem readDone_eq (record : p.servingOf r.age = some r) (here : r.gone = false) (bs : List Byte) : readDone r.age bs p =
    completeServing r.age .ok (if r.shortened then withNote .shortened r.notes else r.notes)
      (readPayload r.sequence r.readLen r.readCount bs) p := by
  unfold readDone
  rw [record]
  exact if_neg (by rw [here]; exact Bool.false_ne_true)

section
variable (record : p.servingOf r.age = some r) (gone : r.gone = true)
include record gone

theorem readDone_gone (bs : List Byte) : readDone r.age bs p = completeNoSlot r p := by
  unfold readDone
  rw [record]
  exact if_pos gone

theorem verifyDone_gone (bs : List Byte) : verifyDone r.age bs p = completeNoSlot r p := by
  unfold verifyDone
  rw [record]
  exact if_pos gone

theorem deleteMarkDone_gone (ok : Bool) : deleteMarkDone r.age ok p = completeNoSlot r p := by
  unfold deleteMarkDone
  rw [record]
  exact if_pos gone

theorem deleteReadBackDone_gone (b : Byte) : deleteReadBackDone r.age b p = completeNoSlot r p := by
  unfold deleteReadBackDone
  rw [record]
  exact if_pos gone

end

/-! ### A VERIFY's step (R115, R116, R119) -/

theorem verifyPasses_iff (r : Serving) (bs : List Byte) : verifyPasses r bs = true ↔
    firstStageValid bs = true ∧ field bs 1 2 = r.slot ∧ field bs 3 4 = r.sequence ∧ field bs 7 1 = r.nextIndex ∧
      field bs 8 2 = r.elem.copy ∧ field bs 16 3 = r.elem.length ∧
      slice bs 19 4 = be 4 (crc32 (slice bs 32 r.elem.length)).toNat := by
  unfold verifyPasses
  simp only [Bool.and_eq_true, decide_eq_true_eq, and_assoc, eq_comm (a := be 4 _)]

section
variable (record : p.servingOf r.age = some r) (here : r.gone = false)
include record here

theorem verifyDone_fails {bs : List Byte} (fails : verifyPasses r bs = false) : verifyDone r.age bs p =
    completeServing r.age .dataCorrupt (withNote .mediaEvent r.notes) (verifyPayload r r.checked ++ be 1 r.nextIndex)
      (makeSuspect r.elem.sector none p) := by
  unfold verifyDone
  rw [record]
  dsimp only
  rw [here, fails, if_neg Bool.false_ne_true, if_neg Bool.false_ne_true]

theorem verifyDone_aborted {bs : List Byte} (passes : verifyPasses r bs = true) (he : p.queueEntry r.age = some e)
    (waits : e.abortWaits = true) : verifyDone r.age bs p =
      completeServing r.age .aborted r.notes (verifyPayload r (r.checked + 1)) p := by
  have waits : abortWaits r.age p = true := by unfold abortWaits; rw [he]; exact waits
  unfold verifyDone
  rw [record]
  dsimp only
  rw [here, passes, waits, if_neg Bool.false_ne_true, if_pos rfl, if_pos rfl]

theorem verifyDone_goes_on {bs : List Byte} (passes : verifyPasses r bs = true) (he : p.queueEntry r.age = some e)
    (waits : e.abortWaits = false) (hd : p.entryOf r.slot = some d) : verifyDone r.age bs p =
      if d.extents.length ≤ r.nextIndex + 1 then completeServing r.age .ok r.notes (verifyPayload r (r.checked + 1)) p
      else raiseVerify r.age (modServing r.age (fun r => { r with nextIndex := r.nextIndex + 1, checked := r.checked + 1 }) p) := by
  have waits : abortWaits r.age p = false := by unfold abortWaits; rw [he]; exact waits
  unfold verifyDone
  rw [record]
  dsimp only
  rw [here, passes, waits, if_neg Bool.false_ne_true, if_pos rfl, if_neg Bool.false_ne_true, hd]
  simp only [decide_eq_true_eq]

/-- R114, R115: a VERIFY with an element left goes on with it. -/
theorem verifyDone_next {bs : List Byte} (passes : verifyPasses r bs = true) (he : p.queueEntry r.age = some e)
    (waits : e.abortWaits = false) (hd : p.entryOf r.slot = some d) {x : Elem} (hx : d.extents[r.nextIndex + 1]? = some x) :
    Raised (.verifyStep r.age) .read r.level (.runs [{ sector := x.sector, offset := x.offset, length := 32 + x.length }]) p
        (verifyDone r.age bs p) ∧
      (verifyDone r.age bs p).servingOf r.age = some { r with nextIndex := r.nextIndex + 1, checked := r.checked + 1, elem := x } := by
  obtain ⟨inside, -⟩ := List.getElem?_eq_some_iff.1 hx
  rw [verifyDone_goes_on record here passes he waits hd, if_neg (by omega)]
  exact raiseVerify_raised (p := modServing r.age _ p)
    (servingOf_modServing_self (f := fun r => { r with nextIndex := r.nextIndex + 1, checked := r.checked + 1 }) (fun _ => rfl) record) hd hx

/-! ### A DELETE's attempt and its read-back (R111, R112) -/

theorem deleteMarkDone_ok : deleteMarkDone r.age true p = deleteSucceeded r p := by
  unfold deleteMarkDone
  rw [record]
  dsimp only
  rw [here, if_neg Bool.false_ne_true, if_pos rfl]

/-- R112: a failed attempt is read back. -/
theorem deleteMarkDone_failed : Raised (.deleteReadBack r.age) .read r.level
      (.runs [{ sector := r.elem.sector, offset := r.elem.offset + 24, length := 1 }]) p (deleteMarkDone r.age false p) ∧
    (deleteMarkDone r.age false p).servingOf r.age = some { r with attempts := r.attempts + 1 } ∧
    (deleteMarkDone r.age false p).sdr.directory = p.sdr.directory ∧ (deleteMarkDone r.age false p).link = p.link := by
  have attempt : deleteMarkDone r.age false p = raise (.deleteReadBack r.age) .read r.level
      (.runs [{ sector := r.elem.sector, offset := r.elem.offset + 24, length := 1 }])
      (modServing r.age (fun r => { r with attempts := r.attempts + 1 }) p) := by
    unfold deleteMarkDone
    rw [record]
    dsimp only
    rw [here, if_neg Bool.false_ne_true, if_neg Bool.false_ne_true]
  rw [attempt]
  refine ⟨raise_raised .., ?_, by rw [raise_sdr]; rfl, raise_link ..⟩
  exact (servingOf_of_serving (congrArg Sdr.serving (raise_sdr ..)) _).trans
    (servingOf_modServing_self (f := fun r => { r with attempts := r.attempts + 1 }) (fun _ => rfl) record)

theorem deleteReadBackDone_again (left : r.attempts < 3) (attached : r.detached = false) :
    Raised (.deleteMark r.age) .mark r.level (.bytes r.elem.sector (r.elem.offset + 24) [0x00]) p (deleteReadBackDone r.age 0xFF p) ∧
    (deleteReadBackDone r.age 0xFF p).servingOf r.age = some { r with notes := r.notes ||| 0x04 } ∧
    (deleteReadBackDone r.age 0xFF p).sdr.directory = p.sdr.directory := by
  have found := servingOf_modServing_self (f := fun r => { r with notes := withNote .retried r.notes }) (fun _ => rfl) record
  have again : deleteReadBackDone r.age 0xFF p = raise (.deleteMark r.age) .mark r.level
      (.bytes r.elem.sector (r.elem.offset + 24) [0x00]) (modServing r.age (fun r => { r with notes := withNote .retried r.notes }) p) := by
    unfold deleteReadBackDone
    rw [record]
    dsimp only
    rw [here, if_neg Bool.false_ne_true, if_neg (by decide), if_pos ⟨left, attached⟩, raiseDeleteMark_eq found]
  rw [again]
  exact ⟨raise_raised .., (servingOf_of_serving (congrArg Sdr.serving (raise_sdr ..)) _).trans found, by rw [raise_sdr]; rfl⟩

theorem deleteReadBackDone_final (final : 3 ≤ r.attempts ∨ r.detached = true) : deleteReadBackDone r.age 0xFF p =
    completeServing r.age .mediaFault (withNote .mediaEvent r.notes) (deletePayload r) (clearDeletePending r.slot (deleteMarkFailed r p)) := by
  unfold deleteReadBackDone
  rw [record]
  dsimp only
  rw [here, if_neg Bool.false_ne_true, if_neg (by decide), if_neg]
  rintro ⟨left, attached⟩
  rcases final with h | h
  · exact absurd left (Nat.not_lt.2 h)
  · rw [attached] at h; cases h

end

/-! ### A DELETE's mark that has failed finally (R112) -/

/-- `q` is `p` but for the notes of one served request and a sector made suspect. -/
structure DeleteMarked (r : Serving) (p q : Part) : Prop where
  directory : q.sdr.directory = p.sdr.directory
  rqs       : q.rqs = p.rqs
  replies   : q.link.replies = p.link.replies
  held      : q.link.held = p.link.held
  op        : q.pee.op = p.pee.op
  counts    : ∀ n, (q.sector n).live = (p.sector n).live ∧ (q.sector n).pending = (p.sector n).pending ∧
                (q.sector n).retiring = (p.sector n).retiring
  record    : ∀ a, a ≠ r.age → q.servingOf a = p.servingOf a
  serving   : ∀ x ∈ q.sdr.serving, x.age ≠ r.age → x ∈ p.sdr.serving
  claims    : NewClaims p q

theorem DeleteMarked.refl (r : Serving) (p : Part) : DeleteMarked r p p :=
  ⟨rfl, rfl, rfl, rfl, rfl, fun _ => ⟨rfl, rfl, rfl⟩, fun _ _ => rfl, fun _ h _ => h, .refl p⟩

theorem deleteMarkFailed_marked (r : Serving) (p : Part) : DeleteMarked r p (deleteMarkFailed r p) := by
  have step := makeSuspect_mapStep (MapStep.refl (modServing r.age (fun r => { r with notes := withNote .mediaEvent r.notes }) p))
    r.elem.sector none
  exact
    { directory := by rw [deleteMarkFailed, step.sdr]; rfl
      rqs := step.rqs
      replies := by rw [deleteMarkFailed, step.link]; rfl
      held := by rw [deleteMarkFailed, step.link]; rfl
      op := step.op
      counts := fun n => by
        obtain ⟨-, -, live, pending, retiring⟩ := step.counts n
        exact ⟨live, pending, retiring⟩
      record := fun a ha => (servingOf_of_serving (by rw [deleteMarkFailed, step.sdr]) a).trans
        (servingOf_modServing_other (f := fun r => { r with notes := withNote .mediaEvent r.notes }) (fun _ => rfl) ha p)
      serving := fun x hx other => by
        rw [deleteMarkFailed, step.sdr] at hx
        obtain ⟨y, hy, rfl⟩ := List.mem_map.1 hx
        split at other
        · rename_i same; exact absurd same other
        · rename_i same; rw [if_neg same]; exact hy
      claims := makeSuspect_newClaims (q := modServing r.age _ p) (NewClaims.refl p).pee _ _ }

/-- R48: a sector made suspect is suspect. -/
theorem makeSuspect_suspect {i : Nat} (hi : i < p.smp.sectors.length) : ((makeSuspect i none p).sector i).suspect = true := by
  refine (settleSuspect_mapStep (MapStep.refl (markSuspect i p)) i (p.sector i).state).suspect i ?_
  rw [markSuspect_sector hi, if_pos rfl]

theorem deleteMarkFailed_suspect (inside : r.elem.sector < p.smp.sectors.length) :
    ((deleteMarkFailed r p).sector r.elem.sector).suspect = true :=
  makeSuspect_suspect (p := modServing r.age _ p) inside

/-- The record of a DELETE whose mark failed finally. -/
def Serving.blamed (r : Serving) : Serving := { r with notes := withNote .mediaEvent r.notes }

theorem deleteMarkFailed_servingOf (record : p.servingOf r.age = some r) : (deleteMarkFailed r p).servingOf r.age = some r.blamed := by
  have step := makeSuspect_mapStep (MapStep.refl (modServing r.age (fun r => { r with notes := withNote .mediaEvent r.notes }) p))
    r.elem.sector none
  exact (servingOf_of_serving (by rw [deleteMarkFailed, step.sdr]; rfl) _).trans
    (servingOf_modServing_self (f := Serving.blamed) (fun _ => rfl) record)

/-- R112: a failed attempt whose mark reads as set has succeeded. -/
theorem deleteReadBackDone_set (record : p.servingOf r.age = some r) (here : r.gone = false) {b : Byte} (set : b ≠ 0xFF) :
    deleteReadBackDone r.age b p = deleteSucceeded r.blamed (deleteMarkFailed r p) := by
  unfold deleteReadBackDone
  rw [record]
  dsimp only
  rw [here, if_neg Bool.false_ne_true, if_pos (by unfold markSet; simpa using set), deleteMarkFailed_servingOf record]

/-! ### A DELETE that succeeds -/

/-- R36: in `q` the entry of a DELETE has left `p`, with its bytes and the DELETE's record. -/
def EntryLeft (r : Serving) (d : DirEntry) (p q : Part) : Prop :=
  q.sdr.directory = p.sdr.directory.filter (fun x => x.slot ≠ r.slot) ∧ q.servingOf r.age = none ∧
  ∀ n, (q.sector n).live = (p.sector n).live - spaceOf n d.extents ∧ (q.sector n).pending = (p.sector n).pending ∧
    (q.sector n).retiring = (p.sector n).retiring

/-- R113, R118: the replies of `q` are those of `p`, the NO_SLOT of the other requests of the slot among what follows them, then the
DELETE's own with its notes, then those of the ABORTs that wait on it. -/
def DeleteAnswered (r : Serving) (e : Entry) (notes : Byte) (p q : Part) : Prop :=
  ∃ earlier, q.link.replies = earlier ++
      [{ kind := e.request.kind, tag := e.tag, status := .ok, notes := notes, payload := be 2 r.slot ++ be 4 r.sequence, place := .queued }] ++
      (p.link.held.filter (fun h => h.target = e.age)).map (HeldAbort.reply .tooLate) ∧
    p.link.replies <+: earlier ∧
    ∀ x f, p.servingOf x.age = some x → x.slot = r.slot → x.age ≠ r.age → p.queueEntry x.age = some f →
      (∀ c, p.pee.op = some c → c.purpose.owner ≠ .serving x.age) →
      { kind := f.request.kind, tag := f.tag, status := .noSlot, notes := x.notes, payload := be 2 r.slot, place := .queued } ∈ earlier

section
variable {v : Serving} (h : DeleteMarked r p q) (age : v.age = r.age) (slot : v.slot = r.slot) (hd : p.entryOf r.slot = some d)
include h age slot hd

theorem DeleteMarked.entry_left : EntryLeft r d p (deleteSucceeded v q) ∧
    ∀ n, (q.sector n).suspect = true → ((deleteSucceeded v q).sector n).suspect = true := by
  have hd' : q.entryOf v.slot = some d := by rw [slot]; exact (entryOf_of_directory h.directory _).trans hd
  obtain ⟨directory, record, counts, suspect⟩ := deleteSucceeded_removes hd'
  refine ⟨⟨by rw [directory, h.directory, slot], by rw [← age]; exact record, fun n => ?_⟩, suspect⟩
  obtain ⟨live, pending, retiring⟩ := counts n
  obtain ⟨live', pending', retiring'⟩ := h.counts n
  exact ⟨by rw [live, live'], pending.trans pending', retiring.trans retiring'⟩

theorem DeleteMarked.answered (sequence : v.sequence = r.sequence) (he : p.queueEntry r.age = some e) :
    (deleteSucceeded v q).queueEntry r.age = none ∧ DeleteAnswered r e v.notes p (deleteSucceeded v q) := by
  have hd' : q.entryOf v.slot = some d := by rw [slot]; exact (entryOf_of_directory h.directory _).trans hd
  have he' : q.queueEntry v.age = some e := by rw [age]; exact (queueEntry_of_rqs h.rqs _).trans he
  obtain ⟨entry, earlier, replies, before, others⟩ := deleteSucceeded_answered hd' he'
  refine ⟨age ▸ entry, earlier, ?_, h.replies ▸ before, fun x f record same other hf rests => ?_⟩
  · rw [replies, h.held, deletePayload, slot, sequence]
  · rw [← same]
    exact others x f ((h.record x.age other).trans record) (same.trans slot.symm) (by rw [age]; exact other)
      ((queueEntry_of_rqs h.rqs _).trans hf) (by rw [h.op]; exact rests)

theorem DeleteMarked.silent (he : p.queueEntry r.age = none) : ∃ l, (deleteSucceeded v q).link.replies = p.link.replies ++ l ∧
    ∀ y ∈ l, ∃ a ∈ othersOf r p, NoSlotReply a p y := by
  have hd' : q.entryOf v.slot = some d := by rw [slot]; exact (entryOf_of_directory h.directory _).trans hd
  obtain ⟨l, replies, others⟩ := deleteSucceeded_silent hd' (by rw [age]; exact (queueEntry_of_rqs h.rqs _).trans he)
  have falls : QueueFalls p q :=
    ⟨fun a f hf => (queueEntry_of_rqs h.rqs a).symm.trans hf, fun x hx => h.held ▸ hx⟩
  refine ⟨l, by rw [replies, h.replies], fun y hy => ?_⟩
  obtain ⟨a, ha, is⟩ := others y hy
  obtain ⟨x, hx, same, other, rfl⟩ := mem_othersOf.1 ha
  rw [age] at other
  exact ⟨x.age, mem_othersOf.2 ⟨x, h.serving x hx other, same.trans slot, other, rfl⟩, is.mono falls⟩

end

/-! ### A DELETE that fails finally (R36, R112) -/

/-- R36, R112: the part at which a DELETE's mark has failed finally and its entry has no delete pending. -/
def deleteUnmarked (r : Serving) (p : Part) : Part := clearDeletePending r.slot (deleteMarkFailed r p)

theorem deleteUnmarked_ended (r : Serving) (p : Part) (st : Status) (n : Byte) (pl : List Byte) :
    let q := completeServing r.age st n pl (deleteUnmarked r p)
    q.servingOf r.age = none ∧ q.sdr.directory = p.sdr.directory.map (fun x => if x.slot = r.slot then { x with deletePending := false } else x) ∧
    (r.elem.sector < p.smp.sectors.length → (q.sector r.elem.sector).suspect = true) := by
  have step := completeServing_servedStep (ServedStep.refl (deleteUnmarked r p)) r.age st n pl
  refine ⟨completeServing_servingOf_self .., ?_, fun inside => ?_⟩
  · rw [step.directory, deleteUnmarked, clearDeletePending, modEntry, ← (deleteMarkFailed_marked r p).directory]
  · rw [step.sector]
    exact deleteMarkFailed_suspect inside

theorem deleteUnmarked_queueEntry (r : Serving) (p : Part) (a : Nat) : (deleteUnmarked r p).queueEntry a = p.queueEntry a :=
  queueEntry_of_rqs (deleteMarkFailed_marked r p).rqs a

/-! ### A retiring record that leaves (R30) -/

section
variable {r : Retiring}

/-- R31: the space of the extra head copy that a record counts in a sector. -/
def Retiring.extraIn (r : Retiring) (n : Nat) : Nat :=
  match r.extra with
  | some x => if x.1 = n then x.2 else 0
  | none => 0

/-- R30: the part at which a record is off the list. -/
def unlisted (r : Retiring) (p : Part) : Part := { p with sdr := { p.sdr with
  retiring := p.sdr.retiring.filter (fun x => !(decide (x.slot = r.slot) && decide (x.sequence = r.sequence))) } }

/-- R30: the part at which a record's retiring bytes are released too. -/
def recordDropped (r : Retiring) (p : Part) : Part :=
  match r.extra with
  | some x => subRetiring x.1 x.2 (forElems subRetiring r.extents (unlisted r p))
  | none => forElems subRetiring r.extents (unlisted r p)

theorem recordLeaves_waiting {c : CtxId} (h : r.waiting = some c) (p : Part) :
    recordLeaves r p = finishEnd c (some .ok) (recordDropped r p) := by
  unfold recordLeaves
  rw [h]
  rfl

theorem recordLeaves_alone (h : r.waiting = none) (p : Part) : recordLeaves r p = recordDropped r p := by
  unfold recordLeaves
  rw [h]
  rfl

theorem recordDropped_counts (r : Retiring) (p : Part) :
    MapStep (recount same same (fun j m => m - (spaceOf j r.extents + r.extraIn j)) (unlisted r p)) (recordDropped r p) := by
  have bytes := forElems_subRetiring r.extents (fun _ => 0) _ ((MapStep.refl (unlisted r p)).recounted :)
  unfold recordDropped Retiring.extraIn
  cases r.extra with
  | none => simpa only [Nat.zero_add, Nat.add_zero] using bytes
  | some x =>
    have extra := subRetiring_counts bytes x.1 x.2
    rw [thenAt_sub x.1 x.2 (fun _ m => m)] at extra
    simpa only [Nat.zero_add, eq_comm (a := x.1)] using extra

theorem recordDropped_wcu (r : Retiring) (p : Part) : (recordDropped r p).wcu = p.wcu := by
  have one (i n : Nat) (q : Part) : (subRetiring i n q).wcu = q.wcu := judgeSector_wcu i _
  have bytes : (forElems subRetiring r.extents (unlisted r p)).wcu = p.wcu := forElems_wcu one ..
  unfold recordDropped
  cases r.extra with
  | none => exact bytes
  | some x => exact (one ..).trans bytes

/-- R30: the bytes a record that leaves releases, and what it leaves as it is. -/
theorem recordDropped_sector (r : Retiring) (p : Part) (n : Nat) :
    ((recordDropped r p).sector n).live = (p.sector n).live ∧ ((recordDropped r p).sector n).pending = (p.sector n).pending ∧
    ((recordDropped r p).sector n).retiring = (p.sector n).retiring - spaceOf n r.extents - r.extraIn n ∧
    ((p.sector n).suspect = true → ((recordDropped r p).sector n).suspect = true) := by
  have step := recordDropped_counts r p
  obtain ⟨-, -, live, pending, retiring⟩ := step.counts n
  have suspect := step.suspect n
  rw [recount_sector] at live pending retiring suspect
  rw [Nat.sub_sub]
  split at live
  · rw [if_pos ‹_›] at pending retiring suspect
    exact ⟨live, pending, retiring, suspect⟩
  · rw [if_neg ‹_›] at pending retiring suspect
    have cold : p.sector n = Sector.cold := sector_of_length_le (Nat.le_of_not_lt ‹_›)
    refine ⟨live, pending, retiring.trans ?_, suspect⟩
    show (p.sector n).retiring = _
    rw [cold]
    exact (Nat.zero_sub _).symm

theorem unlisted_retiringOf (r : Retiring) (p : Part) : (unlisted r p).retiringOf r.slot r.sequence = none := by
  refine List.find?_eq_none.2 fun x hx => ?_
  simpa [imp_iff_not_or] using (List.mem_filter.1 hx).2

/-- What the end of a context is told of holds of any part with its contexts, its sectors' live and pending bytes and its replies. -/
theorem EndedWith.base {c : CtxId} {st : Status} {m : Part} (h : EndedWith c st m q) (wcu : m.wcu = p.wcu) (mounted : m.mounted = p.mounted)
    (sectors : ∀ i, (m.sector i).live = (p.sector i).live ∧ (m.sector i).pending = (p.sector i).pending)
    (replies : m.link.replies = p.link.replies) : EndedWith c st p q := by
  have ctx : p.ctx c = m.ctx c := (ctx_of_wcu wcu c).symm
  obtain ⟨state, owned, current, reservation, ending, credit, ⟨claims, waits, slot, bytes⟩, reply⟩ := h
  refine ⟨state, owned, current, reservation, ending, credit, ⟨claims, waits, by rw [ctx]; exact slot, fun m' i => ?_⟩, ?_⟩
  · obtain ⟨pending, live⟩ := bytes (mounted.trans m') i
    rw [ctx, ← (sectors i).1, ← (sectors i).2]
    exact ⟨pending, live⟩
  · rw [ctx, ← replies]
    exact reply

/-- R30, R97: a record that leaves releases its bytes, and the context that waits on it ends with OK. -/
theorem recordLeaves_leaves (mounted : p.mounted = true) : (recordLeaves r p).retiringOf r.slot r.sequence = none ∧
    (∀ n, ((recordLeaves r p).sector n).retiring = (p.sector n).retiring - spaceOf n r.extents - r.extraIn n) ∧
    (∀ c, r.waiting = some c → EndedWith c .ok p (recordLeaves r p)) ∧
    (r.waiting = none → (recordLeaves r p).link.replies = p.link.replies) ∧
    (∀ n, (p.sector n).suspect = true → ((recordLeaves r p).sector n).suspect = true) := by
  have step := recordDropped_counts r p
  have gone : (recordDropped r p).retiringOf r.slot r.sequence = none :=
    (retiringOf_of_retiring (by rw [step.sdr]; rfl) _ _).trans (unlisted_retiringOf r p)
  have replies : (recordDropped r p).link.replies = p.link.replies := by rw [step.link]; rfl
  have up : (recordDropped r p).mounted = p.mounted := by unfold Part.mounted; rw [step.scu]; rfl
  have sectors := recordDropped_sector r p
  cases hw : r.waiting with
  | none =>
    rw [recordLeaves_alone hw]
    exact ⟨gone, fun n => (sectors n).2.2.1, nofun, fun _ => replies, fun n => (sectors n).2.2.2⟩
  | some c =>
    have spec := released_spec c (recordDropped r p)
    have sector (n : Nat) : (finishEnd c (some .ok) (recordDropped r p)).sector n = (released c (recordDropped r p)).sector n := by
      rw [finishEnd_released]
      exact modCtx_sector ..
    rw [recordLeaves_waiting hw]
    refine ⟨(retiringOf_of_retiring finishEnd_retiring _ _).trans gone, fun n => ?_, fun d hd => ?_, nofun, fun n suspect => ?_⟩
    · obtain ⟨-, retiring, -⟩ := spec.counts (up.trans mounted) n
      rw [sector, retiring]
      exact (sectors n).2.2.1
    · cases hd
      exact (finishEnd_ended c .ok _).base (recordDropped_wcu r p) up (fun i => ⟨(sectors i).1, (sectors i).2.1⟩) replies
    · rw [sector]
      exact (spec.stays n).2.2 ((sectors n).2.2.2 suspect)

/-- R30: a record that leaves changes no set of lingering heads. -/
theorem recordLeaves_lingering {s : Nat} {d : DirEntry} (hd : (recordLeaves r p).entryOf s = some d) :
    ∃ x, p.entryOf s = some x ∧ d.lingering = x.lingering := by
  have entry : (recordDropped r p).entryOf s = p.entryOf s :=
    (entryOf_of_directory (by rw [(recordDropped_counts r p).sdr]; rfl) s).trans rfl
  cases hw : r.waiting with
  | none =>
    rw [recordLeaves_alone hw, entry] at hd
    exact ⟨d, hd, rfl⟩
  | some c =>
    rw [recordLeaves_waiting hw, finishEnd_entryOf, entry] at hd
    obtain ⟨x, hx, rfl⟩ := Option.map_eq_some_iff.1 hd
    exact ⟨x, hx, by rw [DirEntry.letGo_eq]⟩

end

/-! ### An OBSOLETE attempt (R30, R32) -/

section
variable {r : Retiring} (hr : p.retiringOf r.slot r.sequence = some r)
include hr

/-- R30: a failed attempt that leaves one more. -/
theorem obsoleteDone_again (left : r.attempts < 3) : obsoleteDone r.slot r.sequence false p =
    raiseObsolete r.slot r.sequence (noteWaiting r .retried p) := by
  unfold obsoleteDone
  rw [hr]
  dsimp only
  rw [if_neg Bool.false_ne_true, if_pos left]

theorem obsoleteDone_final (final : 3 ≤ r.attempts) : obsoleteDone r.slot r.sequence false p =
    recordLeaves r (addLingering r.slot r.head.sector (makeSuspect r.head.sector none (noteWaiting r .mediaEvent p))) := by
  unfold obsoleteDone
  rw [hr]
  dsimp only
  rw [if_neg Bool.false_ne_true, if_neg (Nat.not_lt.2 final)]

theorem obsoleteDone_ok : obsoleteDone r.slot r.sequence true p = recordLeaves r p := by
  unfold obsoleteDone
  rw [hr]
  exact if_pos rfl

end

theorem noteWaiting_eq (r : Retiring) (n : Note) (p : Part) : ∃ w, noteWaiting r n p = { p with wcu := w } := by
  unfold noteWaiting
  split
  · rename_i c _
    unfold noteCtx
    cases c <;> exact ⟨_, rfl⟩
  · exact ⟨_, rfl⟩

/-- R30, R156: an attempt made again is counted, and noted for the context that waits on it. -/
theorem obsoleteDone_raises {r : Retiring} (hr : p.retiringOf r.slot r.sequence = some r) (left : r.attempts < 3) :
    let q := obsoleteDone r.slot r.sequence false p
    Raised (.obsolete r.slot r.sequence) .mark r.level (.bytes r.head.sector (r.head.offset + 24) [0x00]) p q ∧
      q.retiringOf r.slot r.sequence = some { r with attempts := r.attempts + 1 } ∧
      ∀ c, r.waiting = some c → (q.ctx c).notes = (p.ctx c).notes ||| 0x04 := by
  obtain ⟨w, noted⟩ := noteWaiting_eq r .retried p
  have hr' : (noteWaiting r .retried p).retiringOf r.slot r.sequence = some r := by rw [noted]; exact hr
  have raised : Raised (.obsolete r.slot r.sequence) .mark r.level (.bytes r.head.sector (r.head.offset + 24) [0x00])
      (noteWaiting r .retried p) (raiseObsolete r.slot r.sequence (noteWaiting r .retried p)) := by
    unfold raiseObsolete
    rw [hr']
    exact raise_raised ..
  rw [obsoleteDone_again hr left]
  refine ⟨by rw [noted] at raised ⊢; exact raised, raiseObsolete_retiringOf_self hr', fun c hc => ?_⟩
  rw [raiseObsolete_eq]
  show ((noteWaiting r .retried p).ctx c).notes = _
  unfold noteWaiting
  rw [hc]
  dsimp only [noteCtx]
  rw [modCtx_ctx]
  rfl

/-- R30, R32: a record whose last attempt failed leaves, its head's sector suspect and among the lingering heads of its slot's entry. -/
theorem obsoleteDone_fails {r : Retiring} (hr : p.retiringOf r.slot r.sequence = some r) (final : 3 ≤ r.attempts) (mounted : p.mounted = true) :
    let q := obsoleteDone r.slot r.sequence false p
    q.retiringOf r.slot r.sequence = none ∧
    (∀ n, (q.sector n).retiring = (p.sector n).retiring - spaceOf n r.extents - r.extraIn n) ∧
    (∀ c, r.waiting = some c → EndedWith c .ok (makeSuspect r.head.sector none (noteWaiting r .mediaEvent p)) q) ∧
    (r.waiting = none → q.link.replies = p.link.replies) ∧
    (r.head.sector < p.smp.sectors.length → (q.sector r.head.sector).suspect = true) ∧
    ∀ d, q.entryOf r.slot = some d → r.head.sector ∈ d.lingering := by
  obtain ⟨w, noted⟩ := noteWaiting_eq r .mediaEvent p
  have step := makeSuspect_mapStep (MapStep.refl (noteWaiting r .mediaEvent p)) r.head.sector none
  have up : (addLingering r.slot r.head.sector (makeSuspect r.head.sector none (noteWaiting r .mediaEvent p))).mounted = true := by
    show decide ((makeSuspect r.head.sector none (noteWaiting r .mediaEvent p)).scu.store = .mounted) = true
    rw [step.scu, noted]
    exact mounted
  obtain ⟨gone, counts, ended, replies, suspect⟩ := recordLeaves_leaves (r := r) up
  rw [obsoleteDone_final hr final]
  refine ⟨gone, fun n => (counts n).trans ?_, fun c hc => (ended c hc).base rfl rfl (fun _ => ⟨rfl, rfl⟩) rfl, fun none_ => ?_,
    fun inside => suspect _ ?_, fun d hd => ?_⟩
  · obtain ⟨-, -, -, -, retiring⟩ := step.counts n
    exact congrArg (· - _ - _) (retiring.trans (by rw [noted]; rfl))
  · refine (replies none_).trans ?_
    show (makeSuspect r.head.sector none (noteWaiting r .mediaEvent p)).link.replies = _
    rw [step.link, noted]
  · exact makeSuspect_suspect (p := noteWaiting r .mediaEvent p) (by rw [noted]; exact inside)
  · obtain ⟨x, hx, kept⟩ := recordLeaves_lingering hd
    unfold addLingering at hx
    rw [entryOf_modEntry _ (fun e => by split <;> rfl)] at hx
    obtain ⟨y, hy, rfl⟩ := Option.map_eq_some_iff.1 hx
    rw [kept, if_pos (entryOf_slot hy)]
    split
    · rename_i mem; exact List.contains_iff_mem.1 mem
    · exact List.mem_append_right _ (List.mem_singleton_self _)

end Sys2Proof.Machine
end

