-- ==== Sys2Proof/Proofs/ServedWorkEnds.lean ====
section
/-! O3. The obligation, from the equations of `ServedWork`. -/
namespace Sys2Proof.Machine

variable {p : Part} {r : Serving} {d : DirEntry} {e : Entry}

/-! ### Requests that end with a reply in their entry's place (R105, R148) -/

theorem completeServing_answered (he : p.queueEntry r.age = some e) (st : Status) (n : Byte) (pl : List Byte) :
    completeServing r.age st n pl p =
      endedPart e st n pl { p with sdr := { p.sdr with serving := p.sdr.serving.filter (fun x => x.age ≠ r.age) } } :=
  completeServing_eq he st n pl

/-- R105: a record whose entry RESTART discarded ends with no reply. -/
theorem completeServing_detached (he : p.queueEntry r.age = none) (st : Status) (n : Byte) (pl : List Byte) :
    completeServing r.age st n pl p = { p with sdr := { p.sdr with serving := p.sdr.serving.filter (fun x => x.age ≠ r.age) } } :=
  completeEntry_absent (p := dropServing r.age p) he st n pl

/-- R112: the reply of a DELETE that fails finally. -/
theorem deleteUnmarked_replies (he : p.queueEntry r.age = some e) (st : Status) (n : Byte) (pl : List Byte) :
    let q := completeServing r.age st n pl (deleteUnmarked r p)
    q.link.replies = (endedPart e st n pl p).link.replies ∧ q.queueEntry r.age = none := by
  have marked := deleteMarkFailed_marked r p
  have he' := (deleteUnmarked_queueEntry r p r.age).trans he
  rw [completeServing_answered he']
  refine ⟨?_, by rw [← queueEntry_age he]; exact queueEntry_endedPart_self ..⟩
  show (deleteMarkFailed r p).link.replies ++ _ ++ List.map _ ((deleteMarkFailed r p).link.held.filter _) = _
  rw [marked.replies, marked.held]
  rfl

theorem EntryLeft.of_ok (record : p.servingOf r.age = some r) (here : r.gone = false) (hd : p.entryOf r.slot = some d) :
    EntryLeft r d p (deleteMarkDone r.age true p) := by
  rw [deleteMarkDone_ok record here]
  exact ((DeleteMarked.refl r p).entry_left rfl rfl hd).1

/-- R36, R112: a failed attempt whose mark reads as set has its entry leave, with its head's sector suspect. -/
theorem EntryLeft.of_set (record : p.servingOf r.age = some r) (here : r.gone = false) (hd : p.entryOf r.slot = some d) {b : Byte}
    (set : b ≠ 0xFF) : EntryLeft r d p (deleteReadBackDone r.age b p) ∧
      (r.elem.sector < p.smp.sectors.length → ((deleteReadBackDone r.age b p).sector r.elem.sector).suspect = true) := by
  obtain ⟨left, suspect⟩ := (deleteMarkFailed_marked r p).entry_left (v := r.blamed) rfl rfl hd
  rw [deleteReadBackDone_set record here set]
  exact ⟨left, fun inside => suspect _ (deleteMarkFailed_suspect inside)⟩

theorem noSlotReply_ofOther {y : Reply} (h : ∃ a ∈ othersOf r p, NoSlotReply a p y) :
    (y.status = .noSlot ∧ y.place = .queued ∧ ∃ x ∈ p.sdr.serving, x.slot = r.slot ∧ x.age ≠ r.age ∧
      ∃ f, p.queueEntry x.age = some f ∧ y.kind = f.request.kind ∧ y.tag = f.tag) ∨
    (y.kind = 0x06 ∧ y.place = .direct ∧ ∃ h ∈ p.link.held, h.target ≠ r.age ∧ y.tag = h.tag) := by
  obtain ⟨a, ha, is⟩ := h
  obtain ⟨x, hx, slot, other, rfl⟩ := mem_othersOf.1 ha
  rcases is with ⟨status, place, entry⟩ | ⟨kind, place, h, hh, target, tag⟩
  · exact .inl ⟨status, place, x, hx, slot, other, entry⟩
  · exact .inr ⟨kind, place, h, hh, by rw [target]; exact other, tag⟩

/-- Settles O3: each completion is one of the ends of `ServedWork`, with the replies that follow. -/
theorem servedWorkEnds : Obligations.ServedWorkEnds := by
  unfold Obligations.ServedWorkEnds
  refine ⟨fun p r e record he => ⟨fun gone i o ok bs => ?_, fun here bs => ?_, fun here bs d hd => ?_, fun here d hd => ?_⟩,
    fun p r i o bs record he detached => ⟨fun gone => ?_, fun here d hd => ?_⟩, fun p r i o bs hr mounted => ⟨?_, ?_, fun final => ?_⟩⟩
  · have ended : completeNoSlot r p = _ := completeServing_answered he ..
    exact ⟨(readDone_gone record gone bs).trans ended, (verifyDone_gone record gone bs).trans ended,
      (deleteReadBackDone_gone record gone _).trans ended, (deleteMarkDone_gone record gone _).trans ended⟩
  · exact (readDone_eq record here bs).trans (completeServing_answered he ..)
  · refine ⟨fun passes waits => ?_, fun passes waits last => ?_, fun passes waits x hx => ?_, fun fails => ?_⟩
    · exact (verifyDone_aborted record here ((verifyPasses_iff ..).2 passes) he waits).trans (completeServing_answered he ..)
    · refine (verifyDone_goes_on record here ((verifyPasses_iff ..).2 passes) he waits hd).trans ?_
      rw [if_pos last]
      exact completeServing_answered he ..
    · exact verifyDone_next record here ((verifyPasses_iff ..).2 passes) he waits hd hx
    · have step := makeSuspect_mapStep (MapStep.refl p) r.elem.sector none
      exact (verifyDone_fails record here (Bool.eq_false_iff.2 fun passes => fails ((verifyPasses_iff ..).1 passes))).trans
        (completeServing_answered ((queueEntry_of_rqs step.rqs _).trans he) ..)
  · refine ⟨fun i o bs => ?_, fun i o bs => deleteMarkDone_failed record here, fun b set => ?_,
      fun left attached => deleteReadBackDone_again record here left attached, fun final => ?_⟩
    · obtain ⟨directory, gone, counts⟩ := EntryLeft.of_ok record here hd
      have answered := (DeleteMarked.refl r p).answered rfl rfl hd rfl he
      rw [← deleteMarkDone_ok record here] at answered
      obtain ⟨entry, earlier⟩ := answered
      exact ⟨directory, gone, entry, counts, earlier⟩
    · obtain ⟨⟨directory, gone, counts⟩, suspect⟩ := EntryLeft.of_set record here hd set
      have answered := (deleteMarkFailed_marked r p).answered (v := r.blamed) rfl rfl hd rfl he
      rw [← deleteReadBackDone_set record here set] at answered
      obtain ⟨entry, earlier⟩ := answered
      exact ⟨⟨directory, gone, entry, counts, earlier⟩, suspect⟩
    · have ended : _ = completeServing r.age _ _ _ (deleteUnmarked r p) := deleteReadBackDone_final record here final
      obtain ⟨gone, directory, suspect⟩ := deleteUnmarked_ended r p .mediaFault (withNote .mediaEvent r.notes) (deletePayload r)
      obtain ⟨replies, entry⟩ := deleteUnmarked_replies he .mediaFault (withNote .mediaEvent r.notes) (deletePayload r)
      rw [← ended] at gone directory suspect replies entry
      exact ⟨replies, gone, entry, directory, suspect⟩
  · have ended : completeNoSlot r p = _ := completeServing_detached he ..
    exact ⟨fun ok => (deleteMarkDone_gone record gone ok).trans ended, fun b => (deleteReadBackDone_gone record gone _).trans ended⟩
  · refine ⟨?_, deleteMarkDone_failed record here, fun b set => ?_, ?_⟩
    · obtain ⟨directory, gone, counts⟩ := EntryLeft.of_ok record here hd
      obtain ⟨l, replies, others⟩ := (DeleteMarked.refl r p).silent rfl rfl hd he
      rw [← deleteMarkDone_ok record here] at replies
      exact ⟨directory, gone, counts, l, replies, fun y hy => noSlotReply_ofOther (others y hy)⟩
    · obtain ⟨⟨directory, gone, counts⟩, suspect⟩ := EntryLeft.of_set record here hd set
      obtain ⟨l, replies, others⟩ := (deleteMarkFailed_marked r p).silent (v := r.blamed) rfl rfl hd he
      rw [← deleteReadBackDone_set record here set] at replies
      exact ⟨⟨directory, gone, counts, l, replies, fun y hy => noSlotReply_ofOther (others y hy)⟩, suspect⟩
    · have marked := deleteMarkFailed_marked r p
      have ended : _ = completeServing r.age _ _ _ (deleteUnmarked r p) := deleteReadBackDone_final record here (.inr detached)
      obtain ⟨gone, directory, suspect⟩ := deleteUnmarked_ended r p .mediaFault (withNote .mediaEvent r.notes) (deletePayload r)
      have silent := completeServing_detached (p := deleteUnmarked r p) ((deleteUnmarked_queueEntry r p r.age).trans he) .mediaFault
        (withNote .mediaEvent r.notes) (deletePayload r)
      rw [← ended] at gone directory suspect silent
      refine ⟨(congrArg (·.link.replies) silent).trans marked.replies, gone, suspect, fun x hx own => ?_, directory⟩
      · obtain ⟨l, claims, new⟩ := marked.claims.claims
        replace hx : x ∈ (deleteMarkFailed r p).pee.claims := (congrArg (·.pee.claims) silent) ▸ hx
        rcases List.mem_append.1 (claims ▸ hx : x ∈ p.pee.claims ++ l) with hx | hx
        · exact hx
        · rcases (new x hx).2 with e | ⟨i, e⟩ <;> rw [e] at own <;> cases own
  · have ended := obsoleteDone_ok hr
    obtain ⟨gone, counts, waits, replies, -⟩ := recordLeaves_leaves (r := r) mounted
    rw [← ended] at gone counts waits replies
    exact ⟨gone, counts, fun c hc _ => waits c hc, replies⟩
  · exact fun left => obsoleteDone_raises hr left
  · obtain ⟨gone, counts, waits, replies, suspect, lingering⟩ := obsoleteDone_fails hr final mounted
    exact ⟨⟨gone, counts, fun c hc _ => waits c hc, replies⟩, suspect, lingering⟩

end Sys2Proof.Machine
end

