-- ==== Sys2Proof/Proofs/Yields.lean ====
section
/-! SUPPORT. What the operations of the Sector Map that give sectors up leave of counts and owners (R44, R45, R48, R50): no count rises, no
owner is new, and a context loses its sector only with the owner of one. One lemma for each operation, in the form "if `q` follows `p`, so
does the operation on `q`". -/
namespace Sys2Proof.Machine

/-- `q` may follow `p` by operations that release bytes, seal, give up, judge or make suspect; the sector of context `c` is spoken of. -/
structure Yields (c : CtxId) (p q : Part) : Prop where
  falls : ∀ j, (q.sector j).live ≤ (p.sector j).live ∧ (q.sector j).pending ≤ (p.sector j).pending ∧
            (q.sector j).retiring ≤ (p.sector j).retiring
  owner : ∀ j, (q.sector j).owner = (p.sector j).owner ∨ (q.sector j).owner = none
  owned : (q.ctx c).owned = (p.ctx c).owned ∨ ∃ j, (p.sector j).owner = some (.ctx c) ∧ (q.sector j).owner = none

section
variable {c : CtxId} {p q : Part}

theorem Yields.refl (c : CtxId) (p : Part) : Yields c p p :=
  ⟨fun _ => ⟨Nat.le_refl _, Nat.le_refl _, Nat.le_refl _⟩, fun _ => .inl rfl, .inl rfl⟩

theorem Yields.trans {r : Part} (h : Yields c p q) (g : Yields c q r) : Yields c p r where
  falls := fun j => by
    obtain ⟨live, pending, retiring⟩ := h.falls j
    obtain ⟨live', pending', retiring'⟩ := g.falls j
    exact ⟨live'.trans live, pending'.trans pending, retiring'.trans retiring⟩
  owner := fun j => (g.owner j).elim (fun e => (h.owner j).imp e.trans e.trans) .inr
  owned := by
    rcases g.owned with e | ⟨j, held, none_⟩
    · rcases h.owned with e' | ⟨j, held, none_⟩
      · exact .inl (e.trans e')
      · exact .inr ⟨j, held, (g.owner j).elim (fun e => e.trans none_) id⟩
    · refine .inr ⟨j, ?_, none_⟩
      rcases h.owner j with e' | e'
      · exact e'.symm.trans held
      · rw [e'] at held; cases held

/-- What leaves the sectors and the context's own sector as they are. -/
theorem Yields.same (h : Yields c p q) {r : Part} (sectors : r.smp.sectors = q.smp.sectors := by rfl)
    (owned : (r.ctx c).owned = (q.ctx c).owned := by rfl) : Yields c p r := by
  have sector (j : Nat) : r.sector j = q.sector j := by unfold Part.sector; rw [sectors]
  refine h.trans ⟨fun j => ?_, fun j => .inl (by rw [sector]), .inl owned⟩
  rw [sector]
  exact ⟨Nat.le_refl _, Nat.le_refl _, Nat.le_refl _⟩

theorem Yields.wcu (h : Yields c p q) {r : Part} (sectors : r.smp.sectors = q.smp.sectors := by rfl)
    (wcu : r.wcu = q.wcu := by rfl) : Yields c p r := h.same sectors (by rw [ctx_of_wcu wcu])

theorem modSector_yields (h : Yields c p q) (i : Nat) (f : Sector → Sector)
    (hf : ∀ s, (f s).live ≤ s.live ∧ (f s).pending ≤ s.pending ∧ (f s).retiring ≤ s.retiring ∧ (f s).owner = s.owner) :
    Yields c p (modSector i f q) := by
  refine h.trans ⟨fun j => ?_, fun j => .inl ?_, .inl rfl⟩
  · rw [sector_modSector]
    split
    · obtain ⟨live, pending, retiring, -⟩ := hf (q.sector j)
      exact ⟨live, pending, retiring⟩
    · exact ⟨Nat.le_refl _, Nat.le_refl _, Nat.le_refl _⟩
  · rw [sector_modSector]
    split
    · exact (hf _).2.2.2
    · rfl

theorem judgeSector_yields (h : Yields c p q) (i : Nat) : Yields c p (judgeSector i q) := by
  refine h.trans ⟨fun j => ?_, fun j => .inl ?_, .inl (by rw [ctx_of_wcu (judgeSector_wcu i q)])⟩
  · obtain ⟨-, -, live, pending, retiring⟩ := (judgeSector_mapStep (.refl q) i).counts j
    exact ⟨live.le, pending.le, retiring.le⟩
  · rw [judgeSector_sector]
    split
    · rename_i this; rw [this.1]
    · rfl

theorem dropOwner_yields (h : Yields c p q) (i : Nat) : Yields c p (dropOwner i q) := by
  have sector (j : Nat) := dropOwner_sector i q j
  refine h.trans ⟨fun j => ?_, fun j => ?_, ?_⟩
  · rw [sector]
    split
    · rename_i this; rw [this.1]; exact ⟨Nat.le_refl _, Nat.le_refl _, Nat.le_refl _⟩
    · exact ⟨Nat.le_refl _, Nat.le_refl _, Nat.le_refl _⟩
  · rw [sector]
    split
    · exact .inr rfl
    · exact .inl rfl
  · cases ho : (q.sector i).owner with
    | none => exact .inl (by unfold dropOwner; rw [ho]; rfl)
    | some o =>
      cases o with
      | runner => exact .inl (by unfold dropOwner; rw [ho]; rfl)
      | ctx d =>
        by_cases hd : c = d
        · subst hd
          refine .inr ⟨i, ho, ?_⟩
          have inside : i < q.smp.sectors.length := by
            by_contra out
            rw [sector_of_length_le (Nat.le_of_not_lt out)] at ho
            cases ho
          rw [sector, if_pos ⟨rfl, inside⟩]
        · refine .inl ?_
          unfold dropOwner
          rw [ho]
          exact congrArg WriteCtx.owned (modCtx_ctx_other hd _ q)

/-- R44: a sector whose owner is dropped has none. -/
theorem dropOwner_owner (i : Nat) (p : Part) : ((dropOwner i p).sector i).owner = none := by
  rw [dropOwner_sector]
  split
  · rfl
  · rename_i out
    rw [sector_of_length_le (Nat.le_of_not_lt fun h => out ⟨rfl, h⟩)]
    rfl

theorem sealSector_yields (h : Yields c p q) (i : Nat) : Yields c p (sealSector i q) :=
  judgeSector_yields (modSector_yields (q := clearTail i (dropOwner i q)) (dropOwner_yields h i).wcu i
    (fun s => { s with state := .sealed }) fun _ => ⟨Nat.le_refl _, Nat.le_refl _, Nat.le_refl _, rfl⟩) i

/-- R45: what the giving up of a sector does after its owner is dropped. -/
theorem giveUp_yields_dropped (h : Yields c p (dropOwner i q)) : Yields c p (giveUp i q) := by
  have tail (z : Nat) {m : Part} (g : Yields c p m) : Yields c p (modZone z (fun z => { z with tail := some i })
      (modSector i (fun s => { s with state := .tail }) m)) :=
    (modSector_yields g i (fun s => { s with state := .tail }) fun _ => ⟨Nat.le_refl _, Nat.le_refl _, Nat.le_refl _, rfl⟩).wcu
  unfold giveUp
  dsimp only
  split
  · exact modSector_yields h i _ fun _ => ⟨Nat.zero_le _, Nat.zero_le _, Nat.zero_le _, rfl⟩
  · split
    · split
      · split
        · exact tail _ h
        · split
          · exact tail _ (sealSector_yields h _)
          · exact sealSector_yields h i
      · exact sealSector_yields h i
    · exact sealSector_yields h i

theorem giveUp_yields (h : Yields c p q) (i : Nat) : Yields c p (giveUp i q) := giveUp_yields_dropped (dropOwner_yields h i)

theorem giveUp_owner (i : Nat) (p : Part) : ((giveUp i p).sector i).owner = none :=
  ((giveUp_yields_dropped (c := .c0) (.refl .c0 (dropOwner i p))).owner i).elim (fun e => e.trans (dropOwner_owner i p)) id

theorem markSuspect_yields (h : Yields c p q) (i : Nat) : Yields c p (markSuspect i q) := by
  unfold markSuspect
  dsimp only
  split
  · exact h.wcu
  · exact (modSector_yields (q := setCond .media q) h.wcu i (fun s => { s with suspect := true })
      fun _ => ⟨Nat.le_refl _, Nat.le_refl _, Nat.le_refl _, rfl⟩).wcu (by unfold raiseSuspectMark; rw [raise_smp]) (raise_wcu ..)

theorem settleSuspect_yields (h : Yields c p q) (i : Nat) (st : SectorState) : Yields c p (settleSuspect i st q) := by
  unfold settleSuspect
  split
  · exact sealSector_yields h i
  · exact sealSector_yields h i
  · split
    · exact h
    · exact sealSector_yields h i
  all_goals exact judgeSector_yields h i

theorem makeSuspect_yields (h : Yields c p q) (i : Nat) (o : Option Holder) : Yields c p (makeSuspect i o q) := by
  have marked := markSuspect_yields h i
  unfold makeSuspect
  split
  · exact sealSector_yields (q := modSector i _ _) (modSector_yields marked i (fun s => { s with nextWrite := Config.sectorSize })
      fun _ => ⟨Nat.le_refl _, Nat.le_refl _, Nat.le_refl _, rfl⟩) i
  · exact settleSuspect_yields marked i _

theorem subPending_yields (h : Yields c p q) (i n : Nat) : Yields c p (subPending i n q) :=
  judgeSector_yields (modSector_yields h i (fun s => { s with pending := s.pending - n })
    fun _ => ⟨Nat.le_refl _, Nat.sub_le .., Nat.le_refl _, rfl⟩) i

theorem releasePending_yields (h : Yields c p q) (k : WriteCtx) : Yields c p (releasePending k q) := by
  have each : Yields c p (k.written.foldl (fun q w => subPending w.sector (space w.length) q) q) := by
    generalize k.written = ws
    induction ws generalizing q with
    | nil => exact h
    | cons w ws ih => exact ih (subPending_yields h _ _)
  unfold releasePending
  dsimp only
  split
  · exact subPending_yields each _ _
  · exact each

theorem giveUpCtx_yields (h : Yields c p q) (k : WriteCtx) : Yields c p (giveUpCtx k q) := by
  cases hk : k.owned with
  | none => rw [giveUpCtx_none hk]; exact h
  | some i =>
    have given (unclosed : Bool) : Yields c p
        (giveUp i (if unclosed then modSector i (fun s => { s with nextWrite := Config.sectorSize }) q else q)) := by
      refine giveUp_yields ?_ i
      split
      · exact modSector_yields h i (fun s => { s with nextWrite := Config.sectorSize }) fun _ => ⟨Nat.le_refl _, Nat.le_refl _, Nat.le_refl _, rfl⟩
      · exact h
    unfold giveUpCtx
    rw [hk]
    exact given _

theorem giveUpCtx_owner {k : WriteCtx} {i : Nat} (hk : k.owned = some i) (p : Part) : ((giveUpCtx k p).sector i).owner = none := by
  obtain ⟨f, e⟩ := giveUpCtx_owned hk p
  rw [e]
  exact giveUp_owner i _

theorem returnReservation_yields (h : Yields c p q) (d : CtxId) : Yields c p (returnReservation d q) := by
  obtain ⟨_, _, e, -, -⟩ := returnReservation_eq d q
  have changed : Yields c p (modCtx d (fun k => { k with reservation := 0 }) q) := h.same (by rw [modCtx_smp]) (by
    by_cases hd : c = d
    · subst hd; rw [modCtx_ctx]
    · rw [modCtx_ctx_other hd])
  rw [e]
  exact changed.wcu (by rw [modCtx_smp])

/-- What a context that ends has before its own sector is given up. -/
def unheld (d : CtxId) (p : Part) : Part :=
  let p1 := removeTaker d (withdraw (.ctx d) p)
  if (p.ctx d).commit = .switched then p1 else releasePending (p.ctx d) p1

theorem unheld_yields (c d : CtxId) (p : Part) : Yields c p (unheld d p) := by
  have start : Yields c p (removeTaker d (withdraw (.ctx d) p)) := (Yields.refl c p).wcu
  unfold unheld
  dsimp only
  split
  · exact start
  · exact releasePending_yields start _

theorem released_yields (c d : CtxId) (p : Part) : Yields c p (released d p) :=
  (returnReservation_yields (giveUpCtx_yields (unheld_yields c d p) _) d).wcu

/-- R97: a context that ends leaves its sector with no owner. -/
theorem released_owner {d : CtxId} {i : Nat} (hk : (p.ctx d).owned = some i) : ((released d p).sector i).owner = none := by
  have after : Yields d (giveUpCtx (p.ctx d) (unheld d p)) (released d p) := (returnReservation_yields (.refl ..) d).wcu
  exact (after.owner i).elim (fun e => e.trans (giveUpCtx_owner hk _)) id

/-! ### The claims that a context's end raises -/

theorem subPending_newClaims (h : NewClaims p q) (i n : Nat) : NewClaims p (subPending i n q) :=
  judgeSector_newClaims (q := modSector i _ q) h.pee i

theorem releasePending_newClaims (h : NewClaims p q) (k : WriteCtx) : NewClaims p (releasePending k q) := by
  have each : NewClaims p (k.written.foldl (fun q w => subPending w.sector (space w.length) q) q) := by
    generalize k.written = ws
    induction ws generalizing q with
    | nil => exact h
    | cons w ws ih => exact ih (subPending_newClaims h _ _)
  unfold releasePending
  dsimp only
  split
  · exact subPending_newClaims each _ _
  · exact each

theorem giveUpCtx_newClaims (h : NewClaims p q) (k : WriteCtx) : NewClaims p (giveUpCtx k q) := by
  cases hk : k.owned with
  | none => rw [giveUpCtx_none hk]; exact h
  | some i =>
    obtain ⟨f, e⟩ := giveUpCtx_owned hk q
    rw [e]
    exact giveUp_newClaims (q := modSector i f q) h.pee i

theorem released_newClaims (d : CtxId) (p : Part) : NewClaims (withdraw (.ctx d) p) (released d p) := by
  have start : NewClaims (withdraw (.ctx d) p) (removeTaker d (withdraw (.ctx d) p)) := (NewClaims.refl _).pee
  have bytes : NewClaims (withdraw (.ctx d) p) (unheld d p) := by
    unfold unheld
    dsimp only
    split
    · exact start
    · exact releasePending_newClaims start _
  obtain ⟨_, _, e, -, -⟩ := returnReservation_eq d (giveUpCtx (p.ctx d) (unheld d p))
  refine (giveUpCtx_newClaims bytes (p.ctx d)).pee ?_
  show (returnReservation d (giveUpCtx (p.ctx d) (unheld d p))).pee = _
  rw [e]
  exact modCtx_pee ..

/-- R50, R97: a context that ends without a sector leaves every live and retiring count. -/
theorem released_counts_none {d : CtxId} (none_ : (p.ctx d).owned = none) (j : Nat) :
    ((released d p).sector j).live = (p.sector j).live ∧ ((released d p).sector j).retiring = (p.sector j).retiring := by
  have bytes : MapStep (recount same (fun j m => m - (p.ctx d).pendingIn j) same (removeTaker d (withdraw (.ctx d) p))) (unheld d p) ∨
      MapStep (removeTaker d (withdraw (.ctx d) p)) (unheld d p) := by
    unfold unheld
    dsimp only
    split
    · exact .inr (.refl _)
    · rename_i open_; exact .inl (releasePending_counts _ open_ (.refl _))
  have sector : (released d p).sector j = (unheld d p).sector j := by
    obtain ⟨_, _, e, -, -⟩ := returnReservation_eq d (unheld d p)
    show (returnReservation d (giveUpCtx (p.ctx d) (unheld d p))).sector j = _
    rw [giveUpCtx_none none_, e]
    rfl
  rw [sector]
  rcases bytes with step | step
  · obtain ⟨-, -, live, -, retiring⟩ := step.counts j
    rw [recount_sector] at live retiring
    split at live
    · rw [if_pos ‹_›] at retiring; exact ⟨live, retiring⟩
    · rw [if_neg ‹_›] at retiring; exact ⟨live, retiring⟩
  · obtain ⟨-, -, live, -, retiring⟩ := step.counts j
    exact ⟨live, retiring⟩

end

end Sys2Proof.Machine
end

