-- ==== Sys2Proof/Proofs/RestartStep.lean ====
section
/-! SUPPORT. What RESTART's discards leave as it is (R104, R136, R180): `RestartStep`, with one lemma for each of its operations, and the
claims that they withdraw. -/
namespace Sys2Proof.Machine

/-- The part without the claims of the owners that `w` names. -/
def Part.without (w : Owner → Bool) (p : Part) : Part :=
  { p with pee := { p.pee with claims := p.pee.claims.filter (fun d => !w d.purpose.owner) } }

/-- An owner whose claims RESTART may withdraw. -/
def Owner.discards : Owner → Prop
  | .serving _ | .ctx _ | .scan => True
  | _ => False

/-- `q` may follow `p` by claims withdrawn and claims that the Sector Map raises of itself. -/
def Discards (p q : Part) : Prop := ∃ w, (∀ o, w o = true → o.discards) ∧ NewClaims (p.without w) q

section
variable {p q : Part}

theorem Part.without_none (p : Part) : p.without (fun _ => false) = p := by
  unfold Part.without
  simp

theorem NewClaims.discards (h : NewClaims p q) : Discards p q := ⟨fun _ => false, nofun, by rw [Part.without_none]; exact h⟩

/-- Claims withdrawn after others have joined are withdrawn of those that stood before. -/
theorem NewClaims.without (h : NewClaims p q) {w : Owner → Bool} (hw : ∀ o, w o = true → o.discards) :
    NewClaims (p.without w) (q.without w) where
  age := h.age
  claims := by
    obtain ⟨l, hl, new⟩ := h.claims
    refine ⟨l, ?_, new⟩
    show q.pee.claims.filter _ = p.pee.claims.filter _ ++ l
    rw [hl, List.filter_append]
    refine congrArg _ (List.filter_eq_self.2 fun d hd => ?_)
    have stays : ¬ d.purpose.owner.discards := by
      rcases (new d hd).2 with e | ⟨i, e⟩ <;> rw [e] <;> exact id
    simpa using fun h => stays (hw _ h)
  preempt := h.preempt
  engine := h.engine

theorem Part.without_without (w v : Owner → Bool) (p : Part) : (p.without w).without v = p.without (fun o => w o || v o) := by
  unfold Part.without
  dsimp only
  rw [List.filter_filter]
  refine congrArg (fun cs => ({ p with pee := { p.pee with claims := cs } } : Part)) (List.filter_congr fun d _ => ?_)
  cases w d.purpose.owner <;> cases v d.purpose.owner <;> rfl

theorem Discards.trans {r : Part} (h : Discards p q) (g : Discards q r) : Discards p r := by
  obtain ⟨w, hw, h⟩ := h
  obtain ⟨v, hv, g⟩ := g
  refine ⟨fun o => w o || v o, fun o e => ?_, ?_⟩
  · rcases Bool.or_eq_true_iff.1 e with e | e
    · exact hw o e
    · exact hv o e
  · rw [← Part.without_without]
    exact (h.without hv).trans g

theorem withdraw_discards {o : Owner} (ho : o.discards) (p : Part) : Discards p (withdraw o p) := by
  refine ⟨(· == o), fun x e => ?_, NewClaims.refl _⟩
  rw [beq_iff_eq.1 e]
  exact ho

/-- The claims that stand and those that join, and what is withdrawn: a claim of an owner that the Sector Map does not raise for stands
when it is one of those that are left. -/
theorem Discards.claims (h : Discards p q) : ∃ kept new, q.pee.claims = kept ++ new ∧ kept.Sublist p.pee.claims ∧
    (∀ d ∈ new, p.pee.nextAge ≤ d.age ∧ (d.purpose = .reclaimErase ∨ ∃ i, d.purpose = .suspectMark i 1)) ∧
    (∀ d ∈ p.pee.claims, ¬ d.purpose.owner.discards → d ∈ kept) ∧
    ∀ d ∈ p.pee.claims, d.purpose.owner.discards → (d ∈ kept ↔ d ∈ q.pee.claims) := by
  obtain ⟨w, hw, h⟩ := h
  obtain ⟨l, hl, new⟩ := h.claims
  refine ⟨_, l, hl, List.filter_sublist, new, fun d hd stays => ?_, fun d hd gone => ?_⟩
  · exact List.mem_filter.2 ⟨hd, by simpa using fun e => stays (hw _ e)⟩
  · rw [hl, List.mem_append, or_iff_left]
    intro mem
    rcases (new d mem).2 with e | ⟨i, e⟩ <;> rw [e] at gone <;> exact gone

/-! ### The claims of one owner -/

/-- The claims that wait for an owner. -/
def Part.claimsFor (o : Owner) (p : Part) : List Claim := p.pee.claims.filter (fun c => c.purpose.owner = o)

theorem claimsFor_withdraw_self (o : Owner) (p : Part) : (withdraw o p).claimsFor o = [] := by
  unfold Part.claimsFor withdraw
  rw [List.filter_filter, List.filter_eq_nil_iff]
  intro d _
  simp

theorem claimsFor_withdraw_other {o v : Owner} (h : o ≠ v) (p : Part) : (withdraw v p).claimsFor o = p.claimsFor o := by
  unfold Part.claimsFor withdraw
  rw [List.filter_filter]
  refine List.filter_congr fun d _ => ?_
  by_cases hd : d.purpose.owner = o
  · simp [hd, h]
  · simp [hd]

/-- What the Sector Map raises of itself is none of an owner's whose claims may be withdrawn. -/
theorem NewClaims.claimsFor (h : NewClaims p q) {o : Owner} (ho : o.discards) : q.claimsFor o = p.claimsFor o := by
  obtain ⟨l, hl, new⟩ := h.claims
  have none_ : l.filter (fun d => d.purpose.owner = o) = [] := List.filter_eq_nil_iff.2 fun d hd own => by
    rw [← of_decide_eq_true own] at ho
    rcases (new d hd).2 with e | ⟨i, e⟩ <;> rw [e] at ho <;> exact ho
  unfold Part.claimsFor
  rw [hl, List.filter_append, none_, List.append_nil]

theorem mem_claimsFor {o : Owner} {d : Claim} : d ∈ p.claimsFor o ↔ d ∈ p.pee.claims ∧ d.purpose.owner = o := by
  unfold Part.claimsFor
  simp

theorem purposeWaits_of_claimsFor {u : Purpose} (h : q.claimsFor u.owner = p.claimsFor u.owner) : purposeWaits u q = purposeWaits u p := by
  have only (r : Part) : purposeWaits u r = (r.claimsFor u.owner).any (fun c => c.purpose == u) := by
    unfold purposeWaits Part.claimsFor
    rw [List.any_filter]
    congr 1
    funext c
    by_cases hc : c.purpose = u
    · simp [hc]
    · simp [hc]
  rw [only, only, h]

/-! ### What stands -/

/-- `q` may follow `p` by the discards of RESTART. -/
structure RestartStep (p q : Part) : Prop where
  rqs       : q.rqs = p.rqs
  link      : q.link = { p.link with conds := q.link.conds }
  conds     : ∀ (n : Nat) (r : CondRow), p.link.conds[n]? = some r → r.set = true → ∃ t, q.link.conds[n]? = some t ∧ t.set = true
  directory : ∃ f : DirEntry → DirEntry, q.sdr.directory = p.sdr.directory.map f ∧
                (∀ e, f e = { e with openCtx := (f e).openCtx, deletePending := (f e).deletePending }) ∧
                ∀ e, e.deletePending = false → (f e).deletePending = false
  retiring  : q.sdr.retiring = p.sdr.retiring
  sequence  : q.sdr.sequence = p.sdr.sequence
  op        : q.pee.op = p.pee.op
  batch     : q.pee.batch = p.pee.batch
  step      : q.rcu.step = p.rcu.step
  hold      : q.rcu.hold = p.rcu.hold ∨ q.rcu.hold = none
  scu       : q.scu = p.scu
  plan      : planOf q = planOf p
  length    : q.smp.sectors.length = p.smp.sectors.length
  sector    : ∀ i, (q.sector i).zone = (p.sector i).zone ∧ (q.sector i).eraseCount = (p.sector i).eraseCount ∧
                ((p.sector i).suspect = true → (q.sector i).suspect = true)
  yields    : ∀ j, (q.sector j).live ≤ (p.sector j).live ∧ (q.sector j).pending ≤ (p.sector j).pending ∧
                (q.sector j).retiring ≤ (p.sector j).retiring
  owned     : OwnedFalls p q
  bytes     : (p.mounted = true ∨ ∀ c, (p.ctx c).owned = none) →
                ∀ i, (q.sector i).live = (p.sector i).live ∧ (q.sector i).retiring = (p.sector i).retiring
  erase     : ∀ i, i ∈ p.rcu.eraseQueue ∨ (∃ b, p.rcu.openBatch = some b ∧ i ∈ b.sectors) →
                i ∈ q.rcu.eraseQueue ∨ ∃ b, q.rcu.openBatch = some b ∧ i ∈ b.sectors
  opened    : ∀ b, p.rcu.openBatch = some b → ∃ t, q.rcu.openBatch = some t ∧ t.zone = b.zone ∧ b.sectors <+: t.sectors ∧
                (b.raised = true → t.raised = true) ∧ (t.raised = b.raised → t.window = b.window)
  evac      : ∀ i ∈ p.rcu.evacQueue, i ∈ q.rcu.evacQueue ∨ (q.sector i).countsZero = true
  claims    : Discards p q

theorem RestartStep.refl (p : Part) : RestartStep p p where
  rqs := rfl
  link := rfl
  conds := fun _ r h set => ⟨r, h, set⟩
  directory := ⟨id, by rw [List.map_id], fun _ => rfl, fun _ h => h⟩
  retiring := rfl
  sequence := rfl
  op := rfl
  batch := rfl
  step := rfl
  hold := .inl rfl
  scu := rfl
  plan := rfl
  length := rfl
  sector := fun _ => ⟨rfl, rfl, id⟩
  yields := fun _ => ⟨Nat.le_refl _, Nat.le_refl _, Nat.le_refl _⟩
  owned := .refl p
  bytes := fun _ _ => ⟨rfl, rfl⟩
  erase := fun _ => id
  opened := fun b h => ⟨b, h, rfl, List.prefix_refl _, id, fun _ => rfl⟩
  evac := fun _ => .inl
  claims := (NewClaims.refl p).discards

theorem RestartStep.mounted (h : RestartStep p q) : q.mounted = p.mounted := by unfold Part.mounted; rw [h.scu]

theorem OwnedFalls.trans {r : Part} (h : OwnedFalls p q) (g : OwnedFalls q r) : OwnedFalls p r :=
  fun c => (g c).elim (fun e => (h c).imp e.trans e.trans) .inr

theorem OwnedFalls.none (h : OwnedFalls p q) {c : CtxId} (none_ : (p.ctx c).owned = none) : (q.ctx c).owned = none :=
  (h c).elim (fun e => e.trans none_) id

theorem countsZero_of_le {s t : Sector} (h : t.live ≤ s.live ∧ t.pending ≤ s.pending ∧ t.retiring ≤ s.retiring)
    (zero : s.countsZero = true) : t.countsZero = true := by
  simp only [Sector.countsZero, Bool.and_eq_true, decide_eq_true_eq] at zero ⊢
  omega

theorem RestartStep.trans {r : Part} (h : RestartStep p q) (g : RestartStep q r) : RestartStep p r where
  rqs := g.rqs.trans h.rqs
  link := by rw [g.link, h.link]
  conds := fun n x hx set => by
    obtain ⟨t, ht, set'⟩ := h.conds n x hx set
    exact g.conds n t ht set'
  directory := by
    obtain ⟨f, hf, keeps, falls⟩ := h.directory
    obtain ⟨k, hk, keeps', falls'⟩ := g.directory
    refine ⟨k ∘ f, by rw [hk, hf, List.map_map], fun e => ?_, fun e none_ => falls' _ (falls e none_)⟩
    dsimp only [Function.comp]
    rw [keeps' (f e), keeps e]
  retiring := g.retiring.trans h.retiring
  sequence := g.sequence.trans h.sequence
  op := g.op.trans h.op
  batch := g.batch.trans h.batch
  step := g.step.trans h.step
  hold := g.hold.elim (fun e => h.hold.imp e.trans e.trans) .inr
  scu := g.scu.trans h.scu
  plan := g.plan.trans h.plan
  length := g.length.trans h.length
  sector := fun i => by
    obtain ⟨zone, count, suspect⟩ := h.sector i
    obtain ⟨zone', count', suspect'⟩ := g.sector i
    exact ⟨zone'.trans zone, count'.trans count, suspect' ∘ suspect⟩
  yields := fun j => by
    obtain ⟨live, pending, retiring⟩ := h.yields j
    obtain ⟨live', pending', retiring'⟩ := g.yields j
    exact ⟨live'.trans live, pending'.trans pending, retiring'.trans retiring⟩
  owned := h.owned.trans g.owned
  bytes := fun c i => by
    obtain ⟨live, retiring⟩ := h.bytes c i
    obtain ⟨live', retiring'⟩ := g.bytes (c.imp h.mounted.trans fun none_ d => h.owned.none (none_ d)) i
    exact ⟨live'.trans live, retiring'.trans retiring⟩
  erase := fun i x => g.erase i (h.erase i x)
  opened := fun b hb => by
    obtain ⟨t, ht, zone, before, raised, window⟩ := h.opened b hb
    obtain ⟨u, hu, zone', before', raised', window'⟩ := g.opened t ht
    refine ⟨u, hu, zone'.trans zone, before.trans before', raised' ∘ raised, fun same => ?_⟩
    have between : t.raised = b.raised := by
      cases hr : b.raised with
      | true => exact raised hr
      | false =>
        cases ht : t.raised with
        | false => rfl
        | true => rw [hr, raised' ht] at same; cases same
    rw [window' (same.trans between.symm), window between]
  evac := fun i x => by
    rcases h.evac i x with y | y
    · exact g.evac i y
    · exact .inr (countsZero_of_le (g.yields i) y)
  claims := h.claims.trans g.claims

/-- What changes the contexts alone, and gives none a sector. -/
theorem modCtx_restartStep (h : RestartStep p q) (c : CtxId) (f : WriteCtx → WriteCtx)
    (hf : ∀ k, (f k).owned = k.owned ∨ (f k).owned = none) : RestartStep p (modCtx c f q) := by
  have owned := modCtx_ownedFalls (.refl q) c f hf
  refine h.trans ?_
  cases c <;> exact { RestartStep.refl q with owned := owned, claims := (NewClaims.refl q).pee.discards }

theorem withdraw_restartStep (h : RestartStep p q) {o : Owner} (ho : o.discards) : RestartStep p (withdraw o q) :=
  h.trans { RestartStep.refl q with claims := withdraw_discards ho q }

theorem RestartStep.serving (h : RestartStep p q) (l : List Serving) : RestartStep p { q with sdr := { q.sdr with serving := l } } :=
  h.trans { RestartStep.refl q with
    directory := (RestartStep.refl q).directory
    claims := (NewClaims.refl q).pee.discards }

theorem clearDeletePending_restartStep (h : RestartStep p q) (slot : Nat) : RestartStep p (clearDeletePending slot q) := by
  refine h.trans { RestartStep.refl q with
    directory := ⟨_, rfl, fun e => ?_, fun e none_ => ?_⟩
    claims := (NewClaims.refl q).pee.discards }
  · split <;> rfl
  · split
    · rfl
    · exact none_

/-! ### The operations of the Sector Map -/

theorem makeSuspect_ownedFalls (i : Nat) (p : Part) : OwnedFalls p (makeSuspect i none p) := by
  have marked : OwnedFalls p (markSuspect i p) := (OwnedFalls.refl p).wcu (by
    unfold markSuspect
    dsimp only
    split
    · rfl
    · exact raise_wcu ..)
  show OwnedFalls p (settleSuspect i (p.sector i).state (markSuspect i p))
  unfold settleSuspect
  split
  · exact sealSector_ownedFalls marked i
  · exact sealSector_ownedFalls marked i
  · split
    · exact marked
    · exact sealSector_ownedFalls marked i
  all_goals exact judgeSector_ownedFalls marked i

theorem makeSuspect_restartStep (h : RestartStep p q) (i : Nat) : RestartStep p (makeSuspect i none q) := by
  have g := makeSuspect_mapStep (MapStep.refl q) i none
  have zones := congrArg (List.map fun z : Zone => (z.count, z.lowWater)) g.zones
  rw [List.map_map, List.map_map] at zones
  exact h.trans
    { rqs := g.rqs
      link := g.link
      conds := fun n r hr set => by
        obtain ⟨t, ht, keeps, -⟩ := g.conds n r hr
        exact ⟨t, ht, keeps set⟩
      directory := by rw [g.sdr]; exact (RestartStep.refl q).directory
      retiring := by rw [g.sdr]
      sequence := by rw [g.sdr]
      op := g.op
      batch := g.batch
      step := g.step
      hold := g.hold
      scu := g.scu
      plan := zones
      length := g.length
      sector := fun j => by
        obtain ⟨zone, count, -⟩ := g.counts j
        exact ⟨zone, count, g.suspect j⟩
      yields := (makeSuspect_yields (.refl .c0 q) i none).falls
      owned := makeSuspect_ownedFalls i q
      bytes := fun _ j => by
        obtain ⟨-, -, live, -, retiring⟩ := g.counts j
        exact ⟨live, retiring⟩
      erase := g.erase
      opened := g.opened
      evac := g.evac
      claims := (makeSuspect_newClaims (.refl q) i none).discards }

/-- R97, R104: a context that ends. -/
theorem released_restartStep (h : RestartStep p q) (c : CtxId) : RestartStep p (released c q) := by
  have g := released_spec c q
  exact h.trans
    { rqs := g.rqs
      link := g.link
      conds := fun n r hr set => by
        obtain ⟨t, ht, keeps, -⟩ := g.conds n r hr
        exact ⟨t, ht, keeps set⟩
      directory := by
        refine ⟨DirEntry.letGo c (q.ctx c).slot, g.dir, fun e => ?_, fun e none_ => ?_⟩
        · rw [DirEntry.letGo_eq]
        · rw [DirEntry.letGo_eq]; exact none_
      retiring := g.retire
      sequence := g.seq
      op := g.op
      batch := g.batch
      step := g.step
      hold := g.hold
      scu := g.scu
      plan := g.plan
      length := g.length
      sector := g.stays
      yields := (released_yields .c0 c q).falls
      owned := released_ownedFalls c q
      bytes := fun either j => by
        rcases either with up | none_
        · obtain ⟨live, retiring, -⟩ := g.counts up j
          exact ⟨live, retiring⟩
        · exact released_counts_none (none_ c) j
      erase := g.erase
      opened := g.opened
      evac := g.evac
      claims := ((withdraw_discards (o := .ctx c) trivial q).trans (released_newClaims c q).discards) }

theorem finishEnd_none_eq (c : CtxId) (p : Part) : finishEnd c none p = modCtx c (fun _ => .cold) (released c p) := finishEnd_released c none p

theorem finishEnd_restartStep (h : RestartStep p q) (c : CtxId) : RestartStep p (finishEnd c none q) := by
  rw [finishEnd_none_eq]
  exact modCtx_restartStep (released_restartStep h c) c _ fun _ => .inr rfl

/-! ### The discards (R36, R104) -/

theorem restartServing_restartStep (h : RestartStep p q) (r : Serving) : RestartStep p (restartServing r q) := by
  have withdrawn : RestartStep p (withdraw (.serving r.age) q) := withdraw_restartStep h trivial
  have cleared := clearDeletePending_restartStep withdrawn r.slot
  unfold restartServing
  split
  · split
    · exact h.serving _
    · split
      · exact (makeSuspect_restartStep cleared _).serving _
      · exact cleared.serving _
  all_goals exact withdrawn.serving _

theorem endAtCompletion_restartStep (h : RestartStep p q) (c : CtxId) : RestartStep p (endAtCompletion c q) :=
  modCtx_restartStep h c _ fun _ => .inl rfl

theorem restartCtx_restartStep (h : RestartStep p q) (c : CtxId) : RestartStep p (restartCtx c q) := by
  unfold restartCtx
  dsimp only
  split
  · exact h
  · exact modCtx_restartStep h c _ fun _ => .inr rfl
  all_goals
    split
    · exact endAtCompletion_restartStep h c
    · exact finishEnd_restartStep h c

end

end Sys2Proof.Machine
end

