-- ==== Sys2Proof/Proofs/RestartWork.lean ====
section
/-! SUPPORT. What RESTART makes of each write context and each served request (R36, R97, R104): the work on one of them leaves the others
(`LeavesCtx`, `LeavesRecord`), and what it makes of the one. -/
namespace Sys2Proof.Machine

variable {p q m : Part}

theorem purposeRuns_of_op {u : Purpose} (h : q.pee.op = p.pee.op) : purposeRuns u q = purposeRuns u p := by
  unfold purposeRuns
  rw [h]

theorem restartServing_keeps (r : Serving) (p : Part) : RestartStep p (restartServing r p) := restartServing_restartStep (.refl p) r

theorem restartCtx_keeps (c : CtxId) (p : Part) : RestartStep p (restartCtx c p) := restartCtx_restartStep (.refl p) c

/-! ### A context while RESTART works on others -/

/-- In `q` context `c` stands as in `p`, but that it may have lost its sector. -/
structure LeavesCtx (c : CtxId) (p q : Part) : Prop where
  ctx    : q.ctx c = { p.ctx c with owned := (q.ctx c).owned }
  owned  : (q.ctx c).owned = (p.ctx c).owned ∨ (q.ctx c).owned = none
  claims : q.claimsFor (.ctx c) = p.claimsFor (.ctx c)
  op     : q.pee.op = p.pee.op
  yields : Yields c p q

section
variable {c : CtxId}

theorem LeavesCtx.refl (c : CtxId) (p : Part) : LeavesCtx c p p := ⟨rfl, .inl rfl, rfl, rfl, .refl c p⟩

theorem LeavesCtx.trans (h : LeavesCtx c p m) (g : LeavesCtx c m q) : LeavesCtx c p q where
  ctx := by rw [g.ctx, h.ctx]
  owned := g.owned.elim (fun e => h.owned.imp e.trans e.trans) .inr
  claims := g.claims.trans h.claims
  op := g.op.trans h.op
  yields := h.yields.trans g.yields

theorem makeSuspect_leavesCtx (c : CtxId) (i : Nat) (p : Part) : LeavesCtx c p (makeSuspect i none p) where
  ctx := (makeSuspect_mapStep (.refl p) i none).ctx c
  owned := makeSuspect_ownedFalls i p c
  claims := (makeSuspect_newClaims (.refl p) i none).claimsFor trivial
  op := (makeSuspect_mapStep (.refl p) i none).op
  yields := makeSuspect_yields (.refl c p) i none

theorem withdraw_leavesCtx {o : Owner} (h : .ctx c ≠ o) (p : Part) : LeavesCtx c p (withdraw o p) :=
  { LeavesCtx.refl c p with claims := claimsFor_withdraw_other h p, yields := (Yields.refl c p).wcu }

/-- What changes the tables of the directory alone. -/
theorem LeavesCtx.sdr (h : LeavesCtx c p q) (s : Sdr) : LeavesCtx c p { q with sdr := s } :=
  h.trans { LeavesCtx.refl c q with yields := (Yields.refl c q).wcu }

theorem restartServing_leavesCtx (c : CtxId) (r : Serving) (p : Part) : LeavesCtx c p (restartServing r p) := by
  have withdrawn : LeavesCtx c p (withdraw (.serving r.age) p) := withdraw_leavesCtx (o := .serving r.age) nofun p
  unfold restartServing
  split
  · split
    · exact (LeavesCtx.refl c p).sdr _
    · split
      · exact ((withdrawn.sdr _).trans (makeSuspect_leavesCtx c ..)).sdr _
      · exact (withdrawn.sdr _).sdr _
  all_goals exact withdrawn.sdr _

theorem modCtx_leavesCtx {d : CtxId} (h : c ≠ d) (f : WriteCtx → WriteCtx) (p : Part) : LeavesCtx c p (modCtx d f p) where
  ctx := by rw [modCtx_ctx_other h]
  owned := .inl (by rw [modCtx_ctx_other h])
  claims := by unfold Part.claimsFor; rw [modCtx_pee]
  op := by rw [modCtx_pee]
  yields := (Yields.refl c p).same (by rw [modCtx_smp]) (by rw [modCtx_ctx_other h])

theorem released_leavesCtx {d : CtxId} (h : c ≠ d) (p : Part) : LeavesCtx c p (released d p) where
  ctx := (released_spec d p).other c h
  owned := released_ownedFalls d p c
  claims := ((released_newClaims d p).claimsFor (o := .ctx c) trivial).trans (claimsFor_withdraw_other (fun e => h (Owner.ctx.inj e)) p)
  op := (released_spec d p).op
  yields := released_yields c d p

/-- R104: the end of one context leaves the other. -/
theorem restartCtx_leavesCtx {d : CtxId} (h : c ≠ d) (p : Part) : LeavesCtx c p (restartCtx d p) := by
  unfold restartCtx
  dsimp only
  split
  · exact .refl c p
  · exact modCtx_leavesCtx h _ p
  all_goals
    split
    · exact modCtx_leavesCtx h _ p
    · rw [finishEnd_none_eq]
      exact (released_leavesCtx h p).trans (modCtx_leavesCtx h _ _)

end

/-! ### What RESTART makes of a context (R104) -/

/-- R104: an open context that RESTART carries to the completion of its granted operation, or to the decision of its commit. -/
def Part.carriesCtx (c : CtxId) (p : Part) : Prop :=
  claimRuns (.ctx c) p = true ∨ ((p.ctx c).state = .committing ∧ purposeWaits (.ctxReadBack c) p = true)

section
variable {c : CtxId}

theorem LeavesCtx.carriesCtx (h : LeavesCtx c p q) : q.carriesCtx c ↔ p.carriesCtx c := by
  unfold Part.carriesCtx
  rw [claimRuns_of_op h.op, purposeWaits_of_claimsFor (u := .ctxReadBack c) h.claims, h.ctx]

theorem LeavesCtx.isOpen (h : LeavesCtx c p q) : (q.ctx c).isOpen = (p.ctx c).isOpen := by
  rw [h.ctx]
  rfl

theorem LeavesCtx.state (h : LeavesCtx c p q) : (q.ctx c).state = (p.ctx c).state := by rw [h.ctx]

theorem isOpen_iff (k : WriteCtx) : k.isOpen = true ↔ k.state = .receiving ∨ k.state = .closing ∨ k.state = .committing := by
  unfold WriteCtx.isOpen
  cases k.state <;> decide

theorem restartCtx_carried (open_ : (p.ctx c).isOpen = true) (carried : p.carriesCtx c) : restartCtx c p = endAtCompletion c p := by
  unfold restartCtx
  rcases (isOpen_iff _).1 open_ with state | state | state <;> simp only [state]
  · refine if_pos (carried.elim id fun x => ?_)
    rw [state] at x; cases x.1
  · refine if_pos (carried.elim id fun x => ?_)
    rw [state] at x; cases x.1
  · exact if_pos (Bool.or_eq_true_iff.2 (carried.imp id And.right))

theorem restartCtx_ends (open_ : (p.ctx c).isOpen = true) (ends : ¬ p.carriesCtx c) : restartCtx c p = finishEnd c none p := by
  unfold restartCtx
  rcases (isOpen_iff _).1 open_ with state | state | state <;> simp only [state]
  · exact if_neg fun runs => ends (.inl runs)
  · exact if_neg fun runs => ends (.inl runs)
  · exact if_neg fun runs => ends ((Bool.or_eq_true_iff.1 runs).imp id fun waits => ⟨state, waits⟩)

theorem restartCtx_ended (state : (p.ctx c).state = .ended) : restartCtx c p = modCtx c (fun _ => .cold) p := by
  unfold restartCtx
  simp only [state]

theorem restartCtx_idle (state : (p.ctx c).state = .idle) : restartCtx c p = p := by
  unfold restartCtx
  simp only [state]

/-- A context that is not open is IDLE or ENDED. -/
theorem state_of_not_open {k : WriteCtx} (h : k.isOpen = false) : k.state = .idle ∨ k.state = .ended := by
  unfold WriteCtx.isOpen at h
  cases hs : k.state with
  | idle => exact .inl rfl
  | ended => exact .inr rfl
  | receiving => rw [hs] at h; cases h
  | closing => rw [hs] at h; cases h
  | committing => rw [hs] at h; cases h

theorem finishEnd_none_ctx (c : CtxId) (p : Part) : (finishEnd c none p).ctx c = .cold := by
  rw [finishEnd_none_eq, modCtx_ctx]

/-- R97: the claims of a context that ends are withdrawn. -/
theorem finishEnd_claimsFor (c : CtxId) (p : Part) : (finishEnd c none p).claimsFor (.ctx c) = [] := by
  have : (finishEnd c none p).claimsFor (.ctx c) = (released c p).claimsFor (.ctx c) := by
    unfold Part.claimsFor
    rw [(finishEnd_sdr_pee c none p).2]
  rw [this, (released_newClaims c p).claimsFor (o := .ctx c) trivial]
  exact claimsFor_withdraw_self ..

theorem finishEnd_none_owner {i : Nat} (hk : (p.ctx c).owned = some i) : ((finishEnd c none p).sector i).owner = none := by
  rw [finishEnd_none_eq, modCtx_sector]
  exact released_owner hk

/-- A context that stands cold through the work on the other. -/
theorem LeavesCtx.cold (h : LeavesCtx c p q) (cold : p.ctx c = .cold) : q.ctx c = .cold := by
  have owned : (q.ctx c).owned = none := h.owned.elim (fun e => by rw [e, cold]; rfl) id
  rw [h.ctx, owned, cold]
  rfl

section
variable (before : LeavesCtx c p m) (after : LeavesCtx c (restartCtx c m) q)
include before after

theorem restarted_idle (state : (p.ctx c).state = .idle) : (q.ctx c).state = .idle := by
  rw [after.state, restartCtx_idle (before.state.trans state), before.state, state]

theorem restarted_ended (state : (p.ctx c).state = .ended) : q.ctx c = .cold := by
  refine after.cold ?_
  rw [restartCtx_ended (before.state.trans state), modCtx_ctx]

section
variable (open_ : (p.ctx c).isOpen = true)
include open_

/-- R97, R104: an open context that is not carried ends, with its claims withdrawn. -/
theorem restarted_over (ends : ¬ p.carriesCtx c) : q.ctx c = .cold ∧ q.claimsFor (.ctx c) = [] := by
  rw [restartCtx_ends (before.isOpen.trans open_) (ends ∘ before.carriesCtx.1)] at after
  exact ⟨after.cold (finishEnd_none_ctx c m), after.claims.trans (finishEnd_claimsFor c m)⟩

/-- R44, R97: its sector has no owner after, unless it was lost with another's. -/
theorem restarted_owner (ends : ¬ p.carriesCtx c) {i : Nat} (hi : (p.ctx c).owned = some i)
    (only : ∀ j, (p.sector j).owner = some (.ctx c) → j = i) : (q.sector i).owner = none := by
  rw [restartCtx_ends (before.isOpen.trans open_) (ends ∘ before.carriesCtx.1)] at after
  have gone : ((finishEnd c none m).sector i).owner = none := by
    rcases before.yields.owned with e | ⟨j, held, none_⟩
    · exact finishEnd_none_owner (e.trans hi)
    · obtain rfl := only j held
      rw [finishEnd_none_eq, modCtx_sector]
      exact ((released_yields c c m).owner j).elim (fun e => e.trans none_) id
  exact (after.yields.owner i).elim (fun e => e.trans gone) id

/-- R104: a context that is carried stands, ending and with its buffers EMPTY. -/
theorem restarted_carried (carried : p.carriesCtx c) : q.ctx c = { p.ctx c with
      ending := some .byRestart, bufX := .cold, bufY := .cold, owned := (q.ctx c).owned } ∧
    q.claimsFor (.ctx c) = p.claimsFor (.ctx c) := by
  rw [restartCtx_carried (before.isOpen.trans open_) (before.carriesCtx.2 carried)] at after
  have self : (endAtCompletion c m).ctx c = { m.ctx c with ending := some .byRestart, bufX := .cold, bufY := .cold } := modCtx_ctx ..
  refine ⟨?_, after.claims.trans (Eq.trans ?_ before.claims)⟩
  · rw [after.ctx, self, before.ctx]
  · unfold Part.claimsFor endAtCompletion
    rw [modCtx_pee]

end

end

/-- R50, R97, R104: the pending bytes that RESTART releases of a context. -/
theorem restartCtx_pending (up : p.mounted = true) (i : Nat) : ∃ n, ((restartCtx c p).sector i).pending = (p.sector i).pending - n ∧
    ((p.ctx c).isOpen = true → ¬ p.carriesCtx c → n = (p.ctx c).pendingIn i) ∧
    ((p.ctx c).isOpen = false ∨ p.carriesCtx c → n = 0) := by
  cases open_ : (p.ctx c).isOpen with
  | false =>
    refine ⟨0, ?_, nofun, fun _ => rfl⟩
    rcases state_of_not_open open_ with state | state
    · rw [restartCtx_idle state]; rfl
    · rw [restartCtx_ended state, modCtx_sector]; rfl
  | true =>
    by_cases carried : p.carriesCtx c
    · refine ⟨0, ?_, fun _ ends => absurd carried ends, fun _ => rfl⟩
      rw [restartCtx_carried open_ carried, endAtCompletion, modCtx_sector]
      rfl
    · refine ⟨(p.ctx c).pendingIn i, ?_, fun _ _ => rfl, fun h => h.elim nofun fun h => absurd h carried⟩
      rw [restartCtx_ends open_ carried, finishEnd_none_eq, modCtx_sector]
      exact ((released_spec c p).counts up i).2.2

theorem LeavesCtx.pendingIn (h : LeavesCtx c p q) (i : Nat) : (q.ctx c).pendingIn i = (p.ctx c).pendingIn i := by
  rw [h.ctx]
  rfl

end

/-! ### A served request while RESTART works on others -/

/-- In `q` the served request of age `a` stands as in `p`: its record and its claims, and the running operation. -/
structure LeavesRecord (a : Nat) (p q : Part) : Prop where
  record : q.servingOf a = p.servingOf a
  claims : q.claimsFor (.serving a) = p.claimsFor (.serving a)
  op     : q.pee.op = p.pee.op

section
variable {a : Nat}

theorem LeavesRecord.refl (a : Nat) (p : Part) : LeavesRecord a p p := ⟨rfl, rfl, rfl⟩

theorem LeavesRecord.trans (h : LeavesRecord a p m) (g : LeavesRecord a m q) : LeavesRecord a p q :=
  ⟨g.record.trans h.record, g.claims.trans h.claims, g.op.trans h.op⟩

theorem makeSuspect_leavesRecord (a i : Nat) (p : Part) : LeavesRecord a p (makeSuspect i none p) where
  record := servingOf_of_serving (by rw [(makeSuspect_mapStep (.refl p) i none).sdr]) a
  claims := (makeSuspect_newClaims (.refl p) i none).claimsFor trivial
  op := (makeSuspect_mapStep (.refl p) i none).op

theorem restartServing_leavesRecord {r : Serving} (h : a ≠ r.age) (p : Part) : LeavesRecord a p (restartServing r p) := by
  have withdrawn : LeavesRecord a p (withdraw (.serving r.age) p) :=
    ⟨rfl, claimsFor_withdraw_other (fun e => h (Owner.serving.inj e)) p, rfl⟩
  have cleared : LeavesRecord a p (clearDeletePending r.slot (withdraw (.serving r.age) p)) := ⟨rfl, withdrawn.claims, rfl⟩
  have dropped (m : Part) : LeavesRecord a m (dropServing r.age m) := ⟨servingOf_dropServing_other h m, rfl, rfl⟩
  unfold restartServing
  split
  · split
    · exact ⟨servingOf_modServing_other (f := fun r => { r with detached := true }) (fun _ => rfl) h p, rfl, rfl⟩
    · split
      · exact (cleared.trans (makeSuspect_leavesRecord a ..)).trans (dropped _)
      · exact cleared.trans (dropped _)
  all_goals exact withdrawn.trans (dropped _)

theorem modCtx_leavesRecord (a : Nat) (c : CtxId) (f : WriteCtx → WriteCtx) (p : Part) : LeavesRecord a p (modCtx c f p) where
  record := servingOf_of_serving (by rw [modCtx_sdr]) a
  claims := by unfold Part.claimsFor; rw [modCtx_pee]
  op := by rw [modCtx_pee]

theorem released_leavesRecord (a : Nat) (c : CtxId) (p : Part) : LeavesRecord a p (released c p) where
  record := servingOf_of_serving (released_spec c p).serve a
  claims := ((released_newClaims c p).claimsFor (o := .serving a) trivial).trans (claimsFor_withdraw_other (o := .serving a) (v := .ctx c) nofun p)
  op := (released_spec c p).op

theorem restartCtx_leavesRecord (a : Nat) (c : CtxId) (p : Part) : LeavesRecord a p (restartCtx c p) := by
  unfold restartCtx
  dsimp only
  split
  · exact .refl a p
  · exact modCtx_leavesRecord a c _ p
  all_goals
    split
    · exact modCtx_leavesRecord a c _ p
    · rw [finishEnd_none_eq]
      exact (released_leavesRecord a c p).trans (modCtx_leavesRecord a c _ _)

theorem restartServings_absent (l : List Serving) (h : ∀ y ∈ l, a ≠ y.age) (p : Part) :
    LeavesRecord a p (l.foldl (fun q r => restartServing r q) p) := by
  induction l generalizing p with
  | nil => exact .refl a p
  | cons y l ih =>
    exact (restartServing_leavesRecord (h y List.mem_cons_self) p).trans (ih (fun z hz => h z (List.mem_cons_of_mem _ hz)) _)

theorem restartServings_restartStep (l : List Serving) (h : RestartStep p q) :
    RestartStep p (l.foldl (fun q r => restartServing r q) q) := by
  induction l generalizing q with
  | nil => exact h
  | cons r l ih => exact ih (restartServing_restartStep h r)

theorem restartServings_leavesCtx (c : CtxId) (l : List Serving) (h : LeavesCtx c p q) :
    LeavesCtx c p (l.foldl (fun q r => restartServing r q) q) := by
  induction l generalizing q with
  | nil => exact h
  | cons r l ih => exact ih (h.trans (restartServing_leavesCtx c r q))

/-- RESTART comes to one served request with all it has, and leaves what it makes of it. -/
theorem restartServings_at {l : List Serving} (nd : (l.map (·.age)).Nodup) {r : Serving} (hr : r ∈ l) (p : Part) :
    ∃ m, LeavesRecord r.age p m ∧ RestartStep p m ∧
      LeavesRecord r.age (restartServing r m) (l.foldl (fun q r => restartServing r q) p) ∧
      RestartStep (restartServing r m) (l.foldl (fun q r => restartServing r q) p) := by
  obtain ⟨before, after, rfl⟩ := List.append_of_mem hr
  rw [List.map_append, List.map_cons, List.nodup_middle, List.nodup_cons, ← List.map_append] at nd
  have other (y : Serving) (hy : y ∈ before ++ after) : r.age ≠ y.age := fun e => nd.1 (by rw [e]; exact List.mem_map_of_mem hy)
  refine ⟨before.foldl (fun q r => restartServing r q) p, restartServings_absent before (fun y hy => other y (List.mem_append_left _ hy)) p,
    restartServings_restartStep before (.refl p), ?_⟩
  rw [List.foldl_append, List.foldl_cons]
  exact ⟨restartServings_absent after (fun y hy => other y (List.mem_append_right _ hy)) _, restartServings_restartStep after (.refl _)⟩

end

theorem restartServing_pending (r : Serving) (p : Part) (i : Nat) : ((restartServing r p).sector i).pending = (p.sector i).pending := by
  unfold restartServing
  split
  · split
    · rfl
    · split
      · exact ((makeSuspect_mapStep (.refl (clearDeletePending r.slot (withdraw (.serving r.age) p))) r.elem.sector none).counts i).2.2.2.1
      · rfl
  all_goals rfl

theorem restartServings_pending (l : List Serving) (p : Part) (i : Nat) :
    ((l.foldl (fun q r => restartServing r q) p).sector i).pending = (p.sector i).pending := by
  induction l generalizing p with
  | nil => rfl
  | cons r l ih => exact (ih _).trans (restartServing_pending r p i)

/-! ### What RESTART makes of a served request (R36, R82, R105) -/

section
variable {r : Serving}

theorem LeavesRecord.carriesDelete (h : LeavesRecord r.age p q) : q.carriesDelete r ↔ p.carriesDelete r := by
  unfold Part.carriesDelete
  rw [purposeRuns_of_op h.op, purposeRuns_of_op h.op, purposeWaits_of_claimsFor (u := .deleteReadBack r.age) h.claims]

theorem restartServing_carried (carried : p.carriesDelete r) : restartServing r p = modServing r.age (fun r => { r with detached := true }) p := by
  obtain ⟨kind, stands⟩ := carried
  unfold restartServing
  rw [kind]
  refine if_pos ?_
  rw [Bool.or_eq_true_iff, Bool.or_eq_true_iff]
  exact (or_assoc.2 stands)

theorem restartServing_delete (kind : r.kind = .delete) (ends : ¬ p.carriesDelete r) : restartServing r p =
    dropServing r.age (if 0 < r.attempts then makeSuspect r.elem.sector none (clearDeletePending r.slot (withdraw (.serving r.age) p))
      else clearDeletePending r.slot (withdraw (.serving r.age) p)) := by
  unfold restartServing
  rw [kind]
  refine if_neg fun stands => ends ⟨kind, ?_⟩
  rw [Bool.or_eq_true_iff, Bool.or_eq_true_iff] at stands
  exact or_assoc.1 stands

/-- R105: a request that is not carried loses its record and its claims. -/
theorem restartServing_over (ends : ¬ p.carriesDelete r) : (restartServing r p).servingOf r.age = none ∧
    (restartServing r p).claimsFor (.serving r.age) = [] := by
  have withdrawn := claimsFor_withdraw_self (.serving r.age) p
  have other (kind : r.kind ≠ .delete) : restartServing r p = dropServing r.age (withdraw (.serving r.age) p) := by
    unfold restartServing
    cases hk : r.kind with
    | delete => exact absurd hk kind
    | read => rfl
    | verify => rfl
  by_cases kind : r.kind = .delete
  · rw [restartServing_delete kind ends]
    refine ⟨servingOf_dropServing_self .., ?_⟩
    split
    · exact ((makeSuspect_newClaims (.refl (clearDeletePending r.slot (withdraw (.serving r.age) p))) r.elem.sector none).claimsFor
        (o := .serving r.age) trivial).trans withdrawn
    · exact withdrawn
  · rw [other kind]
    exact ⟨servingOf_dropServing_self .., withdrawn⟩

/-- R36, R112: a DELETE that is not carried has its entry without delete pending, and after a failed attempt its head's sector suspect. -/
theorem restartServing_undelete (kind : r.kind = .delete) (ends : ¬ p.carriesDelete r) :
    (∀ d, (restartServing r p).entryOf r.slot = some d → d.deletePending = false) ∧
    (0 < r.attempts → r.elem.sector < p.smp.sectors.length → ((restartServing r p).sector r.elem.sector).suspect = true) := by
  rw [restartServing_delete kind ends]
  have cleared : ∀ d, (clearDeletePending r.slot (withdraw (.serving r.age) p)).entryOf r.slot = some d → d.deletePending = false := by
    intro d hd
    unfold clearDeletePending at hd
    rw [entryOf_modEntry (fun e => { e with deletePending := false }) (fun _ => rfl)] at hd
    obtain ⟨e, he, rfl⟩ := Option.map_eq_some_iff.1 hd
    rw [if_pos (entryOf_slot he)]
  refine ⟨fun d hd => ?_, fun tried inside => ?_⟩
  · split at hd
    · refine cleared d ?_
      rw [← hd]
      exact (entryOf_of_directory (congrArg Sdr.directory (makeSuspect_mapStep
        (.refl (clearDeletePending r.slot (withdraw (.serving r.age) p))) r.elem.sector none).sdr) r.slot).symm
    · exact cleared d hd
  · rw [if_pos tried]
    exact makeSuspect_suspect (p := clearDeletePending r.slot (withdraw (.serving r.age) p)) inside

/-- Delete pending stays cleared. -/
theorem RestartStep.undeleted (h : RestartStep p q) {s : Nat} (none_ : ∀ d, p.entryOf s = some d → d.deletePending = false) :
    ∀ d, q.entryOf s = some d → d.deletePending = false := by
  obtain ⟨f, hf, keeps, falls⟩ := h.directory
  intro d hd
  unfold Part.entryOf at hd
  rw [hf, find?_map_key _ f _ (fun e => by rw [keeps])] at hd
  obtain ⟨e, he, rfl⟩ := Option.map_eq_some_iff.1 hd
  exact falls e (none_ e he)

theorem restartServing_mem {r x : Serving} (hx : x ∈ (restartServing r p).sdr.serving) :
    (x ∈ p.sdr.serving ∧ x.age ≠ r.age) ∨ x.detached = true := by
  have dropped (h : x ∈ p.sdr.serving.filter (fun x => x.age ≠ r.age)) : x ∈ p.sdr.serving ∧ x.age ≠ r.age := by
    obtain ⟨mem, other⟩ := List.mem_filter.1 h
    exact ⟨mem, by simpa using other⟩
  unfold restartServing at hx
  split at hx
  · split at hx
    · obtain ⟨y, hy, rfl⟩ := List.mem_map.1 hx
      split
      · exact .inr rfl
      · exact .inl ⟨hy, ‹_›⟩
    · split at hx
      · refine .inl (dropped ?_)
        rw [dropServing, (makeSuspect_mapStep (.refl _) _ none).sdr] at hx
        exact hx
      · exact .inl (dropped hx)
  all_goals exact .inl (dropped hx)

/-- R82: every record that is left is one that RESTART detached, or one that it did not come to. -/
theorem restartServings_mem (l : List Serving) {x : Serving} (hx : x ∈ (l.foldl (fun q r => restartServing r q) p).sdr.serving) :
    (x ∈ p.sdr.serving ∧ ∀ y ∈ l, x.age ≠ y.age) ∨ x.detached = true := by
  induction l generalizing p with
  | nil => exact .inl ⟨hx, nofun⟩
  | cons y l ih =>
    rcases ih hx with ⟨mem, others⟩ | detached
    · exact (restartServing_mem mem).imp (fun ⟨mem, other⟩ => ⟨mem, List.forall_mem_cons.2 ⟨other, others⟩⟩) id
    · exact .inr detached

end

end Sys2Proof.Machine
end

