-- ==== Sys2Proof/Proofs/Restart.lean ====
section
/-! O28. RESTART (R30, R36, R57, R58, R97, R104, R136, R179, R180). -/
namespace Sys2Proof.Machine

variable {p q : Part}

/-! ### The stages of RESTART -/

/-- R58: the queue and the waiting ABORTs are discarded. -/
def discarded (p : Part) : Part := { p with rqs := { p.rqs with queue := [] }, link := { p.link with held := [] } }

/-- R180: the part at which RESTART has discarded the served requests. -/
def restartServed (p : Part) : Part := clearWaiting ((discarded p).sdr.serving.foldl (fun q r => restartServing r q) (discarded p))

/-- R180: the part at which RESTART has ended the contexts too. -/
def restartEnded (p : Part) : Part := restartCtx .c1 (restartCtx .c0 (restartServed p))

/-- R180: the part at which RESTART has taken effect, before its reply. -/
def restarted (p : Part) : Part := restartFormat (restartRunner (restartEnded p))

/-- R58: RESTART's reply. -/
def restartReply (tag : Byte) (p : Part) : Reply :=
  { kind := 0x08, tag := tag, status := .ok, notes := 0, place := .direct
    payload := be 1 p.rqs.queue.length ++ be 1 (allCtx.filter (fun c => (p.ctx c).isOpen)).length }

theorem restarted_held (p : Part) : (restarted p).link.held = [] :=
  List.sublist_nil.1 (restartWork_quiet (discarded p)).2.2.1.2

/-- R58, R180: what RESTART does. -/
theorem takeRestart_eq (tag : Byte) (h : p.scu.store ≠ .scanning) : takeRestart tag p =
    closeEvent { restarted p with link := { (restarted p).link with replies := [restartReply tag p] } } := by
  unfold takeRestart
  rw [if_neg h]
  dsimp only
  rw [placeDirect_free]
  · rfl
  · show (List.filter _ ([] : List Reply)).length + (restarted p).link.held.length < 6
    rw [restarted_held]
    decide

theorem allCtx_open (p : Part) : (allCtx.filter (fun c => (p.ctx c).isOpen)).length =
    (if p.wcu.c0.isOpen then 1 else 0) + (if p.wcu.c1.isOpen then 1 else 0) := by
  simp only [allCtx, List.filter_cons, List.filter_nil, Part.ctx]
  split <;> split <;> rfl

/-- R179: what RESTART makes of a FORMAT. -/
theorem restartFormat_eq (p : Part) : ∃ v x, restartFormat p = { p.without v with scu := x } ∧ (∀ o, v o = true → o = .scan) ∧
    (v .scan = false ↔ p.scu.runner = none ∨ ∃ b, p.pee.batch = some b ∧ b.forFormat = true) ∧
    (p.scu.runner = none → x = p.scu) ∧
    ∀ f, p.scu.runner = some f →
      ((∃ b, p.pee.batch = some b ∧ b.forFormat = true) → x = { p.scu with runner := some { f with stopped := true } }) ∧
      ((∀ b, p.pee.batch = some b → b.forFormat = false) → x = { p.scu with store := .blank, runner := none }) := by
  have runs : formatBatchRuns p = true ↔ ∃ b, p.pee.batch = some b ∧ b.forFormat = true := by
    unfold formatBatchRuns
    cases p.pee.batch <;> simp
  cases hf : p.scu.runner with
  | none =>
    refine ⟨fun _ => false, p.scu, ?_, nofun, ⟨fun _ => .inl rfl, fun _ => rfl⟩, fun _ => rfl, nofun⟩
    unfold restartFormat
    rw [hf, Part.without_none]
  | some f =>
    cases hb : formatBatchRuns p with
    | true =>
      refine ⟨fun _ => false, { p.scu with runner := some { f with stopped := true } }, ?_, nofun,
        ⟨fun _ => .inr (runs.1 hb), fun _ => rfl⟩, nofun, fun g hg => ⟨fun _ => ?_, fun none_ => ?_⟩⟩
      · unfold restartFormat
        rw [hf, Part.without_none]
        exact if_pos hb
      · cases hg; rfl
      · obtain ⟨b, batch, format⟩ := runs.1 hb
        rw [none_ b batch] at format; cases format
    | false =>
      have none_ : ¬ ∃ b, p.pee.batch = some b ∧ b.forFormat = true := fun h => by rw [runs.2 h] at hb; cases hb
      refine ⟨(· == .scan), { p.scu with store := .blank, runner := none }, ?_, fun o e => beq_iff_eq.1 e,
        ⟨nofun, fun h => absurd h (not_or.2 ⟨nofun, none_⟩)⟩, nofun, fun g hg => ⟨fun h => absurd h none_, fun _ => rfl⟩⟩
      unfold restartFormat
      rw [hf]
      exact if_neg (by rw [hb]; exact Bool.false_ne_true)

theorem claimsFor_without {v : Owner → Bool} {o : Owner} (h : v o = false) (p : Part) : (p.without v).claimsFor o = p.claimsFor o := by
  unfold Part.claimsFor Part.without
  rw [List.filter_filter]
  refine List.filter_congr fun d _ => ?_
  by_cases hd : d.purpose.owner = o
  · simp [hd, h]
  · simp [hd]

/-! ### What stands -/

theorem RestartStep.clearWaiting (h : RestartStep p q) : RestartStep (clearWaiting p) (clearWaiting q) :=
  { h with
    retiring := congrArg (List.map (fun r : Retiring => ({ r with waiting := none } : Retiring))) h.retiring
    claims := by
      obtain ⟨w, hw, n⟩ := h.claims
      exact ⟨w, hw, ⟨n.age, n.claims, n.preempt, n.engine⟩⟩ }

theorem restartServed_restartStep (p : Part) : RestartStep (clearWaiting (discarded p)) (restartServed p) :=
  (restartServings_restartStep _ (.refl (discarded p))).clearWaiting

theorem restartEnded_restartStep (p : Part) : RestartStep (clearWaiting (discarded p)) (restartEnded p) :=
  restartCtx_restartStep (restartCtx_restartStep (restartServed_restartStep p) .c0) .c1

theorem restartServed_leavesCtx (c : CtxId) (p : Part) : LeavesCtx c p (restartServed p) :=
  (restartServings_leavesCtx c _ (q := discarded p) { LeavesCtx.refl c p with yields := (Yields.refl c p).wcu }).sdr _

theorem restarted_leavesCtx (c : CtxId) (p : Part) : LeavesCtx c (restartEnded p) (restarted p) := by
  obtain ⟨v, x, e, scan, -⟩ := restartFormat_eq (restartRunner (restartEnded p))
  unfold restarted
  rw [e]
  exact { LeavesCtx.refl c (restartEnded p) with
    claims := claimsFor_without (o := .ctx c) (Bool.eq_false_iff.2 fun h => nomatch scan _ h) _
    yields := (Yields.refl ..).wcu }

/-- R104: RESTART comes to each context with all it has, and leaves what it makes of it. -/
theorem restarted_ctx (c : CtxId) (p : Part) : ∃ m, LeavesCtx c p m ∧ LeavesCtx c (restartCtx c m) (restarted p) := by
  cases c with
  | c0 =>
    exact ⟨_, restartServed_leavesCtx .c0 p, (restartCtx_leavesCtx (c := .c0) (d := .c1) nofun _).trans (restarted_leavesCtx .c0 p)⟩
  | c1 =>
    exact ⟨_, (restartServed_leavesCtx .c1 p).trans (restartCtx_leavesCtx (c := .c1) (d := .c0) nofun _), restarted_leavesCtx .c1 p⟩

theorem restartCtx_serving (c : CtxId) (p : Part) : (restartCtx c p).sdr.serving = p.sdr.serving := by
  unfold restartCtx
  dsimp only
  split
  · rfl
  · rw [modCtx_sdr]
  all_goals
    split
    · exact congrArg Sdr.serving (modCtx_sdr ..)
    · rw [(finishEnd_sdr_pee c none p).1]; exact (released_spec c p).serve

theorem restarted_leavesRecord (a : Nat) (p : Part) : LeavesRecord a (restartServed p) (restarted p) := by
  obtain ⟨v, x, e, scan, -⟩ := restartFormat_eq (restartRunner (restartEnded p))
  have ended : LeavesRecord a (restartServed p) (restartEnded p) := (restartCtx_leavesRecord a .c0 _).trans (restartCtx_leavesRecord a .c1 _)
  unfold restarted
  rw [e]
  exact ended.trans ⟨rfl, claimsFor_without (o := .serving a) (Bool.eq_false_iff.2 fun h => nomatch scan _ h) _, rfl⟩

/-- R105: RESTART comes to each served request with all it has; what it makes of its record, its entry and its sector stands. -/
theorem restarted_serving {r : Serving} (nd : (p.sdr.serving.map (·.age)).Nodup) (hr : r ∈ p.sdr.serving) : ∃ m,
    LeavesRecord r.age p m ∧ LeavesRecord r.age (restartServing r m) (restarted p) ∧ m.smp.sectors.length = p.smp.sectors.length ∧
    (∀ s, (∀ d, (restartServing r m).entryOf s = some d → d.deletePending = false) →
      ∀ d, (restarted p).entryOf s = some d → d.deletePending = false) ∧
    ∀ i, ((restartServing r m).sector i).suspect = true → ((restarted p).sector i).suspect = true := by
  obtain ⟨m, before, start, after, step⟩ := restartServings_at nd hr (discarded p)
  have rest : RestartStep (restartServed p) (restartEnded p) := restartCtx_restartStep (restartCtx_keeps .c0 _) .c1
  obtain ⟨v, x, e, -⟩ := restartFormat_eq (restartRunner (restartEnded p))
  have kept : LeavesRecord r.age (restartServing r m) (restartServed p) := ⟨after.record, after.claims, after.op⟩
  refine ⟨m, ⟨before.record, before.claims, before.op⟩, kept.trans (restarted_leavesRecord r.age p), start.length, fun s none_ => ?_, fun i suspect => ?_⟩
  · unfold restarted
    rw [e]
    exact rest.undeleted (p := restartServed p) (step.undeleted none_)
  · unfold restarted
    rw [e]
    exact (rest.sector i).2.2 ((step.sector i).2.2 suspect)

/-- R82: no record is left but those detached. -/
theorem restarted_detached (p : Part) : ∀ r ∈ (restarted p).sdr.serving, r.detached = true := by
  intro r hr
  obtain ⟨v, x, e, -⟩ := restartFormat_eq (restartRunner (restartEnded p))
  have served : (restartEnded p).sdr.serving = (restartServed p).sdr.serving :=
    (restartCtx_serving .c1 _).trans (restartCtx_serving .c0 _)
  unfold restarted at hr
  rw [e] at hr
  replace hr : r ∈ (restartServed p).sdr.serving := served ▸ hr
  rcases restartServings_mem (discarded p).sdr.serving hr with ⟨mem, others⟩ | detached
  · exact absurd rfl (others r mem)
  · exact detached

theorem restarted_discards (p : Part) : Discards p (restarted p) := by
  obtain ⟨v, x, e, scan, -⟩ := restartFormat_eq (restartRunner (restartEnded p))
  obtain ⟨w, hw, new⟩ := (restartEnded_restartStep p).claims
  have ended : Discards p (restartRunner (restartEnded p)) := ⟨w, hw, ⟨new.age, new.claims, new.preempt, new.engine⟩⟩
  have stopped : Discards (restartRunner (restartEnded p)) (restarted p) := by
    refine ⟨v, fun o ho => by rw [scan o ho]; trivial, ?_⟩
    unfold restarted
    rw [e]
    exact (NewClaims.refl _).pee
  exact ended.trans stopped

/-- R50, R97: the pending bytes that RESTART releases. -/
theorem restarted_pending (up : p.mounted = true) (i : Nat) : ∃ n m,
    (((p.ctx .c0).isOpen = true → ¬ p.carriesCtx .c0 → n = (p.ctx .c0).pendingIn i) ∧ ((p.ctx .c0).isOpen = false ∨ p.carriesCtx .c0 → n = 0)) ∧
    (((p.ctx .c1).isOpen = true → ¬ p.carriesCtx .c1 → m = (p.ctx .c1).pendingIn i) ∧ ((p.ctx .c1).isOpen = false ∨ p.carriesCtx .c1 → m = 0)) ∧
    ((restarted p).sector i).pending = (p.sector i).pending - n - m := by
  have first := restartServed_leavesCtx .c0 p
  have second := (restartServed_leavesCtx .c1 p).trans (restartCtx_leavesCtx (c := .c1) (d := .c0) nofun _)
  have up0 : (restartServed p).mounted = true := (restartServed_restartStep p).mounted.trans up
  have up1 : (restartCtx .c0 (restartServed p)).mounted = true := (restartCtx_keeps .c0 _).mounted.trans up0
  obtain ⟨n, bytes, ends, stays⟩ := restartCtx_pending (c := .c0) up0 i
  obtain ⟨m, bytes', ends', stays'⟩ := restartCtx_pending (c := .c1) up1 i
  rw [first.isOpen, first.carriesCtx, first.pendingIn] at ends
  rw [first.isOpen, first.carriesCtx] at stays
  rw [second.isOpen, second.carriesCtx, second.pendingIn] at ends'
  rw [second.isOpen, second.carriesCtx] at stays'
  have served : ((restartServed p).sector i).pending = (p.sector i).pending := restartServings_pending _ (discarded p) i
  obtain ⟨v, x, e, -⟩ := restartFormat_eq (restartRunner (restartEnded p))
  refine ⟨n, m, ⟨ends, stays⟩, ⟨ends', stays'⟩, ?_⟩
  unfold restarted
  rw [e]
  exact bytes'.trans (by rw [bytes, served])

/-! ### The clauses, each of the part at which RESTART has taken effect -/

section
variable (c : CtxId) (p)

theorem restarted_ends : ((restarted p).ctx c).state = .idle ∨ ((restarted p).ctx c).ending = some .byRestart := by
  obtain ⟨m, before, after⟩ := restarted_ctx c p
  cases open_ : (p.ctx c).isOpen with
  | false =>
    rcases state_of_not_open open_ with state | state
    · exact .inl (restarted_idle before after state)
    · exact .inl (by rw [restarted_ended before after state]; rfl)
  | true =>
    by_cases carried : p.carriesCtx c
    · exact .inr (by rw [(restarted_carried before after open_ carried).1])
    · exact .inl (by rw [(restarted_over before after open_ carried).1]; rfl)

theorem restarted_cold (state : (p.ctx c).state ≠ .idle) (ends : (p.ctx c).isOpen = true → ¬ p.carriesCtx c) :
    (restarted p).ctx c = WriteCtx.cold := by
  obtain ⟨m, before, after⟩ := restarted_ctx c p
  cases open_ : (p.ctx c).isOpen with
  | false => exact (state_of_not_open open_).elim (fun idle => absurd idle state) (restarted_ended before after)
  | true => exact (restarted_over before after open_ (ends open_)).1

variable (open_ : (p.ctx c).isOpen = true)
include open_

/-- R104: of the claims of an open context, those stand whose context is carried. -/
theorem restarted_ctx_claims {d : Claim} (hd : d ∈ p.pee.claims) (own : d.purpose.owner = .ctx c) :
    d ∈ (restarted p).pee.claims ↔ p.carriesCtx c := by
  obtain ⟨m, before, after⟩ := restarted_ctx c p
  have mem : d ∈ (restarted p).pee.claims ↔ d ∈ (restarted p).claimsFor (.ctx c) := by rw [mem_claimsFor, and_iff_left own]
  rw [mem]
  by_cases carried : p.carriesCtx c
  · rw [(restarted_carried before after open_ carried).2, mem_claimsFor]
    exact ⟨fun _ => carried, fun _ => ⟨hd, own⟩⟩
  · rw [(restarted_over before after open_ carried).2]
    exact ⟨nofun, fun h => absurd h carried⟩

end

section
variable {r : Serving} (nd : (p.sdr.serving.map (·.age)).Nodup) (hr : r ∈ p.sdr.serving)
include nd hr

theorem restarted_record_carried (carried : p.carriesDelete r) : (restarted p).servingOf r.age = some { r with detached := true } := by
  obtain ⟨m, before, after, -⟩ := restarted_serving nd hr
  rw [restartServing_carried (before.carriesDelete.2 carried)] at after
  exact after.record.trans (servingOf_modServing_self (f := fun r => { r with detached := true }) (fun _ => rfl)
    (before.record.trans (servingOf_of_mem nd hr)))

theorem restarted_record_over (ends : ¬ p.carriesDelete r) : (restarted p).servingOf r.age = none ∧
    (r.kind = .delete → (∀ d, (restarted p).entryOf r.slot = some d → d.deletePending = false) ∧
      (0 < r.attempts → r.elem.sector < p.smp.sectors.length → ((restarted p).sector r.elem.sector).suspect = true)) := by
  obtain ⟨m, before, after, length, undeleted, suspect⟩ := restarted_serving nd hr
  have ends' : ¬ m.carriesDelete r := ends ∘ before.carriesDelete.1
  refine ⟨after.record.trans (restartServing_over ends').1, fun kind => ?_⟩
  obtain ⟨cleared, blamed⟩ := restartServing_undelete kind ends'
  exact ⟨undeleted _ cleared, fun tried inside => suspect _ (blamed tried (length ▸ inside))⟩

theorem restarted_serving_claims {d : Claim} (hd : d ∈ p.pee.claims) (own : d.purpose.owner = .serving r.age) :
    d ∈ (restarted p).pee.claims ↔ p.carriesDelete r := by
  obtain ⟨m, before, after, -⟩ := restarted_serving nd hr
  have mem : d ∈ (restarted p).pee.claims ↔ d ∈ (restarted p).claimsFor (.serving r.age) := by rw [mem_claimsFor, and_iff_left own]
  rw [mem, after.claims]
  by_cases carried : p.carriesDelete r
  · have stands : (restartServing r m).claimsFor (.serving r.age) = m.claimsFor (.serving r.age) := by
      rw [restartServing_carried (before.carriesDelete.2 carried)]
      rfl
    rw [stands, before.claims, mem_claimsFor]
    exact ⟨fun _ => carried, fun _ => ⟨hd, own⟩⟩
  · rw [(restartServing_over (carried ∘ before.carriesDelete.1)).2]
    exact ⟨nofun, fun h => absurd h carried⟩

end

theorem Discards.engine (h : Discards p q) (one : 1 ≤ p.pee.preempt) :
    q.pee.state = p.pee.state ∧ q.pee.budget = p.pee.budget ∧ q.pee.cause = p.pee.cause := by
  obtain ⟨w, -, new⟩ := h
  exact new.engine one

/-- What RESTART keeps, the Scan Unit's state apart. -/
theorem restarted_keeps (p : Part) : RestartStep (clearWaiting (discarded p)) { restarted p with scu := p.scu } := by
  obtain ⟨v, x, e, scan, -⟩ := restartFormat_eq (restartRunner (restartEnded p))
  have step := restartEnded_restartStep p
  unfold restarted
  rw [e]
  refine step.trans { RestartStep.refl (restartEnded p) with
    scu := step.scu.symm
    claims := ⟨v, fun o ho => by rw [scan o ho]; trivial, (NewClaims.refl _).pee⟩ }

/-- R179: a FORMAT that RESTART meets. -/
theorem restarted_scu (p : Part) : (p.scu.runner = none → (restarted p).scu = p.scu) ∧ ∀ f, p.scu.runner = some f →
    ((∃ b, p.pee.batch = some b ∧ b.forFormat = true) → (restarted p).scu = { p.scu with runner := some { f with stopped := true } }) ∧
    ((∀ b, p.pee.batch = some b → b.forFormat = false) → (restarted p).scu = { p.scu with store := .blank, runner := none }) := by
  obtain ⟨v, x, e, -, -, idle, runs⟩ := restartFormat_eq (restartRunner (restartEnded p))
  have step := restartEnded_restartStep p
  have scu : (restartRunner (restartEnded p)).scu = p.scu := step.scu
  have batch : (restartRunner (restartEnded p)).pee.batch = p.pee.batch := step.batch
  rw [scu] at idle runs
  rw [batch] at runs
  unfold restarted
  rw [e]
  exact ⟨idle, runs⟩

theorem restartServing_scan (r : Serving) (p : Part) : (restartServing r p).claimsFor .scan = p.claimsFor .scan := by
  have withdrawn : (withdraw (.serving r.age) p).claimsFor .scan = p.claimsFor .scan :=
    claimsFor_withdraw_other (o := .scan) (v := .serving r.age) nofun p
  unfold restartServing
  split
  · split
    · rfl
    · split
      · exact ((makeSuspect_newClaims (.refl (clearDeletePending r.slot (withdraw (.serving r.age) p))) r.elem.sector none).claimsFor
          (o := .scan) trivial).trans withdrawn
      · exact withdrawn
  all_goals exact withdrawn

theorem restartCtx_scan (c : CtxId) (p : Part) : (restartCtx c p).claimsFor .scan = p.claimsFor .scan := by
  have changed (f : WriteCtx → WriteCtx) (q : Part) : (modCtx c f q).claimsFor .scan = q.claimsFor .scan := by
    unfold Part.claimsFor
    rw [modCtx_pee]
  have ended : (finishEnd c none p).claimsFor .scan = p.claimsFor .scan := by
    rw [finishEnd_none_eq, changed, (released_newClaims c p).claimsFor (o := .scan) trivial]
    exact claimsFor_withdraw_other (o := .scan) (v := .ctx c) nofun p
  unfold restartCtx
  dsimp only
  split
  · rfl
  · exact changed _ p
  all_goals
    split
    · exact changed _ p
    · exact ended

theorem restartEnded_scan (p : Part) : (restartEnded p).claimsFor .scan = p.claimsFor .scan := by
  have served (l : List Serving) (q : Part) : (l.foldl (fun q r => restartServing r q) q).claimsFor .scan = q.claimsFor .scan := by
    induction l generalizing q with
    | nil => rfl
    | cons r l ih => exact (ih _).trans (restartServing_scan r q)
  exact (restartCtx_scan .c1 _).trans ((restartCtx_scan .c0 _).trans (served _ (discarded p)))

/-- R179: a FORMAT's claims are withdrawn when it stops at once, and stand otherwise. -/
theorem restarted_scan_claims {d : Claim} (hd : d ∈ p.pee.claims) (own : d.purpose.owner = .scan) : d ∈ (restarted p).pee.claims ↔
    p.scu.runner = none ∨ ∃ b, p.pee.batch = some b ∧ b.forFormat = true := by
  obtain ⟨v, x, e, -, format, -⟩ := restartFormat_eq (restartRunner (restartEnded p))
  have step := restartEnded_restartStep p
  have scu : (restartRunner (restartEnded p)).scu = p.scu := step.scu
  have batch : (restartRunner (restartEnded p)).pee.batch = p.pee.batch := step.batch
  rw [scu, batch] at format
  have stands : d ∈ (restartEnded p).claimsFor .scan := by
    rw [restartEnded_scan, mem_claimsFor]
    exact ⟨hd, own⟩
  rw [← format]
  unfold restarted
  rw [e]
  show d ∈ (restartEnded p).pee.claims.filter _ ↔ _
  rw [List.mem_filter, and_iff_right (mem_claimsFor.1 stands).1, own]
  simp

theorem restarted_job (p : Part) : (restarted p).rcu.job = none := by
  obtain ⟨v, x, e, -⟩ := restartFormat_eq (restartRunner (restartEnded p))
  unfold restarted
  rw [e]
  rfl

/-- The part that RESTART leaves, its reply placed. -/
def restartedWith (tag : Byte) (p : Part) : Part :=
  { restarted p with link := { (restarted p).link with replies := [restartReply tag p] } }

/-- Settles O28: the stages of RESTART in turn, each of which leaves what the statement keeps. -/
theorem restartDiscardsWork : Obligations.RestartDiscardsWork := by
  unfold Obligations.RestartDiscardsWork
  intro tag level s listens
  have taken : exec (.restart tag level) s = .next { s with part := takeRestart tag (s.part.pushed 7) } := by
    show request 7 (takeRestart tag) s = _
    unfold request
    rw [push_listens listens]
  refine ⟨fun scanning => ⟨_, taken.trans ?_, placeDirect_answers ..⟩, fun up => ⟨restartedWith tag (s.part.pushed 7), ?_, ?_⟩⟩
  · unfold takeRestart
    rw [if_pos (show (s.part.pushed 7).scu.store = _ from scanning)]
  · rw [taken, takeRestart_eq (p := s.part.pushed 7) tag up]
    rfl
  have keeps := restarted_keeps (s.part.pushed 7)
  obtain ⟨idle, format⟩ := restarted_scu (s.part.pushed 7)
  obtain ⟨kept, new, claims, sub, news, stays, gone⟩ := (restarted_discards (s.part.pushed 7)).claims
  refine ⟨keeps.rqs, restarted_held _, ?_, ?_, fun c => restarted_ends (s.part.pushed 7) c,
    ⟨fun c => restarted_cold (s.part.pushed 7) c, fun c open_ carried => ?_, fun c i open_ ends hi only => ?_,
      restarted_pending (p := s.part.pushed 7)⟩,
    restarted_detached _, fun nd r hr => ⟨restarted_record_carried (p := s.part.pushed 7) nd hr, restarted_record_over (p := s.part.pushed 7) nd hr⟩,
    ⟨kept, new, claims, sub, news, fun d hd => ⟨fun m n i own => stays d hd ?_, fun c own open_ => ?_, fun nd r hr own => ?_, fun own => ?_⟩⟩,
    (restarted_discards (s.part.pushed 7)).engine, ?_, keeps.conds, ?_, keeps.retiring, keeps.sequence, keeps.plan, keeps.length,
    fun i => ?_, fun i hi => keeps.erase i (.inl hi), fun b hb => ?_, fun i hi => ?_, keeps.op, keeps.batch, keeps.step, keeps.hold, idle, format⟩
  · exact restarted_job _
  · exact congrArg (fun n => [({ restartReply tag (s.part.pushed 7) with payload := be 1 s.part.rqs.queue.length ++ be 1 n } : Reply)])
      (allCtx_open (s.part.pushed 7))
  · obtain ⟨m, before, after⟩ := restarted_ctx c (s.part.pushed 7)
    have stands := (restarted_carried before after open_ carried).1
    exact ⟨stands, by rw [show (restartedWith tag (s.part.pushed 7)).ctx c = _ from stands]; rfl⟩
  · obtain ⟨m, before, after⟩ := restarted_ctx c (s.part.pushed 7)
    exact restarted_owner before after open_ ends hi only
  · rcases own with own | own | own | own <;> rw [own] <;> exact id
  · exact (gone d hd (by rw [own]; trivial)).trans (restarted_ctx_claims (s.part.pushed 7) c open_ hd own)
  · exact (gone d hd (by rw [own]; trivial)).trans (restarted_serving_claims (p := s.part.pushed 7) nd hr hd own)
  · exact (gone d hd (by rw [own]; trivial)).trans (restarted_scan_claims (p := s.part.pushed 7) hd own)
  · exact (restartWork_quiet (discarded (s.part.pushed 7))).1
  · obtain ⟨f, directory, only, -⟩ := keeps.directory
    refine (congrArg (List.map fun d : DirEntry => ({ d with openCtx := none, deletePending := false } : DirEntry)) directory).trans ?_
    rw [List.map_map]
    refine List.map_congr_left fun d _ => ?_
    dsimp only [Function.comp]
    rw [only d]
  · obtain ⟨zone, count, suspect⟩ := keeps.sector i
    exact ⟨zone, count, suspect, fun either => keeps.bytes either i⟩
  · obtain ⟨t, ht, zone, before, -, window⟩ := keeps.opened b hb
    exact ⟨t, ht, zone, before, window⟩
  · refine (keeps.evac i hi).imp id fun zero => ?_
    simp only [Sector.countsZero, Bool.and_eq_true, decide_eq_true_eq, and_assoc] at zero
    exact zero

end Sys2Proof.Machine
end

