-- ==== Sys2Proof/Proofs/ContextSteps.lean ====
section
/-! SUPPORT. The steps that a write context chooses (R88 to R93, R101): one lemma for each line of its table, and what a take that
gives a sector leaves. -/
namespace Sys2Proof.Machine

variable {p q : Part} {c : CtxId}

/-! ### Ending on another base -/

/-- What a context's end reads of the part: `m` gives it what `p` does. -/
structure SameEnd (c : CtxId) (m p : Part) : Prop where
  mounted    : m.mounted = p.mounted
  live       : ∀ i, (m.sector i).live = (p.sector i).live
  pending    : ∀ i, (m.sector i).pending - (m.ctx c).pendingIn i = (p.sector i).pending - (p.ctx c).pendingIn i
  slot       : (m.ctx c).slot = (p.ctx c).slot
  tag        : (m.ctx c).tag = (p.ctx c).tag
  notes      : (m.ctx c).notes = (p.ctx c).notes
  sequence   : (m.ctx c).sequence = (p.ctx c).sequence
  programmed : (m.ctx c).programmed = (p.ctx c).programmed
  replies    : m.link.replies = p.link.replies

theorem LetGo.of_same {m : Part} (h : LetGo c m q) (s : SameEnd c m p) : LetGo c p q := by
  obtain ⟨claims, waits, slot, bytes⟩ := h
  refine ⟨claims, waits, by rw [← s.slot]; exact slot, fun mounted i => ?_⟩
  obtain ⟨pending, live⟩ := bytes (s.mounted.trans mounted) i
  rw [← s.live, ← s.pending]
  exact ⟨pending, live⟩

theorem EndedWith.of_same {m : Part} {st : Status} (h : EndedWith c st m q) (s : SameEnd c m p) : EndedWith c st p q := by
  obtain ⟨state, owned, current, reservation, ending, credit, letGo, reply⟩ := h
  refine ⟨state, owned, current, reservation, ending, credit, letGo.of_same s, ?_⟩
  rw [← s.slot, ← s.sequence, ← s.programmed, ← s.tag, ← s.notes, ← s.replies]
  exact reply

theorem EndedBy.of_same {m : Part} {e : EndCause} (h : EndedBy c e m q) (s : SameEnd c m p) : EndedBy c e p q := by
  cases e with
  | withStatus st => exact EndedWith.of_same h s
  | byRestart =>
    obtain ⟨cold, letGo, replies⟩ := h
    exact ⟨cold, letGo.of_same s, replies.trans s.replies⟩

/-! ### Taking a sector -/

theorem claimRuns_of_pee {o : Owner} (h : q.pee = p.pee) : claimRuns o q = claimRuns o p := by
  unfold claimRuns; rw [h]

/-- R43: a take that gives a sector leaves it in the context's hands, and the claims and the extents as they are. -/
theorem takeForCtx_taken {r : Part} (h : takeForCtx c p = (.taken, r)) :
    (∃ i n, r.ctx c = { p.ctx c with owned := some i, reservation := n }) ∧ r.pee = p.pee := by
  unfold takeForCtx at h
  dsimp only at h
  split at h
  · cases h
  · split at h
    · cases h
      exact ⟨⟨_, _, takeTail_ctx ..⟩, (takeTail_kept ..).1⟩
    · split at h
      · split at h
        · cases h
          obtain ⟨-, pee, ctx⟩ := tookFree_kept c ‹Nat› p
          rw [takeFree_eq]
          exact ⟨⟨_, _, (reportFree_ctx ..).trans ctx⟩, (reportFree_pee ..).trans pee⟩
        · cases h
      · cases h

/-! ### The sector of an extent -/

theorem sectorFor_inHand {i : Nat} (owned : (p.ctx c).owned = some i) (room : 64 ≤ (p.sector i).room)
    (sound : (p.sector i).suspect = false) : sectorFor c p = (.taken, p) := by
  unfold sectorFor
  rw [owned]
  exact if_pos ⟨room, sound⟩

theorem sectorFor_takes (none_ : ∀ i, (p.ctx c).owned = some i → (p.sector i).room < 64 ∨ (p.sector i).suspect = true) :
    sectorFor c p = takeForCtx c p := by
  unfold sectorFor
  split
  · rename_i i owned
    refine if_neg fun ⟨room, sound⟩ => ?_
    rcases none_ i owned with h | h
    · exact absurd room (Nat.not_le.2 h)
    · rw [sound] at h; cases h
  · rfl

theorem startExtent_taken {r : Part} {i : Nat} (h : sectorFor c p = (.taken, r)) (owned : (r.ctx c).owned = some i) :
    startExtent c p = raiseFirst c i r := by
  unfold startExtent
  rw [h]
  dsimp only
  rw [owned]

theorem startExtent_waits {r : Part} (h : sectorFor c p = (.waits, r)) :
    startExtent c p = if (p.ctx c).written.length = 72 then endCtx c .fragmented p else r := by
  unfold startExtent
  rw [h]
  by_cases last : (p.ctx c).written.length = 72
  · simp only [last, if_true, decide_true]
  · simp only [last, if_false, decide_false, Bool.false_eq_true]

theorem startExtent_refused {r : Part} (h : sectorFor c p = (.refused, r)) :
    startExtent c p = endCtx c (if (p.ctx c).written.length = 72 then .fragmented else .noSpace) r := by
  unfold startExtent
  rw [h]
  by_cases last : (p.ctx c).written.length = 72
  · simp only [last, if_true, decide_true]
  · simp only [last, if_false, decide_false, Bool.false_eq_true]

/-- R101: a context with 72 extents closed starts none. -/
theorem raiseFirst_full {i : Nat} (full : (p.ctx c).written.length = 72) : raiseFirst c i p = endCtx c .fragmented p := by
  unfold raiseFirst
  exact if_pos full

theorem raiseFirst_raisedFirst {i : Nat} (room : (p.ctx c).written.length < 72) : RaisedFirst c i p (raiseFirst c i p) := by
  rw [raiseFirst_raises room]
  exact raise_raised ..

/-! ### The table of steps -/

/-- R88: a context starts an extent when it has bytes for one, or is a WRITE of no bytes that has none. -/
def WriteCtx.starts (k : WriteCtx) : Prop := (k.total = 0 ∧ k.written = []) ∨ k.hasBytes

theorem chooseStep_rests (h : ¬ p.chooses c) : chooseStep c p = p := by
  unfold chooseStep
  rw [chooses_iff, Bool.not_eq_true] at h
  rw [h]
  rfl

theorem rests_of_chooses (h : p.chooses c) : claimRuns (.ctx c) p = false := by
  obtain ⟨-, -, free, -⟩ := h
  exact (Bool.or_eq_false_iff.1 free).2

section
variable (h : p.chooses c)
include h

theorem chooseStep_current {x : CurExtent} (hx : (p.ctx c).current = some x) : chooseStep c p =
    if x.mustClose = true ∨ x.data = 4096 - x.offset - 32 ∨ (p.ctx c).programmed = (p.ctx c).total then raiseClose c x p
    else if (p.ctx c).bufferReady then raiseData c x p else p := by
  unfold chooseStep
  rw [(chooses_iff c p).1 h]
  dsimp only
  rw [if_neg (by decide), hx]
  rfl

variable (none_ : (p.ctx c).current = none)
include none_

theorem chooseStep_starts (start : (p.ctx c).starts) : chooseStep c p = startExtent c p := by
  unfold chooseStep
  rw [(chooses_iff c p).1 h]
  dsimp only
  rw [if_neg (by decide), none_]
  dsimp only
  by_cases nothing : (p.ctx c).total = 0 ∧ (p.ctx c).written = []
  · rw [if_pos nothing]
  · rw [if_neg nothing, if_pos ((hasBytes_iff _).1 (start.resolve_left nothing))]

theorem chooseStep_ends (start : ¬ (p.ctx c).starts) : chooseStep c p =
    if (p.ctx c).programmed = (p.ctx c).total then
      tryCommit c (modCtx c (fun k => { k with state := .committing, commit := .waiting }) p)
    else if (p.ctx c).written.length = 72 then endCtx c .fragmented p else p := by
  unfold chooseStep
  rw [(chooses_iff c p).1 h]
  dsimp only
  rw [if_neg (by decide), none_]
  dsimp only
  rw [if_neg fun nothing => start (.inl nothing), if_neg fun bytes => start (.inr ((hasBytes_iff _).2 bytes))]

end

/-! ### Its lines -/

section
variable (h : p.chooses c) (none_ : (p.ctx c).current = none) (start : (p.ctx c).starts)
include h none_ start

/-- R89, R101: with its sector in hand the context raises a first stage, or ends FRAGMENTED. -/
theorem chooseStep_inHand {i : Nat} (owned : (p.ctx c).owned = some i) (room : 64 ≤ (p.sector i).room)
    (sound : (p.sector i).suspect = false) : chooseStep c p = raiseFirst c i p := by
  rw [chooseStep_starts h none_ start]
  exact startExtent_taken (sectorFor_inHand owned room sound) owned

variable (takes : ∀ i, (p.ctx c).owned = some i → (p.sector i).room < 64 ∨ (p.sector i).suspect = true)
include takes

theorem chooseStep_taken {r : Part} {i : Nat} (taken : takeForCtx c p = (.taken, r)) (owned : (r.ctx c).owned = some i) :
    chooseStep c p = raiseFirst c i r := by
  rw [chooseStep_starts h none_ start]
  exact startExtent_taken ((sectorFor_takes takes).trans taken) owned

theorem chooseStep_waits {r : Part} (waits : takeForCtx c p = (.waits, r)) :
    chooseStep c p = if (p.ctx c).written.length = 72 then endCtx c .fragmented p else r := by
  rw [chooseStep_starts h none_ start]
  exact startExtent_waits ((sectorFor_takes takes).trans waits)

theorem chooseStep_refused {r : Part} (refused : takeForCtx c p = (.refused, r)) :
    chooseStep c p = endCtx c (if (p.ctx c).written.length = 72 then .fragmented else .noSpace) p := by
  rw [chooseStep_starts h none_ start, startExtent_refused ((sectorFor_takes takes).trans refused), takeForCtx_refused refused]

/-- R101: with 72 extents closed a take that gives a sector comes first, and the context ends FRAGMENTED whatever it answers. -/
theorem chooseStep_fragmented (full : (p.ctx c).written.length = 72) :
    (∀ r, takeForCtx c p = (.taken, r) → EndedWith c .fragmented r (chooseStep c p)) ∧
    (∀ a r, takeForCtx c p = (a, r) → a ≠ .taken → EndedWith c .fragmented p (chooseStep c p)) := by
  refine ⟨fun r taken => ?_, fun a r answer not => ?_⟩
  · obtain ⟨⟨i, n, ctx⟩, pee⟩ := takeForCtx_taken taken
    rw [chooseStep_taken h none_ start takes taken (by rw [ctx]), raiseFirst_full (by rw [ctx]; exact full)]
    exact endCtx_ended ((claimRuns_of_pee pee).trans (rests_of_chooses h))
  · cases a with
    | taken => exact absurd rfl not
    | waits => rw [chooseStep_waits h none_ start takes answer, if_pos full]; exact endCtx_ended (rests_of_chooses h)
    | refused => rw [chooseStep_refused h none_ start takes answer, if_pos full]; exact endCtx_ended (rests_of_chooses h)

/-- R89: with fewer, the take's answer decides: the first stage, the wait, or NO_SPACE. -/
theorem chooseStep_answered (room : (p.ctx c).written.length < 72) :
    (∀ r i, takeForCtx c p = (.taken, r) → (r.ctx c).owned = some i → RaisedFirst c i r (chooseStep c p)) ∧
    (∀ r, takeForCtx c p = (.waits, r) → chooseStep c p = r) ∧
    (∀ r, takeForCtx c p = (.refused, r) → EndedWith c .noSpace p (chooseStep c p)) := by
  refine ⟨fun r i taken owned => ?_, fun r waits => ?_, fun r refused => ?_⟩
  · obtain ⟨⟨_, _, ctx⟩, -⟩ := takeForCtx_taken taken
    rw [chooseStep_taken h none_ start takes taken owned]
    exact raiseFirst_raisedFirst (by rw [ctx]; exact room)
  · rw [chooseStep_waits h none_ start takes waits, if_neg room.ne]
  · rw [chooseStep_refused h none_ start takes refused, if_neg room.ne]
    exact endCtx_ended (rests_of_chooses h)

end

/-! ### The commit claim -/

/-- R38: a SUPERSEDED record of the slot stands. -/
theorem supersededStands_iff (s : Nat) (p : Part) :
    supersededStands s p = true ↔ ∃ r ∈ p.sdr.retiring, r.slot = s ∧ r.superseded = true := by
  unfold supersededStands
  simp

/-- R38: the context waits for its commit claim and nothing holds it back. -/
def Part.readyToCommit (c : CtxId) (p : Part) : Prop :=
  (p.ctx c).state = .committing ∧ (p.ctx c).commit = .waiting ∧ (p.ctx c).ending = none ∧
    ¬ ∃ r ∈ p.sdr.retiring, r.slot = (p.ctx c).slot ∧ r.superseded = true

theorem tryCommit_waits (h : ∃ r ∈ p.sdr.retiring, r.slot = (p.ctx c).slot ∧ r.superseded = true) : tryCommit c p = p := by
  unfold tryCommit
  refine if_neg fun ⟨_, _, _, none_⟩ => ?_
  rw [(supersededStands_iff ..).2 h] at none_
  cases none_

theorem tryCommit_ready (h : p.readyToCommit c) : tryCommit c p =
    if (p.ctx c).maintRequired && !p.mli.level then endCtx c .protected_ p
    else raiseCommit c (modCtx c (fun k => { k with commit := .attempting }) p) := by
  obtain ⟨state, commit, ending, none_⟩ := h
  unfold tryCommit
  exact if_pos ⟨state, commit, ending, by rw [← Bool.not_eq_true, supersededStands_iff]; exact none_⟩

/-- R93: the commit claim is a MARK on the COMMITTED byte of the first extent. -/
theorem raiseCommit_raised {w : Written} {ws : List Written} (written : (p.ctx c).written = w :: ws) :
    Raised (.ctxCommit c) .mark (p.ctx c).level (.bytes w.sector (w.offset + 23) [0x00]) p (raiseCommit c p) ∧
      (raiseCommit c p).ctx c = p.ctx c := by
  unfold raiseCommit
  dsimp only
  rw [written]
  exact ⟨raise_raised .., raise_ctx ..⟩

/-- R141: the commit of a guarded WRITE without MAINT ends it. -/
theorem tryCommit_protected (h : p.readyToCommit c) (maint : (p.ctx c).maintRequired = true) (level : p.mli.level = false)
    (rests : claimRuns (.ctx c) p = false) : EndedWith c .protected_ p (tryCommit c p) := by
  rw [tryCommit_ready h, maint, level]
  exact endCtx_ended rests

/-- R93: the claim of any other is raised. -/
theorem tryCommit_raises (h : p.readyToCommit c) (open_ : (p.ctx c).maintRequired = false ∨ p.mli.level = true) {w : Written}
    {ws : List Written} (written : (p.ctx c).written = w :: ws) :
    Raised (.ctxCommit c) .mark (p.ctx c).level (.bytes w.sector (w.offset + 23) [0x00]) p (tryCommit c p) ∧
      (tryCommit c p).ctx c = { p.ctx c with commit := .attempting } := by
  have free : ((p.ctx c).maintRequired && !p.mli.level) = false := by
    rcases open_ with h | h <;> rw [h]
    · rfl
    · exact Bool.and_false _
  obtain ⟨raised, ctx⟩ := raiseCommit_raised (p := modCtx c (fun k => { k with commit := .attempting }) p) (c := c) (w := w) (ws := ws)
    (by rw [modCtx_ctx]; exact written)
  rw [tryCommit_ready h, free, if_neg Bool.false_ne_true]
  unfold Raised at raised ⊢
  rw [modCtx_ctx, modCtx_pee] at raised
  exact ⟨raised, ctx.trans (modCtx_ctx ..)⟩

/-- R93: a context with every byte down goes to its commit. -/
theorem chooseStep_commits (h : p.chooses c) (none_ : (p.ctx c).current = none) (fresh : (p.ctx c).commit = .notReached)
    (start : ¬ (p.ctx c).starts) (down : (p.ctx c).programmed = (p.ctx c).total) :
    let stands : Prop := ∃ r ∈ p.sdr.retiring, r.slot = (p.ctx c).slot ∧ r.superseded = true
    (stands → chooseStep c p = modCtx c (fun k => { k with state := .committing, commit := .waiting }) p) ∧
    (¬ stands → (p.ctx c).maintRequired = true → p.mli.level = false → EndedWith c .protected_ p (chooseStep c p)) ∧
    (¬ stands → ((p.ctx c).maintRequired = false ∨ p.mli.level = true) → ∀ w ws, (p.ctx c).written = w :: ws →
      Raised (.ctxCommit c) .mark (p.ctx c).level (.bytes w.sector (w.offset + 23) [0x00]) p (chooseStep c p) ∧
      (chooseStep c p).ctx c = { p.ctx c with state := .committing, commit := .attempting }) := by
  intro stands
  rw [chooseStep_ends h none_ start, if_pos down]
  generalize hm : modCtx c (fun k => { k with state := .committing, commit := .waiting }) p = m
  have ctx : m.ctx c = { p.ctx c with state := .committing, commit := .waiting } := by rw [← hm, modCtx_ctx]
  have retiring : m.sdr.retiring = p.sdr.retiring := by rw [← hm, modCtx_sdr]
  have pee : m.pee = p.pee := by rw [← hm, modCtx_pee]
  have mli : m.mli = p.mli := by rw [← hm, modCtx_mli]
  have ready (none' : ¬ stands) : m.readyToCommit c := by
    unfold Part.readyToCommit
    rw [ctx, retiring]
    exact ⟨rfl, rfl, h.2.1, none'⟩
  refine ⟨fun stand => tryCommit_waits ?_, fun none' maint level => ?_, fun none' open_ w ws written => ?_⟩
  · rw [ctx, retiring]; exact stand
  · have ended := tryCommit_protected (ready none') (by rw [ctx]; exact maint) (by rw [mli]; exact level)
      ((claimRuns_of_pee pee).trans (rests_of_chooses h))
    have sectors (i : Nat) : m.sector i = p.sector i := by rw [← hm, modCtx_sector]
    refine ended.of_same ⟨?_, fun i => by rw [sectors], fun i => ?_, by rw [ctx], by rw [ctx], by rw [ctx], by rw [ctx], by rw [ctx],
      by rw [← hm, modCtx_link]⟩
    · unfold Part.mounted; rw [← hm, modCtx_scu]
    · rw [sectors, ctx]
      unfold WriteCtx.pendingIn
      rw [fresh]
      rfl
  · have raised := tryCommit_raises (ready none') (by rw [ctx, mli]; exact open_) (by rw [ctx]; exact written)
    unfold Raised at raised ⊢
    rw [ctx, pee] at raised
    exact raised

/-! ### The steps of a current extent -/

theorem raiseClose_raised (x : CurExtent) (p : Part) : Raised (.ctxClose c) .mark (p.ctx c).level
    (.bytes x.sector (x.offset + 16) (be 3 x.data ++ be 4 (x.crc ^^^ 0xFFFFFFFF#32).toNat)) p (raiseClose c x p) := raise_raised ..

theorem raiseData_raised (x : CurExtent) (p : Part) : Raised (.ctxData c) .program (p.ctx c).level
    (.bytes x.sector (x.offset + 32 + x.data) ((((p.ctx c).buf (p.ctx c).drainNext).bytes.drop
      ((p.ctx c).buf (p.ctx c).drainNext).done).take (4096 - x.offset - 32 - x.data))) p (raiseData c x p) := raise_raised ..

end Sys2Proof.Machine
end

