-- ==== Sys2Proof/Proofs/Unread.lean ====
section
/-! SUPPORT. What the Sector Map does not read: the commit attempts of the contexts and the bytes of the runner's step. Its operations
commute with a change of them. -/
namespace Sys2Proof.Machine

/-- The part with attempts added to its contexts and the bytes of its step changed. -/
def Part.reread (m n : Nat) (g : List Byte → List Byte) (p : Part) : Part :=
  { p with
    wcu := { c0 := { p.wcu.c0 with attempts := p.wcu.c0.attempts + m }, c1 := { p.wcu.c1 with attempts := p.wcu.c1.attempts + n } }
    rcu := { p.rcu with step := p.rcu.step.map (fun st => { st with bytes := g st.bytes }) } }

section
variable (m n : Nat) (g : List Byte → List Byte) (p : Part)

theorem reread_step : (p.reread m n g).rcu.step = p.rcu.step.map (fun st => { st with bytes := g st.bytes }) := rfl

theorem raise_reread (u : Purpose) (k : OpKind) (l : Nat) (t : Target) :
    raise u k l t (p.reread m n g) = (raise u k l t p).reread m n g := by
  have pee : (p.reread m n g).pee = p.pee := rfl
  unfold raise
  dsimp only
  rw [pee]
  split <;> rfl

theorem takersLevel_reread (z : Nat) : takersLevel z (p.reread m n g) = takersLevel z p := by
  have level : (fun (l : Nat) c => max l ((p.reread m n g).ctx c).level) = fun l c => max l (p.ctx c).level := by
    funext l c
    cases c <;> rfl
  unfold takersLevel
  rw [level]
  rfl

theorem raiseErase_reread : raiseErase (p.reread m n g) = (raiseErase p).reread m n g := by
  unfold raiseErase
  show (match p.rcu.openBatch with | some b => _ | none => _) = _
  cases p.rcu.openBatch with
  | none => rfl
  | some b =>
    dsimp only
    rw [takersLevel_reread]
    exact raise_reread m n g { p with rcu := { p.rcu with openBatch := some { b with window := none, raised := true } } } ..

theorem takeOfZone_reread (z : Nat) (l : List Nat) : ∀ k, takeOfZone (p.reread m n g) z k l = takeOfZone p z k l := by
  induction l with
  | nil => intro k; cases k <;> rfl
  | cons s l ih =>
    intro k
    cases k with
    | zero => rfl
    | succ k =>
      unfold takeOfZone
      rw [ih, ih]
      rfl

theorem openBatch_reread : openBatch (p.reread m n g) = (openBatch p).reread m n g := by
  unfold openBatch
  show (match p.rcu.eraseQueue with | [] => _ | s :: _ => _) = _
  cases hq : p.rcu.eraseQueue with
  | nil => rfl
  | cons s l =>
    have queue : (p.reread m n g).rcu.eraseQueue = s :: l := hq
    have zone : (p.reread m n g).sector s = p.sector s := rfl
    have mounted : (p.reread m n g).mounted = p.mounted := rfl
    have batch : (p.reread m n g).rcu.openBatch = p.rcu.openBatch := rfl
    have running : (p.reread m n g).pee.batch = p.pee.batch := rfl
    dsimp only
    rw [queue, zone, takeOfZone_reread, mounted, batch, running]
    split
    · split
      · exact raiseErase_reread m n g { p with rcu := { p.rcu with
          eraseQueue := (takeOfZone p (p.sector s).zone Config.batchMax (s :: l)).2
          openBatch := some { zone := (p.sector s).zone, sectors := (takeOfZone p (p.sector s).zone Config.batchMax (s :: l)).1,
                              window := none, raised := false } } }
      · rfl
    · rfl

theorem joinErase_reread (i : Nat) : joinErase i (p.reread m n g) = (joinErase i p).reread m n g := by
  unfold joinErase
  show (match p.rcu.openBatch with | some b => _ | none => _) = _
  cases p.rcu.openBatch with
  | none => exact openBatch_reread m n g { p with rcu := { p.rcu with eraseQueue := p.rcu.eraseQueue ++ [i] } }
  | some b =>
    have zone : (p.reread m n g).sector i = p.sector i := rfl
    dsimp only
    rw [zone]
    split
    · split
      · exact raiseErase_reread m n g { p with rcu := { p.rcu with openBatch := some { b with sectors := b.sectors ++ [i] } } }
      · rfl
    · rfl

theorem liftHold_reread (z : Nat) : liftHold z (p.reread m n g) = (liftHold z p).reread m n g := by
  have hold : (p.reread m n g).rcu.hold = p.rcu.hold := rfl
  unfold liftHold
  rw [hold]
  split <;> rfl

theorem returnSpare_reread (z : Nat) : returnSpare z (p.reread m n g) = (returnSpare z p).reread m n g := by
  have due : spareDue z (p.reread m n g) = spareDue z p := rfl
  unfold returnSpare
  rw [due]
  split
  · exact liftHold_reread m n g (modZone z (fun r => { r with spareInUse := false }) p) z
  · rfl

/-- The part at which sector `i` is STALE and out of the evacuation queue. -/
def Part.staleAt (i : Nat) (p : Part) : Part :=
  { modSector i (fun s => { s with state := .stale }) p with
    rcu := { p.rcu with evacQueue := p.rcu.evacQueue.filter (fun j => j ≠ i) } }

theorem becomeStale_reread (i : Nat) : becomeStale i (p.reread m n g) = (becomeStale i p).reread m n g := by
  have stale (r : Part) : becomeStale i r = returnSpare (r.sector i).zone (if r.mounted then joinErase i (r.staleAt i) else r.staleAt i) := rfl
  have zone : (p.reread m n g).sector i = p.sector i := rfl
  have mounted : (p.reread m n g).mounted = p.mounted := rfl
  have held : (p.reread m n g).staleAt i = (p.staleAt i).reread m n g := rfl
  rw [stale, stale, zone, mounted, held, joinErase_reread]
  split <;> exact returnSpare_reread ..

theorem copyUncounted_reread (i : Nat) : copyUncounted i (p.reread m n g) = copyUncounted i p := by
  unfold copyUncounted
  rw [reread_step]
  cases p.rcu.step <;> rfl

theorem judgeSector_reread (i : Nat) : judgeSector i (p.reread m n g) = (judgeSector i p).reread m n g := by
  have sector : (p.reread m n g).sector i = p.sector i := rfl
  have mounted : (p.reread m n g).mounted = p.mounted := rfl
  have queue : (p.reread m n g).rcu.evacQueue = p.rcu.evacQueue := rfl
  unfold judgeSector
  dsimp only
  rw [sector, mounted, queue, copyUncounted_reread]
  split
  · split
    · exact becomeStale_reread m n g p i
    · split <;> rfl
  · rfl

theorem dropOwner_reread (i : Nat) : dropOwner i (p.reread m n g) = (dropOwner i p).reread m n g := by
  have sector : (p.reread m n g).sector i = p.sector i := rfl
  unfold dropOwner
  rw [sector]
  split
  · rename_i c _
    cases c <;> rfl
  · rfl
  · rfl

theorem sealSector_reread (i : Nat) : sealSector i (p.reread m n g) = (sealSector i p).reread m n g := by
  unfold sealSector
  rw [dropOwner_reread]
  exact judgeSector_reread m n g (modSector i (fun s => { s with state := .sealed }) (clearTail i (dropOwner i p))) i

theorem giveUp_reread (i : Nat) : giveUp i (p.reread m n g) = (giveUp i p).reread m n g := by
  have sector (j : Nat) : (p.reread m n g).sector j = p.sector j := rfl
  have mounted : (p.reread m n g).mounted = p.mounted := rfl
  have zone (z : Nat) : (p.reread m n g).zone z = p.zone z := rfl
  unfold giveUp
  dsimp only
  rw [dropOwner_reread, sector, mounted, zone]
  split
  · rfl
  · split
    · split
      · split
        · rfl
        · rw [sector, sealSector_reread, sealSector_reread]
          split <;> rfl
      · exact sealSector_reread ..
    · exact sealSector_reread ..

/-! ### A suspect sector -/

theorem markSuspect_reread (i : Nat) : markSuspect i (p.reread m n g) = (markSuspect i p).reread m n g := by
  have sector : (p.reread m n g).sector i = p.sector i := rfl
  unfold markSuspect
  dsimp only
  rw [sector]
  split
  · rfl
  · exact raise_reread m n g (modSector i (fun s => { s with suspect := true }) (setCond .media p)) ..

theorem extentOpen_reread (i : Nat) : extentOpen i (p.reread m n g) = extentOpen i p := by
  have sector : (p.reread m n g).sector i = p.sector i := rfl
  unfold extentOpen
  rw [sector]
  split
  · rename_i c _
    cases c <;> rfl
  · rw [reread_step]
    cases p.rcu.step <;> rfl
  · rfl

theorem settleSuspect_reread (i : Nat) (st : SectorState) :
    settleSuspect i st (p.reread m n g) = (settleSuspect i st p).reread m n g := by
  unfold settleSuspect
  split
  · exact sealSector_reread ..
  · exact sealSector_reread ..
  · rw [extentOpen_reread, sealSector_reread]
    split <;> rfl
  all_goals exact judgeSector_reread ..

theorem makeSuspect_reread (i : Nat) (o : Option Holder) : makeSuspect i o (p.reread m n g) = (makeSuspect i o p).reread m n g := by
  have sector : (p.reread m n g).sector i = p.sector i := rfl
  unfold makeSuspect
  rw [sector, markSuspect_reread]
  split
  · exact sealSector_reread m n g (modSector i (fun s => { s with nextWrite := Config.sectorSize }) (markSuspect i p)) i
  · exact settleSuspect_reread ..

/-! ### The runner's take -/

theorem reportFree_reread (z : Nat) : reportFree z (p.reread m n g) = (reportFree z p).reread m n g := by
  have zone : (p.reread m n g).zone z = p.zone z := rfl
  have mounted : (p.reread m n g).mounted = p.mounted := rfl
  have free : countState z .free (p.reread m n g) = countState z .free p := rfl
  have nothing : nothingToErase z (p.reread m n g) = nothingToErase z p := rfl
  unfold reportFree
  rw [zone, mounted, free, nothing]
  split
  · split <;> rfl
  · rfl

/-- The part at which the runner has taken FREE sector `i`. -/
def runnerOwns (z i : Nat) (q : Part) : Part :=
  reportFree z { (modSector i (fun s => { s with state := .owned, owner := some .runner }) q) with rcu := { q.rcu with owned := some i } }

theorem takeForRunner_eq (z : Nat) (p : Part) : takeForRunner z p =
    match p.zone z, lowestFree z p with
    | some r, some i =>
      if reserved z p + 2 ≤ available z p then (some i, runnerOwns z i p)
      else if !r.spareInUse then (some i, runnerOwns z i (modZone z (fun r => { r with spareInUse := true }) p))
      else (none, p)
    | _, _ => (none, p) := rfl

theorem runnerOwns_reread (z i : Nat) : runnerOwns z i (p.reread m n g) = (runnerOwns z i p).reread m n g :=
  reportFree_reread m n g { (modSector i (fun s => { s with state := .owned, owner := some .runner }) p) with
    rcu := { p.rcu with owned := some i } } z

theorem takeForRunner_reread (z : Nat) : takeForRunner z (p.reread m n g) =
    ((takeForRunner z p).1, (takeForRunner z p).2.reread m n g) := by
  have zone : (p.reread m n g).zone z = p.zone z := rfl
  have free : lowestFree z (p.reread m n g) = lowestFree z p := rfl
  have reserve : reserved z (p.reread m n g) = reserved z p := rfl
  have avail : available z (p.reread m n g) = available z p := rfl
  rw [takeForRunner_eq, takeForRunner_eq, zone, free]
  split
  · rename_i r i _ _
    rw [reserve, avail, runnerOwns_reread]
    split
    · rfl
    · split
      · exact congrArg (Prod.mk (some i)) (runnerOwns_reread m n g (modZone z (fun r => { r with spareInUse := true }) p) z i)
      · rfl
  · rfl

end

end Sys2Proof.Machine
end

