-- ==== Sys2Proof/Proofs/ContextOutcomes.lean ====
section
/-! SUPPORT. The outcomes of a write context's operations (R89 to R91, R93, R95, R97, R99). -/
namespace Sys2Proof.Machine

variable {p q : Part} {c : CtxId}

/-! ### Sectors -/

/-- Whether a sector is judged empty is kept by the operations of the Sector Map. -/
theorem MapStep.emptied (h : MapStep p q) (i : Nat) : q.emptied i ↔ p.emptied i := by
  obtain ⟨-, -, live, pending, retiring⟩ := h.counts i
  unfold Part.emptied
  rw [live, pending, retiring, h.step]

theorem MapStep.sealedState (h : MapStep p q) {i : Nat} {st : SectorState} (s : SealedState p i st) : SealedState q i st := by
  unfold SealedState at s ⊢
  rw [h.emptied]
  exact s

theorem addPending_sector {i : Nat} (hi : i < p.smp.sectors.length) (n : Nat) :
    (addPending i n p).sector i = { p.sector i with pending := (p.sector i).pending + n } := sector_modSector_self hi _

/-- Judging a sector changes at most its state. -/
theorem judgeSector_state (i : Nat) (p : Part) (j : Nat) :
    ∃ st, (judgeSector i p).sector j = { p.sector j with state := st } := by
  rw [judgeSector_sector]
  split
  · rename_i h
    rw [h.1]
    exact ⟨_, rfl⟩
  · exact ⟨_, rfl⟩

/-- R50: releasing pending bytes changes those and at most the state. -/
theorem subPending_sector (i n : Nat) (p : Part) (j : Nat) : ∃ st, (subPending i n p).sector j =
    { p.sector j with state := st, pending := if j = i then (p.sector j).pending - n else (p.sector j).pending } := by
  obtain ⟨st, e⟩ := judgeSector_state i (modSector i (fun s => { s with pending := s.pending - n }) p) j
  refine ⟨st, e.trans ?_⟩
  by_cases hj : j = i
  · subst hj
    rw [if_pos rfl]
    by_cases inside : j < p.smp.sectors.length
    · rw [sector_modSector_self inside]
    · rw [sector_modSector, if_neg fun h => inside h.2, sector_of_length_le (Nat.le_of_not_lt inside)]
      show _ = { Sector.cold with state := st, pending := 0 - n }
      rw [Nat.zero_sub]
      rfl
  · rw [if_neg hj, sector_modSector_other fun h => hj h.symm]

theorem subPending_ctx (i n : Nat) (p : Part) (d : CtxId) : (subPending i n p).ctx d = p.ctx d := ctx_of_wcu (judgeSector_wcu ..) d

theorem makeSuspect_suspect_any {i : Nat} (hi : i < p.smp.sectors.length) (o : Option Holder) :
    ((makeSuspect i o p).sector i).suspect = true := by
  have marked : ((markSuspect i p).sector i).suspect = true := by rw [markSuspect_sector hi, if_pos rfl]
  unfold makeSuspect
  split
  · exact (sealFailed_mapStep (MapStep.refl _) i).suspect i marked
  · exact (settleSuspect_mapStep (MapStep.refl _) i _).suspect i marked

/-- R44: the owner whose failure makes its sector suspect loses it, sealed at its end. -/
theorem makeSuspect_loses {i : Nat} (hi : i < p.smp.sectors.length) {o : Holder} (owner : (p.sector i).owner = some o) :
    ((makeSuspect i (some o) p).sector i).nextWrite = 4096 ∧ ((makeSuspect i (some o) p).sector i).owner = none := by
  have inside : i < (markSuspect i p).smp.sectors.length := by rw [markSuspect_length]; exact hi
  have own : ((some o : Option Holder).isSome && (p.sector i).owner == some o) = true := by simp [owner]
  have failed : makeSuspect i (some o) p = sealFailed i (markSuspect i p) := if_pos own
  rw [failed]
  unfold sealFailed
  rw [sealSector_sector (by rw [modSector_length]; exact inside), if_pos rfl]
  exact ⟨by rw [sector_modSector_self inside], rfl⟩

/-! ### A failed operation -/

theorem noteCtx_ctx (n : Note) (p : Part) : (noteCtx c n p).ctx c = { p.ctx c with notes := (p.ctx c).notes ||| n.bit } := modCtx_ctx ..

theorem failedIn_mapStep (c : CtxId) (i : Nat) (p : Part) : MapStep (noteCtx c .mediaEvent p) (failedIn c i p) :=
  makeSuspect_mapStep (.refl _) i _

theorem failedIn_ctx (c : CtxId) (i : Nat) (p : Part) : ∃ o, (failedIn c i p).ctx c =
    { p.ctx c with owned := o, notes := (p.ctx c).notes ||| 0x08 } := by
  have h := (failedIn_mapStep c i p).ctx c
  rw [noteCtx_ctx] at h
  exact ⟨_, h⟩

theorem failedIn_claimRuns (c : CtxId) (i : Nat) (idle : p.pee.op = none) : claimRuns (.ctx c) (failedIn c i p) = false := by
  have op : (failedIn c i p).pee.op = none := by rw [(failedIn_mapStep c i p).op, noteCtx, modCtx_pee]; exact idle
  unfold claimRuns
  rw [op]

theorem noteCtx_sector (n : Note) (p : Part) (i : Nat) : (noteCtx c n p).sector i = p.sector i := modCtx_sector ..

theorem noteCtx_smp (c : CtxId) (n : Note) (p : Part) : (noteCtx c n p).smp = p.smp := modCtx_smp ..

theorem failedIn_sector {i : Nat} (hi : i < p.smp.sectors.length) : ((failedIn c i p).sector i).suspect = true ∧
    ((p.sector i).owner = some (.ctx c) →
      ((failedIn c i p).sector i).nextWrite = 4096 ∧ ((failedIn c i p).sector i).owner = none) := by
  have inside : i < (noteCtx c .mediaEvent p).smp.sectors.length := by rw [noteCtx_smp]; exact hi
  exact ⟨makeSuspect_suspect_any inside _, fun owner => makeSuspect_loses inside (by rw [noteCtx_sector]; exact owner)⟩

/-! ### What the engine hands a context -/

section
variable (i o : Nat) (bs : List Byte)

theorem ctxFirst_ended (h : (p.ctx c).ending = none) (ok : Bool) : writeEnded (.ctxFirst c) i o { ok := ok, good := bs } p =
    if ok then firstDone c i o p else programFailure c i [] p := by
  show ctxOpDone ..  = _
  unfold ctxOpDone
  rw [h]

theorem ctxData_ended (h : (p.ctx c).ending = none) (ok : Bool) : writeEnded (.ctxData c) i o { ok := ok, good := bs } p =
    if ok then dataDone c bs p else programFailure c i bs p := by
  show ctxOpDone ..  = _
  unfold ctxOpDone
  rw [h]

theorem ctxClose_ended (h : (p.ctx c).ending = none) (ok : Bool) : writeEnded (.ctxClose c) i o { ok := ok, good := bs } p =
    if ok then closeDone c p else closeFailure c i p := by
  show ctxOpDone ..  = _
  unfold ctxOpDone
  rw [h]

/-- R97: the operation of an ending context. -/
theorem ctxOp_ending {u : Purpose} (hu : u = .ctxFirst c ∨ u = .ctxData c ∨ u = .ctxClose c) {e : EndCause}
    (h : (p.ctx c).ending = some e) (ok : Bool) :
    writeEnded u i o { ok := ok, good := bs } p = endingDone c e u i o ok bs.length p := by
  have op : writeEnded u i o { ok := ok, good := bs } p = ctxOpDone c u i o { ok := ok, good := bs } p := by
    rcases hu with rfl | rfl | rfl <;> rfl
  rw [op]
  unfold ctxOpDone
  rw [h]

end

/-! ### A first stage -/

/-- R89: a first stage on the array is the context's current extent, with 32 bytes pending. -/
theorem firstDone_chooses (c : CtxId) (i o : Nat) (p : Part) : ∃ q, firstDone c i o p = chooseStep c q ∧
    (let x : CurExtent := { index := (p.ctx c).written.length, sector := i, offset := o, data := 0, crc := 0xFFFFFFFF#32, mustClose := false }
     q.ctx c = { p.ctx c with current := some x }) ∧
    (i < p.smp.sectors.length → q.sector i = { p.sector i with pending := (p.sector i).pending + 32 }) := by
  refine ⟨_, rfl, modCtx_ctx .., fun hi => ?_⟩
  rw [addPending_sector (by rw [modCtx_smp]; exact hi), modCtx_sector]

/-! ### A data program -/

theorem WriteCtx.setBuf_self (k : WriteCtx) (b : BufId) (f : Buffer → Buffer) : (k.setBuf b f).buf b = f (k.buf b) := by
  cases b <;> rfl

theorem WriteCtx.setBuf_drainNext (k : WriteCtx) (b : BufId) (f : Buffer → Buffer) : (k.setBuf b f).drainNext = k.drainNext := by
  cases b <;> rfl

/-- R90, R99: the record of a context with the leading bytes of its earlier buffer down in extent `x`. -/
def WriteCtx.landed (k : WriteCtx) (x : CurExtent) (bs : List Byte) : WriteCtx :=
  { (k.setBuf k.drainNext (fun b => { b with done := b.done + bs.length })) with
      current := some { x with data := x.data + bs.length, crc := crc32Run x.crc bs }
      programmed := k.programmed + bs.length }

theorem dataLanded_ctx (c : CtxId) (x : CurExtent) (bs : List Byte) (p : Part) :
    (dataLanded c x bs p).ctx c = (p.ctx c).landed x bs := modCtx_ctx ..

theorem dataLanded_sector (c : CtxId) (x : CurExtent) (bs : List Byte) (p : Part) (i : Nat) : (dataLanded c x bs p).sector i =
    if x.sector = i ∧ i < p.smp.sectors.length then { p.sector i with pending := (p.sector i).pending + bs.length } else p.sector i := by
  unfold dataLanded addPending
  dsimp only
  rw [sector_modSector, modCtx_smp, modCtx_sector]

theorem WriteCtx.landed_buf (k : WriteCtx) (x : CurExtent) (bs : List Byte) : (k.landed x bs).drainNext = k.drainNext ∧
    (k.landed x bs).buf k.drainNext = { k.buf k.drainNext with done := (k.buf k.drainNext).done + bs.length } :=
  ⟨k.setBuf_drainNext .., (k.setBuf k.drainNext _).setBuf_self k.drainNext id |>.symm.trans (by
    cases k.drainNext <;> rfl)⟩

theorem WriteCtx.landed_kept (k : WriteCtx) (x : CurExtent) (bs : List Byte) :
    (k.landed x bs).state = k.state ∧ (k.landed x bs).total = k.total ∧ (k.landed x bs).failures = k.failures ∧
      (k.landed x bs).notes = k.notes := by
  unfold WriteCtx.landed WriteCtx.setBuf
  cases k.drainNext <;> exact ⟨rfl, rfl, rfl, rfl⟩

/-- R84: what the freeing of an emptied buffer leaves, and when the alternation moves on. -/
theorem freeBuffer_spec (k : WriteCtx) : (freeBuffer k).current = k.current ∧ (freeBuffer k).programmed = k.programmed ∧
    (freeBuffer k).state = k.state ∧ (freeBuffer k).total = k.total ∧
    ((k.buf k.drainNext).done = (k.buf k.drainNext).bytes.length →
      (freeBuffer k).buf k.drainNext = Buffer.cold ∧ (freeBuffer k).drainNext = k.drainNext.other) ∧
    ((k.buf k.drainNext).done ≠ (k.buf k.drainNext).bytes.length → freeBuffer k = k) := by
  unfold freeBuffer
  dsimp only
  split
  · rename_i full
    refine ⟨?_, ?_, ?_, ?_, fun _ => ⟨?_, rfl⟩, fun h => absurd full h⟩
    all_goals cases k.drainNext <;> rfl
  · rename_i part
    exact ⟨rfl, rfl, rfl, rfl, fun h => absurd h part, fun _ => rfl⟩

/-- R90, R93: the record of a context at the success of a data program. -/
def WriteCtx.programmedIn (k : WriteCtx) (x : CurExtent) (bs : List Byte) : WriteCtx :=
  let f := freeBuffer (k.landed x bs)
  if f.programmed = f.total then { f with state := .closing } else f

theorem WriteCtx.programmedIn_eq (k : WriteCtx) (x : CurExtent) (bs : List Byte) : k.programmedIn x bs =
    { freeBuffer (k.landed x bs) with state := if k.programmed + bs.length = k.total then .closing else k.state } := by
  obtain ⟨-, programmed, state, total, -, -⟩ := freeBuffer_spec (k.landed x bs)
  obtain ⟨state', total', -, -⟩ := k.landed_kept x bs
  have down : (freeBuffer (k.landed x bs)).programmed = k.programmed + bs.length := programmed
  have of : (freeBuffer (k.landed x bs)).total = k.total := total.trans total'
  have stays : (freeBuffer (k.landed x bs)).state = k.state := state.trans state'
  unfold WriteCtx.programmedIn
  generalize freeBuffer (k.landed x bs) = f at down of stays
  rw [← down, ← of, ← stays]
  dsimp only
  split <;> rfl

theorem dataDone_chooses {x : CurExtent} (hx : (p.ctx c).current = some x) (bs : List Byte) : ∃ q, dataDone c bs p = chooseStep c q ∧
    q.ctx c = (p.ctx c).programmedIn x bs ∧
    (x.sector < p.smp.sectors.length →
      q.sector x.sector = { p.sector x.sector with pending := (p.sector x.sector).pending + bs.length }) := by
  have free : (modCtx c freeBuffer (dataLanded c x bs p)).ctx c = freeBuffer ((p.ctx c).landed x bs) := by
    rw [modCtx_ctx, dataLanded_ctx]
  unfold dataDone
  rw [hx]
  dsimp only
  refine ⟨_, rfl, ?_, fun hi => ?_⟩
  · unfold WriteCtx.programmedIn
    dsimp only
    rw [free]
    split
    · rw [modCtx_ctx, free]
    · exact free
  · have sector : (modCtx c freeBuffer (dataLanded c x bs p)).sector x.sector =
        { p.sector x.sector with pending := (p.sector x.sector).pending + bs.length } := by
      rw [modCtx_sector, dataLanded_sector, if_pos ⟨rfl, hi⟩]
    split
    · rw [modCtx_sector]; exact sector
    · exact sector

/-- R84, R90, R93: the fields of that record. -/
theorem WriteCtx.programmedIn_fields (k : WriteCtx) (x : CurExtent) (bs : List Byte) :
    let b := k.buf k.drainNext
    (k.programmedIn x bs).current = some { x with data := x.data + bs.length, crc := crc32Run x.crc bs } ∧
    (k.programmedIn x bs).programmed = k.programmed + bs.length ∧
    (k.programmedIn x bs).state = (if k.programmed + bs.length = k.total then .closing else k.state) ∧
    (b.done + bs.length = b.bytes.length →
      (k.programmedIn x bs).buf k.drainNext = Buffer.cold ∧ (k.programmedIn x bs).drainNext = k.drainNext.other) ∧
    (b.done + bs.length ≠ b.bytes.length →
      (k.programmedIn x bs).buf k.drainNext = { b with done := b.done + bs.length } ∧
        (k.programmedIn x bs).drainNext = k.drainNext) := by
  intro b
  obtain ⟨current, programmed, -, -, full, part⟩ := freeBuffer_spec (k.landed x bs)
  obtain ⟨drain, buf⟩ := k.landed_buf x bs
  have buffers (st : CtxState) (f : WriteCtx) (d : BufId) : ({ f with state := st } : WriteCtx).buf d = f.buf d := by cases d <;> rfl
  rw [drain, buf] at full part
  rw [k.programmedIn_eq]
  refine ⟨current, programmed, rfl, fun h => ?_, fun h => ?_⟩
  · rw [buffers]
    exact full h
  · rw [buffers, part h]
    exact ⟨buf, drain⟩

/-! ### A close -/

/-- R13, R44, R91: what a successful close leaves of the sector of its extent. -/
theorem closed_sector {i : Nat} (hi : i < p.smp.sectors.length) (o n : Nat) :
    let s := p.sector i
    let next := o + roundUp4 (32 + n)
    let q := sealIfFull i (advanceNextWrite i o n p)
    let t := q.sector i
    t.pending = s.pending ∧
    (s.state ≠ .owned → t.nextWrite = s.nextWrite ∧ t.state = s.state) ∧
    (s.state = .owned → t.nextWrite = next ∧
      (64 ≤ 4096 - next → s.suspect = false → t.state = .owned ∧ t.owner = s.owner) ∧
      (4096 - next < 64 ∨ s.suspect = true → SealedState q i t.state ∧ t.owner = none)) := by
  intro s next
  by_cases owned : s.state = .owned
  · have moved : advanceNextWrite i o n p = modSector i (fun s => { s with nextWrite := next }) p := if_pos owned
    rw [moved]
    generalize hm : modSector i (fun s => { s with nextWrite := next }) p = m
    have inside : i < m.smp.sectors.length := by rw [← hm, modSector_length]; exact hi
    have sector : m.sector i = { s with nextWrite := next } := by rw [← hm]; exact sector_modSector_self hi _
    have room : (m.sector i).room = 4096 - next := by rw [sector]; rfl
    have suspect : (m.sector i).suspect = s.suspect := by rw [sector]
    by_cases full : 4096 - next < 64 ∨ s.suspect = true
    · have sealed : sealIfFull i m = sealSector i m := by
        refine if_pos ⟨by rw [sector]; exact owned, ?_⟩
        rw [room, suspect]
        exact full
      rw [sealed]
      obtain ⟨owner, state, self⟩ := sealSector_self inside
      refine ⟨by rw [self, sector], fun h => absurd owned h, fun _ => ⟨by rw [self, sector], fun big sound => ?_, fun _ =>
        ⟨(sealSector_mapStep (.refl m) i).sealedState state, owner⟩⟩⟩
      rcases full with h | h
      · exact absurd big (Nat.not_le.2 h)
      · rw [sound] at h; cases h
    · have kept : sealIfFull i m = m := by
        refine if_neg fun h => full ?_
        rw [room, suspect] at h
        exact h.2
      rw [kept]
      dsimp only
      rw [sector]
      exact ⟨rfl, fun h => absurd owned h, fun _ => ⟨rfl, fun _ _ => ⟨owned, rfl⟩, fun h => absurd h full⟩⟩
  · have still : advanceNextWrite i o n p = p := if_neg owned
    have kept : sealIfFull i p = p := if_neg fun h => owned h.1
    rw [still, kept]
    exact ⟨rfl, fun _ => ⟨rfl, rfl⟩, fun h => absurd h owned⟩

theorem closed_mapStep (i o n : Nat) (p : Part) : MapStep p (sealIfFull i (advanceNextWrite i o n p)) := by
  have moved : MapStep p (advanceNextWrite i o n p) := by
    unfold advanceNextWrite
    split
    · exact modSector_mapStep (.refl p) i _ fun _ => ⟨rfl, rfl, rfl, rfl, rfl, id⟩
    · exact .refl p
  unfold sealIfFull
  split
  · exact sealSector_mapStep moved i
  · exact moved

/-- R91: at a successful close the extent is written, and the context chooses again. -/
theorem closeDone_chooses {x : CurExtent} (hx : (p.ctx c).current = some x) : ∃ q, closeDone c p = chooseStep c q ∧
    (q.ctx c).current = none ∧
    (q.ctx c).written = (p.ctx c).written ++ [{ sector := x.sector, offset := x.offset, length := x.data }] ∧
    (x.sector < p.smp.sectors.length →
      let s := p.sector x.sector
      let next := x.offset + roundUp4 (32 + x.data)
      let t := q.sector x.sector
      t.pending = s.pending + padding x.data ∧
      (s.state ≠ .owned → t.nextWrite = s.nextWrite ∧ t.state = s.state) ∧
      (s.state = .owned → t.nextWrite = next ∧
        (64 ≤ 4096 - next → s.suspect = false → t.state = .owned ∧ t.owner = s.owner) ∧
        (4096 - next < 64 ∨ s.suspect = true → SealedState q x.sector t.state ∧ t.owner = none))) := by
  unfold closeDone
  rw [hx]
  dsimp only
  generalize hm : addPending x.sector (padding x.data) (modCtx c (fun k => { k with
    current := none, written := k.written ++ [{ sector := x.sector, offset := x.offset, length := x.data }] }) p) = m
  have ctx : m.ctx c = { p.ctx c with current := none, written := (p.ctx c).written ++
      [{ sector := x.sector, offset := x.offset, length := x.data }] } := by rw [← hm]; exact modCtx_ctx ..
  have after := (closed_mapStep x.sector x.offset x.data m).ctx c
  rw [ctx] at after
  refine ⟨_, rfl, by rw [after], by rw [after], fun hi => ?_⟩
  have inside : x.sector < m.smp.sectors.length := by
    rw [← hm]; show _ < (modSector ..).smp.sectors.length; rw [modSector_length, modCtx_smp]; exact hi
  have sector : m.sector x.sector = { p.sector x.sector with pending := (p.sector x.sector).pending + padding x.data } := by
    rw [← hm, addPending_sector (by rw [modCtx_smp]; exact hi), modCtx_sector]
  have spec := closed_sector inside x.offset x.data
  rw [sector] at spec
  exact spec

/-! ### A failed program -/

/-- R99: the third failure ends the context. -/
theorem programFailure_ends {i : Nat} (bs : List Byte) (idle : p.pee.op = none) (third : 2 ≤ (p.ctx c).failures) :
    EndedWith c .mediaFault (failedIn c i p) (programFailure c i bs p) := by
  obtain ⟨o, ctx⟩ := failedIn_ctx c i p
  have failures : 2 ≤ ((failedIn c i p).ctx c).failures := by rw [ctx]; exact third
  have ends : programFailure c i bs p = endCtx c .mediaFault (failedIn c i p) := if_pos failures
  rw [ends]
  exact endCtx_ended (failedIn_claimRuns c i idle)

/-- R91, R95: so does a failed close. -/
theorem closeFailure_ends {i : Nat} (idle : p.pee.op = none) : EndedWith c .mediaFault (failedIn c i p) (closeFailure c i p) :=
  endCtx_ended (failedIn_claimRuns c i idle)

/-- R99: the part at which an earlier failure is counted. -/
def countedFailure (c : CtxId) (i : Nat) (p : Part) : Part := modCtx c (fun k => { k with failures := k.failures + 1 }) (failedIn c i p)

theorem countedFailure_ctx (c : CtxId) (i : Nat) (p : Part) : ∃ o, (countedFailure c i p).ctx c =
    { p.ctx c with owned := o, failures := (p.ctx c).failures + 1, notes := (p.ctx c).notes ||| 0x08 } := by
  obtain ⟨o, ctx⟩ := failedIn_ctx c i p
  refine ⟨o, ?_⟩
  unfold countedFailure
  rw [modCtx_ctx, ctx]

theorem countedFailure_length (c : CtxId) (i : Nat) (p : Part) : (countedFailure c i p).smp.sectors.length = p.smp.sectors.length := by
  unfold countedFailure
  rw [modCtx_smp, (failedIn_mapStep c i p).length, noteCtx_smp]

theorem countedFailure_sector (c : CtxId) (i : Nat) (p : Part) (j : Nat) : (countedFailure c i p).sector j = (failedIn c i p).sector j :=
  modCtx_sector ..

theorem countedFailure_pending (c : CtxId) (i : Nat) (p : Part) (j : Nat) :
    ((countedFailure c i p).sector j).pending = (p.sector j).pending := by
  obtain ⟨-, -, -, pending, -⟩ := (failedIn_mapStep c i p).counts j
  rw [countedFailure_sector, pending, noteCtx_sector]

/-- R99: the part at which the current extent, with the verified bytes of the failed program, is settled. -/
def settledFailure (c : CtxId) (i : Nat) (bs : List Byte) (p : Part) : Part :=
  match (p.ctx c).current with
  | some x => settleExtent c (dataLanded c x bs (countedFailure c i p))
  | none => countedFailure c i p

theorem programFailure_retries {i : Nat} (bs : List Byte) (few : (p.ctx c).failures < 2) :
    programFailure c i bs p = chooseStep c (noteCtx c .retried (settledFailure c i bs p)) := by
  obtain ⟨o, ctx⟩ := failedIn_ctx c i p
  obtain ⟨o', ctx'⟩ := countedFailure_ctx c i p
  have failures : ¬ 2 ≤ ((failedIn c i p).ctx c).failures := by rw [ctx]; exact Nat.not_le.2 few
  have current : ((countedFailure c i p).ctx c).current = (p.ctx c).current := by rw [ctx']
  have retries : programFailure c i bs p = chooseStep c (noteCtx c .retried (match ((countedFailure c i p).ctx c).current with
      | some x => settleExtent c (dataLanded c x bs (countedFailure c i p))
      | none => countedFailure c i p)) := if_neg failures
  rw [retries, current]
  rfl

/-- R99: what settling leaves of a sector: all but its pending bytes and its state. -/
theorem settleExtent_sector (c : CtxId) (p : Part) (j : Nat) : ((settleExtent c p).sector j).suspect = (p.sector j).suspect ∧
    ((settleExtent c p).sector j).nextWrite = (p.sector j).nextWrite ∧ ((settleExtent c p).sector j).owner = (p.sector j).owner := by
  unfold settleExtent
  split
  · split
    · rename_i x _ _
      obtain ⟨st, e⟩ := subPending_sector x.sector 32 (modCtx c (fun k => { k with current := none }) p) j
      rw [e, modCtx_sector]
      exact ⟨rfl, rfl, rfl⟩
    · rw [modCtx_sector]
      exact ⟨rfl, rfl, rfl⟩
  · exact ⟨rfl, rfl, rfl⟩

theorem dataLanded_kept (c : CtxId) (x : CurExtent) (bs : List Byte) (p : Part) (j : Nat) :
    ((dataLanded c x bs p).sector j).suspect = (p.sector j).suspect ∧
    ((dataLanded c x bs p).sector j).nextWrite = (p.sector j).nextWrite ∧ ((dataLanded c x bs p).sector j).owner = (p.sector j).owner := by
  rw [dataLanded_sector]
  split <;> exact ⟨rfl, rfl, rfl⟩

theorem settledFailure_sector (c : CtxId) (i : Nat) (bs : List Byte) (p : Part) (j : Nat) :
    ((settledFailure c i bs p).sector j).suspect = ((failedIn c i p).sector j).suspect ∧
    ((settledFailure c i bs p).sector j).nextWrite = ((failedIn c i p).sector j).nextWrite ∧
    ((settledFailure c i bs p).sector j).owner = ((failedIn c i p).sector j).owner := by
  rw [← countedFailure_sector]
  unfold settledFailure
  split
  · rename_i x _
    obtain ⟨a, b, d⟩ := settleExtent_sector c (dataLanded c x bs (countedFailure c i p)) j
    obtain ⟨a', b', d'⟩ := dataLanded_kept c x bs (countedFailure c i p) j
    exact ⟨a.trans a', b.trans b', d.trans d'⟩
  · exact ⟨rfl, rfl, rfl⟩

/-- R99: an extent with no data is dropped, and its 32 bytes are released. -/
theorem settleExtent_drops {x : CurExtent} (hx : (p.ctx c).current = some x) (none_ : x.data = 0) :
    settleExtent c p = subPending x.sector 32 (modCtx c (fun k => { k with current := none }) p) := by
  unfold settleExtent
  rw [hx]
  exact if_pos none_

/-- R99: any other must be closed. -/
theorem settleExtent_keeps {x : CurExtent} (hx : (p.ctx c).current = some x) (some_ : 0 < x.data) :
    settleExtent c p = modCtx c (fun k => { k with current := some { x with mustClose := true } }) p := by
  unfold settleExtent
  rw [hx]
  exact if_neg some_.ne'

/-- R99: the current extent after a failed data program. -/
theorem settledFailure_current {i : Nat} {x : CurExtent} (bs : List Byte) (hx : (p.ctx c).current = some x) :
    let q := settledFailure c i bs p
    (q.ctx c).failures = (p.ctx c).failures + 1 ∧ (q.ctx c).notes = (p.ctx c).notes ||| 0x08 ∧
    (q.ctx c).programmed = (p.ctx c).programmed + bs.length ∧
    (x.data + bs.length = 0 → (q.ctx c).current = none ∧ (q.sector x.sector).pending = (p.sector x.sector).pending - 32) ∧
    (0 < x.data + bs.length →
      (q.ctx c).current = some { x with data := x.data + bs.length, crc := crc32Run x.crc bs, mustClose := true } ∧
      (x.sector < p.smp.sectors.length → (q.sector x.sector).pending = (p.sector x.sector).pending + bs.length)) := by
  intro q
  have settled : q = settleExtent c (dataLanded c x bs (countedFailure c i p)) := by
    show settledFailure .. = _
    unfold settledFailure
    rw [hx]
  obtain ⟨o, counted⟩ := countedFailure_ctx c i p
  have landed := dataLanded_ctx c x bs (countedFailure c i p)
  have pending := countedFailure_pending c i p x.sector
  have current : ((dataLanded c x bs (countedFailure c i p)).ctx c).current =
      some { x with data := x.data + bs.length, crc := crc32Run x.crc bs } := by rw [landed]; rfl
  obtain ⟨-, -, failures, notes⟩ := ((countedFailure c i p).ctx c).landed_kept x bs
  have programmed : (((countedFailure c i p).ctx c).landed x bs).programmed = (p.ctx c).programmed + bs.length := by
    rw [counted]; rfl
  have failures' : (((countedFailure c i p).ctx c).landed x bs).failures = (p.ctx c).failures + 1 := by rw [failures, counted]
  have notes' : (((countedFailure c i p).ctx c).landed x bs).notes = (p.ctx c).notes ||| 0x08 := by rw [notes, counted]
  rw [settled]
  by_cases none_ : x.data + bs.length = 0
  · rw [settleExtent_drops current none_]
    obtain ⟨st, sector⟩ := subPending_sector x.sector 32 (modCtx c (fun k => { k with current := none })
      (dataLanded c x bs (countedFailure c i p))) x.sector
    have empty : bs.length = 0 := Nat.eq_zero_of_add_eq_zero_left none_
    have sector' : ((dataLanded c x bs (countedFailure c i p)).sector x.sector).pending = (p.sector x.sector).pending := by
      rw [dataLanded_sector, empty, ← pending]
      split <;> rfl
    rw [subPending_ctx, modCtx_ctx, landed]
    refine ⟨failures', notes', programmed, fun _ => ⟨rfl, ?_⟩, fun h => absurd none_ h.ne'⟩
    rw [sector, if_pos rfl, modCtx_sector, sector']
  · rw [settleExtent_keeps current (Nat.pos_of_ne_zero none_), modCtx_ctx, landed]
    refine ⟨failures', notes', programmed, fun h => absurd h none_, fun _ => ⟨rfl, fun hi => ?_⟩⟩
    rw [modCtx_sector, dataLanded_sector, if_pos ⟨rfl, by rw [countedFailure_length]; exact hi⟩, ← pending]

/-- R99: a failed program that is not the third is counted, and the context goes on. -/
theorem programFailure_spec {i : Nat} {bs : List Byte} (few : (p.ctx c).failures < 2) :
    ∃ q, programFailure c i bs p = chooseStep c q ∧ (q.ctx c).failures = (p.ctx c).failures + 1 ∧
      (q.ctx c).notes = (p.ctx c).notes ||| 0x08 ||| 0x04 ∧
      (i < p.smp.sectors.length → (q.sector i).suspect = true ∧
        ((p.sector i).owner = some (.ctx c) → (q.sector i).nextWrite = 4096 ∧ (q.sector i).owner = none)) ∧
      ((p.ctx c).current = none → (q.ctx c).current = none ∧ (q.ctx c).programmed = (p.ctx c).programmed) ∧
      (∀ x, (p.ctx c).current = some x → (q.ctx c).programmed = (p.ctx c).programmed + bs.length ∧
        (x.data + bs.length = 0 → (q.ctx c).current = none ∧
          (q.sector x.sector).pending = (p.sector x.sector).pending - 32) ∧
        (0 < x.data + bs.length →
          (q.ctx c).current = some { x with data := x.data + bs.length, crc := crc32Run x.crc bs, mustClose := true } ∧
          (x.sector < p.smp.sectors.length →
            (q.sector x.sector).pending = (p.sector x.sector).pending + bs.length))) := by
  refine ⟨_, programFailure_retries bs few, ?_⟩
  have noted := noteCtx_ctx (c := c) .retried (settledFailure c i bs p)
  have sectors (j : Nat) := noteCtx_sector (c := c) .retried (settledFailure c i bs p) j
  rw [noted]
  simp only [sectors]
  have fields : ((settledFailure c i bs p).ctx c).failures = (p.ctx c).failures + 1 ∧
      ((settledFailure c i bs p).ctx c).notes = (p.ctx c).notes ||| 0x08 := by
    cases hx : (p.ctx c).current with
    | none =>
      obtain ⟨o, counted⟩ := countedFailure_ctx c i p
      unfold settledFailure
      rw [hx]
      dsimp only
      rw [counted]
      exact ⟨rfl, rfl⟩
    | some x =>
      obtain ⟨failures, notes, -⟩ := settledFailure_current (i := i) bs hx
      exact ⟨failures, notes⟩
  refine ⟨fields.1, by rw [fields.2]; rfl, fun hi => ?_, fun none_ => ?_, fun x hx => ?_⟩
  · obtain ⟨suspect, nextWrite, owner⟩ := settledFailure_sector c i bs p i
    rw [suspect, nextWrite, owner]
    exact failedIn_sector hi
  · obtain ⟨o, counted⟩ := countedFailure_ctx c i p
    have same : settledFailure c i bs p = countedFailure c i p := by unfold settledFailure; rw [none_]
    rw [same, counted]
    exact ⟨none_, rfl⟩
  · obtain ⟨-, -, programmed, drops, keeps⟩ := settledFailure_current (i := i) bs hx
    exact ⟨programmed, drops, keeps⟩

/-! ### Under an ending cause -/

theorem finishEnd_suspect {st : Option Status} {i : Nat} (h : (p.sector i).suspect = true) :
    ((finishEnd c st p).sector i).suspect = true := by
  have stays := ((released_spec c p).stays i).2.2 h
  rw [finishEnd_released]
  cases st with
  | none => rw [modCtx_sector]; exact stays
  | some s => show ((modCtx ..).sector i).suspect = true; rw [modCtx_sector]; exact stays

theorem finishCause_suspect {e : EndCause} {i : Nat} (h : (p.sector i).suspect = true) :
    ((finishCause c e p).sector i).suspect = true := by
  cases e <;> exact finishEnd_suspect h

/-- R97: a first stage of an ending context leaves the rest of its sector unused. -/
theorem endingFirst_ended (e : EndCause) (i o n : Nat) (p : Part) : EndedBy c e p (endingDone c e (.ctxFirst c) i o true n p) := by
  have ended := finishCause_ended c e (modSector i (fun s => { s with nextWrite := Config.sectorSize }) p)
  have kept := modSector_mapStep (.refl p) i (fun s => { s with nextWrite := Config.sectorSize })
    fun _ => ⟨rfl, rfl, rfl, rfl, rfl, id⟩
  refine EndedBy.of_same ended ⟨rfl, fun j => ?_, fun j => ?_, rfl, rfl, rfl, rfl, rfl, rfl⟩
  · obtain ⟨-, -, live, -, -⟩ := kept.counts j
    exact live
  · obtain ⟨-, -, -, pending, -⟩ := kept.counts j
    rw [pending]
    rfl

/-- R97: the extent that an ending context's close has ended is released. -/
def closedExtent (c : CtxId) (i o : Nat) (x : CurExtent) (p : Part) : Part :=
  modCtx c (fun k => { k with current := none }) (subPending x.sector (32 + x.data) (sealIfFull i (advanceNextWrite i o x.data p)))

theorem closedExtent_same {x : CurExtent} (hx : (p.ctx c).current = some x) (fresh : (p.ctx c).commit = .notReached) (i o : Nat) :
    SameEnd c (closedExtent c i o x p) p := by
  generalize hm : sealIfFull i (advanceNextWrite i o x.data p) = m
  have kept : MapStep p m := by rw [← hm]; exact closed_mapStep i o x.data p
  have closed : closedExtent c i o x p = modCtx c (fun k => { k with current := none }) (subPending x.sector (32 + x.data) m) := by
    rw [← hm]; rfl
  have judged : Spaced p (subPending x.sector (32 + x.data) m) :=
    judgeSector_spaced (modSector_spaced kept.spaced x.sector
      (fun s => { s with pending := s.pending - (32 + x.data) }) fun _ => ⟨rfl, rfl, id⟩) x.sector
  have ctx : (closedExtent c i o x p).ctx c = { p.ctx c with owned := (m.ctx c).owned, current := none } := by
    rw [closed, modCtx_ctx, subPending_ctx, kept.ctx c]
  have sector (j : Nat) : ∃ st, (closedExtent c i o x p).sector j = { m.sector j with
      state := st, pending := if j = x.sector then (m.sector j).pending - (32 + x.data) else (m.sector j).pending } := by
    rw [closed, modCtx_sector]
    exact subPending_sector ..
  refine ⟨?_, fun j => ?_, fun j => ?_, by rw [ctx], by rw [ctx], by rw [ctx], by rw [ctx], by rw [ctx], ?_⟩
  · rw [closed]
    unfold Part.mounted
    rw [modCtx_scu, judged.scu]
  · obtain ⟨st, e⟩ := sector j
    obtain ⟨-, -, live, -, -⟩ := kept.counts j
    rw [e]
    exact live
  · obtain ⟨st, e⟩ := sector j
    obtain ⟨-, -, -, pending, -⟩ := kept.counts j
    rw [e, ctx]
    unfold WriteCtx.pendingIn
    have open_ : ¬ CommitPhase.notReached = .switched := by decide
    rw [hx]
    dsimp only
    rw [fresh, if_neg open_, if_neg open_, pending]
    show _ - (spaceOf j (p.ctx c).elems + 0) = _
    by_cases hj : j = x.sector
    · rw [if_pos hj, if_pos hj.symm]; omega
    · rw [if_neg hj, if_neg fun h => hj h.symm]
  · rw [closed, modCtx_link, judged.replies]

theorem endingClose_ended (e : EndCause) (i o n : Nat) (fresh : (p.ctx c).commit = .notReached) :
    EndedBy c e p (endingDone c e (.ctxClose c) i o true n p) := by
  cases hx : (p.ctx c).current with
  | none =>
    have done : endingDone c e (.ctxClose c) i o true n p = finishCause c e p := by
      unfold endingDone endingLanded
      dsimp only
      rw [hx]
      rfl
    rw [done]
    exact finishCause_ended c e p
  | some x =>
    have done : endingDone c e (.ctxClose c) i o true n p = finishCause c e (closedExtent c i (o - closeOffset) x p) := by
      unfold endingDone endingLanded
      dsimp only
      rw [hx]
      rfl
    rw [done]
    exact (finishCause_ended c e _).of_same (closedExtent_same hx fresh i _)

/-- R90: the bytes of an ending context's data program are counted. -/
def landedBytes (c : CtxId) (n : Nat) (p : Part) : Part := modCtx c (fun k => { k with programmed := k.programmed + n }) p

theorem endingData_ended (e : EndCause) (i o n : Nat) (p : Part) :
    EndedBy c e (landedBytes c n p) (endingDone c e (.ctxData c) i o true n p) := by
  have landed : endingLanded c (.ctxData c) true n p = landedBytes c n p := by
    unfold endingLanded
    exact if_pos (Or.inl rfl)
  have done : endingDone c e (.ctxData c) i o true n p = finishCause c e (landedBytes c n p) := by
    unfold endingDone
    rw [landed]
    dsimp only
    cases ((landedBytes c n p).ctx c).current <;> rfl
  rw [done]
  exact finishCause_ended c e _

/-- R97, R99: an operation of an ending context that fails makes its sector suspect first. -/
theorem endingFails (e : EndCause) (u : Purpose) (i o n : Nat) (p : Part) :
    endingDone c e u i o false n p = finishCause c e (failedIn c i (endingLanded c u false n p)) := rfl

/-- R99: after a third failure the bytes are not counted. -/
theorem endingLanded_failed (n : Nat) (p : Part) :
    endingLanded c (.ctxData c) false n p = if (p.ctx c).failures < 2 then landedBytes c n p else p := by
  unfold endingLanded landedBytes
  simp only [Bool.false_eq_true, false_or]

theorem endingLanded_length (u : Purpose) (ok : Bool) (n : Nat) (p : Part) :
    (endingLanded c u ok n p).smp.sectors.length = p.smp.sectors.length := by
  unfold endingLanded
  split
  · split
    · rw [modCtx_smp]
    · rfl
  · rfl

theorem endingFails_ended (e : EndCause) (u : Purpose) (i o n : Nat) (p : Part) :
    EndedBy c e (failedIn c i (endingLanded c u false n p)) (endingDone c e u i o false n p) ∧
      (i < p.smp.sectors.length → ((endingDone c e u i o false n p).sector i).suspect = true) := by
  rw [endingFails]
  refine ⟨finishCause_ended c e _, fun hi => finishCause_suspect ?_⟩
  obtain ⟨suspect, -⟩ := failedIn_sector (c := c) (p := endingLanded c u false n p) (i := i) (by rw [endingLanded_length]; exact hi)
  exact suspect

theorem ctxOp_fails {u : Purpose} (i o : Nat) (bs : List Byte) (hu : u = .ctxFirst c ∨ u = .ctxData c ∨ u = .ctxClose c) {e : EndCause}
    (h : (p.ctx c).ending = some e) :
    let q := writeEnded u i o { ok := false, good := bs } p
    EndedBy c e (failedIn c i (endingLanded c u false bs.length p)) q ∧ (i < p.smp.sectors.length → (q.sector i).suspect = true) := by
  intro q
  rw [show q = endingDone c e u i o false bs.length p from ctxOp_ending i o bs hu h false]
  exact endingFails_ended e u i o _ p

/-! ### A commit attempt -/

/-- R95: a failed attempt is counted, its sector made suspect and its mark read back. -/
theorem commitFailed_raises {w : Written} {ws : List Written} (written : (p.ctx c).written = w :: ws) :
    Raised (.ctxReadBack c) .read (p.ctx c).level (.runs [{ sector := w.sector, offset := w.offset + 23, length := 1 }])
      (failedIn c w.sector p) (commitFailed c p) ∧ ((commitFailed c p).ctx c).attempts = (p.ctx c).attempts + 1 := by
  have noted : noteCtx c .mediaEvent (modCtx c (fun k => { k with attempts := k.attempts + 1 }) p) =
      (noteCtx c .mediaEvent p).reread (if c = .c0 then 1 else 0) (if c = .c0 then 0 else 1) id := by
    unfold noteCtx Part.reread
    cases c <;> simp [modCtx]
  have raises : commitFailed c p = raise (.ctxReadBack c) .read (p.ctx c).level
      (.runs [{ sector := w.sector, offset := w.offset + 23, length := 1 }])
      ((failedIn c w.sector p).reread (if c = .c0 then 1 else 0) (if c = .c0 then 0 else 1) id) := by
    unfold commitFailed
    rw [written]
    dsimp only
    rw [noted, makeSuspect_reread]
    rfl
  obtain ⟨o, ctx⟩ := failedIn_ctx c w.sector p
  rw [raises, raise_ctx]
  refine ⟨raise_raised .., ?_⟩
  have counted : (((failedIn c w.sector p).reread (if c = .c0 then 1 else 0) (if c = .c0 then 0 else 1) id).ctx c).attempts =
      ((failedIn c w.sector p).ctx c).attempts + 1 := by cases c <;> rfl
  rw [counted, ctx]

/-- R95, R97, R104: the read-back of an attempt that left the mark unset. -/
theorem readBack_unset (p : Part) : readEnded (.ctxReadBack c) [0xFF] p =
    match (p.ctx c).ending with
    | some _ => finishEnd c none p
    | none => if (p.ctx c).attempts < 3 then raiseCommit c (noteCtx c .retried p) else finishEnd c (some .mediaFault) p := rfl

theorem readBack_set {v : Byte} (h : v ≠ 0xFF) (p : Part) : readEnded (.ctxReadBack c) [v] p = commitSwitch c p :=
  if_pos (decide_eq_true h)

theorem readBack_retries {w : Written} {ws : List Written} (written : (p.ctx c).written = w :: ws) (ending : (p.ctx c).ending = none)
    (few : (p.ctx c).attempts < 3) : Raised (.ctxCommit c) .mark (p.ctx c).level (.bytes w.sector (w.offset + 23) [0x00]) p
      (readEnded (.ctxReadBack c) [0xFF] p) := by
  have noted := noteCtx_ctx (c := c) .retried p
  obtain ⟨raised, -⟩ := raiseCommit_raised (p := noteCtx c .retried p) (c := c) (w := w) (ws := ws) (by rw [noted]; exact written)
  rw [readBack_unset, ending]
  dsimp only
  rw [if_pos few]
  unfold Raised at raised ⊢
  rw [noted, noteCtx, modCtx_pee] at raised
  exact raised

end Sys2Proof.Machine
end

