-- ==== Sys2Proof/Proofs/RunnerChoice.lean ====
section
/-! SUPPORT. The runner's choice of a step, and the bookkeeping of its COMPACT (R128, R129, R133 to R135). -/
namespace Sys2Proof.Machine

variable {p q : Part}

/-! ### Movable elements (R128) -/

theorem mem_movableOf {i : Nat} {d : DirEntry} {m : Movable} : m ∈ movableOf i d ↔
    d.deletePending = false ∧ d.relocating = false ∧ d.slot = m.slot ∧ d.sequence = m.sequence ∧
      d.extents[m.index]? = some m.elem ∧ m.elem.sector = i ∧ m.elem.copy < 65535 := by
  unfold movableOf
  split
  · rename_i h
    refine ⟨nofun, fun ⟨a, b, _⟩ => ?_⟩
    rw [a, b] at h
    cases h
  · rename_i h
    rw [Bool.not_eq_true, Bool.or_eq_false_iff] at h
    simp only [List.mem_map, List.mem_filter, Bool.and_eq_true, decide_eq_true_eq]
    constructor
    · rintro ⟨⟨x, n⟩, ⟨found, here, copies⟩, rfl⟩
      exact ⟨h.1, h.2, rfl, rfl, List.mem_zipIdx_iff_getElem?.1 found, here, copies⟩
    · rintro ⟨-, -, slot, sequence, found, here, copies⟩
      exact ⟨(m.elem, m.index), ⟨List.mem_zipIdx_iff_getElem?.2 found, here, copies⟩, by rw [slot, sequence]⟩

theorem lowestOffset_none {l : List Movable} (h : lowestOffset l = none) : l = [] := by
  cases l with
  | nil => rfl
  | cons m ms =>
    unfold lowestOffset at h
    split at h
    · split at h <;> cases h
    · cases h

/-- R128: the lowest of a list of movable elements. -/
theorem lowestOffset_some {l : List Movable} {m : Movable} (h : lowestOffset l = some m) :
    m ∈ l ∧ ∀ n ∈ l, m.elem.offset ≤ n.elem.offset := by
  induction l generalizing m with
  | nil => cases h
  | cons k l ih =>
    unfold lowestOffset at h
    cases later : lowestOffset l with
    | none =>
      rw [later] at h
      cases h
      rw [lowestOffset_none later]
      exact ⟨List.mem_singleton_self k, fun n hn => by rw [List.mem_singleton.1 hn]⟩
    | some n =>
      rw [later] at h
      dsimp only at h
      obtain ⟨inside, least⟩ := ih later
      split at h
      · rename_i lower
        cases h
        refine ⟨List.mem_cons_of_mem _ inside, fun x hx => ?_⟩
        rcases List.mem_cons.1 hx with rfl | hx
        · exact lower.le
        · exact least x hx
      · rename_i lower
        cases h
        refine ⟨List.mem_cons_self, fun x hx => ?_⟩
        rcases List.mem_cons.1 hx with rfl | hx
        · exact Nat.le_refl _
        · exact (Nat.not_lt.1 lower).trans (least x hx)

/-- R128: the first movable element of a sector is one of its elements of a directory entry. -/
theorem firstMovable_found {i : Nat} {m : Movable} (h : firstMovable i p = some m) : m.elem.sector = i ∧ m.elem.copy < 65535 ∧
    ∃ d ∈ p.sdr.directory, d.slot = m.slot ∧ d.sequence = m.sequence ∧ d.deletePending = false ∧ d.relocating = false ∧
      d.extents[m.index]? = some m.elem := by
  obtain ⟨d, hd, hm⟩ := List.mem_flatMap.1 (lowestOffset_some h).1
  obtain ⟨standing, still, slot, sequence, found, here, copies⟩ := mem_movableOf.1 hm
  exact ⟨here, copies, d, hd, slot, sequence, standing, still, found⟩

/-- R128: it has the lowest header offset. -/
theorem firstMovable_least {i : Nat} {m : Movable} (h : firstMovable i p = some m) {d : DirEntry} (hd : d ∈ p.sdr.directory)
    (standing : d.deletePending = false) (still : d.relocating = false) {x : Elem} (hx : x ∈ d.extents) (here : x.sector = i)
    (copies : x.copy < 65535) : m.elem.offset ≤ x.offset := by
  obtain ⟨n, found⟩ := List.mem_iff_getElem?.1 hx
  have movable : ({ slot := d.slot, sequence := d.sequence, index := n, elem := x } : Movable) ∈ movableOf i d :=
    mem_movableOf.2 ⟨standing, still, rfl, rfl, found, here, copies⟩
  exact (lowestOffset_some h).2 _ (List.mem_flatMap.2 ⟨d, hd, movable⟩)

/-- R128, R130: an evacuation step is wanted of a queued sector with nothing pending, and with no hold. -/
theorem evacuationStep_wants {m : Movable} (h : evacuationStep p = some m) :
    ∃ i ∈ p.rcu.evacQueue, p.rcu.hold = none ∧ (p.sector i).pending = 0 ∧ firstMovable i p = some m := by
  unfold evacuationStep at h
  split at h
  · cases h
  · rename_i free
    rw [Bool.not_eq_true, Option.isSome_eq_false_iff, Option.isNone_iff_eq_none] at free
    obtain ⟨i, hi, found⟩ := List.exists_of_findSome?_eq_some h
    split at found
    · cases found
    · rename_i rests
      exact ⟨i, hi, free, Nat.eq_zero_of_not_pos rests, found⟩

/-! ### A step begins (R34, R129) -/

/-- R129: the READ of the old copy is raised, the entry is relocating and the step's record stands. -/
theorem beginStep_begins (kind : StepKind) (job : Option Nat) (level zone : Nat) (m : Movable) (p : Part) :
    let q := beginStep kind job level zone m p
    Raised .runnerRead .read level (.runs [{ sector := m.elem.sector, offset := m.elem.offset, length := 32 + m.elem.length }]) p q ∧
    (∀ d ∈ q.sdr.directory, d.slot = m.slot → d.relocating = true) ∧
    ∃ st, q.rcu.step = some st ∧ st.kind = kind ∧ st.job = job ∧ st.level = level ∧ st.slot = m.slot ∧
      st.sequence = m.sequence ∧ st.index = m.index ∧ st.elem = m.elem ∧ st.phase = .reading ∧ st.attempts = 0 := by
  unfold beginStep
  dsimp only
  refine ⟨raise_raised .., fun d hd slot => ?_, _, by rw [raise_rcu]; rfl, rfl, rfl, rfl, rfl, rfl, rfl, rfl, rfl, rfl⟩
  rw [raise_sdr] at hd
  obtain ⟨e, -, rfl⟩ := List.mem_map.1 hd
  by_cases here : e.slot = m.slot
  · rw [if_pos here]
  · rw [if_neg here] at slot
    exact absurd slot here

theorem compactStep_some {j : Job} {v : Nat} {n : Movable} (hj : p.rcu.job = some j) (hv : j.victim = some v)
    (hn : firstMovable v p = some n) : compactStep p = some (j, n) := by
  unfold compactStep
  rw [hj]
  dsimp only
  rw [hv]
  dsimp only
  rw [hn]
  rfl

theorem compactStep_idle (hj : p.rcu.job = none) : compactStep p = none := by
  unfold compactStep
  rw [hj]

section
variable (mounted : p.mounted = true) (idle : p.rcu.step = none)
include mounted idle

theorem runnerReact_eq : runnerReact p = match evacuationStep p, compactStep p with
    | some m, some jm => some (if p.rcu.lastKind = some .evacuation then beginStep .compact (some jm.1.age) jm.1.level jm.1.zone jm.2 p
        else beginStep .evacuation none 0 (p.sector m.elem.sector).zone m p)
    | some m, none => some (beginStep .evacuation none 0 (p.sector m.elem.sector).zone m p)
    | none, some jm => some (beginStep .compact (some jm.1.age) jm.1.level jm.1.zone jm.2 p)
    | none, none =>
      match p.rcu.owned with
      | some i => some (giveUp i p)
      | none => none := by
  unfold runnerReact
  rw [mounted, idle]
  rfl

/-- R134, R135: with nothing to move the runner gives its sector up. -/
theorem runner_rests {i : Nat} (none_ : evacuationStep p = none) (hj : p.rcu.job = none) (owned : p.rcu.owned = some i) :
    runnerReact p = some (giveUp i p) ∧ restReact p = some (giveUp i p) := by
  refine ⟨?_, ?_⟩
  · rw [runnerReact_eq mounted idle, none_, compactStep_idle hj]
    dsimp only
    rw [owned]
  · unfold restReact
    rw [mounted, idle, none_, hj, owned]
    rfl

end

/-! ### The next victim (R133) -/

theorem victimOk_iff (j : Job) (s : Sector) (i : Nat) : victimOk j s i = true ↔
    s.zone = j.zone ∧ s.state = .sealed ∧ s.suspect = false ∧ 0 < s.live ∧ s.pending = 0 ∧ i ∉ j.taken := by
  unfold victimOk
  simp [and_assoc]

theorem victimFrom_none {j : Job} {l : List Sector} {i : Nat} :
    victimFrom j i l = none ↔ ∀ n s, l[n]? = some s → victimOk j s (i + n) = false := by
  induction l generalizing i with
  | nil => simp [victimFrom]
  | cons s l ih =>
    unfold victimFrom
    dsimp only
    split
    · rename_i ok
      refine ⟨fun h => ?_, fun h => ?_⟩
      · split at h
        · split at h <;> cases h
        · cases h
      · have not := h 0 s rfl
        rw [Nat.add_zero, ok] at not
        cases not
    · rename_i ok
      rw [ih]
      refine ⟨fun h n t hn => ?_, fun h n t hn => ?_⟩
      · cases n with
        | zero => cases hn; exact Bool.not_eq_true _ ▸ ok
        | succ n => rw [Nat.add_succ, ← Nat.succ_add]; exact h n t hn
      · have := h (n + 1) t hn
        rw [Nat.add_succ, ← Nat.succ_add] at this
        exact this

/-- R133: the victim chosen among sectors from number `i` on: least live bytes, then lowest number. -/
theorem victimFrom_some {j : Job} {l : List Sector} {i v n : Nat} (h : victimFrom j i l = some (v, n)) :
    (∃ k s, v = i + k ∧ l[k]? = some s ∧ victimOk j s v = true ∧ s.live = n) ∧
      ∀ k s, l[k]? = some s → victimOk j s (i + k) = true → n < s.live ∨ (n = s.live ∧ v ≤ i + k) := by
  induction l generalizing i v n with
  | nil => cases h
  | cons s l ih =>
    unfold victimFrom at h
    dsimp only at h
    have from_ {k : Nat} {t : Sector} {w x : Nat} (h : victimFrom j (i + 1) l = some (w, x)) (hk : l[k]? = some t)
        (fits : victimOk j t (i + (k + 1)) = true) : x < t.live ∨ (x = t.live ∧ w ≤ i + (k + 1)) := by
      rw [Nat.add_succ, ← Nat.succ_add] at fits ⊢
      exact (ih h).2 k t hk fits
    have later {w x : Nat} (h : victimFrom j (i + 1) l = some (w, x)) :
        ∃ k t, w = i + k ∧ (s :: l)[k]? = some t ∧ victimOk j t w = true ∧ t.live = x := by
      obtain ⟨k, t, hw, hk, fits, live⟩ := (ih h).1
      exact ⟨k + 1, t, by omega, hk, fits, live⟩
    split at h
    · rename_i ok
      cases hl : victimFrom j (i + 1) l with
      | none =>
        rw [hl] at h
        cases h
        refine ⟨⟨0, s, rfl, rfl, ok, rfl⟩, fun k t hk fits => ?_⟩
        cases k with
        | zero => cases hk; exact .inr ⟨rfl, Nat.le_refl _⟩
        | succ k =>
          have := victimFrom_none.1 hl k t hk
          rw [Nat.add_succ, ← Nat.succ_add, this] at fits
          cases fits
      | some w =>
        rw [hl] at h
        dsimp only at h
        split at h
        · rename_i less
          cases h
          refine ⟨later hl, fun k t hk fits => ?_⟩
          cases k with
          | zero => cases hk; exact .inl less
          | succ k => exact from_ hl hk fits
        · rename_i less
          cases h
          refine ⟨⟨0, s, rfl, rfl, ok, rfl⟩, fun k t hk fits => ?_⟩
          cases k with
          | zero => cases hk; exact .inr ⟨rfl, Nat.le_refl _⟩
          | succ k =>
            have := from_ hl hk fits
            omega
    · rename_i ok
      refine ⟨later h, fun k t hk fits => ?_⟩
      cases k with
      | zero => cases hk; exact absurd fits ok
      | succ k => exact from_ h hk fits

theorem getElem?_of_sector {i : Nat} (hi : i < p.smp.sectors.length) : p.smp.sectors[i]? = some (p.sector i) := by
  unfold Part.sector
  rw [List.getD_eq_getElem?_getD, List.getElem?_eq_getElem hi]
  rfl

/-- R133: a sector that a COMPACT may choose. -/
def Job.fits (j : Job) (p : Part) (u : Nat) : Prop :=
  let s := p.sector u
  u < p.smp.sectors.length ∧ s.zone = j.zone ∧ s.state = .sealed ∧ s.suspect = false ∧ 0 < s.live ∧ s.pending = 0 ∧ u ∉ j.taken

theorem Job.fits_iff (j : Job) (p : Part) (u : Nat) : j.fits p u ↔ u < p.smp.sectors.length ∧ victimOk j (p.sector u) u = true := by
  unfold Job.fits
  rw [victimOk_iff]

theorem nextVictim_none (j : Job) (p : Part) : nextVictim j p = none ↔ ∀ u, ¬ j.fits p u := by
  unfold nextVictim
  rw [Option.map_eq_none_iff, victimFrom_none]
  refine ⟨fun h u fits => ?_, fun h n s hn => ?_⟩
  · obtain ⟨inside, ok⟩ := (j.fits_iff p u).1 fits
    have := h u _ (getElem?_of_sector inside)
    rw [Nat.zero_add, ok] at this
    cases this
  · rw [Nat.zero_add, ← Bool.not_eq_true, ← sector_of_getElem? hn]
    exact fun ok => h n ((j.fits_iff p n).2 ⟨(List.getElem?_eq_some_iff.1 hn).1, ok⟩)

theorem nextVictim_some {j : Job} {v : Nat} (h : nextVictim j p = some v) : j.fits p v ∧
    ∀ u, victimOk j (p.sector u) u = true → u < p.smp.sectors.length →
      (p.sector v).live < (p.sector u).live ∨ ((p.sector v).live = (p.sector u).live ∧ v ≤ u) := by
  obtain ⟨⟨w, n⟩, found, rfl⟩ := Option.map_eq_some_iff.1 h
  obtain ⟨⟨k, s, hk, hs, ok, live⟩, least⟩ := victimFrom_some found
  rw [Nat.zero_add] at hk
  subst hk
  rw [← sector_of_getElem? hs] at ok live
  refine ⟨(j.fits_iff p w).2 ⟨(List.getElem?_eq_some_iff.1 hs).1, ok⟩, fun u fits inside => ?_⟩
  have := least u _ (getElem?_of_sector inside) (by rw [Nat.zero_add]; exact fits)
  rw [live, ← Nat.zero_add u]
  rw [Nat.zero_add] at this ⊢
  exact this

/-! ### The COMPACT's bookkeeping (R133, R134) -/

/-- R134: a COMPACT that ends. -/
theorem endJob_eq {j : Job} (hj : p.rcu.job = some j) {e : Entry} (he : p.queueEntry j.age = some e) (st : Status) :
    endJob st p = endedPart e st j.notes (be 1 j.zone ++ be 1 j.emptied) { p with rcu := { p.rcu with job := none } } := by
  unfold endJob
  rw [hj]
  exact completeEntry_eq (p := { p with rcu := { p.rcu with job := none } }) he ..

theorem modJob_eq {j : Job} (hj : p.rcu.job = some j) (f : Job → Job) :
    modJob f p = { p with rcu := { p.rcu with job := some (f j) } } := by
  unfold modJob
  rw [hj]
  rfl

section
variable {j : Job} (hj : p.rcu.job = some j)
include hj

theorem jobReact_done (done : j.asked ≤ j.emptied) : jobReact p = some (endJob .ok p) := by
  unfold jobReact
  rw [hj]
  exact if_pos done

variable (open_ : j.emptied < j.asked)
include open_

theorem jobReact_victim {v : Nat} (hv : j.victim = some v) : jobReact p =
    if (p.sector v).live = 0 then some (modJob (fun j => { j with emptied := j.emptied + 1, victim := none }) p)
    else if (p.sector v).suspect = true ∨ (p.rcu.step = none ∧ firstMovable v p = none) then
      some (modJob (fun j => { j with victim := none }) p)
    else none := by
  unfold jobReact
  rw [hj]
  dsimp only
  rw [if_neg (Nat.not_le.2 open_), hv]
  simp only [Bool.or_eq_true, Bool.and_eq_true, Option.isNone_iff_eq_none]

theorem jobReact_chooses (hv : j.victim = none) : jobReact p =
    if stepServes j p then none
    else match nextVictim j p with
      | some v => some (modJob (fun j => { j with victim := some v, taken := j.taken ++ [v] }) p)
      | none => some (endJob .ok p) := by
  unfold jobReact
  rw [hj]
  dsimp only
  rw [if_neg (Nat.not_le.2 open_), hv] <;> rfl

end

theorem stepServes_iff (j : Job) (p : Part) : stepServes j p = true ↔ ∃ st, p.rcu.step = some st ∧ st.job = some j.age := by
  unfold stepServes
  cases p.rcu.step <;> simp

/-! ### The boundary of a COMPACT (R133, R134, R157) -/

theorem Job.victimEmptied_iff (j : Job) (p : Part) : j.victimEmptied p = true ↔ ∃ v, j.victim = some v ∧ (p.sector v).live = 0 := by
  unfold Job.victimEmptied
  cases j.victim <;> simp

theorem Job.atBoundary_kept (j : Job) (p : Part) : (j.atBoundary p).age = j.age ∧ (j.atBoundary p).asked = j.asked ∧
    (j.atBoundary p).failures = j.failures ∧ (j.atBoundary p).notes = j.notes ∧ (j.atBoundary p).zone = j.zone := by
  unfold Job.atBoundary
  split <;> exact ⟨rfl, rfl, rfl, rfl, rfl⟩

/-- R134, R157: a job at the boundary of its own step ends OK, with MEDIA_FAULT or ABORTED, or goes on, in this order. -/
theorem jobBoundary_ends {st : Step} {j : Job} (hj : p.rcu.job = some j) (own : st.job = some j.age) {e : Entry}
    (he : p.queueEntry j.age = some e) :
    let k := j.atBoundary p
    let ends (status : Status) : Prop := jobBoundary st p =
      endedPart e status j.notes (be 1 j.zone ++ be 1 k.emptied) { p with rcu := { p.rcu with job := none } }
    (j.asked ≤ k.emptied → ends .ok) ∧
    (k.emptied < j.asked → 3 ≤ j.failures → ends .mediaFault) ∧
    (k.emptied < j.asked → j.failures < 3 → e.abortWaits = true → ends .aborted) ∧
    (k.emptied < j.asked → j.failures < 3 → e.abortWaits = false → jobBoundary st p = { p with rcu := { p.rcu with job := some k } }) := by
  intro k ends
  have boundary := jobBoundary_own hj own
  obtain ⟨age, asked, failures, notes, zone⟩ := j.atBoundary_kept p
  have entry : (withJob k p).queueEntry k.age = some e := by
    show p.queueEntry k.age = some e
    rw [show k.age = j.age from age]
    exact he
  have ended (status : Status) : endJob status (withJob k p) =
      endedPart e status j.notes (be 1 j.zone ++ be 1 k.emptied) { p with rcu := { p.rcu with job := none } } := by
    rw [endJob_eq (p := withJob k p) rfl entry, show k.notes = j.notes from notes, show k.zone = j.zone from zone]
    rfl
  have waits : abortWaits k.age (withJob k p) = e.abortWaits := by
    unfold abortWaits
    rw [entry]
  dsimp only at boundary
  rw [asked, failures] at boundary
  refine ⟨fun done => ?_, fun open_ third => ?_, fun open_ few abort => ?_, fun open_ few none_ => ?_⟩
  · show jobBoundary st p = _
    rw [boundary]
    rw [if_pos done]
    exact ended .ok
  · show jobBoundary st p = _
    rw [boundary]
    rw [if_neg (Nat.not_le.2 open_), if_pos third]
    exact ended .mediaFault
  · show jobBoundary st p = _
    rw [boundary]
    rw [if_neg (Nat.not_le.2 open_), if_neg (Nat.not_le.2 few), waits, if_pos abort]
    exact ended .aborted
  · rw [boundary]
    rw [if_neg (Nat.not_le.2 open_), if_neg (Nat.not_le.2 few), waits, none_]
    rfl

/-! ### Waiting commits (R38, R93) -/

theorem readyToCommit_iff (c : CtxId) (p : Part) : (decide ((p.ctx c).state = .committing) && decide ((p.ctx c).commit = .waiting)
    && (p.ctx c).ending.isNone && !supersededStands (p.ctx c).slot p) = true ↔ p.readyToCommit c := by
  unfold Part.readyToCommit
  rw [← supersededStands_iff]
  simp [and_assoc]

theorem commitReact_none (p : Part) : commitReact p = none ↔ ∀ c, ¬ p.readyToCommit c := by
  unfold commitReact
  rw [Option.map_eq_none_iff, List.find?_eq_none]
  refine ⟨fun h c ready => h c (by cases c <;> decide) ((readyToCommit_iff c p).2 ready), fun h c _ ok => h c ((readyToCommit_iff c p).1 ok)⟩

theorem commitReact_tries {c : CtxId} (ready : p.readyToCommit c) (alone : ∀ d, p.readyToCommit d → d = c) :
    commitReact p = some (tryCommit c p) := by
  unfold commitReact
  cases found : allCtx.find? _ with
  | none => exact absurd ((readyToCommit_iff c p).2 ready) (List.find?_eq_none.1 found c (by cases c <;> decide))
  | some d =>
    have ok := List.find?_some found
    rw [alone d ((readyToCommit_iff d p).1 ok)]
    rfl

end Sys2Proof.Machine
end

