-- ==== Sys2Proof/Proofs/RunnerSector.lean ====
section
/-! SUPPORT. What the end of a step leaves of the runner and of the sectors, and what becomes of the runner's sector (R44, R132, R136,
R177). -/
namespace Sys2Proof.Machine

variable {p q : Part}

/-! ### What the Sector Map leaves of the runner -/

theorem raiseErase_rcu (p : Part) : ∃ b, (raiseErase p).rcu = { p.rcu with openBatch := b } := by
  unfold raiseErase
  split
  · rw [raise_rcu]
    exact ⟨_, rfl⟩
  · exact ⟨_, rfl⟩

theorem openBatch_rcu (p : Part) : ∃ l b, (openBatch p).rcu = { p.rcu with eraseQueue := l, openBatch := b } := by
  unfold openBatch
  split
  · exact ⟨_, _, rfl⟩
  · split
    · dsimp only
      split
      · rename_i s l _ _ _
        obtain ⟨b, e⟩ := raiseErase_rcu { p with rcu := { p.rcu with
          eraseQueue := (takeOfZone p (p.sector s).zone Config.batchMax p.rcu.eraseQueue).2
          openBatch := some { zone := (p.sector s).zone, sectors := (takeOfZone p (p.sector s).zone Config.batchMax p.rcu.eraseQueue).1,
                              window := none, raised := false } } }
        exact ⟨_, b, e⟩
      · exact ⟨_, _, rfl⟩
    · exact ⟨_, _, rfl⟩

theorem joinErase_rcu (i : Nat) (p : Part) : ∃ l b, (joinErase i p).rcu = { p.rcu with eraseQueue := l, openBatch := b } := by
  unfold joinErase
  split
  · split
    · rename_i b _ _
      dsimp only
      split
      · obtain ⟨b', e⟩ := raiseErase_rcu { p with rcu := { p.rcu with openBatch := some { b with sectors := b.sectors ++ [i] } } }
        exact ⟨_, b', e⟩
      · exact ⟨_, _, rfl⟩
    · exact ⟨_, _, rfl⟩
  · obtain ⟨l, b, e⟩ := openBatch_rcu { p with rcu := { p.rcu with eraseQueue := p.rcu.eraseQueue ++ [i] } }
    exact ⟨l, b, e⟩

theorem becomeStale_eq (i : Nat) (p : Part) : becomeStale i p =
    returnSpare (p.sector i).zone (if (p.staleAt i).mounted then joinErase i (p.staleAt i) else p.staleAt i) := rfl

theorem judgeSector_rcuOwned (i : Nat) (p : Part) : (judgeSector i p).rcu.owned = p.rcu.owned := by
  have stale : (becomeStale i p).rcu.owned = p.rcu.owned := by
    obtain ⟨zs, h, e, -, -⟩ := returnSpare_eq (p.sector i).zone (if (p.staleAt i).mounted then joinErase i (p.staleAt i) else p.staleAt i)
    rw [becomeStale_eq, e]
    dsimp only
    split
    · obtain ⟨l, b, e⟩ := joinErase_rcu i (p.staleAt i)
      rw [e]
      rfl
    · rfl
  unfold judgeSector
  dsimp only
  split
  · split
    · exact stale
    · split <;> rfl
  · rfl

/-- R44: sealing takes a sector from the runner or leaves the runner's as it is. -/
theorem sealSector_rcuOwned (i : Nat) (p : Part) : (sealSector i p).rcu.owned = p.rcu.owned ∨ (sealSector i p).rcu.owned = none := by
  have dropped : (dropOwner i p).rcu.owned = p.rcu.owned ∨ (dropOwner i p).rcu.owned = none := by
    unfold dropOwner
    split
    · exact .inl (by rw [modSector_rcu, modCtx_rcu])
    · exact .inr rfl
    · exact .inl rfl
  have sealed : (sealSector i p).rcu.owned = (dropOwner i p).rcu.owned := judgeSector_rcuOwned ..
  rw [sealed]
  exact dropped

/-! ### What the end of a step leaves -/

/-- What stays of a sector while counts move: its offset, its standing as suspect and its owner; its state, but that it may become
STALE. -/
def Sector.Stays (s t : Sector) : Prop :=
  t.nextWrite = s.nextWrite ∧ t.suspect = s.suspect ∧ t.owner = s.owner ∧ (t.state = s.state ∨ t.state = .stale)

theorem Sector.Stays.refl (s : Sector) : s.Stays s := ⟨rfl, rfl, rfl, .inl rfl⟩

theorem Sector.Stays.trans {s t u : Sector} (h : s.Stays t) (g : t.Stays u) : s.Stays u := by
  obtain ⟨nextWrite, suspect, owner, state⟩ := h
  obtain ⟨nextWrite', suspect', owner', state'⟩ := g
  exact ⟨nextWrite'.trans nextWrite, suspect'.trans suspect, owner'.trans owner, state'.elim (fun e => state.imp e.trans e.trans) .inr⟩

/-- What the replacement of an element and the raising of a deferred claim leave as they are. -/
structure Aloof (p q : Part) : Prop where
  scu    : q.scu = p.scu
  step   : q.rcu.step = p.rcu.step
  job    : q.rcu.job = p.rcu.job
  kind   : q.rcu.lastKind = p.rcu.lastKind
  stop   : q.rcu.stopAtEnd = p.rcu.stopAtEnd
  owned  : q.rcu.owned = p.rcu.owned
  length : q.smp.sectors.length = p.smp.sectors.length
  sector : ∀ j, (p.sector j).Stays (q.sector j)

theorem Aloof.refl (p : Part) : Aloof p p := ⟨rfl, rfl, rfl, rfl, rfl, rfl, rfl, fun _ => .refl _⟩

theorem Aloof.trans {r : Part} (h : Aloof p q) (g : Aloof q r) : Aloof p r where
  scu := g.scu.trans h.scu
  step := g.step.trans h.step
  job := g.job.trans h.job
  kind := g.kind.trans h.kind
  stop := g.stop.trans h.stop
  owned := g.owned.trans h.owned
  length := g.length.trans h.length
  sector := fun j => (h.sector j).trans (g.sector j)

/-- A change of other blocks. -/
theorem Aloof.same (h : Aloof p q) {r : Part} (scu : r.scu = q.scu := by rfl) (rcu : r.rcu = q.rcu := by rfl)
    (smp : r.smp = q.smp := by rfl) : Aloof p r :=
  h.trans ⟨scu, by rw [rcu], by rw [rcu], by rw [rcu], by rw [rcu], by rw [rcu], by rw [smp], fun j => by
    rw [sector_of_smp smp]; exact .refl _⟩

theorem judgeSector_aloof (h : Aloof p q) (i : Nat) : Aloof p (judgeSector i q) := by
  have g := judgeSector_mapStep (.refl q) i
  refine h.trans ⟨g.scu, g.step, g.job, g.kind, g.stop, judgeSector_rcuOwned i q, g.length, fun j => ?_⟩
  rw [judgeSector_sector]
  split
  · rename_i x
    rw [x.1]
    exact ⟨rfl, rfl, rfl, .inr rfl⟩
  · exact .refl _

theorem modSector_aloof (h : Aloof p q) (i : Nat) (f : Sector → Sector) (hf : ∀ s : Sector, s.Stays (f s)) :
    Aloof p (modSector i f q) := by
  refine h.trans ⟨rfl, rfl, rfl, rfl, rfl, rfl, modSector_length .., fun j => ?_⟩
  rw [sector_modSector]
  split
  · exact hf _
  · exact .refl _

theorem movedElem_aloof (st : Step) (p : Part) : Aloof p (movedElem st p) := by
  have gained : Aloof p (addLive st.newSector (space st.elem.length) (modEntry st.slot st.onto p)) :=
    judgeSector_aloof (modSector_aloof (Aloof.refl p).same _ (fun s => { s with live := s.live + space st.elem.length })
      fun _ => ⟨rfl, rfl, rfl, .inl rfl⟩) _
  exact judgeSector_aloof (modSector_aloof gained _ (fun s => { s with live := s.live - space st.elem.length })
    fun _ => ⟨rfl, rfl, rfl, .inl rfl⟩) _

theorem replaceElem_aloof (st : Step) (p : Part) : Aloof p (replaceElem st p) := by
  by_cases live : ∃ e, p.entryOf st.slot = some e ∧ e.sequence = st.sequence
  · obtain ⟨e, he, live⟩ := live
    have served := reissueAtReplacement_servedStep (.refl (movedElem st p)) st.slot st.index
    rw [replaceElem_live he live]
    exact (movedElem_aloof st p).same served.scu served.rcu served.smp
  · rw [replaceElem_dead fun e he x => live ⟨e, he, x⟩]
    exact .refl p

theorem raiseObsolete_aloof (h : Aloof p q) (s n : Nat) : Aloof p (raiseObsolete s n q) := by
  rw [raiseObsolete_eq]
  exact h.same

theorem not_deferred {st : Step} (h : ¬ ∃ r, p.retiringOf st.slot st.sequence = some r ∧ r.deferred = true) :
    ∀ r, p.retiringOf st.slot st.sequence = some r → r.deferred = false := fun r hr => by
  rw [← Bool.not_eq_true]
  exact fun hd => h ⟨r, hr, hd⟩

theorem raiseDeferred_aloof (st : Step) (closed : Bool) (p : Part) : Aloof p (raiseDeferred st closed p) := by
  have resumes : Aloof p (resumed st closed p) := by
    unfold resumed
    refine Aloof.same (q := if closed then _ else p) ?_
    split
    · exact judgeSector_aloof (modSector_aloof (Aloof.refl p).same _
        (fun s => { s with retiring := s.retiring + space st.elem.length }) fun _ => ⟨rfl, rfl, rfl, .inl rfl⟩) _
    · exact .refl p
  by_cases deferred : ∃ r, p.retiringOf st.slot st.sequence = some r ∧ r.deferred = true
  · obtain ⟨r, hr, hd⟩ := deferred
    rw [raiseDeferred_raises hr hd]
    exact raiseObsolete_aloof resumes _ _
  · rw [raiseDeferred_none (not_deferred deferred)]
    exact .refl p

/-- The part at which a step has ended, its element is replaced and the claim deferred on it raised, before its sector is settled. -/
def deferredRaised (st : Step) (closed : Bool) (p : Part) : Part := raiseDeferred st closed (unstepped st closed p)

theorem endStep_settles {st : Step} (hs : p.rcu.step = some st) (closed : Bool) :
    endStep closed p = settleRestart (settleRunnerSector st (deferredRaised st closed p)) := endStep_eq hs closed

theorem deferredRaised_aloof (st : Step) (closed : Bool) (p : Part) :
    Aloof { p with rcu := { p.rcu with step := none, lastKind := some st.kind } } (deferredRaised st closed p) := by
  refine Aloof.trans (q := unstepped st closed p) ?_ (raiseDeferred_aloof ..)
  unfold unstepped
  dsimp only
  refine Aloof.same (q := if closed then replaceElem st { p with rcu := { p.rcu with step := none, lastKind := some st.kind } }
    else { p with rcu := { p.rcu with step := none, lastKind := some st.kind } }) ?_
  split
  · exact replaceElem_aloof ..
  · exact .refl _

/-! ### The end of the step -/

theorem Spaced.kind (h : Spaced p q) : q.rcu.lastKind = p.rcu.lastKind := by obtain ⟨_, _, _, h⟩ := h; exact h.kind
theorem Spaced.stop (h : Spaced p q) : q.rcu.stopAtEnd = p.rcu.stopAtEnd := by obtain ⟨_, _, _, h⟩ := h; exact h.stop
theorem Spaced.suspect (h : Spaced p q) {i : Nat} (s : (p.sector i).suspect = true) : (q.sector i).suspect = true := by
  obtain ⟨_, _, _, h⟩ := h
  refine h.suspect i ?_
  rw [recount_sector]
  split <;> exact s

/-- R132, R136: the runner once its step has ended. -/
theorem endStep_runner {st : Step} (hs : p.rcu.step = some st) (closed : Bool) :
    (endStep closed p).rcu.step = none ∧ (endStep closed p).rcu.job = p.rcu.job ∧
      (endStep closed p).rcu.lastKind = (if p.rcu.stopAtEnd = true then none else some st.kind) := by
  have aloof := deferredRaised_aloof st closed p
  rw [endStep_settles hs]
  generalize deferredRaised st closed p = m at aloof
  have settled := settleRunnerSector_spaced st m
  have restarted := settleRestart_spaced (settleRunnerSector st m)
  have kind : (unstopped (settleRunnerSector st m)).rcu.lastKind =
      if (settleRunnerSector st m).rcu.stopAtEnd = true then none else (settleRunnerSector st m).rcu.lastKind := rfl
  refine ⟨restarted.rcuStep.trans (settled.rcuStep.trans aloof.step), restarted.job.trans (settled.job.trans aloof.job), ?_⟩
  rw [restarted.kind, kind, settled.kind, settled.stop, aloof.stop, aloof.kind]

theorem endStep_suspect {st : Step} (hs : p.rcu.step = some st) (closed : Bool) {i : Nat} (h : (p.sector i).suspect = true) :
    ((endStep closed p).sector i).suspect = true := by
  obtain ⟨-, suspect, -, -⟩ := (deferredRaised_aloof st closed p).sector i
  rw [endStep_settles hs]
  refine (settleRestart_spaced _).suspect ((settleRunnerSector_spaced st _).suspect ?_)
  rw [suspect]
  exact h

/-- R31: the raising of a deferred claim leaves the directory, and of the counts the live and pending bytes. -/
theorem raiseDeferred_kept (st : Step) (closed : Bool) (p : Part) :
    (raiseDeferred st closed p).sdr.directory = p.sdr.directory ∧
      ∀ j, ((raiseDeferred st closed p).sector j).live = (p.sector j).live ∧
        ((raiseDeferred st closed p).sector j).pending = (p.sector j).pending := by
  have resumes : (resumed st closed p).sdr.directory = p.sdr.directory ∧ ∀ j, ((resumed st closed p).sector j).live = (p.sector j).live ∧
      ((resumed st closed p).sector j).pending = (p.sector j).pending := by
    cases closed with
    | false => exact ⟨rfl, fun _ => ⟨rfl, rfl⟩⟩
    | true =>
      have counts := addRetiring_counts st.newSector (space st.elem.length) (modRetiring st.slot st.sequence
        (fun r => { r with head := st.copied, extra := some (st.newSector, space st.elem.length) }) p)
      have directory := congrArg Sdr.directory counts.sdr
      refine ⟨directory, fun j => ?_⟩
      obtain ⟨-, -, live, pending, -⟩ := counts.counts j
      rw [recount_sector] at live pending
      refine ⟨live.trans ?_, pending.trans ?_⟩
      all_goals split <;> rfl
  by_cases deferred : ∃ r, p.retiringOf st.slot st.sequence = some r ∧ r.deferred = true
  · obtain ⟨r, hr, hd⟩ := deferred
    rw [raiseDeferred_raises hr hd, raiseObsolete_eq]
    exact resumes
  · rw [raiseDeferred_none (not_deferred deferred)]
    exact ⟨rfl, fun _ => ⟨rfl, rfl⟩⟩

theorem deferredRaised_unclosed (st : Step) (p : Part) : (deferredRaised st false p).rqs = p.rqs ∧
    (deferredRaised st false p).link = p.link ∧ (deferredRaised st false p).smp = p.smp ∧ (deferredRaised st false p).scu = p.scu ∧
    (deferredRaised st false p).sdr.directory =
      p.sdr.directory.map (fun d => if d.slot = st.slot then { d with relocating := false } else d) := by
  by_cases deferred : ∃ r, (unstepped st false p).retiringOf st.slot st.sequence = some r ∧ r.deferred = true
  · obtain ⟨r, hr, hd⟩ := deferred
    unfold deferredRaised
    rw [raiseDeferred_raises hr hd, raiseObsolete_eq]
    exact ⟨rfl, rfl, rfl, rfl, rfl⟩
  · unfold deferredRaised
    rw [raiseDeferred_none (not_deferred deferred)]
    exact ⟨rfl, rfl, rfl, rfl, rfl⟩

/-- R35: an end without a new copy leaves the queue and the replies, and in a MOUNTED store the live bytes. -/
theorem endStep_unclosed {st : Step} (hs : p.rcu.step = some st) : (endStep false p).rqs = p.rqs ∧
    (endStep false p).link.replies = p.link.replies ∧ (endStep false p).link.held = p.link.held ∧
    (endStep false p).sdr.directory = p.sdr.directory.map (fun d => if d.slot = st.slot then { d with relocating := false } else d) ∧
    (p.mounted = true → ∀ j, ((endStep false p).sector j).live = (p.sector j).live) := by
  obtain ⟨rqs, link, smp, scu, directory⟩ := deferredRaised_unclosed st p
  have mounts : (deferredRaised st false p).mounted = p.mounted := by unfold Part.mounted; rw [scu]
  have sectors := fun j => sector_of_smp smp j
  rw [endStep_settles hs]
  generalize deferredRaised st false p = m at rqs link directory mounts sectors
  have settled := settleRunnerSector_spaced st m
  have restarted := settleRestart_spaced (settleRunnerSector st m)
  obtain ⟨sdr, -, -, -, -, counts⟩ := settled_kept st m
  refine ⟨restarted.rqs.trans (settled.rqs.trans rqs), ?_, ?_, (congrArg Sdr.directory sdr).trans directory, fun mounted j => ?_⟩
  · rw [restarted.replies, ← link]; exact settled.replies
  · rw [restarted.held, ← link]; exact settled.held
  · obtain ⟨live, -, -⟩ := counts (mounts.trans mounted) j
    rw [live, sectors]

/-! ### The runner's sector at the end (R44, R136, R177) -/

theorem dropRunnerSector_sector (i : Nat) (p : Part) (j : Nat) : (dropRunnerSector i p).sector j =
    if i = j ∧ j < p.smp.sectors.length ∧ (p.sector j).state ≠ .bad then
      { p.sector j with state := .stale, live := 0, pending := 0, retiring := 0, owner := none } else p.sector j := by
  unfold dropRunnerSector
  rw [sector_modSector]
  by_cases bad : (p.sector j).state = .bad
  · simp only [bad, if_true, ne_eq, not_true_eq_false, and_false, if_false, ite_self]
  · simp only [bad, if_false, ne_eq, not_false_eq_true, and_true]

/-- R177: dropped, a sector that is not BAD is STALE and empty. -/
def Sector.Dropped (s : Sector) : Prop := s.owner = none ∧ s.state = .stale ∧ s.countsZero = true

theorem dropRunnerSector_drops {i : Nat} (hi : i < p.smp.sectors.length) (sound : (p.sector i).state ≠ .bad) :
    ((dropRunnerSector i p).sector i).Dropped := by
  rw [dropRunnerSector_sector, if_pos ⟨rfl, hi, sound⟩]
  exact ⟨rfl, rfl, rfl⟩

theorem dropRunnerSector_dropped {i j : Nat} (h : (p.sector j).Dropped) : ((dropRunnerSector i p).sector j).Dropped := by
  rw [dropRunnerSector_sector]
  split
  · exact ⟨rfl, rfl, rfl⟩
  · exact h

/-- R177: out of MOUNTED the runner's sector is dropped. -/
theorem settleRunnerSector_drops (st : Step) {j : Nat} (out : p.mounted = false) (owned : p.rcu.owned = some j)
    (hj : j < p.smp.sectors.length) (sound : (p.sector j).state ≠ .bad) :
    (settleRunnerSector st p).rcu.owned = none ∧ ((settleRunnerSector st p).sector j).Dropped := by
  have dropped : ((dropRunnerSector j { p with rcu := { p.rcu with owned := none } }).sector j).Dropped :=
    dropRunnerSector_drops (p := { p with rcu := { p.rcu with owned := none } }) hj sound
  unfold settleRunnerSector
  rw [if_neg (by rw [out]; exact Bool.false_ne_true), owned]
  dsimp only
  split
  · exact ⟨rfl, dropped⟩
  · exact ⟨rfl, dropRunnerSector_dropped dropped⟩

/-- R45: a sector that is full or suspect is sealed when it is given up. -/
theorem giveUp_seals {i : Nat} (mounted : p.mounted = true) (full : (p.sector i).room < 64 ∨ (p.sector i).suspect = true) :
    giveUp i p = sealSector i (dropOwner i p) := by
  have unfit : ¬ (!(p.sector i).suspect && decide (Config.sealRoom ≤ (p.sector i).room)) = true := by
    intro h
    obtain ⟨sound, room⟩ := Bool.and_eq_true_iff.1 h
    rcases full with h | h
    · exact Nat.not_le.2 h (of_decide_eq_true room)
    · rw [h] at sound; cases sound
  unfold giveUp
  dsimp only
  rw [mounted, if_neg (by decide), if_neg unfit]

/-- R44: a sector sealed by `q`'s last operation. -/
def Part.sealed (j : Nat) (q : Part) : Prop := SealedState q j (q.sector j).state ∧ (q.sector j).owner = none

theorem sealSector_sealed {j : Nat} (hj : j < p.smp.sectors.length) : (sealSector j p).sealed j := by
  obtain ⟨owner, state, -⟩ := sealSector_self hj
  exact ⟨(sealSector_mapStep (.refl p) j).sealedState state, owner⟩

/-- R44, R136: in a MOUNTED store the runner's sector, full or suspect, is sealed, and stays so when a RESTART has the runner give it
up. -/
theorem settled_sealed (st : Step) {j : Nat} (mounted : p.mounted = true) (owned : p.rcu.owned = some j)
    (hj : j < p.smp.sectors.length) (full : (p.sector j).room < 64 ∨ (p.sector j).suspect = true) :
    (settleRestart (settleRunnerSector st p)).sealed j := by
  have settled : settleRunnerSector st p = sealSector j p := by
    unfold settleRunnerSector
    rw [if_pos mounted, owned]
    exact if_pos full
  have step := sealSector_mapStep (.refl p) j
  have stands : (unstopped (sealSector j p)).sealed j := sealSector_sealed hj
  rw [settled, settleRestart_eq]
  split
  · split
    · rename_i i held
      have same : i = j := by
        rcases sealSector_rcuOwned j p with e | e
        · exact Option.some.inj (held.symm.trans (e.trans owned))
        · exact absurd (held.symm.trans e) nofun
      have self := (sealSector_self hj).2.2
      have full' : ((unstopped (sealSector j p)).sector j).room < 64 ∨ ((unstopped (sealSector j p)).sector j).suspect = true := by
        show ((sealSector j p).sector j).room < 64 ∨ ((sealSector j p).sector j).suspect = true
        rw [self]
        exact full
      have mounted' : (unstopped (sealSector j p)).mounted = true := by
        show (sealSector j p).mounted = true
        unfold Part.mounted
        rw [step.scu]
        exact mounted
      rw [same, giveUp_seals mounted' full']
      refine sealSector_sealed ?_
      rw [dropOwner_smp, modSector_length]
      exact step.length.symm ▸ hj
    · exact stands
  · exact stands

/-- R44, R132, R177: what becomes of the runner's sector at the end of its step. -/
theorem endStep_sector {st : Step} (hs : p.rcu.step = some st) (closed : Bool) {j : Nat} (owned : p.rcu.owned = some j)
    (hj : j < p.smp.sectors.length) :
    (p.mounted = true → (p.sector j).room < 64 ∨ (p.sector j).suspect = true → (endStep closed p).sealed j) ∧
    (p.mounted = false → (p.sector j).state ≠ .bad →
      (endStep closed p).rcu.owned = none ∧ ((endStep closed p).sector j).Dropped) := by
  have aloof := deferredRaised_aloof st closed p
  rw [endStep_settles hs]
  generalize deferredRaised st closed p = m at aloof
  obtain ⟨nextWrite, suspect, -, state⟩ := aloof.sector j
  have owned' : m.rcu.owned = some j := aloof.owned.trans owned
  have inside : j < m.smp.sectors.length := aloof.length.symm ▸ hj
  have mounts : m.mounted = p.mounted := by unfold Part.mounted; rw [aloof.scu]
  refine ⟨fun mounted full => settled_sealed st (mounts.trans mounted) owned' inside ?_, fun out sound => ?_⟩
  · unfold Sector.room at full ⊢
    rw [nextWrite, suspect]
    exact full
  · have sound' : (m.sector j).state ≠ .bad := by
      rcases state with e | e
      · rw [e]; exact sound
      · rw [e]; decide
    obtain ⟨none_, dropped⟩ := settleRunnerSector_drops st (mounts.trans out) owned' inside sound'
    rw [settleRestart_eq, none_]
    dsimp only
    rw [ite_self]
    exact ⟨none_, dropped⟩

end Sys2Proof.Machine
end

