-- ==== Sys2Proof/Proofs/RunnerSteps.lean ====
section
/-! SUPPORT. The operations of the runner's step, in their order and as they fail (R129 to R132, R156). -/
namespace Sys2Proof.Machine

variable {p q : Part}

/-! ### The take of a sector (R130) -/

/-- R130: the part once the runner has given up a sector that does not serve its step. -/
def Part.handedBack (p : Part) : Part :=
  match p.rcu.owned with
  | some i => giveUp i p
  | none => p

theorem handedBack_spaced (p : Part) : Spaced p p.handedBack := by
  unfold Part.handedBack
  split
  · exact giveUp_spaced (.refl p) _
  · exact .refl p

theorem takeForRunner_none {z : Nat} {r : Part} (h : takeForRunner z p = (none, r)) : r = p := by
  rw [takeForRunner_eq] at h
  repeat' split at h
  all_goals simp_all

theorem runnerOwns_step (z i : Nat) (p : Part) : (runnerOwns z i p).rcu.step = p.rcu.step := by
  unfold runnerOwns
  rw [reportFree_rcu]

theorem takeForRunner_step (z : Nat) (p : Part) : (takeForRunner z p).2.rcu.step = p.rcu.step := by
  rw [takeForRunner_eq]
  split
  · split
    · exact runnerOwns_step ..
    · split
      · exact runnerOwns_step ..
      · rfl
  · rfl

/-- R130: the sector in the runner's hands serves its step. -/
def Step.servedBy (st : Step) (p : Part) (i : Nat) : Prop :=
  (p.sector i).zone = st.zone ∧ (p.sector i).suspect = false ∧ 64 ≤ (p.sector i).room ∧ 32 + st.elem.length ≤ (p.sector i).room

theorem runnerKeeps_iff (st : Step) (i : Nat) (p : Part) : runnerKeeps st i p = true ↔ st.servedBy p i := by
  unfold runnerKeeps Step.servedBy
  simp [and_assoc]

/-! ### The first stage (R129) -/

theorem raiseRunnerFirst_begins {st s : Step} (hs : q.rcu.step = some s) (i h : Nat) :
    Raised .runnerFirst .program st.level (.bytes i h (relocatedStage st.bytes st.elem.copy)) q (raiseRunnerFirst st i h q) ∧
      (raiseRunnerFirst st i h q).rcu.step = some { s with phase := .firstStage, newSector := i, newOffset := h } := by
  refine ⟨raise_raised .., ?_⟩
  unfold raiseRunnerFirst
  rw [raise_rcu]
  unfold modStep
  rw [hs]
  rfl

section
variable {st : Step} (hs : p.rcu.step = some st) (bs : List Byte)
include hs

theorem runnerRead_keeps {i : Nat} (owned : p.rcu.owned = some i) (keeps : st.servedBy p i) : readEnded .runnerRead bs p =
    raiseRunnerFirst { st with bytes := bs } i (p.sector i).nextWrite (p.reread 0 0 fun _ => bs) := by
  show runnerReadDone bs p = _
  unfold runnerReadDone
  rw [hs]
  dsimp only
  rw [show (modStep (fun s => { s with bytes := bs }) p).rcu.owned = some i from owned]
  exact if_pos ((runnerKeeps_iff { st with bytes := bs } i _).2 keeps)

theorem runnerRead_takes (none_ : ∀ i, p.rcu.owned = some i → ¬ st.servedBy p i) : readEnded .runnerRead bs p =
    runnerTakes { st with bytes := bs } (p.handedBack.reread 0 0 fun _ => bs) := by
  have read : modStep (fun s => { s with bytes := bs }) p = p.reread 0 0 fun _ => bs := rfl
  show runnerReadDone bs p = _
  unfold runnerReadDone Part.handedBack
  rw [hs]
  dsimp only
  rw [read, show (p.reread 0 0 fun _ => bs).rcu.owned = p.rcu.owned from rfl]
  cases owned : p.rcu.owned with
  | none => rfl
  | some i =>
    dsimp only
    rw [giveUp_reread]
    exact if_neg fun h => none_ i owned ((runnerKeeps_iff { st with bytes := bs } i _).1 h)

theorem handedBack_step : p.handedBack.rcu.step = some st := (handedBack_spaced p).rcuStep.trans hs

theorem runnerTakes_taken {z j : Nat} {r : Part} (zone : st.zone = z) (h : takeForRunner z p.handedBack = (some j, r)) :
    runnerTakes { st with bytes := bs } (p.handedBack.reread 0 0 fun _ => bs) =
      raiseRunnerFirst { st with bytes := bs } j (r.sector j).nextWrite (r.reread 0 0 fun _ => bs) ∧ r.rcu.step = some st := by
  subst zone
  have step := takeForRunner_step st.zone p.handedBack
  rw [h, handedBack_step hs] at step
  refine ⟨?_, step⟩
  unfold runnerTakes
  dsimp only
  rw [takeForRunner_reread, h]
  rfl

omit hs in
theorem runnerTakes_none {r : Part} (h : takeForRunner st.zone p.handedBack = (none, r)) :
    runnerTakes { st with bytes := bs } (p.handedBack.reread 0 0 fun _ => bs) =
      stepNoSpace { st with bytes := bs } (p.handedBack.reread 0 0 fun _ => bs) := by
  unfold runnerTakes
  dsimp only
  rw [takeForRunner_reread, h, takeForRunner_none h]

omit hs in
/-- R129: with a sector in hand the first stage is raised there. -/
theorem first_begun {i : Nat} {r : Part} (step : r.rcu.step = some st) :
    let q := raiseRunnerFirst { st with bytes := bs } i (r.sector i).nextWrite (r.reread 0 0 fun _ => bs)
    Raised .runnerFirst .program st.level (.bytes i (r.sector i).nextWrite (relocatedStage bs st.elem.copy)) r q ∧
      q.rcu.step = some { st with bytes := bs, phase := .firstStage, newSector := i, newOffset := (r.sector i).nextWrite } := by
  have read : (r.reread 0 0 fun _ => bs).rcu.step = some { st with bytes := bs } := by
    rw [reread_step, step]
    rfl
  exact raiseRunnerFirst_begins (st := { st with bytes := bs }) read i (r.sector i).nextWrite

/-! ### No room (R130) -/

/-- R130: an evacuation step without room sets the hold of its zone. -/
theorem runnerTakes_holds {r : Part} (h : takeForRunner st.zone p.handedBack = (none, r)) (kind : st.kind = .evacuation) :
    let ended := runnerTakes { st with bytes := bs } (p.handedBack.reread 0 0 fun _ => bs)
    ended.rcu.hold = some st.zone ∧ ended.rcu.step = none := by
  have step : (p.handedBack.reread 0 0 fun _ => bs).rcu.step = some { st with bytes := bs } := by
    rw [reread_step, handedBack_step hs]
    rfl
  obtain ⟨none_, -, -⟩ := endStep_runner step false
  intro ended
  have ends : ended = stepNoSpace { st with bytes := bs } (p.handedBack.reread 0 0 fun _ => bs) := runnerTakes_none bs h
  rw [ends]
  unfold stepNoSpace
  dsimp only
  rw [kind]
  exact ⟨rfl, none_⟩

/-- R130, R134: a COMPACT's ends it with NO_SPACE. -/
theorem runnerTakes_noSpace {r : Part} {j : Job} {e : Entry} (h : takeForRunner st.zone p.handedBack = (none, r))
    (kind : st.kind = .compact) (hj : p.rcu.job = some j) (own : st.job = some j.age) (he : p.queueEntry j.age = some e) :
    let ended := runnerTakes { st with bytes := bs } (p.handedBack.reread 0 0 fun _ => bs)
    ended.rcu.job = none ∧ ended.rcu.step = none ∧
      ended.link.replies = (endedPart e .noSpace j.notes (be 1 j.zone ++ be 1 j.emptied) p).link.replies := by
  have step : (p.handedBack.reread 0 0 fun _ => bs).rcu.step = some { st with bytes := bs } := by
    rw [reread_step, handedBack_step hs]
    rfl
  have spaced := handedBack_spaced p
  obtain ⟨none_, job, -⟩ := endStep_runner step false
  have ⟨rqs, replies, held, _⟩ := endStep_unclosed step
  intro ended
  have ends : ended = stepNoSpace { st with bytes := bs } (p.handedBack.reread 0 0 fun _ => bs) := runnerTakes_none bs h
  have job' : (endStep false (p.handedBack.reread 0 0 fun _ => bs)).rcu.job = some j := job.trans (spaced.job.trans hj)
  have entry : (endStep false (p.handedBack.reread 0 0 fun _ => bs)).queueEntry j.age = some e :=
    (queueEntry_of_rqs (rqs.trans spaced.rqs) j.age).trans he
  have done : ended = endJob .noSpace (endStep false (p.handedBack.reread 0 0 fun _ => bs)) := by
    rw [ends]
    unfold stepNoSpace
    dsimp only
    rw [kind, job']
    exact if_pos own
  rw [done, endJob_eq job' entry]
  refine ⟨rfl, none_, ?_⟩
  unfold endedPart
  dsimp only
  rw [replies, held, show (p.handedBack.reread 0 0 fun _ => bs).link = p.handedBack.link from rfl, spaced.replies, spaced.held]

end

/-! ### The data programs and the close (R129) -/

/-- R129: the next data program, or the close of the new copy. -/
theorem raiseRunnerNext_raised {st : Step} (hs : p.rcu.step = some st) :
    (st.sent < st.elem.length → Raised .runnerData .program st.level (.bytes st.newSector (st.newOffset + 32 + st.sent)
      (slice st.bytes (32 + st.sent) (min 256 (st.elem.length - st.sent)))) p (raiseRunnerNext p)) ∧
    (st.elem.length ≤ st.sent → Raised .runnerClose .mark st.level (.bytes st.newSector (st.newOffset + 16)
      (be 3 st.elem.length ++ slice st.bytes 19 4)) p (raiseRunnerNext p)) := by
  unfold raiseRunnerNext
  rw [hs]
  dsimp only
  refine ⟨fun more => ?_, fun done => ?_⟩
  · rw [if_pos more]; exact raise_raised ..
  · rw [if_neg (Nat.not_lt.2 done)]; exact raise_raised ..

theorem runnerDataDone_raised {st : Step} (hs : p.rcu.step = some st) (n : Nat) :
    (st.sent + n < st.elem.length → Raised .runnerData .program st.level (.bytes st.newSector (st.newOffset + 32 + (st.sent + n))
      (slice st.bytes (32 + (st.sent + n)) (min 256 (st.elem.length - (st.sent + n))))) p (runnerDataDone n p)) ∧
    (st.elem.length ≤ st.sent + n → Raised .runnerClose .mark st.level (.bytes st.newSector (st.newOffset + 16)
      (be 3 st.elem.length ++ slice st.bytes 19 4)) p (runnerDataDone n p)) :=
  raiseRunnerNext_raised (p := modStep (fun s => { s with sent := s.sent + n }) p) (st := { st with sent := st.sent + n }) (by
    unfold modStep
    rw [hs]
    rfl)

/-! ### The close ends (R44, R48, R129) -/

theorem dropOwner_pee (i : Nat) (p : Part) : (dropOwner i p).pee = p.pee := by
  unfold dropOwner
  split
  · rw [modSector_pee, modCtx_pee]
  · rfl
  · rfl

/-- R46: while the step's copy is not counted its sector is not judged empty. -/
theorem judgeSector_uncounted {i : Nat} (h : copyUncounted i p = true) : (judgeSector i p).pee = p.pee := by
  unfold judgeSector
  dsimp only
  rw [h, Bool.not_true, Bool.and_false, if_neg Bool.false_ne_true]
  split
  · split <;> rfl
  · rfl

theorem sealSector_uncounted {i : Nat} (h : copyUncounted i p = true) : (sealSector i p).pee = p.pee := by
  have copy : copyUncounted i (modSector i (fun s => { s with state := .sealed }) (clearTail i (dropOwner i p))) = true := by
    rw [← h]
    unfold copyUncounted
    rw [show (modSector i (fun s => { s with state := .sealed }) (clearTail i (dropOwner i p))).rcu.step = p.rcu.step from
      dropOwner_step i p]
  exact (judgeSector_uncounted copy).trans (dropOwner_pee i p)

theorem sealIfSuspect_uncounted {i : Nat} (h : copyUncounted i p = true) : (sealIfSuspect i p).pee = p.pee := by
  unfold sealIfSuspect
  split
  · exact sealSector_uncounted h
  · rfl

section
variable {st : Step} (hs : p.rcu.step = some st)
include hs

theorem raiseDiscard_raises : raiseDiscard p = raise .runnerDiscard .mark st.level (.bytes st.elem.sector (st.elem.offset + 25) [0x00])
    (modStep (fun s => { s with phase := .discarding }) p) := by
  unfold raiseDiscard
  rw [hs]

theorem raiseDiscard_step : (raiseDiscard p).rcu.step = some { st with phase := .discarding } := by
  rw [raiseDiscard_raises hs, raise_rcu]
  unfold modStep
  rw [hs]
  rfl

/-- R129: the close of a new copy raises the DISCARDED mark of the old one. -/
theorem runnerCloseDone_raised :
    Raised .runnerDiscard .mark st.level (.bytes st.elem.sector (st.elem.offset + 25) [0x00]) p (runnerCloseDone p) := by
  generalize hm : advanceNextWrite st.newSector st.newOffset st.elem.length p = m
  have moved : m.rcu = p.rcu ∧ m.pee = p.pee := by
    rw [← hm]
    unfold advanceNextWrite
    split <;> exact ⟨rfl, rfl⟩
  have step : m.rcu.step = some st := by rw [moved.1]; exact hs
  have copy : copyUncounted st.newSector (raiseDiscard m) = true := by
    unfold copyUncounted
    rw [raiseDiscard_step step]
    simp
  have done : runnerCloseDone p = sealIfSuspect st.newSector (raiseDiscard m) := by
    unfold runnerCloseDone
    rw [hs, ← hm]
  have raised : Raised .runnerDiscard .mark st.level (.bytes st.elem.sector (st.elem.offset + 25) [0x00]) m (raiseDiscard m) := by
    rw [raiseDiscard_raises step]
    exact raise_raised ..
  unfold Raised at raised ⊢
  rw [done, sealIfSuspect_uncounted copy, raised, moved.2]

/-- R44, R48: the close moves the sector's next-write offset, and seals it when it is suspect. -/
theorem runnerCloseDone_sector (inside : st.newSector < p.smp.sectors.length) (owned : (p.sector st.newSector).state = .owned) :
    let t := (runnerCloseDone p).sector st.newSector
    t.nextWrite = st.newOffset + roundUp4 (32 + st.elem.length) ∧
    ((p.sector st.newSector).suspect = false → t.state = .owned ∧ t.owner = (p.sector st.newSector).owner) ∧
    ((p.sector st.newSector).suspect = true → t.state = .sealed ∧ t.owner = none) := by
  have moved : advanceNextWrite st.newSector st.newOffset st.elem.length p =
      modSector st.newSector (fun s => { s with nextWrite := st.newOffset + roundUp4 (32 + st.elem.length) }) p := if_pos owned
  have done : runnerCloseDone p = sealIfSuspect st.newSector (raiseDiscard
      (modSector st.newSector (fun s => { s with nextWrite := st.newOffset + roundUp4 (32 + st.elem.length) }) p)) := by
    unfold runnerCloseDone
    rw [hs]
    dsimp only
    rw [moved]
  generalize hm : modSector st.newSector (fun s => { s with nextWrite := st.newOffset + roundUp4 (32 + st.elem.length) }) p = m at done
  have step : m.rcu.step = some st := by rw [← hm]; exact hs
  have copy : copyUncounted st.newSector (raiseDiscard m) = true := by
    unfold copyUncounted
    rw [raiseDiscard_step step]
    simp
  have smp : (raiseDiscard m).smp = m.smp := by
    rw [raiseDiscard_raises step, raise_smp]
    rfl
  have sector : (raiseDiscard m).sector st.newSector =
      { p.sector st.newSector with nextWrite := st.newOffset + roundUp4 (32 + st.elem.length) } := by
    rw [sector_of_smp smp, ← hm]
    exact sector_modSector_self inside _
  have inside' : st.newSector < (raiseDiscard m).smp.sectors.length := by
    rw [smp, ← hm, modSector_length]
    exact inside
  intro t
  have taken : t = (sealIfSuspect st.newSector (raiseDiscard m)).sector st.newSector := congrArg (fun r : Part => r.sector st.newSector) done
  cases suspect : (p.sector st.newSector).suspect with
  | false =>
    have kept : sealIfSuspect st.newSector (raiseDiscard m) = raiseDiscard m := by
      refine if_neg fun h => ?_
      rw [sector, suspect] at h
      exact absurd h.2 Bool.false_ne_true
    rw [taken, kept, sector]
    exact ⟨rfl, fun _ => ⟨owned, rfl⟩, nofun⟩
  | true =>
    have sealed : sealIfSuspect st.newSector (raiseDiscard m) = sealSector st.newSector (raiseDiscard m) := by
      refine if_pos ?_
      rw [sector]
      exact ⟨owned, suspect⟩
    rw [taken, sealed, sealSector_sector inside', if_pos rfl, copy, sector]
    exact ⟨rfl, nofun, fun _ => ⟨by rw [Bool.not_true, Bool.and_false]; rfl, rfl⟩⟩

end

/-! ### The COMPACT's record and the queue -/

/-- R134: of the runner a COMPACT's end changes the job. -/
theorem endJob_rcu (st : Status) (p : Part) : ∃ j, (endJob st p).rcu = { p.rcu with job := j } := by
  unfold endJob
  split
  · rename_i j hj
    cases he : Part.queueEntry { p with rcu := { p.rcu with job := none } } j.age with
    | none => rw [completeEntry_absent he]; exact ⟨none, rfl⟩
    | some e => rw [completeEntry_eq he]; exact ⟨none, rfl⟩
  · exact ⟨p.rcu.job, rfl⟩

theorem jobBoundary_rcu (st : Step) (p : Part) : ∃ j, (jobBoundary st p).rcu = { p.rcu with job := j } := by
  by_cases own : ∃ j, p.rcu.job = some j ∧ st.job = some j.age
  · obtain ⟨j, hj, hs⟩ := own
    rw [jobBoundary_own hj hs]
    have ends (status : Status) : ∃ k, (endJob status (withJob (j.atBoundary p) p)).rcu = { p.rcu with job := k } := endJob_rcu ..
    dsimp only
    split
    · exact ends _
    · split
      · exact ends _
      · split
        · exact ends _
        · exact ⟨_, rfl⟩
  · rw [jobBoundary_other fun j hj hs => own ⟨j, hj, hs⟩]
    exact ⟨p.rcu.job, rfl⟩

theorem jobBoundary_runner (st : Step) (p : Part) :
    (jobBoundary st p).rcu.step = p.rcu.step ∧ (jobBoundary st p).rcu.lastKind = p.rcu.lastKind := by
  obtain ⟨j, h⟩ := jobBoundary_rcu st p
  rw [h]
  exact ⟨rfl, rfl⟩

theorem jobBoundary_sector (st : Step) (p : Part) (i : Nat) : (jobBoundary st p).sector i = p.sector i :=
  sector_of_smp (jobBoundary_kept st p).2.1 i

end Sys2Proof.Machine
end

