-- ==== Sys2Proof/Proofs/StepOutcomes.lean ====
section
/-! SUPPORT. The ends of the runner's step: with a failed operation (R131, R134, R156), and at the DISCARDED mark (R35, R51, R131). -/
namespace Sys2Proof.Machine

variable {p q : Part} {st : Step}

/-! ### A failed operation (R131) -/

/-- R131, R156: the COMPACT's record at a failed operation of its own step. -/
def Job.failed (j : Job) : Job := { j with failures := j.failures + 1, notes := j.notes ||| 0x08 }

/-- R131: the part at which a failed operation is noted and counted, and the runner's sector is suspect. -/
def blamed (st : Step) (p : Part) : Part :=
  countFailure st (makeSuspect st.newSector (some .runner) { p with rcu := { p.rcu with job := st.noted .mediaEvent p.rcu.job } })

theorem blamed_mapStep (st : Step) (p : Part) :
    MapStep { p with rcu := { p.rcu with job := st.noted .mediaEvent p.rcu.job } } (makeSuspect st.newSector (some .runner)
      { p with rcu := { p.rcu with job := st.noted .mediaEvent p.rcu.job } }) := makeSuspect_mapStep (.refl _) _ _

theorem blamed_job {j : Job} (hj : p.rcu.job = some j) (own : st.job = some j.age) : (blamed st p).rcu.job = some j.failed := by
  have job := (blamed_mapStep st p).job
  unfold blamed countFailure modJob
  dsimp only
  rw [job]
  dsimp only
  rw [hj]
  unfold Step.noted Job.failed withNote
  simp only [Option.map_some, own, if_true]
  rfl

theorem blamed_suspect (inside : st.newSector < p.smp.sectors.length) : ((blamed st p).sector st.newSector).suspect = true :=
  makeSuspect_suspect_any (p := { p with rcu := { p.rcu with job := st.noted .mediaEvent p.rcu.job } }) inside _

theorem stepFailed_blames (hs : p.rcu.step = some st) : stepFailed p = jobBoundary st (endStep false (blamed st p)) := stepFailed_eq hs

theorem blamed_step (hs : p.rcu.step = some st) : (blamed st p).rcu.step = some st := (blamed_mapStep st p).step.trans hs

theorem stepFailed_ends (hs : p.rcu.step = some st) : (stepFailed p).rcu.step = none ∧
    (st.newSector < p.smp.sectors.length → ((stepFailed p).sector st.newSector).suspect = true) ∧
    (stepFailed p).sdr.directory = p.sdr.directory.map (fun d => if d.slot = st.slot then { d with relocating := false } else d) := by
  have step := blamed_step hs
  have ⟨_, _, _, directory, _⟩ := endStep_unclosed step
  obtain ⟨none_, -, -⟩ := endStep_runner step false
  have sdr : (blamed st p).sdr = p.sdr := (blamed_mapStep st p).sdr
  rw [stepFailed_blames hs]
  refine ⟨(jobBoundary_runner st _).1.trans none_, fun inside => ?_, ?_⟩
  · rw [jobBoundary_sector]
    exact endStep_suspect step false (blamed_suspect inside)
  · rw [(jobBoundary_kept st _).1, directory, sdr]

/-- R131, R134, R156, R157: what a failed operation of a COMPACT's step makes of the COMPACT. -/
theorem stepFailed_job (hs : p.rcu.step = some st) {j : Job} {e : Entry} (hj : p.rcu.job = some j) (own : st.job = some j.age)
    (he : p.queueEntry j.age = some e) (mounted : p.mounted = true) (open_ : j.emptied < j.asked)
    (live : ∀ v, j.victim = some v → 0 < (p.sector v).live) :
    let q := stepFailed p
    let ends (status : Status) : Prop := q.rcu.job = none ∧
      q.link.replies = (endedPart e status (j.notes ||| 0x08) (be 1 j.zone ++ be 1 j.emptied) p).link.replies
    (2 ≤ j.failures → ends .mediaFault) ∧
    (j.failures < 2 → e.abortWaits = true → ends .aborted) ∧
    (j.failures < 2 → e.abortWaits = false →
      q.rcu.job = some { j with failures := j.failures + 1, notes := j.notes ||| 0x08 }) := by
  have step := blamed_step hs
  have g := blamed_mapStep st p
  have spaced := g.spaced
  have ⟨rqs, replies, held, _, counts⟩ := endStep_unclosed step
  obtain ⟨-, job, -⟩ := endStep_runner step false
  have mounted' : (blamed st p).mounted = true := spaced.mounted.trans mounted
  have job' : (endStep false (blamed st p)).rcu.job = some j.failed := job.trans (blamed_job hj own)
  have entry : (endStep false (blamed st p)).queueEntry j.failed.age = some e :=
    (queueEntry_of_rqs (rqs.trans g.rqs) j.age).trans he
  have live' (v : Nat) : ((endStep false (blamed st p)).sector v).live = (p.sector v).live :=
    (counts mounted' v).trans (g.counts v).2.2.1
  have replies' : (endStep false (blamed st p)).link.replies = p.link.replies := replies.trans spaced.replies
  have held' : (endStep false (blamed st p)).link.held = p.link.held := held.trans spaced.held
  have stands : j.failed.atBoundary (endStep false (blamed st p)) = j.failed := by
    refine if_neg fun h => ?_
    obtain ⟨v, hv, none_⟩ := (j.failed.victimEmptied_iff _).1 h
    rw [live'] at none_
    exact absurd none_ (live v hv).ne'
  have ends := jobBoundary_ends (st := st) job' own entry
  rw [stands, ← stepFailed_blames hs] at ends
  obtain ⟨-, third, abort, goes⟩ := ends
  have ended (status : Status) : (endedPart e status j.failed.notes (be 1 j.failed.zone ++ be 1 j.failed.emptied)
      { endStep false (blamed st p) with rcu := { (endStep false (blamed st p)).rcu with job := none } }).link.replies =
      (endedPart e status (j.notes ||| 0x08) (be 1 j.zone ++ be 1 j.emptied) p).link.replies := by
    unfold endedPart
    dsimp only
    rw [replies', held']
    rfl
  refine ⟨fun many => ?_, fun few waits => ?_, fun few none_ => ?_⟩
  · have e' := third open_ (Nat.succ_le_succ many)
    refine ⟨by rw [e']; rfl, ?_⟩
    rw [e']
    exact ended _
  · have e' := abort open_ (Nat.succ_lt_succ few) waits
    refine ⟨by rw [e']; rfl, ?_⟩
    rw [e']
    exact ended _
  · rw [goes open_ (Nat.succ_lt_succ few) none_]
    rfl

/-! ### The DISCARDED mark (R131) -/

/-- R131, R156: the part at which a failed attempt is noted and counted. -/
def recounted (st : Step) (p : Part) : Part :=
  { p with rcu := { p.rcu with step := some { st with attempts := st.attempts + 1 }, job := st.noted .retried p.rcu.job } }

theorem discard_again (hs : p.rcu.step = some st) (few : st.attempts + 1 < 3) : runnerDiscardDone false p = raiseDiscard (recounted st p) := by
  have counted : (modStep (fun s => { s with attempts := s.attempts + 1 }) p).rcu.step = some { st with attempts := st.attempts + 1 } := by
    unfold modStep
    rw [hs]
    rfl
  have noted : noteStepJob .retried (modStep (fun s => { s with attempts := s.attempts + 1 }) p) = recounted st p := by
    rw [noteStepJob_eq counted]
    unfold modStep recounted Step.noted
    rw [hs]
    rfl
  unfold runnerDiscardDone
  rw [hs]
  dsimp only
  rw [if_neg Bool.false_ne_true, noted]
  exact if_pos few

/-- R131, R156: a failed attempt that is not the third is made again, and counted. -/
theorem discard_retries (hs : p.rcu.step = some st) (few : st.attempts + 1 < 3) :
    let q := runnerDiscardDone false p
    Raised .runnerDiscard .mark st.level (.bytes st.elem.sector (st.elem.offset + 25) [0x00]) p q ∧
    q.rcu.step = some { st with phase := .discarding, attempts := st.attempts + 1 } ∧ q.sdr = p.sdr ∧ q.smp = p.smp ∧
    ∀ j, p.rcu.job = some j → q.rcu.job = some (if st.job = some j.age then { j with notes := j.notes ||| 0x04 } else j) := by
  have step : (recounted st p).rcu.step = some { st with attempts := st.attempts + 1 } := rfl
  have raises := raiseDiscard_raises step
  intro q
  have again : q = raiseDiscard (recounted st p) := discard_again hs few
  rw [again]
  refine ⟨?_, raiseDiscard_step step, ?_, ?_, fun j hj => ?_⟩
  · rw [raises]; exact raise_raised ..
  · rw [raises, raise_sdr]; rfl
  · rw [raises, raise_smp]; rfl
  · rw [raises, raise_rcu]
    show st.noted .retried p.rcu.job = _
    rw [hj]
    rfl

/-- R131: the part from which a step ends at its DISCARDED mark: the third failure has made the old copy's sector suspect. -/
def atDiscard (st : Step) (ok : Bool) (p : Part) : Part :=
  if ok then p else makeSuspect st.elem.sector none (noteStepJob .mediaEvent p)

theorem discard_ends (hs : p.rcu.step = some st) {ok : Bool} (last : ok = true ∨ 2 ≤ st.attempts) :
    runnerDiscardDone ok p = jobBoundary st (endStep true (atDiscard st ok p)) := runnerDiscardDone_closes hs last

/-- What the runner's end of a step reads of that part is what stands in `p`. -/
structure EndsAlike (p m : Part) : Prop where
  step    : m.rcu.step = p.rcu.step
  stop    : m.rcu.stopAtEnd = p.rcu.stopAtEnd
  sdr     : m.sdr = p.sdr
  mounted : m.mounted = p.mounted
  length  : m.smp.sectors.length = p.smp.sectors.length
  counts  : ∀ j, (m.sector j).live = (p.sector j).live ∧ (m.sector j).pending = (p.sector j).pending ∧
              (m.sector j).retiring = (p.sector j).retiring

theorem atDiscardalike (hs : p.rcu.step = some st) (ok : Bool) : EndsAlike p (atDiscard st ok p) := by
  unfold atDiscard
  split
  · exact ⟨rfl, rfl, rfl, rfl, rfl, fun _ => ⟨rfl, rfl, rfl⟩⟩
  · rw [noteStepJob_eq hs]
    have g := makeSuspect_mapStep (.refl { p with rcu := { p.rcu with job := st.noted .mediaEvent p.rcu.job } }) st.elem.sector none
    refine ⟨g.step, g.stop, g.sdr, g.spaced.mounted, g.length, fun j => ?_⟩
    obtain ⟨-, -, live, pending, retiring⟩ := g.counts j
    exact ⟨live, pending, retiring⟩

/-- R131, R156: the third failed discard makes the old copy's sector suspect, and the step ends as closed. -/
theorem discard_fails (hs : p.rcu.step = some st) (third : 2 ≤ st.attempts) :
    let q := runnerDiscardDone false p
    let ends (j : Option Job) : Prop := let m := makeSuspect st.elem.sector none { p with rcu := { p.rcu with job := j } }
      q = jobBoundary st (endStep true m) ∧ (endStep true m).rcu.job = j
    (st.elem.sector < p.smp.sectors.length → (q.sector st.elem.sector).suspect = true) ∧
    (p.rcu.job = none → ends none) ∧
    ∀ j, p.rcu.job = some j → ends (some (if st.job = some j.age then { j with notes := j.notes ||| 0x08 } else j)) := by
  have suspected : atDiscard st false p =
      makeSuspect st.elem.sector none { p with rcu := { p.rcu with job := st.noted .mediaEvent p.rcu.job } } := by
    unfold atDiscard
    rw [if_neg Bool.false_ne_true, noteStepJob_eq hs]
  have step : (atDiscard st false p).rcu.step = some st := (atDiscardalike hs false).step.trans hs
  have job (j : Option Job) : (makeSuspect st.elem.sector none { p with rcu := { p.rcu with job := j } }).rcu.job = j :=
    (makeSuspect_mapStep (.refl { p with rcu := { p.rcu with job := j } }) st.elem.sector none).job
  have stands (j : Option Job) : (makeSuspect st.elem.sector none { p with rcu := { p.rcu with job := j } }).rcu.step = some st :=
    (makeSuspect_mapStep (.refl { p with rcu := { p.rcu with job := j } }) st.elem.sector none).step.trans hs
  have ends (j : Option Job) (noted : st.noted .mediaEvent p.rcu.job = j) :
      runnerDiscardDone false p = jobBoundary st (endStep true (makeSuspect st.elem.sector none { p with rcu := { p.rcu with job := j } })) ∧
        (endStep true (makeSuspect st.elem.sector none { p with rcu := { p.rcu with job := j } })).rcu.job = j := by
    obtain ⟨-, job', -⟩ := endStep_runner (stands j) true
    refine ⟨?_, job'.trans (job j)⟩
    rw [discard_ends hs (.inr third), suspected, noted]
  refine ⟨fun inside => ?_, fun none_ => ends none (by rw [none_]; rfl), fun j hj => ends _ (by rw [hj]; rfl)⟩
  rw [discard_ends hs (.inr third), jobBoundary_sector]
  refine endStep_suspect step true ?_
  rw [suspected]
  exact makeSuspect_suspect_any (p := { p with rcu := { p.rcu with job := st.noted .mediaEvent p.rcu.job } }) inside _

/-! ### The directory and the bytes at the end of a closed step (R35, R51) -/

/-- What a closed step's end has made of the tables, as the raising of the deferred claim and the settling of the sector leave it. -/
theorem endStep_tables (hs : p.rcu.step = some st) : (endStep true p).sdr.directory = (unstepped st true p).sdr.directory ∧
    (p.mounted = true → ∀ j, ((endStep true p).sector j).live = ((unstepped st true p).sector j).live ∧
      ((endStep true p).sector j).pending = ((unstepped st true p).sector j).pending ∧
      ((∀ r, (unstepped st true p).retiringOf st.slot st.sequence = some r → r.deferred = false) →
        ((endStep true p).sector j).retiring = ((unstepped st true p).sector j).retiring)) := by
  obtain ⟨directory, counts⟩ := raiseDeferred_kept st true (unstepped st true p)
  obtain ⟨sdr, -, -, -, -, settled⟩ := settled_kept st (deferredRaised st true p)
  have mounts : (deferredRaised st true p).mounted = p.mounted := by
    unfold Part.mounted
    rw [(deferredRaised_aloof st true p).scu]
  rw [endStep_settles hs]
  refine ⟨(congrArg Sdr.directory sdr).trans directory, fun mounted j => ?_⟩
  obtain ⟨live, pending, retiring⟩ := settled (mounts.trans mounted) j
  refine ⟨live.trans (counts j).1, pending.trans (counts j).2, fun none_ => retiring.trans ?_⟩
  unfold deferredRaised
  rw [raiseDeferred_none none_]

/-- R35: a step of a generation that is no longer the slot's moves nothing. -/
theorem unstepped_dead (dead : ∀ d, p.entryOf st.slot = some d → d.sequence ≠ st.sequence) :
    unstepped st true p = modEntry st.slot (fun e => { e with relocating := false })
      { p with rcu := { p.rcu with step := none, lastKind := some st.kind } } := by
  unfold unstepped
  dsimp only
  rw [if_pos rfl, replaceElem_dead (p := { p with rcu := { p.rcu with step := none, lastKind := some st.kind } }) dead]

/-- R35, R51: one of the slot's own moves the element and its bytes. -/
theorem unstepped_live {d : DirEntry} (hd : p.entryOf st.slot = some d) (live : d.sequence = st.sequence) :
    (unstepped st true p).entryOf st.slot = some { st.onto d with relocating := false } ∧
    (st.newSector ≠ st.elem.sector → st.newSector < p.smp.sectors.length →
      ((unstepped st true p).sector st.newSector).live = (p.sector st.newSector).live + space st.elem.length ∧
      ((unstepped st true p).sector st.elem.sector).live = (p.sector st.elem.sector).live - space st.elem.length) := by
  generalize hb : ({ p with rcu := { p.rcu with step := none, lastKind := some st.kind } } : Part) = b
  have entry : b.entryOf st.slot = some d := by rw [← hb]; exact hd
  have sector (j : Nat) : b.sector j = p.sector j := by rw [← hb]; rfl
  have length : b.smp.sectors.length = p.smp.sectors.length := by rw [← hb]
  have ends : unstepped st true p = modEntry st.slot (fun e => { e with relocating := false }) (replaceElem st b) := by
    unfold unstepped
    dsimp only
    rw [if_pos rfl, hb]
  have served := reissueAtReplacement_servedStep (.refl (movedElem st b)) st.slot st.index
  have counts := movedElem_counts st b
  rw [ends, replaceElem_live entry live]
  refine ⟨entryOf_modEntry_self (f := fun e => { e with relocating := false }) (fun _ => rfl) ?_, fun apart inside => ?_⟩
  · have directory : (reissueAtReplacement st.slot st.index (movedElem st b)).sdr.directory = (modEntry st.slot st.onto b).sdr.directory := by
      have moved := congrArg Sdr.directory counts.sdr
      rw [served.sdr]
      exact moved
    rw [entryOf_of_directory directory]
    exact entryOf_modEntry_self (f := st.onto) (fun _ => rfl) entry
  · have moved (j : Nat) : ((modEntry st.slot (fun e => { e with relocating := false })
        (reissueAtReplacement st.slot st.index (movedElem st b))).sector j).live = ((movedElem st b).sector j).live :=
      congrArg Sector.live (served.sector j)
    have start (j : Nat) : (modEntry st.slot st.onto b).unqueued.sector j = p.sector j := sector j
    have size : (modEntry st.slot st.onto b).unqueued.smp.sectors.length = p.smp.sectors.length := length
    rw [moved, moved, (counts.counts _).2.2.1, (counts.counts _).2.2.1, recount_sector, recount_sector, start, start, size, if_pos inside]
    refine ⟨?_, ?_⟩
    · simp only [Sector.chg, thenAt, if_neg apart, if_true, same]
    · split
      · simp only [Sector.chg, thenAt, if_neg fun h => apart (Eq.symm h), if_true, same]
      · rename_i out
        rw [sector_of_length_le (Nat.le_of_not_lt out)]
        exact (Nat.zero_sub _).symm

theorem discard_runner (hs : p.rcu.step = some st) {ok : Bool} (last : ok = true ∨ 2 ≤ st.attempts) :
    (runnerDiscardDone ok p).rcu.step = none ∧
      (runnerDiscardDone ok p).rcu.lastKind = (if p.rcu.stopAtEnd = true then none else some st.kind) := by
  have alike := atDiscardalike hs ok
  obtain ⟨none_, -, kind⟩ := endStep_runner (alike.step.trans hs) true
  rw [discard_ends hs last]
  obtain ⟨step, lastKind⟩ := jobBoundary_runner st (endStep true (atDiscard st ok p))
  rw [alike.stop] at kind
  exact ⟨step.trans none_, lastKind.trans kind⟩

/-- R35: the end of a step whose generation is not the slot's. -/
theorem discard_dead (hs : p.rcu.step = some st) {ok : Bool} (last : ok = true ∨ 2 ≤ st.attempts)
    (dead : ∀ d, p.entryOf st.slot = some d → d.sequence ≠ st.sequence) :
    let q := runnerDiscardDone ok p
    q.sdr.directory = p.sdr.directory.map (fun d => if d.slot = st.slot then { d with relocating := false } else d) ∧
    (p.mounted = true → ∀ j, (q.sector j).live = (p.sector j).live ∧ (q.sector j).pending = (p.sector j).pending ∧
      ((∀ r, p.retiringOf st.slot st.sequence = some r → r.deferred = false) → (q.sector j).retiring = (p.sector j).retiring)) := by
  have alike := atDiscardalike hs ok
  have dead' : ∀ d, (atDiscard st ok p).entryOf st.slot = some d → d.sequence ≠ st.sequence := fun d hd =>
    dead d ((entryOf_of_directory (congrArg Sdr.directory alike.sdr) st.slot).symm.trans hd)
  obtain ⟨directory, counts⟩ := endStep_tables (alike.step.trans hs)
  rw [unstepped_dead dead'] at directory counts
  intro q
  have ends : q = jobBoundary st (endStep true (atDiscard st ok p)) := discard_ends hs last
  rw [ends]
  refine ⟨?_, fun mounted j => ?_⟩
  · rw [(jobBoundary_kept st _).1, directory, ← alike.sdr]
    rfl
  · obtain ⟨live, pending, retiring⟩ := counts (alike.mounted.trans mounted) j
    obtain ⟨live', pending', retiring'⟩ := alike.counts j
    rw [jobBoundary_sector]
    refine ⟨live.trans live', pending.trans pending', fun none_ => (retiring fun r hr => none_ r ?_).trans retiring'⟩
    exact (retiringOf_of_retiring (congrArg Sdr.retiring alike.sdr) st.slot st.sequence).symm.trans hr

/-- R35, R51: the end of a step of the slot's generation. -/
theorem discard_live (hs : p.rcu.step = some st) {ok : Bool} (last : ok = true ∨ 2 ≤ st.attempts) {d : DirEntry}
    (hd : p.entryOf st.slot = some d) (live : d.sequence = st.sequence) :
    let q := runnerDiscardDone ok p
    q.entryOf st.slot = some { st.onto d with relocating := false } ∧
    (p.mounted = true → st.newSector ≠ st.elem.sector → st.newSector < p.smp.sectors.length →
      (q.sector st.newSector).live = (p.sector st.newSector).live + space st.elem.length ∧
      (q.sector st.elem.sector).live = (p.sector st.elem.sector).live - space st.elem.length) := by
  have alike := atDiscardalike hs ok
  have hd' : (atDiscard st ok p).entryOf st.slot = some d := (entryOf_of_directory (congrArg Sdr.directory alike.sdr) st.slot).trans hd
  obtain ⟨directory, counts⟩ := endStep_tables (alike.step.trans hs)
  obtain ⟨entry, moved⟩ := unstepped_live hd' live
  intro q
  have ends : q = jobBoundary st (endStep true (atDiscard st ok p)) := discard_ends hs last
  rw [ends]
  refine ⟨?_, fun mounted apart inside => ?_⟩
  · rw [entryOf_of_directory ((congrArg Sdr.directory (jobBoundary_kept st _).1).trans directory)]
    exact entry
  · have counts' := counts (alike.mounted.trans mounted)
    obtain ⟨gains, loses⟩ := moved apart (alike.length.symm ▸ inside)
    rw [jobBoundary_sector, jobBoundary_sector, (counts' _).1, (counts' _).1, gains, loses, (alike.counts _).1, (alike.counts _).1]
    exact ⟨rfl, rfl⟩

end Sys2Proof.Machine
end

