-- ==== Sys2Proof/Proofs/Hold.lean ====
section
/-! SUPPORT. The evacuation hold of a zone (R130): what may lift it, and that nothing frees a sector of the zone, returns its spare or
lowers its reservation without lifting it. -/
namespace Sys2Proof.Machine

variable {z : Nat} {p q : Part}

/-! ### The spare of a zone and its reservation -/

/-- R53: a zone's spare is IN USE. -/
def spareOf (z : Nat) (p : Part) : Option Bool := (p.zone z).map (·.spareInUse)

theorem spareOf_of_zones (h : q.smp.zones = p.smp.zones) : spareOf z q = spareOf z p := by
  unfold spareOf Part.zone
  rw [h]

theorem spareOf_map {f : Zone → Zone} (hf : ∀ r, (f r).spareInUse = r.spareInUse) (h : q.smp.zones = p.smp.zones.map f) :
    spareOf z q = spareOf z p := by
  unfold spareOf Part.zone
  rw [h, List.getElem?_map, Option.map_map]
  congr 1
  funext r
  exact hf r

theorem spareOf_modZone {y : Nat} {f : Zone → Zone} (hf : y = z → ∀ r, (f r).spareInUse = r.spareInUse) :
    spareOf z (modZone y f p) = spareOf z p := by
  unfold spareOf
  rw [modZone_zone]
  split
  · rename_i h
    rw [Option.map_map]
    congr 1
    funext r
    exact hf h r
  · rfl

theorem reserved_eq (h : ∀ c, reservedBy z (q.ctx c) = reservedBy z (p.ctx c)) : reserved z q = reserved z p :=
  congrArg₂ (· + ·) (h .c0) (h .c1)

theorem reserved_mono (h : ∀ c, reservedBy z (p.ctx c) ≤ reservedBy z (q.ctx c)) : reserved z p ≤ reserved z q :=
  Nat.add_le_add (h .c0) (h .c1)

theorem reservedBy_none {k : WriteCtx} (h : k.reservation = 0 ∨ k.zone ≠ z) : reservedBy z k = 0 := by
  unfold reservedBy
  rcases h with h | h
  · rw [h, ite_self]
  · rw [if_neg fun x => h (of_decide_eq_true (Bool.and_eq_true_iff.1 x).2)]

theorem liftHold_hold (y : Nat) (p : Part) : (liftHold y p).rcu.hold = if p.rcu.hold = some y then none else p.rcu.hold := by
  unfold liftHold
  split <;> rfl

/-- A sector keeps its zone, and is not FREE where it was not. -/
def NotFreed (p q : Part) (j : Nat) : Prop :=
  (q.sector j).zone = (p.sector j).zone ∧ ((q.sector j).state = .free → (p.sector j).state = .free)

theorem NotFreed.refl (p : Part) (j : Nat) : NotFreed p p j := ⟨rfl, id⟩

theorem NotFreed.of_eq {j : Nat} (h : q.sector j = p.sector j) : NotFreed p q j := by
  unfold NotFreed
  rw [h]
  exact ⟨rfl, id⟩

theorem countP_mono {α β : Type} {f : α → Bool} {g : β → Bool} {l : List α} {m : List β} (length : l.length = m.length)
    (h : ∀ (i : Nat) a b, l[i]? = some a → m[i]? = some b → f a = true → g b = true) : l.countP f ≤ m.countP g := by
  induction l generalizing m with
  | nil => exact Nat.zero_le _
  | cons a l ih =>
    cases m with
    | nil => cases length
    | cons b m =>
      have rest := ih (Nat.succ.inj length) fun i x y hx hy => h (i + 1) x y hx hy
      have head := h 0 a b rfl rfl
      rw [List.countP_cons, List.countP_cons]
      refine Nat.add_le_add rest ?_
      split
      · rename_i fa
        rw [if_pos (head fa)]
      · exact Nat.zero_le _

/-- The FREE count of a zone does not rise while no sector of it is freed. -/
theorem countFree_le (length : q.smp.sectors.length = p.smp.sectors.length)
    (sector : ∀ j, (q.sector j).zone = (p.sector j).zone ∧
      ((p.sector j).zone = z → (q.sector j).state = .free → (p.sector j).state = .free)) :
    countState z .free q ≤ countState z .free p := by
  refine countP_mono length fun j s t hs ht free => ?_
  obtain ⟨here, state⟩ := Bool.and_eq_true_iff.1 free
  obtain ⟨zone, kept⟩ := sector j
  rw [sector_of_getElem? hs, sector_of_getElem? ht] at zone kept
  have here' : t.zone = z := zone.symm.trans (of_decide_eq_true here)
  exact Bool.and_eq_true_iff.2 ⟨decide_eq_true here', decide_eq_true (kept here' (of_decide_eq_true state))⟩

/-! ### Operations that lift the hold for the spare alone -/

/-- `q` may follow `p` by operations that seal, give up, judge or make suspect: the hold of zone `z` stands with its spare as it was, or
the spare has returned and the hold does not stand. -/
structure SpareStep (z : Nat) (p q : Part) : Prop where
  length   : q.smp.sectors.length = p.smp.sectors.length
  sector   : ∀ j, NotFreed p q j
  reserved : ∀ c, reservedBy z (q.ctx c) = reservedBy z (p.ctx c)
  hold     : q.rcu.hold = p.rcu.hold ∨ q.rcu.hold = none
  turns    : ((q.rcu.hold = some z ↔ p.rcu.hold = some z) ∧ spareOf z q = spareOf z p) ∨
               (q.rcu.hold ≠ some z ∧ spareOf z p = some true ∧ spareOf z q = some false)

theorem SpareStep.still (length : q.smp.sectors.length = p.smp.sectors.length) (sector : ∀ j, NotFreed p q j)
    (reserved : ∀ c, reservedBy z (q.ctx c) = reservedBy z (p.ctx c)) (hold : q.rcu.hold = p.rcu.hold)
    (spare : spareOf z q = spareOf z p) : SpareStep z p q :=
  ⟨length, sector, reserved, .inl hold, .inl ⟨by rw [hold], spare⟩⟩

theorem SpareStep.refl (p : Part) : SpareStep z p p := .still rfl (NotFreed.refl p) (fun _ => rfl) rfl rfl

theorem SpareStep.trans {r : Part} (h : SpareStep z p q) (g : SpareStep z q r) : SpareStep z p r where
  length := g.length.trans h.length
  sector := fun j => ⟨(g.sector j).1.trans (h.sector j).1, fun x => (h.sector j).2 ((g.sector j).2 x)⟩
  reserved := fun c => (g.reserved c).trans (h.reserved c)
  hold := g.hold.elim (fun e => h.hold.imp e.trans e.trans) .inr
  turns := by
    rcases h.turns with ⟨stands, spare⟩ | ⟨lifted, away, back⟩
    · rcases g.turns with ⟨stands', spare'⟩ | ⟨lifted', away', back'⟩
      · exact .inl ⟨stands'.trans stands, spare'.trans spare⟩
      · exact .inr ⟨lifted', spare.symm.trans away', back'⟩
    · rcases g.turns with ⟨stands', spare'⟩ | ⟨-, away', -⟩
      · exact .inr ⟨fun x => lifted (stands'.1 x), away, spare'.trans back⟩
      · rw [back] at away'
        cases away'

/-- A change of other blocks and of other fields of the runner. -/
theorem SpareStep.same (h : SpareStep z p q) {r : Part} (smp : r.smp = q.smp := by rfl) (wcu : r.wcu = q.wcu := by rfl)
    (hold : r.rcu.hold = q.rcu.hold := by rfl) : SpareStep z p r :=
  h.trans (.still (by rw [smp]) (fun j => .of_eq (sector_of_smp smp j)) (fun c => by rw [ctx_of_wcu wcu c]) hold
    (spareOf_of_zones (congrArg Smp.zones smp)))

theorem modSector_spareStep (h : SpareStep z p q) (i : Nat) (f : Sector → Sector)
    (hf : ∀ s, (f s).zone = s.zone ∧ ((f s).state = .free → s.state = .free)) : SpareStep z p (modSector i f q) := by
  refine h.trans (.still (modSector_length ..) (fun j => ?_) (fun _ => rfl) rfl rfl)
  unfold NotFreed
  rw [sector_modSector]
  split
  · exact hf _
  · exact ⟨rfl, id⟩

theorem modCtx_spareStep (h : SpareStep z p q) (c : CtxId) (f : WriteCtx → WriteCtx) (hf : ∀ k, reservedBy z (f k) = reservedBy z k) :
    SpareStep z p (modCtx c f q) := by
  refine h.trans (.still (by rw [modCtx_smp]) (fun j => .of_eq (modCtx_sector ..)) (fun d => ?_) (by rw [modCtx_rcu])
    (spareOf_of_zones (by rw [modCtx_smp])))
  by_cases hd : d = c
  · subst hd
    rw [modCtx_ctx, hf]
  · rw [modCtx_ctx_other hd]

theorem modZone_spareStep (h : SpareStep z p q) (y : Nat) (f : Zone → Zone) (hf : ∀ r, (f r).spareInUse = r.spareInUse) :
    SpareStep z p (modZone y f q) :=
  h.trans (.still rfl (fun _ => .of_eq rfl) (fun _ => rfl) rfl (spareOf_modZone fun _ => hf))

theorem returnSpare_spareStep (h : SpareStep z p q) (y : Nat) : SpareStep z p (returnSpare y q) := by
  refine h.trans ?_
  unfold returnSpare
  split
  · rename_i due
    generalize hm : modZone y (fun r => { r with spareInUse := false }) q = m
    have hold : m.rcu.hold = q.rcu.hold := by rw [← hm]; rfl
    have lifted : (liftHold y m).rcu.hold = if q.rcu.hold = some y then none else q.rcu.hold := by rw [liftHold_hold, hold]
    have spare : spareOf z (liftHold y m) = spareOf z m := spareOf_of_zones (by rw [liftHold_smp])
    refine ⟨by rw [liftHold_smp, ← hm]; rfl, fun j => .of_eq ?_, fun c => ?_, ?_, ?_⟩
    · rw [sector_of_smp (liftHold_smp ..), ← hm]; rfl
    · rw [liftHold_ctx, ← hm]; rfl
    · rw [lifted]
      split
      · exact .inr rfl
      · exact .inl rfl
    · rw [lifted, spare]
      by_cases here : y = z
      · subst here
        obtain ⟨r, hr, inUse⟩ : ∃ r, q.zone y = some r ∧ r.spareInUse = true := by
          unfold spareDue at due
          split at due
          · exact ⟨_, ‹_›, (Bool.and_eq_true_iff.1 due).1⟩
          · cases due
        refine .inr ⟨?_, by unfold spareOf; rw [hr, Option.map_some, inUse], ?_⟩
        · split
          · exact nofun
          · assumption
        · unfold spareOf
          rw [← hm, modZone_zone, if_pos rfl, hr]
          rfl
      · refine .inl ⟨?_, by rw [← hm]; exact spareOf_modZone fun x => absurd x here⟩
        split
        · rename_i held
          rw [held]
          exact ⟨nofun, fun x => absurd (Option.some.inj x) here⟩
        · exact Iff.rfl
  · exact .refl q

theorem judgeSector_spareStep (h : SpareStep z p q) (i : Nat) : SpareStep z p (judgeSector i q) := by
  have stale : SpareStep z p (q.staleAt i) :=
    (modSector_spareStep h i (fun s => { s with state := .stale }) fun _ => ⟨rfl, nofun⟩).same
  unfold judgeSector
  dsimp only
  split
  · split
    · rw [becomeStale_eq]
      refine returnSpare_spareStep ?_ _
      split
      · obtain ⟨l, b, e⟩ := joinErase_rcu i (q.staleAt i)
        exact stale.same (joinErase_smp ..) (joinErase_wcu ..) (by rw [e])
      · exact stale
    · split
      · exact h.same
      · exact h
  · exact h

theorem dropOwner_spareStep (h : SpareStep z p q) (i : Nat) : SpareStep z p (dropOwner i q) := by
  unfold dropOwner
  refine modSector_spareStep ?_ i _ fun _ => ⟨rfl, id⟩
  split
  · exact modCtx_spareStep h _ _ fun _ => rfl
  · exact h.same
  · exact h

theorem clearTail_spareStep (h : SpareStep z p q) (i : Nat) : SpareStep z p (clearTail i q) :=
  h.trans (.still rfl (fun _ => .of_eq rfl) (fun _ => rfl) rfl
    (spareOf_map (f := fun z => if z.tail = some i then { z with tail := none } else z) (fun r => by split <;> rfl) rfl))

theorem sealSector_spareStep (h : SpareStep z p q) (i : Nat) : SpareStep z p (sealSector i q) :=
  judgeSector_spareStep (modSector_spareStep (clearTail_spareStep (dropOwner_spareStep h i) i) i (fun s => { s with state := .sealed })
    fun _ => ⟨rfl, nofun⟩) i

theorem giveUp_spareStep (h : SpareStep z p q) (i : Nat) : SpareStep z p (giveUp i q) := by
  have dropped := dropOwner_spareStep h i
  have tailed (y : Nat) {m : Part} (g : SpareStep z p m) : SpareStep z p (modZone y (fun z => { z with tail := some i })
      (modSector i (fun s => { s with state := .tail }) m)) :=
    modZone_spareStep (modSector_spareStep g i (fun s => { s with state := .tail }) fun _ => ⟨rfl, nofun⟩) y _ fun _ => rfl
  unfold giveUp
  dsimp only
  split
  · exact modSector_spareStep dropped i _ fun _ => ⟨rfl, nofun⟩
  · split
    · split
      · split
        · exact tailed _ dropped
        · split
          · exact tailed _ (sealSector_spareStep dropped _)
          · exact sealSector_spareStep dropped i
      · exact sealSector_spareStep dropped i
    · exact sealSector_spareStep dropped i

theorem raise_spareStep (h : SpareStep z p q) (u : Purpose) (k : OpKind) (l : Nat) (t : Target) : SpareStep z p (raise u k l t q) :=
  h.same (raise_smp ..) (raise_wcu ..) (by rw [raise_rcu])

theorem makeSuspect_spareStep (h : SpareStep z p q) (i : Nat) (o : Option Holder) : SpareStep z p (makeSuspect i o q) := by
  have marked : SpareStep z p (markSuspect i q) := by
    unfold markSuspect
    dsimp only
    split
    · exact h.same
    · exact raise_spareStep (modSector_spareStep (q := setCond .media q) h.same i (fun s => { s with suspect := true })
        fun _ => ⟨rfl, id⟩) ..
  unfold makeSuspect
  split
  · exact sealSector_spareStep (modSector_spareStep marked i (fun s => { s with nextWrite := Config.sectorSize }) fun _ => ⟨rfl, id⟩) i
  · unfold settleSuspect
    split
    · exact sealSector_spareStep marked i
    · exact sealSector_spareStep marked i
    · split
      · exact marked
      · exact sealSector_spareStep marked i
    all_goals exact judgeSector_spareStep marked i

/-- R130: of these operations the spare's return, and nothing else, lifts the hold. -/
theorem SpareStep.lifts_iff (h : SpareStep z p q) (held : p.rcu.hold = some z) :
    (Relieved z p q → q.rcu.hold = none) ∧ (¬ Relieved z p q → q.rcu.hold = some z) := by
  have free : countState z .free q ≤ countState z .free p :=
    countFree_le h.length fun j => ⟨(h.sector j).1, fun _ => (h.sector j).2⟩
  have reserve := reserved_eq h.reserved
  rcases h.turns with ⟨stands, spare⟩ | ⟨lifted, away, back⟩
  · refine ⟨fun relieved => ?_, fun _ => stands.2 held⟩
    rcases relieved with more | fewer | ⟨away, back⟩
    · omega
    · omega
    · exact absurd (away.symm.trans (spare.symm.trans back)) (by decide)
  · refine ⟨fun _ => h.hold.resolve_left fun e => lifted (e.trans held), fun none_ => absurd ?_ none_⟩
    exact .inr (.inr ⟨away, back⟩)

/-! ### Operations that may lift it otherwise -/

/-- `q` may follow `p` by operations that lift the hold of zone `z` when they free a sector of it, return its spare or lower its
reservation. -/
structure HoldStep (z : Nat) (p q : Part) : Prop where
  length : q.smp.sectors.length = p.smp.sectors.length
  zone   : ∀ j, (q.sector j).zone = (p.sector j).zone
  hold   : q.rcu.hold = p.rcu.hold ∨ q.rcu.hold = none
  stands : q.rcu.hold = some z →
             (∀ j, (p.sector j).zone = z → (q.sector j).state = .free → (p.sector j).state = .free) ∧
             reserved z p ≤ reserved z q ∧ (spareOf z p = some true → spareOf z q = some true)

theorem SpareStep.holdStep (h : SpareStep z p q) : HoldStep z p q where
  length := h.length
  zone := fun j => (h.sector j).1
  hold := h.hold
  stands := fun stands => by
    refine ⟨fun j _ => (h.sector j).2, (reserved_eq h.reserved).ge, fun away => ?_⟩
    rcases h.turns with ⟨-, spare⟩ | ⟨lifted, -, -⟩
    · exact spare.trans away
    · exact absurd stands lifted

theorem HoldStep.refl (p : Part) : HoldStep z p p := (SpareStep.refl p).holdStep

theorem HoldStep.trans {r : Part} (h : HoldStep z p q) (g : HoldStep z q r) : HoldStep z p r where
  length := g.length.trans h.length
  zone := fun j => (g.zone j).trans (h.zone j)
  hold := g.hold.elim (fun e => h.hold.imp e.trans e.trans) .inr
  stands := fun stands => by
    have before : q.rcu.hold = some z := g.hold.elim (fun e => e.symm.trans stands) fun e => absurd (e.symm.trans stands) nofun
    obtain ⟨free, reserve, spare⟩ := h.stands before
    obtain ⟨free', reserve', spare'⟩ := g.stands stands
    exact ⟨fun j here x => free j here (free' j ((h.zone j).trans here) x), reserve.trans reserve',
      fun away => spare' (spare away)⟩

theorem HoldStep.lifts (h : HoldStep z p q) (held : p.rcu.hold = some z) (relieved : Relieved z p q) : q.rcu.hold = none := by
  refine h.hold.resolve_left fun e => ?_
  obtain ⟨free, reserve, spare⟩ := h.stands (e.trans held)
  have count : countState z .free q ≤ countState z .free p := countFree_le h.length fun j => ⟨h.zone j, free j⟩
  rcases relieved with more | fewer | ⟨away, back⟩
  · omega
  · omega
  · exact absurd ((spare away).symm.trans back) (by decide)

theorem HoldStep.spare (h : HoldStep z p q) {r : Part} (g : SpareStep z q r) : HoldStep z p r := h.trans g.holdStep

theorem HoldStep.same (h : HoldStep z p q) {r : Part} (smp : r.smp = q.smp := by rfl) (wcu : r.wcu = q.wcu := by rfl)
    (hold : r.rcu.hold = q.rcu.hold := by rfl) : HoldStep z p r := h.spare ((SpareStep.refl q).same smp wcu hold)

theorem foldl_holdStep {α : Type} {F : Part → α → Part} (hF : ∀ q x, HoldStep z q (F q x)) (l : List α) (p : Part) :
    HoldStep z p (l.foldl F p) := by
  induction l generalizing p with
  | nil => exact .refl p
  | cons x l ih => exact (hF p x).trans (ih _)

theorem modCtx_holdStep (c : CtxId) (f : WriteCtx → WriteCtx) (hf : reservedBy z (p.ctx c) ≤ reservedBy z (f (p.ctx c))) :
    HoldStep z p (modCtx c f p) where
  length := by rw [modCtx_smp]
  zone := fun j => by rw [modCtx_sector]
  hold := .inl (by rw [modCtx_rcu])
  stands := fun _ => by
    refine ⟨fun j _ => by rw [modCtx_sector]; exact id, reserved_mono fun d => ?_, fun away => (spareOf_of_zones (by rw [modCtx_smp])).trans away⟩
    by_cases hd : d = c
    · subst hd
      rw [modCtx_ctx]
      exact hf
    · rw [modCtx_ctx_other hd]

/-- R53, R55: what a context gives back of its reservation lifts the hold of its zone. -/
theorem HoldStep.gives {c : CtxId} {m : Part} (h : HoldStep z p m) (f : WriteCtx → WriteCtx) :
    HoldStep z p (if 1 ≤ (m.ctx c).reservation then liftHold (m.ctx c).zone (modCtx c f m) else modCtx c f m) := by
  refine h.trans ?_
  by_cases has : 1 ≤ (m.ctx c).reservation
  · rw [if_pos has]
    have lifted : (liftHold (m.ctx c).zone (modCtx c f m)).rcu.hold =
        if m.rcu.hold = some (m.ctx c).zone then none else m.rcu.hold := by rw [liftHold_hold, modCtx_rcu]
    refine ⟨by rw [liftHold_smp, modCtx_smp], fun j => ?_, ?_, fun stands => ⟨fun j _ => ?_, reserved_mono fun d => ?_, fun away => ?_⟩⟩
    · rw [sector_of_smp (liftHold_smp ..), modCtx_sector]
    · rw [lifted]
      split
      · exact .inr rfl
      · exact .inl rfl
    · rw [sector_of_smp (liftHold_smp ..), modCtx_sector]
      exact id
    · rw [liftHold_ctx]
      by_cases hd : d = c
      · subst hd
        refine (reservedBy_none (.inr fun here => ?_)).le.trans (Nat.zero_le _)
        rw [lifted, here] at stands
        split at stands
        · cases stands
        · exact absurd stands ‹_›
      · rw [modCtx_ctx_other hd]
    · exact (spareOf_of_zones (by rw [liftHold_smp, modCtx_smp])).trans away
  · rw [if_neg has]
    exact modCtx_holdStep c f ((reservedBy_none (.inl (Nat.eq_zero_of_not_pos has))).le.trans (Nat.zero_le _))

theorem liftHold_holdStep (y : Nat) (p : Part) : HoldStep z p (liftHold y p) where
  length := by rw [liftHold_smp]
  zone := fun j => by rw [sector_of_smp (liftHold_smp ..)]
  hold := by
    rw [liftHold_hold]
    split
    · exact .inr rfl
    · exact .inl rfl
  stands := fun _ => ⟨fun j _ => by rw [sector_of_smp (liftHold_smp ..)]; exact id,
    reserved_mono fun c => by rw [liftHold_ctx],
    fun away => (spareOf_of_zones (by rw [liftHold_smp])).trans away⟩

/-! ### A context ends -/

theorem removeTaker_spareStep (c : CtxId) (p : Part) : SpareStep z p (removeTaker c p) :=
  .still rfl (fun _ => .of_eq rfl) (fun _ => rfl) rfl
    (spareOf_map (f := fun z => { z with waiting := z.waiting.filter (fun d => !(d == c)) }) (fun _ => rfl) rfl)

theorem subPending_spareStep (i n : Nat) (p : Part) : SpareStep z p (subPending i n p) :=
  judgeSector_spareStep (modSector_spareStep (.refl p) i (fun s => { s with pending := s.pending - n }) fun _ => ⟨rfl, id⟩) i

theorem releasePending_holdStep (k : WriteCtx) (p : Part) : HoldStep z p (releasePending k p) := by
  have each : HoldStep z p (k.written.foldl (fun q w => subPending w.sector (space w.length) q) p) :=
    foldl_holdStep (F := fun q (w : Written) => subPending w.sector (space w.length) q)
      (fun q w => (subPending_spareStep w.sector (space w.length) q).holdStep) k.written p
  unfold releasePending
  dsimp only
  split
  · rename_i x _
    exact each.spare (subPending_spareStep x.sector (32 + x.data) _)
  · exact each

theorem giveUpCtx_spareStep (k : WriteCtx) (p : Part) : SpareStep z p (giveUpCtx k p) := by
  have spent (i : Nat) (b : Bool) :
      SpareStep z p (if b = true then modSector i (fun s => { s with nextWrite := Config.sectorSize }) p else p) := by
    split
    · exact modSector_spareStep (.refl p) i _ fun _ => ⟨rfl, id⟩
    · exact .refl p
  unfold giveUpCtx
  split
  · exact giveUp_spareStep (spent _ _) _
  · exact .refl p

theorem returnReservation_holdStep (c : CtxId) (p : Part) : HoldStep z p (returnReservation c p) :=
  ((HoldStep.refl p).gives (c := c) fun k => { k with reservation := 0 }).spare (returnSpare_spareStep (.refl _) _)

theorem released_holdStep (c : CtxId) (p : Part) : HoldStep z p (released c p) := by
  have start : HoldStep z p (removeTaker c (withdraw (.ctx c) p)) :=
    ((HoldStep.refl p).same (r := withdraw (.ctx c) p)).spare (removeTaker_spareStep ..)
  have bytes : HoldStep z p (if (p.ctx c).commit = .switched then removeTaker c (withdraw (.ctx c) p)
      else releasePending (p.ctx c) (removeTaker c (withdraw (.ctx c) p))) := by
    split
    · exact start
    · exact start.trans (releasePending_holdStep ..)
  exact ((bytes.spare (giveUpCtx_spareStep (p.ctx c) _)).trans (returnReservation_holdStep c _)).same

theorem finishEnd_holdStep (c : CtxId) (st : Option Status) (p : Part) : HoldStep z p (finishEnd c st p) := by
  have gone := released_holdStep (z := z) c p
  have none_ : reservedBy z ((released c p).ctx c) = 0 := reservedBy_none (.inl (by rw [(released_spec c p).self]))
  have ends (f : WriteCtx → WriteCtx) : HoldStep z p (modCtx c f (released c p)) :=
    gone.trans (modCtx_holdStep c f (none_.le.trans (Nat.zero_le _)))
  rw [finishEnd_released]
  cases st with
  | none => exact ends _
  | some s => exact (ends _).same

theorem endCtx_holdStep (c : CtxId) (s : Status) (p : Part) : HoldStep z p (endCtx c s p) := by
  unfold endCtx
  split
  · exact modCtx_holdStep c _ (Nat.le_refl _)
  · exact finishEnd_holdStep ..

/-! ### A context takes a sector -/

theorem raiseFirst_holdStep (c : CtxId) (i : Nat) (p : Part) : HoldStep z p (raiseFirst c i p) := by
  unfold raiseFirst
  dsimp only
  split
  · exact endCtx_holdStep ..
  · exact (raise_spareStep (.refl p) ..).holdStep

theorem takeTail_spareStep (c : CtxId) (i : Nat) (p : Part) : SpareStep z p (takeTail c i p) :=
  modCtx_spareStep (modSector_spareStep (clearTail_spareStep (.refl p) i) i (fun s => { s with state := .owned, owner := some (.ctx c) })
    fun _ => ⟨rfl, nofun⟩) c _ fun _ => rfl

theorem reportFree_holdStep (y : Nat) (p : Part) : HoldStep z p (reportFree y p) := by
  refine (HoldStep.refl p).same (reportFree_smp ..) ?_ (by rw [reportFree_rcu])
  obtain ⟨_, e, -⟩ := reportFree_eq y p
  rw [e]

theorem takeFree_holdStep (c : CtxId) (i : Nat) (p : Part) : HoldStep z p (takeFree c i p) := by
  have took : SpareStep z p (modSector i (fun s => { s with state := .owned, owner := some (.ctx c) }) p) :=
    modSector_spareStep (.refl p) i _ fun _ => ⟨rfl, nofun⟩
  have gave := took.holdStep.gives (c := c) fun k => { k with owned := some i, reservation := k.reservation - 1 }
  exact gave.trans (reportFree_holdStep ..)

theorem takeForCtx_holdStep (c : CtxId) (p : Part) : HoldStep z p (takeForCtx c p).2 := by
  unfold takeForCtx
  dsimp only
  split
  · exact .refl p
  · split
    · exact (takeTail_spareStep ..).holdStep
    · split
      · split
        · exact takeFree_holdStep ..
        · exact (modCtx_spareStep (modZone_spareStep (.refl p) _ (fun z => { z with waiting := z.waiting ++ [c] }) fun _ => rfl) c
          (fun k => { k with notes := withNote .waitedSpace k.notes }) fun _ => rfl).holdStep
      · exact .refl p

theorem failTaker_holdStep (c : CtxId) (p : Part) : HoldStep z p (failTaker c p) :=
  (removeTaker_spareStep c p).holdStep.trans (endCtx_holdStep ..)

theorem answerTaker_holdStep {y : Nat} (h : answerTaker y p = some q) : HoldStep z p q := by
  unfold answerTaker at h
  split at h
  · split at h
    · cases h
      exact ((removeTaker_spareStep _ p).holdStep.spare (takeTail_spareStep ..)).trans (raiseFirst_holdStep ..)
    · split at h
      · dsimp only at h
        split at h
        · cases h
          exact ((removeTaker_spareStep _ p).holdStep.trans (takeFree_holdStep ..)).trans (raiseFirst_holdStep ..)
        · cases h
          exact failTaker_holdStep ..
      · split at h
        · cases h
          exact foldl_holdStep (F := fun q d => failTaker d q) (fun q d => failTaker_holdStep d q) _ p
        · cases h
  · cases h

theorem takersReact_holdStep (h : takersReact p = some q) : HoldStep z p q := by
  obtain ⟨y, -, answered⟩ := List.exists_of_findSome?_eq_some h
  exact answerTaker_holdStep answered

theorem answerTakers_holdStep (y : Nat) (p : Part) : HoldStep z p (answerTakers y p) := by
  unfold answerTakers
  split
  · rename_i m first
    have one := answerTaker_holdStep (z := z) first
    cases second : answerTaker y m with
    | none => exact one
    | some r => exact one.trans (answerTaker_holdStep second)
  · exact .refl p

/-! ### A cut of reservations (R55) -/

theorem cutCtx_other {c d : CtxId} {y n : Nat} (h : y ≠ z) (p : Part) :
    reservedBy z ((cutCtx c y n p).2.ctx d) = reservedBy z (p.ctx d) := by
  unfold cutCtx
  dsimp only
  split
  · rfl
  · rename_i has
    rw [not_or] at has
    by_cases hd : d = c
    · subst hd
      rw [modCtx_ctx]
      have here : (p.ctx d).zone = y := by
        by_contra none_
        exact has.1 (reservedBy_none (.inr none_))
      rw [reservedBy_none (.inr (by rw [here]; exact h)), reservedBy_none (.inr (by rw [here]; exact h))]
    · rw [modCtx_ctx_other hd]

theorem cutExcess_smp_rcu (y n : Nat) (p : Part) : (cutExcess y n p).smp = p.smp ∧ (cutExcess y n p).rcu = p.rcu := by
  have each (l : List CtxId) (nq : Nat × Part) :
      (l.foldl (fun (nq : Nat × Part) c => cutCtx c y nq.1 nq.2) nq).2.smp = nq.2.smp ∧
        (l.foldl (fun (nq : Nat × Part) c => cutCtx c y nq.1 nq.2) nq).2.rcu = nq.2.rcu := by
    induction l generalizing nq with
    | nil => exact ⟨rfl, rfl⟩
    | cons c l ih =>
      obtain ⟨-, -, smp, rcu⟩ := cutCtx_spec c c y nq.1 nq.2
      obtain ⟨smp', rcu'⟩ := ih (cutCtx c y nq.1 nq.2)
      exact ⟨smp'.trans smp, rcu'.trans rcu⟩
  exact each _ _

theorem cutExcess_other {y n : Nat} (h : y ≠ z) (d : CtxId) (p : Part) :
    reservedBy z ((cutExcess y n p).ctx d) = reservedBy z (p.ctx d) := by
  have each (l : List CtxId) (nq : Nat × Part) :
      reservedBy z ((l.foldl (fun (nq : Nat × Part) c => cutCtx c y nq.1 nq.2) nq).2.ctx d) = reservedBy z (nq.2.ctx d) := by
    induction l generalizing nq with
    | nil => rfl
    | cons c l ih => exact (ih _).trans (cutCtx_other h nq.2)
  exact each _ _

/-- R55, R130: a cut lifts the hold of its own zone, when the reservation falls. -/
theorem cut_lifts (y n : Nat) (p : Part) (held : p.rcu.hold = some z) :
    let q := liftIfCut y (reserved y p) (cutExcess y n p)
    q.smp = p.smp ∧ (reserved z q < reserved z p → q.rcu.hold = none) ∧ (¬ reserved z q < reserved z p → q.rcu.hold = some z) := by
  obtain ⟨smp, rcu⟩ := cutExcess_smp_rcu y n p
  intro q
  have stands : (cutExcess y n p).rcu.hold = some z := by rw [rcu]; exact held
  have reserves : reserved z q = reserved z (cutExcess y n p) := by
    refine reserved_eq fun c => ?_
    show reservedBy z ((liftIfCut ..).ctx c) = _
    unfold liftIfCut
    split
    · rw [liftHold_ctx]
    · rfl
  rw [reserves]
  have unchanged (h : y ≠ z) : reserved z (cutExcess y n p) = reserved z p := reserved_eq fun d => cutExcess_other h d p
  show (liftIfCut ..).smp = _ ∧ (_ → (liftIfCut ..).rcu.hold = _) ∧ (_ → (liftIfCut ..).rcu.hold = _)
  unfold liftIfCut
  by_cases here : y = z
  · subst here
    split
    · rename_i cut
      refine ⟨by rw [liftHold_smp]; exact smp, fun _ => ?_, fun none_ => absurd cut none_⟩
      rw [liftHold_hold, if_pos stands]
    · rename_i none_
      exact ⟨smp, fun cut => absurd cut none_, fun _ => stands⟩
  · rw [unchanged here]
    refine ⟨?_, fun cut => absurd cut (Nat.lt_irrefl _), fun _ => ?_⟩
    · split
      · rw [liftHold_smp]; exact smp
      · exact smp
    · split
      · rw [liftHold_hold, if_neg (by rw [stands]; exact fun x => here (Option.some.inj x).symm)]
        exact stands
      · exact stands

end Sys2Proof.Machine
end

