-- ==== Sys2Proof/Proofs/HoldLifts.lean ====
section
/-! SUPPORT. The hold at a cut of reservations and at the completion of a batch (R47, R55, R130). -/
namespace Sys2Proof.Machine

variable {z : Nat} {p q : Part}

/-! ### A cut of reservations (R55) -/

theorem loseSpare_kept (y : Nat) (r : Zone) (p : Part) : (loseSpare y r p).smp.sectors = p.smp.sectors ∧
    (loseSpare y r p).wcu = p.wcu ∧ (loseSpare y r p).rcu = p.rcu ∧ (spareOf z p = some true → spareOf z (loseSpare y r p) = some true) := by
  unfold loseSpare
  split
  · refine ⟨rfl, rfl, rfl, fun away => ?_⟩
    unfold spareOf at away ⊢
    rw [modZone_zone]
    split
    · obtain ⟨s, hs, -⟩ := Option.map_eq_some_iff.1 away
      rw [hs]
      rfl
    · exact away
  · exact ⟨rfl, rfl, rfl, id⟩

/-- What a cut leaves, and when it lifts the hold: its reservation falls. -/
theorem cutReservations_lifts (y : Nat) (p : Part) (held : p.rcu.hold = some z) :
    let q := cutReservations y p
    q.smp.sectors = p.smp.sectors ∧ (spareOf z p = some true → spareOf z q = some true) ∧
      (reserved z q < reserved z p → q.rcu.hold = none) ∧ (¬ reserved z q < reserved z p → q.rcu.hold = some z) := by
  have same : p.smp.sectors = p.smp.sectors ∧ (spareOf z p = some true → spareOf z p = some true) ∧
      (reserved z p < reserved z p → p.rcu.hold = none) ∧ (¬ reserved z p < reserved z p → p.rcu.hold = some z) :=
    ⟨rfl, id, fun x => absurd x (Nat.lt_irrefl _), fun _ => held⟩
  unfold cutReservations
  split
  · exact same
  · rename_i r _
    dsimp only
    generalize (if r.spareInUse then reserved y p - available y p else reserved y p + 1 - available y p) = excess
    split
    · exact same
    · obtain ⟨smp, lifts, stands⟩ := cut_lifts y excess p held
      obtain ⟨sectors, wcu, rcu, spare⟩ := loseSpare_kept (z := z) y r (liftIfCut y (reserved y p) (cutExcess y excess p))
      have reserve := reserved_eq (z := z) fun c => congrArg (reservedBy z) (ctx_of_wcu wcu c)
      rw [reserve, rcu]
      exact ⟨sectors.trans (by rw [smp]), fun away => spare ((spareOf_of_zones (by rw [smp])).trans away), lifts, stands⟩

theorem cutReservations_relieved (y : Nat) (p : Part) (held : p.rcu.hold = some z) :
    (Relieved z p (cutReservations y p) → (cutReservations y p).rcu.hold = none) ∧
      (¬ Relieved z p (cutReservations y p) → (cutReservations y p).rcu.hold = some z) := by
  obtain ⟨sectors, spare, lifts, stands⟩ := cutReservations_lifts y p held
  refine ⟨fun relieved => lifts ?_, fun none_ => stands fun falls => none_ (.inr (.inl falls))⟩
  rcases relieved with more | falls | ⟨away, back⟩
  · have count : countState z .free (cutReservations y p) = countState z .free p := congrArg (List.countP _) sectors
    omega
  · exact falls
  · exact absurd ((spare away).symm.trans back) (by decide)

theorem cutReservations_hold (y : Nat) (p : Part) :
    (cutReservations y p).rcu.hold = p.rcu.hold ∨ (cutReservations y p).rcu.hold = none := by
  unfold cutReservations
  split
  · exact .inl rfl
  · rename_i r _
    dsimp only
    generalize (if r.spareInUse then reserved y p - available y p else reserved y p + 1 - available y p) = excess
    split
    · exact .inl rfl
    · rw [(loseSpare_kept (z := y) y r _).2.2.1]
      unfold liftIfCut
      split
      · rw [liftHold_hold, (cutExcess_smp_rcu y excess p).2]
        split
        · exact .inr rfl
        · exact .inl rfl
      · rw [(cutExcess_smp_rcu y excess p).2]
        exact .inl rfl

theorem cutReservations_holdStep (y : Nat) (p : Part) : HoldStep z p (cutReservations y p) := by
  obtain ⟨w, zs, h, e, -, -⟩ := cutReservations_eq y p
  have sectors : (cutReservations y p).smp.sectors = p.smp.sectors := by rw [e]
  have hold := cutReservations_hold y p
  refine ⟨by rw [sectors], fun j => by rw [sector_of_sectors sectors], hold, fun stands => ?_⟩
  have held : p.rcu.hold = some z := hold.elim (fun x => x.symm.trans stands) fun x => absurd (x.symm.trans stands) nofun
  obtain ⟨-, spare, lifts, -⟩ := cutReservations_lifts y p held
  refine ⟨fun j _ => by rw [sector_of_sectors sectors]; exact id, Nat.not_lt.1 fun falls => ?_, spare⟩
  exact absurd ((lifts falls).symm.trans stands) nofun

/-! ### A batch completes (R47, R71) -/

theorem sectorOutcome_zone (target : SectorState) (b : BatchSector) (s : Sector) : (sectorOutcome target b s).zone = s.zone := by
  unfold sectorOutcome
  split <;> rfl

/-- R47, R130: a sector that becomes FREE lifts its zone's hold. -/
theorem freed_holdStep (target : SectorState) (b : BatchSector) (p : Part) :
    HoldStep z p (liftHold (p.sector b.sector).zone (modSector b.sector (sectorOutcome target b) p)) := by
  have lifted : (liftHold (p.sector b.sector).zone (modSector b.sector (sectorOutcome target b) p)).rcu.hold =
      if p.rcu.hold = some (p.sector b.sector).zone then none else p.rcu.hold := by rw [liftHold_hold, modSector_rcu]
  have sector (j : Nat) : (liftHold (p.sector b.sector).zone (modSector b.sector (sectorOutcome target b) p)).sector j =
      if b.sector = j ∧ j < p.smp.sectors.length then sectorOutcome target b (p.sector j) else p.sector j := by
    rw [sector_of_smp (liftHold_smp ..), sector_modSector]
  refine ⟨by rw [liftHold_smp, modSector_length], fun j => ?_, ?_, fun stands => ⟨fun j here => ?_, reserved_mono fun c => ?_, fun away =>
    (spareOf_of_zones (by rw [liftHold_smp]; rfl)).trans away⟩⟩
  · rw [sector]
    split
    · exact sectorOutcome_zone ..
    · rfl
  · rw [lifted]
    split
    · exact .inr rfl
    · exact .inl rfl
  · rw [sector]
    split
    · rename_i this
      rw [lifted, this.1, here] at stands
      split at stands
      · cases stands
      · exact absurd stands ‹_›
    · exact id
  · rw [liftHold_ctx]
    exact Nat.le_refl _

/-- R47, R71: any other outcome frees none. -/
theorem outcome_spareStep {target : SectorState} {b : BatchSector} (h : (b.erased && b.headerOk && !b.bad) = true → target ≠ .free)
    (p : Part) : SpareStep z p (modSector b.sector (sectorOutcome target b) p) := by
  refine modSector_spareStep (.refl p) _ _ fun s => ⟨sectorOutcome_zone .., fun free => ?_⟩
  unfold sectorOutcome at free
  split at free
  · exact absurd free (h ‹_›)
  · cases free

theorem applyOutcome_holdStep (target : SectorState) (b : BatchSector) (p : Part) : HoldStep z p (applyOutcome target b p) := by
  have cleared : HoldStep z p (if b.erased && b.headerOk then clearLingering b.sector p else p) := by
    split
    · exact (HoldStep.refl p).same
    · exact .refl p
  have zone : ((if b.erased && b.headerOk then clearLingering b.sector p else p).sector b.sector).zone = (p.sector b.sector).zone := cleared.zone _
  unfold applyOutcome
  dsimp only
  rw [← zone]
  generalize (if b.erased && b.headerOk then clearLingering b.sector p else p) = m at cleared
  split
  · split
    · exact (cleared.trans (freed_holdStep target b m)).trans (answerTakers_holdStep ..)
    · exact cleared.spare (outcome_spareStep (fun _ => ‹_›) m)
  · rename_i bad
    exact ((cleared.spare (outcome_spareStep (fun good => absurd good bad) m)).same
      (r := setCond .media (modSector b.sector (sectorOutcome target b) m))).trans (cutReservations_holdStep ..)

theorem completeBatch_holdStep (p : Part) : HoldStep z p (completeBatch p) := by
  unfold completeBatch
  split
  · rename_i b _
    dsimp only
    generalize (if (!b.forFormat && !p.mounted) = true then SectorState.stale else SectorState.free) = target
    have applied : HoldStep z p (b.sectors.foldl (fun q s => applyOutcome target s q) p) :=
      foldl_holdStep (F := fun q s => applyOutcome target s q) (fun q s => applyOutcome_holdStep target s q) b.sectors p
    generalize b.sectors.foldl (fun q s => applyOutcome target s q) p = m at applied
    have idle : HoldStep z p { m with pee := { m.pee with state := .idle, op := none, batch := none, budget := Config.suspendBudget } } :=
      applied.same
    split
    · refine idle.trans ?_
      unfold movePosition noteFormatBad noteServed
      dsimp only [Purpose.owner]
      split
      · split <;> exact (HoldStep.refl _).same
      · exact (HoldStep.refl _).same
    · have reported := idle.trans (reportFree_holdStep b.zone _)
      obtain ⟨l, o, e⟩ := openBatch_rcu (reportFree b.zone { m with pee :=
        { m.pee with state := .idle, op := none, batch := none, budget := Config.suspendBudget } })
      exact reported.same (openBatch_smp _) (openBatch_wcu _) (by rw [e])
  · exact .refl p

end Sys2Proof.Machine
end

