-- ==== Sys2Proof/Proofs/WriterSteps.lean ====
section
/-! O4. The steps of the write contexts, of the runner and of its COMPACT (R35, R38, R44, R53, R88 to R104, R128 to R135, R157, R177). -/
namespace Sys2Proof.Machine

/-- Settles O4, part by part: each line of a context's table and each outcome, the runner's choice and its COMPACT's bookkeeping, the
operations of a step in their order, and the hold. -/
theorem writersStep : Obligations.WritersStep := by
  refine ⟨?contextSteps, ?contextOutcomes, ?runnerChoice, ?jobBookkeeping, ?jobBoundary, ?waitingCommits, ?runnerSteps, ?hold⟩
  case contextSteps =>
    refine fun p c => ⟨chooseStep_rests, fun ch x hx => ?_, fun ch none_ fresh => ⟨fun start full => ?_, fun start full part => ?_,
      fun room start => ?_, fun start part room => ?_, fun start down => chooseStep_commits ch none_ fresh start down⟩⟩
    · rw [chooseStep_current ch hx]
      refine ⟨fun close => ?_, fun open_ bytes => ?_, fun open_ none_ => ?_⟩
      · rw [if_pos close]; exact raiseClose_raised x p
      · rw [if_neg open_, if_pos ((hasBytes_iff _).1 bytes)]; exact raiseData_raised x p
      · rw [if_neg open_, if_neg fun h => none_ ((hasBytes_iff _).2 h)]
    · refine ⟨fun i owned room sound => ?_, fun takes => chooseStep_fragmented ch none_ start takes full⟩
      rw [chooseStep_inHand ch none_ start owned room sound, raiseFirst_full full]
      exact endCtx_ended (rests_of_chooses ch)
    · rw [chooseStep_ends ch none_ start, if_neg part, if_pos full]
      exact endCtx_ended (rests_of_chooses ch)
    · refine ⟨fun i owned big sound => ?_, fun takes => chooseStep_answered ch none_ start takes room⟩
      rw [chooseStep_inHand ch none_ start owned big sound]
      exact raiseFirst_raisedFirst room
    · rw [chooseStep_ends ch none_ start, if_neg part, if_neg room]
  case contextOutcomes =>
    refine fun p c i o bs idle => ⟨fun e => ?_, fun e x hx => ?_, fun e x hx => ?_, fun e third u hu => ?_, fun e => ?_,
      fun e few u hu => ?_, fun e he => ⟨?_, fun fresh => ?_, ?_, ?_, ?_, ?_⟩, fun e => ?_, fun w ws written => ?_, fun e many => ?_,
      fun v hv => readBack_set hv p⟩
    · rw [ctxFirst_ended i o bs e]; exact firstDone_chooses c i o p
    · rw [ctxData_ended i o bs e]
      obtain ⟨q, chosen, ctx, sector⟩ := dataDone_chooses hx bs
      obtain ⟨current, programmed, state, full, part⟩ := (p.ctx c).programmedIn_fields x bs
      rw [← ctx] at current programmed state full part
      exact ⟨q, chosen, current, programmed, state, full, part, sector⟩
    · rw [ctxClose_ended i o bs e]; exact closeDone_chooses hx
    · rcases hu with rfl | rfl
      · rw [ctxFirst_ended i o bs e]; exact programFailure_ends _ idle third
      · rw [ctxData_ended i o bs e]; exact programFailure_ends _ idle third
    · rw [ctxClose_ended i o bs e]; exact closeFailure_ends idle
    · rcases hu with ⟨rfl, none_⟩ | ⟨rfl, some_⟩
      · rw [ctxFirst_ended i o bs e]
        obtain ⟨q, chosen, failures, notes, sector, rest, -⟩ := programFailure_spec (c := c) (i := i) (bs := []) few
        exact ⟨q, chosen, failures, notes, sector, rest, fun x hx => absurd (none_.symm.trans hx) nofun⟩
      · rw [ctxData_ended i o bs e]; exact programFailure_spec few
    · rw [ctxOp_ending i o bs (.inl rfl) he]; exact endingFirst_ended e i o _ p
    · rw [ctxOp_ending i o bs (.inr (.inr rfl)) he]; exact endingClose_ended e i o _ fresh
    · rw [ctxOp_ending i o bs (.inr (.inl rfl)) he]; exact endingData_ended e i o _ p
    · exact ctxOp_fails i o bs (.inl rfl) he
    · exact ctxOp_fails i o bs (.inr (.inr rfl)) he
    · have fails := ctxOp_fails i o bs (.inr (.inl rfl)) he
      rw [endingLanded_failed] at fails
      exact fails
    · rw [readBack_unset, e]; exact finishEnd_silently c p
    · obtain ⟨raised, attempts⟩ := commitFailed_raises written
      exact ⟨raised, attempts, readBack_retries written⟩
    · rw [readBack_unset, e]
      dsimp only
      rw [if_neg (Nat.not_lt.2 many)]
      exact finishEnd_ended c .mediaFault p
  case runnerChoice =>
    refine fun p mounted idle => ⟨fun m => evacuationStep_wants, fun i m => firstMovable_found,
      fun i m h d hd standing still x hx here copies => firstMovable_least h hd standing still hx here copies,
      fun m j v n wants hj hv hn => ?_, fun m wants hj => ?_, fun j v n none_ hj hv hn => ?_,
      fun i none_ hj owned => runner_rests mounted idle none_ hj owned, fun j v chosen => ?_⟩
    · have reacts := runnerReact_eq mounted idle
      rw [wants, compactStep_some hj hv hn] at reacts
      refine ⟨_, reacts, fun last => ?_, fun last => ?_⟩
      · rw [if_pos last]; exact beginStep_begins ..
      · rw [if_neg last]; exact beginStep_begins ..
    · have reacts := runnerReact_eq mounted idle
      rw [wants, compactStep_idle hj] at reacts
      exact ⟨_, reacts, beginStep_begins ..⟩
    · have reacts := runnerReact_eq mounted idle
      rw [none_, compactStep_some hj hv hn] at reacts
      exact ⟨_, reacts, beginStep_begins ..⟩
    · obtain ⟨⟨inside, zone, sealed, sound, live, pending, new⟩, least⟩ := nextVictim_some chosen
      exact ⟨inside, zone, sealed, sound, live, pending, new, least⟩
  case jobBookkeeping =>
    refine fun p j hj => ⟨nextVictim_none j p, fun done e he => ?_, fun open_ v hv => ?_, fun open_ hv => ?_⟩
    · rw [jobReact_done hj done, endJob_eq hj he]
    · have reacts := jobReact_victim hj open_ hv
      rw [modJob_eq hj, modJob_eq hj] at reacts
      refine ⟨fun none_ => ?_, fun live stuck => ?_, fun live free => ?_⟩
      · rw [reacts, if_pos none_]
      · rw [reacts, if_neg live.ne', if_pos stuck]
      · rw [reacts, if_neg live.ne', if_neg free]
    · have reacts := jobReact_chooses hj open_ hv
      refine ⟨fun serves => ?_, fun free => ?_⟩
      · rw [reacts, if_pos ((stepServes_iff j p).2 serves)]
      · rw [if_neg fun h => free ((stepServes_iff j p).1 h)] at reacts
        refine ⟨fun v chosen => ?_, fun none_ e he => ?_⟩
        · rw [reacts, chosen]; exact congrArg some (modJob_eq hj _)
        · rw [reacts, none_]; exact congrArg some (endJob_eq hj he .ok)
  case jobBoundary =>
    refine fun p st j i o bs hj => ⟨fun hs => ?_, fun other => ?_, fun own e he => ?_⟩
    · obtain ⟨none_, job, -⟩ := endStep_runner hs true
      exact ⟨discard_ends hs (.inl rfl), none_, job.trans hj⟩
    · exact jobBoundary_other fun k hk => by rw [← Option.some.inj (hj.symm.trans hk)]; exact other
    · have ends := jobBoundary_ends hj own he
      refine ⟨fun emptied => ?_, fun stands => ?_⟩
      · rw [show j.atBoundary p = { j with emptied := j.emptied + 1, victim := none } from
          if_pos ((j.victimEmptied_iff p).2 emptied)] at ends
        exact ends
      · rw [show j.atBoundary p = j from if_neg fun h => stands ((j.victimEmptied_iff p).1 h)] at ends
        exact ends
  case waitingCommits =>
    refine fun p => ⟨commitReact_none p, fun c ready alone => ⟨_, commitReact_tries ready alone, fun maint level rests => ?_,
      fun open_ w ws written => ?_⟩⟩
    · exact tryCommit_protected ready maint level rests
    · exact tryCommit_raises ready open_ written
  case runnerSteps =>
    refine fun p st bs i o hs => ⟨fun i owned keeps => ?_, fun none_ => ⟨fun j r taken => ?_, fun r none' kind => ?_,
      fun r j e none' kind hj own he => ?_⟩, ⟨fun start => ?_, runnerDataDone_raised hs bs.length⟩,
      ⟨runnerCloseDone_raised hs, runnerCloseDone_sector hs⟩, fun u hu => ?_, discard_retries hs, discard_fails hs,
      fun ok last dead => ?_, fun closed j owned inside => ?_, fun ok last d hd live => ?_⟩
    · rw [runnerRead_keeps hs bs owned keeps]
      exact first_begun bs hs
    · obtain ⟨takes, step⟩ := runnerTakes_taken hs bs rfl taken
      rw [runnerRead_takes hs bs none_, takes]
      exact first_begun bs step
    · rw [runnerRead_takes hs bs none_]
      exact runnerTakes_holds hs bs none' kind
    · rw [runnerRead_takes hs bs none_]
      exact runnerTakes_noSpace hs bs none' kind hj own he
    · have raised := raiseRunnerNext_raised hs
      rw [start] at raised
      exact raised
    · have failed : writeEnded u i o { ok := false, good := bs } p = stepFailed p := by rcases hu with rfl | rfl | rfl <;> rfl
      rw [failed]
      obtain ⟨step, suspect, directory⟩ := stepFailed_ends hs
      exact ⟨step, suspect, directory, fun j e hj own he mounted open_ live => stepFailed_job hs hj own he mounted open_ live⟩
    · obtain ⟨step, kind⟩ := discard_runner hs last
      obtain ⟨directory, counts⟩ := discard_dead hs last dead
      exact ⟨step, kind, directory, counts⟩
    · obtain ⟨sealed, dropped⟩ := endStep_sector hs closed owned inside
      exact ⟨sealed, dropped⟩
    · obtain ⟨step, kind⟩ := discard_runner hs last
      obtain ⟨entry, moved⟩ := discard_live hs last hd live
      exact ⟨step, kind, entry, moved⟩
  case hold =>
    refine fun p z held => ⟨fun i o => ?_, fun n => cutReservations_relieved n p held, fun q due => ?_,
      fun q answered => (takersReact_holdStep answered).lifts held,
      fun c st => ⟨(endCtx_holdStep c st p).lifts held, (finishEnd_holdStep c none p).lifts held, (takeForCtx_holdStep c p).lifts held⟩,
      (completeBatch_holdStep p).lifts held⟩
    · obtain ⟨judges, judges'⟩ := (judgeSector_spareStep (.refl p) i).lifts_iff held
      obtain ⟨gives, gives'⟩ := (giveUp_spareStep (.refl p) i).lifts_iff held
      obtain ⟨makes, makes'⟩ := (makeSuspect_spareStep (.refl p) i o).lifts_iff held
      exact ⟨judges, judges', gives, gives', makes, makes'⟩
    · obtain ⟨y, -, rfl⟩ := Option.map_eq_some_iff.1 due
      exact (returnSpare_spareStep (.refl p) y).lifts_iff held

end Sys2Proof.Machine
end

