-- ==== Sys2Proof/Proofs/EraseGrant.lean ====
section
/-! O47. The grant of an ERASE (R47, R67, R124, R178): its sectors, the batch that it makes of them, the SUSPECT marks that it withdraws. -/
namespace Sys2Proof.Machine

/-! ### The order of a batch's sectors (R69) -/

theorem ascending_eq_insertionSort (ss : List Nat) : ascending ss = ss.insertionSort (· ≤ ·) := by
  have inserted (s : Nat) (l : List Nat) : insertSorted s l = l.orderedInsert (· ≤ ·) s := by
    induction l with
    | nil => rfl
    | cons t l ih => rw [insertSorted, List.orderedInsert_cons, ih]
  unfold ascending List.insertionSort
  congr 1
  funext s l
  exact inserted s l

theorem ascending_perm (ss : List Nat) : (ascending ss).Perm ss := by
  rw [ascending_eq_insertionSort]
  exact List.perm_insertionSort _ ss

theorem ascending_pairwise (ss : List Nat) : (ascending ss).Pairwise (· ≤ ·) := by
  rw [ascending_eq_insertionSort]
  exact List.pairwise_insertionSort _ ss

/-! ### Its sectors and their SUSPECT marks (R47, R67) -/

/-- R47: sector `i` joins a batch: it is ERASING, and its waiting SUSPECT mark is withdrawn. -/
def takeIntoBatch (i : Nat) (p : Part) : Part := withdraw (.suspect i) (modSector i (fun s => { s with state := .erasing }) p)

/-- R47: each of the sectors joins the batch. -/
def takeAllIntoBatch (ss : List Nat) (p : Part) : Part := ss.foldl (fun q i => takeIntoBatch i q) p

/-- What the sectors' joining leaves: all but the sectors and the claims. -/
theorem takeAllIntoBatch_eq (ss : List Nat) (p : Part) : takeAllIntoBatch ss p =
    { p with smp := { p.smp with sectors := (takeAllIntoBatch ss p).smp.sectors }
             pee := { p.pee with claims := (takeAllIntoBatch ss p).pee.claims } } := by
  induction ss generalizing p with
  | nil => rfl
  | cons i ss ih => exact ih (takeIntoBatch i p)

theorem takeAllIntoBatch_sector (ss : List Nat) {p : Part} {j : Nat} (hj : j < p.smp.sectors.length) :
    (takeAllIntoBatch ss p).sector j = if j ∈ ss then { p.sector j with state := .erasing } else p.sector j := by
  induction ss generalizing p with
  | nil => rfl
  | cons i ss ih =>
    have first : (takeIntoBatch i p).sector j = if i = j then { p.sector j with state := .erasing } else p.sector j :=
      (sector_modSector i j _ p).trans (by simp only [hj, and_true])
    have rest := ih (p := takeIntoBatch i p) (by rw [takeIntoBatch, withdraw_smp, modSector_length]; exact hj)
    show (takeAllIntoBatch ss (takeIntoBatch i p)).sector j = _
    rw [rest, first]
    by_cases here : i = j
    · subst here
      simp
    · have other : j ≠ i := fun h => here h.symm
      simp [here, other]

theorem takeAllIntoBatch_claims (ss : List Nat) (p : Part) (d : Claim) : d ∈ (takeAllIntoBatch ss p).pee.claims ↔
    d ∈ p.pee.claims ∧ ∀ i ∈ ss, d.purpose.owner ≠ .suspect i := by
  induction ss generalizing p with
  | nil => exact ⟨fun h => ⟨h, nofun⟩, And.left⟩
  | cons i ss ih =>
    have first : d ∈ (takeIntoBatch i p).pee.claims ↔ d ∈ p.pee.claims ∧ d.purpose.owner ≠ .suspect i := by
      simp [takeIntoBatch, withdraw]
    rw [List.forall_mem_cons, ← and_assoc, ← first]
    exact ih (takeIntoBatch i p)

/-! ### The grant -/

/-- R47, R67: `q` is `p` once the ERASE claim of an age is granted for some sectors. -/
def EraseGranted (p q : Part) (age : Nat) (ss : List Nat) (forFormat : Bool) (zone : Nat) : Prop :=
  q.pee.state = .erasing ∧ q.pee.budget = 8 ∧ q.pee.cause = none ∧ q.pee.opClock = 0 ∧ q.pee.op = p.pee.op ∧
  q.pee.preempt = p.pee.preempt ∧
  (∀ d, d ∈ q.pee.claims ↔ d ∈ p.pee.claims ∧ d.age ≠ age ∧ ∀ i ∈ ss, d.purpose.owner ≠ .suspect i) ∧
  q = { p with pee := q.pee, smp := q.smp, rcu := q.rcu } ∧ q.smp.zones = p.smp.zones ∧
  (∀ i < p.smp.sectors.length, q.sector i = if i ∈ ss then { p.sector i with state := .erasing } else p.sector i) ∧
  ∃ a, q.pee.batch = some a ∧ a.headers = false ∧ a.unsuspended = 0 ∧ a.forFormat = forFormat ∧ a.zone = zone ∧
    (a.sectors.map (·.sector)).Perm ss ∧ (a.sectors.map (·.sector)).Pairwise (· ≤ ·) ∧
    ∀ x ∈ a.sectors, x.erased = false ∧ x.done = false ∧ x.bad = (p.sector x.sector).suspect ∧
      x.count = min ((p.sector x.sector).eraseCount + 1) 0xFFFFFF ∧
      x.header = sectorHeaderBytes p.scu.format (p.sector x.sector).zone x.count (planOf p) (p.sector x.sector).suspect

theorem batchSector_numbers (p : Part) (ss : List Nat) : (ss.map (batchSector p)).map (·.sector) = ss := by
  rw [List.map_map]
  exact List.map_id _

/-- R67, R124, R178: the headers given are those that the sectors call for as they stand before the grant. -/
theorem grantErase_granted (p : Part) (age : Nat) (r : Rcu) (forFormat : Bool) (zone : Nat) (ss : List Nat) :
    EraseGranted p (grantErase forFormat zone ss { dropClaim age p with rcu := r }) age ss forFormat zone ∧
      (grantErase forFormat zone ss { dropClaim age p with rcu := r }).rcu = r := by
  let m : Part := { dropClaim age p with rcu := r }
  have kept := takeAllIntoBatch_eq ss m
  have claims (d : Claim) : d ∈ (takeAllIntoBatch ss m).pee.claims ↔
      d ∈ p.pee.claims ∧ d.age ≠ age ∧ ∀ i ∈ ss, d.purpose.owner ≠ .suspect i := by
    rw [takeAllIntoBatch_claims, ← and_assoc]
    simp [m, dropClaim]
  have granted : grantErase forFormat zone ss m = { takeAllIntoBatch ss m with pee := { (takeAllIntoBatch ss m).pee with
      state := .erasing, budget := 8, cause := none, opClock := 0
      batch := some { forFormat := forFormat, zone := zone, sectors := (ascending ss).map (batchSector m), headers := false,
                      unsuspended := 0 } } } := rfl
  have sectors {i : Nat} (hi : i < p.smp.sectors.length) := takeAllIntoBatch_sector ss (p := m) hi
  show EraseGranted p (grantErase forFormat zone ss m) age ss forFormat zone ∧ (grantErase forFormat zone ss m).rcu = r
  rw [granted]
  refine ⟨⟨rfl, rfl, rfl, rfl, ?_, ?_, claims, ?_, ?_, fun i hi => sectors hi, _, rfl, rfl, rfl, rfl, rfl, ?_, ?_, fun x hx => ?_⟩, ?_⟩
  · rw [kept]; rfl
  · rw [kept]; rfl
  · rw [kept]; rfl
  · rw [kept]; rfl
  · rw [batchSector_numbers]; exact ascending_perm ss
  · rw [batchSector_numbers]; exact ascending_pairwise ss
  · obtain ⟨i, -, rfl⟩ := List.mem_map.1 hx
    exact ⟨rfl, rfl, rfl, rfl, rfl⟩
  · rw [kept]

/-- Settles O47: the granted claim's sectors are the batch, whether they are the open batch's or a FORMAT's. -/
theorem eraseGrant : Obligations.EraseGrant := by
  intro p c idle best
  rw [grantNow_idle_some idle best]
  refine ⟨fun b target opened => ?_, fun first ss target => ?_⟩
  · have granted : grantIdle c p = grantErase false b.zone b.sectors { dropClaim c.age p with rcu := { p.rcu with openBatch := none } } := by
      unfold grantIdle
      rw [target, opened]
    rw [granted]
    exact grantErase_granted p c.age _ false b.zone b.sectors
  · have granted : grantIdle c p = grantErase true (p.sector first).zone (first :: ss) { dropClaim c.age p with rcu := p.rcu } := by
      unfold grantIdle
      rw [target]
      rfl
    rw [granted]
    exact grantErase_granted p c.age _ true (p.sector first).zone (first :: ss)

end Sys2Proof.Machine
end

