-- ==== Sys2Proof/Proofs/OpenBatch.lean ====
section
/-! O56. The erase queue and the open batch (R54, R79, R121 to R125): how a batch opens and grows, when its ERASE claim is raised, and at
what level. -/
namespace Sys2Proof.Machine

variable {p q : Part}

/-! ### The level of the ERASE claim (R54) -/

theorem takersLevel_spec (z : Nat) (p : Part) : TakersLevel z (takersLevel z p) p := by
  obtain ⟨-, above, attained⟩ := foldl_max_spec (fun c => (p.ctx c).level) (waitingIn z p) 0
  have waits (c : CtxId) : (∃ r, p.zone z = some r ∧ c ∈ r.waiting) ↔ c ∈ waitingIn z p := by
    unfold waitingIn
    cases p.zone z <;> simp
  simp only [TakersLevel, waits]
  exact ⟨above, attained⟩

theorem raiseErase_opened {b : OpenBatch} (hb : p.rcu.openBatch = some b) : raiseErase p =
    raise .reclaimErase .erase (takersLevel b.zone p) .openBatch
      { p with rcu := { p.rcu with openBatch := some { b with window := none, raised := true } } } := by
  unfold raiseErase
  rw [hb]

/-! ### A batch opens (R122) -/

/-- R122: what a zone's sectors leave of the queue when up to `n` of them are taken. -/
theorem takeOfZone_spec (p : Part) (z : Nat) (l : List Nat) (n : Nat) :
    (takeOfZone p z n l).1 = (l.filter (fun j => (p.sector j).zone = z)).take n ∧
      (takeOfZone p z n l).2.Sublist l ∧
      (takeOfZone p z n l).2.filter (fun j => (p.sector j).zone = z) = (l.filter (fun j => (p.sector j).zone = z)).drop n ∧
      (takeOfZone p z n l).2.filter (fun j => (p.sector j).zone ≠ z) = l.filter (fun j => (p.sector j).zone ≠ z) := by
  induction l generalizing n with
  | nil => cases n <;> exact ⟨rfl, .slnil, rfl, rfl⟩
  | cons s l ih =>
    cases n with
    | zero => exact ⟨rfl, .refl _, rfl, rfl⟩
    | succ n =>
      unfold takeOfZone
      by_cases here : (p.sector s).zone = z
      · obtain ⟨taken, rest, mates, others⟩ := ih n
        simp only [here, if_true, List.filter_cons, decide_true, List.take_succ_cons, List.drop_succ_cons, taken, mates, others,
          ne_eq, not_true_eq_false, decide_false, Bool.false_eq_true, if_false, true_and, and_true]
        exact rest.cons s
      · obtain ⟨taken, rest, mates, others⟩ := ih (n + 1)
        simp only [ne_eq, decide_not] at others
        simp only [here, if_false, List.filter_cons, decide_false, Bool.false_eq_true, taken, mates, others,
          ne_eq, decide_not, Bool.not_false, if_true, true_and, and_true]
        exact rest.cons_cons s

theorem openBatch_stays (h : p.mounted = false ∨ p.rcu.openBatch ≠ none ∨ p.pee.batch ≠ none ∨ p.rcu.eraseQueue = []) :
    openBatch p = p := by
  unfold openBatch
  split
  · rfl
  · rename_i s l queue
    refine if_neg fun may => ?_
    simp only [Bool.and_eq_true, Option.isNone_iff_eq_none] at may
    obtain ⟨⟨mounted, none_⟩, free⟩ := may
    rcases h with h | h | h | h
    · rw [mounted] at h; cases h
    · exact h none_
    · exact h free
    · rw [queue] at h; cases h

/-- R122: the part with a batch of zone `z` opened. -/
def batchOpened (z : Nat) (window : Option Nat) (p : Part) : Part :=
  { p with rcu := { p.rcu with
      eraseQueue := (takeOfZone p z 8 p.rcu.eraseQueue).2
      openBatch := some { zone := z, sectors := (p.rcu.eraseQueue.filter (fun j => (p.sector j).zone = z)).take 8, window := window,
                          raised := false } } }

section
variable (mounted : p.mounted = true) (none_ : p.rcu.openBatch = none) (free : p.pee.batch = none) {i : Nat} {later : List Nat}
  (queue : p.rcu.eraseQueue = i :: later)
include mounted none_ free queue

/-- R122, R124: the oldest sector's zone-mates are gathered; eight of them raise the claim at once. -/
theorem openBatch_eq_batchOpened : openBatch p =
    if 8 ≤ (p.rcu.eraseQueue.filter (fun j => (p.sector j).zone = (p.sector i).zone)).length then
      raiseErase (batchOpened (p.sector i).zone none p)
    else batchOpened (p.sector i).zone (some 0) p := by
  obtain ⟨taken, -⟩ := takeOfZone_spec p (p.sector i).zone p.rcu.eraseQueue 8
  have full : (takeOfZone p (p.sector i).zone 8 p.rcu.eraseQueue).1.length = 8 ↔
      8 ≤ (p.rcu.eraseQueue.filter (fun j => (p.sector j).zone = (p.sector i).zone)).length := by
    rw [taken, List.length_take]
    omega
  have may : (p.mounted && p.rcu.openBatch.isNone && p.pee.batch.isNone) = true := by rw [mounted, none_, free]; rfl
  unfold openBatch batchOpened
  rw [queue] at full taken ⊢
  simp only [if_pos may, decide_eq_true_eq, full, ← taken]
  split <;> rfl

theorem openBatch_queue : (openBatch p).rcu.eraseQueue = (takeOfZone p (p.sector i).zone 8 p.rcu.eraseQueue).2 := by
  rw [openBatch_eq_batchOpened mounted none_ free queue]
  split
  · rw [raiseErase_opened rfl, raise_rcu]
    rfl
  · rfl

theorem openBatch_full (full : 8 ≤ (p.rcu.eraseQueue.filter (fun j => (p.sector j).zone = (p.sector i).zone)).length) :
    openBatch p = raise .reclaimErase .erase (takersLevel (p.sector i).zone p) .openBatch { p with rcu := { p.rcu with
      eraseQueue := (openBatch p).rcu.eraseQueue
      openBatch := some { zone := (p.sector i).zone
                          sectors := (p.rcu.eraseQueue.filter (fun j => (p.sector j).zone = (p.sector i).zone)).take 8
                          window := none, raised := true } } } := by
  rw [openBatch_queue mounted none_ free queue, openBatch_eq_batchOpened mounted none_ free queue, if_pos full, raiseErase_opened rfl]
  rfl

end

/-! ### A sector joins (R121, R123) -/

/-- R121: the part with a sector at the end of its erase queue. -/
def Part.queuedLast (i : Nat) (p : Part) : Part := { p with rcu := { p.rcu with eraseQueue := p.rcu.eraseQueue ++ [i] } }

section
variable {b : OpenBatch} (hb : p.rcu.openBatch = some b) {i : Nat}
include hb

theorem joinErase_apart (apart : ¬ (b.zone = (p.sector i).zone ∧ b.sectors.length < 8)) : joinErase i p = p.queuedLast i := by
  unfold joinErase
  rw [hb]
  exact if_neg apart

theorem joinErase_grows (joins : b.zone = (p.sector i).zone ∧ b.sectors.length < 8) : joinErase i p =
    let q : Part := { p with rcu := { p.rcu with openBatch := some { b with sectors := b.sectors ++ [i] } } }
    if b.sectors.length = 7 ∧ b.raised = false then raiseErase q else q := by
  unfold joinErase
  rw [hb]
  simp only [Config.batchMax, joins, and_self, if_true, List.length_append, List.length_singleton, Nat.reduceEqDiff]

end

/-! ### The Reclaim Unit does not read that a sector has become STALE -/

theorem staleAt_zone (i j : Nat) (p : Part) : ((p.staleAt i).sector j).zone = (p.sector j).zone := by
  show ((modSector i (fun s => { s with state := .stale }) p).sector j).zone = _
  rw [sector_modSector]
  split <;> rfl

theorem raise_staleAt (u : Purpose) (k : OpKind) (l : Nat) (t : Target) (i : Nat) (p : Part) :
    raise u k l t (p.staleAt i) = (raise u k l t p).staleAt i := by
  have pee : (p.staleAt i).pee = p.pee := rfl
  unfold raise
  dsimp only
  rw [pee]
  split <;> rfl

theorem raiseErase_staleAt (i : Nat) (p : Part) : raiseErase (p.staleAt i) = (raiseErase p).staleAt i := by
  cases hb : p.rcu.openBatch with
  | none =>
    unfold raiseErase
    rw [show (p.staleAt i).rcu.openBatch = none from hb, hb]
  | some b =>
    rw [raiseErase_opened (show (p.staleAt i).rcu.openBatch = some b from hb), raiseErase_opened hb]
    exact raise_staleAt _ _ _ _ i { p with rcu := { p.rcu with openBatch := some { b with window := none, raised := true } } }

theorem takeOfZone_staleAt (i z : Nat) (p : Part) (l : List Nat) (n : Nat) : takeOfZone (p.staleAt i) z n l = takeOfZone p z n l := by
  induction l generalizing n with
  | nil => cases n <;> rfl
  | cons s l ih =>
    cases n with
    | zero => rfl
    | succ n => simp only [takeOfZone, staleAt_zone, ih]

theorem openBatch_staleAt (i : Nat) (p : Part) : openBatch (p.staleAt i) = (openBatch p).staleAt i := by
  cases queue : p.rcu.eraseQueue with
  | nil => rw [openBatch_stays (.inr (.inr (.inr queue))), openBatch_stays (p := p.staleAt i) (.inr (.inr (.inr queue)))]
  | cons s l =>
    by_cases may : p.mounted = true ∧ p.rcu.openBatch = none ∧ p.pee.batch = none
    · obtain ⟨mounted, none_, free⟩ := may
      have opened (w : Option Nat) : batchOpened ((p.staleAt i).sector s).zone w (p.staleAt i) =
          (batchOpened (p.sector s).zone w p).staleAt i := by
        simp only [batchOpened, takeOfZone_staleAt, staleAt_zone]
        rfl
      rw [openBatch_eq_batchOpened mounted none_ free queue, openBatch_eq_batchOpened (p := p.staleAt i) mounted none_ free queue,
        opened, opened]
      simp only [staleAt_zone]
      show (if _ ≤ (p.rcu.eraseQueue.filter _).length then _ else _) = _
      split
      · exact raiseErase_staleAt i _
      · rfl
    · have stays : p.mounted = false ∨ p.rcu.openBatch ≠ none ∨ p.pee.batch ≠ none ∨ p.rcu.eraseQueue = [] := by
        by_contra all
        simp only [not_or, not_not, Bool.not_eq_false] at all
        exact may ⟨all.1, all.2.1, all.2.2.1⟩
      rw [openBatch_stays stays, openBatch_stays (p := p.staleAt i) stays]

theorem joinErase_staleAt (i j : Nat) (p : Part) : joinErase j (p.staleAt i) = (joinErase j p).staleAt i := by
  cases hb : p.rcu.openBatch with
  | none =>
    unfold joinErase
    rw [show (p.staleAt i).rcu.openBatch = none from hb, hb]
    exact openBatch_staleAt i (p.queuedLast j)
  | some b =>
    have hb' : (p.staleAt i).rcu.openBatch = some b := hb
    by_cases joins : b.zone = (p.sector j).zone ∧ b.sectors.length < 8
    · rw [joinErase_grows hb joins, joinErase_grows hb' (by rw [staleAt_zone]; exact joins)]
      dsimp only
      split
      · exact raiseErase_staleAt i { p with rcu := { p.rcu with openBatch := some { b with sectors := b.sectors ++ [j] } } }
      · rfl
    · rw [joinErase_apart hb joins, joinErase_apart hb' (by rw [staleAt_zone]; exact joins)]
      rfl

/-! ### A sector judged (R46, R121) -/

theorem judgeSector_emptied {i : Nat} (sealed : (p.sector i).state = .sealed) (emptied : p.emptied i) :
    judgeSector i p = becomeStale i p := by
  unfold judgeSector
  dsimp only
  rw [if_pos sealed, if_pos ((emptied_iff p i).1 emptied)]

/-- R48: a sector that is not judged empty at most joins the evacuation queue. -/
theorem judgeSector_holds {i : Nat} (holds : ¬ p.emptied i) : ∃ l, judgeSector i p = { p with rcu := { p.rcu with evacQueue := l } } := by
  unfold judgeSector
  dsimp only
  rw [emptied_iff] at holds
  split
  · split <;> exact ⟨_, rfl⟩
  · exact ⟨_, rfl⟩

/-- What `q` holds for the next erase is what `r` holds. -/
def SameErase (q r : Part) : Prop := q.rcu.eraseQueue = r.rcu.eraseQueue ∧ q.rcu.openBatch = r.rcu.openBatch ∧ q.pee = r.pee

theorem returnSpare_sameErase (z : Nat) (p : Part) : SameErase (returnSpare z p) p := by
  obtain ⟨zs, h, spare, -⟩ := returnSpare_eq z p
  rw [spare]
  exact ⟨rfl, rfl, rfl⟩

theorem becomeStale_mounted (mounted : p.mounted = true) (i : Nat) :
    becomeStale i p = returnSpare (p.sector i).zone ((joinErase i p).staleAt i) := by
  rw [becomeStale_eq, if_pos (show (p.staleAt i).mounted = true from mounted), joinErase_staleAt]

theorem becomeStale_unmounted (out : p.mounted = false) (i : Nat) : becomeStale i p = returnSpare (p.sector i).zone (p.staleAt i) := by
  rw [becomeStale_eq, if_neg (show ¬ (p.staleAt i).mounted = true from ne_true_of_eq_false out)]

theorem judgeSector_sameErase {i : Nat} (sealed : (p.sector i).state = .sealed) :
    (p.mounted = true → p.emptied i → SameErase (judgeSector i p) (joinErase i p)) ∧
      (p.mounted = false → SameErase (judgeSector i p) p) := by
  refine ⟨fun mounted emptied => ?_, fun out => ?_⟩
  · rw [judgeSector_emptied sealed emptied, becomeStale_mounted mounted]
    exact returnSpare_sameErase _ ((joinErase i p).staleAt i)
  · by_cases emptied : p.emptied i
    · rw [judgeSector_emptied sealed emptied, becomeStale_unmounted out]
      exact returnSpare_sameErase _ (p.staleAt i)
    · obtain ⟨l, e⟩ := judgeSector_holds emptied
      rw [e]
      exact ⟨rfl, rfl, rfl⟩

/-! ### The whole -/

/-- Settles O56: one lemma for each way that a batch opens or grows, and the level is that of the zone's takers as they stand. -/
theorem openBatchRules : Obligations.OpenBatchRules := by
  unfold Obligations.OpenBatchRules
  refine ⟨fun p => ⟨openBatch_stays, fun mounted none_ free i later queue => ?_⟩,
    fun p i => ⟨fun none_ => ?_, fun b hb => ?_, fun _ sealed => ?_⟩,
    fun p b hb reclaim => ?_, fun s b w run hb window => ?_, fun p => ⟨rfl, fun none_ => ?_, fun b hb => ?_⟩⟩
  · obtain ⟨-, rest, mates, others⟩ := takeOfZone_spec p (p.sector i).zone p.rcu.eraseQueue 8
    rw [← openBatch_queue mounted none_ free queue] at rest mates others
    refine ⟨rest, mates, others, fun few => ?_, fun full => ?_⟩
    · have opened := openBatch_eq_batchOpened mounted none_ free queue
      rw [if_neg (Nat.not_le.2 few)] at opened
      rw [opened]
      exact ⟨rfl, rfl⟩
    · have opened := openBatch_full mounted none_ free queue full
      refine ⟨opened.trans (raise_spec ..).1 |>.trans ?_, _, takersLevel_spec _ p, ?_⟩
      · rw [← opened]
      · unfold Raised
        rw [opened, raise_claims]
  · unfold joinErase
    rw [none_]
  · refine ⟨joinErase_apart hb, fun joins short => ?_, fun joins seven fresh => ⟨_, takersLevel_spec b.zone p, ?_⟩⟩
    · rw [joinErase_grows hb joins]
      refine if_neg fun ⟨seven, fresh⟩ => ?_
      rcases short with h | h
      · omega
      · rw [fresh] at h; cases h
    · rw [joinErase_grows hb joins]
      dsimp only
      rw [if_pos ⟨seven, fresh⟩]
      exact raiseErase_opened (b := { b with sectors := b.sectors ++ [i] }) rfl
  · exact judgeSector_sameErase sealed
  · exact ⟨_, completeBatch_reclaim hb reclaim, by rw [reportFree_pee]; rfl⟩
  · refine ⟨_, takersLevel_spec b.zone s.part, ?_⟩
    rw [← raiseErase_opened hb]
    show execGatheringWindowExpiry s = _
    unfold execGatheringWindowExpiry
    obtain ⟨zone, sectors, window', raised⟩ := b
    cases window
    rw [run, hb]
  · unfold followTakers
    rw [none_]
  · refine ⟨_, takersLevel_spec b.zone p, ?_⟩
    unfold followTakers
    rw [hb]

end Sys2Proof.Machine
end

