-- ==== Sys2Proof/Proofs/SectorMap.lean ====
section
/-! SUPPORT. The Sector Map's answers (R43, R45, R53, R55): where a sector given up goes, what a take is answered from, whose reservation is
cut, and when a zone's spare comes back. -/
namespace Sys2Proof.Machine

variable {p q : Part}

/-! ### Giving up (R45) -/

theorem MapStep.sealedState_iff (h : MapStep p q) (i : Nat) (st : SectorState) : SealedState q i st ↔ SealedState p i st := by
  unfold SealedState
  rw [h.emptied]

theorem MapStep.zone_isSome (h : MapStep p q) (n : Nat) : (q.zone n).isSome = (p.zone n).isSome := by
  have fixed := congrArg (fun l => (l[n]?).isSome) h.zones
  simp only [List.getElem?_map, Option.isSome_map] at fixed
  exact fixed

theorem dropOwner_zone (i n : Nat) (p : Part) : (dropOwner i p).zone n = p.zone n := by
  unfold Part.zone
  rw [dropOwner_smp, modSector_zones]

theorem dropOwner_length (i : Nat) (p : Part) : (dropOwner i p).smp.sectors.length = p.smp.sectors.length := by
  rw [dropOwner_smp, modSector_length]

/-- R45: the part at which sector `i` is the TAIL of zone `n`. -/
def madeTail (n i : Nat) (p : Part) : Part :=
  modZone n (fun z => { z with tail := some i }) (modSector i (fun s => { s with state := .tail }) p)

theorem madeTail_tail {n i : Nat} (inside : i < p.smp.sectors.length) (zone : (p.zone n).isSome = true) :
    ((madeTail n i p).sector i).state = .tail ∧ ((madeTail n i p).zone n).bind (·.tail) = some i := by
  obtain ⟨z, hz⟩ := Option.isSome_iff_exists.1 zone
  refine ⟨congrArg Sector.state (sector_modSector_self inside fun s => { s with state := .tail }), ?_⟩
  unfold madeTail
  rw [modZone_zone, if_pos rfl]
  show Option.bind ((p.zone n).map _) _ = _
  rw [hz]
  rfl

theorem madeTail_sector_other {n i j : Nat} (h : i ≠ j) (p : Part) : (madeTail n i p).sector j = p.sector j := sector_modSector_other h _ p

section
variable {i : Nat} {z : Zone} (mounted : p.mounted = true) (hz : p.zone (p.sector i).zone = some z)
include mounted hz

/-- R45: the tail rule, as the zone's TAIL stands. -/
theorem giveUp_eq_tailRule : giveUp i p =
    if (p.sector i).suspect = false ∧ 64 ≤ (p.sector i).room then
      match z.tail with
      | none => madeTail (p.sector i).zone i (dropOwner i p)
      | some t =>
        if (p.sector t).room < (p.sector i).room then madeTail (p.sector i).zone i (sealSector t (dropOwner i p))
        else sealSector i (dropOwner i p)
    else sealSector i (dropOwner i p) := by
  unfold giveUp
  dsimp only
  rw [mounted, hz]
  simp only [Bool.not_true, Bool.false_eq_true, if_false, Bool.and_eq_true, Bool.not_eq_true', decide_eq_true_eq]
  rfl

theorem giveUp_becomesTail (inside : i < p.smp.sectors.length) (fit : (p.sector i).suspect = false ∧ 64 ≤ (p.sector i).room)
    (none_ : z.tail = none) :
    ((giveUp i p).sector i).state = .tail ∧ ((giveUp i p).zone (p.sector i).zone).bind (·.tail) = some i := by
  rw [giveUp_eq_tailRule mounted hz, if_pos fit, none_]
  exact madeTail_tail (by rw [dropOwner_length]; exact inside) (by rw [dropOwner_zone, hz]; rfl)

theorem giveUp_replacesTail (inside : i < p.smp.sectors.length) (fit : (p.sector i).suspect = false ∧ 64 ≤ (p.sector i).room) {t : Nat}
    (tail : z.tail = some t) (apart : t ≠ i) (less : (p.sector t).room < (p.sector i).room) :
    ((giveUp i p).sector i).state = .tail ∧ ((giveUp i p).zone (p.sector i).zone).bind (·.tail) = some i ∧
      (t < p.smp.sectors.length → SealedState p t ((giveUp i p).sector t).state) := by
  have dropped := dropOwner_mapStep (.refl p) i
  have step := sealSector_mapStep dropped t
  rw [giveUp_eq_tailRule mounted hz, if_pos fit, tail]
  dsimp only
  rw [if_pos less]
  obtain ⟨state, zone⟩ := madeTail_tail (n := (p.sector i).zone) (step.length.symm ▸ inside) (by rw [step.zone_isSome, hz]; rfl)
  refine ⟨state, zone, fun inside' => ?_⟩
  rw [madeTail_sector_other (Ne.symm apart), ← dropped.sealedState_iff]
  exact (sealSector_self (by rw [dropOwner_length]; exact inside')).2.1

theorem giveUp_sealedState (inside : i < p.smp.sectors.length) (unfit : ¬ ((p.sector i).suspect = false ∧ 64 ≤ (p.sector i).room) ∨
    ∃ t, z.tail = some t ∧ (p.sector i).room ≤ (p.sector t).room) : SealedState p i ((giveUp i p).sector i).state := by
  have seals : giveUp i p = sealSector i (dropOwner i p) := by
    rw [giveUp_eq_tailRule mounted hz]
    rcases unfit with unfit | ⟨t, tail, more⟩
    · exact if_neg unfit
    · rw [tail]
      dsimp only
      rw [if_neg (Nat.not_lt.2 more), ite_self]
  rw [seals, ← (dropOwner_mapStep (.refl p) i).sealedState_iff]
  exact (sealSector_self (by rw [dropOwner_length]; exact inside)).2.1

end

/-! ### A context's take (R43, R53) -/

/-- R43: sector `i` is the context's, and no other sector changed. -/
def TakenBy (c : CtxId) (i : Nat) (p q : Part) : Prop :=
  q.sector i = { p.sector i with state := .owned, owner := some (.ctx c) } ∧ ∀ j, j ≠ i → q.sector j = p.sector j

theorem clearTail_zone (t n : Nat) (p : Part) :
    (clearTail t p).zone n = (p.zone n).map (fun z => if z.tail = some t then { z with tail := none } else z) := List.getElem?_map ..

theorem takenBy_of_sectors {c : CtxId} {i : Nat} (inside : i < p.smp.sectors.length)
    (h : q.smp.sectors = (modSector i (fun s => { s with state := .owned, owner := some (.ctx c) }) p).smp.sectors) : TakenBy c i p q := by
  refine ⟨?_, fun j other => ?_⟩
  · rw [sector_of_sectors h]
    exact sector_modSector_self inside _
  · rw [sector_of_sectors h]
    exact sector_modSector_other (Ne.symm other) _ p

/-- R43, R53: a FREE sector is taken, against a reservation. -/
theorem takeFree_spec (c : CtxId) {i : Nat} (inside : i < p.smp.sectors.length) : TakenBy c i p (takeFree c i p) ∧
    (takeFree c i p).ctx c = { p.ctx c with owned := some i, reservation := (p.ctx c).reservation - 1 } := by
  obtain ⟨smp, -, ctx⟩ := tookFree_kept c i p
  rw [takeFree_eq]
  exact ⟨takenBy_of_sectors inside (by rw [reportFree_smp, smp]), (reportFree_ctx ..).trans ctx⟩

section
variable {c : CtxId} {z : Zone} (hz : p.zone (p.ctx c).zone = some z)
include hz

theorem takeForCtx_tail {t : Nat} (tail : z.tail = some t) : takeForCtx c p = (.taken, takeTail c t p) := by
  unfold takeForCtx
  dsimp only
  rw [hz]
  dsimp only
  rw [tail]

theorem takeForCtx_free (none_ : z.tail = none) (entitled : ctxEntitled (p.ctx c) p = true) {i : Nat}
    (free : LowestFree (p.ctx c).zone i p) : takeForCtx c p = (.taken, takeFree c i p) := by
  unfold takeForCtx
  dsimp only
  rw [hz]
  dsimp only
  rw [none_]
  dsimp only
  rw [if_pos entitled, (lowestFree_iff ..).2 free]

theorem takeForCtx_waits (none_ : z.tail = none) (entitled : ctxEntitled (p.ctx c) p = true) (full : NoneFree (p.ctx c).zone p) :
    takeForCtx c p = (.waits, noteCtx c .waitedSpace (modZone (p.ctx c).zone (fun z => { z with waiting := z.waiting ++ [c] }) p)) := by
  unfold takeForCtx
  dsimp only
  rw [hz]
  dsimp only
  rw [none_]
  dsimp only
  rw [if_pos entitled, (lowestFree_none ..).2 full]

theorem takeForCtx_refuses (none_ : z.tail = none) (less : ¬ ctxEntitled (p.ctx c) p = true) : takeForCtx c p = (.refused, p) := by
  unfold takeForCtx
  dsimp only
  rw [hz]
  dsimp only
  rw [none_]
  exact if_neg less

/-- R43: the TAIL is taken from its zone. -/
theorem takeTail_spec {t : Nat} (tail : z.tail = some t) (inside : t < p.smp.sectors.length) : TakenBy c t p (takeTail c t p) ∧
    (takeTail c t p).ctx c = { p.ctx c with owned := some t } ∧ ((takeTail c t p).zone (p.ctx c).zone).bind (·.tail) = none := by
  have smp : (takeTail c t p).smp =
      (modSector t (fun s => { s with state := .owned, owner := some (.ctx c) }) (clearTail t p)).smp := modCtx_smp ..
  have sectors : (takeTail c t p).smp.sectors = (modSector t (fun s => { s with state := .owned, owner := some (.ctx c) }) p).smp.sectors :=
    (congrArg Smp.sectors smp :)
  refine ⟨takenBy_of_sectors inside sectors, takeTail_ctx c t p, ?_⟩
  have zone : (takeTail c t p).zone (p.ctx c).zone = (clearTail t p).zone (p.ctx c).zone := by
    unfold Part.zone
    rw [smp, modSector_zones]
  rw [zone, clearTail_zone, hz, Option.map_some, if_pos tail]
  rfl

/-- R54: a context entitled to a sector that its zone has not waits for it. -/
theorem waits_spec : let q := noteCtx c .waitedSpace (modZone (p.ctx c).zone (fun z => { z with waiting := z.waiting ++ [c] }) p)
    q.smp.sectors = p.smp.sectors ∧ q.ctx c = { p.ctx c with notes := (p.ctx c).notes ||| 0x02 } ∧
      q.zone (p.ctx c).zone = some { z with waiting := z.waiting ++ [c] } := by
  intro q
  have smp : q.smp = (modZone (p.ctx c).zone (fun z => { z with waiting := z.waiting ++ [c] }) p).smp := noteCtx_smp ..
  refine ⟨by rw [smp, modZone_sectors], ?_, ?_⟩
  · exact noteCtx_ctx ..
  · have zone : q.zone (p.ctx c).zone = (modZone (p.ctx c).zone (fun z => { z with waiting := z.waiting ++ [c] }) p).zone (p.ctx c).zone := by
      unfold Part.zone
      rw [smp]
    rw [zone, modZone_zone, if_pos rfl, hz]
    rfl

end

/-! ### The runner's take (R43, R53) -/

theorem zone_of_smp (h : q.smp = p.smp) (n : Nat) : q.zone n = p.zone n := by
  unfold Part.zone
  rw [h]

theorem runnerOwns_spec {n i : Nat} (inside : i < p.smp.sectors.length) : (runnerOwns n i p).rcu.owned = some i ∧
    (runnerOwns n i p).sector i = { p.sector i with state := .owned, owner := some .runner } ∧
    (runnerOwns n i p).zone n = p.zone n := by
  unfold runnerOwns
  refine ⟨by rw [reportFree_rcu], ?_, ?_⟩
  · rw [sector_of_smp (reportFree_smp ..)]
    exact sector_modSector_self inside _
  · rw [zone_of_smp (reportFree_smp ..)]
    rfl

section
variable {n : Nat} {z : Zone} (hz : p.zone n = some z)
include hz

/-- R53: the runner takes by the zone's bound, or else by its spare. -/
theorem takeForRunner_takes {i : Nat} (free : LowestFree n i p) (may : reserved n p + 2 ≤ available n p ∨ z.spareInUse = false) :
    (takeForRunner n p).1 = some i ∧ (takeForRunner n p).2.rcu.owned = some i ∧
    (takeForRunner n p).2.sector i = { p.sector i with state := .owned, owner := some .runner } ∧
    (reserved n p + 2 ≤ available n p → (takeForRunner n p).2.zone n = some z) ∧
    (¬ reserved n p + 2 ≤ available n p → (takeForRunner n p).2.zone n = some { z with spareInUse := true }) := by
  have takes := takeForRunner_eq n p
  rw [hz, (lowestFree_iff n i p).2 free] at takes
  dsimp only at takes
  by_cases bound : reserved n p + 2 ≤ available n p
  · rw [if_pos bound] at takes
    obtain ⟨owned, sector, zone⟩ := runnerOwns_spec (n := n) free.1
    rw [takes]
    exact ⟨rfl, owned, sector, fun _ => zone.trans hz, fun h => absurd bound h⟩
  · have spare : z.spareInUse = false := may.resolve_left bound
    rw [if_neg bound, spare] at takes
    obtain ⟨owned, sector, zone⟩ := runnerOwns_spec (p := modZone n (fun r => { r with spareInUse := true }) p) (n := n) free.1
    rw [show takeForRunner n p = (some i, runnerOwns n i (modZone n (fun r => { r with spareInUse := true }) p)) from takes]
    refine ⟨rfl, owned, sector, fun h => absurd h bound, fun _ => zone.trans ?_⟩
    rw [modZone_zone, if_pos rfl, hz]
    rfl

theorem takeForRunner_nothing (h : NoneFree n p ∨ (¬ reserved n p + 2 ≤ available n p ∧ z.spareInUse = true)) :
    takeForRunner n p = (none, p) := by
  rw [takeForRunner_eq, hz]
  rcases h with none_ | ⟨unbound, away⟩
  · rw [(lowestFree_none n p).2 none_]
  · cases lowestFree n p with
    | none => rfl
    | some i =>
      dsimp only
      rw [if_neg unbound, away]
      rfl

end

/-! ### The spare comes back (R53) -/

theorem available_of_sectors (h : q.smp.sectors = p.smp.sectors) (n : Nat) : available n q = available n p := by
  unfold available countState
  rw [h]

theorem reserved_of_wcu (h : q.wcu = p.wcu) (n : Nat) : reserved n q = reserved n p := by
  unfold reserved
  rw [h]

theorem spareDue_iff (n : Nat) (p : Part) :
    spareDue n p = true ↔ ∃ z, p.zone n = some z ∧ z.spareInUse = true ∧ reserved n p + 1 ≤ available n p := by
  unfold spareDue
  cases p.zone n <;> simp

theorem returnSpare_counts (y n : Nat) (p : Part) :
    available n (returnSpare y p) = available n p ∧ reserved n (returnSpare y p) = reserved n p :=
  ⟨available_of_sectors (returnSpare_sectors y p) n, reserved_of_wcu (returnSpare_wcu y p) n⟩

/-- R53: the spare of a zone once it has come back where it was due. -/
theorem returnSpare_zone {n : Nat} {z : Zone} (hz : p.zone n = some z) : (returnSpare n p).zone n =
    some { z with spareInUse := z.spareInUse && decide (available n p < reserved n p + 1) } := by
  have due := spareDue_iff n p
  rw [hz] at due
  unfold returnSpare
  by_cases back : z.spareInUse = true ∧ reserved n p + 1 ≤ available n p
  · rw [if_pos (due.2 ⟨z, rfl, back⟩), zone_of_smp (liftHold_smp ..), modZone_zone, if_pos rfl, hz]
    simp [Nat.not_lt.2 back.2]
  · have stands : ¬ spareDue n p = true := fun h => by
      obtain ⟨_, same, back'⟩ := due.1 h
      obtain rfl := Option.some.inj same
      exact back back'
    rw [if_neg stands, hz]
    have same : (z.spareInUse && decide (available n p < reserved n p + 1)) = z.spareInUse := by
      cases away : z.spareInUse with
      | false => rfl
      | true => simpa using Nat.lt_of_not_le fun h => back ⟨away, h⟩
    rw [same]

/-- R53: a spare that is still IN USE was not due. -/
theorem returnSpare_stands {n : Nat} {z : Zone} (hz : (returnSpare n p).zone n = some z) (away : z.spareInUse = true) :
    available n p < reserved n p + 1 := by
  cases hp : p.zone n with
  | none =>
    have undue : ¬ spareDue n p = true := fun h => by
      obtain ⟨_, some_, -⟩ := (spareDue_iff n p).1 h
      rw [hp] at some_; cases some_
    unfold returnSpare at hz
    rw [if_neg undue, hp] at hz
    cases hz
  | some r =>
    rw [returnSpare_zone hp] at hz
    obtain rfl := Option.some.inj hz
    exact of_decide_eq_true (Bool.and_eq_true_iff.1 away).2

theorem spareReact_none (p : Part) : spareReact p = none ↔
    ∀ n z, ¬ (p.zone n = some z ∧ z.spareInUse = true ∧ reserved n p + 1 ≤ available n p) := by
  have here {n : Nat} {z : Zone} (hz : p.zone n = some z) : n < p.smp.zones.length := by
    by_contra out
    unfold Part.zone at hz
    rw [List.getElem?_eq_none (Nat.le_of_not_lt out)] at hz
    cases hz
  unfold spareReact spareReturn
  rw [Option.map_eq_none_iff, List.find?_eq_none]
  simp only [List.mem_range, spareDue_iff]
  exact ⟨fun h n z back => h n (here back.1) ⟨z, back⟩, fun h n _ ⟨z, back⟩ => h n z back⟩

theorem spareReact_some (h : spareReact p = some q) : ∃ n z, (p.zone n = some z ∧ z.spareInUse = true ∧
    reserved n p + 1 ≤ available n p) ∧ q.zone n = some { z with spareInUse := false } := by
  obtain ⟨n, first, rfl⟩ := Option.map_eq_some_iff.1 h
  obtain ⟨z, hz, away, room⟩ := (spareDue_iff n p).1 (List.find?_some (p := fun z => spareDue z p) first)
  refine ⟨n, z, ⟨hz, away, room⟩, ?_⟩
  rw [returnSpare_zone hz, decide_eq_false (Nat.not_lt.2 room), Bool.and_false]

/-! ### A cut of reservations (R55) -/

/-- R55: the reservation of context `l` is cut before that of `h`: lower level first, then the later WRITE. -/
def CutBefore (l h : CtxId) (p : Part) : Prop :=
  (p.ctx l).level < (p.ctx h).level ∨ ((p.ctx l).level = (p.ctx h).level ∧ (p.ctx h).sequence < (p.ctx l).sequence)

theorem cutOrder_eq {l h : CtxId} (apart : l ≠ h) (before : CutBefore l h p) : cutOrder p = [l, h] := by
  unfold CutBefore at before
  unfold cutOrder
  dsimp only
  cases l <;> cases h
  · exact absurd rfl apart
  · exact if_pos before
  · refine if_neg fun after => ?_
    dsimp only [Part.ctx] at before
    omega
  · exact absurd rfl apart

theorem cutExcess_reservedBy {l h : CtxId} (apart : l ≠ h) (before : CutBefore l h p) (n x : Nat) :
    reservedBy n ((cutExcess n x p).ctx l) = reservedBy n (p.ctx l) - x ∧
    reservedBy n ((cutExcess n x p).ctx h) = reservedBy n (p.ctx h) - (x - reservedBy n (p.ctx l)) := by
  obtain ⟨rest, first, -⟩ := cutCtx_spec l l n x p
  obtain ⟨-, kept, -⟩ := cutCtx_spec l h n x p
  have last (d : CtxId) := (cutCtx_spec h d n (cutCtx l n x p).1 (cutCtx l n x p).2).2.1
  have cut : cutExcess n x p = (cutCtx h n (cutCtx l n x p).1 (cutCtx l n x p).2).2 := by
    unfold cutExcess
    rw [cutOrder_eq apart before]
    rfl
  rw [if_pos rfl] at first
  rw [if_neg (Ne.symm apart)] at kept
  rw [cut, last, last, if_neg apart, if_pos rfl, first, kept, rest]
  exact ⟨rfl, rfl⟩

/-- R55: what a zone's reservation exceeds its bound by. -/
def excessOf (n : Nat) (z : Zone) (p : Part) : Nat :=
  if z.spareInUse then reserved n p - available n p else reserved n p + 1 - available n p

/-- R55, R130: the part at which the excess is cut, and a hold lifted for it. -/
def excessCut (n : Nat) (z : Zone) (p : Part) : Part := liftIfCut n (reserved n p) (cutExcess n (excessOf n z p) p)

theorem excessCut_ctx (n : Nat) (z : Zone) (p : Part) (c : CtxId) : (excessCut n z p).ctx c = (cutExcess n (excessOf n z p) p).ctx c := by
  unfold excessCut liftIfCut
  split
  · exact liftHold_ctx ..
  · rfl

theorem excessCut_smp (n : Nat) (z : Zone) (p : Part) : (excessCut n z p).smp = p.smp := by
  have cut := (cutExcess_smp_rcu n (excessOf n z p) p).1
  unfold excessCut liftIfCut
  split
  · rw [liftHold_smp]; exact cut
  · exact cut

section
variable {n : Nat} {z : Zone} (hz : p.zone n = some z)
include hz

theorem cutReservations_eq_excess : cutReservations n p = if excessOf n z p = 0 then p else loseSpare n z (excessCut n z p) := by
  unfold cutReservations
  rw [hz]
  rfl

theorem cutReservations_reservedBy {l h : CtxId} (apart : l ≠ h) (before : CutBefore l h p) :
    reservedBy n ((cutReservations n p).ctx l) = reservedBy n (p.ctx l) - excessOf n z p ∧
    reservedBy n ((cutReservations n p).ctx h) = reservedBy n (p.ctx h) - (excessOf n z p - reservedBy n (p.ctx l)) := by
  rw [cutReservations_eq_excess hz]
  by_cases none_ : excessOf n z p = 0
  · rw [if_pos none_, none_, Nat.zero_sub]
    exact ⟨rfl, rfl⟩
  · have ctx (c : CtxId) : (loseSpare n z (excessCut n z p)).ctx c = (cutExcess n (excessOf n z p) p).ctx c :=
      (ctx_of_wcu (loseSpare_kept (z := n) n z (excessCut n z p)).2.1 c).trans (excessCut_ctx n z p c)
    rw [if_neg none_, ctx, ctx]
    exact cutExcess_reservedBy apart before n _

/-- R55: a spare AVAILABLE is lost when the cut did not bring the reservation under its bound. -/
theorem cutReservations_spare (exceeds : 0 < excessOf n z p) (home : z.spareInUse = false) : (cutReservations n p).zone n =
    some { z with spareInUse := decide (available n (cutReservations n p) < reserved n (cutReservations n p) + 1) } := by
  rw [cutReservations_eq_excess hz, if_neg (Nat.ne_of_gt exceeds)]
  obtain ⟨sectors, wcu, -⟩ := loseSpare_kept (z := n) n z (excessCut n z p)
  rw [available_of_sectors sectors, reserved_of_wcu wcu]
  have zone : (excessCut n z p).zone n = some z := (zone_of_smp (excessCut_smp n z p) n).trans hz
  unfold loseSpare
  rw [home]
  by_cases lost : available n (excessCut n z p) < reserved n (excessCut n z p) + 1
  · rw [if_pos (by simpa using lost), modZone_zone, if_pos rfl, zone, decide_eq_true lost]
    rfl
  · rw [if_neg (by simpa using lost), zone, decide_eq_false lost, ← home]

end

/-! ### The spare at a context's end (R53, R97) -/

/-- R97: the part at which the context that ends gives up its sector. -/
def givenUp (c : CtxId) (p : Part) : Part :=
  let p1 := removeTaker c (withdraw (.ctx c) p)
  giveUpCtx (p.ctx c) (if (p.ctx c).commit = .switched then p1 else releasePending (p.ctx c) p1)

theorem released_eq (c : CtxId) (p : Part) : released c p = clearOpenCtx c (p.ctx c).slot (returnReservation c (givenUp c p)) := rfl

theorem givenUp_zone (c : CtxId) (p : Part) : ((givenUp c p).ctx c).zone = (p.ctx c).zone := by
  obtain ⟨x, y, z, h, -⟩ := releaseAndGiveUp_counts (p.ctx c) (removeTaker c (withdraw (.ctx c) p))
  have kept := congrArg WriteCtx.zone ((h.ctx c).trans (by rw [recount_ctx]))
  exact kept

theorem released_spare {c : CtxId} {z : Zone} (hz : (released c p).zone (p.ctx c).zone = some z) (away : z.spareInUse = true) :
    available (p.ctx c).zone (released c p) < reserved (p.ctx c).zone (released c p) + 1 := by
  rw [released_eq, ← givenUp_zone c p] at hz ⊢
  have counts := returnSpare_counts ((givenUp c p).ctx c).zone ((givenUp c p).ctx c).zone
  show available _ (returnReservation c (givenUp c p)) < reserved _ (returnReservation c (givenUp c p)) + 1
  unfold returnReservation
  rw [(counts _).1, (counts _).2]
  exact returnSpare_stands hz away

theorem endCtx_spare {c : CtxId} {st : Status} (rests : claimRuns (.ctx c) p = false) {z : Zone}
    (hz : (endCtx c st p).zone (p.ctx c).zone = some z) (away : z.spareInUse = true) :
    available (p.ctx c).zone (endCtx c st p) < reserved (p.ctx c).zone (endCtx c st p) + 1 := by
  obtain ⟨smp, other, none_⟩ : (endCtx c st p).smp = (released c p).smp ∧ (∀ d, d ≠ c → (endCtx c st p).ctx d = (released c p).ctx d) ∧
      ((endCtx c st p).ctx c).reservation = 0 := by
    refine ⟨?_, fun d hd => ?_, (endCtx_ended rests).2.2.2.1⟩
    all_goals
      unfold endCtx
      rw [if_neg (by rw [rests]; exact Bool.false_ne_true), finishEnd_released]
    · exact modCtx_smp ..
    · exact (pushReply_ctx ..).trans (modCtx_ctx_other hd _ _)
  have reserve : reserved (p.ctx c).zone (endCtx c st p) = reserved (p.ctx c).zone (released c p) := by
    refine reserved_eq fun d => ?_
    by_cases hd : d = c
    · subst hd
      rw [reservedBy_none (.inl none_), reservedBy_none (.inl (by rw [(released_spec d p).self]))]
    · rw [other d hd]
  rw [available_of_sectors (congrArg Smp.sectors smp), reserve]
  exact released_spare ((zone_of_smp smp _).symm.trans hz) away

end Sys2Proof.Machine
end

