-- ==== Sys2Proof/Proofs/SectorMapRules.lean ====
section
/-! O58. The Sector Map's counts and suspect sectors (R28, R44, R46, R48, R127), and the obligation with the answers of `SectorMap`. -/
namespace Sys2Proof.Machine

variable {p q : Part}

/-! ### The bytes at a commit (R28) -/

/-- In `q` the three counts of each sector of `p` are changed by functions of its number, and the store's state is the same. -/
structure CountsMoved (a b c : Nat → Nat → Nat) (p q : Part) : Prop where
  scu    : q.scu = p.scu
  length : q.smp.sectors.length = p.smp.sectors.length
  counts : ∀ j < p.smp.sectors.length, (q.sector j).live = a j (p.sector j).live ∧
             (q.sector j).pending = b j (p.sector j).pending ∧ (q.sector j).retiring = c j (p.sector j).retiring

theorem MapStep.countsMoved {a b c : Nat → Nat → Nat} (h : MapStep (recount a b c p.unqueued) q) : CountsMoved a b c p q where
  scu := h.scu
  length := h.length.trans List.length_mapIdx
  counts := fun j hj => by
    obtain ⟨-, -, live, pending, retiring⟩ := h.counts j
    rw [recount_sector, if_pos (show j < p.unqueued.smp.sectors.length from hj)] at live pending retiring
    exact ⟨live, pending, retiring⟩

theorem CountsMoved.of_start {a b c : Nat → Nat → Nat} {r : Part} (h : CountsMoved a b c r q) (smp : r.smp = p.smp) (scu : r.scu = p.scu) :
    CountsMoved a b c p q where
  scu := h.scu.trans scu
  length := by rw [h.length, smp]
  counts := fun j hj => by
    rw [← sector_of_smp smp]
    exact h.counts j (smp ▸ hj)

theorem forElems_pendingToLive_moved (es : List Elem) (p : Part) :
    CountsMoved (fun j m => m + spaceOf j es) (fun j m => m - spaceOf j es) same p (forElems pendingToLive es p) := by
  have moved := forElems_pendingToLive (a := same) (b := same) (c := same) (p := p.unqueued) rfl es (fun _ => 0) p (MapStep.refl p).unqueued
  simp only [Nat.zero_add] at moved
  exact moved.countsMoved

theorem forElems_liveToRetiring_moved (es : List Elem) (p : Part) :
    CountsMoved (fun j m => m - spaceOf j es) same (fun j m => m + spaceOf j es) p (forElems liveToRetiring es p) := by
  have moved := forElems_liveToRetiring (a := same) (b := same) (c := same) (p := p.unqueued) rfl es (fun _ => 0) p (MapStep.refl p).unqueued
  simp only [Nat.zero_add] at moved
  exact moved.countsMoved

theorem firstCommitted_moved (c : CtxId) (p : Part) : CountsMoved (fun j m => m + spaceOf j (p.ctx c).elems)
    (fun j m => m - spaceOf j (p.ctx c).elems) same p (firstCommitted c p) :=
  (forElems_pendingToLive_moved ..).of_start (modCtx_smp ..) (modCtx_scu ..)

theorem furtherCommitted_moved (c : CtxId) (p : Part) : CountsMoved (fun j m => m + spaceOf j (p.ctx c).elems)
    (fun j m => m - spaceOf j (p.ctx c).elems) same p (furtherCommitted c p) :=
  (forElems_pendingToLive_moved ..).of_start (modCtx_smp ..) (modCtx_scu ..)

/-- R28: the bytes of a generation that retires. -/
theorem retire_moved (e : DirEntry) (level : Nat) (w : Option CtxId) (p : Part) : CountsMoved (fun j m => m - spaceOf j e.extents) same
    (fun j m => m + spaceOf j e.extents) p (retire e level w p) := by
  cases hx : e.extents with
  | nil =>
    unfold retire
    rw [hx]
    exact ⟨rfl, rfl, fun _ _ => ⟨rfl, rfl, rfl⟩⟩
  | cons h es =>
    rw [retire_eq hx, hx]
    obtain ⟨scu, length, counts⟩ := forElems_liveToRetiring_moved (h :: es) { p with sdr := { p.sdr with
      retiring := p.sdr.retiring ++ [e.record h level w (e.relocating && headRelocating e.slot e.sequence p)] } }
    dsimp only
    split
    · exact ⟨scu, length, counts⟩
    · rw [raiseObsolete_eq]
      exact ⟨scu, length, counts⟩

/-- R28: a commit over an earlier generation moves its bytes too. -/
theorem superseded_moved (c : CtxId) (e : DirEntry) (p : Part) :
    CountsMoved (fun j m => m + spaceOf j (p.ctx c).elems - spaceOf j e.extents) (fun j m => m - spaceOf j (p.ctx c).elems)
      (fun j m => m + spaceOf j e.extents) p (superseded c e p) := by
  have further := furtherCommitted_moved c p
  have old := retire_moved e (p.ctx c).level (waiter c (p.ctx c)) (furtherCommitted c p)
  have served := reissueAtSwitch_servedStep (.refl (retire e (p.ctx c).level (waiter c (p.ctx c)) (furtherCommitted c p))) (p.ctx c).slot
  refine ⟨served.scu.trans (old.scu.trans further.scu), ?_, fun j hj => ?_⟩
  · exact (congrArg (fun s : Smp => s.sectors.length) served.smp).trans (old.length.trans further.length)
  · obtain ⟨live, pending, retiring⟩ := further.counts j hj
    obtain ⟨live', pending', retiring'⟩ := old.counts j (further.length.symm ▸ hj)
    rw [superseded, served.sector, live', pending', retiring', live, pending, retiring]
    exact ⟨rfl, rfl, rfl⟩

/-- R97: a context whose generation is committed has no pending bytes to release at its end. -/
theorem finishEnd_switched_counts {c : CtxId} (mounted : p.mounted = true) (switched : (p.ctx c).commit = .switched)
    (st : Option Status) (j : Nat) : ((finishEnd c st p).sector j).live = (p.sector j).live ∧
      ((finishEnd c st p).sector j).pending = (p.sector j).pending ∧ ((finishEnd c st p).sector j).retiring = (p.sector j).retiring := by
  have sector : (finishEnd c st p).sector j = (released c p).sector j := by
    rw [finishEnd_released]
    cases st <;> exact modCtx_sector ..
  obtain ⟨live, retiring, pending⟩ := (released_spec c p).counts mounted j
  rw [WriteCtx.pendingIn, if_pos switched, Nat.sub_zero] at pending
  rw [sector]
  exact ⟨live, pending, retiring⟩

/-- R28: the bytes that a commit moves, with those of the generation superseded, if there is one. -/
theorem commitSwitch_counts {c : CtxId} (mounted : p.mounted = true) {old : List Elem}
    (none_ : p.entryOf (p.ctx c).slot = none → old = []) (some_ : ∀ e, p.entryOf (p.ctx c).slot = some e → old = e.extents)
    {i : Nat} (inside : i < p.smp.sectors.length) :
    ((commitSwitch c p).sector i).live = (p.sector i).live + spaceOf i (p.ctx c).elems - spaceOf i old ∧
    ((commitSwitch c p).sector i).pending = (p.sector i).pending - spaceOf i (p.ctx c).elems ∧
    ((commitSwitch c p).sector i).retiring = (p.sector i).retiring + spaceOf i old := by
  have mounts {r : Part} (h : r.scu = p.scu) : r.mounted = true := by unfold Part.mounted; rw [h]; exact mounted
  cases he : p.entryOf (p.ctx c).slot with
  | none =>
    have moved := firstCommitted_moved c p
    obtain ⟨live, pending, retiring⟩ := moved.counts i inside
    have ended := finishEnd_switched_counts (mounts moved.scu) (congrArg WriteCtx.commit (firstCommitted_ctx c p))
    rw [commitSwitch_first he, none_ he, (ended _ i).1, (ended _ i).2.1, (ended _ i).2.2]
    exact ⟨live, pending, retiring⟩
  | some e =>
    have moved := superseded_moved c e p
    obtain ⟨live, pending, retiring⟩ := moved.counts i inside
    have ended := finishEnd_switched_counts (mounts moved.scu) (congrArg WriteCtx.commit (superseded_kept c e p).1)
    rw [commitSwitch_further he, some_ e he]
    split
    · rw [(ended _ i).1, (ended _ i).2.1, (ended _ i).2.2]
      exact ⟨live, pending, retiring⟩
    · exact ⟨live, pending, retiring⟩

/-! ### A SEALED sector judged (R46, R48, R53) -/

section
variable {i : Nat} (sealed : (p.sector i).state = .sealed)
include sealed

theorem judgeSector_sealedState (inside : i < p.smp.sectors.length) : SealedState p i ((judgeSector i p).sector i).state := by
  refine sealedState_of ?_
  rw [judgeSector_sector]
  by_cases empty : ((p.sector i).countsZero && !copyUncounted i p) = true
  · rw [if_pos ⟨rfl, sealed, empty, inside⟩, if_pos empty]
  · rw [if_neg fun h => empty h.2.2.1, if_neg empty]
    exact sealed

/-- R46, R53, R121: a sector judged empty leaves the evacuation queue for the erase queue, and its zone's spare comes back where due. -/
theorem judgeSector_emptied_spec (mounted : p.mounted = true) (emptied : p.emptied i) :
    i ∉ (judgeSector i p).rcu.evacQueue ∧
    (i ∈ (judgeSector i p).rcu.eraseQueue ∨ ∃ b, (judgeSector i p).rcu.openBatch = some b ∧ i ∈ b.sectors) ∧
    ∀ z, p.zone (p.sector i).zone = some z → (judgeSector i p).zone (p.sector i).zone = some { z with
      spareInUse := z.spareInUse && decide (available (p.sector i).zone (judgeSector i p) < reserved (p.sector i).zone (judgeSector i p) + 1) } := by
  obtain ⟨queue, batch, -⟩ := (judgeSector_sameErase sealed).1 mounted emptied
  have judged : judgeSector i p = returnSpare (p.sector i).zone ((joinErase i p).staleAt i) :=
    (judgeSector_emptied sealed emptied).trans (becomeStale_mounted mounted i)
  refine ⟨?_, ?_, fun z hz => ?_⟩
  · obtain ⟨zs, h, spare, -⟩ := returnSpare_eq (p.sector i).zone ((joinErase i p).staleAt i)
    rw [judged, spare]
    simp [Part.staleAt]
  · rw [queue, batch]
    exact joinErase_holds i p
  · have zone : ((joinErase i p).staleAt i).zone (p.sector i).zone = some z := (zone_of_smp (q := joinErase i p) (joinErase_smp i p) _).trans hz
    obtain ⟨avail, reserve⟩ := returnSpare_counts (p.sector i).zone (p.sector i).zone ((joinErase i p).staleAt i)
    rw [judged, avail, reserve]
    exact returnSpare_zone zone

/-- R48, R127: a suspect sector with bytes to move is in the evacuation queue. -/
theorem judgeSector_evacuates (mounted : p.mounted = true) (suspect : (p.sector i).suspect = true)
    (bytes : 0 < (p.sector i).live ∨ 0 < (p.sector i).retiring) : i ∈ (judgeSector i p).rcu.evacQueue := by
  have holds : ¬ ((p.sector i).countsZero && !copyUncounted i p) = true := by
    rw [← emptied_iff]
    rintro ⟨live, -, retiring, -⟩
    omega
  have moves : (decide (0 < (p.sector i).live) || decide (0 < (p.sector i).retiring)) = true := by simpa using bytes
  unfold judgeSector
  dsimp only
  rw [if_pos sealed, if_neg holds, mounted, suspect, moves]
  by_cases listed : i ∈ p.rcu.evacQueue <;> simp [listed]

end

/-! ### Becoming suspect (R44, R48) -/

/-- R44: a sector sealed after operations of the Sector Map. -/
theorem sealSector_sealedState (h : MapStep p q) {i : Nat} (inside : i < p.smp.sectors.length) :
    SealedState p i ((sealSector i q).sector i).state :=
  (h.sealedState_iff i _).1 (sealSector_self (h.length.symm ▸ inside)).2.1

theorem sealSector_untailed (i : Nat) (p : Part) : ∀ z ∈ (sealSector i p).smp.zones, z.tail ≠ some i := by
  intro z hz tail
  have listed := List.mem_map_of_mem (f := fun z : Zone => { z with spareInUse := false }) hz
  rw [sealSector_zones, List.map_map] at listed
  obtain ⟨r, -, e⟩ := List.mem_map.1 listed
  have same : (if r.tail = some i then { r with tail := none } else r).tail = z.tail := (congrArg Zone.tail e :)
  rw [tail] at same
  split at same
  · cases same
  · contradiction

theorem makeSuspect_marked (i : Nat) (o : Option Holder) (p : Part) : MapStep (markSuspect i p) (makeSuspect i o p) := by
  unfold makeSuspect
  split
  · exact sealFailed_mapStep (.refl _) i
  · exact settleSuspect_mapStep (.refl _) i _

theorem markSuspect_known {i : Nat} (suspect : (p.sector i).suspect = true) : markSuspect i p = setCond .media p := by
  unfold markSuspect
  dsimp only
  rw [if_pos suspect]

theorem markSuspect_new {i : Nat} (sound : (p.sector i).suspect = false) : markSuspect i p =
    raiseSuspectMark i 1 (modSector i (fun s => { s with suspect := true }) (setCond .media p)) := by
  unfold markSuspect
  dsimp only
  rw [if_neg (ne_true_of_eq_false sound)]

theorem markSuspect_kept (i : Nat) (p : Part) : (markSuspect i p).link = (setCond .media p).link ∧ (markSuspect i p).wcu = p.wcu ∧
    (markSuspect i p).rcu = p.rcu ∧ (markSuspect i p).pee.op = p.pee.op := by
  cases suspect : (p.sector i).suspect with
  | true => rw [markSuspect_known suspect]; exact ⟨rfl, rfl, rfl, rfl⟩
  | false =>
    rw [markSuspect_new suspect, raiseSuspectMark]
    exact ⟨raise_link .., raise_wcu .., raise_rcu .., raise_op ..⟩

theorem makeSuspect_media {i : Nat} {o : Option Holder} (len : p.link.conds.length = 8) :
    ∃ r, (makeSuspect i o p).link.conds[5]? = some r ∧ r.set = true := by
  have set : (markSuspect i p).link.conds[5]? = some { p.link.conds[5] with set := true } := by
    rw [(markSuspect_kept i p).1]
    simp [setCond, Cond.index, len]
  obtain ⟨t, ht, stays, -⟩ := (makeSuspect_marked i o p).conds 5 _ set
  exact ⟨t, ht, stays rfl⟩

/-- R48: the SUSPECT mark's first claim. -/
theorem makeSuspect_claim {i : Nat} (o : Option Holder) (sound : (p.sector i).suspect = false) :
    ({ age := p.pee.nextAge, purpose := .suspectMark i 1, kind := .mark, level := 0, target := .bytes i 30 [0x00] } : Claim) ∈
      (makeSuspect i o p).pee.claims := by
  obtain ⟨l, claims, -⟩ := (makeSuspect_marked i o p).claims
  rw [claims, markSuspect_new sound, raiseSuspectMark, raise_claims]
  simp [suspectOffset]

theorem extentOpen_markSuspect {i : Nat} (inside : i < p.smp.sectors.length) : extentOpen i (markSuspect i p) = extentOpen i p := by
  obtain ⟨-, wcu, rcu, op⟩ := markSuspect_kept i p
  have owner : ((markSuspect i p).sector i).owner = (p.sector i).owner := by rw [markSuspect_sector inside, if_pos rfl]
  have waits (c : CtxId) : purposeWaits (.ctxFirst c) (markSuspect i p) = purposeWaits (.ctxFirst c) p := by
    unfold purposeWaits
    cases suspect : (p.sector i).suspect with
    | true => rw [markSuspect_known suspect]; rfl
    | false =>
      rw [markSuspect_new suspect, raiseSuspectMark, raise_claims, List.any_append]
      exact Bool.or_false _
  unfold extentOpen
  simp only [owner, waits, purposeRuns, op, rcu, ctx_of_wcu wcu]

theorem makeSuspect_other (i : Nat) (p : Part) : makeSuspect i none p = settleSuspect i (p.sector i).state (markSuspect i p) := rfl

theorem makeSuspect_failed {i : Nat} {o : Holder} (owner : (p.sector i).owner = some o) :
    makeSuspect i (some o) p = sealFailed i (markSuspect i p) := by
  unfold makeSuspect
  rw [if_pos (by rw [owner]; simp)]

section
variable {i : Nat} (inside : i < p.smp.sectors.length)
include inside

theorem makeSuspect_ownFailure {o : Option Holder} (some_ : o ≠ none) (owner : (p.sector i).owner = o) :
    ((makeSuspect i o p).sector i).nextWrite = 4096 ∧ ((makeSuspect i o p).sector i).owner = none ∧
      SealedState p i ((makeSuspect i o p).sector i).state := by
  obtain ⟨h, rfl⟩ := Option.ne_none_iff_exists'.1 some_
  obtain ⟨nextWrite, none_⟩ := makeSuspect_loses inside owner
  refine ⟨nextWrite, none_, ?_⟩
  rw [makeSuspect_failed owner]
  exact sealSector_sealedState (modSector_mapStep (markSuspect_mapStep (.refl p) i) i (fun s => { s with nextWrite := 4096 })
    fun _ => ⟨rfl, rfl, rfl, rfl, rfl, id⟩) inside

/-- R48: a sector without an open extent, not yet sealed, is sealed when it becomes suspect. -/
theorem makeSuspect_seals (h : settleSuspect i (p.sector i).state (markSuspect i p) = sealSector i (markSuspect i p)) :
    SealedState p i ((makeSuspect i none p).sector i).state ∧ ∀ z ∈ (makeSuspect i none p).smp.zones, z.tail ≠ some i := by
  rw [makeSuspect_other, h]
  exact ⟨sealSector_sealedState (markSuspect_mapStep (.refl p) i) inside, sealSector_untailed i _⟩

theorem settleSuspect_owned (owned : (p.sector i).state = .owned) : settleSuspect i (p.sector i).state (markSuspect i p) =
    if extentOpen i p = true then markSuspect i p else sealSector i (markSuspect i p) := by
  rw [owned, ← extentOpen_markSuspect inside]
  rfl

end

/-- R48: while the runner writes in its sector, from the first stage to the close, the extent in it is open. -/
theorem extentOpen_runner {i : Nat} (owner : (p.sector i).owner = some .runner) : extentOpen i p = true ↔
    ∃ st, p.rcu.step = some st ∧ st.newSector = i ∧ (st.phase = .firstStage ∨ st.phase = .data ∨ st.phase = .closing) := by
  unfold extentOpen
  rw [owner]
  cases p.rcu.step with
  | none => simp
  | some st => cases hp : st.phase <;> simp [hp]

/-! ### The whole -/

/-- Settles O58: the answers of the Sector Map, its counts at a commit, and what becomes of a sector that is judged or made suspect. -/
theorem sectorMapRules : Obligations.SectorMapRules := by
  unfold Obligations.SectorMapRules
  refine ⟨?giveUp, ?ctxTake, ?runnerTake, ?cut, ?spare, ?commit, ?judge, ?suspect, ?mark, ?ended⟩
  case giveUp =>
    exact fun p i z mounted inside hz => ⟨giveUp_owner i p, giveUp_becomesTail mounted hz inside,
      fun t fit tail apart less => giveUp_replacesTail mounted hz inside fit tail apart less, giveUp_sealedState mounted hz inside⟩
  case ctxTake =>
    refine fun p c z hz => ⟨fun t tail inside => ?_, fun none_ entitled i free => ?_, fun none_ entitled full => ?_, fun none_ less => ?_⟩
    · obtain ⟨⟨taken, others⟩, ctx, zone⟩ := takeTail_spec hz tail inside
      rw [takeForCtx_tail hz tail]
      exact ⟨⟨rfl, taken, others⟩, ctx, zone⟩
    · obtain ⟨⟨taken, others⟩, ctx⟩ := takeFree_spec c free.1
      rw [takeForCtx_free hz none_ ((ctxEntitled_iff ..).2 entitled) free]
      exact ⟨⟨rfl, taken, others⟩, ctx⟩
    · rw [takeForCtx_waits hz none_ ((ctxEntitled_iff ..).2 entitled) full]
      exact ⟨rfl, waits_spec hz⟩
    · exact takeForCtx_refuses hz none_ (less ∘ (ctxEntitled_iff ..).1)
  case runnerTake =>
    exact fun p n z hz => ⟨fun i => takeForRunner_takes hz, takeForRunner_nothing hz⟩
  case cut =>
    refine fun p n z l h hz => ⟨fun none_ => ?_, fun apart before => cutReservations_reservedBy hz apart before, cutReservations_spare hz⟩
    rw [cutReservations_eq_excess hz]
    exact if_pos none_
  case spare => exact fun p => ⟨spareReact_none p, fun q => spareReact_some⟩
  case commit =>
    intro p c mounted k q old i inside
    refine commitSwitch_counts mounted (old := old) (fun none_ => ?_) (fun e he => ?_) inside
    · show (match p.entryOf (p.ctx c).slot with | some d => d.extents | none => []) = []
      rw [none_]
    · show (match p.entryOf (p.ctx c).slot with | some d => d.extents | none => []) = e.extents
      rw [he]
  case judge =>
    exact fun p i inside sealed mounted => ⟨judgeSector_sealedState sealed inside, judgeSector_emptied_spec sealed mounted,
      judgeSector_evacuates sealed mounted⟩
  case suspect =>
    intro p i o inside len
    obtain ⟨-, -, live, pending, retiring⟩ := (makeSuspect_mapStep (.refl p) i o).counts i
    refine ⟨makeSuspect_suspect_any inside o, makeSuspect_media len, live, pending, retiring, makeSuspect_claim o,
      makeSuspect_ownFailure inside, ?_, ?_, ?_, ?_, extentOpen_runner⟩
    · rintro rfl tail
      exact makeSuspect_seals inside (by rw [tail]; rfl)
    · rintro rfl free
      exact (makeSuspect_seals inside (by rw [free]; rfl)).1
    · rintro rfl owned closed
      exact (makeSuspect_seals inside (by rw [settleSuspect_owned inside owned, if_neg (ne_true_of_eq_false closed)])).1
    · rintro rfl owned open_
      rw [makeSuspect_other, settleSuspect_owned inside owned, if_pos open_, markSuspect_sector inside, if_pos rfl]
      exact owned
  case mark =>
    refine fun p i n j o r => ⟨fun failed few => ?_, fun ends => ?_⟩
    · show suspectMarkDone i n r.ok p = _
      unfold suspectMarkDone
      rw [failed, if_neg Bool.false_ne_true, if_pos few]
      rfl
    · show suspectMarkDone i n r.ok p = _
      unfold suspectMarkDone
      rcases ends with ok | many
      · exact if_pos ok
      · rw [if_neg (Nat.not_lt.2 many), ite_self]
  case ended => exact fun p c st rests z hz away => endCtx_spare rests hz away

end Sys2Proof.Machine
end

section
/-! SUPPORT. Suspensions: the claims that start one, TUNE's, and the look in SUSPENDED with the notes it takes (R59, R60, R72 to
R78, R158). -/
namespace Sys2Proof.Machine

variable {p q : Part}

/-! ### A claim that joins (R59, R72, R73) -/

/-- R72: the preempting test, in the words of the statements. -/
theorem preempting_iff (l : Nat) (c : Claim) : preempting l c = true ↔ Preempts l c.kind c.level := by
  unfold preempting Preempts
  cases c.kind <;> simp

/-- R73: a suspension starts with a claim only in ERASING, with budget left, for a preempting one. -/
theorem raise_starts {u : Purpose} {k : OpKind} {l : Nat} {t : Target} (erasing : p.pee.state = .erasing)
    (budget : 1 ≤ p.pee.budget) (preempts : Preempts p.pee.preempt k l) : raise u k l t p = startSuspension p.pee.nextAge
      { p with pee := { p.pee with
        claims := p.pee.claims ++ [{ age := p.pee.nextAge, purpose := u, kind := k, level := l, target := t }]
        nextAge := p.pee.nextAge + 1 } } :=
  if_pos ⟨erasing, budget, (preempting_iff _ _).2 preempts⟩

theorem raise_joins {u : Purpose} {k : OpKind} {l : Nat} {t : Target}
    (none_ : p.pee.state ≠ .erasing ∨ p.pee.budget = 0 ∨ ¬ Preempts p.pee.preempt k l) : raise u k l t p =
      { p with pee := { p.pee with
        claims := p.pee.claims ++ [{ age := p.pee.nextAge, purpose := u, kind := k, level := l, target := t }]
        nextAge := p.pee.nextAge + 1 } } := by
  refine if_neg ?_
  rintro ⟨erasing, budget, preempts⟩
  rcases none_ with state | empty | other
  · exact state erasing
  · omega
  · exact other ((preempting_iff _ _).1 preempts)

/-- Settles O48. -/
theorem suspensionStarts : Obligations.SuspensionStarts := by
  intro p u k l t q
  obtain ⟨rest, claims, nextAge, batch⟩ := raise_spec u k l t p
  have preempt : q.pee.preempt = p.pee.preempt := congrArg Settings.preempt (raise_quiet (Quiet.refl p) u k l t).1
  refine ⟨rest, claims, nextAge, raise_op u k l t p, batch, preempt, fun erasing budget preempts => ?_, fun none_ => ?_⟩
  · have starts : q = _ := raise_starts erasing budget preempts
    rw [starts]
    exact ⟨rfl, rfl, rfl⟩
  · have joins : q = _ := raise_joins none_
    rw [joins]
    exact ⟨rfl, rfl, rfl⟩

/-! ### TUNE (R78, R158) -/

/-- R78: the oldest waiting claim that the new level makes preempting starts a suspension, in ERASING with budget left. -/
theorem setPreempt_starts {n : Nat} {c : Claim}
    (newly : p.pee.claims.find? (fun c => preempting n c && !preempting p.pee.preempt c) = some c)
    (erasing : p.pee.state = .erasing) (budget : 1 ≤ p.pee.budget) :
    setPreempt n p = startSuspension c.age { p with pee := { p.pee with preempt := n } } := by
  rw [← List.head?_filter] at newly
  obtain ⟨cs, newly⟩ := List.head?_eq_some_iff.1 newly
  simp only [setPreempt, newlyPreempting, newly]
  exact if_pos ⟨erasing, budget⟩

theorem setPreempt_sets {n : Nat}
    (none_ : p.pee.claims.find? (fun c => preempting n c && !preempting p.pee.preempt c) = none ∨ p.pee.state ≠ .erasing ∨
      p.pee.budget = 0) : setPreempt n p = { p with pee := { p.pee with preempt := n } } := by
  unfold setPreempt newlyPreempting
  split
  · rename_i c cs newly
    refine if_neg ?_
    rintro ⟨erasing, budget⟩
    rw [← List.head?_filter, newly] at none_
    rcases none_ with found | state | empty
    · cases found
    · exact state erasing
    · omega
  · rfl

/-- R158: a TUNE that the part takes is answered as it stands with its push ended. -/
theorem tune_answers {tag level r l : Byte} {s : State} (listens : s.part.listens) {st : Status} {q : Part}
    (takes : takeTune tag r l (s.part.pushed 9) = placeDirect 0x05 tag st [] q) :
    Answers (.tune tag level r l) s 0x05 tag st [] q := by
  refine ⟨_, ?_, placeDirect_answers 0x05 tag st [] q⟩
  rw [← takes, ← push_listens listens 9 (takeTune tag r l)]
  rfl

theorem takeTune_valid {r l : Byte} (hr : r.toNat ≤ 7) (hl : 1 ≤ l.toNat) (hl' : l.toNat ≤ 7) (tag : Byte) (p : Part) :
    takeTune tag r l p =
      placeDirect 0x05 tag .ok [] (setPreempt l.toNat { p with rqs := { p.rqs with reserve := r.toNat } }) :=
  if_pos ⟨hr, hl, hl'⟩

/-- Settles O23. -/
theorem tuneSetsBoth : Obligations.TuneSetsBoth := by
  intro tag level r l s listens p newly set
  refine ⟨fun hr hl hl' => ⟨fun c found erasing budget => ?_, fun none_ => ?_⟩, fun range => ?_⟩
  · refine tune_answers listens ((takeTune_valid hr hl hl' tag p).trans ?_)
    rw [setPreempt_starts (p := { p with rqs := { p.rqs with reserve := r.toNat } }) found erasing budget]
    rfl
  · refine tune_answers listens ((takeTune_valid hr hl hl' tag p).trans ?_)
    rw [setPreempt_sets (p := { p with rqs := { p.rqs with reserve := r.toNat } }) none_]
  · exact tune_answers listens (if_neg (by omega))

/-! ### Notes of served requests (R60, R156) -/

/-- What a claim's served request has gathered is read from the contexts' notes, the serving records, the retiring list, the
runner's step and its COMPACT. -/
theorem servedNotes_congr (ctx : ∀ c, (q.ctx c).notes = (p.ctx c).notes) (sdr : q.sdr = p.sdr) (rcu : q.rcu = p.rcu)
    (u : Purpose) : servedNotes u q = servedNotes u p := by
  unfold servedNotes Part.servingOf Part.retiringOf
  rw [sdr, rcu]
  cases u.owner <;> simp only [ctx]

/-- R156: a note for a context's WRITE. -/
theorem noteCtx_notes (c d : CtxId) (n : Note) (p : Part) :
    ((noteCtx c n p).ctx d).notes = if d = c then (p.ctx d).notes ||| n.bit else (p.ctx d).notes := by
  split
  · rename_i e
    rw [e, noteCtx_ctx]
  · rename_i e
    rw [noteCtx, modCtx_ctx_other e]

@[simp] theorem noteCtx_sdr (c : CtxId) (n : Note) (p : Part) : (noteCtx c n p).sdr = p.sdr := modCtx_sdr ..

@[simp] theorem noteCtx_pee (c : CtxId) (n : Note) (p : Part) : (noteCtx c n p).pee = p.pee := modCtx_pee ..

@[simp] theorem noteCtx_rcu (c : CtxId) (n : Note) (p : Part) : (noteCtx c n p).rcu = p.rcu := modCtx_rcu ..

theorem noteCtx_retiringOf (c : CtxId) (n : Note) (p : Part) (s m : Nat) : (noteCtx c n p).retiringOf s m = p.retiringOf s m :=
  retiringOf_of_retiring (by rw [noteCtx_sdr]) s m

/-- A serving record with a note more. -/
def Serving.noted (n : Note) (r : Serving) : Serving := { r with notes := withNote n r.notes }

theorem servingOf_noted (n : Note) (a b : Nat) (p : Part) : (modServing a (Serving.noted n) p).servingOf b =
    (p.servingOf b).map (fun r => if r.age = a then r.noted n else r) := servingOf_modServing (f := Serving.noted n) (fun _ => rfl) a b p

theorem noteStepJob_pee (n : Note) (p : Part) : (noteStepJob n p).pee = p.pee := by
  cases hs : p.rcu.step with
  | none => simp only [noteStepJob, hs]
  | some st => rw [noteStepJob_eq hs]

/-- R60, R156: where a note for a claim's served request may go: to a context, a serving record, the runner's COMPACT or the FORMAT. -/
theorem noteServed_induction {P : Part → Prop} (u : Purpose) (n : Note) (p : Part) (same : P p) (ctx : ∀ c, P (noteCtx c n p))
    (serving : ∀ a, P (modServing a (Serving.noted n) p)) (job : P (noteStepJob n p)) (format : ∀ x, P { p with scu := x }) :
    P (noteServed u n p) := by
  unfold noteServed
  cases u.owner with
  | ctx c => exact ctx c
  | serving a => exact serving a
  | retiring s m =>
    dsimp only
    split
    · split
      · exact ctx _
      · exact same
    · exact same
  | runner => exact job
  | scan =>
    dsimp only
    split
    · exact format _
    · exact same
  | suspect | reclaim => exact same

theorem noteServed_pee (u : Purpose) (n : Note) (p : Part) : (noteServed u n p).pee = p.pee :=
  noteServed_induction (P := fun q => q.pee = p.pee) u n p rfl (fun c => noteCtx_pee c n p) (fun _ => rfl) (noteStepJob_pee n p)
    (fun _ => rfl)

/-- R156: a note taken for the served request of a claim joins the notes gathered for it. -/
theorem servedNotes_noteServed_self (u : Purpose) (n : Note) (p : Part) :
    servedNotes u (noteServed u n p) = (servedNotes u p).map (fun x => x ||| n.bit) := by
  unfold servedNotes noteServed
  cases u.owner with
  | ctx c => simp [noteCtx_notes]
  | serving a =>
    show ((modServing a (Serving.noted n) p).servingOf a).map (·.notes) = ((p.servingOf a).map (·.notes)).map _
    rw [servingOf_noted]
    cases h : p.servingOf a with
    | none => rfl
    | some r => simp [servingOf_age h, Serving.noted, withNote]
  | retiring s m =>
    cases h : p.retiringOf s m with
    | none => simp [h]
    | some r =>
      cases w : r.waiting with
      | none => simp [h, w]
      | some c => simp [noteCtx_retiringOf, h, w, noteCtx_notes]
  | runner =>
    cases hs : p.rcu.step with
    | none => simp [noteStepJob, hs]
    | some st =>
      simp only [noteStepJob_eq hs]
      cases hj : p.rcu.job with
      | none => simp [hs, Step.noted]
      | some j => by_cases own : st.job = some j.age <;> simp [hs, Step.noted, own, withNote]
  | suspect | reclaim | scan => rfl

/-- `q` has the notes that `p` has gathered for the request of a claim, or the same with one note more. -/
def NotesGrow (n : Note) (u : Purpose) (p q : Part) : Prop :=
  servedNotes u q = servedNotes u p ∨ servedNotes u q = (servedNotes u p).map (fun x => x ||| n.bit)

theorem noteCtx_notesGrow (c : CtxId) (n : Note) (u : Purpose) (p : Part) : NotesGrow n u p (noteCtx c n p) := by
  unfold NotesGrow servedNotes
  cases u.owner with
  | ctx d => by_cases e : d = c <;> simp [noteCtx_notes, e]
  | retiring s m =>
    simp only [noteCtx_retiringOf]
    cases h : p.retiringOf s m with
    | none => exact .inl rfl
    | some r =>
      cases w : r.waiting with
      | none => simp [w]
      | some d => by_cases e : d = c <;> simp [w, noteCtx_notes, e]
  | serving a => exact .inl (by simp only [servingOf_of_serving (congrArg Sdr.serving (noteCtx_sdr c n p))])
  | runner => exact .inl (by simp only [noteCtx_rcu])
  | suspect | reclaim | scan => exact .inl rfl

theorem modServing_notesGrow (a : Nat) (n : Note) (u : Purpose) (p : Part) :
    NotesGrow n u p (modServing a (Serving.noted n) p) := by
  unfold NotesGrow servedNotes
  cases u.owner with
  | serving b =>
    simp only [servingOf_noted]
    cases p.servingOf b with
    | none => exact .inl rfl
    | some r => by_cases e : r.age = a <;> simp [e, Serving.noted, withNote]
  | ctx | retiring | runner | suspect | reclaim | scan => exact .inl rfl

theorem noteStepJob_notesGrow (n : Note) (u : Purpose) (p : Part) : NotesGrow n u p (noteStepJob n p) := by
  cases hs : p.rcu.step with
  | none => exact .inl (by simp only [noteStepJob, hs])
  | some st =>
    rw [noteStepJob_eq hs]
    unfold NotesGrow servedNotes
    cases u.owner with
    | runner =>
      cases hj : p.rcu.job with
      | none => exact .inl (by simp [hs, Step.noted])
      | some j => by_cases own : st.job = some j.age <;> simp [hs, Step.noted, own, withNote]
    | ctx | retiring | serving | suspect | reclaim | scan => exact .inl rfl

/-- R156: a note taken for one claim's request adds nothing else to what another's has gathered. -/
theorem noteServed_notesGrow (v : Purpose) (n : Note) (u : Purpose) (p : Part) : NotesGrow n u p (noteServed v n p) :=
  noteServed_induction v n p (.inl rfl) (fun c => noteCtx_notesGrow c n u p) (fun a => modServing_notesGrow a n u p)
    (noteStepJob_notesGrow n u p) (fun _ => .inl rfl)

theorem map_or_twice (b : Byte) (o : Option Byte) : (o.map (fun x => x ||| b)).map (fun x => x ||| b) = o.map (fun x => x ||| b) := by
  cases o with
  | none => rfl
  | some x => simp [BitVec.or_assoc]

/-- A note taken twice is there once. -/
theorem NotesGrow.noted_once {n : Note} {u : Purpose} (grows : NotesGrow n u p q) :
    (servedNotes u q).map (fun x => x ||| n.bit) = (servedNotes u p).map (fun x => x ||| n.bit) := by
  rcases grows with same | more
  · rw [same]
  · rw [more, map_or_twice]

/-- A note once taken stays. -/
theorem NotesGrow.keeps {n : Note} {u : Purpose} {o : Option Byte} (grows : NotesGrow n u p q)
    (taken : servedNotes u p = o.map (fun x => x ||| n.bit)) : servedNotes u q = o.map (fun x => x ||| n.bit) := by
  rcases grows with same | more
  · rw [same, taken]
  · rw [more, taken, map_or_twice]

/-! ### The look in SUSPENDED (R74 to R77) -/

theorem startBufferOf_notes (u : Purpose) (p : Part) (c : CtxId) : ((startBufferOf u p).ctx c).notes = (p.ctx c).notes := by
  have start : ∀ d, ((modCtx d WriteCtx.startBuffer p).ctx c).notes = (p.ctx c).notes := by
    intro d
    by_cases e : c = d
    · rw [e, modCtx_ctx]
      unfold WriteCtx.startBuffer WriteCtx.setBuf
      split <;> rfl
    · rw [modCtx_ctx_other e]
  cases u with
  | ctxFirst d | ctxData d => exact start d
  | _ => rfl

theorem startBufferOf_frame (u : Purpose) (p : Part) :
    (startBufferOf u p).pee = p.pee ∧ (startBufferOf u p).sdr = p.sdr ∧ (startBufferOf u p).rcu = p.rcu := by
  cases u with
  | ctxFirst d | ctxData d => exact ⟨modCtx_pee .., modCtx_sdr .., modCtx_rcu ..⟩
  | _ => exact ⟨rfl, rfl, rfl⟩

/-- R84: the grant of an operation takes no note. -/
theorem servedNotes_grantOp (e : EngineState) (c : Claim) (u : Purpose) (p : Part) :
    servedNotes u (grantOp e c p) = servedNotes u p := by
  obtain ⟨-, sdr, rcu⟩ := startBufferOf_frame c.purpose (dropClaim c.age p)
  exact servedNotes_congr (q := grantOp e c p) (startBufferOf_notes c.purpose (dropClaim c.age p)) sdr rcu u

/-- R72, R75: the claims that the engine may grant in a suspension. -/
def Part.preemptingLeft (p : Part) : List Claim := p.pee.claims.filter (fun c => clearOfBatch p c && preempting p.pee.preempt c)

theorem grantNow_suspended_some {c : Claim} (h : p.pee.state = .suspended) (best : bestClaim p.preemptingLeft = some c) :
    grantNow p = noteServed c.purpose .suspendedErase (grantOp .suspendedBusy c p) := by
  unfold Part.preemptingLeft at best
  simp only [grantNow, h, eligibleClaims, best]

theorem grantNow_suspended_none (h : p.pee.state = .suspended) (none_ : p.preemptingLeft = []) :
    grantNow p = { p with pee := { p.pee with state := .erasing } } := by
  unfold Part.preemptingLeft at none_
  simp only [grantNow, h, eligibleClaims, none_, bestClaim]

/-- R74 to R77: what the engine's look in SUSPENDED does: the best preempting claim left is granted and its request gains the note, or
the erase resumes. -/
structure SuspendedLook (p q : Part) : Prop where
  budget  : q.pee.budget = p.pee.budget
  batch   : q.pee.batch = p.pee.batch
  preempt : q.pee.preempt = p.pee.preempt
  cause   : q.pee.cause = p.pee.cause
  notes   : ∀ u, NotesGrow .suspendedErase u p q
  grants  : p.preemptingLeft ≠ [] → ∃ c, bestClaim p.preemptingLeft = some c ∧ q.pee.state = .suspendedBusy ∧ q.pee.op = some c ∧
    q.pee.claims = p.pee.claims.filter (fun d => d.age ≠ c.age) ∧
    servedNotes c.purpose q = (servedNotes c.purpose p).map (fun n => n ||| 0x01)
  resumes : p.preemptingLeft = [] → q = { p with pee := { p.pee with state := .erasing } }

theorem grantNow_suspendedLook (h : p.pee.state = .suspended) : SuspendedLook p (grantNow p) := by
  cases best : bestClaim p.preemptingLeft with
  | none =>
    have none_ := (bestClaim_eq_none_iff _).1 best
    have resumes := grantNow_suspended_none h none_
    exact ⟨by rw [resumes], by rw [resumes], by rw [resumes], by rw [resumes], fun u => .inl (by rw [resumes]; rfl),
      fun some_ => absurd none_ some_, fun _ => resumes⟩
  | some c =>
    have grants := grantNow_suspended_some h best
    have pee : (grantNow p).pee = { p.pee with
        state := .suspendedBusy, op := some c, opClock := 0, claims := p.pee.claims.filter (fun d => d.age ≠ c.age) } := by
      rw [grants, noteServed_pee, grantOp_pee]
    have notes : ∀ u, NotesGrow .suspendedErase u p (grantNow p) := fun u => by
      rw [grants, NotesGrow, ← servedNotes_grantOp .suspendedBusy c u p]
      exact noteServed_notesGrow ..
    refine ⟨by rw [pee], by rw [pee], by rw [pee], by rw [pee], notes, fun _ => ⟨c, best, by rw [pee], by rw [pee], by rw [pee], ?_⟩,
      fun none_ => ?_⟩
    · rw [grants, servedNotes_noteServed_self, servedNotes_grantOp]
      rfl
    · rw [none_] at best
      cases best

/-! ### SUSPEND_COMPLETE (R74, R77) -/

/-- R74, R77: the suspension is complete, and the request of the claim that caused it has its note. -/
def suspended (p : Part) : Part :=
  let q := match causeClaim p with
    | some c => noteServed c.purpose .suspendedErase p
    | none => p
  { q with pee := { q.pee with state := .suspended, cause := none } }

theorem execSuspendComplete_eq {s : State} (hrun : s.part.run = .running) (hst : s.part.pee.state = .suspending) :
    exec .suspendComplete s = .next { s with part := grantNow (suspended s.part) } := if_pos ⟨hrun, hst⟩

theorem suspended_pee (p : Part) : (suspended p).pee = { p.pee with state := .suspended, cause := none } := by
  unfold suspended
  split
  · simp only [noteServed_pee]
  · rfl

theorem suspended_preemptingLeft (p : Part) : (suspended p).preemptingLeft = p.preemptingLeft := by
  unfold Part.preemptingLeft clearOfBatch batchSectors
  rw [suspended_pee]

theorem suspended_notesGrow (u : Purpose) (p : Part) : NotesGrow .suspendedErase u p (suspended p) := by
  unfold suspended
  split
  · exact noteServed_notesGrow ..
  · exact .inl rfl

/-- R77: the request of the claim that caused the suspension gains the note. -/
theorem suspended_cause {a : Nat} {c : Claim} (cause : p.pee.cause = some a) (found : p.pee.claims.find? (fun c => c.age = a) = some c) :
    servedNotes c.purpose (suspended p) = (servedNotes c.purpose p).map (fun n => n ||| 0x01) := by
  have claim : causeClaim p = some c := by simp only [causeClaim, cause, found]
  simp only [suspended, claim]
  exact servedNotes_noteServed_self ..

/-- Settles O55: one look in SUSPENDED, after the completion of the suspension or after an operation in it. -/
theorem suspensionTakesHold : Obligations.SuspensionTakesHold := by
  constructor
  · intro s hrun hst left
    have pee := suspended_pee s.part
    have same : (suspended s.part).preemptingLeft = left := suspended_preemptingLeft s.part
    have look := grantNow_suspendedLook (p := suspended s.part) (by rw [pee])
    refine ⟨_, execSuspendComplete_eq hrun hst, rfl, rfl, ?_, ?_, ?_, ?_, fun a c cause found => ?_, fun some_ => ?_, fun none_ => ?_⟩
    · exact look.budget.trans (by rw [pee])
    · exact look.batch.trans (by rw [pee])
    · exact look.preempt.trans (by rw [pee])
    · exact look.cause.trans (by rw [pee])
    · exact (look.notes c.purpose).keeps (suspended_cause cause found)
    · obtain ⟨c, best, state, op, claims, notes⟩ := look.grants (by rwa [same])
      refine ⟨c, same ▸ best, state, op, claims.trans (by rw [pee]), ?_⟩
      exact notes.trans ((suspended_notesGrow c.purpose s.part).noted_once)
    · have resumes := look.resumes (by rwa [same])
      exact ⟨by simp only [resumes], by simp only [resumes, pee]⟩
  · intro p h left q
    have look := grantNow_suspendedLook h
    exact ⟨look.budget, look.batch, look.preempt, look.grants, look.resumes⟩

end Sys2Proof.Machine
end

section
/-! SUPPORT. The runs of a READ and the bytes that they name (R64, R107). -/
namespace Sys2Proof.Machine

/-! ### The runs of a READ (R64, R107) -/

/-- A piece of a string of bytes read from the array is read where it stands. -/
theorem readBytes_slice {m : Memory} (h : m.wf = true) (a n lo hi : Nat) :
    ((m.readBytes a n).take hi).drop lo = m.readBytes (a + lo) (min hi n - lo) := by
  rw [readBytes_eq h, readBytes_eq h, ← List.map_take, List.take_range, ← List.map_drop]
  refine List.ext_getElem (by simp) fun k hk hk' => ?_
  simp [Nat.add_assoc]

/-- R13: the data bytes of an extent. -/
def Elem.dataBytes (m : Memory) (e : Elem) : List Byte := m.readBytes (e.sector * 4096 + e.offset + 32) e.length

/-- R107: what an element, whose first byte is the slot's byte `base`, holds of the wanted bytes: one run, or none. -/
def Elem.wantedRuns (o hi base : Nat) (e : Elem) : List Run :=
  if max o base < min hi (base + e.length) then
    [{ sector := e.sector, offset := e.offset + 32 + (max o base - base), length := min hi (base + e.length) - max o base }]
  else []

theorem readRuns_cons (o hi base : Nat) (e : Elem) (es : List Elem) :
    readRuns o hi base (e :: es) = e.wantedRuns o hi base ++ readRuns o hi (base + e.length) es := by
  simp only [readRuns, Elem.wantedRuns]
  split <;> rfl

/-- R107: the run of an element names the wanted piece of its data. -/
theorem readRunsOf_wantedRuns {m : Memory} (h : m.wf = true) (o hi base : Nat) (e : Elem) :
    readRunsOf m (e.wantedRuns o hi base) = ((e.dataBytes m).take (hi - base)).drop (o - base) := by
  rw [Elem.dataBytes, readBytes_slice h, Elem.wantedRuns]
  split
  · have start : addr e.sector (e.offset + 32 + (max o base - base)) = e.sector * 4096 + e.offset + 32 + (o - base) := by
      simp only [addr, Config.sectorSize]
      omega
    have count : min hi (base + e.length) - max o base = min (hi - base) e.length - (o - base) := by omega
    simp only [readRunsOf, List.flatMap_singleton, start, count]
  · rw [show min (hi - base) e.length - (o - base) = 0 by omega, readBytes_eq h]
    rfl

theorem wantedRuns_sum (o hi base : Nat) (e : Elem) :
    ((e.wantedRuns o hi base).map (·.length)).sum = min hi (base + e.length) - max o base := by
  unfold Elem.wantedRuns
  split
  · rfl
  · rename_i none_
    exact (Nat.sub_eq_zero_of_le (Nat.not_lt.1 none_)).symm

theorem wantedRuns_length (o hi base : Nat) (e : Elem) : (e.wantedRuns o hi base).length ≤ 1 := by
  unfold Elem.wantedRuns
  split <;> simp

/-- R64, R107: the runs read the piece of the extents' data that is wanted, where the first holds the slot's bytes from `base`. -/
theorem readRunsOf_readRuns {m : Memory} (h : m.wf = true) (o hi base : Nat) (es : List Elem) :
    readRunsOf m (readRuns o hi base es) = ((es.flatMap (Elem.dataBytes m)).take (hi - base)).drop (o - base) := by
  induction es generalizing base with
  | nil => simp [readRuns, readRunsOf]
  | cons e es ih =>
    have len : (e.dataBytes m).length = e.length := readBytes_length h _ _
    have split_ : readRunsOf m (readRuns o hi base (e :: es)) =
        readRunsOf m (e.wantedRuns o hi base) ++ readRunsOf m (readRuns o hi (base + e.length) es) := by
      rw [readRuns_cons, readRunsOf, List.flatMap_append]
      rfl
    rw [split_, readRunsOf_wantedRuns h, ih, List.flatMap_cons, List.take_append, List.drop_append, List.length_take, len]
    congr 1
    by_cases whole : e.length ≤ hi - base
    · rw [Nat.min_eq_right whole, Nat.sub_sub, Nat.sub_sub]
    · rw [show hi - (base + e.length) = 0 by omega, show hi - base - e.length = 0 by omega]
      simp

theorem readRuns_sum (o hi base : Nat) (es : List Elem) : ((readRuns o hi base es).map (·.length)).sum =
    min hi (base + (es.map (·.length)).sum) - max o base := by
  induction es generalizing base with
  | nil => simp [readRuns]
  | cons e es ih =>
    rw [readRuns_cons, List.map_append, List.sum_append, wantedRuns_sum, ih, List.map_cons, List.sum_cons]
    omega

theorem readRuns_length (o hi base : Nat) (es : List Elem) : (readRuns o hi base es).length ≤ es.length := by
  induction es generalizing base with
  | nil => exact Nat.le_refl 0
  | cons e es ih =>
    have := wantedRuns_length o hi base e
    have := ih (base + e.length)
    rw [readRuns_cons, List.length_append, List.length_cons]
    omega

/-- Settles O37. -/
theorem readRunsGiveTheSlotBytes : Obligations.ReadRunsGiveTheSlotBytes := by
  intro m es o hi hwf ho hhi
  refine ⟨readRunsOf_readRuns hwf o hi 0 es, ?_, readRuns_length o hi 0 es⟩
  rw [readRuns_sum]
  omega

end Sys2Proof.Machine
end

section
/-! SUPPORT. The ends of operations: READ_COMPLETE, timeouts, and the header-write phase of a batch (R64 to R66, R69). -/
namespace Sys2Proof.Machine

/-! ### Runs and operations inside the array (R1) -/

theorem runInside_iff (i o n : Nat) : runInside i o n = true ↔ Inside i o n := by
  simp [runInside, Inside]

theorem targetInside_runs_iff (rs : List Run) : targetInside (.runs rs) = true ↔ ∀ r ∈ rs, Inside r.sector r.offset r.length := by
  simp only [targetInside, List.all_eq_true, runInside_iff]

/-! ### READ_COMPLETE (R64) -/

/-- R64: the bytes that runs name, one after another, in the words of the statements. -/
theorem readRunsOf_eq {m : Memory} (h : m.wf = true) (rs : List Run) : readRunsOf m rs =
    rs.flatMap (fun r => (List.range r.length).map (fun k => m.read (r.sector * 4096 + r.offset + k))) := by
  simp only [readRunsOf, readBytes_eq h]
  rfl

theorem execReadComplete_eq {s : State} {c : Claim} {rs : List Run} (hrun : s.part.run = .running)
    (hop : s.part.pee.op = some c) (hk : c.kind = .read) (ht : c.target = .runs rs) : exec .readComplete s =
      if targetInside (.runs rs) then
        .next { s with part := closeEvent (readEnded c.purpose (readRunsOf s.array rs) (endOp s.part)) }
      else .fault .outsideArray := by
  obtain ⟨age, u, kind, level, target⟩ := c
  subst ht hk
  show execReadComplete s = _
  simp only [execReadComplete, runningOp, hrun, hop, if_true]

/-- Settles O49. -/
theorem readCompleteHandsBytes : Obligations.ReadCompleteHandsBytes := by
  intro s c rs hrun hwf after hop hk ht hin
  rw [execReadComplete_eq hrun hop hk ht, if_pos ((targetInside_runs_iff rs).2 hin), readRunsOf_eq hwf, endOp_eq]

/-! ### OPERATION_TIMEOUT of a PROGRAM or MARK (R66) -/

/-- R66, log 10: the leading bytes that verify, counted up to a lower bound. -/
theorem VerifiedPrefix.cut {m : Memory} {i o : Nat} {bs : List Byte} {bound n : Nat} (h : VerifiedPrefix m i o bs bound n)
    {b : Nat} (hb : b ≤ bound) : VerifiedPrefix m i o bs b (min n b) := by
  obtain ⟨-, before, stop⟩ := h
  refine ⟨Nat.min_le_right n b, fun k hk => before k (by omega), fun hlt => ?_⟩
  rw [Nat.min_eq_left (by omega)]
  exact stop (by omega)

/-- R66, R69: no header write is in progress outside the header-write phase. -/
theorem runningHeader_none {s : State} (h : ∀ b, s.part.pee.batch = some b → b.headers = false) : runningHeader s = none := by
  unfold runningHeader
  split
  · cases hx : headerSector s.part with
    | none => rfl
    | some x =>
      obtain ⟨b, hb, headers, -⟩ := (headerSector_eq_some_iff s.part x).1 hx
      rw [h b hb] at headers
      cases headers
  · rfl

theorem execOperationTimeout_write {s : State} {c : Claim} {i o : Nat} {bs : List Byte} (hrun : s.part.run = .running)
    (rests : runningHeader s = none) (hop : s.part.pee.op = some c) (hk : c.kind = .program ∨ c.kind = .mark)
    (ht : c.target = .bytes i o bs) (stuck : List Byte) : exec (.operationTimeout stuck) s =
      finishWrite c.purpose i o bs stuck (timeoutResult s.array i o bs stuck) s := by
  obtain ⟨age, u, kind, level, target⟩ := c
  subst ht
  show execOperationTimeout stuck s = _
  rcases hk with rfl | rfl
  · simp only [execOperationTimeout, rests, runningOp, hrun, hop, if_true]
  · simp only [execOperationTimeout, rests, runningOp, hrun, hop, if_true]

/-- Settles O51. -/
theorem timeoutsEndOperations : Obligations.TimeoutsEndOperations := by
  intro s c i o bs stuck hrun hwf rests hop hk ht hin after
  refine ⟨_, _, ?_, programArray_programmedBytes hwf hin stuck,
    (leadingEqual_verifiedPrefix (programArray_wf hwf i o bs stuck) i o bs).cut (Nat.sub_le _ _)⟩
  rw [execOperationTimeout_write hrun (runningHeader_none rests) hop hk ht, finishWrite_inside hin, endOp_eq]
  rfl

/-! ### The header-write phase (R69) -/

theorem runningHeader_eq {s : State} (hrun : s.part.run = .running) : runningHeader s = headerSector s.part := if_pos hrun

theorem execHeaderWriteComplete_eq {s : State} {x : BatchSector} (hx : runningHeader s = some x) (stuck : List Byte) :
    exec (.headerWriteComplete stuck) s =
      finishHeader x stuck (programResult s.array x.sector (headerWrite x).1 (headerWrite x).2 stuck).ok s := by
  show execHeaderWriteComplete stuck s = _
  simp only [execHeaderWriteComplete, hx]

theorem execOperationTimeout_header {s : State} {x : BatchSector} (hx : runningHeader s = some x) (stuck : List Byte) :
    exec (.operationTimeout stuck) s = finishHeader x stuck false s := by
  show execOperationTimeout stuck s = _
  simp only [execOperationTimeout, hx]

/-- The part with the header write or BAD mark of a sector of its batch ended, before the next begins or the batch completes. -/
def headerWritten (i : Nat) (ok : Bool) (p : Part) : Part :=
  { p with pee := { p.pee with opClock := 0, batch := p.pee.batch.map (Batch.headerEnded i ok) } }

theorem headerDone_eq (i : Nat) (ok : Bool) (p : Part) : headerDone i ok p =
    match headerSector (headerWritten i ok p) with
    | some _ => headerWritten i ok p
    | none => completeBatch (headerWritten i ok p) := rfl

theorem finishHeader_inside {x : BatchSector} {o : Nat} {bs : List Byte} (hw : headerWrite x = (o, bs))
    (hin : Inside x.sector o bs.length) (stuck : List Byte) (ok : Bool) (s : State) : finishHeader x stuck ok s = .next { s with
      array := programArray s.array x.sector o bs stuck
      part := if (headerDone x.sector ok s.part).pee.batch.isSome then headerDone x.sector ok s.part
        else closeEvent (headerDone x.sector ok s.part) } := by
  unfold finishHeader
  rw [hw]
  exact if_pos ((runInside_iff ..).2 hin)

section
variable {p : Part} {b : Batch} (hb : p.pee.batch = some b)

theorem headerEnded_all_done_iff (i : Nat) (ok : Bool) (b : Batch) :
    (∀ y ∈ (b.headerEnded i ok).sectors, y.done = true) ↔ ∀ y ∈ b.sectors, y.sector = i ∨ y.done = true := by
  simp only [Batch.headerEnded, List.forall_mem_map]
  refine forall₂_congr fun y _ => ?_
  by_cases e : y.sector = i <;> simp [e]

include hb

theorem headerWritten_batch (i : Nat) (ok : Bool) : (headerWritten i ok p).pee.batch = some (b.headerEnded i ok) := by
  simp only [headerWritten, hb, Option.map_some]

theorem headerSector_headerWritten (headers : b.headers = true) (i : Nat) (ok : Bool) :
    headerSector (headerWritten i ok p) = none ↔ ∀ y ∈ b.sectors, y.sector = i ∨ y.done = true := by
  have phase : (b.headerEnded i ok).headers = true := headers
  rw [← headerEnded_all_done_iff i ok]
  simp only [headerSector, headerWritten_batch hb, phase, if_true, List.find?_eq_none, Bool.not_eq_true', Bool.not_eq_false]

/-- R69: with a sector left the next header write begins. -/
theorem headerDone_next (headers : b.headers = true) {i : Nat} (left : ¬ ∀ y ∈ b.sectors, y.sector = i ∨ y.done = true) (ok : Bool) :
    headerDone i ok p = headerWritten i ok p := by
  rw [← headerSector_headerWritten hb headers i ok] at left
  obtain ⟨x, next⟩ := Option.ne_none_iff_exists'.1 left
  simp only [headerDone_eq, next]

/-- R69, R71: with none left the batch completes. -/
theorem headerDone_last (headers : b.headers = true) {i : Nat} (all : ∀ y ∈ b.sectors, y.sector = i ∨ y.done = true) (ok : Bool) :
    headerDone i ok p = completeBatch (headerWritten i ok p) := by
  simp only [headerDone_eq, (headerSector_headerWritten hb headers i ok).2 all]

end

/-- R69: an ended header write, in the words of the statements: the next begins, or the batch completes and the event is closed. -/
theorem finishHeader_spec {s : State} {b : Batch} {x : BatchSector} {o : Nat} {bs : List Byte} (hb : s.part.pee.batch = some b)
    (headers : b.headers = true) (hw : headerWrite x = (o, bs)) (hin : Inside x.sector o bs.length) (stuck : List Byte) (ok : Bool) :
    let m := programArray s.array x.sector o bs stuck
    let q := headerWritten x.sector ok s.part
    ((¬ ∀ y ∈ b.sectors, y.sector = x.sector ∨ y.done = true) → finishHeader x stuck ok s = .next { s with array := m, part := q }) ∧
    ((∀ y ∈ b.sectors, y.sector = x.sector ∨ y.done = true) →
      finishHeader x stuck ok s = .next { s with array := m, part := closeEvent (completeBatch q) }) := by
  have batch := headerWritten_batch hb x.sector ok
  refine ⟨fun left => ?_, fun all => ?_⟩
  · rw [finishHeader_inside hw hin, headerDone_next hb headers left, batch]
    rfl
  · obtain ⟨-, -, none_, -⟩ := completeBatch_after batch
    rw [finishHeader_inside hw hin, headerDone_last hb headers all, none_]
    rfl

/-- R69: what is written for a sector, in the words of the statements. -/
theorem headerWrite_eq (x : BatchSector) :
    headerWrite x = (if x.erased then 0 else 31, if x.erased then x.header else [0x00]) := by
  unfold headerWrite
  split <;> rfl

/-- Settles O52: HEADER_WRITE_COMPLETE and OPERATION_TIMEOUT are one ending, `finishHeader`. -/
theorem headerWritesComplete : Obligations.HeaderWritesComplete := by
  intro s b x stuck hrun hwf hb headers hx o bs after q hin
  have running : runningHeader s = some x :=
    (runningHeader_eq hrun).trans ((headerSector_eq_some_iff _ x).2 ⟨b, hb, headers, hx⟩)
  have hw : headerWrite x = (o, bs) := headerWrite_eq x
  have written : ∀ ok, headerWritten x.sector ok s.part = q ok := fun ok => by
    simp only [headerWritten, hb]
    rfl
  have all_iff : (∀ y ∈ after true, y.done = true) ↔ ∀ y ∈ b.sectors, y.sector = x.sector ∨ y.done = true :=
    headerEnded_all_done_iff x.sector true b
  have ends := finishHeader_spec hb headers hw hin stuck
  simp only [written, ← all_iff] at ends
  refine ⟨_, _, programArray_programmedBytes hwf hin stuck, programResult_programResult hwf x.sector o bs stuck,
    fun ⟨y, hy, undone⟩ => ?_, fun all => ?_⟩
  · have left : ¬ ∀ y ∈ after true, y.done = true := fun all => by simp [all y hy] at undone
    rw [execHeaderWriteComplete_eq running, execOperationTimeout_header running, hw]
    exact ⟨(ends _).1 left, (ends _).1 left⟩
  · rw [execHeaderWriteComplete_eq running, execOperationTimeout_header running, hw]
    exact ⟨(ends _).2 all, (ends _).2 all⟩

end Sys2Proof.Machine
end

section
/-! SUPPORT. Every step has an outcome: an idle microsecond, and the one fault of the commands (logs 2 and 29). -/
namespace Sys2Proof.Machine

/-! ### Every step runs (log 2, log 29) -/

/-- Log 2: in ERASING and SUSPENDING the batch clock runs. -/
theorem batchRuns_iff (e : EngineState) : batchRuns e = true ↔ e = .erasing ∨ e = .suspending := by
  cases e <;> decide

/-- Log 2: the operation's time stays or advances by one. -/
theorem tickPee_opClock (x : Pee) : (tickPee x).opClock = x.opClock ∨ (tickPee x).opClock = x.opClock + 1 := by
  unfold tickPee advanceTime
  dsimp only
  split
  · split
    · exact .inr rfl
    · exact .inl rfl
  · exact .inl rfl

theorem step_idle {s : State} (h : s.pending = []) : step s = .next { s with part := tickPart s.part } := by
  simp only [step, h]

/-- An event ends with a next state that keeps the queue, or with the fault where its operation lies outside the array. -/
def Ends (s : State) (outside : Prop) (o : Out) : Prop :=
  (∃ t, o = .next t ∧ t.pending = s.pending) ∨ (o = .fault .outsideArray ∧ outside)

theorem Ends.imp {s : State} {o : Out} {a b : Prop} (h : Ends s a o) (ab : a → b) : Ends s b o :=
  Or.imp id (And.imp id ab) h

/-- Log 29: a READ of runs outside the array is in progress. -/
def State.readOutside (s : State) : Prop :=
  s.part.run = .running ∧ ∃ c rs, s.part.pee.op = some c ∧ c.kind = .read ∧ c.target = .runs rs ∧
    ∃ r ∈ rs, ¬ Inside r.sector r.offset r.length

/-- Log 29: a PROGRAM or MARK of bytes outside the array is in progress. -/
def State.writeOutside (s : State) : Prop :=
  s.part.run = .running ∧ ∃ c n o bs, s.part.pee.op = some c ∧ c.target = .bytes n o bs ∧ ¬ Inside n o bs.length

/-- Log 29: a header write or BAD mark outside the array is in progress. -/
def State.headerOutside (s : State) : Prop :=
  s.part.run = .running ∧ ∃ b x, s.part.pee.batch = some b ∧ b.headers = true ∧ b.sectors.find? (fun y => !y.done) = some x ∧
    ((x.erased = true ∧ ¬ Inside x.sector 0 x.header.length) ∨ (x.erased = false ∧ ¬ Inside x.sector 31 1))

theorem runningOp_eq_some_iff (s : State) (c : Claim) : runningOp s = some c ↔ s.part.run = .running ∧ s.part.pee.op = some c := by
  unfold runningOp
  split <;> simp [*]

theorem execReadComplete_ends (s : State) : Ends s s.readOutside (execReadComplete s) := by
  unfold execReadComplete
  split
  · rename_i rs hop
    obtain ⟨hrun, hop⟩ := (runningOp_eq_some_iff s _).1 hop
    split
    · exact .inl ⟨_, rfl, rfl⟩
    · rename_i out
      rw [targetInside_runs_iff] at out
      exact .inr ⟨rfl, hrun, _, rs, hop, rfl, rfl, by simpa using out⟩
  · exact .inl ⟨_, rfl, rfl⟩

theorem finishWrite_ends (u : Purpose) (i o : Nat) (bs stuck : List Byte) (r : Result) (s : State) :
    Ends s (¬ Inside i o bs.length) (finishWrite u i o bs stuck r s) := by
  unfold finishWrite
  split
  · exact .inl ⟨_, rfl, rfl⟩
  · rename_i out
    exact .inr ⟨rfl, mt (runInside_iff ..).2 out⟩

/-- A running operation that is a program of bytes ends, or lies outside the array. -/
theorem finishWrite_running {s : State} {c : Claim} {i o : Nat} {bs : List Byte} (hop : runningOp s = some c)
    (ht : c.target = .bytes i o bs) (u : Purpose) (stuck : List Byte) (r : Result) :
    Ends s s.writeOutside (finishWrite u i o bs stuck r s) := by
  obtain ⟨hrun, hop⟩ := (runningOp_eq_some_iff s c).1 hop
  exact (finishWrite_ends u i o bs stuck r s).imp fun out => ⟨hrun, c, i, o, bs, hop, ht, out⟩

theorem execProgramComplete_ends (stuck : List Byte) (s : State) : Ends s s.writeOutside (execProgramComplete stuck s) := by
  unfold execProgramComplete
  split
  · rename_i hop
    exact finishWrite_running hop rfl ..
  · exact .inl ⟨_, rfl, rfl⟩

theorem execMarkComplete_ends (stuck : List Byte) (s : State) : Ends s s.writeOutside (execMarkComplete stuck s) := by
  unfold execMarkComplete
  split
  · rename_i hop
    exact finishWrite_running hop rfl ..
  · exact .inl ⟨_, rfl, rfl⟩

theorem finishHeader_ends {s : State} {x : BatchSector} (hx : runningHeader s = some x) (stuck : List Byte) (ok : Bool) :
    Ends s s.headerOutside (finishHeader x stuck ok s) := by
  unfold finishHeader
  dsimp only
  split
  · exact .inl ⟨_, rfl, rfl⟩
  · rename_i out
    rw [runInside_iff, headerWrite_eq] at out
    have hrun : s.part.run = .running := by
      by_contra stopped
      simp [runningHeader, stopped] at hx
    rw [runningHeader_eq hrun] at hx
    obtain ⟨b, hb, headers, found⟩ := (headerSector_eq_some_iff s.part x).1 hx
    refine .inr ⟨rfl, hrun, b, x, hb, headers, found, ?_⟩
    cases erased : x.erased with
    | true => exact .inl ⟨rfl, by simpa [erased] using out⟩
    | false => exact .inr ⟨rfl, by simpa [erased] using out⟩

theorem execHeaderWriteComplete_ends (stuck : List Byte) (s : State) :
    Ends s s.headerOutside (execHeaderWriteComplete stuck s) := by
  unfold execHeaderWriteComplete
  split
  · rename_i hx
    exact finishHeader_ends hx ..
  · exact .inl ⟨_, rfl, rfl⟩

theorem execOperationTimeout_ends (stuck : List Byte) (s : State) :
    Ends s (s.writeOutside ∨ s.headerOutside) (execOperationTimeout stuck s) := by
  unfold execOperationTimeout
  split
  · rename_i hx
    exact (finishHeader_ends hx ..).imp .inr
  · split
    · rename_i hop
      exact (finishWrite_running hop rfl ..).imp .inl
    · rename_i hop
      exact (finishWrite_running hop rfl ..).imp .inl
    · exact .inl ⟨_, rfl, rfl⟩

theorem execSuspendComplete_next (s : State) : ∃ t, execSuspendComplete s = .next t ∧ t.pending = s.pending := by
  unfold execSuspendComplete
  split <;> exact ⟨_, rfl, rfl⟩

theorem execErasePhaseEnd_next (residue : List (Nat × Byte)) (s : State) :
    ∃ t, execErasePhaseEnd residue s = .next t ∧ t.pending = s.pending := by
  unfold execErasePhaseEnd
  split <;> exact ⟨_, rfl, rfl⟩

theorem execBatchTimeout_next (residue : List (Nat × Byte)) (s : State) :
    ∃ t, execBatchTimeout residue s = .next t ∧ t.pending = s.pending := by
  unfold execBatchTimeout
  split <;> exact ⟨_, rfl, rfl⟩

theorem execGatheringWindowExpiry_next (s : State) : ∃ t, execGatheringWindowExpiry s = .next t ∧ t.pending = s.pending := by
  unfold execGatheringWindowExpiry
  split <;> exact ⟨_, rfl, rfl⟩

theorem execResetAsserted_next (stuck : List Byte) (residue : List (Nat × Byte)) (s : State) :
    ∃ t, execResetAsserted stuck residue s = .next t ∧ t.pending = s.pending := by
  unfold execResetAsserted
  split <;> exact ⟨_, rfl, rfl⟩

theorem execMaintPinChange_next (asserted : Bool) (s : State) :
    ∃ t, execMaintPinChange asserted s = .next t ∧ t.pending = s.pending := by
  unfold execMaintPinChange
  split
  · exact ⟨_, rfl, rfl⟩
  · split <;> exact ⟨_, rfl, rfl⟩

theorem execDebounceExpiry_next (s : State) : ∃ t, execDebounceExpiry s = .next t ∧ t.pending = s.pending := by
  unfold execDebounceExpiry
  split <;> exact ⟨_, rfl, rfl⟩

/-- Settles O2: an idle step is `tickPart`, and each command that may end in the fault does so by `Ends`. -/
theorem everyStepRuns : Obligations.EveryStepRuns := by
  constructor
  · intro s idle more
    refine ⟨fun stopped => ?_, fun hrun => ?_⟩
    · rw [step_idle idle, tickPart, if_neg stopped]
    · refine ⟨_, step_idle idle, rfl, idle, ?_, ?_⟩
      · rw [tickPart, if_pos hrun]
        exact tickPee_opClock s.part.pee
      · simp only [tickPart, if_pos hrun, tickPee, batchRuns_iff]
        rfl
  · intro i s
    cases i
    case readComplete =>
      exact (execReadComplete_ends s).imp fun ⟨hrun, out⟩ => ⟨hrun, .inl ⟨rfl, out⟩⟩
    case programComplete stuck =>
      exact (execProgramComplete_ends stuck s).imp fun ⟨hrun, c, n, o, bs, out⟩ =>
        ⟨hrun, .inr (.inl ⟨stuck, c, n, o, bs, .inl rfl, out⟩)⟩
    case markComplete stuck =>
      exact (execMarkComplete_ends stuck s).imp fun ⟨hrun, c, n, o, bs, out⟩ =>
        ⟨hrun, .inr (.inl ⟨stuck, c, n, o, bs, .inr (.inl rfl), out⟩)⟩
    case headerWriteComplete stuck =>
      exact (execHeaderWriteComplete_ends stuck s).imp fun ⟨hrun, b, x, out⟩ =>
        ⟨hrun, .inr (.inr ⟨stuck, b, x, .inl rfl, out⟩)⟩
    case operationTimeout stuck =>
      refine (execOperationTimeout_ends stuck s).imp ?_
      rintro (⟨hrun, c, n, o, bs, out⟩ | ⟨hrun, b, x, out⟩)
      · exact ⟨hrun, .inr (.inl ⟨stuck, c, n, o, bs, .inr (.inr rfl), out⟩)⟩
      · exact ⟨hrun, .inr (.inr ⟨stuck, b, x, .inr rfl, out⟩)⟩
    case suspendComplete => exact .inl (execSuspendComplete_next s)
    case erasePhaseEnd residue => exact .inl (execErasePhaseEnd_next residue s)
    case batchTimeout residue => exact .inl (execBatchTimeout_next residue s)
    case gatheringWindowExpiry => exact .inl (execGatheringWindowExpiry_next s)
    case resetAsserted stuck residue => exact .inl (execResetAsserted_next stuck residue s)
    case maintPinChange asserted => exact .inl (execMaintPinChange_next asserted s)
    case debounceExpiry => exact .inl (execDebounceExpiry_next s)
    case transactionStart | ignoredTransaction | badFrame | fetch | ident | status | notice | clear | tune | abort | abandon
      | restart | data | write | read | list | delete | verify | compact | format | coldStart | lossOfPower =>
      exact .inl ⟨_, rfl, rfl⟩

end Sys2Proof.Machine
end

section
/-! SUPPORT. What a request finds in the write contexts: ABANDON (R103) and DATA (R86, R87). -/
namespace Sys2Proof.Machine

variable {p : Part} {c : CtxId}

/-! ### Requests that the part takes (R159) -/

/-- R159: a request that the part takes acts on it as it stands with its push ended. -/
theorem request_listens {s : State} (listens : s.part.listens) (n : Nat) (act : Part → Part) :
    request n act s = .next { s with part := act (s.part.pushed n) } := by
  rw [request, push_listens listens]

/-- R166: a request whose meaning is a direct reply is answered with it. -/
theorem request_answers {i : Instr} {s : State} {n : Nat} {act : Part → Part} {kind tag : Byte} {st : Status} {pl : List Byte} {q : Part}
    (meaning : exec i s = request n act s) (listens : s.part.listens) (replies : act (s.part.pushed n) = placeDirect kind tag st pl q) :
    Answers i s kind tag st pl q :=
  ⟨_, by rw [meaning, request_listens listens, replies], placeDirect_answers ..⟩

/-! ### Contexts and their numbers (R83) -/

theorem ctxOf_num (c : CtxId) : ctxOf c.num = some c := by cases c <;> rfl

theorem ctxOf_none {n : Nat} (h : 2 ≤ n) : ctxOf n = none := by
  obtain ⟨m, rfl⟩ := Nat.exists_eq_add_of_le' h
  rfl

theorem CtxId.num_byte (c : CtxId) : (BitVec.ofNat 8 c.num).toNat = c.num := by cases c <;> rfl

/-- A direct reply leaves the contexts and the engine. -/
theorem placeDirect_kept (kind tag : Byte) (st : Status) (pl : List Byte) (p : Part) :
    (placeDirect kind tag st pl p).wcu = p.wcu ∧ (placeDirect kind tag st pl p).pee = p.pee := by
  unfold placeDirect
  split
  · exact ⟨rfl, rfl⟩
  · exact ⟨rfl, rfl⟩

/-! ### ABANDON (R103) -/

theorem takeAbandon_none {n : Byte} (h : ctxOf n.toNat = none) (tag : Byte) (p : Part) :
    takeAbandon tag n p = placeDirect 0x07 tag .noContext [] p := by
  simp only [takeAbandon, h]

section
variable {n : Byte} (named : ctxOf n.toNat = some c) (tag : Byte)
include named

/-- R103: no open context, or one that is ending. -/
theorem takeAbandon_refused (h : (p.ctx c).isOpen = false ∨ (p.ctx c).ending ≠ none) :
    takeAbandon tag n p = placeDirect 0x07 tag .noContext [] p := by
  simp only [takeAbandon, named]
  refine if_neg fun stands => ?_
  simp only [Bool.and_eq_true, Option.isNone_iff_eq_none] at stands
  obtain ⟨open_, going⟩ := stands
  rcases h with closed | ending
  · exact Bool.false_ne_true (closed.symm.trans open_)
  · exact ending going

/-- R103: an open context that is not ending: OK, and then what it does to the context. -/
theorem takeAbandon_open (open_ : (p.ctx c).isOpen = true) (going : (p.ctx c).ending = none) :
    takeAbandon tag n p = closeEvent (abandonCtx c (placeDirect 0x07 tag .ok [] p)) := by
  simp only [takeAbandon, named]
  exact if_pos (by rw [open_, going]; rfl)

end

theorem abandonCtx_writing (h : (p.ctx c).state = .receiving ∨ (p.ctx c).state = .closing) :
    abandonCtx c p = endCtx c .abandoned p := by
  rcases h with h | h <;> simp only [abandonCtx, h]

theorem abandonCtx_committing (h : (p.ctx c).state = .committing) :
    abandonCtx c p = if commitOpen c p then finishEnd c (some .abandoned) p else p := by
  simp only [abandonCtx, h]

theorem endCtx_runs (runs : claimRuns (.ctx c) p = true) (st : Status) :
    endCtx c st p = modCtx c (fun k => { k with ending := some (.withStatus st) }) p := if_pos runs

/-- R103: the commit that an ABANDON may still stop: its claim not raised, or not granted. -/
theorem commitOpen_iff (c : CtxId) (p : Part) : commitOpen c p = true ↔ (p.ctx c).commit = .notReached ∨ (p.ctx c).commit = .waiting ∨
    ((p.ctx c).commit = .attempting ∧ purposeWaits (.ctxCommit c) p = true) := by
  unfold commitOpen
  cases (p.ctx c).commit <;> simp

/-- R103: what an ABANDON decides by stands after its reply as before. -/
theorem placeDirect_commitOpen (kind tag : Byte) (st : Status) (pl : List Byte) (c : CtxId) (p : Part) :
    commitOpen c (placeDirect kind tag st pl p) = commitOpen c p := by
  obtain ⟨wcu, pee⟩ := placeDirect_kept kind tag st pl p
  unfold commitOpen purposeWaits
  rw [ctx_of_wcu wcu, pee]

section
variable {n : Byte} (named : ctxOf n.toNat = some c) (tag : Byte) (going : (p.ctx c).ending = none)
include named going

/-- R103: a RECEIVING or CLOSING context: OK, and its end, at once or at the completion of its operation. -/
theorem takeAbandon_writing (h : (p.ctx c).state = .receiving ∨ (p.ctx c).state = .closing) :
    takeAbandon tag n p = closeEvent (endCtx c .abandoned (placeDirect 0x07 tag .ok [] p)) := by
  rw [takeAbandon_open named tag ((isOpen_iff _).2 (h.imp_right .inl)) going, abandonCtx_writing]
  rwa [ctx_of_wcu (placeDirect_kept ..).1]

/-- R103: a COMMITTING context: OK, and its end at once if its commit may still be stopped. -/
theorem takeAbandon_committing (h : (p.ctx c).state = .committing) : takeAbandon tag n p = closeEvent
    (if commitOpen c p then finishEnd c (some .abandoned) (placeDirect 0x07 tag .ok [] p) else placeDirect 0x07 tag .ok [] p) := by
  rw [takeAbandon_open named tag ((isOpen_iff _).2 (.inr (.inr h))) going, abandonCtx_committing, placeDirect_commitOpen]
  rwa [ctx_of_wcu (placeDirect_kept ..).1]

end

/-- Settles O27: the state of the context decides what follows the reply. -/
theorem abandonCases : Obligations.AbandonCases := by
  intro tag level s listens
  have refused {n : Byte} (takes : takeAbandon tag n (s.part.pushed 8) = placeDirect 0x07 tag .noContext [] (s.part.pushed 8)) :
      Answers (.abandon tag level n) s 0x07 tag .noContext [] (s.part.pushed 8) := request_answers rfl listens takes
  refine ⟨fun n none_ => refused (takeAbandon_none (ctxOf_none none_) tag _), ?_⟩
  intro c n k answered endsNow
  have named : ctxOf n.toNat = some c := by rw [CtxId.num_byte, ctxOf_num]
  let q := placeDirect 0x07 tag .ok [] (s.part.pushed 8)
  have reply : answered q := placeDirect_answers ..
  have runs : claimRuns (.ctx c) q = claimRuns (.ctx c) s.part := claimRuns_of_pee (placeDirect_kept ..).2
  have taken {r : Part} (takes : takeAbandon tag n (s.part.pushed 8) = closeEvent r) :
      exec (.abandon tag level n) s = .next { s with part := closeEvent r } := takes ▸ request_listens listens 8 _
  have stops_iff : commitOpen c (s.part.pushed 8) = true ↔ _ := commitOpen_iff c _
  refine ⟨fun h => ?_, fun h going rests => ?_, fun h going granted => ?_, fun h going stops => ?_, fun h going past => ?_⟩
  · refine refused (takeAbandon_refused named tag ?_)
    rw [← or_assoc] at h
    exact h.imp_left fun closed => by
      show k.isOpen = false
      rcases closed with state | state <;> simp only [WriteCtx.isOpen, state]
  · exact ⟨q, _, taken (takeAbandon_writing named tag going h), reply, endCtx_ended (runs.trans rests)⟩
  · have ends := takeAbandon_writing named tag (p := s.part.pushed 8) going h
    rw [endCtx_runs (runs.trans granted)] at ends
    exact ⟨q, taken ends, reply⟩
  · have ends := takeAbandon_committing named tag (p := s.part.pushed 8) going h
    rw [if_pos (stops_iff.2 stops)] at ends
    exact ⟨q, _, taken ends, reply, finishEnd_ended c .abandoned q⟩
  · have late : ¬ commitOpen c (s.part.pushed 8) = true := by
      rw [stops_iff]
      show ¬ (k.commit = _ ∨ k.commit = _ ∨ (k.commit = _ ∧ purposeWaits (.ctxCommit c) s.part = true))
      rcases past with switched | ⟨attempting, granted⟩
      · simp [switched]
      · simp [attempting, granted]
    have rests := takeAbandon_committing named tag (p := s.part.pushed 8) going h
    rw [if_neg late] at rests
    exact ⟨q, taken rests, reply⟩

/-! ### DATA (R86, R87) -/

/-- R86: the checks of a frame of at most 256 bytes, in their order: its context is there; it begins where the last one ended and is
whole or the last; its buffer is EMPTY. -/
theorem dataCheck_firstFailing {n : Nat} (small : n ≤ 256) (c : CtxId) (o : Nat) (p : Part) :
    let k := p.ctx c
    FirstFailing [(¬ (k.state = .receiving ∧ k.ending = none), .noContext),
      (¬ (o = k.received ∧ o + n ≤ k.total ∧ (n = 256 ∨ o + n = k.total)), .outOfOrder),
      ((k.buf k.fillNext).state ≠ .empty, .noCredit)] (dataCheck c o n p) := by
  have size : Config.bufferSize = 256 := rfl
  unfold dataCheck
  refine ⟨fun away => if_pos (not_and_or.1 away), fun there => ?_⟩
  rw [if_neg (mt not_and_or.2 there)]
  refine ⟨fun out => if_pos (by omega), fun next => ?_⟩
  rw [if_neg (by omega)]
  exact ⟨fun full => if_pos full, fun free => if_neg free⟩

section
variable {n : Byte} {bs : List Byte} (nonempty : 1 ≤ bs.length) (small : bs.length ≤ 256)
include nonempty small

/-- R84, log 28: the number of bytes is one that a frame can carry. -/
theorem dataLength_allowed : ¬ (bs.length = 0 ∨ Config.bufferSize < bs.length) := by
  have size : Config.bufferSize = 256 := rfl
  omega

theorem takeData_none (h : ctxOf n.toNat = none) (tag : Byte) (o : BitVec 24) (p : Part) :
    takeData tag n o bs p = placeDirect 0x10 tag .noContext [] p := by
  unfold takeData
  rw [if_neg (dataLength_allowed nonempty small), h]

theorem takeData_refused (h : ctxOf n.toNat = some c) {o : BitVec 24} {st : Status}
    (check : dataCheck c o.toNat bs.length p = some st) (tag : Byte) : takeData tag n o bs p = placeDirect 0x10 tag st [] p := by
  unfold takeData
  rw [if_neg (dataLength_allowed nonempty small), h]
  simp only [check]

/-- R87: a frame that passes. -/
theorem takeData_passed (h : ctxOf n.toNat = some c) {o : BitVec 24} (check : dataCheck c o.toNat bs.length p = none) (tag : Byte) :
    takeData tag n o bs p = closeEvent (chooseStep c (modCtx c (fillBuffer o.toNat bs) p)) := by
  unfold takeData
  rw [if_neg (dataLength_allowed nonempty small), h]
  simp only [check]

end

/-- Settles O29: a frame is answered with the code of the first of its checks that fails. -/
theorem dataIsChecked : Obligations.DataIsChecked := by
  intro tag level n o bs s listens nonempty small p
  have refused {st : Status} (takes : takeData tag n o bs p = placeDirect 0x10 tag st [] p) :
      Answers (.data tag level n o bs) s 0x10 tag st [] p := request_answers rfl listens takes
  refine ⟨fun none_ => refused (takeData_none nonempty small (ctxOf_none none_) tag o p), ?_⟩
  intro c hn k there inOrder
  have named : ctxOf n.toNat = some c := by rw [hn, ctxOf_num]
  obtain ⟨noContext, ifThere⟩ := dataCheck_firstFailing small c o.toNat p
  refine ⟨fun absent => refused (takeData_refused nonempty small named (noContext absent) tag), fun here out => ?_,
    fun here next full => ?_⟩
  · obtain ⟨outOfOrder, -⟩ := ifThere (not_not_intro here)
    exact refused (takeData_refused nonempty small named (outOfOrder out) tag)
  · obtain ⟨-, ifNext⟩ := ifThere (not_not_intro here)
    obtain ⟨noCredit, -⟩ := ifNext (not_not_intro next)
    exact refused (takeData_refused nonempty small named (noCredit full) tag)

theorem WriteCtx.setBuf_other (k : WriteCtx) (b : BufId) (f : Buffer → Buffer) : (k.setBuf b f).buf b.other = k.buf b.other := by
  cases b <;> rfl

theorem WriteCtx.credit_eq (k : WriteCtx) (b : BufId) : k.credit =
    (if (k.buf b).state = .empty then 1 else 0) + (if (k.buf b.other).state = .empty then 1 else 0) := by
  cases b
  · rfl
  · exact Nat.add_comm ..

/-- R84: filling an EMPTY buffer takes one of the context's credit. -/
theorem WriteCtx.setBuf_credit {k : WriteCtx} {b : BufId} (empty : (k.buf b).state = .empty) {f : Buffer → Buffer}
    (fills : (f (k.buf b)).state ≠ .empty) : (k.setBuf b f).credit + 1 = k.credit := by
  rw [credit_eq k b, credit_eq _ b, setBuf_self, setBuf_other, if_pos empty, if_neg fills]
  omega

/-- A change of a buffer leaves the rest of the context. -/
theorem WriteCtx.setBuf_kept (k : WriteCtx) (b : BufId) (f : Buffer → Buffer) :
    (k.setBuf b f).state = k.state ∧ (k.setBuf b f).programmed = k.programmed := by
  cases b
  · exact ⟨rfl, rfl⟩
  · exact ⟨rfl, rfl⟩

/-- R87: the buffers of a context that a frame has filled, and its credit, are those of the change of its next buffer. -/
theorem fillBuffer_bufs (o : Nat) (bs : List Byte) (k : WriteCtx) :
    let f := k.setBuf k.fillNext (fun _ => { state := .filled, bytes := bs, offset := o, done := 0 })
    (∀ b, (fillBuffer o bs k).buf b = f.buf b) ∧ (fillBuffer o bs k).credit = f.credit :=
  ⟨fun b => by cases b <;> rfl, rfl⟩

/-- Settles O30: the frame passes its check, and `fillBuffer` is a change of the next buffer. -/
theorem dataFillsBuffer : Obligations.DataFillsBuffer := by
  intro tag level n o bs s c listens nonempty small hn state going begins fits whole empty
  have named : ctxOf n.toNat = some c := by rw [hn, ctxOf_num]
  obtain ⟨-, there⟩ := dataCheck_firstFailing small c o.toNat (s.part.pushed (11 + bs.length))
  obtain ⟨-, inOrder⟩ := there (not_not_intro ⟨state, going⟩)
  obtain ⟨-, passes⟩ := inOrder (not_not_intro ⟨begins, fits, whole⟩)
  have check : dataCheck c o.toNat bs.length (s.part.pushed (11 + bs.length)) = none := passes (not_not_intro empty)
  obtain ⟨bufs, credit⟩ := fillBuffer_bufs o.toNat bs (s.part.ctx c)
  obtain ⟨state_, programmed⟩ := (s.part.ctx c).setBuf_kept (s.part.ctx c).fillNext
    (fun _ => { state := .filled, bytes := bs, offset := o.toNat, done := 0 })
  refine ⟨modCtx c (fillBuffer o.toNat bs) (s.part.pushed (11 + bs.length)), ?_, ?_, fun d hd => modCtx_ctx_other hd .., ?_⟩
  · refine (request_listens listens _ _).trans ?_
    rw [takeData_passed nonempty small named check]
  · cases c <;> rfl
  · rw [modCtx_ctx]
    refine ⟨rfl, rfl, ?_, ?_, ?_, state_.trans state, programmed, (s.part.ctx c).setBuf_drainNext ..⟩
    · exact (bufs _).trans ((s.part.ctx c).setBuf_self ..)
    · exact (bufs _).trans ((s.part.ctx c).setBuf_other ..)
    · exact (congrArg (· + 1) credit).trans (WriteCtx.setBuf_credit empty nofun)

end Sys2Proof.Machine
end

section
/-! SUPPORT. What a FETCH shows and what it takes (R98, R163). -/
namespace Sys2Proof.Machine

variable {p : Part}

/-! ### The reply that leaves (R98, R163) -/

/-- R98: a place that is freed concerns the contexts alone. -/
theorem releasePlace_eq (pl : Place) (p : Part) : releasePlace pl p = { p with wcu := (releasePlace pl p).wcu } := by
  unfold releasePlace
  split
  · rename_i c
    cases c <;> rfl
  · rfl
  · rfl

/-- R98: the place of an ending reply is freed with its context, which is IDLE and cold. -/
theorem releasePlace_ctx (pl : Place) (p : Part) (c : CtxId) :
    (releasePlace pl p).ctx c = if pl = .ending c then WriteCtx.cold else p.ctx c := by
  cases pl with
  | ending d =>
    by_cases same : c = d
    · subst same
      rw [if_pos rfl]
      exact modCtx_ctx ..
    · rw [if_neg fun e => same (Place.ending.inj e).symm]
      exact modCtx_ctx_other same ..
  | queued => rfl
  | direct => rfl

theorem dropHead_cons {r : Reply} {rs : List Reply} (h : p.link.replies = r :: rs) :
    dropHead p = releasePlace r.place { p with link := { p.link with replies := rs } } := by
  simp only [dropHead, h]

/-- R163: what leaves with the head of the queue leaves the rest of the link. -/
theorem dropHead_link (p : Part) : (dropHead p).link = { p.link with replies := p.link.replies.tail } := by
  cases h : p.link.replies with
  | nil =>
    simp only [dropHead, h, List.tail_nil]
    rw [← h]
  | cons r rs => rw [dropHead_cons h, releasePlace_eq, List.tail_cons]

/-! ### The end of a FETCH (R163) -/

theorem fetchBytes_part {r : Reply} {n : Nat} (h : n ≤ (replyFrame r).length) : fetchBytes (some r) n = (replyFrame r).take n :=
  List.take_append_of_le_length h

theorem fetchBytes_whole {r : Reply} {n : Nat} (h : (replyFrame r).length ≤ n) :
    fetchBytes (some r) n = replyFrame r ++ List.replicate (n - (replyFrame r).length) 0x00 := by
  show (replyFrame r ++ List.replicate n 0x00).take n = _
  rw [List.take_append, List.take_of_length_le h, List.take_replicate, Nat.min_eq_left (Nat.sub_le ..)]

section
variable (hrun : p.run = .running) {b : Byte}
include hrun

/-- R163: with no reply fixed at the fall of CS the fetch gives zeros, and none leaves. -/
theorem endFetch_none (fixed : p.link.transaction = .active b none) (n : Nat) :
    endFetch n p = endTransaction (b :: List.replicate n 0x00) p := by
  unfold endFetch
  rw [if_pos hrun]
  simp only [currentTransaction, fixed, fetchBytes]

/-- R163: a fetch ends with the fixed reply's bytes shown; the head of the queue leaves when the whole frame was shifted out. -/
theorem endFetch_some {r : Reply} (fixed : p.link.transaction = .active b (some r)) (n : Nat) :
    endFetch n p = if (replyFrame r).length ≤ n then dropHead (endTransaction (b :: fetchBytes (some r) n) p)
      else endTransaction (b :: fetchBytes (some r) n) p := by
  unfold endFetch
  rw [if_pos hrun]
  simp only [currentTransaction, fixed]

/-- Log 12: a fetch with no start before it is one whose CS fell at that event. -/
theorem endFetch_started (none_ : p.link.transaction = .none) (n : Nat) :
    endFetch n p = endFetch n { p with link := { p.link with transaction := beginTransaction p } } := by
  unfold endFetch
  rw [if_pos hrun, if_pos hrun]
  simp only [currentTransaction, none_, beginTransaction]
  rfl

end

/-- Settles O18: the three ends of a fetch, by what was fixed at the fall of CS and how much of it was shifted out. -/
theorem fetchTakesTheHead : Obligations.FetchTakesTheHead := by
  intro n s b hrun shows
  have fetch (s : State) : exec (.fetch n) s = .next { s with part := endFetch n s.part } := rfl
  refine ⟨fun fixed => ?_, fun r fixed => ⟨fun part => ?_, fun whole => ?_⟩, fun none_ => ?_⟩
  · show exec _ _ = _
    rw [fetch, endFetch_none hrun fixed]
    rfl
  · show exec _ _ = _
    rw [fetch, endFetch_some hrun fixed, if_neg (Nat.not_le.2 part), fetchBytes_part (Nat.le_of_lt part)]
    rfl
  · have ends : endFetch n s.part = dropHead (endTransaction (b :: fetchBytes (some r) n) s.part) := by
      rw [endFetch_some hrun fixed, if_pos whole]
    refine ⟨_, fetch s, ?_, ?_, fun rs head => ⟨rfl, rfl, ?_, fun c => ?_, ?_⟩⟩
    · rw [ends, dropHead_link]
      rfl
    · rw [ends, dropHead_link, ← fetchBytes_whole whole]
      rfl
    · rw [ends, dropHead_link, endTransaction_replies, head]
      rfl
    · rw [ends, dropHead_cons (p := endTransaction _ s.part) head, releasePlace_ctx]
      rfl
    · rw [ends, dropHead_cons (p := endTransaction _ s.part) head, releasePlace_eq]
      rfl
  · refine ⟨_, rfl, ?_, ?_⟩
    · rw [if_pos hrun]
      rfl
    · rw [fetch, fetch, endFetch_started hrun none_, if_pos hrun]

end Sys2Proof.Machine
end

section
/-! O38. A LIST is answered from the directory at its hand-over (R110, R153), said through what the end of a request leaves when no ABORT
waits on it (R148, R157). -/
namespace Sys2Proof.Machine

variable {p : Part} {e : Entry}

/-- R148, R157: a request on which no ABORT waits ends with its entry gone and its reply alone in its place. -/
theorem endedPart_unheld (held : ∀ h ∈ p.link.held, h.target ≠ e.age) (st : Status) (n : Byte) (pl : List Byte) :
    endedPart e st n pl p = { p with
      rqs := { p.rqs with queue := p.rqs.queue.filter (fun d => d.age ≠ e.age) }
      link := { p.link with replies := p.link.replies ++
        [{ kind := e.request.kind, tag := e.tag, status := st, notes := n, payload := pl, place := .queued }] } } := by
  have waiting : p.link.held.filter (fun h => h.target = e.age) = [] :=
    List.filter_eq_nil_iff.2 fun h hh => by simpa using held h hh
  have others : p.link.held.filter (fun h => h.target ≠ e.age) = p.link.held :=
    List.filter_eq_self.2 fun h hh => by simpa using held h hh
  rw [endedPart, waiting, others, List.map_nil, List.append_nil]

/-- R110: a LIST handed over ends OK at that event, with the entries above its slot id, up to its count, and MORE when one is left. -/
theorem handOver_list {a m : Nat} (request : e.request = .list a m) (entry : p.queueEntry e.age = some e) :
    handOver e p =
      (let above := p.sdr.directory.filter (fun d => a < d.slot)
       endedPart e .ok (if m < above.length then Note.more.bit else 0)
        (be 1 (above.take m).length ++ (above.take m).flatMap listBytes) p) := by
  rw [handOver, request]
  exact completeEntry_eq entry ..

/-- Settles O38: the LIST ends at its hand-over, and with no ABORT waiting on it that is its reply and nothing else. -/
theorem listIsAnswered : Obligations.ListIsAnswered := by
  intro p e a m entry request held
  dsimp only
  rw [handOver_list request entry]
  dsimp only
  rw [endedPart_unheld held, request]
  rfl

end Sys2Proof.Machine
end

section
/-! SUPPORT. The class check of a WRITE, DELETE or FORMAT, and the refusal of a request that fails it (R138, R152). -/
namespace Sys2Proof.Machine

variable {p : Part} {slot : Nat} {r : Request}

/-! ### The class check (R138) -/

theorem slotClassCheck_absent (absent : p.entryOf slot = none) : slotClassCheck slot p = .allowed := by
  rw [slotClassCheck, absent]

/-- R138: the class that decides is that of the live generation. -/
theorem slotClassCheck_present {e : DirEntry} (present : p.entryOf slot = some e) :
    slotClassCheck slot p = classCheck p.mli.level e.cls := by
  rw [slotClassCheck, present]

theorem formatClassCheck_unprotected (unprotected : ∀ e ∈ p.sdr.directory, e.cls = .opened) : formatClassCheck p = .allowed :=
  if_neg fun found => by
    obtain ⟨e, he, protected_⟩ := List.any_eq_true.1 found
    exact of_decide_eq_true protected_ (unprotected e he)

/-- R138: an entry of class GUARDED or FIXED makes a FORMAT be judged as a GUARDED slot is. -/
theorem formatClassCheck_protected (found : ∃ e ∈ p.sdr.directory, e.cls ≠ .opened) :
    formatClassCheck p = classCheck p.mli.level .guarded := by
  obtain ⟨e, he, protected_⟩ := found
  exact if_pos (List.any_eq_true.2 ⟨e, he, decide_eq_true protected_⟩)

/-! ### The refusal (R138, R152) -/

/-- R152: a refused class check is a failing check of the request, of code PROTECTED: the third of a WRITE and of a FORMAT, and the
fourth of a DELETE. -/
theorem mem_checks_of_requestClass_refused (refused : requestClass r p = .refused) : (false, .protected_) ∈ checks r p := by
  rw [← (decide_ne_refused_iff (requestClass r p)).2 refused]
  cases r with
  | write | format => exact .tail _ (.tail _ (.head _))
  | delete => exact .tail _ (.tail _ (.tail _ (.head _)))
  | read | list | verify | compact => cases refused

/-- R138: a request whose class check is refused is refused PROTECTED, or with a lower code. -/
theorem validate_of_requestClass_refused (refused : requestClass r p = .refused) :
    ∃ st, validate r p = some st ∧ st.code.toNat ≤ Status.protected_.code.toNat := by
  have failing := mem_checks_of_requestClass_refused refused
  cases answer : validate r p with
  | none => cases (validate_eq_none_iff r p).1 answer _ failing
  | some st => exact ⟨st, rfl, (validate_eq_some answer).2 _ failing rfl⟩

/-- R154: PROTECTED is the one status of code 0x34. -/
theorem eq_protected_of_code {st : Status} (h : st.code.toNat = 0x34) : st = .protected_ := by
  cases st
  case protected_ => rfl
  all_goals exact absurd h (by decide)

/-- R138: with no check of a lower code failing, the refusal is PROTECTED. -/
theorem validate_eq_protected (refused : requestClass r p = .refused)
    (passed : ∀ c ∈ checks r p, c.2.code.toNat < 0x34 → c.1 = true) : validate r p = some .protected_ := by
  obtain ⟨st, answer, most⟩ := validate_of_requestClass_refused refused
  have least : ¬ st.code.toNat < 0x34 := fun lower => by
    cases passed _ (validate_eq_some answer).1 lower
  rw [answer, eq_protected_of_code (Nat.le_antisymm most (Nat.not_lt.1 least))]

/-- Settles O35: a row for each state of the slot or the store, and the refusal from the checks in code order. -/
theorem classCheckTable : Obligations.ClassCheckTable := by
  intro p slot
  refine ⟨slotClassCheck_absent, fun e present => ?_, formatClassCheck_unprotected, fun found released => ?_,
    fun found asserted => ?_, fun _ _ _ => rfl, rfl, fun _ _ => rfl, fun _ => validate_of_requestClass_refused,
    fun _ => validate_eq_protected⟩
  · rw [slotClassCheck_present present]
    refine ⟨fun cls => ?_, fun cls released => ?_, fun cls asserted => ?_, fun cls => ?_⟩
    · rw [cls]; rfl
    · rw [cls, released]; rfl
    · rw [cls, asserted]; rfl
    · rw [cls]; rfl
  · rw [formatClassCheck_protected found, released]; rfl
  · rw [formatClassCheck_protected found, asserted]; rfl

end Sys2Proof.Machine
end

section
/-! SUPPORT. The MAINT pin, its debounce timer and the level that settles (R142, R143). -/
namespace Sys2Proof.Machine

variable {b : Bool} {m : Mli} {s : State}

theorem pinChange_departs (differs : b ≠ m.level) : pinChange b m = { pin := b, level := m.level, timer := some 0 } := by
  rw [pinChange, if_neg differs]

theorem pinChange_returns (equal : b = m.level) : pinChange b m = { pin := b, level := m.level, timer := none } := by
  rw [pinChange, if_pos equal]

/-- R142: a running part takes a change of the pin. -/
theorem exec_maintPinChange (hrun : s.part.run = .running) (change : b ≠ s.part.mli.pin) :
    exec (.maintPinChange b) s = .next { s with part := { s.part with mli := pinChange b s.part.mli } } :=
  (if_neg change).trans (if_pos hrun)

/-- Settles O44: the change is taken, and the timer follows from the pin against the level. -/
theorem maintPinDrivesTimer : Obligations.MaintPinDrivesTimer := by
  intro b s hrun change
  rw [exec_maintPinChange hrun change]
  refine ⟨fun differs => ?_, fun equal => ?_⟩
  · rw [pinChange_departs differs]
  · rw [pinChange_returns equal]

/-- R143: the expiry of a running timer settles the level and sets MAINT. -/
theorem exec_debounceExpiry {n : Nat} (hrun : s.part.run = .running) (timer : s.part.mli.timer = some n) :
    exec .debounceExpiry s = .next { s with
      part := setCond .maint { s.part with mli := { s.part.mli with level := s.part.mli.pin, timer := none } } } := by
  change execDebounceExpiry s = _
  rw [execDebounceExpiry, hrun, timer]

/-- Settles O45: MAINT is the condition of index 7, and `setCond` sets it without a look at its enable. -/
theorem debounceExpirySettlesLevel : Obligations.DebounceExpirySettlesLevel :=
  fun _ _ hrun timer => exec_debounceExpiry hrun timer

end Sys2Proof.Machine
end

section
/-! SUPPORT. The frame of a reply and the codes of its statuses (R154, 10 section 10.2). -/
namespace Sys2Proof.Machine

theorem replyBody_length (r : Reply) : (replyBody r).length = 4 + r.payload.length := by
  rw [replyBody, List.length_append]
  rfl

/-- Settles O14: the length field counts the body, and the codes are those of R154's table. -/
theorem replyFrameLayout : Obligations.ReplyFrameLayout := by
  refine ⟨fun r => ?_, by decide⟩
  rw [replyFrame, replyBody_length, replyBody]
  simp only [List.append_assoc]

end Sys2Proof.Machine
end

section
/-! SUPPORT. IDENT and STATUS (R147, R164): the figures of the part at their places in a STATUS payload. -/
namespace Sys2Proof.Machine

/-! ### A list of booleans as a byte -/

theorem getLsbD_one_shiftLeft (n : Nat) {k : Nat} (hk : k < 8) : (1#8 <<< n).getLsbD k = decide (n = k) := by
  rw [BitVec.getLsbD_shiftLeft, BitVec.getLsbD_one, Bool.eq_iff_iff]
  simp
  omega

/-- Bit `k` of a byte to which the booleans of a list are added from bit `n` on. -/
theorem packBits_from (bs : List Bool) (n : Nat) {k : Nat} (hk : k < 8) (a : Byte) :
    ((bs.zipIdx n).foldl (fun a bi => if bi.1 then a ||| (1#8 <<< bi.2) else a) a).getLsbD k = true ↔
      a.getLsbD k = true ∨ (n ≤ k ∧ bs[k - n]? = some true) := by
  induction bs generalizing n a with
  | nil => simp
  | cons b bs ih =>
    have head : (if b then a ||| (1#8 <<< n) else a).getLsbD k = true ↔ a.getLsbD k = true ∨ (n = k ∧ b = true) := by
      cases b
      · simp
      · rw [if_pos rfl, BitVec.getLsbD_or, getLsbD_one_shiftLeft n hk]
        simp
    rw [List.zipIdx_cons, List.foldl_cons, ih, head, or_assoc]
    refine or_congr_right ?_
    rcases Nat.lt_trichotomy n k with below | rfl | above
    · obtain ⟨m, rfl⟩ := Nat.exists_eq_add_of_lt below
      rw [show n + m + 1 - n = m + 1 by omega, show n + m + 1 - (n + 1) = m by omega, List.getElem?_cons_succ]
      constructor
      · rintro (⟨h, -⟩ | ⟨-, h⟩)
        · omega
        · exact ⟨by omega, h⟩
      · exact fun h => .inr ⟨by omega, h.2⟩
    · simp
    · constructor
      · rintro (⟨h, -⟩ | ⟨h, -⟩) <;> omega
      · exact fun h => absurd h.1 (by omega)

/-- R164: a bit of the byte of a flag of the conditions is the flag of the condition of its index. -/
theorem packBits_conds (flag : CondRow → Bool) (rows : List CondRow) {k : Nat} (hk : k < 8) :
    (packBits (rows.map flag)).getLsbD k = true ↔ ∃ r, rows[k]? = some r ∧ flag r = true := by
  rw [packBits, packBits_from _ 0 hk, Nat.sub_zero, List.getElem?_map, Option.map_eq_some_iff]
  simp

/-! ### The stretches of a STATUS payload -/

theorem slice_self {a : List Byte} {n : Nat} (h : a.length = n) : slice a 0 n = a := by
  rw [slice, List.drop_zero, ← h, List.take_length]

/-- A slice that lies within the second of three strings. -/
theorem slice_middle {a b : List Byte} {m i n : Nat} (ha : a.length = m) (h : i + n ≤ b.length) (c : List Byte) :
    slice (a ++ b ++ c) (m + i) n = slice b i n := by
  rw [List.append_assoc, ← ha, slice_append_right, slice_append_left _ _ h]

/-- One of several strings of one length, put together. -/
theorem slice_flatMap {α : Type} {f : α → List Byte} {w : Nat} (width : ∀ x, (f x).length = w) {l : List α} {z : Nat} {x : α}
    (h : l[z]? = some x) : slice (l.flatMap f) (w * z) w = f x := by
  induction l generalizing z with
  | nil => cases h
  | cons y l ih =>
    rw [List.flatMap_cons]
    cases z with
    | zero =>
      obtain rfl : y = x := Option.some.inj h
      rw [Nat.mul_zero, slice_append_left _ _ (by rw [width]; omega), slice_self (width y)]
    | succ z => rw [Nat.mul_succ, Nat.add_comm, ← width y, slice_append_right, width y, ih h]

variable (p : Part)

/-- R164: the figures of STATUS before the zones'. -/
def statusHead : List Byte :=
  be 1 p.scu.store.code ++ be 2 p.scu.format ++ be 4 p.sdr.sequence ++ be 1 (zonesShown p)

/-- R164: the figures of the four zones. -/
def statusZones : List Byte := (List.range 4).flatMap (fun z => zoneFigures z p)

/-- R164: the figures of the request queue and the places. -/
def statusPlaces : List Byte :=
  be 1 p.rqs.queue.length ++ be 1 (activeCount p) ++ be 1 p.places ++ be 1 (endingReplies p) ++ be 1 (directInUse p)

/-- R164: the figures after the contexts'. -/
def statusEngine : List Byte :=
  be 1 p.pee.state.code ++ be 1 p.pee.budget ++ [if p.mli.level then 0x01 else 0x00]
    ++ [condSetByte p, condEnableByte p] ++ be 1 p.rqs.reserve ++ be 1 p.pee.preempt

theorem statusPayload_eq : statusPayload p =
    statusHead p ++ statusZones p ++ statusPlaces p ++ ctxFigures p.wcu.c0 ++ ctxFigures p.wcu.c1 ++ statusEngine p := by
  have zones : statusZones p = zoneFigures 0 p ++ (zoneFigures 1 p ++ (zoneFigures 2 p ++ zoneFigures 3 p)) := by
    simp [statusZones, List.range_succ]
  unfold statusPayload statusHead statusPlaces statusEngine Part.places
  simp only [zones, List.append_assoc]

@[simp] theorem zoneFigures_length (z : Nat) : (zoneFigures z p).length = 19 := by
  unfold zoneFigures
  dsimp only
  split
  · simp [zoneStates, be_length]
  · rfl

@[simp] theorem statusHead_length : (statusHead p).length = 8 := rfl

@[simp] theorem statusZones_length : (statusZones p).length = 76 := by
  simp [statusZones, List.length_flatMap]

@[simp] theorem statusPlaces_length : (statusPlaces p).length = 5 := rfl

@[simp] theorem ctxFigures_length (k : WriteCtx) : (ctxFigures k).length = 10 := rfl

@[simp] theorem statusEngine_length : (statusEngine p).length = 7 := rfl

theorem statusPayload_length : (statusPayload p).length = 116 := by
  simp [statusPayload_eq]

theorem statusPayload_head {i n : Nat} (h : i + n ≤ 8) : slice (statusPayload p) i n = slice (statusHead p) i n := by
  simp only [statusPayload_eq, List.append_assoc]
  exact slice_append_left _ _ h

theorem statusPayload_zoneFigures {i n : Nat} (h : i + n ≤ 76) : slice (statusPayload p) (8 + i) n = slice (statusZones p) i n := by
  have middle := slice_middle (statusHead_length p) (show i + n ≤ (statusZones p).length by simpa using h)
  simp only [statusPayload_eq, List.append_assoc] at middle ⊢
  exact middle _

theorem statusPayload_places {i n : Nat} (h : i + n ≤ 5) : slice (statusPayload p) (84 + i) n = slice (statusPlaces p) i n := by
  have before : (statusHead p ++ statusZones p).length = 84 := by simp
  have middle := slice_middle before (show i + n ≤ (statusPlaces p).length from h)
  simp only [statusPayload_eq, List.append_assoc] at middle ⊢
  exact middle _

theorem statusPayload_c0 {i n : Nat} (h : i + n ≤ 10) : slice (statusPayload p) (89 + i) n = slice (ctxFigures p.wcu.c0) i n := by
  have before : (statusHead p ++ statusZones p ++ statusPlaces p).length = 89 := by
    simp only [List.length_append, statusHead_length, statusZones_length, statusPlaces_length]
  have middle := slice_middle before (show i + n ≤ (ctxFigures p.wcu.c0).length from h)
  simp only [statusPayload_eq, List.append_assoc] at middle ⊢
  exact middle _

theorem statusPayload_c1 {i n : Nat} (h : i + n ≤ 10) : slice (statusPayload p) (99 + i) n = slice (ctxFigures p.wcu.c1) i n := by
  have before : (statusHead p ++ statusZones p ++ statusPlaces p ++ ctxFigures p.wcu.c0).length = 99 := by simp
  rw [statusPayload_eq]
  exact slice_middle before h _

theorem statusPayload_engine (i n : Nat) : slice (statusPayload p) (109 + i) n = slice (statusEngine p) i n := by
  have before : (statusHead p ++ statusZones p ++ statusPlaces p ++ ctxFigures p.wcu.c0 ++ ctxFigures p.wcu.c1).length = 109 := by simp
  rw [statusPayload_eq, ← before, slice_append_right]

/-! ### The zones' figures -/

/-- R164: the tables are meaningful. -/
def Part.planned (p : Part) : Prop := p.scu.store = .mounted ∨ p.scu.store = .formatting

/-- R164: the tables are not meaningful. -/
def Part.unplanned (p : Part) : Prop := p.scu.store = .scanning ∨ p.scu.store = .blank

variable {p} {z : Nat}

theorem zonesShown_unplanned (h : p.unplanned) : zonesShown p = 0 := by
  rcases h with h | h <;> rw [zonesShown, h]

theorem zonesShown_planned (h : p.planned) : zonesShown p = p.smp.zones.length := by
  rcases h with h | h <;> rw [zonesShown, h]

theorem zoneFigures_unplanned (h : p.unplanned) (z : Nat) : zoneFigures z p = List.replicate 19 0x00 := by
  rcases h with h | h <;> rw [zoneFigures, h]

theorem zoneFigures_beyond (h : p.planned) (none_ : p.zone z = none) : zoneFigures z p = List.replicate 19 0x00 := by
  rcases h with h | h <;> simp only [zoneFigures, h, none_]

/-- R164: the room that STATUS gives of a zone's tail. -/
def Zone.roomShown (r : Zone) (p : Part) : Nat :=
  match r.tail with
  | some t => (p.sector t).room
  | none => 0xFFFF

theorem zoneFigures_row (h : p.planned) {r : Zone} (row : p.zone z = some r) : zoneFigures z p =
    zoneStates.flatMap (fun st => be 2 (countState z st p)) ++ be 2 (r.roomShown p) ++ (be 1 r.lowWater ++ be 2 (reserved z p)) := by
  rw [← List.append_assoc]
  rcases h with h | h <;> simp only [zoneFigures, h, row] <;> rfl

/-- R164: the zone count and the zones' figures are 0 while the tables are not meaningful. -/
theorem statusPayload_unplanned (h : p.unplanned) : slice (statusPayload p) 7 77 = List.replicate 77 0x00 := by
  obtain ⟨head, seven, count⟩ : ∃ head : List Byte, head.length = 7 ∧ statusHead p = head ++ [0x00] :=
    ⟨be 1 p.scu.store.code ++ be 2 p.scu.format ++ be 4 p.sdr.sequence, rfl, by rw [statusHead, zonesShown_unplanned h]; rfl⟩
  have zones : statusZones p = (List.range 4).flatMap (fun _ => List.replicate 19 0x00) :=
    congrArg (List.range 4).flatMap (funext (zoneFigures_unplanned h))
  have middle := slice_middle (i := 0) (n := 77) (b := [0x00] ++ (List.range 4).flatMap (fun _ => List.replicate 19 0x00)) seven
    (by decide)
  simp only [statusPayload_eq, count, zones, List.append_assoc] at middle ⊢
  exact (middle _).trans (by decide)

/-- R164: the figures of the zones of a plan of up to four, and zeros beyond them. -/
theorem statusPayload_zones (h : p.planned) : slice (statusPayload p) 7 1 = be 1 p.smp.zones.length ∧
    (∀ z, p.smp.zones.length ≤ z → z < 4 → slice (statusPayload p) (8 + 19 * z) 19 = List.replicate 19 0x00) ∧
    ∀ z r, p.smp.zones[z]? = some r → z < 4 →
      (r.tail = none → slice (statusPayload p) (8 + 19 * z + 14) 2 = [0xFF, 0xFF]) ∧
      (∀ t, r.tail = some t → slice (statusPayload p) (8 + 19 * z + 14) 2 = be 2 (p.sector t).room) ∧
      slice (statusPayload p) (8 + 19 * z + 16) 3 = be 1 r.lowWater ++ be 2 (reserved z p) ∧
      slice (statusPayload p) (8 + 19 * z) 14 = be 2 (countState z .free p) ++ be 2 (countState z .owned p)
        ++ be 2 (countState z .tail p) ++ be 2 (countState z .sealed p) ++ be 2 (countState z .stale p)
        ++ be 2 (countState z .erasing p) ++ be 2 (countState z .bad p) := by
  have shown {z : Nat} (hz : z < 4) : slice (statusPayload p) (8 + 19 * z) 19 = zoneFigures z p := by
    rw [statusPayload_zoneFigures p (by omega)]
    exact slice_flatMap (zoneFigures_length p) (List.getElem?_range hz)
  refine ⟨?_, fun z beyond hz => ?_, fun z r row hz => ?_⟩
  · rw [statusPayload_head p (by decide), statusHead, zonesShown_planned h]
    rfl
  · rw [shown hz, zoneFigures_beyond h (List.getElem?_eq_none beyond)]
  · have at_ (i n : Nat) (h : i + n ≤ 19) : slice (statusPayload p) (8 + 19 * z + i) n = slice (zoneFigures z p) i n := by
      rw [← shown hz, slice_slice _ _ _ _ _ h]
    have counts : (zoneStates.flatMap (fun st => be 2 (countState z st p))).length = 14 := by simp [zoneStates, be_length]
    have room : slice (statusPayload p) (8 + 19 * z + 14) 2 = be 2 (r.roomShown p) := by
      rw [at_ 14 2 (by decide), zoneFigures_row h row]
      exact slice_middle counts (i := 0) (Nat.le_refl 2) _
    refine ⟨fun none_ => ?_, fun t tail => ?_, ?_, ?_⟩
    · rw [room, Zone.roomShown, none_]
      exact (by decide : be 2 0xFFFF = [0xFF, 0xFF])
    · rw [room, Zone.roomShown, tail]
    · have before : (zoneStates.flatMap (fun st => be 2 (countState z st p)) ++ be 2 (r.roomShown p)).length = 16 := by
        rw [List.length_append, counts, be_length]
      rw [at_ 16 3 (by decide), zoneFigures_row h row]
      exact (before ▸ slice_append_right _ _ 0 3).trans (slice_self rfl)
    · refine (at_ 0 14 (by decide)).trans ?_
      rw [zoneFigures_row h row, List.append_assoc, slice_append_left _ _ (by rw [counts]), slice_self counts]
      simp [zoneStates]

/-! ### The reports -/

theorem identPayload_eq : identPayload =
    [0x47, 0x16, 0x40, 0x01, 0x02, 0x00, 0x10, 0x00, 0x01, 0x00, 0x01, 0x00, 0x04, 0x00, 0x00] := by decide

/-- R160: the end of a push changes no figure of STATUS. -/
theorem statusPayload_pushed (n : Nat) (p : Part) : statusPayload (p.pushed n) = statusPayload p := rfl

theorem endingReplies_eq (p : Part) :
    endingReplies p = (p.link.replies.filter (fun r => r.place = .ending .c0 ∨ r.place = .ending .c1)).length := by
  unfold endingReplies
  congr 2
  funext r
  cases r.place with
  | ending c => cases c <;> rfl
  | _ => rfl

/-- Settles O20: each figure at its place in one of the payload's stretches. -/
theorem identAndStatusReport : Obligations.IdentAndStatusReport := by
  intro tag level s listens
  refine ⟨request_answers rfl listens (by rw [← identPayload_eq]; rfl), statusPayload s.part,
    request_answers rfl listens (by rw [← statusPayload_pushed 7]; rfl), statusPayload_length _, ?_⟩
  generalize s.part = p
  have head {i n : Nat} (h : i + n ≤ 8) := statusPayload_head p h
  have places {i n : Nat} (h : i + n ≤ 5) := statusPayload_places p h
  have c0 {i n : Nat} (h : i + n ≤ 10) := statusPayload_c0 p h
  have c1 {i n : Nat} (h : i + n ≤ 10) := statusPayload_c1 p h
  have engine := statusPayload_engine p
  have flags : slice (statusPayload p) 112 2 = [condSetByte p, condEnableByte p] := engine 3 2
  refine ⟨?_, head (by decide), head (by decide), ⟨?_, ?_⟩, places (i := 0) (by decide), places (i := 2) (by decide), ?_,
    places (i := 4) (by decide), c0 (i := 1) (by decide), c1 (i := 1) (by decide), ?_, engine 1 2, engine 5 2, fun k hk => ⟨?_, ?_⟩,
    statusPayload_unplanned, fun planned _ => statusPayload_zones planned⟩
  · rw [head (by decide)]
    show be 1 p.scu.store.code = _
    cases p.scu.store <;> rfl
  · refine (c0 (i := 0) (by decide)).trans ?_
    show be 1 p.wcu.c0.state.code = _
    dsimp only
    cases p.wcu.c0.state <;> rfl
  · refine (c1 (i := 0) (by decide)).trans ?_
    show be 1 p.wcu.c1.state.code = _
    dsimp only
    cases p.wcu.c1.state <;> rfl
  · rw [← endingReplies_eq]
    exact places (i := 3) (by decide)
  · refine (engine 0 1).trans ?_
    show be 1 p.pee.state.code = _
    cases p.pee.state <;> rfl
  · rw [← packBits_conds _ _ hk, ← Nat.add_zero 112, ← byteAt_slice _ _ 2 _ (by decide), flags]
    exact Iff.rfl
  · rw [← packBits_conds _ _ hk, show 113 = 112 + 1 from rfl, ← byteAt_slice _ _ 2 _ (by decide), flags]
    exact Iff.rfl

end Sys2Proof.Machine
end

section
/-! SUPPORT. A queued request is offered for admission (R146, R149, R150). -/
namespace Sys2Proof.Machine

variable {p : Part} {level : Byte}

theorem admits_iff (l : Nat) (p : Part) : admits l p = true ↔ Admitted l p := by
  have max_ : Config.queueMax = 16 := rfl
  unfold admits Admitted Part.places
  dsimp only
  rw [Bool.and_eq_true, decide_eq_true_eq, max_]
  refine and_congr_right fun _ => ?_
  split <;> rw [decide_eq_true_eq] <;> omega

theorem offer_scanning (scanning : p.scu.store = .scanning) (r : Request) (tag level : Byte) :
    offer r tag level p = placeDirect r.kind tag .notReady [] p := if_pos scanning

theorem offer_outOfRange (ready : p.scu.store ≠ .scanning) (range : 8 ≤ level.toNat) (r : Request) (tag : Byte) :
    offer r tag level p = placeDirect r.kind tag .badField [] p := (if_neg ready).trans (if_pos range)

theorem offer_admitted (ready : p.scu.store ≠ .scanning) (range : level.toNat ≤ 7) (admitted : Admitted level.toNat p) (r : Request)
    (tag : Byte) : offer r tag level p = closeEvent (admitEntry r tag level.toNat p) :=
  (if_neg ready).trans ((if_neg (Nat.not_lt.2 range)).trans (if_pos ((admits_iff _ p).2 admitted)))

theorem offer_full (ready : p.scu.store ≠ .scanning) (range : level.toNat ≤ 7) (full : ¬ Admitted level.toNat p) (r : Request)
    (tag : Byte) : offer r tag level p = placeDirect r.kind tag .queueFull [] p :=
  (if_neg ready).trans ((if_neg (Nat.not_lt.2 range)).trans (if_neg fun admitted => full ((admits_iff _ p).1 admitted)))

/-- R146: a command whose meaning is the offer of a request offers it; the end of its push changes nothing that the offer looks at. -/
theorem offers_of_exec {i : Instr} {r : Request} {tag : Byte} {n : Nat} (meaning : ∀ s, exec i s = request n (offer r tag level) s) :
    Offers i r tag level n := by
  intro s listens
  refine ⟨fun scanning => ?_, fun ready range => ?_, fun ready range admitted => ?_, fun ready range full => ?_⟩
  · exact request_answers (meaning s) listens (offer_scanning (p := s.part.pushed n) scanning r tag level)
  · exact request_answers (meaning s) listens (offer_outOfRange (p := s.part.pushed n) ready range r tag)
  · rw [meaning, request_listens listens, offer_admitted (p := s.part.pushed n) ready range admitted]
    rfl
  · exact request_answers (meaning s) listens (offer_full (p := s.part.pushed n) ready range full r tag)

/-- R162: a FORMAT with its four plan entries is offered. -/
theorem takeFormat_offer {es : List PlanEntry} (four : es.length = 4) (tag level z : Byte) :
    takeFormat tag level z es = offer (.format z.toNat (planNumbers es)) tag level :=
  funext fun _ => if_neg (not_not.2 four)

/-- Settles O31: the meaning of each command is an offer. -/
theorem queuedRequestsAreOffered : Obligations.QueuedRequestsAreOffered := by
  intro tag level z k c slot n es four
  refine ⟨offers_of_exec fun _ => rfl, offers_of_exec fun _ => rfl, offers_of_exec fun _ => rfl, offers_of_exec fun _ => rfl,
    offers_of_exec fun _ => rfl, offers_of_exec fun _ => rfl, offers_of_exec fun s => ?_⟩
  show request (8 + 3 * es.length) (takeFormat tag level z es) s = _
  rw [four, takeFormat_offer four]
  rfl

end Sys2Proof.Machine
end

section
/-! SUPPORT. What activation passes over, and the order in which it chooses (R150 to R153). -/
namespace Sys2Proof.Machine

variable {p : Part} {e : Entry}

/-! ### Eligibility (R151) -/

theorem Request.long_iff (r : Request) : r.long = true ↔
    (∃ z n, r = .compact z n) ∨ (∃ n pl, r = .format n pl) ∨ ∃ s, r = .verify s := by
  cases r <;> simp [Request.long]

theorem slotHeld_iff (s : Nat) (p : Part) : slotHeld s p = true ↔
    ∃ d, p.entryOf s = some d ∧ (d.relocating = true ∨ d.deletePending = true) := by
  unfold slotHeld
  cases p.entryOf s <;> simp

/-- R151: one of COMPACT, FORMAT and VERIFY is ACTIVE. -/
theorem anyLong_iff (p : Part) : p.rqs.queue.any (fun d => d.active && d.request.long) = true ↔
    ∃ d ∈ p.rqs.queue, d.active = true ∧ d.request.long = true := by
  simp

section
variable (waiting : e.active = false)
include waiting

theorem eligible_long (long : e.request.long = true) :
    eligible p e = true ↔ ¬ ∃ d ∈ p.rqs.queue, d.active = true ∧ d.request.long = true := by
  rw [← anyLong_iff, Bool.not_eq_true, ← Bool.not_eq_true']
  obtain ⟨z, n, request⟩ | ⟨n, pl, request⟩ | ⟨s, request⟩ := (Request.long_iff _).1 long
  all_goals
    unfold eligible
    rw [waiting, request]
    exact Iff.rfl

theorem eligible_delete {s : Nat} (request : e.request = .delete s) :
    eligible p e = true ↔ ¬ ∃ d, p.entryOf s = some d ∧ (d.relocating = true ∨ d.deletePending = true) := by
  rw [← slotHeld_iff, Bool.not_eq_true, ← Bool.not_eq_true']
  unfold eligible
  rw [waiting, request]
  exact Iff.rfl

theorem eligible_write {s z k n : Nat} (request : e.request = .write s z k n) :
    eligible p e = true ↔ ¬ ∃ d, p.entryOf s = some d ∧ (d.relocating = true ∨ d.deletePending = true) := by
  rw [← slotHeld_iff, Bool.not_eq_true, ← Bool.not_eq_true']
  unfold eligible
  rw [waiting, request]
  exact Iff.rfl

theorem eligible_read {s o n : Nat} (request : e.request = .read s o n) : eligible p e = true := by
  rw [eligible, waiting, request]
  rfl

theorem eligible_list {a m : Nat} (request : e.request = .list a m) : eligible p e = true := by
  rw [eligible, waiting, request]
  rfl

end

/-! ### What validation says of an entry that is not passed over (R37, R152) -/

/-- R33, R37: a WRITE of a slot that an open context is creating is refused SLOT_BUSY. -/
theorem validate_write_creating {s z k n : Nat} (open_ : ∃ c, (p.ctx c).isOpen = true ∧ (p.ctx c).slot = s)
    (passed : ∀ x ∈ checks (.write s z k n) p, x.2.code.toNat < 0x35 → x.1 = true) :
    validate (.write s z k n) p = some .slotBusy := by
  have busy := (writeFree_eq_false_iff s p).2 (.inl open_)
  unfold checks at passed
  simp only [List.forall_mem_cons] at passed
  obtain ⟨ready, field, class_, -⟩ := passed
  simp only [validate, checks]
  rw [List.find?_cons_of_neg (by simp [ready (by decide)]), List.find?_cons_of_neg (by rw [field (by decide)]; decide),
    List.find?_cons_of_neg (by rw [class_ (by decide)]; decide), List.find?_cons_of_pos (by rw [busy]; decide)]
  rfl

theorem validate_delete_absent {s : Nat} (absent : p.entryOf s = none) (mounted : p.mounted = true) (range : 1 ≤ s ∧ s ≤ 4095) :
    validate (.delete s) p = some .noSlot := by
  have max_ : Config.maxSlot = 4095 := rfl
  simp [validate, checks, mounted, slotInRange, range, absent, max_]

theorem validate_formatting (formatting : p.scu.store = .formatting) (r : Request) : validate r p = some .notReady := by
  have unmounted : p.mounted = false := by rw [Part.mounted, formatting]; rfl
  cases r <;> simp [validate, checks, unmounted, formatting]

/-- Settles O32: one equivalence for each kind, and the verdicts of validation. -/
theorem eligibilityTable : Obligations.EligibilityTable := by
  intro p e waiting longActive held
  have long := fun h => eligible_long (p := p) waiting ((Request.long_iff _).2 h)
  have free {s : Nat} (absent : p.entryOf s = none) : ¬ held s := by
    rintro ⟨d, present, -⟩
    rw [absent] at present
    cases present
  refine ⟨fun z n h => long (.inl ⟨z, n, h⟩), fun n pl h => long (.inr (.inl ⟨n, pl, h⟩)), fun s h => long (.inr (.inr ⟨s, h⟩)),
    fun s => eligible_delete waiting, fun s z k n => eligible_write waiting, fun s o n => eligible_read waiting,
    fun a m => eligible_list waiting, Request.long_iff, fun s z k n absent => ⟨fun h => ?_, fun h => ?_⟩, ?_,
    fun s z k n _ => validate_write_creating, fun s absent mounted low high => validate_delete_absent absent mounted ⟨low, high⟩,
    fun r formatting => validate_formatting formatting r⟩
  · exact (eligible_delete waiting h).2 (free absent)
  · exact (eligible_write waiting h).2 (free absent)
  · rintro ⟨d, hd, active, n, pl, format⟩ kind
    have activeLong : longActive := ⟨d, hd, active, (Request.long_iff _).2 (.inr (.inl ⟨n, pl, format⟩))⟩
    rw [← Bool.not_eq_true, long (kind.imp id .inr)]
    exact not_not.2 activeLong

/-! ### The choice (R150) -/

theorem bestEntry_eq_none_iff (l : List Entry) : bestEntry l = none ↔ l = [] := by
  cases l with
  | nil => simp [bestEntry]
  | cons e es =>
    simp only [bestEntry, reduceCtorEq, iff_false]
    split
    · split <;> exact nofun
    · exact nofun

/-- R150: the entry chosen from a list in age order has the highest level, and is the oldest of that level. -/
theorem bestEntry_spec {l : List Entry} (order : (l.map (·.age)).Pairwise (· < ·)) (h : bestEntry l = some e) :
    e ∈ l ∧ ∀ d ∈ l, d.level < e.level ∨ (d.level = e.level ∧ e.age ≤ d.age) := by
  induction l generalizing e with
  | nil => cases h
  | cons x xs ih =>
    rw [List.map_cons, List.pairwise_cons] at order
    obtain ⟨oldest, later⟩ := order
    have older {d : Entry} (hd : d ∈ xs) : x.age < d.age := oldest _ (List.mem_map_of_mem hd)
    unfold bestEntry at h
    cases best : bestEntry xs with
    | none =>
      rw [best] at h
      obtain rfl : x = e := Option.some.inj h
      obtain rfl := (bestEntry_eq_none_iff xs).1 best
      exact ⟨List.mem_cons_self, fun d hd => .inr (by rw [List.mem_singleton.1 hd]; exact ⟨rfl, Nat.le_refl _⟩)⟩
    | some y =>
      obtain ⟨hy, first⟩ := ih later best
      rw [best] at h
      dsimp only at h
      split at h
      · rename_i higher
        obtain rfl : y = e := Option.some.inj h
        exact ⟨List.mem_cons_of_mem _ hy, List.forall_mem_cons.2 ⟨.inl higher, first⟩⟩
      · rename_i higher
        obtain rfl : x = e := Option.some.inj h
        refine ⟨List.mem_cons_self, List.forall_mem_cons.2 ⟨.inr ⟨rfl, Nat.le_refl _⟩, fun d hd => ?_⟩⟩
        have := first d hd
        have := older hd
        omega

theorem activationReact_full (full : 4 ≤ activeCount p) : activationReact p = none := if_neg (Nat.not_lt.2 full)

theorem activationReact_room (room : activeCount p < 4) :
    activationReact p = (bestEntry (p.rqs.queue.filter (eligible p))).map (fun e => activate e p) := if_pos room

/-! ### The entry chosen (R152, R153) -/

/-- R148: a change of the entry of an age leaves the others. -/
theorem filter_modQueue {a : Nat} {f : Entry → Entry} (age : ∀ e, (f e).age = e.age) (p : Part) :
    (modQueue a f p).rqs.queue.filter (fun d => d.age ≠ a) = p.rqs.queue.filter (fun d => d.age ≠ a) := by
  unfold modQueue
  dsimp only
  induction p.rqs.queue with
  | nil => rfl
  | cons x xs ih =>
    rw [List.map_cons]
    by_cases hx : x.age = a
    · rw [if_pos hx, List.filter_cons_of_neg (by simpa [age] using hx), List.filter_cons_of_neg (by simpa using hx), ih]
    · rw [if_neg hx, List.filter_cons_of_pos (by simpa using hx), List.filter_cons_of_pos (by simpa using hx), ih]

theorem queueEntry_modQueue {a : Nat} {f : Entry → Entry} (age : ∀ e, (f e).age = e.age) (h : p.queueEntry a = some e) :
    (modQueue a f p).queueEntry a = some (f e) := by
  have found := find?_map_key p.rqs.queue (fun d => if d.age = a then f d else d) (fun d => d.age = a)
    (fun d => by split <;> simp [age])
  refine found.trans ?_
  rw [show p.rqs.queue.find? (fun d => d.age = a) = some e from h, Option.map_some, if_pos (queueEntry_age h)]

/-- R148: an entry that ends leaves the queue with what was changed in it; its reply looks at its kind and its tag. -/
theorem endedPart_modQueue {f : Entry → Entry} (age : ∀ e, (f e).age = e.age) (request : (f e).request = e.request)
    (tag : (f e).tag = e.tag) (st : Status) (n : Byte) (pl : List Byte) (p : Part) :
    endedPart (f e) st n pl (modQueue e.age f p) = endedPart e st n pl p := by
  unfold endedPart
  rw [age, request, tag, filter_modQueue age]
  rfl

/-- R152: an entry that fails its validation ends with the status reported. -/
theorem activate_refused {st : Status} (fails : validate e.request p = some st) (entry : p.queueEntry e.age = some e) :
    activate e p = endedPart e st 0 [] p := by
  unfold activate
  dsimp only
  rw [fails]
  dsimp only
  rw [completeEntry_eq (queueEntry_modQueue (f := fun d => { d with active := true }) (fun _ => rfl) entry)]
  exact endedPart_modQueue (f := fun d => { d with active := true }) (fun _ => rfl) rfl rfl ..

theorem activate_passed (passes : validate e.request p = none) :
    activate e p = handOver e (modQueue e.age (fun d => { d with active := true }) p) := by
  unfold activate
  rw [passes]

/-- Settles O33: the choice among the eligible entries, and what becomes of the one chosen. -/
theorem activationOrder : Obligations.ActivationOrder := by
  refine ⟨fun p order => ⟨activationReact_full, fun none_ => ?_, fun room some_ => ?_⟩,
    fun p e => ⟨fun st => activate_refused, fun st fails entry held => ?_, activate_passed⟩⟩
  · have empty : p.rqs.queue.filter (eligible p) = [] := List.filter_eq_nil_iff.2 fun e he => by simp [none_ e he]
    unfold activationReact
    rw [empty]
    split <;> rfl
  · obtain ⟨x, hx, eligible_⟩ := some_
    cases best : bestEntry (p.rqs.queue.filter (eligible p)) with
    | none =>
      have := List.filter_eq_nil_iff.1 ((bestEntry_eq_none_iff _).1 best) x hx
      exact absurd eligible_ this
    | some e =>
      have sorted : ((p.rqs.queue.filter (eligible p)).map (·.age)).Pairwise (· < ·) :=
        order.sublist (List.filter_sublist.map _)
      obtain ⟨he, first⟩ := bestEntry_spec sorted best
      obtain ⟨queued, chosen⟩ := List.mem_filter.1 he
      exact ⟨e, queued, chosen, by rw [activationReact_room room, best]; rfl,
        fun d hd hdel => first d (List.mem_filter.2 ⟨hd, hdel⟩)⟩
  · rw [activate_refused fails entry, endedPart_unheld held]

end Sys2Proof.Machine
end

section
/-! SUPPORT. An event of the engine or of the array is quiet: it changes the array and, with `Quiet`, the part, and no more
(R65 to R70, R74, R124). -/
namespace Sys2Proof.Machine

variable {s : State}

/-- If an event happens, the queue of the events that are due stays and the part follows quietly. -/
def QuietOut (s : State) (o : Out) : Prop := ∀ t, o = .next t → t.pending = s.pending ∧ Quiet s.part t.part

theorem QuietOut.next {q : Part} (h : Quiet s.part q) (a : List Host.Cell) : QuietOut s (.next { s with array := a, part := q }) := by
  intro t happens
  cases happens
  exact ⟨rfl, h⟩

theorem QuietOut.stays (s : State) : QuietOut s (.next s) := QuietOut.next (Quiet.refl _) s.array

theorem QuietOut.faults (f : Fault) : QuietOut s (.fault f) := by
  intro t happens
  cases happens

theorem finishWrite_quiet (u : Purpose) (n o : Nat) (bs stuck : List Byte) (r : Result) :
    QuietOut s (finishWrite u n o bs stuck r s) := by
  unfold finishWrite
  split
  · exact .next (closeEvent_quiet (writeEnded_quiet (endOp_quiet (Quiet.refl _)) _ _ _ _)) _
  · exact .faults _

theorem finishHeader_quiet (b : BatchSector) (stuck : List Byte) (ok : Bool) : QuietOut s (finishHeader b stuck ok s) := by
  have done := headerDone_quiet (Quiet.refl s.part) b.sector ok
  unfold finishHeader
  dsimp only
  split
  · exact .next (quiet_ite done (closeEvent_quiet done)) _
  · exact .faults _

theorem execReadComplete_quiet : QuietOut s (execReadComplete s) := by
  unfold execReadComplete
  split
  · split
    · exact .next (closeEvent_quiet (readEnded_quiet (endOp_quiet (Quiet.refl _)) _ _)) _
    · exact .faults _
  · exact .stays s

theorem execProgramComplete_quiet (stuck : List Byte) : QuietOut s (execProgramComplete stuck s) := by
  unfold execProgramComplete
  split
  · exact finishWrite_quiet _ _ _ _ _ _
  · exact .stays s

theorem execMarkComplete_quiet (stuck : List Byte) : QuietOut s (execMarkComplete stuck s) := by
  unfold execMarkComplete
  split
  · exact finishWrite_quiet _ _ _ _ _ _
  · exact .stays s

theorem execHeaderWriteComplete_quiet (stuck : List Byte) : QuietOut s (execHeaderWriteComplete stuck s) := by
  unfold execHeaderWriteComplete
  split
  · exact finishHeader_quiet _ _ _
  · exact .stays s

theorem execOperationTimeout_quiet (stuck : List Byte) : QuietOut s (execOperationTimeout stuck s) := by
  unfold execOperationTimeout
  split
  · exact finishHeader_quiet _ _ _
  · split
    · exact finishWrite_quiet _ _ _ _ _ _
    · exact finishWrite_quiet _ _ _ _ _ _
    · exact .stays s

theorem execSuspendComplete_quiet : QuietOut s (execSuspendComplete s) := by
  unfold execSuspendComplete
  split
  · refine QuietOut.next ?_ s.array
    apply grantNow_quiet
    refine quiet_mk ?_ _ _ _ _ _ _ rfl rfl
    split
    · exact noteServed_quiet (Quiet.refl _) _ _
    · exact Quiet.refl _
  · exact .stays s

theorem execErasePhaseEnd_quiet (residue : List (Nat × Byte)) : QuietOut s (execErasePhaseEnd residue s) := by
  unfold execErasePhaseEnd
  split
  · exact .next (enterHeaders_quiet (Quiet.refl _) _ _) _
  · exact .stays s

theorem execBatchTimeout_quiet (residue : List (Nat × Byte)) : QuietOut s (execBatchTimeout residue s) := by
  unfold execBatchTimeout
  split
  · exact .next (enterHeaders_quiet (Quiet.refl _) _ _) _
  · exact .stays s

theorem execGatheringWindowExpiry_quiet : QuietOut s (execGatheringWindowExpiry s) := by
  unfold execGatheringWindowExpiry
  split
  · exact .next (closeEvent_quiet (raiseErase_quiet (Quiet.refl _))) _
  · exact .stays s

/-- Settles O57: each of the nine events is quiet. -/
theorem engineEventsKeepSettings : Obligations.EngineEventsKeepSettings := by
  intro i s t stuck residue event happens
  have quiet : QuietOut s (exec i s) := by
    rcases event with rfl | rfl | rfl | rfl | rfl | rfl | rfl | rfl | rfl
    · exact execReadComplete_quiet
    · exact execProgramComplete_quiet stuck
    · exact execMarkComplete_quiet stuck
    · exact execOperationTimeout_quiet stuck
    · exact execSuspendComplete_quiet
    · exact execErasePhaseEnd_quiet residue
    · exact execBatchTimeout_quiet residue
    · exact execHeaderWriteComplete_quiet stuck
    · exact execGatheringWindowExpiry_quiet
  obtain ⟨pending, settings, direct, ⟨replies, -⟩, -, entries⟩ := quiet t happens
  refine ⟨pending, settings, direct, replies, fun nodup => ?_⟩
  obtain ⟨-, nextAge, places, -⟩ := entries nodup
  exact ⟨places, nextAge⟩

end Sys2Proof.Machine
end

section
/-! SUPPORT. What ABORT finds in the queue and in the replies (R157). -/
namespace Sys2Proof.Machine

variable {p : Part} {e : Entry}

/-- R148: with the ages told apart, an entry of the queue is the entry of its age. -/
theorem queueEntry_of_mem (nodup : p.ages.Nodup) (he : e ∈ p.rqs.queue) : p.queueEntry e.age = some e := by
  cases h : p.queueEntry e.age with
  | none => simpa using List.find?_eq_none.1 h e he
  | some d => rw [List.inj_on_of_nodup_map nodup (List.mem_of_find?_eq_some h) he (queueEntry_age h)]

section
variable {target : Byte} (tag : Byte)

theorem takeAbort_waiting (found : p.rqs.queue.find? (fun e => e.tag = target) = some e) (waiting : e.active = false) :
    takeAbort tag target p = closeEvent (placeDirect 0x06 tag .ok [] (completeEntry e.age .aborted 0 [] p)) := by
  simp only [takeAbort, found, waiting, Bool.false_eq_true, if_false]

theorem takeAbort_active (found : p.rqs.queue.find? (fun e => e.tag = target) = some e) (active : e.active = true) :
    takeAbort tag target p = closeEvent (abortActive tag e p) := by
  simp only [takeAbort, found, active, if_true]

theorem takeAbort_replied (none_ : p.rqs.queue.find? (fun e => e.tag = target) = none)
    (replied : ∃ r ∈ p.link.replies, r.place = .queued ∧ r.tag = target ∧ r.kind ≠ 0x20) :
    takeAbort tag target p = placeDirect 0x06 tag .tooLate [] p := by
  unfold takeAbort
  rw [none_]
  exact if_pos (by simpa [and_assoc] using replied)

theorem takeAbort_unknown (none_ : p.rqs.queue.find? (fun e => e.tag = target) = none)
    (unknown : ¬ ∃ r ∈ p.link.replies, r.place = .queued ∧ r.tag = target ∧ r.kind ≠ 0x20) :
    takeAbort tag target p = placeDirect 0x06 tag .notFound [] p := by
  unfold takeAbort
  rw [none_]
  exact if_neg (by simpa [and_assoc] using unknown)

theorem abortActive_tooLate (short : (∃ a b c, e.request = .read a b c) ∨ (∃ a b, e.request = .list a b) ∨ ∃ a, e.request = .delete a) :
    abortActive tag e p = placeDirect 0x06 tag .tooLate [] p := by
  unfold abortActive
  obtain ⟨a, b, c, request⟩ | ⟨a, b, request⟩ | ⟨a, request⟩ := short
  all_goals rw [request]

end

/-- Settles O24: the entry found is the one that ends, and the ABORT's reply comes after its own. -/
theorem abortRemovesWaiting : Obligations.AbortRemovesWaiting := by
  intro tag level target s e listens nodup held found waiting
  have entry : (s.part.pushed 8).queueEntry e.age = some e :=
    queueEntry_of_mem (p := s.part.pushed 8) nodup (List.mem_of_find?_eq_some found)
  have ended := endedPart_unheld (p := s.part.pushed 8) held .aborted 0 []
  refine ⟨placeDirect 0x06 tag .ok [] (completeEntry e.age .aborted 0 [] (s.part.pushed 8)), ?_, ?_⟩
  · rw [← takeAbort_waiting tag (p := s.part.pushed 8) found waiting]
    exact request_listens listens 8 _
  · rw [completeEntry_eq entry, ended]
    exact placeDirect_answers ..

/-- Settles O25: the two answers that need no request to end. -/
theorem abortAnswersAtOnce : Obligations.AbortAnswersAtOnce := by
  intro tag level target s listens
  refine ⟨fun e found active short => ⟨placeDirect 0x06 tag .tooLate [] (s.part.pushed 8), ?_, placeDirect_answers ..⟩,
    fun none_ replied => ?_, fun none_ unknown => ?_⟩
  · rw [← abortActive_tooLate tag short, ← takeAbort_active tag (p := s.part.pushed 8) found active]
    exact request_listens listens 8 _
  · exact request_answers rfl listens (takeAbort_replied tag (p := s.part.pushed 8) none_ replied)
  · exact request_answers rfl listens (takeAbort_unknown tag (p := s.part.pushed 8) none_ unknown)

end Sys2Proof.Machine
end

section
/-! SUPPORT. What the end of a runner's step leaves of the link and of the waiting claims (R35, R44, R46, R132, R136). -/
namespace Sys2Proof.Machine

variable {p q : Part}

/-! ### The Sector Map leaves the link -/

theorem raiseErase_link (p : Part) : (raiseErase p).link = p.link := by rw [raiseErase_eq]

theorem openBatch_link (p : Part) : (openBatch p).link = p.link := by rw [openBatch_eq]

theorem joinErase_link (i : Nat) (p : Part) : (joinErase i p).link = p.link := by
  unfold joinErase
  split
  · dsimp only
    split
    · split
      · exact raiseErase_link _
      · rfl
    · rfl
  · exact openBatch_link _

theorem becomeStale_link (i : Nat) (p : Part) : (becomeStale i p).link = p.link := by
  unfold becomeStale
  dsimp only
  obtain ⟨_, _, spare, -, -⟩ := returnSpare_eq (p.sector i).zone _
  rw [spare]
  dsimp only
  split
  · exact joinErase_link _ _
  · rfl

theorem judgeSector_link (i : Nat) (p : Part) : (judgeSector i p).link = p.link := by
  unfold judgeSector
  dsimp only
  split
  · split
    · exact becomeStale_link _ _
    · split
      · rfl
      · rfl
  · rfl

theorem dropOwner_link (i : Nat) (p : Part) : (dropOwner i p).link = p.link := by
  unfold dropOwner
  dsimp only
  rw [modSector_link]
  split
  · exact modCtx_link ..
  · rfl
  · rfl

theorem sealSector_link (i : Nat) (p : Part) : (sealSector i p).link = p.link := by
  unfold sealSector
  rw [judgeSector_link, modSector_link, clearTail_link, dropOwner_link]

theorem giveUp_link (i : Nat) (p : Part) : (giveUp i p).link = p.link := by
  unfold giveUp
  dsimp only
  split
  · exact dropOwner_link i p
  · split
    · split
      · split
        · exact dropOwner_link i p
        · split
          · exact (sealSector_link _ _).trans (dropOwner_link i p)
          · exact (sealSector_link _ _).trans (dropOwner_link i p)
      · exact (sealSector_link _ _).trans (dropOwner_link i p)
    · exact (sealSector_link _ _).trans (dropOwner_link i p)

theorem settleRunnerSector_link (st : Step) (p : Part) : (settleRunnerSector st p).link = p.link := by
  have given : (match p.rcu.owned with
      | some i => dropRunnerSector i { p with rcu := { p.rcu with owned := none } }
      | none => p).link = p.link := by
    split <;> rfl
  unfold settleRunnerSector
  dsimp only
  split
  · split
    · split
      · exact sealSector_link _ _
      · rfl
    · split
      · rfl
      · exact judgeSector_link _ _
  · split
    · exact given
    · exact given

theorem settleRestart_link (p : Part) : (settleRestart p).link = p.link := by
  rw [settleRestart_eq]
  split
  · split
    · exact giveUp_link _ _
    · rfl
  · rfl

/-- R35: an end without a new copy reports no condition: it leaves the whole link. -/
theorem endStep_unclosed_link {st : Step} (hs : p.rcu.step = some st) : (endStep false p).link = p.link := by
  obtain ⟨-, link, -⟩ := deferredRaised_unclosed st p
  rw [endStep_settles hs, settleRestart_link, settleRunnerSector_link, link]

/-! ### The claims that join the set -/

/-- Claims of other owners that join the set leave an owner's standing. -/
theorem claimWaits_of_append {o : Owner} {l : List Claim} (joined : q.pee.claims = p.pee.claims ++ l)
    (others : ∀ c ∈ l, c.purpose.owner ≠ o) : claimWaits o q = claimWaits o p := by
  have none_ : l.any (fun c => c.purpose.owner == o) = false := by simpa using others
  unfold claimWaits
  rw [joined, List.any_append, none_, Bool.or_false]

/-- R61: a withdrawn claim waits no more. -/
theorem claimWaits_withdraw (o : Owner) (p : Part) : claimWaits o (withdraw o p) = false := by
  unfold claimWaits withdraw
  simp

/-- R30, R31: a record's attempt raises no claim of the runner. -/
theorem raiseObsolete_runner (s n : Nat) (p : Part) : claimWaits .runner (raiseObsolete s n p) = claimWaits .runner p := by
  unfold raiseObsolete
  split
  · exact claimWaits_of_append (raise_spec ..).2.1 (List.forall_mem_singleton.2 nofun)
  · rfl

theorem deferredRaised_unclosed_runner (st : Step) (p : Part) :
    claimWaits .runner (deferredRaised st false p) = claimWaits .runner p := by
  unfold deferredRaised
  by_cases deferred : ∃ r, (unstepped st false p).retiringOf st.slot st.sequence = some r ∧ r.deferred = true
  · obtain ⟨r, hr, hd⟩ := deferred
    rw [raiseDeferred_raises hr hd, raiseObsolete_runner]
    rfl
  · rw [raiseDeferred_none (not_deferred deferred)]
    rfl

/-- R35: an end without a new copy raises no claim of the runner. -/
theorem endStep_unclosed_runner {st : Step} (hs : p.rcu.step = some st) :
    claimWaits .runner (endStep false p) = claimWaits .runner p := by
  obtain ⟨-, -, -, new, -⟩ := settled_kept st (deferredRaised st false p)
  obtain ⟨l, joined, purposes⟩ := new.claims
  rw [endStep_settles hs, claimWaits_of_append joined fun c hc => ?_, deferredRaised_unclosed_runner]
  obtain ⟨-, erase | ⟨i, mark⟩⟩ := purposes c hc
  · rw [erase]; exact nofun
  · rw [mark]; exact nofun

end Sys2Proof.Machine
end

section
/-! SUPPORT. An ABORT of an ACTIVE VERIFY, COMPACT or FORMAT (R119, R134, R157, R179). -/
namespace Sys2Proof.Machine

variable {p : Part} {e : Entry} {tag target : Byte} {a : Nat}

/-- R61: what the withdrawal of an owner's claim takes from the set. -/
theorem withdraw_eq (o : Owner) (p : Part) :
    withdraw o p = { p with pee := { p.pee with claims := p.pee.claims.filter (fun c => c.purpose.owner ≠ o) } } := by
  simp only [ne_eq, decide_not]
  rfl

/-! ### In the midst of a step the step goes on -/

theorem abortVerify_goesOn (granted : purposeWaits (.verifyStep a) p = false) : abortVerify a p = p := by
  unfold abortVerify
  split
  · exact if_neg (by rw [granted]; exact Bool.false_ne_true)
  · rfl

theorem abortCompact_goesOn {j : Job} (hj : p.rcu.job = some j) (own : stepServes j p = true)
    (granted : purposeWaits .runnerRead p = false) : abortCompact p = p := by
  unfold abortCompact
  rw [hj]
  dsimp only
  rw [if_pos own, if_neg (by rw [granted]; exact Bool.false_ne_true)]

theorem abortFormat_goesOn (runs : formatBatchRuns p = true) : abortFormat p = p := by
  unfold abortFormat
  split
  · exact if_pos runs
  · rfl

theorem formatBatchRuns_iff (p : Part) : formatBatchRuns p = true ↔ ∃ b, p.pee.batch = some b ∧ b.forFormat = true := by
  unfold formatBatchRuns
  cases p.pee.batch <;> simp

/-! ### At a boundary the target ends at once -/

theorem abortVerify_ends {r : Serving} (hr : p.servingOf a = some r) (waits : purposeWaits (.verifyStep a) p = true) :
    abortVerify a p = completeServing a .aborted r.notes (verifyPayload r r.checked) (withdraw (.serving a) p) := by
  unfold abortVerify
  rw [hr]
  exact if_pos waits

theorem abortCompact_ends {j : Job} (hj : p.rcu.job = some j) (own : stepServes j p = false) : abortCompact p = endJob .aborted p := by
  unfold abortCompact
  rw [hj]
  exact if_neg (by rw [own]; exact Bool.false_ne_true)

theorem abortCompact_endsStep {j : Job} (hj : p.rcu.job = some j) (own : stepServes j p = true)
    (waits : purposeWaits .runnerRead p = true) : abortCompact p = endJob .aborted (endStep false (withdraw .runner p)) := by
  unfold abortCompact
  rw [hj]
  exact (if_pos own).trans (if_pos waits)

theorem abortFormat_ends {f : FormatRun} (hf : p.scu.runner = some f) (idle : formatBatchRuns p = false) :
    abortFormat p = formatAbort f p := by
  unfold abortFormat
  rw [hf]
  exact if_neg (by rw [idle]; exact Bool.false_ne_true)

/-! ### The ABORT is recorded and held (R157) -/

/-- R157: an entry on which an ABORT waits. -/
def Entry.aborting (e : Entry) : Entry := { e with abortWaits := true }

theorem holdAbort_eq (tag : Byte) (a : Nat) (p : Part) : holdAbort tag a p =
    modQueue a Entry.aborting (if directInUse p < 6 then
      { p with link := { p.link with held := p.link.held ++ [{ tag := tag, target := a }] } } else overrunSet p) := rfl

/-- R157: the recording and the holding change the queue and the link alone. -/
theorem holdAbort_kept (tag : Byte) (a : Nat) (p : Part) : (holdAbort tag a p).sdr = p.sdr ∧ (holdAbort tag a p).pee = p.pee ∧
    (holdAbort tag a p).rcu = p.rcu ∧ (holdAbort tag a p).scu = p.scu := by
  rw [holdAbort_eq]
  split
  · exact ⟨rfl, rfl, rfl, rfl⟩
  · exact ⟨rfl, rfl, rfl, rfl⟩

theorem queueEntry_holdAbort (entry : p.queueEntry a = some e) (tag : Byte) :
    (holdAbort tag a p).queueEntry a = some e.aborting := by
  rw [holdAbort_eq]
  refine queueEntry_modQueue (fun _ => rfl) ?_
  split
  · exact entry
  · exact entry

/-- R148: the reply of an entry does not tell whether an ABORT waited on it. -/
theorem endedPart_aborting (e : Entry) (st : Status) (n : Byte) (pl : List Byte) (p : Part) :
    endedPart e.aborting st n pl p = endedPart e st n pl p := rfl

/-- The reply of an entry is added to the link that stands. -/
theorem endedPart_link {q : Part} (link : q.link = p.link) (e : Entry) (st : Status) (n : Byte) (pl : List Byte) :
    (endedPart e st n pl q).link = (endedPart e st n pl p).link := by
  unfold endedPart
  dsimp only
  rw [link]

theorem endedPart_rqs {q : Part} (rqs : q.rqs = p.rqs) (e : Entry) (st : Status) (n : Byte) (pl : List Byte) :
    (endedPart e st n pl q).rqs = (endedPart e st n pl p).rqs := by
  unfold endedPart
  dsimp only
  rw [rqs]

/-- R157: an ABORT of an ACTIVE entry. -/
theorem exec_abort_active {s : State} (listens : s.part.listens)
    (found : s.part.rqs.queue.find? (fun e => e.tag = target) = some e) (active : e.active = true) (level : Byte) :
    exec (.abort tag level target) s = .next { s with part := closeEvent (abortActive tag e (s.part.pushed 8)) } := by
  rw [← takeAbort_active tag (p := s.part.pushed 8) found active]
  exact request_listens listens 8 _

theorem abortActive_verify {s : Nat} (request : e.request = .verify s) (tag : Byte) (p : Part) :
    abortActive tag e p = abortVerify e.age (holdAbort tag e.age p) := by
  unfold abortActive
  rw [request]

theorem abortActive_compact {z n : Nat} (request : e.request = .compact z n) (tag : Byte) (p : Part) :
    abortActive tag e p = abortCompact (holdAbort tag e.age p) := by
  unfold abortActive
  rw [request]

theorem abortActive_format {n : Nat} {pl : List (Nat × Nat)} (request : e.request = .format n pl) (tag : Byte) (p : Part) :
    abortActive tag e p = abortFormat (holdAbort tag e.age p) := by
  unfold abortActive
  rw [request]

/-! ### The ends of the three (R119, R134, R179) -/

section
variable (entry : p.queueEntry e.age = some e) (tag : Byte)
include entry

/-- R119: a VERIFY whose step waits ends with its record and its claim gone. -/
theorem verify_aborted {r : Serving} (hr : p.servingOf e.age = some r) (waits : purposeWaits (.verifyStep e.age) p = true) :
    abortVerify e.age (holdAbort tag e.age p) = endedPart e .aborted r.notes (verifyPayload r r.checked)
      (withdraw (.serving e.age) (dropServing e.age (holdAbort tag e.age p))) := by
  obtain ⟨sdr, pee, -, -⟩ := holdAbort_kept tag e.age p
  have record : (holdAbort tag e.age p).servingOf e.age = some r := by unfold Part.servingOf; rw [sdr]; exact hr
  have waits' : purposeWaits (.verifyStep e.age) (holdAbort tag e.age p) = true := by unfold purposeWaits; rw [pee]; exact waits
  have entry' : (withdraw (.serving e.age) (holdAbort tag e.age p)).queueEntry e.age = some e.aborting := queueEntry_holdAbort entry tag
  rw [abortVerify_ends record waits', completeServing_eq entry', endedPart_aborting]
  rfl

/-- R134: a COMPACT that has no step of its own ends at once. -/
theorem compact_aborted {j : Job} (hj : p.rcu.job = some j) (age : j.age = e.age)
    (idle : ∀ st, p.rcu.step = some st → st.job ≠ some j.age) :
    abortCompact (holdAbort tag e.age p) = endedPart e .aborted j.notes (be 1 j.zone ++ be 1 j.emptied)
      { holdAbort tag e.age p with rcu := { (holdAbort tag e.age p).rcu with job := none } } := by
  obtain ⟨-, -, rcu, -⟩ := holdAbort_kept tag e.age p
  have job : (holdAbort tag e.age p).rcu.job = some j := by rw [rcu]; exact hj
  have own : stepServes j (holdAbort tag e.age p) = false := by
    rw [← Bool.not_eq_true, stepServes_iff, rcu]
    rintro ⟨st, hst, serves⟩
    exact idle st hst serves
  have entry' : (holdAbort tag e.age p).queueEntry j.age = some e.aborting := by rw [age]; exact queueEntry_holdAbort entry tag
  rw [abortCompact_ends job own, endJob_eq job entry', endedPart_aborting]

/-- R134, R157: a COMPACT whose own step waits for its READ ends with that step. -/
theorem compact_step_aborted {j : Job} {st : Step} (hj : p.rcu.job = some j) (age : j.age = e.age) (hst : p.rcu.step = some st)
    (serves : st.job = some j.age) (waits : purposeWaits .runnerRead p = true) :
    ∃ q, abortCompact (holdAbort tag e.age p) = q ∧ q.rcu.job = none ∧ q.rcu.step = none ∧ claimWaits .runner q = false ∧
      q.rqs = (endedPart e .aborted j.notes (be 1 j.zone ++ be 1 j.emptied) (holdAbort tag e.age p)).rqs ∧
      q.link = (endedPart e .aborted j.notes (be 1 j.zone ++ be 1 j.emptied) (holdAbort tag e.age p)).link ∧
      q.sdr.directory = p.sdr.directory.map (fun d => if d.slot = st.slot then { d with relocating := false } else d) := by
  obtain ⟨sdr, pee, rcu, -⟩ := holdAbort_kept tag e.age p
  have entry' := queueEntry_holdAbort entry tag
  have waits' : purposeWaits .runnerRead (holdAbort tag e.age p) = true := by unfold purposeWaits; rw [pee]; exact waits
  generalize holdAbort tag e.age p = m at sdr rcu entry' waits'
  have job : m.rcu.job = some j := by rw [rcu]; exact hj
  have step : (withdraw .runner m).rcu.step = some st := (congrArg Rcu.step rcu).trans hst
  have own : stepServes j m = true := (stepServes_iff j m).2 ⟨st, step, serves⟩
  obtain ⟨rqs, -, -, directory, -⟩ := endStep_unclosed step
  obtain ⟨stepless, job', -⟩ := endStep_runner step false
  have link := endStep_unclosed_link step
  have idle := (endStep_unclosed_runner step).trans (claimWaits_withdraw .runner m)
  rw [abortCompact_endsStep job own waits']
  generalize endStep false (withdraw .runner m) = z at rqs directory stepless job' link idle
  have still : z.queueEntry j.age = some e.aborting := by rw [age, queueEntry_of_rqs rqs]; exact entry'
  rw [endJob_eq (job'.trans job) still, endedPart_aborting]
  refine ⟨_, rfl, rfl, stepless, idle, endedPart_rqs rqs e .aborted j.notes (be 1 j.zone ++ be 1 j.emptied), endedPart_link link .., ?_⟩
  rw [← sdr]
  exact directory

/-- R179: a FORMAT with no batch granted ends, and the store is BLANK. -/
theorem format_aborted {f : FormatRun} (hf : p.scu.runner = some f) (age : f.age = e.age) (idle : formatBatchRuns p = false) :
    abortFormat (holdAbort tag e.age p) =
      endedPart e .aborted f.notes (be 2 p.scu.format) (formatStop (holdAbort tag e.age p)) := by
  obtain ⟨-, pee, -, scu⟩ := holdAbort_kept tag e.age p
  have runner : (holdAbort tag e.age p).scu.runner = some f := by rw [scu]; exact hf
  have idle' : formatBatchRuns (holdAbort tag e.age p) = false := by unfold formatBatchRuns; rw [pee]; exact idle
  have entry' : (holdAbort tag e.age p).queueEntry f.age = some e.aborting := by rw [age]; exact queueEntry_holdAbort entry tag
  rw [abortFormat_ends runner idle', formatAbort_eq entry', endedPart_aborting, scu]

end

/-- R157: the recording and the holding, in one form. -/
theorem holdAbort_taken (tag : Byte) (a : Nat) (p : Part) : holdAbort tag a p =
    if directInUse p < 6 then
      { p with
        rqs := { p.rqs with queue := p.rqs.queue.map (fun d => if d.age = a then { d with abortWaits := true } else d) }
        link := { p.link with held := p.link.held ++ [{ tag := tag, target := a }] } }
    else
      { overrunSet p with
        rqs := { p.rqs with queue := p.rqs.queue.map (fun d => if d.age = a then { d with abortWaits := true } else d) } } := by
  rw [holdAbort_eq]
  split
  · rfl
  · rfl

/-- Settles O26: what an ABORT finds decides whether its target goes on or ends. -/
theorem abortOfLongRequests : Obligations.AbortOfLongRequests := by
  intro tag level target s e listens found active p recorded holding taken goesOn without
  have held : taken = holdAbort tag e.age p := (holdAbort_taken tag e.age p).symm
  obtain ⟨-, pee, rcu, -⟩ := holdAbort_kept tag e.age p
  have aborts {q : Part} (h : abortActive tag e p = q) : goesOn q := by
    rw [← h]
    exact exec_abort_active listens found active level
  have withdrawn (o : Owner) (q : Part) : without o q = withdraw o q := (withdraw_eq o q).symm
  clear_value taken goesOn without
  subst held
  refine ⟨?_, fun nodup => ?_⟩
  · rintro (⟨⟨a, request⟩, granted⟩ | ⟨⟨a, b, request⟩, granted, j, st, hj, hst, serves⟩ | ⟨⟨a, b, request⟩, batch⟩)
    · refine aborts ((abortActive_verify request tag p).trans (abortVerify_goesOn ?_))
      unfold purposeWaits
      rw [pee]
      exact granted
    · refine aborts ((abortActive_compact request tag p).trans (abortCompact_goesOn (j := j) ?_ ?_ ?_))
      · rw [rcu]
        exact hj
      · rw [stepServes_iff, rcu]
        exact ⟨st, hst, serves⟩
      · unfold purposeWaits
        rw [pee]
        exact granted
    · refine aborts ((abortActive_format request tag p).trans (abortFormat_goesOn ?_))
      rw [formatBatchRuns_iff, pee]
      exact batch
  · have entry : p.queueEntry e.age = some e := queueEntry_of_mem (p := p) nodup (List.mem_of_find?_eq_some found)
    refine ⟨fun a r request hr waits => ?_, fun a b j request hj age => ⟨fun idle => ?_, fun st hst serves waits => ?_⟩,
      fun a b f request hf age idle => ?_⟩
    · rw [withdrawn]
      exact aborts ((abortActive_verify request tag p).trans (verify_aborted entry tag hr waits))
    · exact aborts ((abortActive_compact request tag p).trans (compact_aborted entry tag hj age idle))
    · obtain ⟨q, ends, rest⟩ := compact_step_aborted entry tag hj age hst serves waits
      exact ⟨q, aborts ((abortActive_compact request tag p).trans ends), rest⟩
    · have none_ : formatBatchRuns p = false := by
        rw [← Bool.not_eq_true, formatBatchRuns_iff]
        rintro ⟨b, batch, forFormat⟩
        rw [idle b batch] at forFormat
        cases forFormat
      rw [withdrawn]
      exact aborts ((abortActive_format request tag p).trans (format_aborted entry tag hf age none_))

end Sys2Proof.Machine
end

section
/-! SUPPORT. The frame of a request and its checks, in their order, and the answer to a bad frame (R161, R162). -/
namespace Sys2Proof.Machine

variable {f body : List Byte}

/-! ### A frame and its body -/

/-- R162: a well-formed request is read back from its body, of a length that its kind allows. -/
theorem requestBody_decodes (i : Instr) : Laws.Frames.Statement i := by
  cases i with
  | notice => exact Laws.Frames.notice _ _ _ _
  | data => exact Laws.Frames.data _ _ _ _ _
  | write => exact Laws.Frames.write _ _ _ _ _ _
  | read => exact Laws.Frames.read _ _ _ _ _
  | list => exact Laws.Frames.list _ _ _ _
  | delete => exact Laws.Frames.delete _ _ _
  | verify => exact Laws.Frames.verify _ _ _
  | format => exact Laws.Frames.format _ _ _ _
  | ident => exact Laws.Frames.ident _ _
  | status => exact Laws.Frames.status _ _
  | clear => exact Laws.Frames.clear _ _ _
  | tune => exact Laws.Frames.tune _ _ _ _
  | abort => exact Laws.Frames.abort _ _ _
  | abandon => exact Laws.Frames.abandon _ _ _
  | restart => exact Laws.Frames.restart _ _
  | compact => exact Laws.Frames.compact _ _ _ _
  | _ => nofun

/-- Section 10.2: the frame of a body. -/
def framed (body : List Byte) : List Byte := be 2 body.length ++ body ++ crc16Bytes (be 2 body.length ++ body)

theorem requestFrame_eq_some_iff (i : Instr) (f : List Byte) :
    requestFrame i = some f ↔ ∃ body, requestBody i = some body ∧ framed body = f := by
  unfold requestFrame framed
  cases requestBody i <;> simp

theorem framed_length (body : List Byte) : (framed body).length = body.length + 4 := by
  simp only [framed, List.length_append, be_length, crc16Bytes_length]
  omega

theorem framed_crc (body : List Byte) : (framed body).drop ((framed body).length - 2) =
    crc16Bytes ((framed body).take ((framed body).length - 2)) := by
  obtain ⟨last, first⟩ := crc16Bytes_last (f := framed body) rfl
  rw [last, first]

theorem frameBody_framed (body : List Byte) : frameBody (framed body) = body := by
  rw [frameBody, framed_length, Nat.add_sub_cancel]
  exact slice_append (be 2 body.length) body _

theorem field_framed (short : body.length < 65536) : field (framed body) 0 2 = body.length := by
  refine field_of_slice_be ?_ short
  rw [framed, List.append_assoc]
  exact List.take_left (l₁ := be 2 body.length)

/-! ### The body length of a kind (R162) -/

theorem bodyLengthAllowed_bounds {k n : Nat} (allowed : bodyLengthAllowed k n = some true) : 3 ≤ n ∧ n ≤ 263 := by
  unfold bodyLengthAllowed at allowed
  split at allowed
  all_goals simp only [Option.some.injEq, decide_eq_true_eq, Bool.and_eq_true, reduceCtorEq] at allowed
  all_goals omega

theorem bodyLengthAllowed_eq_none_iff (k n : Nat) : bodyLengthAllowed k n = none ↔
    k ∉ [0x01, 0x02, 0x03, 0x04, 0x05, 0x06, 0x07, 0x08, 0x10, 0x20, 0x21, 0x22, 0x23, 0x24, 0x25, 0x26] := by
  unfold bodyLengthAllowed
  split <;> simp_all

/-! ### The checks of a frame, in their order (R161) -/

/-- R161, R162: what the last two checks make of the body length that a kind allows. -/
def kindVerdict : Option Bool → FrameCheck
  | some true => .passed
  | some false => .refused .badLength
  | none => .refused .unknownKind

theorem checkFrame_short (short : f.length < 4) : checkFrame f = .ignored := if_pos short

theorem checkFrame_badCrc (four : 4 ≤ f.length) (crc : ¬ f.drop (f.length - 2) = crc16Bytes (f.take (f.length - 2))) :
    checkFrame f = .refused .badCrc := (if_neg (Nat.not_lt.2 four)).trans (if_pos crc)

section
variable (four : 4 ≤ f.length) (crc : f.drop (f.length - 2) = crc16Bytes (f.take (f.length - 2)))
include four crc

theorem checkFrame_badField (length : ¬ field f 0 2 = f.length - 4) : checkFrame f = .refused .badLength :=
  (if_neg (Nat.not_lt.2 four)).trans ((if_neg (not_not.2 crc)).trans (if_pos length))

variable (length : field f 0 2 = f.length - 4)
include length

theorem checkFrame_empty (empty : f.length = 4) : checkFrame f = .refused .unknownKind :=
  (if_neg (Nat.not_lt.2 four)).trans ((if_neg (not_not.2 crc)).trans ((if_neg (not_not.2 length)).trans (if_pos empty)))

theorem checkFrame_kind (nonempty : ¬ f.length = 4) :
    checkFrame f = kindVerdict (bodyLengthAllowed (frameKind f).toNat (f.length - 4)) := by
  refine (if_neg (Nat.not_lt.2 four)).trans ((if_neg (not_not.2 crc)).trans ((if_neg (not_not.2 length)).trans
    ((if_neg nonempty).trans ?_)))
  rfl

end

/-- Settles O13: the frame of a body passes the checks, and the body is cut out of it again. -/
theorem requestFramesDecode : Obligations.RequestFramesDecode := by
  intro i f wf frame
  obtain ⟨body, hbody, rfl⟩ := (requestFrame_eq_some_iff i f).1 frame
  obtain ⟨decodes, allowed⟩ := requestBody_decodes i wf body hbody
  obtain ⟨three, most⟩ := bodyLengthAllowed_bounds allowed
  have size := framed_length body
  have passed : checkFrame (framed body) = .passed := by
    rw [checkFrame_kind (by omega) (framed_crc body) (by rw [field_framed (by omega)]; omega) (by omega), size, Nat.add_sub_cancel,
      frameKind, frameBody_framed, allowed, kindVerdict]
  refine ⟨passed, ?_⟩
  rw [decodeFrame, passed, frameBody_framed]
  exact decodes

/-! ### The answer to a bad frame (R161) -/

/-- R161: a byte of a frame's body that a refusal echoes, 0 where the body holds none (log 23). -/
theorem byteAt_frameBody (f : List Byte) (k : Nat) :
    byteAt (frameBody f) k = if 5 + k ≤ f.length then byteAt f (2 + k) else 0 := by
  unfold frameBody
  split
  · exact byteAt_slice _ _ _ _ (by omega)
  · refine List.getD_eq_default _ _ ?_
    rw [slice, List.length_take]
    omega

theorem takeFrame_ignored (ignored : checkFrame f = .ignored) (p : Part) : takeFrame f p = p := by
  simp only [takeFrame, ignored]

theorem takeFrame_refused {st : Status} (refused : checkFrame f = .refused st) (p : Part) : takeFrame f p = placeDirect
    (if 5 ≤ f.length then byteAt f 2 else 0) (if 6 ≤ f.length then byteAt f 3 else 0) st [] p := by
  simp only [takeFrame, refused, frameKind, frameTag, byteAt_frameBody, Nat.reduceAdd]

/-- Settles O17: each clause is the first of the checks that fails, and the rest is the table of the sixteen kinds. -/
theorem badFramesAreRefused : Obligations.BadFramesAreRefused := by
  intro f s listens n kind tag crcOk lengthOk
  have answered {st : Status} (refused : checkFrame f = .refused st) : Answers (.badFrame f) s kind tag st [] (s.part.pushed n) :=
    request_answers rfl listens (takeFrame_refused refused _)
  have kindIs : frameKind f = kind := byteAt_frameBody f 0
  refine ⟨fun short => ?_, fun four crc => answered (checkFrame_badCrc four crc),
    fun four crc length => answered (checkFrame_badField four crc length), fun five crc length bad => answered ?_,
    fun four crc length unknown => answered ?_, ?_, ?_, ?_, ?_, ?_, fun k m => bodyLengthAllowed_eq_none_iff k m⟩
  · rw [← takeFrame_ignored (checkFrame_short short) (s.part.pushed n)]
    exact request_listens listens n _
  · rw [checkFrame_kind (Nat.le_of_succ_le five) crc length (Nat.ne_of_gt five), kindIs, bad, kindVerdict]
  · by_cases empty : f.length = 4
    · exact checkFrame_empty four crc length empty
    · rw [checkFrame_kind four crc length empty, kindIs, unknown.resolve_left empty, kindVerdict]
  all_goals simp [bodyLengthAllowed]

end Sys2Proof.Machine
end

section
/-! SUPPORT. What a transaction and ATTN show of the part: the status byte and the notices (R159, R160, R163, R168). -/
namespace Sys2Proof.Machine

/-! ### Notices and ATTN (R168) -/

/-- R168: a notice is pending for a condition that is set, is enabled and has a level above the floor. -/
theorem noticePending_iff (p : Part) :
    noticePending p = true ↔ ∃ r ∈ p.link.conds, r.set = true ∧ r.enable = true ∧ p.link.floor < r.level := by
  simp only [noticePending, List.any_eq_true, Bool.and_eq_true, decide_eq_true_eq, and_assoc]

theorem attn_iff (p : Part) : attn p = true ↔ p.run = .running ∧ (p.link.replies ≠ [] ∨ noticePending p = true) := by
  rw [attn, Bool.and_eq_true, Bool.or_eq_true, decide_eq_true_eq, Bool.not_eq_true',
    List.isEmpty_eq_false_iff]

/-- Settles O19. -/
theorem attnFollowsRepliesAndConditions : Obligations.AttnFollowsRepliesAndConditions := by
  intro p
  refine ⟨by rw [attn_iff, noticePending_iff], fun off asserted => ?_, fun levels floor asserted => ?_⟩
  all_goals
    obtain ⟨-, reply | notice⟩ := (attn_iff p).1 asserted
    · exact reply
    obtain ⟨r, hr, -, enabled, above⟩ := (noticePending_iff p).1 notice
  · rw [off r hr] at enabled
    cases enabled
  · have := levels r hr
    omega

/-! ### The status byte (R160) -/

theorem WriteCtx.credit_lt (k : WriteCtx) : k.credit < 3 := by
  unfold WriteCtx.credit
  split <;> split <;> decide

/-- R160: the status byte of its six figures. -/
def linkStatus (replies notice mounted maint : Bool) (a b : Nat) : Byte :=
  (if replies then 0x01 else 0) ||| (if notice then 0x02 else 0) ||| (if mounted then 0x04 else 0) |||
    (BitVec.ofNat 8 a <<< 3) ||| (BitVec.ofNat 8 b <<< 5) ||| (if maint then 0x80 else 0)

theorem statusByte_eq (p : Part) : statusByte p =
    linkStatus (!p.link.replies.isEmpty) (noticePending p) (decide (p.scu.store = .mounted)) p.mli.level
      p.wcu.c0.credit p.wcu.c1.credit := by
  unfold statusByte linkStatus
  simp only [Bool.not_eq_true', decide_eq_true_eq]
  cases p.link.replies.isEmpty <;> rfl

/-- R160: each figure stands at its bits; a context has at most two credits. -/
theorem linkStatus_figures : ∀ (replies notice mounted maint : Bool), ∀ a < 3, ∀ b < 3,
    let v := linkStatus replies notice mounted maint a b
    v.getLsbD 0 = replies ∧ v.getLsbD 1 = notice ∧ v.getLsbD 2 = mounted ∧ v.toNat / 8 % 4 = a ∧ v.toNat / 32 % 4 = b ∧
      v.getLsbD 7 = maint := by decide

/-! ### TRANSACTION_START (R159, R163) -/

/-- Settles O15: what is sampled is the status byte, figure by figure. -/
theorem transactionStartSamplesStatus : Obligations.TransactionStartSamplesStatus := by
  intro s
  have start (t : Transaction) (h : (if s.part.run = .running then beginTransaction s.part else .lost) = t) :
      exec .transactionStart s = .next { s with part := { s.part with link := { s.part.link with transaction := t } } } := by
    rw [← h]
    rfl
  refine ⟨fun hrun => ⟨statusByte s.part, start _ (if_pos hrun), ?_⟩, fun stopped => start _ (if_neg stopped)⟩
  obtain ⟨replies, notice, mounted, c0, c1, maint⟩ := linkStatus_figures (!s.part.link.replies.isEmpty) (noticePending s.part)
    (decide (s.part.scu.store = .mounted)) s.part.mli.level _ s.part.wcu.c0.credit_lt _ s.part.wcu.c1.credit_lt
  rw [statusByte_eq]
  refine ⟨?_, ?_, ?_, c0, c1, ?_⟩
  · rw [replies, Bool.not_eq_true', List.isEmpty_eq_false_iff]
  · rw [notice, noticePending_iff]
  · rw [mounted, decide_eq_true_eq]
  · rw [maint]

/-- Settles O16: a push that brings nothing to act on. -/
theorem ignoredTransactionTakesNothing : Obligations.IgnoredTransactionTakesNothing :=
  fun n _ listens => request_listens listens n id

end Sys2Proof.Machine
end

section
/-! SUPPORT. NOTICE and CLEAR: the rows of the condition table (R162, R166, R167). -/
namespace Sys2Proof.Machine

/-! ### NOTICE -/

/-- R162: the ranges of a NOTICE, in the words of the statements. -/
theorem noticeValid_iff (settings : List (Byte × Byte)) (floor : Byte) : noticeValid settings floor = true ↔
    (∀ x ∈ settings, (x.1 = 0 ∨ x.1 = 1) ∧ x.2.toNat ≤ 7) ∧ floor.toNat ≤ 7 := by
  have flag (b : Byte) : b.toNat ≤ 1 ↔ b = 0 ∨ b = 1 := by
    rw [Nat.le_one_iff_eq_zero_or_eq_one, ← BitVec.toNat_inj, ← BitVec.toNat_inj]
    rfl
  simp only [noticeValid, Bool.and_eq_true, List.all_eq_true, decide_eq_true_eq, flag]

/-- R167: with a setting for every row, every row is replaced but for its set flag. -/
theorem setRows_eq_zipWith {rows : List CondRow} {settings : List (Byte × Byte)} (len : rows.length = settings.length) :
    setRows rows settings = List.zipWith
      (fun r (x : Byte × Byte) => { set := r.set, enable := decide (x.1 = 0x01#8), level := x.2.toNat }) rows settings := by
  induction rows generalizing settings with
  | nil => cases settings <;> rfl
  | cons r rows ih =>
    cases settings with
    | nil => cases len
    | cons x settings =>
      rw [setRows, ih (Nat.succ.inj len)]
      rfl

section
variable {settings : List (Byte × Byte)} (eight : settings.length = 8) (tag floor : Byte) (p : Part)
include eight

theorem takeNotice_valid (valid : noticeValid settings floor = true) : takeNotice tag settings floor p =
    placeDirect 0x03 tag .ok [] { p with link := { p.link with conds := setRows p.link.conds settings, floor := floor.toNat } } :=
  (if_neg (not_not.2 eight)).trans (if_pos valid)

theorem takeNotice_outOfRange (invalid : ¬ noticeValid settings floor = true) :
    takeNotice tag settings floor p = placeDirect 0x03 tag .badField [] p :=
  (if_neg (not_not.2 eight)).trans (if_neg invalid)

end

/-- Settles O21: the ranges are checked before anything is replaced. -/
theorem noticeReplacesSettings : Obligations.NoticeReplacesSettings := by
  intro tag level floor settings s listens eight rows valid p
  have meaning : exec (.notice tag level settings floor) s = request 24 (takeNotice tag settings floor) s := by
    show request (8 + 2 * settings.length) _ s = _
    rw [eight]
  have range := noticeValid_iff settings floor
  refine ⟨fun inRange => request_answers meaning listens ?_, fun outOfRange => request_answers meaning listens ?_⟩
  · rw [← setRows_eq_zipWith (rows := p.link.conds) (rows.trans eight.symm)]
    exact takeNotice_valid eight tag floor p (range.2 inRange)
  · exact takeNotice_outOfRange eight tag floor p (mt range.1 outOfRange)

/-! ### CLEAR -/

theorem clearConds_eq_mapIdx (conditions : Byte) (rows : List CondRow) : clearConds conditions rows =
    rows.mapIdx (fun k r => if conditions.getLsbD k then { r with set := false } else r) := by
  rw [List.mapIdx_eq_zipIdx_map]
  rfl

/-- Settles O22: the reply is placed, or dropped with OVERRUN set, on the table already cleared. -/
theorem clearClearsItsSet : Obligations.ClearClearsItsSet := by
  intro tag level conditions s listens p
  refine request_answers rfl listens ?_
  rw [takeClear, clearConds_eq_mapIdx]

end Sys2Proof.Machine
end

section
/-! SUPPORT. Events that find nothing to take: transactions that the part does not listen to, and ends of what is not in
progress (R159; logs 5, 12). -/
namespace Sys2Proof.Machine

variable {s : State}

/-! ### Transactions that are not taken (R159, log 12) -/

section
variable (away : ¬ s.part.listens)
include away

theorem request_lost (n : Nat) (act : Part → Part) : request n act s = .next { s with part := endTransaction [] s.part } := by
  rw [request, push_lost away]

theorem endFetch_lost (n : Nat) : endFetch n s.part = endTransaction [] s.part := by
  unfold endFetch
  split
  · rename_i hrun
    have lost : s.part.link.transaction = .lost := by
      by_contra other
      exact away ⟨hrun, other⟩
    simp only [currentTransaction, lost]
  · rfl

end

/-! ### Ends of what is not in progress (log 5) -/

theorem runningOp_none (none_ : s.part.pee.op = none) : runningOp s = none := by
  rw [runningOp, none_, ite_self]

theorem runningHeader_noBatch (none_ : s.part.pee.batch = none) : runningHeader s = none :=
  runningHeader_none fun b batch => by rw [none_] at batch; cases batch

theorem eraseRuns_idle (idle : s.part.pee.state = .idle) : eraseRuns s = false := by
  rw [eraseRuns, idle]
  exact Bool.and_false _

/-- Log 5: with no operation running, the ends of a READ, a PROGRAM and a MARK change nothing. -/
theorem opEnds_idle (none_ : s.part.pee.op = none) (stuck : List Byte) : exec .readComplete s = .next s ∧
    exec (.programComplete stuck) s = .next s ∧ exec (.markComplete stuck) s = .next s := by
  have idle := runningOp_none none_
  refine ⟨?_, ?_, ?_⟩
  · show execReadComplete s = _
    simp only [execReadComplete, idle]
  · show execProgramComplete stuck s = _
    simp only [execProgramComplete, idle]
  · show execMarkComplete stuck s = _
    simp only [execMarkComplete, idle]

theorem headerWriteComplete_noBatch (none_ : s.part.pee.batch = none) (stuck : List Byte) :
    exec (.headerWriteComplete stuck) s = .next s := by
  show execHeaderWriteComplete stuck s = _
  simp only [execHeaderWriteComplete, runningHeader_noBatch none_]

theorem operationTimeout_idle (op : s.part.pee.op = none) (batch : s.part.pee.batch = none) (stuck : List Byte) :
    exec (.operationTimeout stuck) s = .next s := by
  show execOperationTimeout stuck s = _
  simp only [execOperationTimeout, runningHeader_noBatch batch, runningOp_none op]

/-- Log 5: with the engine IDLE, no suspension and no erase phase ends. -/
theorem eraseEnds_idle (idle : s.part.pee.state = .idle) (residue : List (Nat × Byte)) : exec .suspendComplete s = .next s ∧
    exec (.erasePhaseEnd residue) s = .next s ∧ exec (.batchTimeout residue) s = .next s := by
  have rests : ¬ eraseRuns s = true := by rw [eraseRuns_idle idle]; exact Bool.false_ne_true
  refine ⟨if_neg ?_, if_neg rests, if_neg rests⟩
  rintro ⟨-, suspending⟩
  rw [idle] at suspending
  cases suspending

theorem gatheringWindowExpiry_none (none_ : s.part.rcu.openBatch = none) : exec .gatheringWindowExpiry s = .next s := by
  show execGatheringWindowExpiry s = _
  rw [execGatheringWindowExpiry, none_]
  cases s.part.run <;> rfl

theorem debounceExpiry_none (none_ : s.part.mli.timer = none) : exec .debounceExpiry s = .next s := by
  show execDebounceExpiry s = _
  rw [execDebounceExpiry, none_]
  cases s.part.run <;> rfl

/-- Settles O59. -/
theorem nothingToTakeChangesNothing : Obligations.NothingToTakeChangesNothing := by
  intro s tag level a b c n f ss w x es residue
  refine ⟨fun away i mem => ?_, fun none_ => opEnds_idle none_ f, fun none_ => headerWriteComplete_noBatch none_ f,
    fun op batch => operationTimeout_idle op batch f, fun idle => eraseEnds_idle idle residue, gatheringWindowExpiry_none,
    debounceExpiry_none, if_pos rfl⟩
  have ends : exec i s = .next { s with part := endTransaction [] s.part } := by
    simp only [List.mem_cons, List.not_mem_nil, or_false] at mem
    rcases mem with rfl | rfl | rfl | mem
    · exact request_lost away n id
    · exact request_lost away f.length _
    · show Host.Outcome.next { s with part := endFetch n s.part } = _
      rw [endFetch_lost away]
    · rcases mem with rfl | rfl | rfl | rfl | rfl | rfl | rfl | rfl | rfl | rfl | rfl | rfl | rfl | rfl | rfl | rfl
      all_goals exact request_lost away _ _
  exact ⟨_, ends, rfl, rfl, rfl⟩

end Sys2Proof.Machine
end

section
/-! SUPPORT. A step: the command at the front of the queue (log 1), and the canonical form of the array that every step keeps
(R1 to R4, R65, R68 to R70). -/
namespace Sys2Proof.Machine

/-! ### The queue (log 1) -/

/-- Settles O1. -/
theorem stepRunsFrontCommand : Obligations.StepRunsFrontCommand := by
  intro c cs s front
  simp only [step, front]

/-! ### The canonical form of the array -/

/-- An event's next state, where it has one, holds the array in canonical form. -/
def CanonicalOut (o : Out) : Prop := ∀ t, o = .next t → Memory.wf t.array = true

theorem CanonicalOut.next {t : State} (wf : Memory.wf t.array = true) : CanonicalOut (.next t) := by
  rintro _ ⟨⟩
  exact wf

theorem CanonicalOut.fault (f : Fault) : CanonicalOut (.fault f) := fun _ h => nomatch h

/-- A command that is no operation on the array leaves it as it is. -/
theorem CanonicalOut.of_untouched {c : Instr} {s : State} (wf : Memory.wf s.array = true) (keeps : touchesArray c = false) :
    CanonicalOut (exec c s) := by
  intro t h
  rwa [onlyWorkChangesArray c s t keeps h]

section Events
variable {s : State} (wf : Memory.wf s.array = true)
include wf

theorem finishWrite_canonical (u : Purpose) (i o : Nat) (bs stuck : List Byte) (r : Result) :
    CanonicalOut (finishWrite u i o bs stuck r s) := by
  unfold finishWrite
  split
  · exact .next (programArray_wf wf ..)
  · exact .fault _

theorem finishHeader_canonical (b : BatchSector) (stuck : List Byte) (ok : Bool) : CanonicalOut (finishHeader b stuck ok s) := by
  unfold finishHeader
  dsimp only
  split
  · exact .next (programArray_wf wf ..)
  · exact .fault _

theorem execProgramComplete_canonical (stuck : List Byte) : CanonicalOut (execProgramComplete stuck s) := by
  unfold execProgramComplete
  split
  · exact finishWrite_canonical wf _ _ _ _ _ _
  · exact .next wf

theorem execMarkComplete_canonical (stuck : List Byte) : CanonicalOut (execMarkComplete stuck s) := by
  unfold execMarkComplete
  split
  · exact finishWrite_canonical wf _ _ _ _ _ _
  · exact .next wf

theorem execHeaderWriteComplete_canonical (stuck : List Byte) : CanonicalOut (execHeaderWriteComplete stuck s) := by
  unfold execHeaderWriteComplete
  split
  · exact finishHeader_canonical wf _ _ _
  · exact .next wf

/-- R66, R69: a timeout ends a header write, a PROGRAM or a MARK, or finds none of them. -/
theorem execOperationTimeout_canonical (stuck : List Byte) : CanonicalOut (execOperationTimeout stuck s) := by
  unfold execOperationTimeout
  split
  · exact finishHeader_canonical wf _ _ _
  · split
    · exact finishWrite_canonical wf _ _ _ _ _ _
    · exact finishWrite_canonical wf _ _ _ _ _ _
    · exact .next wf

theorem execErasePhaseEnd_canonical (residue : List (Nat × Byte)) : CanonicalOut (execErasePhaseEnd residue s) := by
  unfold execErasePhaseEnd
  split
  · exact .next (eraseSectors_wf wf ..)
  · exact .next wf

theorem execBatchTimeout_canonical (residue : List (Nat × Byte)) : CanonicalOut (execBatchTimeout residue s) := by
  unfold execBatchTimeout
  split
  · exact .next (eraseSectors_wf wf ..)
  · exact .next wf

/-- R4: a part that stops leaves the array torn where it ran, and as it was where it did not. -/
theorem stopArray_wf (stuck : List Byte) (residue : List (Nat × Byte)) : Memory.wf (stopArray stuck residue s) = true := by
  unfold stopArray
  split
  · exact tornArray_wf wf ..
  · exact wf

theorem execResetAsserted_canonical (stuck : List Byte) (residue : List (Nat × Byte)) :
    CanonicalOut (execResetAsserted stuck residue s) := by
  unfold execResetAsserted
  split
  · exact .next (stopArray_wf wf ..)
  · exact .next wf

/-- Whatever the command, it keeps the canonical form. -/
theorem exec_canonical (c : Instr) : CanonicalOut (exec c s) := by
  cases c
  case programComplete => exact execProgramComplete_canonical wf _
  case markComplete => exact execMarkComplete_canonical wf _
  case operationTimeout => exact execOperationTimeout_canonical wf _
  case erasePhaseEnd => exact execErasePhaseEnd_canonical wf _
  case batchTimeout => exact execBatchTimeout_canonical wf _
  case headerWriteComplete => exact execHeaderWriteComplete_canonical wf _
  case resetAsserted => exact execResetAsserted_canonical wf _ _
  case coldStart | lossOfPower => exact .next (stopArray_wf wf ..)
  all_goals exact .of_untouched wf rfl

end Events

/-- Settles O5: an idle microsecond leaves the array, and the command at the front of the queue keeps its canonical form. -/
theorem stepKeepsArrayCanonical : Obligations.StepKeepsArrayCanonical := by
  intro s t wf h
  cases queue : s.pending with
  | nil =>
    rw [step_idle queue] at h
    cases h
    exact wf
  | cons c cs =>
    rw [stepRunsFrontCommand c cs s queue] at h
    exact exec_canonical (s := { s with pending := cs }) wf c t h

end Sys2Proof.Machine
end
